-- ==== Sys2Proof/Word.lean ====
section
/-!
DEFINITION. The word types of the part: bytes, counters of the widths the manual gives, device time with its
epoch, and one 64-byte line with its byte enables.
-/
namespace Sys2Proof

/-- The smallest unit of the stacked DRAM and of every record, line and packet (R160, R184). -/
abbrev Byte := BitVec 8
/-- A 16-bit count, index or tag. -/
abbrev U16 := BitVec 16
/-- A 32-bit count, index or tag. -/
abbrev U32 := BitVec 32
/-- A 64-bit value. -/
abbrev U64 := BitVec 64
/-- Device time, 40 bits of microseconds (R119). -/
abbrev DevTime := BitVec 40

/-- A device time kept together with the epoch it was formed in (R119). -/
structure Stamp where
  time  : DevTime
  epoch : Byte
  deriving DecidableEq, Repr

/-- A running timer holds the microseconds left; a stopped one is `none`. -/
abbrev Timer := Option Nat

/-- Number of a 64-byte line of the 2 GiB host address space (chapter 8). -/
abbrev HostLine := BitVec 25

end Sys2Proof
end

