-- ==== Sys2Proof/Syntax.lean ====
section
/-!
DEFINITION. The commands of the part: one constructor per row of spec/opcode_table.json, in the table's order. The
table gives the rows no operands; those chosen here are what the outside supplies at that moment (log 2).
-/
namespace Sys2Proof

/-- The four switched rails in bring-up order (R135). -/
inductive Rail where
  | sensor | audio | panel | host
  deriving DecidableEq, Repr

/-- The two panels, and with them the two eyes and the two speaker sides. -/
inductive Side where
  | left | right
  deriving DecidableEq, Repr

/-- What the DRAM's check finds in one 8-byte word (R164): a single-bit error, or an uncorrectable one with the
eight bytes as they are read (byte 0 in the low bits). -/
inductive Flaw where
  | single
  | double (raw : U64)
  deriving DecidableEq, Repr

/-- The bit errors that have come about in the line being served, by word number 0 to 7 (log 7). -/
abbrev EccReport := List (Fin 8 × Flaw)

/-- One host transaction (chapter 8): a line read, or a line write with 64 byte enables. Byte `i` of the line is bits
`8 i` to `8 i + 7` of `data`, and bit `i` of `enables` enables it. -/
inductive HostTx where
  | read  (line : HostLine)
  | write (line : HostLine) (data : BitVec 512) (enables : BitVec 64)
  deriving DecidableEq, Repr

/-- One class's field of a downlink ACK (R189, R95). -/
structure AckField where
  seq   : U16
  valid : Bool
  deriving DecidableEq, Repr

/-- The fields of a FRAME_BEGIN payload (R189). Surface bytes are kept as sent. -/
structure FrameBegin where
  tag     : U32
  left    : Byte
  right   : Byte
  present : Bool
  target  : Option Stamp
  pose    : Option U32
  deriving DecidableEq, Repr

/-- The fields of a SLICE payload: the slice header and the pixel bytes after it (R189). -/
structure Slice where
  surface  : Byte
  firstRow : U16
  rowCount : U16
  pixels   : List Byte
  deriving DecidableEq, Repr

/-- A downlink packet as TC judges it at its arrival (R78): one that fails a check, or a valid one with its fields. -/
inductive Packet where
  | badCrc
  | badFormat
  | keepalive
  | ack        (photon sensor message : AckField)
  | frameBegin (seq : U16) (fields : FrameBegin)
  | slice      (fields : Slice)
  | frameEnd   (seq : U16) (tag : U32)
  | audio      (frames : List U32)
  | message    (seq : U16) (bytes : List Byte)
  | time       (console : U64)
  | wake       (seq : U16)
  deriving DecidableEq, Repr

/-- Input levels seen at a microsecond step whose change has no row of its own: the data-ready inputs and THERM_CRIT
found low, and whether PWR_BTN is low (log 10). -/
structure PinLows where
  drdy      : BitVec 4
  thermCrit : Bool
  button    : Bool
  deriving DecidableEq, Repr

/-- The commands. Each docstring names the row and what its operands are. -/
inductive Instr where
  /-- POWER_ON_RESET. -/
  | powerOnReset
  /-- CORE_SUPPLY_SETTLED: the straps PLAN_SEL[1:0] as sampled. -/
  | coreSupplySettled (planSel : Fin 4)
  /-- RAIL_POWER_GOOD_RISE: the rail. -/
  | railPowerGoodRise (r : Rail)
  /-- RAIL_BRING_UP_TIMER_EXPIRY. -/
  | railBringUpTimerExpiry
  /-- RAIL_POWER_GOOD_FALL: the rail. -/
  | railPowerGoodFall (r : Rail)
  /-- RAIL_OFF_TIMER_EXPIRY. -/
  | railOffTimerExpiry
  /-- PLAN_INITIALIZATION_COMPLETE: the ECC report of the last image line. -/
  | planInitializationComplete (ecc : EccReport)
  /-- HOST_READ: the line. -/
  | hostRead (line : HostLine)
  /-- STATUS_PAGE_READ: the line of the page. -/
  | statusPageRead (page : Fin 128)
  /-- FRESH_READ: the line. -/
  | freshRead (line : HostLine)
  /-- HOST_WRITE: the line, its data and byte enables. -/
  | hostWrite (line : HostLine) (data : BitVec 512) (enables : BitVec 64)
  /-- HELD_TRANSACTION: the transaction. -/
  | heldTransaction (tx : HostTx)
  /-- SENSOR_RING_CONSUME_WRITE: the ring, the word written and its byte enables. -/
  | sensorRingConsumeWrite (ring : Fin 8) (value : U32) (enables : BitVec 4)
  /-- MESSAGE_RING_CONSUME_WRITE: the word written and its byte enables. -/
  | messageRingConsumeWrite (value : U32) (enables : BitVec 4)
  /-- AUDIO_RING1_PRODUCE_WRITE: the word written and its byte enables. -/
  | audioRing1ProduceWrite (value : U32) (enables : BitVec 4)
  /-- AUDIO_RING2_CONSUME_WRITE: the word written and its byte enables. -/
  | audioRing2ConsumeWrite (value : U32) (enables : BitVec 4)
  /-- FENCE_WORD_WRITE: the surface, the word written and its byte enables. -/
  | fenceWordWrite (surface : Fin 6) (value : U32) (enables : BitVec 4)
  /-- REGION_RECORD_ARM: the record, its field bytes from offset 0 and its arm sequence (log 12; so all arms). -/
  | regionRecordArm (n : Fin 32) (fields : List Byte) (seq : U32)
  /-- SURFACE_CONFIGURE: as above; the command byte is NONE whatever the fields hold. -/
  | surfaceConfigure (n : Fin 6) (fields : List Byte) (seq : U32)
  /-- SURFACE_OPEN: the record and its arm sequence. -/
  | surfaceOpen (n : Fin 6) (seq : U32)
  /-- SURFACE_RELEASE: the record and its arm sequence. -/
  | surfaceRelease (n : Fin 6) (seq : U32)
  /-- TIMING_SET_ARM. -/
  | timingSetArm (fields : List Byte) (seq : U32)
  /-- PRESENT_SLOT_ARM. -/
  | presentSlotArm (n : Fin 4) (fields : List Byte) (seq : U32)
  /-- SENSOR_CHANNEL_ARM. -/
  | sensorChannelArm (n : Fin 4) (fields : List Byte) (seq : U32)
  /-- ROUTING_RULE_ARM. -/
  | routingRuleArm (n : Fin 16) (fields : List Byte) (seq : U32)
  /-- SENSOR_RING_ARM. -/
  | sensorRingArm (n : Fin 8) (fields : List Byte) (seq : U32)
  /-- AUDIO_RING_ARM. -/
  | audioRingArm (n : Fin 3) (fields : List Byte) (seq : U32)
  /-- AUDIO_OUTPUT_ARM. -/
  | audioOutputArm (fields : List Byte) (seq : U32)
  /-- MESSAGE_RING_ARM. -/
  | messageRingArm (fields : List Byte) (seq : U32)
  /-- MESSAGE_SLOT_ARM. -/
  | messageSlotArm (n : Fin 3) (fields : List Byte) (seq : U32)
  /-- TRIGGER_RECORD_ARM: the arm sequence; the fields stand in the record's first line, written before (log 12). -/
  | triggerRecordArm (seq : U32)
  /-- BEACON_RECORD_ARM. -/
  | beaconRecordArm (n : Fin 2) (fields : List Byte) (seq : U32)
  /-- TIME_RECORD_ARM. -/
  | timeRecordArm (fields : List Byte) (seq : U32)
  /-- POWER_REQUEST_NONE: the settings bytes from offset 1 and the arm sequence (so all power requests). -/
  | powerRequestNone (settings : List Byte) (seq : U32)
  /-- POWER_REQUEST_ACTIVE. -/
  | powerRequestActive (settings : List Byte) (seq : U32)
  /-- POWER_REQUEST_DIMMED. -/
  | powerRequestDimmed (settings : List Byte) (seq : U32)
  /-- POWER_REQUEST_STANDBY. -/
  | powerRequestStandby (settings : List Byte) (seq : U32)
  /-- POWER_REQUEST_OFF. -/
  | powerRequestOff (settings : List Byte) (seq : U32)
  /-- EVENT_RECORD_ARM with end-of-service no: the enable set, the acknowledge set and the arm sequence. -/
  | eventRecordArm (enable ack : U32) (seq : U32)
  /-- END_OF_SERVICE: an event record arm with end-of-service yes. -/
  | endOfService (enable ack : U32) (seq : U32)
  /-- PART_RECORD_ARM with soft reset no: the arm sequence. -/
  | partRecordArm (seq : U32)
  /-- SOFT_RESET: a part record arm with soft reset yes. -/
  | softReset (seq : U32)
  /-- SCAN_END. -/
  | scanEnd
  /-- STROBE_BEGIN. -/
  | strobeBegin
  /-- LIGHT_WINDOW_END. -/
  | lightWindowEnd
  /-- STROBE_END. -/
  | strobeEnd
  /-- MINIMUM_DARK_END. -/
  | minimumDarkEnd
  /-- FRAME_PERIOD_EXPIRY. -/
  | framePeriodExpiry
  /-- SYNC_LOSS_EXPIRY. -/
  | syncLossExpiry
  /-- BAND_START: the panel whose schedule's band timer expires; a BOTH surface has the left panel's only. -/
  | bandStart (panel : Side)
  /-- BAND_READ_COMPLETE: the ECC report of the line. -/
  | bandReadComplete (ecc : EccReport)
  /-- SYNC_IN_CHANGE: the pin and its new level. -/
  | syncInChange (pin : Fin 2) (level : Bool)
  /-- SB_DRDY_RISE: the channel. -/
  | sbDrdyRise (ch : Fin 4)
  /-- SENSOR_INTERVAL_EXPIRY: the channel. -/
  | sensorIntervalExpiry (ch : Fin 4)
  /-- SENSOR_TRANSFER_COMPLETE: the bytes SB_DI gave, the first read length of which are the payload. -/
  | sensorTransferComplete (din : List Byte)
  /-- SENSOR_RING_WRITE_COMPLETE: the ECC report of the line. -/
  | sensorRingWriteComplete (ecc : EccReport)
  /-- CABLE_PRESENT_RISE. -/
  | cablePresentRise
  /-- CABLE_PRESENT_FALL. -/
  | cablePresentFall
  /-- RETRY_TIMER_EXPIRY. -/
  | retryTimerExpiry
  /-- TRAINING_COMPLETE. -/
  | trainingComplete
  /-- TRAINING_TIMER_EXPIRY. -/
  | trainingTimerExpiry
  /-- RECEIVE_TIMER_EXPIRY. -/
  | receiveTimerExpiry
  /-- RECOVERY_COMPLETE. -/
  | recoveryComplete
  /-- RECOVERY_TIMER_EXPIRY. -/
  | recoveryTimerExpiry
  /-- IDLE_TIMER_EXPIRY. -/
  | idleTimerExpiry
  /-- DOWNLINK_PAUSE: the bytes of the packet that waits, header to trailer. -/
  | downlinkPause (raw : List Byte)
  /-- DOWNLINK_INVALID_PACKET: the bytes of the packet, header to trailer. -/
  | downlinkInvalidPacket (raw : List Byte)
  /-- KEEPALIVE. -/
  | keepalive
  /-- ACK: the three class fields. -/
  | ack (photon sensor message : AckField)
  /-- FRAME_BEGIN: the sequence and the payload fields. -/
  | frameBegin (seq : U16) (fields : FrameBegin)
  /-- SLICE: the payload fields. -/
  | slice (fields : Slice)
  /-- FRAME_END: the sequence and the frame tag. -/
  | frameEnd (seq : U16) (tag : U32)
  /-- AUDIO: the stereo frames, left sample in the low half. -/
  | audio (frames : List U32)
  /-- MESSAGE: the sequence and the message bytes. -/
  | message (seq : U16) (bytes : List Byte)
  /-- TIME: the console time. -/
  | time (console : U64)
  /-- WAKE: the sequence. -/
  | wake (seq : U16)
  /-- DEPOSIT_WRITE_COMPLETE: the ECC report of the line. -/
  | depositWriteComplete (ecc : EccReport)
  /-- MESSAGE_ENTRY_WRITE_COMPLETE: the ECC report of the line. -/
  | messageEntryWriteComplete (ecc : EccReport)
  /-- UPLINK_TRANSMISSION_COMPLETE. -/
  | uplinkTransmissionComplete
  /-- MESSAGE_READ_COMPLETE: the ECC report of the line. -/
  | messageReadComplete (ecc : EccReport)
  /-- ACK_TIMER_EXPIRY: the class, 0 PHOTON, 1 SENSOR, 2 MESSAGE. -/
  | ackTimerExpiry (cls : Fin 3)
  /-- AUDIO_PERIOD_BOUNDARY: the PDM bits of the period just ended, 64 to each of the 16 samples. -/
  | audioPeriodBoundary (pdm : List U64)
  /-- PWM_PERIOD_BOUNDARY. -/
  | pwmPeriodBoundary
  /-- AUDIO_FETCH_COMPLETE: the ECC report of the line. -/
  | audioFetchComplete (ecc : EccReport)
  /-- CAPTURE_WRITE_COMPLETE: the ECC report of the line. -/
  | captureWriteComplete (ecc : EccReport)
  /-- DEVICE_TIME_WRAP: the microsecond step from FFFFFFFFFFh, with the pins seen low at it (log 10). -/
  | deviceTimeWrap (lows : PinLows)
  /-- TIME_CROSSING_COMPLETE. -/
  | timeCrossingComplete
  /-- BEACON_DELAY_EXPIRY: the generator. -/
  | beaconDelayExpiry (n : Fin 2)
  /-- BEACON_WIDTH_EXPIRY: the generator. -/
  | beaconWidthExpiry (n : Fin 2)
  /-- SYNC_OUT_FOLLOW_END: the output. -/
  | syncOutFollowEnd (n : Fin 2)
  /-- ATTN_GAP_END. -/
  | attnGapEnd
  /-- BUTTON_PRESS: a debounced press. -/
  | buttonPress
  /-- BUTTON_RELEASE: a debounced release. -/
  | buttonRelease
  /-- BUTTON_OVERRIDE_EXPIRY. -/
  | buttonOverrideExpiry
  /-- THERM_ALERT_ASSERTION: the pin takes the level that means asserted. -/
  | thermAlertAssertion
  /-- THERM_ALERT_DEASSERTION: the pin takes the other level. -/
  | thermAlertDeassertion
  /-- THERMAL_TIMER_EXPIRY. -/
  | thermalTimerExpiry
  /-- THERM_CRIT_ASSERTION. -/
  | thermCritAssertion
  /-- MAIN_OK_FALL. -/
  | mainOkFall
  /-- MAIN_OK_RISE. -/
  | mainOkRise
  /-- DRAM_DRAIN_COMPLETE. -/
  | dramDrainComplete
  /-- SELF_REFRESH_ENTERED. -/
  | selfRefreshEntered
  /-- SELF_REFRESH_EXIT_COMPLETE. -/
  | selfRefreshExitComplete
  /-- HOST_READ_COMPLETE: the ECC report of the line. -/
  | hostReadComplete (ecc : EccReport)
  /-- HOST_WRITE_COMPLETE: the ECC report of the line. -/
  | hostWriteComplete (ecc : EccReport)
  /-- SCRUB_COMPLETE: the ECC report of the line. -/
  | scrubComplete (ecc : EccReport)
  /-- MICROSECOND_STEP: the pins seen low at it (log 10). -/
  | microsecondStep (lows : PinLows)
  deriving DecidableEq, Repr

end Sys2Proof
end

