-- ==== Sys2Proof/Config.lean ====
section
/-!
DEFINITION. What the manual leaves to the moment: the one free value of the model.
-/
namespace Sys2Proof

/-- Whether the active part of a speaker line's PWM period still lasts, at the moment a status page line is composed in
the one microsecond that holds the part's end: it turns on time finer than a microsecond, which the state does not hold
(R114, R118; log 21). Applied to the counter `State.free`, which the step advances. -/
opaque Config.speakerLevel : Nat → Bool

end Sys2Proof
end

