-- ==== Sys2Proof/Machine/State.lean ====
section
/-!
DEFINITION. The state of the EL-2640, block by block, as plain data; the reasons a step can stop; and the state right
after power-on reset. INVENTORY.md's "State" section lists every field with its rule.
-/
namespace Sys2Proof.Machine

/-! ### Reasons to stop -/

/-- The one fault: raised by a completion row when the request in service names a line outside the populated 1 GiB,
an address the manual says does not exist (section 2.1; log 26). Safe: no request of the part names such a line. -/
inductive Fault where
  /-- Raised by the DRAM completion rows. Safe. -/
  | noSuchLine
  deriving DecidableEq, Repr

/-- The refusals. -/
inductive Refusal where
  /-- Raised by `exec` for a row without a meaning; no arm uses it. Safe. -/
  | notModelled (mnemonic : String)
  deriving DecidableEq, Repr

/-! ### What leaves the pins -/

/-- One pixel as sent to a panel. -/
structure Rgb where
  red   : Byte
  green : Byte
  blue  : Byte
  deriving DecidableEq, Repr

/-- What the part has sent (log 11): a line to the host; a panel's frame start with the strobe level (R31); the rows
of a band, or the fallback colour for a band or (`none`) a whole frame (R38 to R40); the command bytes of a sensor
transfer (R55); an uplink packet, header to trailer (R78). -/
inductive Output where
  | hostLine (line : List Byte)
  | panelStart (panel : Side) (level : Nat)
  | panelBand (panel : Side) (band : Nat) (rows : List (List Rgb))
  | panelFallback (panel : Side) (band : Option Nat) (colour : Rgb)
  | sensorCommand (channel : Fin 4) (bytes : List Byte)
  | uplink (packet : List Byte)
  deriving DecidableEq, Repr

/-! ### Input pins -/

/-- One flag for each rail. -/
structure PerRail where
  sensor : Bool
  audio  : Bool
  panel  : Bool
  host   : Bool
  deriving DecidableEq, Repr

/-- Levels of the input pins (section 4 of the introduction). -/
structure Pins where
  cable      : Bool
  mainOk     : Bool
  thermAlert : Bool
  thermCrit  : Bool
  pg         : PerRail
  drdy       : BitVec 4
  sync       : BitVec 2
  button     : Bool
  deriving DecidableEq, Repr

/-! ### Memory -/

/-- Bytes by address: addresses strictly rising, no entry 00h, an unlisted address reads 00h (log 6). -/
abbrev Mem := List Host.Cell

/-! ### Host memory port (R152, R153) -/

/-- Why the port holds transactions (R153). -/
inductive HoldReason where
  | none | starting | softReset | standby
  deriving DecidableEq, Repr

/-- A host read not yet answered: its identity and, once ready, its line. -/
structure ReadSlot where
  id     : Nat
  answer : Option (List Byte)
  deriving DecidableEq, Repr

structure Hmp where
  reads  : List ReadSlot
  hold   : HoldReason
  held   : Option HostTx
  atPins : List HostTx
  deriving DecidableEq, Repr

/-! ### Region matcher (R157) -/

/-- A region entry as its record gives it, with its drop counter. -/
structure Region where
  valid   : Bool
  kind    : Byte
  binding : Byte
  base    : U32
  size    : U32
  drops   : U32
  deriving DecidableEq, Repr

structure Rm where
  regions     : Vector Region 32
  statusDrops : U32
  rangeDrops  : U32
  change      : U16
  deriving DecidableEq, Repr

/-! ### DRAM arbiter (R160 to R167) -/

/-- Request classes, highest first (R161). -/
inductive ReqClass where
  | scan | audio | host | deposit | ring
  deriving DecidableEq, Repr

/-- Who made a request, with what its owner needs at the completion. `room` is the deposit room the write holds
(R81), `gen` the reset generation of its issue (R64). -/
inductive Agent where
  | hostRead (id : Nat)
  | hostWrite
  | planInit
  | band (job : Nat)
  | fetch (period : Nat)
  | capture (block : Nat)
  | deposit (job : Nat) (room : Nat)
  | messageEntry (index : U16) (gen : Nat) (room : Nat)
  | messageRead (read : Nat)
  | sensorRing (ring : Fin 8) (index : U16) (gen : Nat)
  | scrub
  deriving DecidableEq, Repr

/-- What a request does: a line read, a line write of the enabled bytes (offset and value, offsets rising), or a
scrub (R160). -/
inductive ReqOp where
  | read
  | write (bytes : List (Nat × Byte))
  | scrub
  deriving DecidableEq, Repr

structure Request where
  agent : Agent
  line  : Nat
  op    : ReqOp
  deriving DecidableEq, Repr

/-- Whether the DRAM serves requests (R167). -/
inductive DramMode where
  | normal | entering | selfRefresh | exiting
  deriving DecidableEq, Repr

inductive CaptureKind where
  | uncorrectable | uncorrectableMerge | outOfRange | droppedWrite | badIndex
  deriving DecidableEq, Repr

/-- An error capture entry; its agent is named by the class (R166). -/
structure Capture where
  kind  : CaptureKind
  addr  : U32
  agent : ReqClass
  stamp : Stamp
  deriving DecidableEq, Repr

structure Da where
  requests     : List Request
  service      : Option Request
  mode         : DramMode
  corrected    : U32
  scrubs       : List Nat
  scrubMissed  : U32
  captures     : List Capture
  captureTotal : U32
  change       : U16
  flaws        : List (Nat × Flaw)
  deriving DecidableEq, Repr

/-! ### Plan unit (R169 to R178) -/

/-- Outcome codes in the order of R173, LOST last (R188). -/
inductive Outcome where
  | none | taken | pending | refusedField | refusedState | refusedFull | refusedBusy | lost
  deriving DecidableEq, Repr

structure OutcomeEntry where
  lastSeen  : U32
  outcome   : Outcome
  overtaken : U16
  deriving DecidableEq, Repr

structure Pu where
  sel        : Fin 4
  shadow     : Mem
  table      : Vector OutcomeEntry 86
  softResets : U16
  change     : U16
  initLeft   : Nat
  deriving DecidableEq, Repr

/-! ### Surface tracker (chapter 1) -/

inductive PixelFormat where
  | rgba8 | rgb565
  deriving DecidableEq, Repr

inductive Eye where
  | left | right | both
  deriving DecidableEq, Repr

inductive Owner where
  | host | tether
  deriving DecidableEq, Repr

inductive CompletionMode where
  | ordered | fenced
  deriving DecidableEq, Repr

structure SurfaceConfig where
  base     : Nat
  pitch    : Nat
  width    : Nat
  height   : Nat
  format   : PixelFormat
  eye      : Eye
  owner    : Owner
  mode     : CompletionMode
  bandRows : Nat
  deriving DecidableEq, Repr

inductive SurfaceState where
  | free | opened | ready | queued | current | held
  deriving DecidableEq, Repr

/-- One band's scoreboard entry (R5). -/
structure Band where
  complete    : Bool
  scanned     : Bool
  late        : Bool
  substituted : Bool
  deriving DecidableEq, Repr

structure Surface where
  config : Option SurfaceConfig
  state  : SurfaceState
  bands  : List Band
  fence  : U32
  deriving DecidableEq, Repr

/-- A present queue entry (R10). -/
structure Entry where
  tag    : U32
  left   : Fin 6
  right  : Option (Fin 6)
  target : Option Stamp
  pose   : Option U32
  source : Owner
  deriving DecidableEq, Repr

/-- The current or previous frame (R11); a RELEASE can take a surface out of the previous frame (R4). -/
structure Frame where
  tag         : U32
  left        : Option (Fin 6)
  right       : Option (Fin 6)
  target      : Option Stamp
  pose        : Option U32
  source      : Owner
  repeats     : U16
  substituted : U16
  bandLate    : Bool
  deriving DecidableEq, Repr

/-- The open tether frame (R17): each surface with its released mark. -/
structure TetherFrame where
  tag           : U32
  left          : Fin 6
  leftReleased  : Bool
  right         : Option (Fin 6)
  rightReleased : Bool
  target        : Option Stamp
  pose          : Option U32
  present       : Bool
  ident         : Nat
  deriving DecidableEq, Repr

inductive RejectCause where
  | none | state | full | tag | abandoned
  deriving DecidableEq, Repr

structure St where
  surfaces    : Vector Surface 6
  queue       : List Entry
  current     : Option Frame
  previous    : Option Frame
  tether      : Option TetherFrame
  nextIdent   : Nat
  barred      : Bool
  dropped     : U32
  rejectCause : RejectCause
  rejectTag   : U32
  change      : U16
  deriving DecidableEq, Repr

/-! ### Scan-out engine and strobe generator (chapter 2) -/

inductive SyncMode where
  | free | triggered
  deriving DecidableEq, Repr

inductive Policy where
  | fifo | latest
  deriving DecidableEq, Repr

inductive StrobeSelect where
  | off | pulse | inverted | released
  deriving DecidableEq, Repr

structure TimingSet where
  scanEnable   : Bool
  sync         : SyncMode
  policy       : Policy
  reloadSkip   : Nat
  photonUplink : Bool
  lineLeft     : StrobeSelect
  lineRight    : StrobeSelect
  level        : Nat
  period       : Nat
  scan         : Nat
  settle       : Nat
  strobeWidth  : Nat
  lossLimit    : Nat
  panelWidth   : Nat
  panelHeight  : Nat
  fallback     : Rgb
  deriving DecidableEq, Repr

inductive ScanState where
  | stopped | waiting | running
  deriving DecidableEq, Repr

inductive Phase where
  | scan | settle | strobe | dark
  deriving DecidableEq, Repr

/-- A photon report (R46). -/
structure Photon where
  frame       : U32
  tag         : U32
  pose        : Option U32
  stamp       : Stamp
  repeats     : U16
  substituted : U16
  cut         : Bool
  deriving DecidableEq, Repr

/-- A panel's band schedule (R38); `both` when its band starts serve both panels. -/
structure Schedule where
  panel   : Side
  both    : Bool
  surface : Fin 6
  next    : Nat
  count   : Nat
  deriving DecidableEq, Repr

/-- A band read in progress (R39, R40): the surface read, its rows, the reads outstanding, whether a read met an
uncorrectable error, whether the band's window has ended (its rows have then gone out, log 16), and the lines received
inside the window. -/
structure BandJob where
  id       : Nat
  panel    : Side
  band     : Nat
  config   : SurfaceConfig
  firstRow : Nat
  rowCount : Nat
  width    : Nat
  left     : Nat
  failed   : Bool
  late     : Bool
  lines    : List (Nat × List Byte)
  deriving DecidableEq, Repr

structure So where
  applied       : TimingSet
  pendingSet    : Option (TimingSet × Nat)
  state         : ScanState
  phase         : Phase
  phaseTimer    : Timer
  darkTimer     : Timer
  periodTimer   : Timer
  syncTimer     : Timer
  light         : Timer
  sinceBoundary : Nat
  frameNumber   : U32
  limitPassed   : Bool
  lastBoundary  : Stamp
  byTrigger     : Bool
  coasting      : Bool
  measured      : Option Nat
  early         : U32
  edgeKill      : Bool
  powerCut      : Bool
  stopRequested : Bool
  schedules     : List Schedule
  jobs          : List BandJob
  lastThrottle  : Nat
  lastPhoton    : Option Stamp
  reports       : List Photon
  change        : U16
  failedBands   : U32
  underruns     : U32
  suppressed    : U32
  deriving DecidableEq, Repr

/-! ### Sensor hub (chapter 3) -/

inductive ChannelMode where
  | dataReady | interval | matrix
  deriving DecidableEq, Repr

structure ChannelConfig where
  enable     : Bool
  mode       : ChannelMode
  interval   : Nat
  cmdCount   : Nat
  cmdBytes   : List Byte
  readLen    : Nat
  faultLimit : Nat
  keep       : Bool
  deriving DecidableEq, Repr

inductive ChannelState where
  | idle | running | fault
  deriving DecidableEq, Repr

/-- A held capture (R53). -/
structure Held where
  stamp   : Stamp
  frame   : U32
  overrun : Byte
  deriving DecidableEq, Repr

structure Channel where
  config       : ChannelConfig
  state        : ChannelState
  holder       : Option Held
  timer        : Timer
  seq          : U16
  faultCleared : Bool
  resume       : Bool
  consecutive  : Byte
  noResponse   : U32
  overruns     : U32
  unrouted     : U32
  deriving DecidableEq, Repr

/-- The transfer on the sensor bus, with what it began with (R54, R55). -/
structure Transfer where
  channel    : Fin 4
  capture    : Held
  readLen    : Nat
  faultLimit : Nat
  left       : Nat
  deriving DecidableEq, Repr

/-- A sensor record (R58). -/
structure SensorRec where
  channel      : Fin 4
  faultCleared : Bool
  seq          : U16
  stamp        : Stamp
  frame        : U32
  overrun      : Byte
  length       : Nat
  payload      : List Byte
  deriving DecidableEq, Repr

inductive Condition where
  | none | above | below | equal
  deriving DecidableEq, Repr

inductive PresenceAction where
  | none | on | off
  deriving DecidableEq, Repr

structure Rule where
  enable   : Bool
  channels : BitVec 4
  cond     : Condition
  offset   : Nat
  mask     : Byte
  value    : Byte
  ring     : Option (Fin 8)
  slot     : Option (Fin 4)
  uplink   : Bool
  presence : PresenceAction
  final    : Bool
  deriving DecidableEq, Repr

/-- A sensor ring (R63); `done` lists the indices whose writes completed ahead of produce (R64). -/
structure SensorRing where
  enabled  : Bool
  base     : Nat
  capacity : Nat
  issued   : U16
  produce  : U16
  consume  : U16
  done     : List U16
  drops    : U32
  deriving DecidableEq, Repr

structure FreshSlot where
  record  : Option SensorRec
  updates : U32
  deriving DecidableEq, Repr

structure Sh where
  channels : Vector Channel 4
  bus      : Option Transfer
  rules    : Vector Rule 16
  rings    : Vector SensorRing 8
  slots    : Vector FreshSlot 4
  hold     : Bool
  deriving DecidableEq, Repr

/-! ### Tether controller (chapter 4) -/

inductive LinkState where
  | down | training | up | recovery
  deriving DecidableEq, Repr

/-- A tether surface's row marks and the frame that last opened it (R19). -/
structure Frontier where
  issue    : Option Nat
  deposit  : Option Nat
  openedBy : Option Nat
  deriving DecidableEq, Repr

/-- An in-order slice whose writes, or those of an earlier slice of its frame, are not all complete (R19). -/
structure SliceJob where
  id      : Nat
  ident   : Nat
  surface : Fin 6
  lastRow : Nat
  left    : Nat
  deriving DecidableEq, Repr

/-- An AUDIO payload accepted for ring 0 and not yet counted by produce (R105). -/
structure AudioJob where
  id     : Nat
  frames : Nat
  left   : Nat
  deriving DecidableEq, Repr

/-- A message ring entry whose writes, or those of an earlier entry, are not all complete (R85). -/
structure EntryJob where
  index : U16
  left  : Nat
  deriving DecidableEq, Repr

structure MessageRing where
  enabled      : Bool
  base         : Nat
  count        : Nat
  issued       : U16
  produce      : U16
  consume      : U16
  jobs         : List EntryJob
  backPressure : U32
  standbyDrops : U32
  noRingDrops  : U32
  lengthDrops  : U32
  deriving DecidableEq, Repr

structure TimePair where
  console : U64
  stamp   : Stamp
  deriving DecidableEq, Repr

/-- What an uplink entry carries (R90, R91). -/
inductive Content where
  | photon (report : Photon)
  | sensor (records : List SensorRec) (batchOpen : Bool)
  | message (slot : Fin 3) (addr length : Nat)
  | audioIn (frames : List U16)
  deriving DecidableEq, Repr

structure UplinkEntry where
  id      : Nat
  content : Content
  deriving DecidableEq, Repr

/-- An uplink history entry (R94). -/
structure HistEntry where
  id      : Nat
  seq     : U16
  content : Content
  sends   : Nat
  resend  : Bool
  belongs : Bool
  deriving DecidableEq, Repr

/-- The uplink lane (R92, R93): free, held while the reads of a MESSAGE are in flight, or sending a packet. -/
inductive Lane where
  | free
  | reading (entry read left : Nat) (lines : List (Nat × List Byte)) (damaged cancelled : Bool)
  | sending (packet : List Byte) (entry left : Nat)
  deriving DecidableEq, Repr

structure Tc where
  link         : LinkState
  since        : Stamp
  upFromRecovery : Bool
  retry        : Timer
  training     : Timer
  recovery     : Timer
  receive      : Timer
  idle         : Timer
  paused       : Option (Nat × Packet)
  restricted   : Bool
  attempts     : U32
  recoveries   : U32
  expected     : U16
  lastTaken    : Option U16
  crcErrors    : U32
  formatErrors : U32
  duplicates   : U32
  gaps         : U32
  pauses       : U32
  frontiers    : Vector Frontier 6
  slices       : List SliceJob
  audioJobs    : List AudioJob
  dropState    : U32
  dropRange    : U32
  dropFormat   : U32
  dropStandby  : U32
  audioDrops   : U32
  ring         : MessageRing
  pairs        : List TimePair
  pairChange   : U16
  ackRequest   : Bool
  echoRequest  : Option TimePair
  keepRequest  : Bool
  echoReplaced : U32
  queue        : List UplinkEntry
  history      : Vector (List HistEntry) 3
  histChange   : U16
  nextSeq      : Vector U16 3
  ackTimers    : Vector Timer 3
  lane         : Lane
  fullDrops    : Vector U32 4
  unlinked     : Vector U32 4
  resent       : Vector U32 3
  badAcks      : U32
  inProgress   : Vector Bool 3
  deriving DecidableEq, Repr

/-! ### Audio unit (chapter 5) -/

inductive PlayState where
  | stopped | priming | playing
  deriving DecidableEq, Repr

inductive Correction where
  | none | drop | again
  deriving DecidableEq, Repr

inductive SpeakerSelect where
  | low | pwm | pwmInverted | released
  deriving DecidableEq, Repr

/-- An audio ring (R103); the fields a ring's role does not use stand idle. -/
structure AudioRing where
  enabled   : Bool
  base      : Nat
  capacity  : Nat
  threshold : Nat
  gain      : Nat
  uplink    : Byte
  issued    : U32
  produce   : U32
  taken     : U32
  consume   : U32
  play      : PlayState
  underruns : U32
  lates     : U32
  faileds   : U32
  overruns  : U32
  deriving DecidableEq, Repr

/-- The frames a playback ring chose at one boundary (R109): their addresses and samples once read, the reads
outstanding, the correction they carry, and whether their mix is over. -/
structure FetchPeriod where
  id     : Nat
  ring   : Fin 3
  corr   : Correction
  count  : Nat
  frames : List (Nat × Option U32)
  left   : Nat
  mixed  : Bool
  deriving DecidableEq, Repr

/-- A capture block of 16 frames being written (R115). -/
structure CaptureBlock where
  id   : Nat
  left : Nat
  deriving DecidableEq, Repr

structure AudioOut where
  volume : Nat
  mute   : Bool
  dither : Bool
  taps   : U16
  left   : SpeakerSelect
  right  : SpeakerSelect
  deriving DecidableEq, Repr

structure Au where
  running     : Bool
  timer       : Timer
  rings       : Vector AudioRing 3
  fetches     : List FetchPeriod
  blocks      : List CaptureBlock
  driftCount  : Nat
  scheduled   : Correction
  dropCorrs   : U32
  repeatCorrs : U32
  output      : AudioOut
  lfsr        : U16
  duties      : List (Nat × Nat)
  pwmNext     : Nat
  dutyLeft    : Nat
  dutyRight   : Nat
  selLeft     : SpeakerSelect
  selRight    : SpeakerSelect
  deriving DecidableEq, Repr

/-! ### Timebase (chapter 6) -/

inductive AdjustMode where
  | set | add
  deriving DecidableEq, Repr

/-- An adjust in the holding stage (R120), with the microseconds since its arm. -/
structure Adjust where
  mode  : AdjustMode
  value : U64
  gen   : Nat
  age   : Nat
  deriving DecidableEq, Repr

structure Tb where
  now      : Stamp
  holding  : Option Adjust
  taken    : U32
  snapshot : Stamp
  fresh    : Bool
  refresh  : Bool
  deriving DecidableEq, Repr

/-! ### Trigger matrix (chapter 6) -/

inductive EdgeMode where
  | rising | falling | both | level
  deriving DecidableEq, Repr

/-- An input consumer: its selection and the level it last saw after invert (R126, R127). -/
structure Consumer where
  source : Fin 26
  invert : Bool
  mode   : EdgeMode
  seen   : Bool
  deriving DecidableEq, Repr

inductive SyncSelect where
  | low | high | follow | followInverted | released
  deriving DecidableEq, Repr

structure SyncOut where
  source : Fin 26
  select : SyncSelect
  follow : Timer
  deriving DecidableEq, Repr

inductive BeaconSelect where
  | low | high | pulse | pulseInverted | released
  deriving DecidableEq, Repr

inductive BeaconState where
  | idle | delay | pulse
  deriving DecidableEq, Repr

structure Beacon where
  delay   : Nat
  width   : Nat
  restart : Bool
  select  : BeaconSelect
  state   : BeaconState
  timer   : Timer
  pulses  : U32
  ignored : U32
  deriving DecidableEq, Repr

structure Tm where
  consumers  : Vector Consumer 8
  outs       : Vector SyncOut 2
  beacons    : Vector Beacon 2
  beaconsOff : Bool
  pulses     : List (Fin 26)
  deriving DecidableEq, Repr

/-! ### Power controller (chapter 7) -/

inductive PowerState where
  | off | starting | active | dimmed | enteringStandby | standby | waking | stopping
  deriving DecidableEq, Repr

/-- Where a transition stands (R135, R140, R143, R145): for the rails, the one waited for and those after it. -/
inductive PowerStep where
  | none
  | startCore
  | startRail (cur : Rail) (rest : List Rail)
  | startPlan
  | enterScan
  | enterDrain
  | enterRefresh
  | wakeExit
  | wakeRail (cur : Rail) (rest : List Rail)
  | stopRail (cur : Rail) (rest : List Rail)
  deriving DecidableEq, Repr

inductive DimCause where
  | none | request | presence
  deriving DecidableEq, Repr

inductive WakeCause where
  | none | button | presence | tetherWake | hostAccess | mainReturn
  deriving DecidableEq, Repr

inductive StopCause where
  | none | request | buttonOverride | powerFault | mainLost | thermalCritical
  deriving DecidableEq, Repr

/-- The always-on settings of the power record (R133, R137). -/
structure PowerSettings where
  software     : Nat
  override     : Nat
  autoDim      : Bool
  wakePresence : Bool
  wakeTether   : Bool
  restart      : Bool
  activeHigh   : Bool
  deriving DecidableEq, Repr

structure Pwc where
  state         : PowerState
  step          : PowerStep
  enables       : PerRail
  watched       : PerRail
  railTimer     : Timer
  hostReset     : Bool
  settings      : PowerSettings
  presence      : Bool
  dimCause      : DimCause
  lastWake      : WakeCause
  lastStop      : StopCause
  failedRail    : Option Rail
  mainLoss      : Bool
  keptWake      : Option WakeCause
  pressed       : Bool
  debounce      : Timer
  overrideTimer : Timer
  overrideOn    : Bool
  thermalTimer  : Timer
  deriving DecidableEq, Repr

/-! ### Event unit (chapter 10) -/

structure Eu where
  pendingSet : BitVec 28
  enableSet  : BitVec 28
  counts     : Vector U16 28
  gap        : Timer
  deriving DecidableEq, Repr

/-! ### The whole machine -/

/-- The state of the part. `pending` is the queue of commands; `out`, `free` and `nextId` are the model's own. -/
structure State where
  pending    : List Instr
  pins       : Pins
  mem        : Mem
  hmp        : Hmp
  rm         : Rm
  da         : Da
  pu         : Pu
  st         : St
  so         : So
  sh         : Sh
  tc         : Tc
  au         : Au
  tb         : Tb
  tm         : Tm
  pwc        : Pwc
  eu         : Eu
  generation : Nat
  nextId     : Nat
  free       : Nat
  out        : List Output
  deriving DecidableEq, Repr

/-! ### Values after reset -/

def Stamp.zero : Stamp := ⟨0, 0⟩

def PerRail.none : PerRail := ⟨false, false, false, false⟩

def Hmp.reset : Hmp := { reads := [], hold := .none, held := none, atPins := [] }

/-- Every entry invalid, every counter 0 (R157). -/
def Rm.reset : Rm :=
  { regions := Vector.replicate 32 ⟨false, 0, 0, 0, 0, 0⟩, statusDrops := 0, rangeDrops := 0, change := 0 }

/-- No request, no listed scrub or capture, DRAM out of self-refresh (R160, R165, R166). -/
def Da.reset : Da :=
  { requests := [], service := none, mode := .normal, corrected := 0, scrubs := [], scrubMissed := 0, captures := [],
    captureTotal := 0, change := 0, flaws := [] }

def OutcomeEntry.reset : OutcomeEntry := ⟨0, .none, 0⟩

def Pu.reset : Pu :=
  { sel := 0, shadow := [], table := Vector.replicate 86 OutcomeEntry.reset, softResets := 0, change := 0,
    initLeft := 0 }

/-- FREE and unconfigured, no bands, fence value 0 (R2). -/
def Surface.reset : Surface := { config := none, state := .free, bands := [], fence := 0 }

def St.reset : St :=
  { surfaces := Vector.replicate 6 Surface.reset, queue := [], current := none, previous := none, tether := none,
    nextIdent := 0, barred := false, dropped := 0, rejectCause := .none, rejectTag := 0, change := 0 }

/-- The default timing set (R24). -/
def TimingSet.default : TimingSet :=
  { scanEnable := false, sync := .free, policy := .fifo, reloadSkip := 0, photonUplink := false, lineLeft := .off,
    lineRight := .off, level := 32, period := 8333, scan := 5500, settle := 300, strobeWidth := 1500,
    lossLimit := 16666, panelWidth := 2160, panelHeight := 2160, fallback := ⟨0, 0, 0⟩ }

/-- R24, R29, R32, R34 to R36, R46, R47, R49. -/
def So.reset : So :=
  { applied := TimingSet.default, pendingSet := none, state := .stopped, phase := .scan, phaseTimer := none,
    darkTimer := none, periodTimer := none, syncTimer := none, light := none, sinceBoundary := 0, frameNumber := 0,
    limitPassed := false, lastBoundary := Stamp.zero, byTrigger := false, coasting := false, measured := none,
    early := 0, edgeKill := false, powerCut := false, stopRequested := false, schedules := [], jobs := [],
    lastThrottle := 8, lastPhoton := none, reports := [], change := 0, failedBands := 0, underruns := 0,
    suppressed := 0 }

/-- The default image's channel (R51, R184). -/
def Channel.reset : Channel :=
  { config := { enable := false, mode := .dataReady, interval := 1000, cmdCount := 0, cmdBytes := [0, 0, 0, 0],
                readLen := 1, faultLimit := 4, keep := false },
    state := .idle, holder := none, timer := none, seq := 0, faultCleared := false, resume := false,
    consecutive := 0, noResponse := 0, overruns := 0, unrouted := 0 }

/-- A disabled rule as the default image's zeros give it (R59, R184). -/
def Rule.reset : Rule :=
  { enable := false, channels := 0, cond := .none, offset := 0, mask := 0, value := 0, ring := some 0,
    slot := some 0, uplink := false, presence := .none, final := false }

def SensorRing.reset : SensorRing :=
  { enabled := false, base := 0, capacity := 16, issued := 0, produce := 0, consume := 0, done := [], drops := 0 }

def Sh.reset : Sh :=
  { channels := Vector.replicate 4 Channel.reset, bus := none, rules := Vector.replicate 16 Rule.reset,
    rings := Vector.replicate 8 SensorRing.reset, slots := Vector.replicate 4 ⟨none, 0⟩, hold := false }

def MessageRing.reset : MessageRing :=
  { enabled := false, base := 0, count := 4, issued := 0, produce := 0, consume := 0, jobs := [], backPressure := 0,
    standbyDrops := 0, noRingDrops := 0, lengthDrops := 0 }

/-- The link DOWN with every timer stopped (R73, R74, R101). -/
def Tc.reset : Tc :=
  { link := .down, since := Stamp.zero, upFromRecovery := false, retry := none, training := none, recovery := none,
    receive := none, idle := none, paused := none, restricted := false, attempts := 0, recoveries := 0, expected := 0,
    lastTaken := none, crcErrors := 0, formatErrors := 0, duplicates := 0, gaps := 0, pauses := 0,
    frontiers := Vector.replicate 6 ⟨none, none, none⟩, slices := [], audioJobs := [], dropState := 0, dropRange := 0,
    dropFormat := 0, dropStandby := 0, audioDrops := 0, ring := MessageRing.reset, pairs := [], pairChange := 0,
    ackRequest := false, echoRequest := none, keepRequest := false, echoReplaced := 0, queue := [],
    history := Vector.replicate 3 [], histChange := 0, nextSeq := Vector.replicate 3 0,
    ackTimers := Vector.replicate 3 none, lane := .free, fullDrops := Vector.replicate 4 0,
    unlinked := Vector.replicate 4 0, resent := Vector.replicate 3 0, badAcks := 0,
    inProgress := Vector.replicate 3 false }

def AudioRing.reset : AudioRing :=
  { enabled := false, base := 0, capacity := 256, threshold := 96, gain := 256, uplink := 0, issued := 0, produce := 0,
    taken := 0, consume := 0, play := .stopped, underruns := 0, lates := 0, faileds := 0, overruns := 0 }

def AudioOut.reset : AudioOut :=
  { volume := 256, mute := false, dither := false, taps := 0xD008, left := .low, right := .low }

/-- R103, R111, R113, R117; the stages carry silence (log 24). -/
def Au.reset : Au :=
  { running := false, timer := none, rings := Vector.replicate 3 AudioRing.reset, fetches := [], blocks := [],
    driftCount := 0, scheduled := .none, dropCorrs := 0, repeatCorrs := 0, output := AudioOut.reset, lfsr := 1,
    duties := List.replicate 48 (512, 512), pwmNext := 48, dutyLeft := 512, dutyRight := 512, selLeft := .low,
    selRight := .low }

/-- Device time 0, epoch 0, no adjust pending (R119, R121). -/
def Tb.reset : Tb :=
  { now := Stamp.zero, holding := none, taken := 0, snapshot := Stamp.zero, fresh := false, refresh := true }

def Beacon.reset : Beacon :=
  { delay := 0, width := 1, restart := false, select := .low, state := .idle, timer := none, pulses := 0,
    ignored := 0 }

/-- Every consumer on LOW (R127), the beacons IDLE (R129). -/
def Tm.reset : Tm :=
  { consumers := Vector.replicate 8 ⟨0, false, .rising, false⟩, outs := Vector.replicate 2 ⟨0, .low, none⟩,
    beacons := Vector.replicate 2 Beacon.reset, beaconsOff := false, pulses := [] }

/-- The table of R133. -/
def Pwc.reset : Pwc :=
  { state := .off, step := .none, enables := PerRail.none, watched := PerRail.none, railTimer := none,
    hostReset := true,
    settings := { software := 8, override := 4, autoDim := false, wakePresence := true, wakeTether := true,
                  restart := false, activeHigh := false },
    presence := true, dimCause := .none, lastWake := .none, lastStop := .none, failedRail := none, mainLoss := false,
    keptWake := none, pressed := false, debounce := none, overrideTimer := none, overrideOn := false, thermalTimer := none }

def Eu.reset : Eu :=
  { pendingSet := 0, enableSet := 0, counts := Vector.replicate 28 0, gap := none }

/-- Input levels before anything has been seen of them (log 5). -/
def Pins.reset : Pins :=
  { cable := false, mainOk := false, thermAlert := true, thermCrit := false, pg := PerRail.none, drdy := 0,
    sync := 0, button := true }

/-- The part right after power-on reset: OFF, device time 0 (R119, R133); the core domain is off, and its fields stand
at their core-reset values (log 5). -/
def State.reset : State :=
  { pending := [], pins := Pins.reset, mem := [], hmp := Hmp.reset, rm := Rm.reset, da := Da.reset, pu := Pu.reset,
    st := St.reset, so := So.reset, sh := Sh.reset, tc := Tc.reset, au := Au.reset, tb := Tb.reset, tm := Tm.reset,
    pwc := Pwc.reset, eu := Eu.reset, generation := 0, nextId := 0, free := 0, out := [] }

end Sys2Proof.Machine
end

