-- ==== Sys2Proof/Machine/Ops.lean ====
section
/-!
DEFINITION. The named operations the blocks share: fixed-size tables, byte strings, timers, the memory, and the DRAM
arbiter's request list, service, error correction, scrubs and captures (chapter 8).
-/
namespace Sys2Proof.Machine

/-! ### Block updates -/

def State.onPins (f : Pins → Pins) (s : State) : State := { s with pins := f s.pins }
def State.onMem (f : Mem → Mem) (s : State) : State := { s with mem := f s.mem }
def State.onHmp (f : Hmp → Hmp) (s : State) : State := { s with hmp := f s.hmp }
def State.onRm (f : Rm → Rm) (s : State) : State := { s with rm := f s.rm }
def State.onDa (f : Da → Da) (s : State) : State := { s with da := f s.da }
def State.onPu (f : Pu → Pu) (s : State) : State := { s with pu := f s.pu }
def State.onSt (f : St → St) (s : State) : State := { s with st := f s.st }
def State.onSo (f : So → So) (s : State) : State := { s with so := f s.so }
def State.onSh (f : Sh → Sh) (s : State) : State := { s with sh := f s.sh }
def State.onTc (f : Tc → Tc) (s : State) : State := { s with tc := f s.tc }
def State.onAu (f : Au → Au) (s : State) : State := { s with au := f s.au }
def State.onTb (f : Tb → Tb) (s : State) : State := { s with tb := f s.tb }
def State.onTm (f : Tm → Tm) (s : State) : State := { s with tm := f s.tm }
def State.onPwc (f : Pwc → Pwc) (s : State) : State := { s with pwc := f s.pwc }
def State.onEu (f : Eu → Eu) (s : State) : State := { s with eu := f s.eu }

/-- Sends something out of the pins (log 11). -/
def State.emit (o : Output) (s : State) : State := { s with out := s.out ++ [o] }

/-- A pulse source marks a moment; its consumers take it when the step drains the pulses (R126, log 9). -/
def pulse (source : Fin 26) (s : State) : State := s.onTm fun t => { t with pulses := t.pulses ++ [source] }

/-- A fresh identity (log 19). -/
def State.fresh (s : State) : Nat × State := (s.nextId, { s with nextId := s.nextId + 1 })

/-- Do `f` when `c` holds, else nothing. -/
def State.when (c : Bool) (f : State → State) (s : State) : State := if c then f s else s

/-! ### Fixed-size tables -/

def vget {α : Type} {n : Nat} (v : Vector α n) (i : Fin n) : α := v[i.val]

def vset {α : Type} {n : Nat} (v : Vector α n) (i : Fin n) (x : α) : Vector α n := v.set i.val x i.isLt

def vmod {α : Type} {n : Nat} (v : Vector α n) (i : Fin n) (f : α → α) : Vector α n := vset v i (f (vget v i))

def vmap {α β : Type} {n : Nat} (f : α → β) (v : Vector α n) : Vector β n :=
  ⟨⟨v.toArray.toList.map f⟩, by simp⟩

def vlist {α : Type} {n : Nat} (v : Vector α n) : List α := v.toArray.toList

/-- The element at a number that may lie outside the table, with a default. -/
def vgetD {α : Type} {n : Nat} (v : Vector α n) (i : Nat) (d : α) : α :=
  if h : i < n then v[i]'h else d

/-- Replaces the first element that `p` picks. -/
def updateFirst {α : Type} (p : α → Bool) (f : α → α) : List α → List α
  | [] => []
  | x :: r => if p x then f x :: r else x :: updateFirst p f r

/-- Keeps the newest `n` elements. -/
def newest {α : Type} (n : Nat) (l : List α) : List α := l.drop (l.length - n)

/-- Saturating increment of a 16-bit count. -/
def sat16 (c : U16) : U16 := if c = 0xFFFF then c else c + 1

/-- Saturating increment of an 8-bit count. -/
def sat8 (c : Byte) : Byte := if c = 0xFF then c else c + 1

/-! ### Byte strings (chapter 11: little-endian) -/

/-- `n` bytes of a number, least significant first. -/
def toBytes : Nat → Nat → List Byte
  | 0, _ => []
  | n + 1, v => BitVec.ofNat 8 v :: toBytes n (v / 256)

/-- The number that bytes hold, least significant first. -/
def ofBytes : List Byte → Nat
  | [] => 0
  | b :: r => b.toNat + 256 * ofBytes r

/-- The `n` bytes at an offset. -/
def bytesAt (l : List Byte) (off n : Nat) : List Byte := (l.drop off).take n

/-- The number in the `n` bytes at an offset. -/
def numAt (l : List Byte) (off n : Nat) : Nat := ofBytes (bytesAt l off n)

/-- The byte at an offset, as a number. -/
def byteAt (l : List Byte) (off : Nat) : Nat := (l.getD off 0).toNat

def zeros (n : Nat) : List Byte := List.replicate n 0

/-- Cut or padded with 00h to `n` bytes. -/
def padTo (n : Nat) (l : List Byte) : List Byte := (l ++ zeros (n - l.length)).take n

/-- Bytes with their numbers, from `off` upward. -/
def enumFrom (off : Nat) : List Byte → List (Nat × Byte)
  | [] => []
  | b :: r => (off, b) :: enumFrom (off + 1) r

/-! ### Timers (log 3) -/

/-- A running timer has run out. -/
def due (t : Timer) : Bool := t == some 0

/-- One microsecond passes; a timer that has run out waits for its row. -/
def tickTimer (t : Timer) : Timer := t.map (· - 1)

/-! ### Memory (log 6) -/

/-- What a byte reads as. -/
def Mem.read : Mem → Nat → Byte
  | [], _ => 0
  | (k, b) :: r, a => if k = a then b else Mem.read r a

/-- Puts a byte in at its place in the rising order. -/
def Mem.insert : Mem → Nat → Byte → Mem
  | [], a, b => [(a, b)]
  | (k, c) :: r, a, b => if k < a then (k, c) :: Mem.insert r a b else (a, b) :: (k, c) :: r

/-- Writes one byte and keeps the canonical form: the byte that stood there goes, and the new one comes in unless it is
what an unlisted address reads as. -/
def Mem.write (m : Mem) (a : Nat) (b : Byte) : Mem :=
  let rest := m.filter (·.1 != a)
  if b = 0 then rest else Mem.insert rest a b

/-- Addresses from `lo` strictly rising and no byte 00h. -/
def Memory.risingFrom (lo : Nat) : Mem → Bool
  | [] => true
  | (k, b) :: r => decide (lo ≤ k) && (b != 0) && Memory.risingFrom (k + 1) r

/-- The canonical form of a memory. -/
def Memory.wf (m : Mem) : Bool := Memory.risingFrom 0 m

/-- Writes the listed bytes, each at `base` plus its offset. -/
def Mem.writeAll (m : Mem) (base : Nat) : List (Nat × Byte) → Mem
  | [] => m
  | (i, b) :: r => Mem.writeAll (m.write (base + i) b) base r

/-- `n` bytes from an address. -/
def Mem.bytes (m : Mem) (a n : Nat) : List Byte := (List.range n).map fun i => m.read (a + i)

/-- One 64-byte line. -/
def Mem.line (m : Mem) (line : Nat) : List Byte := m.bytes (64 * line) 64

/-- Lines of the populated 1 GiB (section 2.1). -/
def lineLimit : Nat := 2 ^ 24

/-- The lines a byte range touches, rising. -/
def linesOf (a n : Nat) : List Nat :=
  if n = 0 then [] else (List.range ((a + n - 1) / 64 - a / 64 + 1)).map (a / 64 + ·)

/-- The line writes a byte string at an address makes: each line with its enabled bytes. -/
def lineWrites (a : Nat) (bytes : List Byte) : List (Nat × List (Nat × Byte)) :=
  (linesOf a bytes.length).map fun l =>
    let lo := max a (64 * l)
    let hi := min (a + bytes.length) (64 * l + 64)
    (l, enumFrom (lo - 64 * l) (bytesAt bytes (lo - a) (hi - lo)))

/-- `n` bytes at an address, out of lines that were read; a byte of a line not read is 00h. -/
def gather (lines : List (Nat × List Byte)) (a n : Nat) : List Byte :=
  (List.range n).map fun i => ((lines.lookup ((a + i) / 64)).getD []).getD ((a + i) % 64) 0

/-! ### The power domains -/

/-- The core domain is powered (section 2.4). -/
def State.coreOn (s : State) : Bool := s.pwc.state != .off

/-- The core has taken its core reset and acts on its commands (log 28). -/
def State.coreLive (s : State) : Bool := s.pwc.state != .off && s.pwc.step != .startCore

/-! ### DRAM requests (R160, R161) -/

/-- The class of each agent's requests (R160). -/
def Agent.cls : Agent → ReqClass
  | .hostRead _ => .host
  | .hostWrite => .host
  | .planInit => .host
  | .band _ => .scan
  | .fetch _ => .audio
  | .capture _ => .audio
  | .deposit _ _ => .deposit
  | .messageEntry _ _ _ => .ring
  | .messageRead _ => .ring
  | .sensorRing _ _ _ => .ring
  | .scrub => .ring

/-- The order of the classes, highest first. -/
def ReqClass.rank : ReqClass → Nat
  | .scan => 0
  | .audio => 1
  | .host => 2
  | .deposit => 3
  | .ring => 4

/-- The rank of the highest class waiting for a line. It is the effective class of the line's earliest request, which
is the only ready one: every later one is blocked by it (R161). -/
def lineRank (reqs : List Request) (line : Nat) : Nat :=
  ((reqs.filter (·.line == line)).map (·.agent.cls.rank)).foldl min 5

/-- The highest effective class waiting. -/
def bestRank (reqs : List Request) : Nat := (reqs.map (·.agent.cls.rank)).foldl min 5

/-- The request chosen of those waiting in the order made (R161). The earliest one whose line has the best rank is
ready, as an earlier request to its line would have been found before it. -/
def chooseRequest (reqs : List Request) : Option Request :=
  reqs.find? fun r => lineRank reqs r.line == bestRank reqs

/-- Takes the first request of this value out of the list. -/
def dropRequest (reqs : List Request) (r : Request) : List Request := reqs.erase r

/-- DA chooses while the DRAM is free and out of self-refresh (R161, R167). A write with no byte enabled completes when
chosen (R160), so the choice goes on; `n` bounds the requests looked at. -/
def Da.chooseUpTo : Nat → Da → Da
  | 0, d => d
  | n + 1, d =>
    if d.service.isNone && d.mode == .normal then
      match chooseRequest d.requests with
      | none => d
      | some r =>
        let d' := { d with requests := dropRequest d.requests r }
        if r.op = .write [] then Da.chooseUpTo n d' else { d' with service := some r }
    else d

/-- The DRAM, if free, takes up a waiting request. -/
def Da.kick (d : Da) : Da := d.chooseUpTo d.requests.length

/-- A request joins the waiting ones. -/
def Da.join (r : Request) (d : Da) : Da := { d with requests := d.requests ++ [r] }

/-- An agent makes a request; a free DRAM chooses at once (R161). -/
def request (agent : Agent) (line : Nat) (op : ReqOp) (s : State) : State :=
  s.onDa fun d => (d.join ⟨agent, line, op⟩).kick

/-- An agent makes a line write for each line of a list. -/
def requestWrites (agent : Agent) : List (Nat × List (Nat × Byte)) → State → State
  | [], s => s
  | (l, bs) :: r, s => requestWrites agent r (request agent l (.write bs) s)

/-- An agent makes a line read for each line of a list. -/
def requestReads (agent : Agent) : List Nat → State → State
  | [], s => s
  | l :: r, s => requestReads agent r (request agent l .read s)

/-- Every request waiting or in service. -/
def Da.all (d : Da) : List Request := d.requests ++ d.service.toList

/-! ### Error correction (R163 to R165) -/

/-- A word keeps an uncorrectable error over a new report; else the report stands (log 7). -/
def addFlaw (flaws : List (Nat × Flaw)) (word : Nat) (f : Flaw) : List (Nat × Flaw) :=
  match flaws.lookup word with
  | some (.double _) => flaws
  | _ => (word, f) :: flaws.filter (·.1 != word)

/-- The report of the line being served joins what is known of its words. -/
def addReport (flaws : List (Nat × Flaw)) (line : Nat) (ecc : EccReport) : List (Nat × Flaw) :=
  ecc.foldl (fun fs e => addFlaw fs (8 * line + e.1.val) e.2) flaws

/-- The errors of a line's words. -/
def lineFlaws (flaws : List (Nat × Flaw)) (line : Nat) : List (Nat × Flaw) := flaws.filter (·.1 / 8 == line)

/-- The flaws once a line has been written with fresh ECC. -/
def clearLine (flaws : List (Nat × Flaw)) (line : Nat) : List (Nat × Flaw) := flaws.filter (·.1 / 8 != line)

def singleFlaw : Flaw → Bool
  | .single => true
  | .double _ => false

/-- A byte as read: out of an uncorrectable word the raw byte, else the stored one (R164). -/
def readByte (flaws : List (Nat × Flaw)) (line : Nat) (stored : List Byte) (i : Nat) : Byte :=
  match flaws.lookup (8 * line + i / 8) with
  | some (.double raw) => raw.extractLsb' (8 * (i % 8)) 8
  | _ => stored.getD i 0

/-- A line as read, correctable words corrected. -/
def readLine (m : Mem) (flaws : List (Nat × Flaw)) (line : Nat) : List Byte :=
  (List.range 64).map (readByte flaws line (m.line line))

/-- A capture joins the list as its newest entry (R166); its time is the timebase's. -/
def capture (kind : CaptureKind) (addr : Nat) (agent : ReqClass) (s : State) : State :=
  s.onDa fun d =>
    { d with captures := newest 8 (d.captures ++ [⟨kind, BitVec.ofNat 32 addr, agent, s.tb.now⟩])
             captureTotal := d.captureTotal + 1
             change := d.change + 1 }

/-- A corrected read queues a scrub of its line (R165). -/
def Da.queueScrub (line : Nat) (d : Da) : Da :=
  if d.scrubs.contains line then d
  else if d.scrubs.length < 8 then { d with scrubs := d.scrubs ++ [line] }.join ⟨.scrub, line, .scrub⟩
  else { d with scrubMissed := d.scrubMissed + 1 }

/-- What a service gives its agent: the line as read, and whether it was uncorrectable. -/
structure Served where
  data : List Byte
  bad  : Bool
  deriving DecidableEq, Repr

/-- A line read (R164), but for the capture. -/
def serveRead (line : Nat) (s : State) : Served × State :=
  let fl := lineFlaws s.da.flaws line
  let n := (fl.filter fun f => singleFlaw f.2).length
  let s' := s.onDa fun d => { d with corrected := d.corrected + BitVec.ofNat 32 n }
  (⟨readLine s.mem s.da.flaws line, fl.any fun f => !singleFlaw f.2⟩, s'.onDa fun d => if n = 0 then d else d.queueScrub line)

/-- Whether a write judges a word: one of its bytes is not enabled (R163). -/
def judged (bytes : List (Nat × Byte)) (word : Nat) : Bool :=
  (List.range 8).any fun i => !(bytes.any (·.1 == 8 * word + i))

/-- A line write with some byte enabled, whole or as a merge (R160, R163), but for the capture. -/
def serveWrite (line : Nat) (bytes : List (Nat × Byte)) (s : State) : Served × State :=
  let fl := (lineFlaws s.da.flaws line).filter fun f => judged bytes (f.1 % 8)
  let n := (fl.filter fun f => singleFlaw f.2).length
  let kept := if bytes.length = 64 then [] else enumFrom 0 (readLine s.mem s.da.flaws line)
  let s' := s.onMem fun m => (m.writeAll (64 * line) kept).writeAll (64 * line) bytes
  (⟨[], fl.any fun f => !singleFlaw f.2⟩,
    s'.onDa fun d => { d with corrected := d.corrected + BitVec.ofNat 32 n, flaws := clearLine d.flaws line })

/-- A scrub (R165), but for the capture: a line with correctable words only is written back whole. -/
def serveScrub (line : Nat) (s : State) : Served × State :=
  let fl := lineFlaws s.da.flaws line
  let bad := fl.any fun f => !singleFlaw f.2
  (⟨[], bad⟩,
    s.onDa fun d => { d with scrubs := d.scrubs.filter (· != line)
                             flaws := if bad then d.flaws else clearLine d.flaws line })

/-- The DRAM's part of serving one request. -/
def access (r : Request) (s : State) : Served × State :=
  match r.op with
  | .read => serveRead r.line s
  | .write [] => (⟨[], false⟩, s)
  | .write bytes => serveWrite r.line bytes s
  | .scrub => serveScrub r.line s

/-- The kind of capture a service that found an uncorrectable word makes (R166). -/
def ReqOp.captureKind : ReqOp → CaptureKind
  | .write _ => .uncorrectableMerge
  | _ => .uncorrectable

end Sys2Proof.Machine
end

