-- ==== Sys2Proof/Machine/Flags.lean ====
section
/-!
DEFINITION. The event kinds, their pending flags and raise counts, the attention line, and the captures that raise
events (chapter 10; R166).
-/
namespace Sys2Proof.Machine

/-- The event kinds in the order of their numbers (R179). -/
inductive EventKind where
  | frame | repeated | dropped | bandLate | lateWrite | syncLost | strobeKilled | timingTaken | tetherFrameReject
  | linkUp | linkDown | linkRecovery | messageIn | messageSent | uplinkFull | sensorFault | ringFull
  | presenceChange | audioUnderrun | audioOverrun | powerChange | button | thermal | thermalOverride | tetherWake
  | memoryError | badIndex | timeTaken
  deriving DecidableEq, Repr

/-- The number of a kind: its bit in the sets (R179). -/
def EventKind.num : EventKind → Fin 28
  | .frame => 0
  | .repeated => 1
  | .dropped => 2
  | .bandLate => 3
  | .lateWrite => 4
  | .syncLost => 5
  | .strobeKilled => 6
  | .timingTaken => 7
  | .tetherFrameReject => 8
  | .linkUp => 9
  | .linkDown => 10
  | .linkRecovery => 11
  | .messageIn => 12
  | .messageSent => 13
  | .uplinkFull => 14
  | .sensorFault => 15
  | .ringFull => 16
  | .presenceChange => 17
  | .audioUnderrun => 18
  | .audioOverrun => 19
  | .powerChange => 20
  | .button => 21
  | .thermal => 22
  | .thermalOverride => 23
  | .tetherWake => 24
  | .memoryError => 25
  | .badIndex => 26
  | .timeTaken => 27

/-- The set that holds one kind. -/
def EventKind.bit (k : EventKind) : BitVec 28 := BitVec.twoPow 28 k.num.val

/-- The four always-on kinds: POWER_CHANGE, BUTTON, THERMAL, THERMAL_OVERRIDE (R180). -/
def alwaysOnKinds : BitVec 28 :=
  EventKind.powerChange.bit ||| EventKind.button.bit ||| EventKind.thermal.bit ||| EventKind.thermalOverride.bit

/-- A raise sets the kind's flag, and counts it if the core sees it (R180). -/
def Eu.raise (seen : Bool) (k : EventKind) (e : Eu) : Eu :=
  { e with pendingSet := e.pendingSet ||| k.bit
           counts := if seen then vmod e.counts k.num sat16 else e.counts }

/-- A raise in the present power state: the core sees it while it is powered. -/
def raise (k : EventKind) (s : State) : State := s.onEu (Eu.raise s.coreOn k)

/-- The state of the attention line (R182). -/
def Eu.attn (e : Eu) : Bool := (e.pendingSet &&& e.enableSet) != 0 && e.gap.isNone

/-- ATTN as driven: nothing while the core domain is off. -/
def State.attn (s : State) : Option Bool := if s.coreOn then some s.eu.attn else none

/-- The TAKEN effect of an event record (R181): enables, acknowledge, and the gap of 2 µs. -/
def Eu.serve (enable ack : BitVec 28) (eos : Bool) (e : Eu) : Eu :=
  { e with enableSet := enable
           pendingSet := e.pendingSet &&& ~~~ack
           gap := if eos then some 2 else e.gap }

/-- A capture other than BAD_INDEX raises MEMORY_ERROR (R166). -/
def memoryError (kind : CaptureKind) (line : Nat) (agent : ReqClass) (s : State) : State :=
  raise .memoryError (capture kind (64 * line) agent s)

/-- An invalid live-word write: BAD_INDEX is captured and raised by the word's owner (R65, R86, R106, R107). -/
def badIndex (addr : Nat) (agent : ReqClass) (s : State) : State :=
  raise .badIndex (capture .badIndex addr agent s)

end Sys2Proof.Machine
end

