-- ==== Sys2Proof/Machine/Operands.lean ====
section
/-!
DEFINITION. The formats (chapter 11): the codes of coded fields, the plan records with their offsets, sizes, arm
sequences and live words, how a record's fields are read, the default image, and the record outcome table's updates.
-/
namespace Sys2Proof.Machine

/-! ### Codes (R184): a value's number is its place in its list -/

def codeOf {α : Type} [BEq α] (codes : List α) (v : α) : Byte := BitVec.ofNat 8 (codes.idxOf v)

def pixelFormats : List PixelFormat := [.rgba8, .rgb565]
def eyes : List Eye := [.left, .right, .both]
def owners : List Owner := [.host, .tether]
def completionModes : List CompletionMode := [.ordered, .fenced]
def surfaceStates : List SurfaceState := [.free, .opened, .ready, .queued, .current, .held]
def rejectCauses : List RejectCause := [.none, .state, .full, .tag, .abandoned]
def syncModes : List SyncMode := [.free, .triggered]
def policies : List Policy := [.fifo, .latest]
def strobeSelects : List StrobeSelect := [.off, .pulse, .inverted, .released]
def scanStates : List ScanState := [.stopped, .waiting, .running]
def phases : List Phase := [.scan, .settle, .strobe, .dark]
def channelModes : List ChannelMode := [.dataReady, .interval, .matrix]
def channelStates : List ChannelState := [.idle, .running, .fault]
def conditions : List Condition := [.none, .above, .below, .equal]
def presenceActions : List PresenceAction := [.none, .on, .off]
def linkStates : List LinkState := [.down, .training, .up, .recovery]
def playStates : List PlayState := [.stopped, .priming, .playing]
def corrections : List Correction := [.none, .drop, .again]
def speakerSelects : List SpeakerSelect := [.low, .pwm, .pwmInverted, .released]
def adjustModes : List AdjustMode := [.set, .add]
def edgeModes : List EdgeMode := [.rising, .falling, .both, .level]
def syncSelects : List SyncSelect := [.low, .high, .follow, .followInverted, .released]
def beaconSelects : List BeaconSelect := [.low, .high, .pulse, .pulseInverted, .released]
def beaconStates : List BeaconState := [.idle, .delay, .pulse]
def powerStates : List PowerState :=
  [.off, .starting, .active, .dimmed, .enteringStandby, .standby, .waking, .stopping]
def dimCauses : List DimCause := [.none, .request, .presence]
def wakeCauses : List WakeCause := [.none, .button, .presence, .tetherWake, .hostAccess, .mainReturn]
def stopCauses : List StopCause := [.none, .request, .buttonOverride, .powerFault, .mainLost, .thermalCritical]
def rails : List Rail := [.sensor, .audio, .panel, .host]
def captureKinds : List CaptureKind :=
  [.uncorrectable, .uncorrectableMerge, .outOfRange, .droppedWrite, .badIndex]
def outcomes : List Outcome :=
  [.none, .taken, .pending, .refusedField, .refusedState, .refusedFull, .refusedBusy, .lost]

/-! ### Reading a record's fields (R184) -/

/-- A yes / no or flag byte; none for a number not assigned to it. -/
def flagAt (b : List Byte) (off : Nat) : Option Bool :=
  match byteAt b off with
  | 0 => some false
  | 1 => some true
  | _ => none

/-- A coded byte; none for a number not assigned to it. -/
def codeAt {α : Type} (codes : List α) (b : List Byte) (off : Nat) : Option α := codes[byteAt b off]?

/-- A number below `n`, or FFh for NONE; none for any other byte. -/
def slotAt (n : Nat) (b : List Byte) (off : Nat) : Option (Option (Fin n)) :=
  let v := byteAt b off
  if v = 0xFF then some none else if h : v < n then some (some ⟨v, h⟩) else none

/-- A number below `n`. -/
def finAt (n : Nat) (b : List Byte) (off : Nat) : Option (Fin n) :=
  let v := byteAt b off
  if h : v < n then some ⟨v, h⟩ else none

/-- A device time with its epoch. -/
def stampAt (b : List Byte) (off : Nat) : Stamp := ⟨BitVec.ofNat 40 (numAt b off 5), b.getD (off + 5) 0⟩

/-- A device time with its epoch, as 6 bytes. -/
def stampBytes (t : Stamp) : List Byte := toBytes 5 t.time.toNat ++ [t.epoch]

def flagByte (b : Bool) : Byte := if b then 1 else 0

/-- A number, or FFh for NONE. -/
def slotByte {n : Nat} : Option (Fin n) → Byte
  | none => 0xFF
  | some i => BitVec.ofNat 8 i.val

/-! ### The plan records (R169, R185, R186) -/

/-- The 86 records. -/
inductive RecordKind where
  | region (n : Fin 32)
  | surface (n : Fin 6)
  | timing
  | present (n : Fin 4)
  | channel (n : Fin 4)
  | rule (n : Fin 16)
  | sensorRing (n : Fin 8)
  | audioRing (n : Fin 3)
  | audioOut
  | messageRing
  | messageSlot (n : Fin 3)
  | trigger
  | beacon (n : Fin 2)
  | time
  | power
  | event
  | part
  deriving DecidableEq, Repr

/-- A record's offset in the plan area (R185). -/
def RecordKind.offset : RecordKind → Nat
  | .region n => 32 * n.val
  | .surface n => 0x400 + 32 * n.val
  | .timing => 0x500
  | .present n => 0x580 + 32 * n.val
  | .channel n => 0x600 + 64 * n.val
  | .rule n => 0x700 + 16 * n.val
  | .sensorRing n => 0x800 + 32 * n.val
  | .audioRing n => 0x900 + 32 * n.val
  | .audioOut => 0x960
  | .messageRing => 0x980
  | .messageSlot n => 0x9A0 + 32 * n.val
  | .trigger => 0xA00
  | .beacon n => 0xA80 + 32 * n.val
  | .time => 0xAC0
  | .power => 0xAE0
  | .event => 0xB00
  | .part => 0xB20

/-- A record's size in bytes (R169). -/
def RecordKind.size : RecordKind → Nat
  | .timing => 64
  | .channel _ => 64
  | .rule _ => 16
  | .trigger => 128
  | _ => 32

/-- A record's place in the outcome table: the records in ascending offset (R188). -/
def RecordKind.index : RecordKind → Fin 86
  | .region n => ⟨n.val, by omega⟩
  | .surface n => ⟨32 + n.val, by omega⟩
  | .timing => 38
  | .present n => ⟨39 + n.val, by omega⟩
  | .channel n => ⟨43 + n.val, by omega⟩
  | .rule n => ⟨47 + n.val, by omega⟩
  | .sensorRing n => ⟨63 + n.val, by omega⟩
  | .audioRing n => ⟨71 + n.val, by omega⟩
  | .audioOut => 74
  | .messageRing => 75
  | .messageSlot n => ⟨76 + n.val, by omega⟩
  | .trigger => 79
  | .beacon n => ⟨80 + n.val, by omega⟩
  | .time => 82
  | .power => 83
  | .event => 84
  | .part => 85

/-- Every record, in ascending offset. -/
def allRecords : List RecordKind :=
  (List.finRange 32).map .region ++ (List.finRange 6).map .surface ++ [.timing] ++ (List.finRange 4).map .present ++
  (List.finRange 4).map .channel ++ (List.finRange 16).map .rule ++ (List.finRange 8).map .sensorRing ++
  (List.finRange 3).map .audioRing ++ [.audioOut, .messageRing] ++ (List.finRange 3).map .messageSlot ++
  [.trigger] ++ (List.finRange 2).map .beacon ++ [.time, .power, .event, .part]

/-- The offset of a record's arm sequence: its final word (R171). -/
def RecordKind.seqOffset (k : RecordKind) : Nat := k.offset + k.size - 4

/-- The records whose final word lies in a line of the record area, in ascending offset. -/
def recordsEndingIn (line : Nat) : List RecordKind := allRecords.filter fun k => k.seqOffset / 64 == line

/-- The live words (R174). -/
inductive LiveWord where
  | fence (n : Fin 6)
  | sensorConsume (n : Fin 8)
  | ring1Produce
  | ring2Consume
  | messageConsume
  deriving DecidableEq, Repr

/-- A live word's offset in the plan area (R186). -/
def LiveWord.offset : LiveWord → Nat
  | .fence n => 0x400 + 32 * n.val + 24
  | .sensorConsume n => 0x800 + 32 * n.val + 12
  | .ring1Produce => 0x930
  | .ring2Consume => 0x950
  | .messageConsume => 0x98C

/-- Every live word, in ascending offset. -/
def allLiveWords : List LiveWord :=
  (List.finRange 6).map .fence ++ (List.finRange 8).map .sensorConsume ++
  [.ring1Produce, .ring2Consume, .messageConsume]

/-- The live words in a line of the record area. -/
def liveWordsIn (line : Nat) : List LiveWord := allLiveWords.filter fun w => w.offset / 64 == line

/-- Base of the plan area for a PLAN_SEL value (section 2.5). -/
def planBase (sel : Fin 4) : Nat :=
  match sel with
  | 0 => 0x3FFFC000
  | 1 => 0x00000000
  | 2 => 0x1FFFC000
  | 3 => 0x20000000

def State.planBase (s : State) : Nat := Machine.planBase s.pu.sel

/-- A byte range shares a byte with the 16 KiB plan area. -/
def meetsPlan (base a n : Nat) : Bool := decide (a < base + 0x4000) && decide (base < a + n)

/-! ### The timing set's bytes (R186) -/

/-- Bytes 0 to 35 of a timing set record. -/
def timingBytes (t : TimingSet) : List Byte :=
  [flagByte t.scanEnable, codeOf syncModes t.sync, codeOf policies t.policy, BitVec.ofNat 8 t.reloadSkip,
   flagByte t.photonUplink, codeOf strobeSelects t.lineLeft, codeOf strobeSelects t.lineRight,
   BitVec.ofNat 8 t.level] ++
  toBytes 4 t.period ++ toBytes 4 t.scan ++ toBytes 4 t.settle ++ toBytes 4 t.strobeWidth ++
  toBytes 4 t.lossLimit ++ toBytes 2 t.panelWidth ++ toBytes 2 t.panelHeight ++
  [t.fallback.red, t.fallback.green, t.fallback.blue, 0]

/-! ### The default image (R175, R184) -/

/-- The settings bytes 1 to 7 of a power record (R186). -/
def settingsBytes (p : PowerSettings) : List Byte :=
  [BitVec.ofNat 8 p.software, BitVec.ofNat 8 p.override, flagByte p.autoDim, flagByte p.wakePresence,
   flagByte p.wakeTether, flagByte p.restart, flagByte p.activeHigh]

/-- The fields of the default image that are not 00h, by offset. -/
def imageParts (p : PowerSettings) (partSeq : U32) : List (Nat × List Byte) :=
  [(0x500, timingBytes TimingSet.default)] ++
  (List.finRange 4).map (fun n => ((RecordKind.channel n).offset + 3, [1, 4])) ++
  (List.finRange 4).map (fun n => ((RecordKind.channel n).offset + 8, toBytes 4 1000)) ++
  (List.finRange 8).map (fun n => ((RecordKind.sensorRing n).offset + 8, toBytes 4 16)) ++
  (List.finRange 3).map (fun n =>
    ((RecordKind.audioRing n).offset + 2, toBytes 2 256 ++ toBytes 4 0 ++ toBytes 4 256 ++ toBytes 4 96)) ++
  [(0x960, toBytes 2 256 ++ [0, 0] ++ toBytes 2 0xD008), (0x988, toBytes 4 4)] ++
  (List.finRange 3).map (fun n => ((RecordKind.messageSlot n).offset + 4, toBytes 4 1)) ++
  (List.finRange 2).map (fun n => ((RecordKind.beacon n).offset + 2, toBytes 2 1)) ++
  [(0xAE1, settingsBytes p), (0xB3C, toBytes 4 partSeq.toNat)]

/-- The default image of the 4 KiB record area. -/
def defaultImage (p : PowerSettings) (partSeq : U32) : Mem :=
  (imageParts p partSeq).foldl (fun m e => m.writeAll e.1 (enumFrom 0 e.2)) []

/-! ### The record outcome table (R173) -/

/-- An arm sets the record's last seen sequence (R172); this and the outcome that follows are one change of the
table (log 14). -/
def Pu.noteArm (k : RecordKind) (seq : U32) (p : Pu) : Pu :=
  { p with table := vmod p.table k.index fun e => { e with lastSeen := seq }, change := p.change + 1 }

/-- The outcome given at an arm. -/
def Pu.enter (k : RecordKind) (o : Outcome) (p : Pu) : Pu :=
  { p with table := vmod p.table k.index fun e => { e with outcome := o } }

/-- The outcome given when a held request finishes. -/
def Pu.finish (k : RecordKind) (o : Outcome) (p : Pu) : Pu :=
  { (p.enter k o) with change := p.change + 1 }

/-- A pending set is replaced or discarded (R27). -/
def Pu.overtake (k : RecordKind) (p : Pu) : Pu :=
  { p with table := vmod p.table k.index fun e => { e with overtaken := sat16 e.overtaken } }

end Sys2Proof.Machine
end

