-- ==== Sys2Proof/Machine/Surface.lean ====
section
/-!
DEFINITION. The surface tracker (chapter 1): configuring, opening and releasing surfaces, the band scoreboard, present
slots, the boundary decision, and tether frames.
-/
namespace Sys2Proof.Machine

/-! ### Geometry (R1, R5) -/

/-- Bytes per pixel. -/
def PixelFormat.size : PixelFormat → Nat
  | .rgba8 => 4
  | .rgb565 => 2

/-- Bytes of a row that hold pixels. -/
def SurfaceConfig.rowBytes (c : SurfaceConfig) : Nat := c.width * c.format.size

/-- The band count. -/
def SurfaceConfig.bandCount (c : SurfaceConfig) : Nat := (c.height + c.bandRows - 1) / c.bandRows

/-- The last row of a band. -/
def SurfaceConfig.lastRow (c : SurfaceConfig) (k : Nat) : Nat := min ((k + 1) * c.bandRows) c.height - 1

/-- The number of rows of a band. -/
def SurfaceConfig.rowsOf (c : SurfaceConfig) (k : Nat) : Nat := min ((k + 1) * c.bandRows) c.height - k * c.bandRows

/-- The line address of a band's final line. -/
def SurfaceConfig.finalLine (c : SurfaceConfig) (k : Nat) : Nat :=
  (c.base + c.pitch * c.lastRow k + c.rowBytes - 1) / 64 * 64

def Band.empty : Band := ⟨false, false, false, false⟩

/-- The scoreboard of a geometry with every band EMPTY and no mark. -/
def SurfaceConfig.emptyBands (c : SurfaceConfig) : List Band := List.replicate c.bandCount Band.empty

/-- A surface record's configuration fields; none when a code is not in the field table (R1). -/
def surfaceConfigAt (b : List Byte) : Option SurfaceConfig := do
  let format ← codeAt pixelFormats b 12
  let eye ← codeAt eyes b 13
  let owner ← codeAt owners b 14
  let mode ← codeAt completionModes b 15
  let bandRows := byteAt b 16
  if bandRows = 16 ∨ bandRows = 32 ∨ bandRows = 64 then
    some { base := numAt b 0 4, pitch := numAt b 4 4, width := numAt b 8 2, height := numAt b 10 2, format, eye,
           owner, mode, bandRows }
  else none

/-- The checks of R1 on a configuration. -/
def SurfaceConfig.ok (plan : Nat) (c : SurfaceConfig) : Bool :=
  decide (c.base % 4096 = 0) && decide (c.base + c.pitch * c.height ≤ 0x40000000) &&
  !meetsPlan plan c.base (c.pitch * c.height) &&
  decide (16 ≤ c.width ∧ c.width ≤ 2560) && decide (16 ≤ c.height ∧ c.height ≤ 2560) &&
  decide (c.pitch % 64 = 0) && decide (c.rowBytes ≤ c.pitch)

/-! ### Surfaces -/

def St.surface (n : Fin 6) (t : St) : Surface := vget t.surfaces n

def St.onSurface (n : Fin 6) (f : Surface → Surface) (t : St) : St := { t with surfaces := vmod t.surfaces n f }

def St.setState (x : SurfaceState) (n : Fin 6) (t : St) : St := t.onSurface n fun f => { f with state := x }

/-- Puts every surface of a list in a state. -/
def St.setStates (x : SurfaceState) (l : List (Fin 6)) (t : St) : St := l.foldl (fun t n => t.setState x n) t

/-- The change count goes up when the queue or a frame has changed (R178, log 14). -/
def St.noteFrames (old new : St) : St :=
  if old.queue = new.queue ∧ old.current = new.current ∧ old.previous = new.previous then new
  else { new with change := new.change + 1 }

def State.stChange (f : St → St) (s : State) : State := s.onSt fun t => St.noteFrames t (f t)

/-- The scoreboard and fence value as OPEN and an accepted FRAME_BEGIN leave them (R3, R18). -/
def Surface.clear (f : Surface) : Surface :=
  { f with bands := f.bands.map fun _ => Band.empty, fence := 0 }

/-- An arm with command NONE (R1). -/
def configureSurface (n : Fin 6) (b : List Byte) (s : State) : Outcome × State :=
  match surfaceConfigAt b with
  | none => (.refusedField, s)
  | some c =>
    if !c.ok s.planBase then (.refusedField, s)
    else if (s.st.surface n).state ≠ .free then (.refusedState, s)
    else (.taken, s.onSt (St.onSurface n fun f => { f with config := some c, bands := c.emptyBands, fence := 0 }))

/-- A configured surface's owner is the one given. -/
def Surface.ownedBy (o : Owner) (f : Surface) : Bool :=
  match f.config with
  | some c => c.owner == o
  | none => false

/-- An arm with command OPEN (R3). -/
def openSurface (n : Fin 6) (s : State) : Outcome × State :=
  let f := s.st.surface n
  if f.ownedBy .tether then (.refusedField, s)
  else if f.config.isNone || f.state != .free || s.st.barred then (.refusedState, s)
  else (.taken, s.onSt (St.onSurface n fun f => { f.clear with state := .opened }))

/-- The open tether frame marks a surface of it as released (R4). -/
def TetherFrame.release (n : Fin 6) (t : TetherFrame) : TetherFrame :=
  { t with leftReleased := t.leftReleased || t.left == n
           rightReleased := t.rightReleased || t.right == some n }

/-- The previous frame without a surface; absent once it names none (R4). -/
def Frame.without (n : Fin 6) (f : Frame) : Option Frame :=
  let f' := { f with left := if f.left = some n then none else f.left
                     right := if f.right = some n then none else f.right }
  if f'.left.isNone && f'.right.isNone then none else some f'

/-- An arm with command RELEASE (R4). -/
def releaseSurface (n : Fin 6) (s : State) : Outcome × State :=
  match (s.st.surface n).state with
  | .free => (.taken, s)
  | .opened =>
    (.taken, s.onSt fun t => { (t.setState .free n) with tether := t.tether.map (TetherFrame.release n) })
  | .ready => (.taken, s.onSt (St.setState .free n))
  | .held =>
    (.taken, s.stChange fun t => { (t.setState .free n) with previous := t.previous.bind (Frame.without n) })
  | .queued => (.refusedState, s)
  | .current => (.refusedState, s)

/-- A surface record arm: the command decides; one above 2 is refused before any other check (R184). -/
def judgeSurface (n : Fin 6) (b : List Byte) (s : State) : Outcome × State :=
  match byteAt b 17 with
  | 0 => configureSurface n b s
  | 1 => openSurface n s
  | 2 => releaseSurface n s
  | _ => (.refusedField, s)

/-! ### Completion (R5 to R7) -/

/-- A completed band; one already SCANNED gets LATE. -/
def Band.finish (b : Band) : Band :=
  if b.complete then b else { b with complete := true, late := b.late || b.scanned }

/-- The first `n` bands become COMPLETE. -/
def finishBands : Nat → List Band → List Band
  | 0, l => l
  | _, [] => []
  | n + 1, b :: r => b.finish :: finishBands n r

/-- Changes band `k`. -/
def onBand (k : Nat) (f : Band → Band) (l : List Band) : List Band := l.modify k f

/-- An observed host write at a line address (R6). -/
def observedWrite (n : Fin 6) (addr : Nat) (s : State) : State :=
  let f := s.st.surface n
  match f.config with
  | none => s
  | some c =>
    let d := addr - c.base
    let row := d / c.pitch
    if addr < c.base ∨ c.height ≤ row ∨ c.rowBytes ≤ d % c.pitch then s
    else if f.state = .free ∨ c.owner = .tether then s
    else
      let k := row / c.bandRows
      let final := c.mode == .ordered && addr == c.finalLine k
      let scanned := (f.bands.getD k Band.empty).scanned
      let s := s.onSt (St.onSurface n fun f =>
        { f with bands := if final then onBand k Band.finish f.bands else f.bands })
      if f.state = .current ∧ scanned then
        raise .lateWrite (s.onSt (St.onSurface n fun f =>
          { f with bands := onBand k (fun b => { b with late := true }) f.bands }))
      else s

/-- A write of a surface's fence word (R7). -/
def fenceWrite (n : Fin 6) (v : U32) (s : State) : State :=
  let f := s.st.surface n
  match f.config with
  | none => s
  | some c =>
    if c.owner = .host ∧ c.mode = .fenced ∧ f.state ≠ .free ∧ f.fence < v then
      s.onSt (St.onSurface n fun f =>
        { f with fence := v, bands := finishBands (min v.toNat c.bandCount) f.bands })
    else s

/-! ### Band starts (R8) -/

/-- What SO is to read for a band (R40): the current surface's rows, or the same rows of the previous frame's surface,
whose geometry then stands with the current surface's band rows; or nothing. -/
inductive BandAnswer where
  | read (config : SurfaceConfig)
  | fallback
  deriving DecidableEq, Repr

def St.eyeOf (t : St) (n : Fin 6) : Option Eye := (t.surface n).config.map (·.eye)

/-- The surface a frame's surfaces give a panel: a BOTH surface serves either eye (R8, R38). -/
def St.surfaceFor (t : St) (panel : Side) (left right : Option (Fin 6)) : Option (Fin 6) :=
  match panel with
  | .left => left
  | .right =>
    match right with
    | some r => some r
    | none =>
      match left with
      | some l => if t.eyeOf l = some .both then some l else none
      | none => none

def St.frameSurface (t : St) (panel : Side) (f : Frame) : Option (Fin 6) := t.surfaceFor panel f.left f.right

/-- The enquiry of one panel at the start of band `k` of the current frame's surface `n` (R8). -/
def askBand (panel : Side) (n : Fin 6) (k : Nat) (s : State) : BandAnswer × State :=
  let f := s.st.surface n
  let b := f.bands.getD k Band.empty
  match f.config with
  | none => (.fallback, s)
  | some c =>
    if b.complete then
      (.read c, s.onSt (St.onSurface n fun f => { f with bands := onBand k (fun b => { b with scanned := true }) f.bands }))
    else
      let s1 := s.stChange fun t =>
        { (t.onSurface n fun f =>
            { f with bands := onBand k (fun b => { b with scanned := true, substituted := true }) f.bands }) with
          current := t.current.map fun fr =>
            { fr with substituted := if b.substituted then fr.substituted else sat16 fr.substituted
                      bandLate := true } }
      let first := s.st.current.any fun fr => !fr.bandLate
      let s2 := s1.when first (raise .bandLate)
      let sub := s.st.previous.bind (s.st.frameSurface panel)
      (match sub.bind fun p => (s.st.surface p).config with
        | some pc => .read { pc with bandRows := c.bandRows }
        | none => .fallback, s2)

/-! ### Presenting (R9, R10) -/

/-- A present slot's fields; none for a failing check of order 1 (R9) or a presence flag out of its list (R184). -/
def presentAt (b : List Byte) : Option Entry := do
  let left ← finAt 6 b 4
  let right ← slotAt 6 b 5
  let hasTarget ← flagAt b 6
  let hasPose ← flagAt b 7
  if right = some left then none
  else some { tag := BitVec.ofNat 32 (numAt b 0 4), left, right,
              target := if hasTarget then some (stampAt b 8) else none,
              pose := if hasPose then some (BitVec.ofNat 32 (numAt b 16 4)) else none, source := .host }

/-- The surfaces an entry names. -/
def Entry.named (e : Entry) : List (Fin 6) := e.left :: e.right.toList

/-- The surfaces a frame names. -/
def Frame.named (f : Frame) : List (Fin 6) := f.left.toList ++ f.right.toList

/-- The eye arrangement of R9. -/
def St.eyesOk (t : St) (left : Fin 6) (right : Option (Fin 6)) : Bool :=
  match right with
  | some r => t.eyeOf left == some .left && t.eyeOf r == some .right
  | none => t.eyeOf left == some .both

/-- A surface has the panel size of a timing set. -/
def St.fitsPanel (t : St) (p : TimingSet) (n : Fin 6) : Bool :=
  match (t.surface n).config with
  | some c => c.width == p.panelWidth && c.height == p.panelHeight
  | none => false

/-- A surface the host may present (R9, order 2). -/
def Surface.presentable (f : Surface) : Bool :=
  match f.config with
  | none => false
  | some c =>
    match c.owner with
    | .host => f.state == .opened || f.state == .ready
    | .tether => f.state == .ready

/-- An entry joins the queue's tail and its surfaces become QUEUED (R9, R20). -/
def enqueue (e : Entry) (s : State) : State :=
  s.stChange fun t => { (t.setStates .queued e.named) with queue := t.queue ++ [e] }

/-- A present slot arm (R9). -/
def judgePresent (b : List Byte) (s : State) : Outcome × State :=
  match presentAt b with
  | none => (.refusedField, s)
  | some e =>
    if !(e.named.all fun n => (s.st.surface n).presentable) || s.st.barred then (.refusedState, s)
    else if !s.st.eyesOk e.left e.right || !(e.named.all (s.st.fitsPanel s.so.applied)) then (.refusedField, s)
    else if 3 ≤ s.st.queue.length then (.refusedFull, s)
    else (.taken, enqueue e s)

/-! ### The boundary decision (R12 to R16) -/

/-- Whether an entry may be shown at a boundary (R12): the expected photon time plus half the period reaches its
target, compared across the wrap, and only within one epoch. -/
def Entry.eligible (boundary : Stamp) (set : TimingSet) (e : Entry) : Bool :=
  match e.target with
  | none => true
  | some t =>
    if t.epoch ≠ boundary.epoch then true
    else
      let expected := boundary.time + BitVec.ofNat 40 (set.scan + set.settle)
      decide ((t.time - expected).toInt ≤ (set.period / 2 : Nat))

/-- The entries a boundary drops, the one it takes, and the rest (R13, R14). -/
def choosePresent (boundary : Stamp) (set : TimingSet) (q : List Entry) : List Entry × Option Entry × List Entry :=
  match set.policy with
  | .fifo =>
    match q with
    | [] => ([], none, [])
    | e :: r => if e.eligible boundary set then ([], some e, r) else ([], none, q)
  | .latest =>
    let run := q.takeWhile (Entry.eligible boundary set)
    (run.dropLast, run.getLast?, q.drop run.length)

/-- The marks a boundary clears on a surface of the current frame (R5). -/
def Surface.clearMarks (f : Surface) : Surface :=
  { f with bands := f.bands.map fun b => { b with scanned := false, late := false, substituted := false } }

def St.clearMarks (l : List (Fin 6)) (t : St) : St := l.foldl (fun t n => t.onSurface n Surface.clearMarks) t

/-- The frame a taken entry becomes (R11). -/
def Entry.toFrame (e : Entry) : Frame :=
  { tag := e.tag, left := some e.left, right := e.right, target := e.target, pose := e.pose, source := e.source,
    repeats := 0, substituted := 0, bandLate := false }

/-- The surfaces an absent or present frame names. -/
def namedBy (f : Option Frame) : List (Fin 6) := (f.map Frame.named).getD []

/-- An entry is taken (R15). -/
def St.advance (e : Entry) (rest : List Entry) (t : St) : St :=
  let t1 := t.setStates .free (namedBy t.previous)
  let t2 := { (t1.setStates .held (namedBy t.current)) with previous := t.current }
  let t3 := { (t2.setStates .current e.named) with current := some e.toFrame, queue := rest }
  t3.clearMarks e.named

/-- The current frame is repeated (R16). -/
def St.repeated (f : Frame) (t : St) : St :=
  { (t.clearMarks f.named) with
    current := some { f with repeats := sat16 f.repeats, substituted := 0, bandLate := false } }

/-- Older eligible entries are dropped under LATEST (R14). -/
def St.dropEntries (l : List Entry) (t : St) : St :=
  { (t.setStates .free (l.flatMap Entry.named)) with dropped := t.dropped + BitVec.ofNat 32 l.length }

/-- ST's decision at a frame boundary. -/
def boundaryDecision (boundary : Stamp) (s : State) : State :=
  match choosePresent boundary s.so.applied s.st.queue with
  | (dropped, some e, rest) =>
    let s := s.stChange fun t => (t.dropEntries dropped).advance e rest
    let s := s.when (!dropped.isEmpty) (raise .dropped)
    raise .frame (pulse 6 s)
  | (_, none, _) =>
    match s.st.current with
    | some f => raise .repeated (s.stChange (St.repeated f))
    | none => s

/-! ### Tether frames (R17 to R21) -/

/-- TETHER_FRAME_REJECT with its cause and the frame tag it names (R23, log 25). -/
def rejectTether (cause : RejectCause) (tag : U32) (s : State) : State :=
  raise .tetherFrameReject (s.onSt fun t => { t with rejectCause := cause, rejectTag := tag })

/-- The open tether frame's surfaces that the host has not released. -/
def TetherFrame.kept (f : TetherFrame) : List (Fin 6) :=
  (if f.leftReleased then [] else [f.left]) ++ (if f.rightReleased then [] else f.right.toList)

/-- The open tether frame is given up: its surfaces still OPEN go FREE (R17, R21). -/
def St.dropTether (t : St) : St :=
  match t.tether with
  | none => t
  | some f => { (t.setStates .free f.kept) with tether := none }

/-- The surfaces a FRAME_BEGIN names, when both lie in 0 to 5 and differ (R18, R189). -/
def beginSurfaces (f : FrameBegin) : Option (Fin 6 × Option (Fin 6)) := do
  let left ← finAt 6 [f.left] 0
  let right ← slotAt 6 [f.right] 0
  if right = some left then none else some (left, right)

/-- A surface a FRAME_BEGIN may open (R18). -/
def Surface.openable (f : Surface) : Bool := f.ownedBy .tether && f.state == .free

/-- A FRAME_BEGIN that ST accepts (R18). -/
def acceptFrame (f : FrameBegin) (left : Fin 6) (right : Option (Fin 6)) (s : State) : State :=
  let ident := s.st.nextIdent
  let names := left :: right.toList
  let s := s.onSt fun t =>
    { (names.foldl (fun t n => t.onSurface n fun x => { x.clear with state := .opened }) t) with
      tether := some { tag := f.tag, left, leftReleased := false, right, rightReleased := false, target := f.target,
                       pose := f.pose, present := f.present, ident }
      nextIdent := ident + 1 }
  let s := s.onTc fun t =>
    { t with frontiers := names.foldl (fun v n => vset v n ⟨none, none, some ident⟩) t.frontiers }
  pulse 14 s

/-- A taken FRAME_BEGIN (R17, R18). -/
def tetherBegin (f : FrameBegin) (s : State) : State :=
  let s := if s.st.tether.isSome then rejectTether .abandoned f.tag (s.onSt St.dropTether) else s
  match beginSurfaces f with
  | none => rejectTether .state f.tag s
  | some (left, right) =>
    if (left :: right.toList).all (fun n => (s.st.surface n).openable) && s.st.eyesOk left right && !s.st.barred then
      acceptFrame f left right s
    else rejectTether .state f.tag s

/-- The queue entry a tether frame makes (R20). -/
def TetherFrame.entry (f : TetherFrame) : Entry :=
  { tag := f.tag, left := f.left, right := f.right, target := f.target, pose := f.pose, source := .tether }

/-- A taken FRAME_END (R20). -/
def tetherEnd (tag : U32) (s : State) : State :=
  match s.st.tether with
  | none => rejectTether .tag tag s
  | some f =>
    let names := f.left :: f.right.toList
    if f.tag ≠ tag then rejectTether .tag tag s
    else if f.leftReleased || f.rightReleased then rejectTether .state tag (s.onSt St.dropTether)
    else
      let s := s.onSt fun t => { t with tether := none }
      if !f.present then s.onSt (St.setStates .ready names)
      else if !(names.all (s.st.fitsPanel s.so.applied)) || s.st.barred then
        rejectTether .state tag (s.onSt (St.setStates .ready names))
      else if 3 ≤ s.st.queue.length then rejectTether .full tag (s.onSt (St.setStates .ready names))
      else enqueue f.entry s

/-- The tether link goes DOWN (R21). -/
def tetherLost (s : State) : State :=
  match s.st.tether with
  | none => s
  | some f => rejectTether .abandoned f.tag (s.onSt St.dropTether)

/-- The bands of a surface that a deposit frontier at a row completes; a FREE surface ignores it (R19). -/
def depositBands (n : Fin 6) (row : Nat) (s : State) : State :=
  let f := s.st.surface n
  match f.config with
  | none => s
  | some c =>
    if f.state ≠ .free ∧ c.owner = .tether then
      s.onSt (St.onSurface n fun f =>
        { f with bands := finishBands (if row + 1 = c.height then c.bandCount else (row + 1) / c.bandRows) f.bands })
    else s

/-- The deposit frontier of a surface moves to a row for the frame that last opened it, and ST is handed it (R19). -/
def advanceDeposit (n : Fin 6) (ident : Nat) (row : Nat) (s : State) : State :=
  if (vget s.tc.frontiers n).openedBy = some ident then
    depositBands n row
      (s.onTc fun t => { t with frontiers := vmod t.frontiers n fun x => { x with deposit := some row } })
  else s

/-! ### Standby (R22) -/

/-- The presentation flush. -/
def presentationFlush (s : State) : State :=
  s.stChange fun t =>
    { (t.setStates .free (List.finRange 6)) with
      queue := [], current := none, previous := none, tether := none, barred := true }

end Sys2Proof.Machine
end

