-- ==== Sys2Proof/Machine/Tether.lean ====
section
/-!
DEFINITION. The tether controller's link states, uplink queue, lane and history, and deposit engine (chapter 4), with
the packet and payload layouts they use (chapter 11). What the downlink packets do is in Downlink.lean.
-/
namespace Sys2Proof.Machine

/-! ### Packet layouts (R78, R187, R189) -/

/-- One bit of the CRC of R78: generator 04C11DB7h, least significant bit first. -/
def crcBit (c : U32) : U32 := if c.getLsbD 0 then (c >>> 1) ^^^ 0xEDB88320 else c >>> 1

def crcByte (c : U32) (b : Byte) : U32 :=
  let x := c ^^^ (b.zeroExtend 32)
  crcBit (crcBit (crcBit (crcBit (crcBit (crcBit (crcBit (crcBit x)))))))

/-- CRC-32 over a byte string: initial value FFFFFFFFh, result inverted. -/
def crc32 (l : List Byte) : U32 := ~~~(l.foldl crcByte 0xFFFFFFFF)

/-- Header, payload and trailer of an uplink packet. -/
def uplinkPacket (kind : Byte) (resent damaged : Bool) (seq : U16) (payload : List Byte) : List Byte :=
  let body := [kind, flagByte resent ||| (flagByte damaged <<< 1)] ++ toBytes 2 seq.toNat ++
    toBytes 4 payload.length ++ payload
  body ++ toBytes 4 (crc32 body).toNat

/-- A sensor record's 32 bytes; `extra` are the flag bits a fresh line adds. -/
def SensorRec.bytes (r : SensorRec) (extra : Byte) : List Byte :=
  [BitVec.ofNat 8 r.channel.val, flagByte r.faultCleared ||| extra] ++ toBytes 2 r.seq.toNat ++
  stampBytes r.stamp ++ [BitVec.ofNat 8 r.length, r.overrun] ++ toBytes 4 r.frame.toNat ++ padTo 16 r.payload

/-- The 24 bytes of a photon report; the last one holds CUT in the status page and 0 in a packet. -/
def Photon.bytes (p : Photon) (cut : Bool) : List Byte :=
  toBytes 4 p.frame.toNat ++ toBytes 4 p.tag.toNat ++ toBytes 4 (p.pose.getD 0).toNat ++ stampBytes p.stamp ++
  toBytes 2 p.repeats.toNat ++ toBytes 2 p.substituted.toNat ++ [flagByte p.pose.isSome, flagByte cut]

/-! ### Classes (R89) -/

/-- The sequenced class of a content: 0 PHOTON, 1 SENSOR, 2 MESSAGE; none for AUDIO_IN. -/
def Content.seqClass : Content → Option (Fin 3)
  | .photon _ => some 0
  | .sensor _ _ => some 1
  | .message _ _ _ => some 2
  | .audioIn _ => none

/-- The place of a content's class among classes 1 to 4. -/
def Content.queueClass : Content → Fin 4
  | .photon _ => 0
  | .sensor _ _ => 1
  | .message _ _ _ => 2
  | .audioIn _ => 3

/-- The payload of a content other than a MESSAGE. -/
def Content.payload : Content → List Byte
  | .photon r => r.bytes false
  | .sensor records _ => BitVec.ofNat 8 records.length :: zeros 3 ++ records.flatMap fun r => r.bytes 0
  | .message _ _ _ => []
  | .audioIn frames => frames.flatMap fun f => toBytes 2 f.toNat

/-- The uplink kind number of a content (R189). -/
def Content.kind : Content → Byte
  | .photon _ => 0x31
  | .sensor _ _ => 0x32
  | .message _ _ _ => 0x33
  | .audioIn _ => 0x34

/-- A closed batch takes no more records (R91). -/
def Content.close : Content → Content
  | .sensor records _ => .sensor records false
  | c => c

/-! ### The lane (R92, R93) -/

/-- The time a packet occupies the lane (R93). -/
def laneTime (packet : List Byte) : Nat := 1 + (packet.length + 255) / 256

/-- What the lane arbiter may choose. -/
inductive Choice where
  | ack
  | echo (pair : TimePair)
  | keepalive
  | again (cls : Fin 3) (e : HistEntry)
  | first (e : UplinkEntry)
  deriving DecidableEq, Repr

/-- The number of entries in the history (R94). -/
def Tc.historyFill (t : Tc) : Nat := ((vlist t.history).map List.length).sum

/-- The eligible packet of a sequenced class: one marked for resend first (R92). -/
def Tc.classChoice (t : Tc) (c : Fin 3) : Option Choice :=
  match (vget t.history c).find? (·.resend) with
  | some e => some (.again c e)
  | none =>
    if t.historyFill < 16 then (t.queue.find? fun e => e.content.seqClass == some c).map .first else none

/-- The lane arbiter's choice (R92, R99). -/
def Tc.choice (t : Tc) : Option Choice :=
  if t.ackRequest then some .ack
  else match t.echoRequest with
    | some p => some (.echo p)
    | none =>
      if t.keepRequest then some .keepalive
      else if t.restricted then none
      else (t.classChoice 0).or ((t.classChoice 1).or ((t.classChoice 2).or
        ((t.queue.find? fun e => e.content.seqClass == none).map .first)))

/-- A transmission begins: the lane is occupied and the idle timer stops (R75, R93). -/
def beginSend (packet : List Byte) (entry : Nat) (s : State) : State :=
  s.onTc fun t => { t with lane := .sending packet entry (laneTime packet), idle := none }

/-- A queue entry of a sequenced class moves to the history at its transmission's begin (R93). -/
def Tc.intoHistory (c : Fin 3) (e : UplinkEntry) (belongs : Bool) (t : Tc) : Tc :=
  { t with
    queue := t.queue.filter (·.id != e.id)
    history := vmod t.history c fun h =>
      h ++ [{ id := e.id, seq := vget t.nextSeq c, content := e.content.close, sends := 1, resend := false, belongs }]
    nextSeq := vmod t.nextSeq c (· + 1)
    histChange := t.histChange + 1 }

/-- A history entry is sent again (R93). -/
def Tc.sentAgain (c : Fin 3) (id : Nat) (t : Tc) : Tc :=
  { t with
    history := vmod t.history c (updateFirst (·.id == id) fun h => { h with sends := h.sends + 1, resend := false })
    histChange := t.histChange + 1
    resent := vmod t.resent c (· + 1) }

/-- The reads of a MESSAGE's bytes are issued and the lane is held for it (R93). -/
def beginReads (entry addr length : Nat) (s : State) : State :=
  let lines := linesOf addr length
  let (read, s) := s.fresh
  let s := s.onTc fun t => { t with lane := .reading entry read lines.length [] false false, idle := none }
  requestReads (.messageRead read) lines s

/-- A chosen packet is sent, or its reads are issued (R93). -/
def sendChoice (c : Choice) (s : State) : State :=
  match c with
  | .ack =>
    let (id, s) := s.fresh
    beginSend (uplinkPacket 0x02 false false 0 (toBytes 2 (s.tc.lastTaken.getD 0).toNat ++ zeros 2)) id
      (s.onTc fun t => { t with ackRequest := false })
  | .echo p =>
    let (id, s) := s.fresh
    beginSend (uplinkPacket 0x30 false false 0 (toBytes 8 p.console.toNat ++ stampBytes p.stamp ++ zeros 2)) id
      (s.onTc fun t => { t with echoRequest := none })
  | .keepalive =>
    let (id, s) := s.fresh
    beginSend (uplinkPacket 0x01 false false 0 []) id (s.onTc fun t => { t with keepRequest := false })
  | .again cls e =>
    match e.content with
    | .message _ addr length => beginReads e.id addr length s
    | content => beginSend (uplinkPacket content.kind true false e.seq content.payload) e.id
        (s.onTc (Tc.sentAgain cls e.id))
  | .first e =>
    match e.content with
    | .message _ addr length => beginReads e.id addr length s
    | .audioIn _ =>
      beginSend (uplinkPacket e.content.kind false false 0 e.content.payload) e.id
        (s.onTc fun t => { t with queue := t.queue.filter (·.id != e.id) })
    | .photon _ =>
      beginSend (uplinkPacket e.content.kind false false (vget s.tc.nextSeq 0) e.content.payload) e.id
        (s.onTc (Tc.intoHistory 0 e false))
    | .sensor _ _ =>
      beginSend (uplinkPacket e.content.kind false false (vget s.tc.nextSeq 1) e.content.payload) e.id
        (s.onTc (Tc.intoHistory 1 e false))

/-- The lane arbiter chooses if the lane is free and the link is UP (R92). -/
def laneKick (s : State) : State :=
  if s.tc.link = .up ∧ s.tc.lane = .free then
    match s.tc.choice with
    | some c => sendChoice c s
    | none => s
  else s

/-- The lane becomes free: the arbiter chooses, or the idle timer of 2 ms starts (R75, R92). -/
def laneFreed (s : State) : State :=
  let s := s.onTc fun t => { t with lane := .free, idle := if t.link = .up then some 2000 else t.idle }
  laneKick s

/-! ### The uplink queue (R90, R91) -/

/-- An entry is handed over. -/
def uplinkJoin (content : Content) (s : State) : State :=
  let c := content.queueClass
  match s.tc.link with
  | .down => s.onTc fun t => { t with unlinked := vmod t.unlinked c (· + 1) }
  | .training => s.onTc fun t => { t with unlinked := vmod t.unlinked c (· + 1) }
  | _ =>
    if 32 ≤ s.tc.queue.length then
      raise .uplinkFull (s.onTc fun t => { t with fullDrops := vmod t.fullDrops c (· + 1) })
    else
      let (id, s) := s.fresh
      laneKick (s.onTc fun t => { t with queue := t.queue ++ [⟨id, content⟩] })

/-- An open SENSOR batch. -/
def UplinkEntry.isOpen (e : UplinkEntry) : Bool :=
  match e.content with
  | .sensor _ true => true
  | _ => false

/-- A record joins an open batch, which closes at four (R91). -/
def UplinkEntry.addRecord (r : SensorRec) (e : UplinkEntry) : UplinkEntry :=
  match e.content with
  | .sensor records o => { e with content := .sensor (records ++ [r]) (o && records.length + 1 < 4) }
  | _ => e

/-- SH hands over a routed record (R91). -/
def uplinkSensor (r : SensorRec) (s : State) : State :=
  if s.tc.queue.any UplinkEntry.isOpen then
    s.onTc fun t => { t with queue := updateFirst UplinkEntry.isOpen (UplinkEntry.addRecord r) t.queue }
  else uplinkJoin (.sensor [r] true) s

/-! ### Message slots (R97, R98) -/

/-- A message slot arm (R97). -/
def judgeMessageSlot (n : Fin 3) (b : List Byte) (s : State) : Outcome × State :=
  let addr := numAt b 0 4
  let length := numAt b 4 4
  if vget s.tc.inProgress n then (.refusedBusy, s)
  else if length < 1 ∨ 1020 < length ∨ 0x40000000 < addr + length then (.refusedField, s)
  else if s.tc.link = .down ∨ s.tc.link = .training then
    (.refusedState, s.onTc fun t => { t with unlinked := vmod t.unlinked 2 (· + 1) })
  else if 32 ≤ s.tc.queue.length then
    (.refusedFull, s.onTc fun t => { t with fullDrops := vmod t.fullDrops 2 (· + 1) })
  else
    let s := s.onTc fun t => { t with inProgress := vset t.inProgress n true }
    (.pending, uplinkJoin (.message n addr length) s)

/-- A slot's message finishes (R98). -/
def finishSlot (n : Fin 3) (o : Outcome) (s : State) : State :=
  let s := s.onTc fun t => { t with inProgress := vset t.inProgress n false }
  raise .messageSent (s.onPu (Pu.finish (.messageSlot n) o))

/-- Several slots finish. -/
def finishSlots (l : List (Fin 3)) (o : Outcome) (s : State) : State := l.foldl (fun s n => finishSlot n o s) s

/-- The slot a history entry still belongs to. -/
def HistEntry.slot (e : HistEntry) : Option (Fin 3) :=
  match e.content with
  | .message n _ _ => if e.belongs then some n else none
  | _ => none

/-- The slot of a queued MESSAGE. -/
def UplinkEntry.slot (e : UplinkEntry) : Option (Fin 3) :=
  match e.content with
  | .message n _ _ => some n
  | _ => none

/-! ### Link states (R73 to R77) -/

/-- The link changes state; the time of the change is kept (R73). -/
def setLink (l : LinkState) (s : State) : State := s.onTc fun t => { t with link := l, since := s.tb.now }

/-- Training starts (R74). -/
def startTraining (s : State) : State :=
  setLink .training (s.onTc fun t => { t with attempts := t.attempts + 1, training := some 100000, retry := none })

/-- The retry timer at an entry to DOWN (R74). -/
def Tc.startRetry (cable : Bool) (t : Tc) : Tc := { t with retry := if cable then some 500000 else none }

/-- DOWN from TRAINING (R74, R77). -/
def trainingLost (s : State) : State :=
  setLink .down (s.onTc fun t => { (t.startRetry s.pins.cable) with training := none })

/-- The lane when the link leaves UP or the entries go: a transmission ends, reads are discarded as they complete
(R76, R77, log 18). -/
def Lane.cut : Lane → Lane
  | .reading e r n l d _ => .reading e r n l d true
  | _ => .free

/-- What leaving UP does whatever state follows (R75, R76, R81). -/
def Tc.leaveUp (t : Tc) : Tc :=
  { t with receive := none, idle := none, paused := none, ackTimers := Vector.replicate 3 none, lane := t.lane.cut }

/-- UP to RECOVERY (R76). -/
def enterRecovery (s : State) : State :=
  let s := s.onTc fun t => { t.leaveUp with recoveries := t.recoveries + 1, recovery := some 50000 }
  raise .linkRecovery (setLink .recovery s)

/-- The slots whose messages stand in the queue or the history and still belong to them. -/
def Tc.liveSlots (t : Tc) : List (Fin 3) :=
  t.queue.filterMap UplinkEntry.slot ++ (vget t.history 2).filterMap HistEntry.slot

/-- UP or RECOVERY to DOWN (R77). -/
def enterDown (s : State) : State :=
  let slots := s.tc.liveSlots
  let s := s.onTc fun t =>
    { (t.leaveUp.startRetry s.pins.cable) with
      recovery := none, queue := [], history := Vector.replicate 3 [],
      histChange := if t.historyFill = 0 then t.histChange else t.histChange + 1,
      ackRequest := false, echoRequest := none, keepRequest := false }
  raise .linkDown (tetherLost (finishSlots slots .lost (setLink .down s)))

/-- The timers that start on entering UP (R75). -/
def Tc.startUp (t : Tc) : Tc := { t with receive := some 8000, idle := some 2000 }

/-- TRAINING to UP (R74). -/
def trainingDone (s : State) : State :=
  let s := s.onTc fun t =>
    { t.startUp with training := none, expected := 0, lastTaken := none, nextSeq := Vector.replicate 3 0,
                     ackRequest := false, upFromRecovery := false }
  laneKick (raise .linkUp (setLink .up s))

/-- Every entry of a class's history is marked for resend. -/
def markResend (zero : Bool) (h : List HistEntry) : List HistEntry :=
  h.map fun e => { e with resend := true, sends := if zero then 0 else e.sends }

/-- The history's change count goes up when the history has changed (R178, log 14). -/
def Tc.noteHist (old new : Tc) : Tc :=
  if old.history = new.history then new else { new with histChange := new.histChange + 1 }

/-- Every entry of the history is marked for resend (R76, R99). -/
def Tc.markAll (zero : Bool) (t : Tc) : Tc := t.noteHist { t with history := vmap (markResend zero) t.history }

/-- RECOVERY to UP (R76). -/
def recoveryDone (s : State) : State :=
  let s := s.onTc fun t => { (t.markAll true).startUp with recovery := none, upFromRecovery := true }
  laneKick (raise .linkUp (setLink .up s))

/-- An ack timer's expiry (R96). -/
def ackExpired (c : Fin 3) (s : State) : State :=
  match vget s.tc.history c with
  | [] => s.onTc fun t => { t with ackTimers := vset t.ackTimers c none }
  | e :: _ =>
    if e.sends < 8 then
      laneKick (s.onTc fun t => t.noteHist
        { t with ackTimers := vset t.ackTimers c none, history := vmod t.history c (markResend false) })
    else enterRecovery s

/-- The ack timer of 4 ms starts, unless the standby restriction stops it (R96, R99). -/
def Tc.startAck (c : Fin 3) (t : Tc) : Tc :=
  { t with ackTimers := vset t.ackTimers c (if t.restricted then none else some 4000) }

/-- The class whose oldest history entry this is. -/
def Tc.oldestClass (t : Tc) (id : Nat) : Option (Fin 3) :=
  (List.finRange 3).find? fun c => ((vget t.history c).head?.map (·.id)) == some id

/-- A transmission's completion (R93). -/
def sendDone (packet : List Byte) (entry : Nat) (s : State) : State :=
  let s := s.emit (.uplink packet)
  let s := match s.tc.oldestClass entry with
    | some c => s.onTc (Tc.startAck c)
    | none => s
  laneFreed s

/-- One class's field of an ACK (R95). -/
def applyAck (c : Fin 3) (f : AckField) (s : State) : State :=
  if !f.valid then s
  else
    let h := vget s.tc.history c
    if h.any (·.seq == f.seq) then
      let gone := h.takeWhile (·.seq != f.seq) ++ (h.dropWhile (·.seq != f.seq)).take 1
      let rest := h.drop gone.length
      let s := s.onTc fun t =>
        let t := { t with history := vset t.history c rest, histChange := t.histChange + 1 }
        if rest.isEmpty then { t with ackTimers := vset t.ackTimers c none } else t.startAck c
      finishSlots (gone.filterMap HistEntry.slot) .taken s
    else
      match h with
      | [] => s
      | e :: _ =>
        if (e.seq - f.seq).toNat ≤ 32768 then s
        else s.onTc fun t => { t with badAcks := t.badAcks + 1 }

/-! ### Message reads (R93, R98) -/

/-- The MESSAGE of an entry whose reads are all in: its class list, content and how it is sent. -/
def findMessage (id : Nat) (t : Tc) : Option (Fin 3 × Nat × Nat × Option HistEntry) :=
  match t.queue.find? (·.id == id) with
  | some ⟨_, .message n a l⟩ => some (n, a, l, none)
  | _ =>
    match (vget t.history 2).find? (·.id == id) with
    | some e =>
      match e.content with
      | .message n a l => some (n, a, l, some e)
      | _ => none
    | none => none

/-- After an uncorrectable read the packet is sent DAMAGED and its slot goes LOST if it still has one (R93, R98). That
the slot mark's loss counts as a change of the history beside the entry's joining, or being sent again, at the same
completion is a DESIGN CHOICE (log 57). -/
def loseSlot (id : Nat) (n : Fin 3) (belonged : Bool) (s : State) : State :=
  if belonged then
    let s := s.onTc fun t =>
      { t with history := vmod t.history 2 (updateFirst (·.id == id) fun h => { h with belongs := false })
               histChange := t.histChange + 1 }
    finishSlot n .lost s
  else s

/-- The last read of a MESSAGE has completed: its transmission begins (R93). -/
def sendMessage (entry : Nat) (lines : List (Nat × List Byte)) (damaged : Bool) (s : State) : State :=
  match findMessage entry s.tc with
  | none => laneFreed s
  | some (n, addr, length, sent) =>
    let payload := gather lines addr length
    match sent with
    | some e =>
      let s := beginSend (uplinkPacket 0x33 true damaged e.seq payload) entry (s.onTc (Tc.sentAgain 2 entry))
      loseSlot entry n (damaged && e.belongs) s
    | none =>
      let s := beginSend (uplinkPacket 0x33 false damaged (vget s.tc.nextSeq 2) payload) entry
        (s.onTc (Tc.intoHistory 2 ⟨entry, .message n addr length⟩ true))
      loseSlot entry n damaged s

/-- The completion of one of a MESSAGE's reads (R93, log 18). -/
def messageReadDone (read line : Nat) (data : List Byte) (bad : Bool) (s : State) : State :=
  match s.tc.lane with
  | .reading entry r left lines damaged cancelled =>
    if r ≠ read then s
    else
      let lines := lines ++ [(line, data)]
      let damaged := damaged || bad
      if 1 < left then
        s.onTc fun t => { t with lane := .reading entry r (left - 1) lines damaged cancelled }
      else if cancelled then laneFreed s
      else sendMessage entry lines damaged s
  | _ => s

/-! ### Standby restriction (R99) -/

def restrictionBegin (s : State) : State :=
  s.onTc fun t => { t with restricted := true, ackTimers := Vector.replicate 3 none }

def restrictionEnd (s : State) : State :=
  laneKick (s.onTc fun t => { (t.markAll false) with restricted := false })

/-! ### The deposit engine (R81 to R83, R105) -/

/-- The deposit room a request holds (log 17). -/
def Agent.room : Agent → Nat
  | .deposit _ r => r
  | .messageEntry _ _ r => r
  | _ => 0

/-- The deposit buffer's fill: what is waiting to be written or being written (R81, log 17). -/
def State.depositFill (s : State) : Nat := (s.da.all.map (·.agent.room)).sum

/-- Issues the line writes of a deposit payload in order. -/
def depositWrites (job : Nat) : List (Nat × List (Nat × Byte)) → State → State
  | [], s => s
  | (l, bs) :: r, s => depositWrites job r (request (.deposit job bs.length) l (.write bs) s)

/-- The slices whose writes, and those of every earlier in-order slice of their frame, are complete; and the rest
(R19). `blocked` lists the frames with an earlier slice still being written. -/
def releaseSlices (blocked : List Nat) : List SliceJob → List SliceJob × List SliceJob
  | [] => ([], [])
  | j :: r =>
    if blocked.contains j.ident then
      let (d, k) := releaseSlices blocked r
      (d, j :: k)
    else if j.left = 0 then
      let (d, k) := releaseSlices blocked r
      (j :: d, k)
    else
      let (d, k) := releaseSlices (j.ident :: blocked) r
      (d, j :: k)

/-- A write of a slice has completed (R19, R82). -/
def sliceWriteDone (job : Nat) (s : State) : State :=
  let jobs := updateFirst (·.id == job) (fun j => { j with left := j.left - 1 }) s.tc.slices
  let (finished, kept) := releaseSlices [] jobs
  let s := s.onTc fun t => { t with slices := kept }
  finished.foldl (fun s j => advanceDeposit j.surface j.ident j.lastRow s) s

/-- The frames of the leading payloads whose writes are all complete, and the payloads after them (R105). -/
def releaseAudio : List AudioJob → Nat × List AudioJob
  | [] => (0, [])
  | j :: r =>
    if j.left = 0 then
      let (n, k) := releaseAudio r
      (j.frames + n, k)
    else (0, j :: r)

/-- A write of an AUDIO payload has completed: produce of ring 0 advances over whole payloads in order (R105). -/
def audioWriteDone (job : Nat) (s : State) : State :=
  let jobs := updateFirst (·.id == job) (fun j => { j with left := j.left - 1 }) s.tc.audioJobs
  let (n, kept) := releaseAudio jobs
  let s := s.onTc fun t => { t with audioJobs := kept }
  s.onAu fun a => { a with rings := vmod a.rings 0 fun r => { r with produce := r.produce + BitVec.ofNat 32 n } }

/-- A deposit write has completed: its room is free again, and its payload goes on (R81). -/
def depositWriteDone (job : Nat) (s : State) : State := audioWriteDone job (sliceWriteDone job s)

/-- The frontier marks at a slice's acceptance: whether it is in order (R19). -/
def inOrder (f : Frontier) (firstRow : Nat) : Bool :=
  match f.issue with
  | none => firstRow == 0
  | some r => firstRow == r + 1

/-- The line writes of a slice's rows (R82). -/
def sliceWrites (c : SurfaceConfig) : Nat → Nat → List Byte → List (Nat × List (Nat × Byte))
  | _, 0, _ => []
  | row, n + 1, pixels =>
    lineWrites (c.base + c.pitch * row) (pixels.take c.rowBytes) ++
    sliceWrites c (row + 1) n (pixels.drop c.rowBytes)

/-- A slice that passed every check is accepted (R82). -/
def acceptSlice (n : Fin 6) (c : SurfaceConfig) (ident : Nat) (p : Slice) (s : State) : State :=
  let writes := sliceWrites c p.firstRow.toNat p.rowCount.toNat p.pixels
  let lastRow := p.firstRow.toNat + p.rowCount.toNat - 1
  let (job, s) := s.fresh
  let s := if inOrder (vget s.tc.frontiers n) p.firstRow.toNat then
      s.onTc fun t =>
        { t with frontiers := vmod t.frontiers n fun f => { f with issue := some lastRow }
                 slices := t.slices ++ [{ id := job, ident, surface := n, lastRow, left := writes.length }] }
    else s
  depositWrites job writes s

/-- The surface a slice names, when it is an OPEN TETHER-owned surface of the open tether frame (R82): its number,
configuration and the frame's identity. -/
def sliceTarget (surface : Byte) (s : State) : Option (Fin 6 × SurfaceConfig × Nat) := do
  let n ← finAt 6 [surface] 0
  let f ← s.st.tether
  let c ← (s.st.surface n).config
  if f.kept.contains n ∧ (s.st.surface n).state = .opened ∧ c.owner = .tether then some (n, c, f.ident) else none

/-- A SLICE packet (R82). -/
def takeSlice (p : Slice) (s : State) : State :=
  if s.tc.restricted then s.onTc fun t => { t with dropStandby := t.dropStandby + 1 }
  else match sliceTarget p.surface s with
    | none => s.onTc fun t => { t with dropState := t.dropState + 1 }
    | some (n, c, ident) =>
      if p.rowCount = 0 ∨ c.height < p.firstRow.toNat + p.rowCount.toNat then
        s.onTc fun t => { t with dropRange := t.dropRange + 1 }
      else if p.pixels.length ≠ p.rowCount.toNat * c.rowBytes then
        s.onTc fun t => { t with dropFormat := t.dropFormat + 1 }
      else acceptSlice n c ident p s

/-! ### The message ring (R84 to R86) -/

/-- A message ring arm (R84). -/
def judgeMessageRing (b : List Byte) (s : State) : Outcome × State :=
  let base := numAt b 4 4
  let count := numAt b 8 4
  match flagAt b 0 with
  | none => (.refusedField, s)
  | some false =>
    (.taken, s.onTc fun t => { t with ring := { t.ring with enabled := false } })
  | some true =>
    if !([4, 8, 16, 32, 64, 128, 256].contains count) ∨ base % 1024 ≠ 0 ∨ 0x40000000 < base + 1024 * count ∨
        meetsPlan s.planBase base (1024 * count) then (.refusedField, s)
    else if s.tc.ring.enabled then (.refusedState, s)
    else if s.tc.ring.issued ≠ s.tc.ring.produce then (.refusedBusy, s)
    else (.taken, s.onTc fun t =>
      { t with ring := { t.ring with enabled := true, base, count, issued := t.ring.consume,
                                     produce := t.ring.consume, jobs := [] } })

/-- The line writes of a message ring entry: the length word, then the message (R85, R187). -/
def entryWrites (r : MessageRing) (bytes : List Byte) : List (Nat × List (Nat × Byte)) :=
  lineWrites (r.base + 1024 * (r.issued.toNat % r.count)) (toBytes 4 bytes.length ++ bytes)

/-- Issues the line writes of an entry; the deposit room is that of the message bytes (log 17). -/
def issueEntry (index : U16) (gen : Nat) : Bool → List (Nat × List (Nat × Byte)) → State → State
  | _, [], s => s
  | first, (l, bs) :: r, s =>
    issueEntry index gen false r
      (request (.messageEntry index gen (if first then bs.length - 4 else bs.length)) l (.write bs) s)

/-- A message equal to E is offered to the ring (R85): whether it is taken, and the state. -/
def offerMessage (bytes : List Byte) (s : State) : Bool × State :=
  let r := s.tc.ring
  let set (f : MessageRing → MessageRing) : State := s.onTc fun t => { t with ring := f t.ring }
  if s.tc.restricted then (true, set fun r => { r with standbyDrops := r.standbyDrops + 1 })
  else if !r.enabled then (true, set fun r => { r with noRingDrops := r.noRingDrops + 1 })
  else if bytes.length = 0 ∨ 1020 < bytes.length then (true, set fun r => { r with lengthDrops := r.lengthDrops + 1 })
  else if (r.issued - r.consume).toNat = r.count then
    (false, set fun r => { r with backPressure := r.backPressure + 1 })
  else
    let writes := entryWrites r bytes
    (true, issueEntry r.issued s.generation true writes
      (set fun r => { r with issued := r.issued + 1, jobs := r.jobs ++ [⟨r.issued, writes.length⟩] }))

/-- The entries at the head of the ring whose writes are all complete, and those after them (R85). -/
def releaseEntries : List EntryJob → Nat × List EntryJob
  | [] => (0, [])
  | j :: r =>
    if j.left = 0 then
      let (n, k) := releaseEntries r
      (n + 1, k)
    else (0, j :: r)

/-- A write of a message ring entry has completed (R85). -/
def entryWriteDone (index : U16) (gen : Nat) (s : State) : State :=
  if gen ≠ s.generation then s
  else
    let jobs := updateFirst (·.index == index) (fun j => { j with left := j.left - 1 }) s.tc.ring.jobs
    let (n, kept) := releaseEntries jobs
    let s := s.onTc fun t =>
      { t with ring := { t.ring with jobs := kept, produce := t.ring.produce + BitVec.ofNat 16 n } }
    s.when (n != 0) (raise .messageIn)

/-- A write of the message ring's consume live word (R86). -/
def messageConsume (v : U32) (s : State) : State :=
  let c : U16 := v.truncate 16
  let r := s.tc.ring
  if c - r.consume ≤ r.produce - r.consume then
    s.onTc fun t => { t with ring := { t.ring with consume := c } }
  else badIndex (s.planBase + LiveWord.messageConsume.offset) .host s

end Sys2Proof.Machine
end

