-- ==== Sys2Proof/Machine/Audio.lean ====
section
/-!
DEFINITION. The audio unit (chapter 5): rings and their records, live words, the audio period, fetches, drift
correction, mixing, the dither generator, the PWM stages and microphone capture.
-/
namespace Sys2Proof.Machine

/-! ### Ring records (R102, R103) -/

/-- Bytes of one frame of a ring. -/
def frameSize (n : Fin 3) : Nat := if n = 2 then 2 else 4

/-- The allowed capacities. -/
def audioCapacities : List Nat := [256, 512, 1024, 2048, 4096, 8192, 16384, 32768, 65536]

/-- A ring has writes or reads in flight (R103). -/
def AudioRing.inFlight (n : Fin 3) (r : AudioRing) : Bool :=
  match n with
  | 0 => r.issued != r.produce || r.taken != r.consume
  | 1 => r.taken != r.consume
  | 2 => r.issued != r.produce

def State.onRing (n : Fin 3) (f : AudioRing → AudioRing) (s : State) : State :=
  s.onAu fun a => { a with rings := vmod a.rings n f }

/-- Drift correction starts over when ring 0 leaves PLAYING (R110). -/
def Au.dropDrift (n : Fin 3) (a : Au) : Au := if n = 0 then { a with driftCount := 0, scheduled := .none } else a

/-- A ring as an enable leaves it (R103). -/
def AudioRing.enable (n : Fin 3) (running : Bool) (base capacity threshold gain : Nat) (uplink : Byte)
    (r : AudioRing) : AudioRing :=
  let r := { r with enabled := true, base, capacity, threshold, gain, uplink }
  if n = 2 then { r with issued := r.consume, produce := r.consume }
  else { r with issued := 0, produce := 0, taken := 0, consume := 0,
                play := if running then .priming else .stopped }

/-- An audio ring arm (R103). -/
def judgeAudioRing (n : Fin 3) (b : List Byte) (s : State) : Outcome × State :=
  let gain := numAt b 2 2
  let base := numAt b 4 4
  let capacity := numAt b 8 4
  let threshold := numAt b 12 4
  let uplink : Byte := if n = 2 then b.getD 1 0 else 0
  let size := capacity * frameSize n
  let r := vget s.au.rings n
  if 256 < gain ∨ (n = 2 ∧ (flagAt b 1).isNone) then (.refusedField, s)
  else match flagAt b 0 with
  | none => (.refusedField, s)
  | some false =>
    (.taken, s.onAu fun a =>
      { (if r.enabled then a.dropDrift n else a) with
        rings := vmod a.rings n fun r => { r with enabled := false, play := .stopped } })
  | some true =>
    if !(audioCapacities.contains capacity) ∨ base % 64 ≠ 0 ∨ 0x40000000 < base + size ∨
        meetsPlan s.planBase base size ∨ (n ≠ 2 ∧ (threshold < 48 ∨ capacity < threshold)) then (.refusedField, s)
    else if r.enabled then
      if base = r.base ∧ capacity = r.capacity then
        (.taken, s.onRing n fun r => { r with threshold, gain, uplink })
      else (.refusedState, s)
    else if r.inFlight n then (.refusedBusy, s)
    else (.taken, s.onRing n (AudioRing.enable n s.au.running base capacity threshold gain uplink))

/-- An audio output arm (R111). -/
def judgeAudioOut (b : List Byte) (s : State) : Outcome × State :=
  let volume := numAt b 0 2
  let taps : U16 := BitVec.ofNat 16 (numAt b 4 2)
  match flagAt b 2, flagAt b 3, codeAt speakerSelects b 6, codeAt speakerSelects b 7 with
  | some mute, some dither, some left, some right =>
    if 256 < volume ∨ taps = 0 then (.refusedField, s)
    else (.taken, s.onAu fun a => { a with output := { volume, mute, dither, taps, left, right }, lfsr := 1 })
  | _, _, _, _ => (.refusedField, s)

/-! ### Indices the outside moves (R105 to R107) -/

/-- The byte ranges of `n` frames from a free-running index, wrapping at the ring's end. -/
def ringSpans (base size capacity idx n : Nat) : List (Nat × Nat) :=
  let pos := idx % capacity
  let k := min n (capacity - pos)
  (base + size * pos, k) :: (if n ≤ k then [] else [(base, n - k)])

/-- The line writes of frames at a ring position: `frames` are the frames' bytes, one after another. -/
def frameWrites (size : Nat) : List (Nat × Nat) → List Byte → List (Nat × List (Nat × Byte))
  | [], _ => []
  | (a, k) :: r, bytes => lineWrites a (bytes.take (size * k)) ++ frameWrites size r (bytes.drop (size * k))

/-- An AUDIO payload is placed in ring 0 (R105): frames up to the room are accepted, the rest dropped. -/
def placeAudio (frames : List U32) (s : State) : State :=
  let r := vget s.au.rings 0
  let room := r.capacity - (r.issued - r.consume).toNat
  let taken := frames.take room
  let lost := frames.length - taken.length
  let writes := frameWrites 4 (ringSpans r.base 4 r.capacity r.issued.toNat taken.length)
    (taken.flatMap fun f => toBytes 4 f.toNat)
  let s := if taken.isEmpty then s
    else
      let (job, s) := s.fresh
      let s := s.onRing 0 fun r => { r with issued := r.issued + BitVec.ofNat 32 taken.length }
      let s := s.onTc fun t =>
        { t with audioJobs := t.audioJobs ++ [{ id := job, frames := taken.length, left := writes.length }] }
      depositWrites job writes s
  if lost = 0 then s
  else raise .audioOverrun (s.onRing 0 fun r => { r with overruns := r.overruns + BitVec.ofNat 32 lost })

/-- A write of ring 1's produce live word (R106). -/
def ring1Produce (p : U32) (s : State) : State :=
  let r := vget s.au.rings 1
  if r.produce - r.consume ≤ p - r.consume ∧ (p - r.consume).toNat ≤ r.capacity then
    s.onRing 1 fun r => { r with produce := p }
  else badIndex (s.planBase + LiveWord.ring1Produce.offset) .host s

/-- A write of ring 2's consume live word (R107). -/
def ring2Consume (c : U32) (s : State) : State :=
  let r := vget s.au.rings 2
  if c - r.consume ≤ r.produce - r.consume then s.onRing 2 fun r => { r with consume := c }
  else badIndex (s.planBase + LiveWord.ring2Consume.offset) .host s

/-! ### Fetches (R108, R109) -/

/-- The lines of byte ranges, in order. -/
def spanLines (size : Nat) (spans : List (Nat × Nat)) : List Nat :=
  spans.flatMap fun p => linesOf p.1 (size * p.2)

/-- The addresses of `n` frames from a free-running index. -/
def frameAddrs (base size capacity idx n : Nat) : List Nat :=
  (List.range n).map fun i => base + size * ((idx + i) % capacity)

/-- A playback ring takes `n` frames and issues their reads (R109). -/
def takeFrames (ring : Fin 3) (n : Nat) (corr : Correction) (s : State) : State :=
  let r := vget s.au.rings ring
  let lines := spanLines 4 (ringSpans r.base 4 r.capacity r.taken.toNat n)
  let (id, s) := s.fresh
  let s := s.onAu fun a =>
    { a with fetches := a.fetches ++
        [{ id, ring, corr, count := n, left := lines.length, mixed := false,
           frames := (frameAddrs r.base 4 r.capacity r.taken.toNat n).map fun a => (a, none) }] }
  let s := s.onRing ring fun r => { r with taken := r.taken + BitVec.ofNat 32 n }
  requestReads (.fetch id) lines s

/-- Consume advances over a ring's periods whose reads, and those of every earlier period, have completed; a period
both read and mixed leaves the list (R109). The first component is the number of frames. -/
def settleFetches (ring : Fin 3) : Bool → List FetchPeriod → Nat × List FetchPeriod
  | _, [] => (0, [])
  | blocked, p :: r =>
    if p.ring ≠ ring then
      let (n, k) := settleFetches ring blocked r
      (n, p :: k)
    else if blocked || p.left != 0 then
      let (n, k) := settleFetches ring true r
      (n, p :: k)
    else
      let (n, k) := settleFetches ring false r
      (p.count + n, if p.mixed then k else { p with count := 0 } :: k)

def settleRing (ring : Fin 3) (s : State) : State :=
  let (n, kept) := settleFetches ring false s.au.fetches
  (s.onAu fun a => { a with fetches := kept }).onRing ring fun r => { r with consume := r.consume + BitVec.ofNat 32 n }

/-- The frames of a line that has been read. -/
def fillFrames (line : Nat) (data : List Byte) (frames : List (Nat × Option U32)) : List (Nat × Option U32) :=
  frames.map fun f => if f.1 / 64 = line then (f.1, some (BitVec.ofNat 32 (numAt data (f.1 % 64) 4))) else f

/-- A playback fetch completes (R109): its data is kept when it is in time and good. One that completes after its mix,
or after AU's halt, counts in no failed count (logs 20, 42). -/
def fetchDone (period line : Nat) (data : List Byte) (bad : Bool) (s : State) : State :=
  match s.au.fetches.find? (·.id == period) with
  | none => s
  | some p =>
    let s := s.onAu fun a =>
      { a with fetches := updateFirst (·.id == period) (fun p =>
          { p with left := p.left - 1
                   frames := if p.mixed || bad then p.frames else fillFrames line data p.frames }) a.fetches }
    let s := if bad && !p.mixed then s.onRing p.ring fun r => { r with faileds := r.faileds + 1 } else s
    settleRing p.ring s

/-! ### The choice at a boundary (R108, R110) -/

/-- Frames a correction takes. -/
def Correction.count : Correction → Nat
  | .none => 48
  | .drop => 49
  | .again => 47

/-- The correction a comparison schedules (R110). -/
def driftCorrection (threshold fill : Nat) : Correction :=
  if threshold + 96 < fill then .drop
  else if fill + 96 < threshold ∧ 0 < fill then .again
  else .none

/-- Ring 0 has taken frames at this boundary: the count, and the comparison at every tenth one (R110). -/
def driftStep (s : State) : State :=
  let r := vget s.au.rings 0
  let c := if s.au.driftCount = 10 then 1 else s.au.driftCount + 1
  let fill := (r.produce - r.taken).toNat
  s.onAu fun a =>
    { a with driftCount := c
             scheduled := if c = 10 then driftCorrection r.threshold fill else .none }

/-- A made correction is counted (R110). -/
def Au.countCorrection (c : Correction) (a : Au) : Au :=
  match c with
  | .none => a
  | .drop => { a with dropCorrs := a.dropCorrs + 1 }
  | .again => { a with repeatCorrs := a.repeatCorrs + 1 }

def underrun (ring : Fin 3) (s : State) : State :=
  raise .audioUnderrun (s.onRing ring fun r => { r with underruns := r.underruns + 1 })

/-- The choice of a PLAYING ring (R108). -/
def choosePlaying (ring : Fin 3) (s : State) : State :=
  let r := vget s.au.rings ring
  let avail := (r.produce - r.taken).toNat
  let sched := if ring = 0 then s.au.scheduled else .none
  let corr := if sched.count ≤ avail then sched else .none
  let drift (s : State) : State := if ring = 0 then driftStep s else s
  if avail = 0 then
    underrun ring ((s.onRing ring fun r => { r with play := .priming }).onAu (Au.dropDrift ring))
  else if avail < corr.count then underrun ring (drift (takeFrames ring avail .none s))
  else drift ((takeFrames ring corr.count corr s).onAu (Au.countCorrection corr))

/-- The choice of a playback ring at a boundary (R108). -/
def chooseFrames (ring : Fin 3) (s : State) : State :=
  let r := vget s.au.rings ring
  match r.play with
  | .stopped => s
  | .priming =>
    if r.threshold ≤ (r.produce - r.taken).toNat then
      choosePlaying ring (s.onRing ring fun r => { r with play := .playing })
    else s
  | .playing => choosePlaying ring s

/-! ### Mixing (R112, R113) -/

/-- Holds a value to the 16-bit range. -/
def hold16 (v : Int) : Int := max (-32768) (min 32767 v)

/-- The left and right sample of a playback frame. -/
def leftSample (f : U32) : Int := (f.extractLsb' 0 16).toInt
def rightSample (f : U32) : Int := (f.extractLsb' 16 16).toInt

/-- One output sample before the duty: steps 1 to 3 of R112. -/
def mixSample (r0 r1 : Int) (g0 g1 volume : Nat) (mute : Bool) : Int :=
  let mixed := hold16 ((r0 * g0 + r1 * g1) / 256)
  if mute then 0 else hold16 (mixed * volume / 256)

/-- The duty of a scaled value with its dither bit: steps 4 and 5 of R112. -/
def dutyOf (scaled : Int) (bit : Nat) : Nat := min 1023 (((scaled + 32768) / 64).toNat + bit)

/-- The parity of the bits selected. -/
def parity16 (v : U16) : Bool := (List.range 16).foldl (fun p i => xor p (v.getLsbD i)) false

/-- One advance of the dither generator (R113). -/
def lfsrNext (taps state : U16) : U16 :=
  let x : U16 := if state = 0 then 1 else state
  (x <<< 1) ||| (if parity16 (x &&& taps) then 1 else 0)

/-- The 48 frames a period's reads assign to the output places (R110, R112). -/
def placeFrames (p : FetchPeriod) : List U32 :=
  let l := p.frames.map fun f => f.2.getD 0
  let l := match p.corr with
    | .none => l
    | .drop => l.eraseIdx 24
    | .again => l ++ l.getLast?.toList
  (l ++ List.replicate (48 - l.length) 0).take 48

/-- The frames of a ring at this mix; silence when it has none. -/
def mixFrames (ring : Fin 3) (fetches : List FetchPeriod) : List U32 :=
  match fetches.find? fun p => p.ring == ring && !p.mixed with
  | some p => placeFrames p
  | none => List.replicate 48 0

/-- The duties of the output places and the dither state after them (R112, R113). -/
def mixDuties (o : AudioOut) (g0 g1 : Nat) : U16 → List U32 → List U32 → List (Nat × Nat) × U16
  | st, f0 :: r0, f1 :: r1 =>
    let left := mixSample (leftSample f0) (leftSample f1) g0 g1 o.volume o.mute
    let right := mixSample (rightSample f0) (rightSample f1) g0 g1 o.volume o.mute
    let st1 := if o.dither then lfsrNext o.taps st else st
    let st2 := if o.dither then lfsrNext o.taps st1 else st1
    let bit (x : U16) : Nat := if o.dither && x.getLsbD 0 then 1 else 0
    let (d, fin) := mixDuties o g0 g1 st2 r0 r1
    ((dutyOf left (bit st1), dutyOf right (bit st2)) :: d, fin)
  | st, _, _ => ([], st)

/-- Reads outstanding at the mix are late (R109). -/
def lateLines (ring : Fin 3) (fetches : List FetchPeriod) : Nat :=
  ((fetches.filter fun p => p.ring == ring && !p.mixed).map (·.left)).sum

/-- The mix at a boundary (R109, R112). -/
def audioMix (s : State) : State :=
  let a := s.au
  let (duties, lfsr) := mixDuties a.output (vget a.rings 0).gain (vget a.rings 1).gain a.lfsr
    (mixFrames 0 a.fetches) (mixFrames 1 a.fetches)
  let late (n : Fin 3) (s : State) : State :=
    s.onRing n fun r => { r with lates := r.lates + BitVec.ofNat 32 (lateLines n a.fetches) }
  let s := late 1 (late 0 s)
  let s := s.onAu fun a =>
    { a with duties, lfsr, pwmNext := 0, fetches := a.fetches.map fun p => { p with mixed := true } }
  settleRing 1 (settleRing 0 s)

/-! ### Microphone capture (R115) -/

/-- The 1 bits of a word. -/
def ones64 (v : U64) : Nat := ((List.range 64).filter v.getLsbD).length

/-- A capture frame out of 64 PDM bits. -/
def captureFrame (gain : Nat) (bits : U64) : U16 :=
  BitVec.ofInt 16 (hold16 (hold16 (((ones64 bits : Int) - 32) * 1024) * gain / 256))

/-- The 16 capture frames of the period just ended. -/
def captureFrames (gain : Nat) (pdm : List U64) : List U16 :=
  (List.range 16).map fun i => captureFrame gain (pdm.getD i 0)

/-- The block of 16 frames is written to ring 2 or dropped, and handed to the uplink (R115); the gain applied at the
boundary scales all of it, a DESIGN CHOICE (log 43). -/
def micBlock (pdm : List U64) (s : State) : State :=
  let r := vget s.au.rings 2
  let frames := captureFrames r.gain pdm
  let s :=
    if !r.enabled then s
    else if r.capacity < (r.issued - r.consume).toNat + 16 then
      raise .audioOverrun (s.onRing 2 fun r => { r with overruns := r.overruns + 16 })
    else
      let writes := frameWrites 2 (ringSpans r.base 2 r.capacity r.issued.toNat 16)
        (frames.flatMap fun f => toBytes 2 f.toNat)
      let (id, s) := s.fresh
      let s := s.onAu fun a => { a with blocks := a.blocks ++ [⟨id, writes.length⟩] }
      requestWrites (.capture id) writes (s.onRing 2 fun r => { r with issued := r.issued + 16 })
  if r.uplink = 1 then uplinkJoin (.audioIn frames) s else s

/-- The leading blocks whose writes are all complete, and those after them. -/
def releaseBlocks : List CaptureBlock → Nat × List CaptureBlock
  | [] => (0, [])
  | b :: r =>
    if b.left = 0 then
      let (n, k) := releaseBlocks r
      (n + 16, k)
    else (0, b :: r)

/-- A capture write completes (R115). -/
def captureDone (block : Nat) (s : State) : State :=
  let (n, kept) := releaseBlocks (updateFirst (·.id == block) (fun b => { b with left := b.left - 1 }) s.au.blocks)
  (s.onAu fun a => { a with blocks := kept }).onRing 2 fun r => { r with produce := r.produce + BitVec.ofNat 32 n }

/-! ### The audio period, start and halt (R108, R114, R116) -/

/-- What a boundary does once the microphone's part is done: the playback rings choose their frames (R109). That the
reads of ring 0 are made before those of ring 1 is a DESIGN CHOICE (log 51). -/
def audioBoundaryRest (s : State) : State := chooseFrames 1 (chooseFrames 0 s)

/-- An audio period boundary with the PDM bits of the period just ended; none at the first one (R108, R115). -/
def audioBoundary (pdm : Option (List U64)) (s : State) : State :=
  let s := audioMix (pulse 17 (s.onAu fun a => { a with timer := some 1000 }))
  let s := match pdm with
    | some bits => micBlock bits s
    | none => s
  audioBoundaryRest s

/-- An enabled playback ring goes PRIMING at AU's start (R104, R116). -/
def AudioRing.prime (r : AudioRing) : AudioRing := if r.enabled then { r with play := .priming } else r

/-- AU starts (R116): the rings are PRIMING when the first boundary occurs, as a STOPPED ring is disabled or AU is
halted (R104). -/
def audioStart (s : State) : State :=
  audioBoundary none (((s.onAu fun a => { a with running := true }).onRing 0 AudioRing.prime).onRing 1 AudioRing.prime)

/-- AU halts for standby (R116). That a fetch still outstanding counts in no failed or late count is a DESIGN CHOICE
(log 42). -/
def audioHalt (s : State) : State :=
  let s := s.onAu fun a =>
    { a with running := false, timer := none, pwmNext := 48, driftCount := 0, scheduled := .none,
             rings := vmod (vmod a.rings 0 fun r => { r with play := .stopped }) 1 fun r => { r with play := .stopped },
             fetches := a.fetches.map fun p => { p with mixed := true } }
  settleRing 1 (settleRing 0 s)

/-- Microseconds since the last audio boundary. -/
def Au.elapsed (a : Au) : Nat := 1000 - a.timer.getD 1000

/-- PWM period `pwmNext` begins (R114, log 24): the stage takes its duty and the line selects. -/
def Au.pwmBoundary (a : Au) : Au :=
  let d := a.duties.getD a.pwmNext (512, 512)
  { a with dutyLeft := d.1, dutyRight := d.2, selLeft := a.output.left, selRight := a.output.right
           pwmNext := a.pwmNext + 1 }

/-- Whether the next PWM period begins by now: period `i` begins `i` / 48 ms after the audio boundary (log 24). -/
def Au.pwmDue (a : Au) : Bool := a.running && decide (a.pwmNext < 48) && decide (a.pwmNext * 1000 / 48 ≤ a.elapsed)

/-- Where the microsecond now passing begins, in 48ths of a microsecond from the start of its PWM period, which is 1000
of them long (R114). It is below 0 in the microsecond that the period begins inside; and it is past the end between an
audio boundary and the first PWM boundary, where the last period is over. -/
def Au.pwmPosition (a : Au) : Int := 48 * (a.elapsed : Int) - 1000 * ((a.pwmNext : Int) - 1)

/-- Whether the moment lies in the active part of duty `d`, which lasts d/1024 of the period from its start (R114); a
duty of 0 has none. In the one microsecond that holds the part's end the level is `edge` (log 21). -/
def Au.pwmActive (a : Au) (d : Nat) (edge : Bool) : Bool :=
  if (1000 * d : Int) ≤ 1024 * max 0 a.pwmPosition then false
  else if 1024 * (a.pwmPosition + 48) ≤ 1000 * d then true
  else edge

end Sys2Proof.Machine
end

