-- ==== Sys2Proof/Machine/Sensor.lean ====
section
/-!
DEFINITION. The sensor hub (chapter 3): channels, captures, the sensor bus, records, routing, sensor rings, fresh slots
and the standby hold.
-/
namespace Sys2Proof.Machine

/-! ### Channels (R50 to R53, R57) -/

def State.onChannel (n : Fin 4) (f : Channel → Channel) (s : State) : State :=
  s.onSh fun h => { h with channels := vmod h.channels n f }

def State.channel (s : State) (n : Fin 4) : Channel := vget s.sh.channels n

/-- A channel record's fields; none when a check of R50 fails. -/
def channelConfigAt (b : List Byte) : Option ChannelConfig := do
  let enable ← flagAt b 0
  let mode ← codeAt channelModes b 1
  let keep ← flagAt b 5
  let cmdCount := byteAt b 2
  let readLen := byteAt b 3
  let faultLimit := byteAt b 4
  let interval := numAt b 8 4
  if cmdCount ≤ 4 ∧ 1 ≤ readLen ∧ readLen ≤ 16 ∧ 1 ≤ faultLimit ∧ faultLimit ≤ 15 ∧
      (mode ≠ .interval ∨ (250 ≤ interval ∧ interval ≤ 1000000)) then
    some { enable, mode, interval, cmdCount, cmdBytes := bytesAt b 12 4, readLen, faultLimit, keep }
  else none

/-- A RUNNING channel becomes due: it takes a capture, or merges into the one it holds (R53). -/
def becomeDue (n : Fin 4) (s : State) : State :=
  let c := s.channel n
  if c.state ≠ .running then s
  else match c.holder with
    | none =>
      pulse ⟨9 + n.val, by omega⟩
        (s.onChannel n fun c => { c with holder := some ⟨s.tb.now, s.so.frameNumber, 0⟩ })
    | some h =>
      s.onChannel n fun c =>
        { c with holder := some { h with overrun := sat8 h.overrun }, overruns := c.overruns + 1 }

/-- A channel leaves RUNNING or is armed anew: the held capture goes and the timer stops (R50, R51). -/
def Channel.quiet (c : Channel) : Channel := { c with holder := none, timer := none }

/-- A channel enters RUNNING: the timer starts, and a data-ready input already high makes it due (R50, R52). -/
def enterRunning (n : Fin 4) (s : State) : State :=
  let s := s.onChannel n fun c =>
    { c with state := .running, resume := false
             timer := if c.config.mode = .interval then some c.config.interval else none }
  if (s.channel n).config.mode = .dataReady ∧ s.pins.drdy.getLsbD n.val then becomeDue n s else s

/-- A channel arm (R50, R51, R57). -/
def judgeChannel (n : Fin 4) (b : List Byte) (s : State) : Outcome × State :=
  match channelConfigAt b with
  | none => (.refusedField, s)
  | some cfg =>
    let s := s.onChannel n fun c =>
      { c.quiet with config := cfg, consecutive := 0, faultCleared := c.faultCleared || c.state == .fault,
                     state := .idle, resume := false }
    (.taken,
      if !cfg.enable then s
      else if s.sh.hold && !cfg.keep then s.onChannel n fun c => { c with resume := true }
      else enterRunning n s)

/-- An interval timer's expiry (R52). -/
def intervalExpired (n : Fin 4) (s : State) : State :=
  becomeDue n (s.onChannel n fun c => { c with timer := some c.config.interval })

/-! ### The bus (R54, R55) -/

/-- The waiting channel with the lowest number. -/
def Sh.waiting (h : Sh) : Option (Fin 4) := (List.finRange 4).find? fun n => (vget h.channels n).holder.isSome

/-- The time a transfer takes (R55). -/
def transferTime (c : ChannelConfig) : Nat := 2 + c.cmdCount + c.readLen

/-- An idle bus is given to the lowest waiting channel (R54). -/
def giveBus (s : State) : State :=
  match s.sh.bus, s.sh.waiting with
  | none, some n =>
    let c := s.channel n
    match c.holder with
    | none => s
    | some h =>
      let s := s.onSh fun x =>
        { x with bus := some { channel := n, capture := h, readLen := c.config.readLen,
                               faultLimit := c.config.faultLimit, left := transferTime c.config }
                 channels := vmod x.channels n fun c => { c with holder := none } }
      s.emit (.sensorCommand n (c.config.cmdBytes.take c.config.cmdCount))
  | _, _ => s

/-! ### Sensor rings (R63 to R65) -/

def sensorCapacities : List Nat := [16, 32, 64, 128, 256, 512, 1024, 2048, 4096]

def State.onSensorRing (n : Fin 8) (f : SensorRing → SensorRing) (s : State) : State :=
  s.onSh fun h => { h with rings := vmod h.rings n f }

/-- A sensor ring arm (R63). -/
def judgeSensorRing (n : Fin 8) (b : List Byte) (s : State) : Outcome × State :=
  let base := numAt b 4 4
  let capacity := numAt b 8 4
  let r := vget s.sh.rings n
  match flagAt b 0 with
  | none => (.refusedField, s)
  | some false => (.taken, s.onSensorRing n fun r => { r with enabled := false })
  | some true =>
    if !(sensorCapacities.contains capacity) ∨ base % 64 ≠ 0 ∨ 0x40000000 < base + 32 * capacity ∨
        meetsPlan s.planBase base (32 * capacity) then (.refusedField, s)
    else if r.enabled then (.refusedState, s)
    else if r.issued ≠ r.produce then (.refusedBusy, s)
    else (.taken, s.onSensorRing n fun r =>
      { r with enabled := true, base, capacity, issued := r.consume, produce := r.consume, done := [] })

/-- A record is offered to a ring (R64). -/
def offerRing (rcd : SensorRec) (s : State) (n : Fin 8) : State :=
  let r := vget s.sh.rings n
  if !r.enabled then s
  else if (r.issued - r.consume).toNat = r.capacity then
    raise .ringFull (s.onSensorRing n fun r => { r with drops := r.drops + 1 })
  else
    requestWrites (.sensorRing n r.issued s.generation)
      (lineWrites (r.base + 32 * (r.issued.toNat % r.capacity)) (rcd.bytes 0))
      (s.onSensorRing n fun r => { r with issued := r.issued + 1 })

/-- Produce advances over the completed writes that stand next (R64); `n` bounds the number looked at. -/
def SensorRing.advance : Nat → SensorRing → SensorRing
  | 0, r => r
  | n + 1, r =>
    if r.done.contains r.produce then
      SensorRing.advance n { r with produce := r.produce + 1, done := r.done.erase r.produce }
    else r

/-- A ring write completes (R64). -/
def ringWriteDone (n : Fin 8) (index : U16) (gen : Nat) (s : State) : State :=
  if gen ≠ s.generation then s
  else s.onSensorRing n fun r => SensorRing.advance (r.done.length + 1) { r with done := r.done ++ [index] }

/-- A write of a ring's consume live word (R65). -/
def sensorConsume (n : Fin 8) (v : U32) (s : State) : State :=
  let c : U16 := v.truncate 16
  let r := vget s.sh.rings n
  if c - r.consume ≤ r.produce - r.consume then s.onSensorRing n fun r => { r with consume := c }
  else badIndex (s.planBase + (LiveWord.sensorConsume n).offset) .host s

/-! ### Routing (R59 to R62) -/

/-- A routing rule's fields; none when a check of R59 fails. -/
def ruleAt (b : List Byte) : Option Rule := do
  let enable ← flagAt b 0
  let cond ← codeAt conditions b 2
  let ring ← slotAt 8 b 6
  let slot ← slotAt 4 b 7
  let uplink ← flagAt b 8
  let presence ← codeAt presenceActions b 9
  let final ← flagAt b 10
  let offset := byteAt b 3
  if 15 < offset then none
  else some { enable, channels := BitVec.ofNat 4 (byteAt b 1), cond, offset, mask := b.getD 4 0, value := b.getD 5 0,
              ring, slot, uplink, presence, final }

/-- A routing rule arm (R59). -/
def judgeRule (n : Fin 16) (b : List Byte) (s : State) : Outcome × State :=
  match ruleAt b with
  | none => (.refusedField, s)
  | some r => (.taken, s.onSh fun h => { h with rules := vset h.rules n r })

/-- Whether a rule's condition holds for a record (R61). -/
def Rule.holds (r : Rule) (rcd : SensorRec) : Bool :=
  let v := rcd.payload.getD r.offset 0 &&& r.mask
  let inside := decide (r.offset < rcd.length)
  match r.cond with
  | .none => true
  | .above => inside && decide (r.value < v)
  | .below => inside && decide (v < r.value)
  | .equal => inside && v == r.value

/-- Whether a rule matches a record (R60). -/
def Rule.applies (rcd : SensorRec) (r : Rule) : Bool :=
  r.enable && r.channels.getLsbD rcd.channel.val && r.holds rcd

/-- The rules that act on a record, in index order: those that match, up to the first one with final yes (R60). -/
def matching (rcd : SensorRec) : List Rule → List Rule
  | [] => []
  | r :: rest =>
    if r.applies rcd then (if r.final then [r] else r :: matching rcd rest)
    else matching rcd rest

/-- The presence value reported: that of the last matching rule that names one (R62). -/
def presenceOf (l : List Rule) : Option Bool :=
  l.foldl (fun p r => match r.presence with
    | .none => p
    | .on => some true
    | .off => some false) none

/-- A fresh slot action (R66). -/
def updateSlot (rcd : SensorRec) (s : State) (n : Fin 4) : State :=
  s.onSh fun h => { h with slots := vmod h.slots n fun x => ⟨some rcd, x.updates + 1⟩ }

/-- A record is routed (R60, R62, R70), but for the presence report, which is the first component. That the offers to
several rings are made in ascending ring number is a DESIGN CHOICE (log 48). -/
def routeRecord (rcd : SensorRec) (s : State) : Option Bool × State :=
  let m := matching rcd (vlist s.sh.rules)
  if m.isEmpty then (none, s.onChannel rcd.channel fun c => { c with unrouted := c.unrouted + 1 })
  else
    let s := if s.sh.hold then s
      else ((List.finRange 8).filter fun n => m.any (·.ring == some n)).foldl (offerRing rcd) s
    let s := ((List.finRange 4).filter fun n => m.any (·.slot == some n)).foldl (updateSlot rcd) s
    let s := if !s.sh.hold && m.any (·.uplink) then uplinkSensor rcd s else s
    (presenceOf m, s)

/-! ### Completion (R56 to R58) -/

/-- A no-response read (R56). -/
def noResponse (payload : List Byte) : Bool := payload.all (· == 0) || payload.all (· == 0xFF)

/-- A channel after a no-response read (R56): at the limit it goes FAULT. That this holds for a fault limit of 1 too,
with a channel arm taken first, is a DESIGN CHOICE (log 41). -/
def Channel.missed (limit : Nat) (c : Channel) : Channel :=
  let c := { c with noResponse := c.noResponse + 1, consecutive := sat8 c.consecutive }
  if limit ≤ c.consecutive.toNat ∧ c.state = .running then { c.quiet with state := .fault } else c

/-- The record a completed transfer forms (R58). -/
def formRecord (t : Transfer) (c : Channel) (payload : List Byte) : SensorRec :=
  { channel := t.channel, faultCleared := c.faultCleared, seq := c.seq, stamp := t.capture.stamp,
    frame := t.capture.frame, overrun := t.capture.overrun, length := t.readLen, payload := padTo 16 payload }

/-- A transfer's completion with the bytes that SB_DI gave (R56): the payload is judged, and a record formed and
routed. The first component is the presence report. -/
def transferDone (t : Transfer) (din : List Byte) (s : State) : Option Bool × State :=
  let payload := padTo t.readLen din
  let s := s.onSh fun h => { h with bus := none }
  let c := s.channel t.channel
  if noResponse payload then
    let c' := c.missed t.faultLimit
    let s := s.onChannel t.channel fun _ => c'
    (none, s.when (c'.state == .fault && c.state != .fault) (raise .sensorFault))
  else
    let rcd := formRecord t c payload
    routeRecord rcd (s.onChannel t.channel fun c =>
      { c with consecutive := 0, faultCleared := false, seq := c.seq + 1 })

/-! ### The standby hold (R70, R71) -/

def holdBegin (s : State) : State :=
  s.onSh fun h =>
    { h with hold := true
             channels := vmap (fun c =>
               if c.state = .running ∧ !c.config.keep then { c.quiet with state := .idle, resume := true } else c)
               h.channels }

def holdEnd (s : State) : State :=
  (List.finRange 4).foldl (fun s n =>
    let c := s.channel n
    if c.state = .idle ∧ c.resume then enterRunning n s else s) (s.onSh fun h => { h with hold := false })

end Sys2Proof.Machine
end

