-- ==== Sys2Proof/Machine/Scanout.lean ====
section
/-!
DEFINITION. The scan-out engine and strobe generator (chapter 2): timing sets, frame boundaries, phases, the standby
stop point with the standby steps that follow it (R140), band reads, strobes and photon reports; and the level sources
of the trigger matrix (R125), which the strobe kill reads.
-/
namespace Sys2Proof.Machine

/-! ### Level sources (R125, R126) -/

/-- The level of a level source; none for a pulse source. -/
def State.sourceLevel (s : State) (n : Fin 26) : Option Bool :=
  match n.val with
  | 0 => some false
  | 1 => some true
  | 7 => some (s.pins.sync.getLsbD 0)
  | 8 => some (s.pins.sync.getLsbD 1)
  | 13 => some s.pwc.presence
  | 16 => some (s.tc.link == .up)
  | 18 => some ((vget s.tm.beacons 0).state == .pulse)
  | 19 => some ((vget s.tm.beacons 1).state == .pulse)
  | 24 => some s.pwc.overrideOn
  | 25 => some (s.pwc.state == .dimmed)
  | _ => none

/-- What a consumer sees: the level after invert; a pulse source is never high, or always with invert (R126). That this
is also what the status page shows as the level seen of a consumer on a pulse source in an edge mode is a DESIGN CHOICE
(log 54). -/
def State.consumerLevel (s : State) (c : Consumer) : Bool := ((s.sourceLevel c.source).getD false) != c.invert

/-- The input consumers by number: FRAME_START, STROBE_KILL, CH0 to CH3, BEACON0, BEACON1. -/
def State.consumer (s : State) (n : Fin 8) : Consumer := vget s.tm.consumers n

/-- A consumer in LEVEL mode whose level is active. -/
def State.levelActive (s : State) (n : Fin 8) : Bool :=
  (s.consumer n).mode == .level && s.consumerLevel (s.consumer n)

/-! ### The strobe (R41 to R46) -/

/-- The effective throttle factor (R149). -/
def Pwc.factor (p : Pwc) : Nat := if p.overrideOn then p.settings.override else p.settings.software

/-- A strobe kill is in effect (R43, R44). -/
def State.killed (s : State) : Bool := s.so.edgeKill || s.levelActive 1

/-- Light is emitted now. -/
def State.lit (s : State) : Bool := s.so.light.isSome && !s.killed && !s.so.powerCut

/-- The report of the frame in progress gets CUT (R46). -/
def So.cut (o : So) : So :=
  match o.reports.getLast? with
  | some r => if r.cut then o else { o with reports := o.reports.dropLast ++ [{ r with cut := true }],
                                            change := o.change + 1 }
  | none => o

/-- Light stopped inside its window marks the report (R43 to R45). -/
def cutCheck (s : State) : State :=
  if s.so.light.isSome && (s.killed || s.so.powerCut) then s.onSo So.cut else s

/-- A STROBE_KILL event (R44). -/
def killEvent (s : State) : State := cutCheck (s.onSo fun o => { o with edgeKill := true })

/-- The power state changes; a light window sees it leave ACTIVE (R45). -/
def setPower (p : PowerState) (s : State) : State :=
  let leave := s.pwc.state == .active && p != .active && s.so.light.isSome
  let s := s.onPwc fun x => { x with state := p }
  if leave then s.onSo fun o => { o with powerCut := true }.cut else s

/-- Either line is selected to light. -/
def TimingSet.linesSelected (t : TimingSet) : Bool :=
  let on (x : StrobeSelect) : Bool := x == .pulse || x == .inverted
  on t.lineLeft || on t.lineRight

/-- The report of a strobe that lights (R46). -/
def photonReport (f : Frame) (s : State) : Photon :=
  { frame := s.so.frameNumber, tag := f.tag, pose := f.pose, stamp := s.tb.now, repeats := f.repeats,
    substituted := f.substituted, cut := false }

/-- A strobe lights: its window, its report, and the uplink's copy (R41, R46, R48). -/
def strobeLights (f : Frame) (s : State) : State :=
  let r := photonReport f s
  let s := s.onSo fun o =>
    { o with light := some (o.applied.strobeWidth * s.pwc.factor / 8), lastPhoton := some s.tb.now,
             reports := newest 8 (o.reports ++ [r]), change := o.change + 1 }
  if s.so.applied.photonUplink then uplinkJoin (.photon r) s else s

/-- The decision at strobe begin (R41). -/
def strobeDecision (s : State) : State :=
  match s.st.current with
  | none => s
  | some f =>
    if !s.so.applied.linesSelected || s.so.limitPassed then s
    else if s.pwc.state != .active || s.killed then
      raise .strobeKilled (s.onSo fun o => { o with suppressed := o.suppressed + 1 })
    else strobeLights f s

/-- STROBE begins (R30, R41). -/
def strobeBegins (s : State) : State :=
  let s := s.onSo fun o =>
    { o with phase := .strobe, phaseTimer := some o.applied.strobeWidth, lastThrottle := s.pwc.factor }
  strobeDecision (pulse 4 s)

/-! ### Timing sets (R24 to R28) -/

/-- A timing set record's fields; none when a check of R24 fails. -/
def timingAt (b : List Byte) : Option TimingSet := do
  let scanEnable ← flagAt b 0
  let sync ← codeAt syncModes b 1
  let policy ← codeAt policies b 2
  let photonUplink ← flagAt b 4
  let lineLeft ← codeAt strobeSelects b 5
  let lineRight ← codeAt strobeSelects b 6
  let reloadSkip := byteAt b 3
  let level := byteAt b 7
  let period := numAt b 8 4
  let scan := numAt b 12 4
  let settle := numAt b 16 4
  let strobeWidth := numAt b 20 4
  let lossLimit := numAt b 24 4
  let panelWidth := numAt b 28 2
  let panelHeight := numAt b 30 2
  if reloadSkip ≤ 7 ∧ 1 ≤ level ∧ level ≤ 63 ∧ 5000 ≤ period ∧ period ≤ 20000 ∧ 1000 ≤ scan ∧ settle ≤ 2000 ∧
      50 ≤ strobeWidth ∧ strobeWidth ≤ 4000 ∧ 16 ≤ panelWidth ∧ panelWidth ≤ 2560 ∧ 16 ≤ panelHeight ∧
      panelHeight ≤ 2560 ∧ scan + settle + strobeWidth + 100 ≤ period ∧
      (sync = .free ∨ (period ≤ lossLimit ∧ lossLimit ≤ 1000000)) then
    some { scanEnable, sync, policy, reloadSkip, photonUplink, lineLeft, lineRight, level, period, scan, settle,
           strobeWidth, lossLimit, panelWidth, panelHeight,
           fallback := ⟨b.getD 32 0, b.getD 33 0, b.getD 34 0⟩ }
  else none

/-- The engine goes STOPPED: no phase, no timer, no schedule, and no rows of a band still being read (R29, R36). -/
def So.stop (o : So) : So :=
  { o with jobs := o.jobs.map fun j => { j with late := true }
           state := .stopped, phase := .scan, phaseTimer := none, darkTimer := none, periodTimer := none,
           syncTimer := none, light := none, sinceBoundary := 0, byTrigger := false, coasting := false,
           measured := none, stopRequested := false, schedules := [] }

/-- The engine goes WAITING (R29, R35). -/
def So.wait (o : So) : So := { o.stop with state := .waiting }

/-- A set becomes the applied set; one with sync mode FREE ends coasting and the measurement (R26, R35, R36). -/
def applySet (t : TimingSet) (s : State) : State :=
  raise .timingTaken (s.onSo fun o =>
    if t.sync = .free then { o with applied := t, coasting := false, measured := none, byTrigger := false }
    else { o with applied := t })

/-- A pending set is taken (R26, R28). -/
def takePending (t : TimingSet) (s : State) : State :=
  (applySet t (s.onSo fun o => { o with pendingSet := none })).onPu (Pu.finish .timing .taken)

/-- What a frame boundary does with a pending set (R26). -/
def reload (s : State) : State :=
  match s.so.pendingSet with
  | none => s
  | some (t, 0) => takePending t s
  | some (t, n + 1) => s.onSo fun o => { o with pendingSet := some (t, n) }

/-! ### Standby steps 2 to 4 (R140) -/

/-- The engine has answered: the flush, the audio halt and standby hold, the tether restriction, and the port's hold;
the power controller then waits for the DRAM. -/
def standbySteps (s : State) : State :=
  let s := restrictionBegin (holdBegin (audioHalt (presentationFlush s)))
  (s.onHmp fun h => { h with hold := .standby }).onPwc fun p => { p with step := .enterDrain }

/-- The engine goes STOPPED; if the power controller waits for that in ENTERING_STANDBY, it is answered (R37, R140). -/
def stopAndAnswer (s : State) : State :=
  let asked := s.so.stopRequested && s.pwc.step == .enterScan
  let s := s.onSo So.stop
  if asked then standbySteps s else s

/-- The standby stop point (R28, R37). -/
def stopPoint (s : State) : State :=
  stopAndAnswer (match s.so.pendingSet with
    | some (t, _) => takePending t s
    | none => s)

/-- The power controller asks the engine to stop (R37). -/
def requestStop (s : State) : State :=
  match s.so.state with
  | .running => s.onSo fun o => { o with stopRequested := true }
  | _ => stopAndAnswer (s.onSo fun o => { o with stopRequested := true })

/-! ### Frame boundaries (R31 to R36) -/

/-- The display frame number advances up to FFFFFFFFh (R32). -/
def So.nextFrame (o : So) : So :=
  if o.frameNumber = 0xFFFFFFFF then { o with limitPassed := true } else { o with frameNumber := o.frameNumber + 1 }

/-- An accepted trigger ends coasting and measures the interval since a boundary that a trigger made (R35, R36). -/
def So.trigger (o : So) : So :=
  { o with measured := if o.byTrigger then some o.sinceBoundary else o.measured, coasting := false }

/-- SCAN begins: the phase and frame timers (R30, R33, R36). -/
def So.beginScan (byTrigger : Bool) (o : So) : So :=
  let own := o.applied.sync == .free || o.coasting
  { o with state := .running, phase := .scan, phaseTimer := some o.applied.scan, darkTimer := none,
           periodTimer := if own then some o.applied.period else none,
           syncTimer := if own then none else some o.applied.lossLimit,
           light := none, sinceBoundary := 0, byTrigger := byTrigger && o.applied.sync == .triggered,
           edgeKill := false, powerCut := false }

/-- The band schedules of the current frame (R38). -/
def State.bandSchedules (s : State) (f : Frame) : List Schedule :=
  let make (panel : Side) (both : Bool) (n : Option (Fin 6)) : List Schedule :=
    match n.bind fun n => (s.st.surface n).config.map fun c => (n, c) with
    | some (n, c) => [{ panel, both, surface := n, next := 0, count := c.bandCount }]
    | none => []
  let l := s.st.frameSurface .left f
  let r := s.st.frameSurface .right f
  if l.isSome ∧ l = r then make .left true l else make .left false l ++ make .right false r

/-- Steps 7 and 8 of R31: the frame starts, and the schedules or the fallback colour (R38). -/
def beginBands (s : State) : State :=
  let s := (s.emit (.panelStart .left s.so.applied.level)).emit (.panelStart .right s.so.applied.level)
  match s.st.current with
  | some f => s.onSo fun o => { o with schedules := s.bandSchedules f }
  | none =>
    let s := s.onSo fun o => { o with schedules := [] }
    (s.emit (.panelFallback .left none s.so.applied.fallback)).emit (.panelFallback .right none s.so.applied.fallback)

/-- A frame boundary (R31). -/
def frameBoundary (byTrigger : Bool) (s : State) : State :=
  let s := reload (s.onSo fun o => { o.nextFrame with lastBoundary := s.tb.now })
  if !s.so.applied.scanEnable then stopAndAnswer (pulse 2 s)
  else beginBands (boundaryDecision s.tb.now (pulse 2 (s.onSo (So.beginScan byTrigger))))

/-- The moment a boundary occurs; during ENTERING_STANDBY it is the stop point (R37). -/
def boundaryMoment (byTrigger : Bool) (s : State) : State :=
  if s.so.stopRequested then stopPoint s else frameBoundary byTrigger s

/-- RUNNING, in DARK after the minimum dark: where a boundary may fall (R30). -/
def So.afterDark (o : So) : Bool := o.state == .running && o.phase == .dark && o.darkTimer.isNone

/-- SO accepts a trigger (R34). -/
def acceptTrigger (s : State) : State := boundaryMoment true (s.onSo So.trigger)

/-- A FRAME_START event (R33, R34). -/
def frameStartEvent (s : State) : State :=
  if s.so.applied.sync = .free then s
  else match s.so.state with
    | .stopped => s
    | .waiting => acceptTrigger s
    | .running => if s.so.afterDark then acceptTrigger s else s.onSo fun o => { o with early := o.early + 1 }

/-- A FRAME_START level, when active, makes a boundary here (R34). -/
def So.levelReady (o : So) : Bool := o.applied.sync == .triggered && (o.state == .waiting || o.afterDark)

/-- The sync loss wait expires: coasting begins with an internal boundary (R36). That at the standby stop point, where
no coasting begins, SYNC_LOST is not raised is a DESIGN CHOICE (log 47). R35 and R36 do not order the beginning of coasting and
the reload of that boundary: that SYNC_LOST is raised also where the boundary takes a pending set with sync mode FREE or
scan enable no is a DESIGN CHOICE (log 61). -/
def syncLost (s : State) : State :=
  if s.so.stopRequested then stopPoint s
  else frameBoundary false (raise .syncLost (s.onSo fun o => { o with coasting := true }))

/-- The scan-out starts if the applied set has scan enable yes (R29). -/
def startScan (s : State) : State :=
  if !s.so.applied.scanEnable then s
  else match s.so.applied.sync with
    | .free => frameBoundary false s
    | .triggered => s.onSo So.wait

/-- The scan-out may start (R29). -/
def State.mayStart (s : State) : Bool := s.pwc.state == .active || s.pwc.state == .dimmed

/-- The surface tracker holds any frame (R24). -/
def St.holdsFrame (t : St) : Bool := !t.queue.isEmpty || t.current.isSome || t.previous.isSome

/-- A refused arm discards a pending set (R27). -/
def refuseTiming (o : Outcome) (s : State) : Outcome × State :=
  (o, if s.so.pendingSet.isSome then
        (s.onSo fun x => { x with pendingSet := none }).onPu (Pu.overtake .timing)
      else s)

/-- A valid set is taken while no frame is in progress (R25). -/
def takeSet (t : TimingSet) (s : State) : State :=
  let waiting := s.so.state == .waiting
  let s := applySet t s
  if waiting then
    if !t.scanEnable then s.onSo So.stop
    else if t.sync = .free then frameBoundary false s
    else s
  else if s.mayStart then startScan s
  else s

/-- A timing set arm (R24, R25, R27). -/
def judgeTiming (b : List Byte) (s : State) : Outcome × State :=
  match timingAt b with
  | none => refuseTiming .refusedField s
  | some t =>
    let resized := t.panelWidth ≠ s.so.applied.panelWidth ∨ t.panelHeight ≠ s.so.applied.panelHeight
    if resized ∧ (s.so.state = .running ∨ s.st.holdsFrame) then refuseTiming .refusedState s
    else if s.so.state = .running then
      let s := if s.so.pendingSet.isSome then s.onPu (Pu.overtake .timing) else s
      (.pending, s.onSo fun o => { o with pendingSet := some (t, t.reloadSkip) })
    else (.taken, takeSet t s)

/-! ### What a band sends (R39, R40, log 16) -/

/-- Widens a component by repeating its high bits (R39). -/
def widen5 (v : Nat) : Byte := BitVec.ofNat 8 (v * 8 + v / 4)
def widen6 (v : Nat) : Byte := BitVec.ofNat 8 (v * 4 + v / 16)

/-- A pixel as sent to a panel (R39, R187). -/
def pixelOf (f : PixelFormat) (b : List Byte) : Rgb :=
  match f with
  | .rgba8 => ⟨b.getD 0 0, b.getD 1 0, b.getD 2 0⟩
  | .rgb565 =>
    let v := ofBytes b
    ⟨widen5 (v / 2048 % 32), widen6 (v / 32 % 64), widen5 (v % 32)⟩

/-- The rows of a band: a pixel of a line that did not come in its window is sent in the fallback colour (R39). -/
def BandJob.rows (j : BandJob) (fallback : Rgb) : List (List Rgb) :=
  let bpp := j.config.format.size
  (List.range j.rowCount).map fun r => (List.range j.width).map fun x =>
    let a := j.config.base + j.config.pitch * (j.firstRow + r) + x * bpp
    match j.lines.lookup (a / 64) with
    | some l => pixelOf j.config.format (bytesAt l (a % 64) bpp)
    | none => fallback

/-- What a band sends to its panel: its rows, or the fallback colour when a read of it failed (R39, R40). -/
def BandJob.output (fallback : Rgb) (j : BandJob) : Output :=
  if j.failed then .panelFallback j.panel (some j.band) fallback else .panelBand j.panel j.band (j.rows fallback)

/-- The windows of the bands that `which` names end: each band still in its window sends what has come of it, and
what comes later of it is discarded (R39, log 16). -/
def endWindows (which : BandJob → Bool) (s : State) : State :=
  let ended := s.so.jobs.filter fun j => which j && !j.late
  let s := s.onSo fun o => { o with jobs := o.jobs.map fun j => if which j then { j with late := true } else j }
  { s with out := s.out ++ ended.map (BandJob.output s.so.applied.fallback) }

/-! ### Phases (R30) -/

/-- SCAN ends, with the windows of the last bands (R38), and SETTLE begins. -/
def scanEnds (s : State) : State :=
  pulse 3 ((endWindows (fun _ => true) s).onSo fun o => { o with phase := .settle, phaseTimer := some o.applied.settle })

/-- STROBE ends and DARK begins with its minimum dark of 100 µs. -/
def strobeEnds (s : State) : State :=
  pulse 5 (s.onSo fun o => { o with phase := .dark, phaseTimer := none, darkTimer := some 100, light := none })

/-! ### Bands (R38 to R40) -/

/-- When band `k` of `n` starts, counted from the boundary. -/
def bandTime (scan k n : Nat) : Nat := k * scan / n

/-- The lines a band read covers, in row order and address order (R39). -/
def bandLines (c : SurfaceConfig) (width : Nat) : Nat → Nat → List Nat
  | _, 0 => []
  | row, n + 1 => linesOf (c.base + c.pitch * row) (width * c.format.size) ++ bandLines c width (row + 1) n

/-- SO reads a band for a panel, or sends it in the fallback colour (R39, R40). -/
def readBand (panel : Side) (k : Nat) (a : BandAnswer) (s : State) : State :=
  match a with
  | .fallback => s.emit (.panelFallback panel (some k) s.so.applied.fallback)
  | .read c =>
    let width := s.so.applied.panelWidth
    let first := k * c.bandRows
    let count := c.rowsOf k
    let lines := bandLines c width first count
    let (id, s) := s.fresh
    let s := s.onSo fun o =>
      { o with jobs := o.jobs ++ [{ id, panel, band := k, config := c, firstRow := first, rowCount := count, width,
                                    left := lines.length, failed := false, late := false, lines := [] }] }
    requestReads (.band id) lines s

/-- One panel's part of a band start: the enquiry and the read (R8, R38). -/
def startBandFor (panel : Side) (n : Fin 6) (k : Nat) (s : State) : State :=
  let (a, s) := askBand panel n k s
  readBand panel k a s

/-- A schedule's next band is due. -/
def So.bandDue (o : So) (c : Schedule) : Bool :=
  o.state == .running && decide (c.next < c.count) &&
  decide (bandTime o.applied.scan c.next c.count ≤ o.sinceBoundary)

/-- A schedule serves a panel (R38). -/
def Schedule.serves (c : Schedule) (panel : Side) : Bool := panel == c.panel || (c.both && panel == .right)

/-- A band start (R38): the windows of the bands before it end, the schedule moves on, and each panel it serves asks
and reads. That a band of a BOTH surface is a read for each of the two panels, each counted for itself, is a DESIGN
CHOICE (log 46), and so is that all line reads of the left panel are made before those of the right (log 53). -/
def bandStarts (c : Schedule) (s : State) : State :=
  let s := (endWindows (fun j => c.serves j.panel) s).onSo fun o =>
    { o with schedules := updateFirst (·.panel == c.panel) (fun x => { x with next := x.next + 1 }) o.schedules }
  let s := startBandFor c.panel c.surface c.next s
  if c.both then startBandFor .right c.surface c.next s else s

/-- The last read of a band has completed: it is counted once, as failed or else as an underrun, and its rows go out
unless they went out at the end of its window (R39, R40, log 16). A band of a BOTH surface is counted once for each
panel (log 46). -/
def bandFinished (j : BandJob) (s : State) : State :=
  let s := s.onSo fun o => { o with jobs := o.jobs.filter (·.id != j.id) }
  let s := s.onSo fun o =>
    if j.failed then { o with failedBands := o.failedBands + 1 }
    else if j.late then { o with underruns := o.underruns + 1 }
    else o
  if j.late then s else s.emit (j.output s.so.applied.fallback)

/-- One read of a band completes: its line is kept inside the window and discarded after it (R39). -/
def BandJob.take (line : Nat) (data : List Byte) (bad : Bool) (j : BandJob) : BandJob :=
  { j with left := j.left - 1, failed := j.failed || bad
           lines := if j.late then j.lines else j.lines ++ [(line, data)] }

def bandReadDone (job line : Nat) (data : List Byte) (bad : Bool) (s : State) : State :=
  match s.so.jobs.find? (·.id == job) with
  | none => s
  | some j =>
    let j := j.take line data bad
    let s := s.onSo fun o => { o with jobs := updateFirst (·.id == job) (fun _ => j) o.jobs }
    if j.left = 0 then bandFinished j s else s

/-! ### What is shown (R42, R47) -/

/-- The next expected photon time (R47), labelled with the epoch of the last boundary (log 15). -/
def So.nextPhoton (o : So) : Option Stamp :=
  if o.state ≠ .running then none
  else
    let lead := o.applied.scan + o.applied.settle
    let period :=
      match o.applied.sync, o.coasting, o.measured with
      | .triggered, false, some p => p
      | _, _, _ => o.applied.period
    let ahead := if o.phase = .scan ∨ o.phase = .settle then lead else period + lead
    some { o.lastBoundary with time := o.lastBoundary.time + BitVec.ofNat 40 ahead }

/-- A strobe line's drive: low 0, high 1, not driven 2 (R42, R188). -/
def strobeDrive (x : StrobeSelect) (lit : Bool) : Byte :=
  match x with
  | .off => 0
  | .pulse => if lit then 1 else 0
  | .inverted => if lit then 0 else 1
  | .released => 2

end Sys2Proof.Machine
end

