-- ==== Sys2Proof/Machine/Trigger.lean ====
section
/-!
DEFINITION. The trigger matrix (sections 6.4 to 6.7): its records, the delivery of pulses and levels to the consumers,
the beacon generators and the sync outputs.
-/
namespace Sys2Proof.Machine

/-! ### Beacon generators (R129 to R131) -/

def State.onBeacon (n : Fin 2) (f : Beacon → Beacon) (s : State) : State :=
  s.onTm fun t => { t with beacons := vmod t.beacons n f }

/-- A generator enters PULSE, which is counted (R130). -/
def Beacon.enterPulse (b : Beacon) : Beacon :=
  { b with state := .pulse, timer := some b.width, pulses := b.pulses + 1 }

/-- A starting event: DELAY, or PULSE at once when delay is 0 (R130). -/
def Beacon.start (b : Beacon) : Beacon :=
  if b.delay = 0 then b.enterPulse else { b with state := .delay, timer := some b.delay }

/-- An event of a generator's consumer (R130). -/
def Beacon.event (b : Beacon) : Beacon :=
  match b.state with
  | .idle => b.start
  | _ => if b.restart then b.start else { b with ignored := b.ignored + 1 }

/-- A generator goes IDLE, ending its pulse. -/
def Beacon.goIdle (b : Beacon) : Beacon := { b with state := .idle, timer := none }

/-- An event of consumer BEACON n; held off in STANDBY (R131). -/
def beaconEvent (n : Fin 2) (s : State) : State :=
  if s.tm.beaconsOff then s else s.onBeacon n Beacon.event

/-- STANDBY is entered: the generators go IDLE and events are held off (R131). -/
def beaconsStop (s : State) : State :=
  s.onTm fun t => { t with beacons := vmap Beacon.goIdle t.beacons, beaconsOff := true }

def beaconsResume (s : State) : State := s.onTm fun t => { t with beaconsOff := false }

/-- A beacon record arm (R129). -/
def judgeBeacon (n : Fin 2) (b : List Byte) (s : State) : Outcome × State :=
  let width := numAt b 2 2
  match flagAt b 4, codeAt beaconSelects b 5 with
  | some restart, some select =>
    if width = 0 then (.refusedField, s)
    else (.taken, s.onBeacon n fun x =>
      { x.goIdle with delay := numAt b 0 2, width, restart, select })
  | _, _ => (.refusedField, s)

/-! ### The trigger record (R127, R128) -/

/-- An input consumer's settings. -/
def consumerAt (b : List Byte) (n : Fin 8) : Option Consumer := do
  let source ← finAt 26 b (4 * n.val)
  let invert ← flagAt b (4 * n.val + 1)
  let mode ← codeAt edgeModes b (4 * n.val + 2)
  some { source, invert, mode, seen := false }

/-- An output consumer's settings. -/
def syncOutAt (b : List Byte) (n : Fin 2) : Option SyncOut := do
  let source ← finAt 26 b (32 + 4 * n.val)
  let select ← codeAt syncSelects b (32 + 4 * n.val + 1)
  some { source, select, follow := none }

/-- A consumer's new selection: a changed source or invert takes the new source's present level as seen (R127). -/
def State.reselect (s : State) (old new : Consumer) : Consumer :=
  if old.source = new.source ∧ old.invert = new.invert then { new with seen := old.seen }
  else { new with seen := s.consumerLevel new }

/-- An output's new selection: a follow high on an old source ends (R128). -/
def SyncOut.reselect (old new : SyncOut) : SyncOut :=
  if old.source = new.source then { new with follow := old.follow } else new

/-- A trigger record arm (R127). -/
def judgeTrigger (b : List Byte) (s : State) : Outcome × State :=
  if (List.finRange 8).all (fun n => (consumerAt b n).isSome) &&
      (List.finRange 2).all (fun n => (syncOutAt b n).isSome) then
    let consumers := (List.finRange 8).foldl (fun v n =>
      match consumerAt b n with
      | some c => vmod v n fun old => s.reselect old c
      | none => v) s.tm.consumers
    let outs := (List.finRange 2).foldl (fun v n =>
      match syncOutAt b n with
      | some o => vmod v n fun old => old.reselect o
      | none => v) s.tm.outs
    (.taken, s.onTm fun t => { t with consumers, outs })
  else (.refusedField, s)

/-! ### Delivery (R126, log 9) -/

/-- Consumer CHn delivers an event (R52). -/
def channelEvent (n : Fin 4) (s : State) : State :=
  if (s.channel n).config.mode = .matrix then becomeDue n s else s

/-- An input consumer delivers an event to its block. -/
def deliver (n : Fin 8) (s : State) : State :=
  match n.val with
  | 0 => frameStartEvent s
  | 1 => killEvent s
  | 2 => channelEvent 0 s
  | 3 => channelEvent 1 s
  | 4 => channelEvent 2 s
  | 5 => channelEvent 3 s
  | 6 => beaconEvent 0 s
  | _ => beaconEvent 1 s

/-- One pulse of a source: an event at each consumer that selects it in an edge mode, and the follow highs (R128). -/
def deliverPulse (source : Fin 26) (s : State) : State :=
  let s := s.onTm fun t =>
    { t with outs := vmap (fun o => if o.source = source then { o with follow := some 2 } else o) t.outs }
  (List.finRange 8).foldl (fun s n =>
    let c := s.consumer n
    if c.source = source ∧ c.mode ≠ .level then deliver n s else s) s

/-- A generator's consumer that selects the generator's own source. -/
def State.ownBeacon (s : State) (n : Fin 8) : Bool :=
  (n == 6 && (s.consumer 6).source == 18) || (n == 7 && (s.consumer 7).source == 19)

/-- A consumer whose level has changed since it last looked. A generator that selects its own source looks first, so
that a pulse it restarts as it ends leaves the source high (R130). That a pulse which so ends as it begins gives the
source's other consumers no event is a DESIGN CHOICE (log 56). R130 says that the source stays high of mode FALLING with
delay 0; that in mode BOTH the generator itself also sees the rise of the pulse it starts as the last one ends, so that
each such moment counts two pulses (RESTART) or one pulse and one ignored event (IGNORE), is a DESIGN CHOICE (log 60). -/
def State.changed (s : State) : Option (Fin 8) :=
  ((List.finRange 8).filter s.ownBeacon ++ List.finRange 8).find? fun n =>
    s.consumerLevel (s.consumer n) != (s.consumer n).seen

/-- A change of level makes an event in these modes. -/
def EdgeMode.fires (m : EdgeMode) (high : Bool) : Bool :=
  match m with
  | .rising => high
  | .falling => !high
  | .both => true
  | .level => false

/-- A consumer sees a level change (R126). -/
def seeChange (n : Fin 8) (s : State) : State :=
  let now := s.consumerLevel (s.consumer n)
  let mode := (s.consumer n).mode
  let s := s.onTm fun t => { t with consumers := vmod t.consumers n fun c => { c with seen := now } }
  if mode.fires now then deliver n s else s

/-- A MATRIX channel that an active level makes due (R52). -/
def State.levelChannel (s : State) (n : Fin 4) : Bool :=
  let c := s.channel n
  s.levelActive ⟨2 + n.val, by omega⟩ && c.state == .running && c.config.mode == .matrix && c.holder.isNone &&
  !(s.sh.bus.any fun t => t.channel == n)

/-- A generator that an active level starts (R130). -/
def State.levelBeacon (s : State) (n : Fin 2) : Bool :=
  s.levelActive ⟨6 + n.val, by omega⟩ && (vget s.tm.beacons n).state == .idle && !s.tm.beaconsOff

/-- The next thing to be delivered: a pulse, a changed level, a block that an active level sets off, the sensor bus. That
a generator in LEVEL mode with delay 0, whose level is active when its pulse ends, starts again only after the
source's other consumers have seen the fall, and so gives them a fall and a rise, is a DESIGN CHOICE (log 58). -/
def drainOnce (s : State) : Option State :=
  match s.tm.pulses with
  | p :: rest => some (deliverPulse p (s.onTm fun t => { t with pulses := rest }))
  | [] =>
    match s.changed with
    | some n => some (seeChange n s)
    | none =>
      if s.levelActive 0 && s.so.levelReady then some (acceptTrigger s)
      else match (List.finRange 4).find? s.levelChannel with
        | some n => some (becomeDue n s)
        | none =>
          match (List.finRange 2).find? s.levelBeacon with
          | some n => some (s.onBeacon n Beacon.start)
          | none => if s.sh.bus.isNone && s.sh.waiting.isSome then some (giveBus s) else none

/-- Delivers until nothing is left, at most `n` times. -/
def drainUpTo : Nat → State → State
  | 0, s => s
  | n + 1, s =>
    match drainOnce s with
    | some s' => drainUpTo n s'
    | none => s

/-- Everything the sources bring about in this step (log 9); a level kill inside a light window marks its report. The
kill's level is looked at once all is delivered: that a STROBE_KILL level active for no length inside a light window (an
inverted BEACON_n between back-to-back pulses, log 58) neither stops the light nor sets CUT is a DESIGN CHOICE (log 59). -/
def drain (s : State) : State := if s.coreLive then cutCheck (drainUpTo 64 s) else s

/-! ### Output pins (R128, R131); not driven while the core domain is off -/

/-- A pin's drive: low 0, high 1, not driven 2 (R188). -/
def levelDrive (b : Bool) : Byte := if b then 1 else 0

/-- The follow level of a source (R128). -/
def State.followLevel (s : State) (o : SyncOut) : Bool := (s.sourceLevel o.source).getD o.follow.isSome

/-- The drive of a sync output. -/
def State.syncDrive (s : State) (o : SyncOut) : Byte :=
  if !s.coreOn then 2 else match o.select with
  | .low => 0
  | .high => 1
  | .follow => levelDrive (s.followLevel o)
  | .followInverted => levelDrive (!s.followLevel o)
  | .released => 2

/-- The drive of a generator's pin. -/
def State.beaconDrive (s : State) (b : Beacon) : Byte :=
  if !s.coreOn then 2 else match b.select with
  | .low => 0
  | .high => 1
  | .pulse => levelDrive (b.state == .pulse)
  | .pulseInverted => levelDrive (b.state != .pulse)
  | .released => 2

end Sys2Proof.Machine
end

