-- ==== Sys2Proof/Machine/Power.lean ====
section
/-!
DEFINITION. The power controller (chapter 7): the power record, dimming, presence, wake causes, standby entry, stopping
and the entry to OFF, the button and thermal inputs, and the core's resets.
-/
namespace Sys2Proof.Machine

/-! ### Rails -/

def PerRail.get (p : PerRail) : Rail → Bool
  | .sensor => p.sensor
  | .audio => p.audio
  | .panel => p.panel
  | .host => p.host

def PerRail.set (p : PerRail) (r : Rail) (v : Bool) : PerRail :=
  match r with
  | .sensor => { p with sensor := v }
  | .audio => { p with audio := v }
  | .panel => { p with panel := v }
  | .host => { p with host := v }

/-- A rail's enable is asserted. -/
def Pwc.enable (r : Rail) (p : Pwc) : Pwc := { p with enables := p.enables.set r true }

/-- A rail's enable is deasserted, and the rail stops being watched (R136). -/
def Pwc.disable (r : Rail) (p : Pwc) : Pwc :=
  { p with enables := p.enables.set r false, watched := p.watched.set r false }

/-! ### The thermal inputs (R147 to R149) -/

/-- THERM_ALERT is asserted under a polarity. -/
def State.alertAsserted (s : State) : Bool := s.pins.thermAlert == s.pwc.settings.activeHigh

def Pwc.awake (p : Pwc) : Bool := p.state == .active || p.state == .dimmed

/-- An assertion edge (R147, R148). -/
def alertAsserts (s : State) : State :=
  raise .thermal (s.onPwc fun p => if p.awake && !p.overrideOn then { p with thermalTimer := some 2000000 } else p)

/-- The override ends (R148). -/
def overrideEnds (s : State) : State :=
  if s.pwc.overrideOn then raise .thermalOverride (s.onPwc fun p => { p with overrideOn := false }) else s

/-- A deassertion (R148). -/
def alertDeasserts (s : State) : State := overrideEnds (s.onPwc fun p => { p with thermalTimer := none })

/-- The thermal timer expires and the override begins (R148). -/
def thermalExpired (s : State) : State :=
  raise .thermalOverride (s.onPwc fun p => { p with thermalTimer := none, overrideOn := true })

/-- What an entry to ACTIVE or DIMMED starts: the override count of the button and the thermal timer (R146, R148). -/
def Pwc.onAwake (alert : Bool) (p : Pwc) : Pwc :=
  { p with
    overrideTimer := if p.pressed && p.overrideTimer.isNone then some 4000000 else p.overrideTimer
    thermalTimer := if alert && !p.overrideOn && p.thermalTimer.isNone then some 2000000 else p.thermalTimer }

/-- ACTIVE is entered (R138, R145). -/
def enterActive (s : State) : State :=
  let s := (setPower .active s).onPwc fun p => { p with dimCause := .none, step := .none }
  raise .powerChange (s.onPwc (Pwc.onAwake s.alertAsserted))

/-- DIMMED is entered (R138). -/
def enterDimmed (cause : DimCause) (s : State) : State :=
  let s := (setPower .dimmed s).onPwc fun p => { p with dimCause := cause }
  raise .powerChange (s.onPwc (Pwc.onAwake s.alertAsserted))

/-! ### Wake causes (R142, R145) -/

/-- WAKING begins: the snapshot's refresh starts and the DRAM leaves self-refresh (R145). -/
def beginWaking (c : WakeCause) (s : State) : State :=
  let s := s.onPwc fun p => { p with state := .waking, step := .wakeExit, lastWake := c, keptWake := none }
  (s.onTb fun t => { t with refresh := true }).onDa fun d => { d with mode := .exiting }

/-- A wake cause arrives (R142). -/
def wakeCause (c : WakeCause) (s : State) : State :=
  match s.pwc.state with
  | .standby => beginWaking c s
  | .enteringStandby => s.onPwc fun p => { p with keptWake := p.keptWake.or (some c) }
  | _ => s

/-! ### Presence (R139) -/

/-- A presence report from the sensor hub (R69, R139). -/
def presenceReport (v : Bool) (s : State) : State :=
  if s.pwc.presence = v then s
  else
    let s := raise .presenceChange (s.onPwc fun p => { p with presence := v })
    match s.pwc.state with
    | .active => if s.pwc.settings.autoDim && !v then enterDimmed .presence s else s
    | .dimmed => if s.pwc.dimCause = .presence ∧ v then enterActive s else s
    | .enteringStandby => if v && s.pwc.settings.wakePresence then wakeCause .presence s else s
    | .standby => if v && s.pwc.settings.wakePresence then wakeCause .presence s else s
    | _ => s

/-! ### The core's resets (R135, R143) -/

/-- The event unit after core and soft reset: the always-on flags are kept (R180). -/
def Eu.coreReset (e : Eu) : Eu := { Eu.reset with pendingSet := e.pendingSet &&& alwaysOnKinds }

/-- Everything the core domain holds is lost; its fields stand at their core-reset values (log 5). -/
def clearCore (s : State) : State :=
  { s with
    mem := [], hmp := Hmp.reset, rm := Rm.reset, da := Da.reset, pu := { Pu.reset with sel := s.pu.sel },
    st := St.reset, so := So.reset, sh := Sh.reset, tc := Tc.reset, au := Au.reset, tm := Tm.reset,
    eu := s.eu.coreReset,
    tb := { s.tb with snapshot := Stamp.zero, fresh := false, refresh := true } }

/-- Core reset: every core block takes its core-reset state, the straps are sampled, the shadow takes the default
image, the port holds, and the link starts training if the cable is there (R74, R101, R122, R135, R153, R169, R170). -/
def coreReset (sel : Fin 4) (s : State) : State :=
  let s := clearCore s
  let s := { s with generation := s.generation + 1 }
  let s := s.onPu fun p => { p with sel, shadow := defaultImage s.pwc.settings 0 }
  let s := (s.onHmp fun h => { h with hold := .starting }).onTc fun t => { t with since := s.tb.now }
  if s.pins.cable then startTraining s else s

/-! ### Stopping and OFF (R143, R144) -/

/-- OFF is entered: the core rail goes off, and the override and the timers end (R143, R144, R146, R148). -/
def enterOff (s : State) : State :=
  let s := overrideEnds s
  let s := clearCore s
  let s := s.onPwc fun p =>
    { p with state := .off, step := .none, enables := PerRail.none, watched := PerRail.none, railTimer := none,
             hostReset := true, dimCause := .none, keptWake := none, overrideTimer := none, thermalTimer := none }
  raise .powerChange s

/-- An immediate stop (R144). -/
def immediateStop (c : StopCause) (s : State) : State :=
  if s.pwc.state = .off then s else enterOff (s.onPwc fun p => { p with lastStop := c })

/-- The rails still to be switched off (R143): one whose enable is not asserted is passed over. -/
def stopRails : List Rail → State → State
  | [], s => enterOff s
  | r :: rest, s =>
    if s.pwc.enables.get r then
      s.onPwc fun p => { p.disable r with step := .stopRail r rest, railTimer := some 10000 }
    else stopRails rest s

/-- STOPPING is entered (R143). -/
def beginStopping (c : StopCause) (s : State) : State :=
  let s := setPower .stopping s
  let s := s.onPwc fun p =>
    { p with lastStop := c, dimCause := .none, thermalTimer := none, hostReset := true, railTimer := none,
             keptWake := none, step := .none }
  let s := s.onHmp fun h => { h with held := none, atPins := [] }
  stopRails [.host, .panel, .audio, .sensor] s

/-- A rail fault (R136). -/
def railFault (r : Rail) (s : State) : State :=
  if s.pwc.state = .stopping ∨ s.pwc.state = .off then s
  else beginStopping .powerFault (s.onPwc fun p => { p with failedRail := some r })

/-! ### Standby (R140) -/

/-- ENTERING_STANDBY begins with the scan-out's stop (R140). -/
def beginStandby (s : State) : State :=
  let s := setPower .enteringStandby s
  requestStop (s.onPwc fun p =>
    { p with dimCause := .none, thermalTimer := none, step := .enterScan, keptWake := none })

/-- The DRAM is empty: step 5 begins, and DA puts it into self-refresh (R140, R167). -/
def drainDone (s : State) : State :=
  (s.onPwc fun p => { p with step := .enterRefresh }).onDa fun d => { d with mode := .entering }

/-- Self-refresh is entered: the snapshot freezes, the two rails go off, and STANDBY is entered (R140 steps 5 and 6);
a kept wake cause then begins WAKING (R142). -/
def refreshEntered (s : State) : State :=
  let s := s.onDa fun d => { d with mode := .selfRefresh }
  if s.pwc.step = .enterRefresh then
    let s := s.onTb fun t => { t with refresh := false, fresh := false }
    let s := s.onPwc fun p => { (p.disable .panel).disable .audio with state := .standby, step := .none }
    let s := beaconsStop (raise .powerChange s)
    match s.pwc.keptWake with
    | some c => beginWaking c s
    | none => s
  else s

/-! ### Starting (R134) -/

/-- A start cause in OFF begins STARTING when MAIN_OK is high and THERM_CRIT is not asserted (R134). -/
def startCause (c : WakeCause) (s : State) : State :=
  if s.pins.mainOk && !s.pins.thermCrit then
    s.onPwc fun p =>
      { p with state := .starting, step := .startCore, lastWake := c, mainLoss := false, failedRail := none }
  else s

/-! ### The button (R146) -/

/-- One microsecond of the debounce: the 20 ms run from the step that first sees the pin away from the debounced level,
and a step that sees it back stops them. A change that has come due stands until its row takes it (log 22). -/
def debounceStep (away : Bool) : Timer → Timer
  | some 0 => some 0
  | some (n + 1) => if away then some n else none
  | none => if away then some 20000 else none

/-- A press: the debounced level becomes pressed (R146). -/
def buttonPressed (s : State) : State :=
  let s := s.onPwc fun p => { p with pressed := true, debounce := none }
  match s.pwc.state with
  | .off => startCause .button s
  | .active => raise .button (s.onPwc fun p => { p with overrideTimer := some 4000000 })
  | .dimmed => raise .button (s.onPwc fun p => { p with overrideTimer := some 4000000 })
  | .enteringStandby => wakeCause .button s
  | .standby => wakeCause .button s
  | _ => s

/-! ### The power record (R137) -/

/-- The power states a request asks for. -/
inductive PowerRequest where
  | none | active | dimmed | standby | off
  deriving DecidableEq, Repr

def powerRequests : List PowerRequest := [.none, .active, .dimmed, .standby, .off]

/-- The settings of a power record; none when a check of R137 fails. -/
def settingsAt (b : List Byte) : Option PowerSettings := do
  let software := byteAt b 1
  let override := byteAt b 2
  let autoDim ← flagAt b 3
  let wakePresence ← flagAt b 4
  let wakeTether ← flagAt b 5
  let restart ← flagAt b 6
  let activeHigh ← flagAt b 7
  if 1 ≤ software ∧ software ≤ 8 ∧ 1 ≤ override ∧ override ≤ 8 then
    some { software, override, autoDim, wakePresence, wakeTether, restart, activeHigh }
  else none

/-- The settings are replaced, and a change of polarity is judged as an edge (R137, R147). -/
def takeSettings (p : PowerSettings) (s : State) : State :=
  let before := s.alertAsserted
  let s := s.onPwc fun x => { x with settings := p }
  if !before && s.alertAsserted then alertAsserts s
  else if before && !s.alertAsserted then alertDeasserts s
  else s

/-- A request is acted on (R137). -/
def actOnRequest (r : PowerRequest) (s : State) : State :=
  match r with
  | .none => s
  | .active => if s.pwc.state = .dimmed then enterActive s else s
  | .dimmed =>
    match s.pwc.state with
    | .active => enterDimmed .request s
    | .dimmed => s.onPwc fun p => { p with dimCause := .request }
    | _ => s
  | .standby => if s.pwc.awake then beginStandby s else s
  | .off => if s.pwc.awake then beginStopping .request s else s

/-- A power record arm (R137). -/
def judgePower (b : List Byte) (s : State) : Outcome × State :=
  match codeAt powerRequests b 0, settingsAt b with
  | some r, some p =>
    match s.pwc.state with
    | .active => (.taken, actOnRequest r (takeSettings p s))
    | .dimmed => (.taken, actOnRequest r (takeSettings p s))
    | _ => (.refusedBusy, s)
  | _, _ => (.refusedField, s)

end Sys2Proof.Machine
end

