-- ==== Sys2Proof/Machine/Status.lean ====
section
/-!
DEFINITION. What the part composes at a read: the fresh line (R67, R187) and the 128 lines of the status page (R177,
R188).
-/
namespace Sys2Proof.Machine

/-! ### The fresh line -/

/-- A photon time as a fresh line of an epoch gives it: none when formed in another epoch (R67, R187). -/
def inEpoch (epoch : Byte) (t : Option Stamp) : Option Stamp := t.filter fun x => x.epoch == epoch

def timeBytes (t : Option Stamp) : List Byte :=
  match t with
  | some x => toBytes 5 x.time.toNat
  | none => zeros 5

/-- The fresh line of a slot, composed from the values that stand now. -/
def freshLine (n : Fin 4) (s : State) : List Byte :=
  let slot := vget s.sh.slots n
  let now := s.tb.snapshot
  let last := inEpoch now.epoch s.so.lastPhoton
  let next := inEpoch now.epoch s.so.nextPhoton
  let extra : Byte := (if s.tb.fresh then 0 else 0x02) ||| (if last.isNone then 0x08 else 0) |||
    (if next.isNone then 0x10 else 0)
  let head := match slot.record with
    | some r => r.bytes extra
    | none => [0, extra ||| 0x04] ++ zeros 30
  head ++ toBytes 5 now.time.toNat ++ [now.epoch] ++ timeBytes last ++ timeBytes next ++
  toBytes 4 s.so.frameNumber.toNat ++ toBytes 4 slot.updates.toNat ++ zeros 8

/-! ### Laying out a line (R188) -/

/-- A field of a status line by its width. -/
inductive Field where
  | b1 (v : Byte)
  | b2 (v : Nat)
  | b4 (v : Nat)
  | b8 (v : Nat)
  | time (t : Stamp)
  deriving DecidableEq, Repr

/-- Fills up to a multiple of a width. -/
def alignTo (n : Nat) (l : List Byte) : List Byte := l ++ zeros ((n - l.length % n) % n)

/-- Places a field at the next offset its width allows. -/
def placeField (l : List Byte) : Field → List Byte
  | .b1 v => l ++ [v]
  | .b2 v => alignTo 2 l ++ toBytes 2 v
  | .b4 v => alignTo 4 l ++ toBytes 4 v
  | .b8 v => alignTo 8 l ++ toBytes 8 v
  | .time t => alignTo 2 l ++ stampBytes t

/-- Fields in order from byte 0. -/
def layout (l : List Field) : List Byte := l.foldl placeField []

def flagField (b : Bool) : Field := .b1 (flagByte b)

def codeField {α : Type} [BEq α] (codes : List α) (v : α) : Field := .b1 (codeOf codes v)

def numField (n : Nat) : Field := .b1 (BitVec.ofNat 8 n)

/-- An optional value: presence, then the value or zero. -/
def optField (f : Nat → Field) (v : Option Nat) : List Field := [flagField v.isSome, f (v.getD 0)]

def optTime (t : Option Stamp) : List Field := [flagField t.isSome, .time (t.getD Stamp.zero)]

/-- Entries of a list one after another, then the change count at 48 and the number of entries at 50. -/
def listLine (entries : List (List Byte)) (change : U16) (count : Nat) : List Byte :=
  padTo 48 entries.flatten ++ toBytes 2 change.toNat ++ [BitVec.ofNat 8 count]

/-- The `k`-th group of `n` elements. -/
def groupOf {α : Type} (n k : Nat) (l : List α) : List α := (l.drop (n * k)).take n

/-! ### The lines, owner by owner -/

def outcomeEntryBytes (e : OutcomeEntry) : List Byte :=
  toBytes 4 e.lastSeen.toNat ++ [codeOf outcomes e.outcome, 0] ++ toBytes 2 e.overtaken.toNat

def regionBytes (r : Region) : List Byte :=
  [flagByte r.valid, r.kind, r.binding, 0] ++ toBytes 4 r.base.toNat ++ toBytes 4 r.size.toNat ++
  toBytes 4 r.drops.toNat

/-- Requests of the host that hold a place (R152). -/
def Agent.hostPlace : Agent → Bool
  | .hostRead _ => true
  | .hostWrite => true
  | _ => false

/-- Places of the host memory port taken (R152). -/
def State.places (s : State) : Nat := (s.da.all.filter (·.agent.hostPlace)).length

def classCodes : List ReqClass := [.scan, .audio, .host, .deposit, .ring]

/-- The agents in the order of R166. -/
def agentCodes : List ReqClass := [.host, .scan, .audio, .deposit, .ring]

/-- Why a transaction is held: none 0, soft reset 1, standby 2 (R168). -/
def Hmp.heldReason (h : Hmp) : Byte :=
  match h.held, h.hold with
  | some _, .softReset => 1
  | some _, .standby => 2
  | _, _ => 0

def memoryLine (s : State) : List Byte :=
  layout ([.b4 s.rm.statusDrops.toNat, .b4 s.rm.rangeDrops.toNat, numField s.places, .b1 s.hmp.heldReason] ++
    classCodes.map (fun c => .b2 (s.da.requests.filter fun r => r.agent.cls == c).length) ++
    [.b1 (match s.da.service with
      | some r => codeOf classCodes r.agent.cls
      | none => 0xFF),
     flagField (s.da.mode == .selfRefresh), .b4 s.da.corrected.toNat, numField s.da.scrubs.length,
     .b4 s.da.scrubMissed.toNat, .b4 s.da.captureTotal.toNat])

def captureBytes (c : Capture) : List Byte :=
  [codeOf captureKinds c.kind, codeOf agentCodes c.agent, 0, 0] ++ toBytes 4 c.addr.toNat ++ stampBytes c.stamp ++
  [0, 0]

/-- Lines 33 to 38. -/
def surfaceLine (n : Fin 6) (s : State) : List Byte :=
  let f := s.st.surface n
  let fr := vget s.tc.frontiers n
  let count (p : Band → Bool) : Nat := (f.bands.filter p).length
  let tether := f.ownedBy .tether
  layout ([flagField f.config.isSome, codeField surfaceStates f.state,
      (match f.config with
        | some c => codeField owners c.owner
        | none => .b1 0),
      (match f.config with
        | some c => codeField eyes c.eye
        | none => .b1 0),
      .b4 f.fence.toNat, .b2 (count (·.complete))] ++
    optField numField (f.bands.findIdx? fun b => !b.complete) ++
    [.b2 (count (·.late)), .b2 (count (·.substituted))] ++
    optField .b2 (if tether then fr.issue else none) ++ optField .b2 (if tether then fr.deposit else none))

/-- A queue entry's or frame's 24 bytes. A surface that RELEASE took out of the previous frame (R4, R23), the left one
too, shows as FFh, NONE's code for a surface number (R184): a DESIGN CHOICE for the left one (log 40). -/
def frameBytes (tag : U32) (left right : Option (Fin 6)) (source : Owner) (target : Option Stamp) (pose : Option U32)
    (repeats substituted : U16) : List Byte :=
  toBytes 4 tag.toNat ++ [slotByte left, slotByte right, codeOf owners source, flagByte target.isSome] ++
  stampBytes (target.getD Stamp.zero) ++ [flagByte pose.isSome, 0] ++ toBytes 4 (pose.getD 0).toNat ++
  toBytes 2 repeats.toNat ++ toBytes 2 substituted.toNat

def entryBytes (e : Option Entry) : List Byte :=
  match e with
  | some e => frameBytes e.tag (some e.left) e.right e.source e.target e.pose 0 0
  | none => zeros 24

def currentBytes (f : Option Frame) : List Byte :=
  match f with
  | some f => frameBytes f.tag f.left f.right f.source f.target f.pose f.repeats f.substituted
  | none => zeros 24

def queueLine (t : St) : List Byte :=
  padTo 4 [BitVec.ofNat 8 t.queue.length] ++ entryBytes t.queue[0]? ++ entryBytes t.queue[1]? ++
  toBytes 2 t.change.toNat

def trackerLine (t : St) : List Byte :=
  let tag := t.tether.map fun f => f.tag.toNat
  let rest := layout (optField .b4 tag ++
    [codeField rejectCauses t.rejectCause, .b4 t.rejectTag.toNat, .b4 t.dropped.toNat, flagField t.barred])
  padTo 48 (entryBytes t.queue[2]? ++ rest) ++ toBytes 2 t.change.toNat

def framesLine (t : St) : List Byte :=
  let late (f : Option Frame) : Byte := flagByte (f.any (·.bandLate))
  [flagByte t.current.isSome, late t.current, flagByte t.previous.isSome, late t.previous] ++
  currentBytes t.current ++ currentBytes t.previous ++ toBytes 2 t.change.toNat

def scanLine (s : State) : List Byte :=
  let o := s.so
  layout ([codeField scanStates o.state, codeField phases o.phase, flagField o.coasting, flagField s.killed,
      .b4 o.frameNumber.toNat, .time o.lastBoundary] ++ optField .b4 o.measured ++
    [.b4 o.early.toNat, .b1 (strobeDrive o.applied.lineLeft s.lit), .b1 (strobeDrive o.applied.lineRight s.lit),
     numField o.lastThrottle] ++ optTime o.lastPhoton ++ optTime o.nextPhoton ++
    [.b4 o.failedBands.toNat, .b4 o.underruns.toNat, .b4 o.suppressed.toNat])

def pendingLine (o : So) : List Byte :=
  match o.pendingSet with
  | some (t, n) => [1, BitVec.ofNat 8 n, 0, 0] ++ timingBytes t
  | none => []

def channelLine (n : Fin 4) (s : State) : List Byte :=
  let c := s.channel n
  layout [codeField channelStates c.state, flagField c.holder.isSome,
    .b1 (match c.holder with
      | some h => h.overrun
      | none => 0),
    flagField (s.sh.bus.any fun t => t.channel == n), .b2 c.seq.toNat, flagField c.faultCleared, flagField c.resume,
    .b1 c.consecutive, .b4 c.noResponse.toNat, .b4 c.overruns.toNat, .b4 c.unrouted.toNat]

def sensorRingBytes (r : SensorRing) : List Byte :=
  [flagByte r.enabled, 0, 0, 0] ++ toBytes 4 r.base ++ toBytes 2 r.capacity ++ toBytes 2 r.issued.toNat ++
  toBytes 2 r.produce.toNat ++ toBytes 2 r.consume.toNat ++ toBytes 4 r.drops.toNat ++ zeros 4

def slotBytes (x : FreshSlot) : List Byte :=
  toBytes 4 x.updates.toNat ++
  match x.record with
  | some r => [1, BitVec.ofNat 8 r.channel.val] ++ toBytes 2 r.seq.toNat ++ stampBytes r.stamp
  | none => zeros 10

def linkLine (t : Tc) : List Byte :=
  layout [codeField linkStates t.link, flagField t.upFromRecovery, flagField t.paused.isSome, flagField t.restricted,
    .time t.since, .b4 t.attempts.toNat, .b4 t.recoveries.toNat]

def downlinkLine (s : State) : List Byte :=
  let t := s.tc
  layout ([.b2 t.expected.toNat] ++ optField .b2 (t.lastTaken.map (·.toNat)) ++
    [.b4 t.crcErrors.toNat, .b4 t.formatErrors.toNat, .b4 t.duplicates.toNat, .b4 t.gaps.toNat, .b4 t.pauses.toNat,
     .b4 s.depositFill, .b4 t.dropState.toNat, .b4 t.dropRange.toNat, .b4 t.dropFormat.toNat,
     .b4 t.dropStandby.toNat, .b4 t.audioDrops.toNat])

def messageRingLine (r : MessageRing) : List Byte :=
  layout [flagField r.enabled, .b2 r.count, .b4 r.base, .b2 r.issued.toNat, .b2 r.produce.toNat, .b2 r.consume.toNat,
    .b4 r.backPressure.toNat, .b4 r.standbyDrops.toNat, .b4 r.noRingDrops.toNat, .b4 r.lengthDrops.toNat]

/-- The records an open batch holds. -/
def Tc.openRecords (t : Tc) : Option Nat :=
  (t.queue.find? UplinkEntry.isOpen).map fun e =>
    match e.content with
    | .sensor records _ => records.length
    | _ => 0

def uplinkLine (t : Tc) : List Byte :=
  layout ([flagField t.ackRequest, flagField t.echoRequest.isSome, flagField t.keepRequest,
      flagField t.openRecords.isSome, numField (t.openRecords.getD 0)] ++
    (List.finRange 4).map (fun c => numField (t.queue.filter fun e => e.content.queueClass == c).length) ++
    (vlist t.inProgress).map flagField ++ (vlist t.nextSeq).map (fun q => .b2 q.toNat) ++
    (vlist t.ackTimers).map (fun x => flagField x.isSome) ++ (vlist t.history).map (fun h => numField h.length) ++
    [.b4 t.badAcks.toNat, .b4 t.echoReplaced.toNat])

/-- A history entry's 8 bytes; its class is 1 PHOTON, 2 SENSOR or 3 MESSAGE (R89). -/
def histBytes (c : Fin 3) (e : HistEntry) : List Byte :=
  [BitVec.ofNat 8 (c.val + 1), BitVec.ofNat 8 e.sends] ++ toBytes 2 e.seq.toNat ++
  [flagByte e.resend, flagByte e.belongs, 0, 0]

def Tc.histEntries (t : Tc) : List (List Byte) :=
  (List.finRange 3).flatMap fun c => (vget t.history c).map (histBytes c)

def uplinkCountLine (t : Tc) : List Byte :=
  ((vlist t.fullDrops ++ vlist t.unlinked ++ vlist t.resent).map fun c => toBytes 4 c.toNat).flatten

def pairBytes (p : TimePair) : List Byte := toBytes 8 p.console.toNat ++ stampBytes p.stamp ++ [0, 0]

/-- Lines 70 to 72; what a ring's role does not have is zero (R188). -/
def audioRingLine (n : Fin 3) (a : Au) : List Byte :=
  let r := vget a.rings n
  let playback (v : Nat) : Nat := if n = 2 then 0 else v
  layout [flagField r.enabled, codeField playStates r.play, .b1 (if n = 2 then r.uplink else 0), .b1 0, .b2 r.gain,
    .b4 r.base, .b4 r.capacity, .b4 (playback r.threshold), .b4 (if n = 1 then 0 else r.issued.toNat),
    .b4 r.produce.toNat, .b4 (playback r.taken.toNat), .b4 r.consume.toNat, .b4 (playback r.underruns.toNat),
    .b4 (playback r.lates.toNat), .b4 (playback r.faileds.toNat), .b4 (if n = 1 then 0 else r.overruns.toNat)]

/-- A speaker line's drive, low 0, high 1, not driven 2, in the active part of a PWM period or else outside it; while
AU is halted a line takes the drive outside it (R114, R116, R188). -/
def speakerDrive (x : SpeakerSelect) (active : Bool) : Byte :=
  match x with
  | .low => 0
  | .pwm => if active then 1 else 0
  | .pwmInverted => if active then 0 else 1
  | .released => 2

/-- The drive of a line with this select and duty now (R114); `edge` is the free value of log 21. -/
def Au.lineDrive (a : Au) (x : SpeakerSelect) (duty : Nat) (edge : Bool) : Byte :=
  speakerDrive x (a.running && a.pwmActive duty edge)

def audioLine (s : State) : List Byte :=
  let a := s.au
  layout [flagField a.running, numField a.driftCount, codeField corrections a.scheduled, .b2 a.output.volume,
    flagField a.output.mute, flagField a.output.dither, .b2 a.output.taps.toNat,
    codeField speakerSelects a.output.left, codeField speakerSelects a.output.right,
    .b1 (a.lineDrive a.selLeft a.dutyLeft (Config.speakerLevel s.free)),
    .b1 (a.lineDrive a.selRight a.dutyRight (Config.speakerLevel (s.free + 1))),
    .b2 a.lfsr.toNat, .b4 a.dropCorrs.toNat, .b4 a.repeatCorrs.toNat]

def timeLine (t : Tb) : List Byte :=
  layout [.time t.snapshot, flagField t.fresh, flagField t.holding.isSome,
    (match t.holding with
      | some a => codeField adjustModes a.mode
      | none => .b1 0),
    .b8 (match t.holding with
      | some a => a.value.toNat
      | none => 0),
    .b4 t.taken.toNat]

/-- The set of level sources that are high. -/
def State.levelSet (s : State) : Nat :=
  ((List.finRange 26).filter fun n => (s.sourceLevel n).getD false).foldl (fun v n => v + 2 ^ n.val) 0

def triggerLine (s : State) : List Byte :=
  layout ((vlist s.tm.consumers).flatMap (fun c =>
      [numField c.source.val, flagField c.invert, codeField edgeModes c.mode, flagField (s.consumerLevel c)]) ++
    (vlist s.tm.outs).flatMap (fun o =>
      [numField o.source.val, codeField syncSelects o.select, .b1 (s.syncDrive o), .b1 0]) ++
    [.b4 s.levelSet])

def beaconBytes (b : Beacon) : List Byte :=
  padTo 24 (layout [.b2 b.delay, .b2 b.width, flagField b.restart, codeField beaconSelects b.select,
    codeField beaconStates b.state, .b1 0, .b4 (b.timer.getD 0), .b4 b.pulses.toNat, .b4 b.ignored.toNat])

/-- The failed rail: NONE 0, then the rails (R151). -/
def failedRailByte (r : Option Rail) : Byte :=
  match r with
  | none => 0
  | some r => codeOf rails r + 1

def railFlags (p : PerRail) : List Field := rails.map fun r => flagField (p.get r)

def powerLine (s : State) : List Byte :=
  let p := s.pwc
  layout ([codeField powerStates p.state, codeField dimCauses p.dimCause, codeField wakeCauses p.lastWake,
    codeField stopCauses p.lastStop, .b1 (failedRailByte p.failedRail), flagField p.mainLoss,
    numField p.settings.software, numField p.settings.override, flagField p.settings.autoDim,
    flagField p.settings.wakePresence, flagField p.settings.wakeTether, flagField p.settings.restart,
    flagField p.settings.activeHigh, numField p.factor, flagField p.overrideOn, flagField p.thermalTimer.isSome,
    flagField (!p.presence), flagField p.pressed, flagField p.overrideTimer.isSome, flagField s.pins.mainOk,
    flagField s.alertAsserted, flagField s.pins.thermCrit] ++ railFlags s.pins.pg ++ railFlags p.enables)

/-- The fields of a status page line from byte 0 (R188). -/
def statusFields (n : Nat) (s : State) : List Byte :=
  if n = 0 then layout [.b4 s.planBase, numField s.pu.sel.val, .b2 s.pu.softResets.toNat]
  else if n ≤ 15 then
    listLine ((groupOf 6 (n - 1) (vlist s.pu.table)).map outcomeEntryBytes) s.pu.change 86
  else if n = 16 then
    layout [.b4 s.eu.pendingSet.toNat, .b4 s.eu.enableSet.toNat, flagField s.eu.attn, flagField s.eu.gap.isSome]
  else if n = 17 then layout ((vlist s.eu.counts).map fun c => .b2 c.toNat)
  else if n ≤ 28 then listLine ((groupOf 3 (n - 18) (vlist s.rm.regions)).map regionBytes) s.rm.change 32
  else if n = 29 then memoryLine s
  else if n ≤ 32 then
    listLine ((groupOf 3 (n - 30) s.da.captures).map captureBytes) s.da.change s.da.captures.length
  else if n ≤ 38 then surfaceLine ⟨(n - 33) % 6, Nat.mod_lt _ (by omega)⟩ s
  else if n = 39 then queueLine s.st
  else if n = 40 then trackerLine s.st
  else if n = 41 then framesLine s.st
  else if n = 42 then scanLine s
  else if n = 43 then timingBytes s.so.applied
  else if n = 44 then pendingLine s.so
  else if n ≤ 48 then
    listLine ((groupOf 2 (n - 45) s.so.reports).map fun r => r.bytes r.cut) s.so.change s.so.reports.length
  else if n ≤ 52 then channelLine ⟨(n - 49) % 4, Nat.mod_lt _ (by omega)⟩ s
  else if n = 53 then
    layout [.b1 (match s.sh.bus with
      | some t => BitVec.ofNat 8 t.channel.val
      | none => 0xFF), flagField s.sh.hold]
  else if n ≤ 57 then ((groupOf 2 (n - 54) (vlist s.sh.rings)).map sensorRingBytes).flatten
  else if n = 58 then ((vlist s.sh.slots).map slotBytes).flatten
  else if n = 59 then linkLine s.tc
  else if n = 60 then downlinkLine s
  else if n = 61 then messageRingLine s.tc.ring
  else if n = 62 then uplinkLine s.tc
  else if n ≤ 65 then listLine (groupOf 6 (n - 63) s.tc.histEntries) s.tc.histChange s.tc.historyFill
  else if n = 66 then uplinkCountLine s.tc
  else if n ≤ 69 then listLine ((groupOf 3 (n - 67) s.tc.pairs).map pairBytes) s.tc.pairChange s.tc.pairs.length
  else if n ≤ 72 then audioRingLine ⟨(n - 70) % 3, Nat.mod_lt _ (by omega)⟩ s.au
  else if n = 73 then audioLine s
  else if n = 74 then timeLine s.tb
  else if n = 75 then triggerLine s
  else if n = 76 then ((vlist s.tm.beacons).map beaconBytes).flatten
  else if n = 77 then powerLine s
  else []

/-- The composition stamp in bytes 56 to 63 (R177, R188). -/
def compositionStamp (s : State) : List Byte := stampBytes s.tb.snapshot ++ [flagByte s.tb.fresh, 0]

/-- Status page line `n` as it stands now (R177). -/
def statusLine (n : Nat) (s : State) : List Byte := padTo 56 (statusFields n s) ++ compositionStamp s

end Sys2Proof.Machine
end

