-- ==== Sys2Proof/Machine/Plan.lean ====
section
/-!
DEFINITION. The host memory port, the region matcher and the plan unit (chapters 8 and 9): how a host transaction
arrives, is classified and acts; arming and live words; the records no other block judges; soft reset.
-/
namespace Sys2Proof.Machine

/-! ### Host transactions as bytes (chapter 8) -/

/-- The enabled bytes of a line write: offset and value, offsets rising. -/
def enabledBytes (data : BitVec 512) (enables : BitVec 64) : List (Nat × Byte) :=
  (List.range 64).filterMap fun i =>
    if enables.getLsbD i then some (i, data.extractLsb' (8 * i) 8) else none

/-- A line whose bytes at the given offsets are the given ones. -/
def lineData (bytes : List (Nat × Byte)) : BitVec 512 :=
  bytes.foldl (fun (d : BitVec 512) b => d ||| (BitVec.zeroExtend 512 b.2 <<< (8 * b.1 : Nat))) 0

/-- The enables of those bytes. -/
def lineEnables (bytes : List (Nat × Byte)) : BitVec 64 :=
  bytes.foldl (fun (e : BitVec 64) b => e ||| BitVec.twoPow 64 b.1) 0

/-! ### The region matcher (R154, R157) -/

/-- A region record's fields; none when a check of R157 fails. The binding of a GUARD record is not read
(R186): the entry holds the 00h its form gives it. -/
def regionAt (b : List Byte) : Option Region := do
  let valid ← flagAt b 0
  let kind := byteAt b 1
  let binding := byteAt b 2
  let base := numAt b 4 4
  let size := numAt b 8 4
  let bound := (kind = 0 ∧ binding < 6) ∨ (kind = 1 ∧ binding < 4) ∨ (kind = 2 ∧ binding < 4) ∨ kind = 3
  if valid = true ∧ ¬(bound ∧ base % 4096 = 0 ∧ 1 ≤ size ∧ size ≤ 262144 ∧ base + 4096 * size ≤ 0x80000000) then none
  else some { valid, kind := b.getD 1 0, binding := if kind = 3 then 0 else b.getD 2 0, base := BitVec.ofNat 32 base,
              size := BitVec.ofNat 32 size, drops := 0 }

/-- A region record arm (R157). -/
def judgeRegion (n : Fin 32) (b : List Byte) (s : State) : Outcome × State :=
  match regionAt b with
  | none => (.refusedField, s)
  | some r =>
    (.taken, s.onRm fun m =>
      let old := vget m.regions n
      let new := { r with drops := old.drops }
      if old = new then m else { m with regions := vset m.regions n new, change := m.change + 1 })

/-- An entry covers an address (R154). -/
def Region.covers (addr : Nat) (r : Region) : Bool :=
  r.valid && decide (r.base.toNat ≤ addr) && decide (addr < r.base.toNat + 4096 * r.size.toNat)

/-- The class of a host transaction (R154). -/
inductive TxClass where
  | record (offset : Nat)
  | planPlain
  | status (page : Nat)
  | frame (surface : Fin 6)
  | fresh (entry : Fin 32) (slot : Fin 4)
  | touch (number : Fin 4)
  | guarded (entry : Fin 32)
  | plain
  deriving DecidableEq, Repr

/-- The class an entry gives; a binding a checked entry cannot have counts as plain. -/
def entryClass (n : Fin 32) (r : Region) : TxClass :=
  let v := r.binding.toNat
  match r.kind.toNat with
  | 0 => if h : v < 6 then .frame ⟨v, h⟩ else .plain
  | 1 => if h : v < 4 then .fresh n ⟨v, h⟩ else .plain
  | 2 => if h : v < 4 then .touch ⟨v, h⟩ else .plain
  | 3 => .guarded n
  | _ => .plain

/-- RM classifies a line by its address (R154). -/
def classify (addr : Nat) (s : State) : TxClass :=
  let base := s.planBase
  if base ≤ addr ∧ addr < base + 0x4000 then
    let off := addr - base
    if off < 0x1000 then .record off
    else if off < 0x2000 then .planPlain
    else .status ((off - 0x2000) / 64)
  else
    match (List.finRange 32).find? fun n => (vget s.rm.regions n).covers addr with
    | some n => entryClass n (vget s.rm.regions n)
    | none => .plain

/-! ### Read answers in order (R152) -/

/-- Leading answers that are ready, and the reads after them. -/
def readyAnswers : List ReadSlot → List (List Byte) × List ReadSlot
  | [] => ([], [])
  | r :: rest =>
    match r.answer with
    | some a =>
      let (l, k) := readyAnswers rest
      (a :: l, k)
    | none => ([], r :: rest)

/-- HMP gives the answers that no earlier read keeps waiting. -/
def giveAnswers (s : State) : State :=
  let (l, kept) := readyAnswers s.hmp.reads
  let s := s.onHmp fun h => { h with reads := kept }
  { s with out := s.out ++ l.map .hostLine }

/-- A read is answered at its arrival. -/
def answerNow (line : List Byte) (s : State) : State :=
  let (id, s) := s.fresh
  giveAnswers (s.onHmp fun h => { h with reads := h.reads ++ [⟨id, some line⟩] })

/-- A read's data has come. -/
def answerRead (id : Nat) (line : List Byte) (s : State) : State :=
  giveAnswers (s.onHmp fun h =>
    { h with reads := updateFirst (·.id == id) (fun r => { r with answer := some line }) h.reads })

/-! ### Passing to the DRAM (R155) -/

/-- The first address above the populated memory. -/
def dramLimit : Nat := 0x40000000

def countDrop (n : Fin 32) (s : State) : State :=
  s.onRm fun m =>
    { m with regions := vmod m.regions n fun r => { r with drops := r.drops + 1 }, change := m.change + 1 }

/-- A write that its class passes. -/
def passWrite (line : Nat) (bytes : List (Nat × Byte)) (s : State) : State :=
  if dramLimit ≤ 64 * line then
    memoryError .outOfRange line .host (s.onRm fun m => { m with rangeDrops := m.rangeDrops + 1 })
  else request .hostWrite line (.write bytes) s

/-- A read that its class passes. -/
def passRead (line : Nat) (s : State) : State :=
  if dramLimit ≤ 64 * line then answerNow (List.replicate 64 0xFF) s
  else
    let (id, s) := s.fresh
    request (.hostRead id) line .read (s.onHmp fun h => { h with reads := h.reads ++ [⟨id, none⟩] })

/-! ### Plan initialization and soft reset (R175, R176) -/

/-- The 64 image line writes (R175). -/
def issueImage (s : State) : State :=
  let lines := (List.range 64).map fun i => (s.planBase / 64 + i, enumFrom 0 (s.pu.shadow.bytes (64 * i) 64))
  requestWrites .planInit lines (s.onPu fun p => { p with initLeft := 64 })

/-- Plan initialization: the shadow takes the default image, and its lines are written (R175). -/
def planInitialize (partSeq : U32) (s : State) : State :=
  issueImage (s.onPu fun p => { p with shadow := defaultImage s.pwc.settings partSeq })

/-- TC after a soft reset (R100). -/
def Tc.softReset (t : Tc) : Tc :=
  { Tc.reset with
    link := t.link, since := t.since, upFromRecovery := t.upFromRecovery, retry := t.retry, training := t.training,
    recovery := t.recovery, receive := t.receive, idle := t.idle, paused := t.paused, restricted := t.restricted,
    expected := t.expected, lastTaken := t.lastTaken, nextSeq := t.nextSeq, ackTimers := t.ackTimers,
    ackRequest := t.ackRequest, echoRequest := t.echoRequest, keepRequest := t.keepRequest, lane := t.lane,
    history := vmap (List.map fun e => { e with belongs := false }) t.history
    histChange := if (vget t.history 2).any (·.belongs) then t.histChange + 1 else t.histChange }

/-- AU after a soft reset: a running AU goes on with silence (R114, R117). -/
def Au.softReset (a : Au) : Au := { Au.reset with running := a.running, timer := a.timer, pwmNext := a.pwmNext }

/-- The outcome table after a soft reset: the part record's entry shows its arm (R176). -/
def resetTable (seq : U32) : Vector OutcomeEntry 86 :=
  vset (Vector.replicate 86 OutcomeEntry.reset) RecordKind.part.index ⟨seq, .taken, 0⟩

/-- A soft reset made by a part record arm with this sequence (R176). -/
def softReset (seq : U32) (s : State) : State :=
  let s := { s with
    hmp := { s.hmp with hold := .softReset }, rm := Rm.reset, st := { St.reset with nextIdent := s.st.nextIdent },
    so := So.reset, sh := Sh.reset, tc := s.tc.softReset, au := s.au.softReset, tm := Tm.reset,
    eu := s.eu.coreReset, generation := s.generation + 1 }
  let s := s.onPu fun p => { p with table := resetTable seq, softResets := p.softResets + 1, change := 0 }
  planInitialize seq s

/-! ### Records judged here -/

/-- A time record arm (R120). -/
def judgeTime (b : List Byte) (s : State) : Outcome × State :=
  let value : U64 := BitVec.ofNat 64 (numAt b 8 8)
  let inRange (m : AdjustMode) : Bool :=
    match m with
    | .set => decide (value.toNat ≤ 0xFFFFFFFFFF)
    | .add => decide (-549755813887 ≤ value.toInt) && decide (value.toInt ≤ 549755813887)
  if s.tb.holding.isSome then (.refusedBusy, s)
  else match codeAt adjustModes b 0 with
    | none => (.refusedField, s)
    | some m =>
      if inRange m then
        (.pending, s.onTb fun t => { t with holding := some { mode := m, value, gen := s.generation, age := 0 } })
      else (.refusedField, s)

/-- An event record arm (R181). -/
def judgeEvent (b : List Byte) (s : State) : Outcome × State :=
  let enable := numAt b 0 4
  let ack := numAt b 4 4
  match flagAt b 8 with
  | none => (.refusedField, s)
  | some eos =>
    if 2 ^ 28 ≤ enable ∨ 2 ^ 28 ≤ ack then (.refusedField, s)
    else (.taken, s.onEu (Eu.serve (BitVec.ofNat 28 enable) (BitVec.ofNat 28 ack) eos))

/-- The power controller is in a transition (R176). -/
def Pwc.inTransition (p : Pwc) : Bool :=
  p.state == .starting || p.state == .enteringStandby || p.state == .waking || p.state == .stopping

/-- A part record arm (R176). -/
def judgePart (b : List Byte) (s : State) : Outcome × State :=
  match flagAt b 0 with
  | none => (.refusedField, s)
  | some false => (.taken, s)
  | some true =>
    if s.pwc.inTransition then (.refusedBusy, s)
    else (.taken, softReset (vget s.pu.table RecordKind.part.index).lastSeen s)

/-! ### Arming and live words (R171, R172, R174) -/

/-- The owner judges a snapshot. -/
def judge (k : RecordKind) (b : List Byte) (s : State) : Outcome × State :=
  match k with
  | .region n => judgeRegion n b s
  | .surface n => judgeSurface n b s
  | .timing => judgeTiming b s
  | .present _ => judgePresent b s
  | .channel n => judgeChannel n b s
  | .rule n => judgeRule n b s
  | .sensorRing n => judgeSensorRing n b s
  | .audioRing n => judgeAudioRing n b s
  | .audioOut => judgeAudioOut b s
  | .messageRing => judgeMessageRing b s
  | .messageSlot n => judgeMessageSlot n b s
  | .trigger => judgeTrigger b s
  | .beacon n => judgeBeacon n b s
  | .time => judgeTime b s
  | .power => judgePower b s
  | .event => judgeEvent b s
  | .part => judgePart b s

/-- A record is armed with a sequence: the snapshot goes to the owner, and the outcome into the table (R172). -/
def submit (k : RecordKind) (seq : U32) (s : State) : State :=
  let s := s.onPu (Pu.noteArm k seq)
  let (o, s) := judge k (s.pu.shadow.bytes k.offset k.size) s
  drain (s.onPu (Pu.enter k o))

/-- The owner acts on a live word's value (R174). -/
def liveAct (w : LiveWord) (v : U32) (s : State) : State :=
  match w with
  | .fence n => fenceWrite n v s
  | .sensorConsume n => sensorConsume n v s
  | .ring1Produce => ring1Produce v s
  | .ring2Consume => ring2Consume v s
  | .messageConsume => messageConsume v s

/-- A write covers a live word of its line: one of its bytes is enabled (R174). -/
def LiveWord.coveredBy (bytes : List (Nat × Byte)) (w : LiveWord) : Bool :=
  bytes.any fun b => w.offset % 64 ≤ b.1 && b.1 < w.offset % 64 + 4

/-- The word a write puts in a record's final word, when it enables all four bytes (R171). -/
def RecordKind.finalWord (bytes : List (Nat × Byte)) (k : RecordKind) : Option U32 :=
  let at? (i : Nat) : Option Byte := bytes.lookup (k.seqOffset % 64 + i)
  match at? 0, at? 1, at? 2, at? 3 with
  | some b0, some b1, some b2, some b3 => some (BitVec.ofNat 32 (ofBytes [b0, b1, b2, b3]))
  | _, _, _, _ => none

/-- One record of the line is submitted if the write arms it (R171). -/
def submitIfArmed (bytes : List (Nat × Byte)) (s : State) (k : RecordKind) : State :=
  match k.finalWord bytes with
  | some seq => if seq = (vget s.pu.table k.index).lastSeen then s else submit k seq s
  | none => s

/-- The plan unit's part of a record-area write: merge, live words, arms, in that order (R170, R171); of
several live words the lower offset goes first, a DESIGN CHOICE (log 45). -/
def planWrite (offset : Nat) (bytes : List (Nat × Byte)) (s : State) : State :=
  let line := offset / 64
  let s := s.onPu fun p => { p with shadow := p.shadow.writeAll (64 * line) bytes }
  let s := ((liveWordsIn line).filter (LiveWord.coveredBy bytes)).foldl
    (fun s w => liveAct w (BitVec.ofNat 32 (ofBytes (s.pu.shadow.bytes w.offset 4))) s) s
  (recordsEndingIn line).foldl (submitIfArmed bytes) s

/-! ### Taking a transaction (R152, R154 to R159) -/

/-- A write arrives. -/
def takeWrite (line : Nat) (bytes : List (Nat × Byte)) (s : State) : State :=
  match classify (64 * line) s with
  | .record off => planWrite off bytes (request .hostWrite line (.write bytes) s)
  | .planPlain => request .hostWrite line (.write bytes) s
  | .status _ => s.onRm fun m => { m with statusDrops := m.statusDrops + 1 }
  | .frame n =>
    let s := passWrite line bytes s
    if dramLimit ≤ 64 * line then s else observedWrite n (64 * line) s
  | .touch n => drain (passWrite line bytes (pulse ⟨20 + n.val, by omega⟩ s))
  | .fresh n _ => countDrop n s
  | .guarded n => memoryError .droppedWrite line .host (countDrop n s)
  | .plain => passWrite line bytes s

/-- A status page line is composed; line 73 takes the free values of the speaker lines (R177, log 21). -/
def readStatus (page : Nat) (s : State) : State :=
  let a := statusLine page s
  answerNow a (if page = 73 then { s with free := s.free + 2 } else s)

/-- A read arrives. -/
def takeRead (line : Nat) (s : State) : State :=
  match classify (64 * line) s with
  | .status page => readStatus page s
  | .fresh _ n => answerNow (freshLine n s) s
  | _ => passRead line s

/-- HMP takes a transaction: this is its arrival (R152). -/
def takeTx (tx : HostTx) (s : State) : State :=
  match tx with
  | .read line => takeRead line.toNat s
  | .write line data enables => takeWrite line.toNat (enabledBytes data enables) s

/-! ### The port (R152, R153) -/

/-- The port is in use: not before core reset, and not in STOPPING (R143, R153, log 33). -/
def State.portOpen (s : State) : Bool := s.coreLive && s.pwc.state != .stopping

/-- The first transaction to arrive while the port holds is held; in standby that is a wake cause (R141, R153). -/
def holdTx (tx : HostTx) (s : State) : State :=
  let s := s.onHmp fun h => { h with held := some tx }
  if s.hmp.hold = .standby then wakeCause .hostAccess s else s

/-- Takes, or holds, the transactions waiting at the pins while that can be done; `n` bounds their number. One that
waits for a place when a hold begins becomes the held one here, whatever places are taken, a DESIGN CHOICE (log 44). -/
def pumpUpTo : Nat → State → State
  | 0, s => s
  | n + 1, s =>
    match s.hmp.atPins with
    | [] => s
    | tx :: rest =>
      if s.hmp.hold ≠ .none then
        if s.hmp.held.isSome then s else holdTx tx (s.onHmp fun h => { h with atPins := rest })
      else if 16 ≤ s.places then s
      else pumpUpTo n (takeTx tx (s.onHmp fun h => { h with atPins := rest }))

def pump (s : State) : State := pumpUpTo s.hmp.atPins.length s

/-- A transaction comes to the pins. -/
def hostArrive (tx : HostTx) (s : State) : State :=
  if s.portOpen then pump (s.onHmp fun h => { h with atPins := h.atPins ++ [tx] }) else s

/-- The port's hold ends: the held transaction is taken, then those waiting behind it (R153). -/
def endHold (s : State) : State :=
  pump (s.onHmp fun h => { h with hold := .none, held := none, atPins := h.held.toList ++ h.atPins })

/-! ### Host writes by name (log 12) -/

/-- The offsets of a record's live word, which an arm command's fields leave alone. -/
def RecordKind.liveAt (k : RecordKind) (i : Nat) : Bool :=
  match k with
  | .surface _ => 24 ≤ i && i < 28
  | .sensorRing _ => 12 ≤ i && i < 16
  | .audioRing _ => 16 ≤ i && i < 20
  | .messageRing => 12 ≤ i && i < 16
  | _ => false

/-- The bytes of an arm's line write: the fields from the record's start and its arm sequence, by offset in the line.
Of the trigger record only the second line is written. -/
def armBytes (k : RecordKind) (fields : List Byte) (seq : U32) : List (Nat × Byte) :=
  let lead := if k.size = 128 then [] else
    (enumFrom 0 (fields.take (k.size - 4))).filter fun b => !k.liveAt b.1
  lead.map (fun b => (k.offset % 64 + b.1, b.2)) ++ enumFrom (k.seqOffset % 64) (toBytes 4 seq.toNat)

/-- The host line write that an arm command is. -/
def armTx (k : RecordKind) (fields : List Byte) (seq : U32) (s : State) : HostTx :=
  let bytes := armBytes k fields seq
  .write (BitVec.ofNat 25 ((s.planBase + k.seqOffset) / 64)) (lineData bytes) (lineEnables bytes)

/-- An arm command: its host write arrives. -/
def armRecord (k : RecordKind) (fields : List Byte) (seq : U32) (s : State) : State :=
  hostArrive (armTx k fields seq s) s

/-- The bytes of a live word command's line write: the enabled bytes of the word, by offset in the line. -/
def liveBytes (w : LiveWord) (v : U32) (enables : BitVec 4) : List (Nat × Byte) :=
  (enumFrom (w.offset % 64) (toBytes 4 v.toNat)).filter fun b => enables.getLsbD (b.1 - w.offset % 64)

/-- The host line write that a live word command is: the word with four byte enables. -/
def liveTx (w : LiveWord) (v : U32) (enables : BitVec 4) (s : State) : HostTx :=
  let bytes := liveBytes w v enables
  .write (BitVec.ofNat 25 ((s.planBase + w.offset) / 64)) (lineData bytes) (lineEnables bytes)

/-- A live word command: its host write arrives. -/
def liveWrite (w : LiveWord) (v : U32) (enables : BitVec 4) (s : State) : State := hostArrive (liveTx w v enables s) s

end Sys2Proof.Machine
end

