-- ==== Sys2Proof/Machine/Downlink.lean ====
section
/-!
DEFINITION. Downlink packets (sections 4.2 to 4.6): how their bytes are judged, the room they need, the downlink
sequence, and what each kind does.
-/
namespace Sys2Proof.Machine

/-! ### Reading a packet's bytes (R78, R189) -/

/-- A downlink flag byte: any number but 0 reads as yes (R189). -/
def truthy (b : List Byte) (off : Nat) : Bool := byteAt b off != 0

def ackFieldAt (b : List Byte) (off : Nat) : AckField := ⟨BitVec.ofNat 16 (numAt b off 2), truthy b (off + 2)⟩

def frameBeginAt (b : List Byte) : FrameBegin :=
  let options := b.getD 7 0
  { tag := BitVec.ofNat 32 (numAt b 0 4), left := b.getD 4 0, right := b.getD 5 0, present := truthy b 6,
    target := if options.getLsbD 0 then some (stampAt b 8) else none,
    pose := if options.getLsbD 1 then some (BitVec.ofNat 32 (numAt b 16 4)) else none }

/-- The stereo frames of an AUDIO payload. -/
def framesAt : Nat → List Byte → List U32
  | 0, _ => []
  | n + 1, b => BitVec.ofNat 32 (numAt b 0 4) :: framesAt n (b.drop 4)

/-- The format check of R78 on a packet whose trailer matches. -/
def readPayload (kind : Byte) (seq : U16) (b : List Byte) : Packet :=
  let n := b.length
  if 16384 < n then .badFormat
  else match kind.toNat with
    | 0x01 => .keepalive
    | 0x02 => if n = 12 then .ack (ackFieldAt b 0) (ackFieldAt b 4) (ackFieldAt b 8) else .badFormat
    | 0x10 => if 20 ≤ n then .frameBegin seq (frameBeginAt b) else .badFormat
    | 0x11 =>
      if 8 ≤ n then
        .slice { surface := b.getD 0 0, firstRow := BitVec.ofNat 16 (numAt b 4 2),
                 rowCount := BitVec.ofNat 16 (numAt b 6 2), pixels := b.drop 8 }
      else .badFormat
    | 0x12 => if n = 4 then .frameEnd seq (BitVec.ofNat 32 (numAt b 0 4)) else .badFormat
    | 0x13 => if n ≠ 0 ∧ n % 4 = 0 then .audio (framesAt (n / 4) b) else .badFormat
    | 0x14 => .message seq b
    | 0x15 => if n = 8 then .time (BitVec.ofNat 64 (numAt b 0 8)) else .badFormat
    | 0x16 => if n = 0 then .wake seq else .badFormat
    | _ => .badFormat

/-- A packet as its bytes give it: the CRC is judged first (R78). Bytes that do not end where the header's length says
have no matching trailer. -/
def readPacket (raw : List Byte) : Packet :=
  let n := numAt raw 4 4
  if raw.length ≠ 12 + n then .badCrc
  else if (crc32 (raw.take (8 + n))).toNat ≠ numAt raw (8 + n) 4 then .badCrc
  else readPayload (raw.getD 0 0) (BitVec.ofNat 16 (numAt raw 2 2)) (bytesAt raw 8 n)

/-- The deposit room a packet of these bytes needs: its payload length for SLICE, AUDIO and MESSAGE (R81). That a
packet whose header states more than the whole buffer needs that much too, and so never finds its room, is a DESIGN
CHOICE (log 50). -/
def roomOf (raw : List Byte) : Nat :=
  let k := byteAt raw 0
  if k = 0x11 ∨ k = 0x13 ∨ k = 0x14 then numAt raw 4 4 else 0

/-! ### The sequence (R79) -/

inductive SeqOrder where
  | next | older | newer
  deriving DecidableEq, Repr

def seqOrder (expected seq : U16) : SeqOrder :=
  if seq = expected then .next
  else if (expected - seq).toNat ≤ 32768 then .older
  else .newer

/-- A sequenced packet is taken. -/
def takeSeq (seq : U16) (s : State) : State :=
  s.onTc fun t => { t with expected := t.expected + 1, lastTaken := some seq, ackRequest := true }

/-- An older packet is counted, and acknowledged again if any was taken. -/
def dropOlder (s : State) : State :=
  s.onTc fun t => { t with duplicates := t.duplicates + 1, ackRequest := t.ackRequest || t.lastTaken.isSome }

def dropNewer (s : State) : State := s.onTc fun t => { t with gaps := t.gaps + 1 }

/-- A sequenced packet is judged; `owner` handles one that is taken. -/
def bySequence (seq : U16) (owner : State → State) (s : State) : State :=
  match seqOrder s.tc.expected seq with
  | .next => owner (takeSeq seq s)
  | .older => dropOlder s
  | .newer => dropNewer s

/-! ### The kinds (R80) -/

/-- A MESSAGE that its ring withholds is not taken (R79, R85). -/
def receiveMessage (seq : U16) (bytes : List Byte) (s : State) : State :=
  match seqOrder s.tc.expected seq with
  | .next =>
    let (taken, s) := offerMessage bytes s
    if taken then takeSeq seq s else s
  | .older => dropOlder s
  | .newer => dropNewer s

/-- AUDIO (R83). -/
def takeAudio (frames : List U32) (s : State) : State :=
  if s.tc.restricted || !(vget s.au.rings 0).enabled then
    s.onTc fun t => { t with audioDrops := t.audioDrops + BitVec.ofNat 32 frames.length }
  else placeAudio frames s

/-- TIME (R87). -/
def takeTime (console : U64) (s : State) : State :=
  let p : TimePair := ⟨console, s.tb.now⟩
  pulse 15 (s.onTc fun t =>
    { t with pairs := newest 8 (t.pairs ++ [p]), pairChange := t.pairChange + 1, echoRequest := some p
             echoReplaced := if t.echoRequest.isSome then t.echoReplaced + 1 else t.echoReplaced })

/-- WAKE, once taken (R88). -/
def takeWake (s : State) : State :=
  let s := raise .tetherWake s
  if s.pwc.settings.wakeTether then wakeCause .tetherWake s else s

/-- A valid packet goes to its owner (R79, R80). -/
def handlePacket (p : Packet) (s : State) : State :=
  match p with
  | .badCrc => s
  | .badFormat => s
  | .keepalive => s
  | .ack a b c => applyAck 2 c (applyAck 1 b (applyAck 0 a s))
  | .frameBegin seq f => bySequence seq (tetherBegin f) s
  | .slice p => takeSlice p s
  | .frameEnd seq tag => bySequence seq (tetherEnd tag) s
  | .audio frames => takeAudio frames s
  | .message seq bytes => receiveMessage seq bytes s
  | .time console => takeTime console s
  | .wake seq => bySequence seq takeWake s

/-- A packet is received (R78): a bad one is counted; a valid one restarts the receive timer. -/
def receivePacket (p : Packet) (s : State) : State :=
  match p with
  | .badCrc => s.onTc fun t => { t with crcErrors := t.crcErrors + 1 }
  | .badFormat => s.onTc fun t => { t with formatErrors := t.formatErrors + 1 }
  | p => laneKick (handlePacket p (s.onTc fun t => { t with receive := some 8000 }))

/-! ### Room (R81, log 30) -/

/-- The free room of the deposit buffer. -/
def State.depositRoom (s : State) : Nat := 65536 - s.depositFill

/-- The downlink pauses at a packet. -/
def pauseAt (need : Nat) (p : Packet) (s : State) : State :=
  s.onTc fun t => { t with paused := some (need, p), pauses := t.pauses + 1, receive := none }

/-- A packet arrives at TC while the link is UP and the downlink runs. That one which states more than 65536 payload
bytes is paused until the link leaves UP, and not discarded with a count, is a DESIGN CHOICE (log 50). -/
def arrive (need : Nat) (p : Packet) (s : State) : State :=
  if s.tc.link = .up ∧ s.tc.paused = none then
    drain (if s.depositRoom < need then pauseAt need p s else receivePacket p s)
  else s

/-- A paused packet is received once its room is free (R75, R81). -/
def resumeDownlink (s : State) : State :=
  match s.tc.paused with
  | some (need, p) =>
    if need ≤ s.depositRoom then
      receivePacket p (s.onTc fun t => { t with paused := none, receive := some 8000 })
    else s
  | none => s

/-- A SLICE too long for a packet fails the format check (R78). -/
def slicePacket (p : Slice) : Packet := if 16384 < 8 + p.pixels.length then .badFormat else .slice p

/-- An AUDIO packet without a frame or too long fails the format check (R78). -/
def audioPacket (frames : List U32) : Packet :=
  if frames.isEmpty ∨ 16384 < 4 * frames.length then .badFormat else .audio frames

/-- A MESSAGE too long for a packet fails the format check (R78). -/
def messagePacket (seq : U16) (bytes : List Byte) : Packet :=
  if 16384 < bytes.length then .badFormat else .message seq bytes

end Sys2Proof.Machine
end

