-- ==== Sys2Proof/Machine/Start.lean ====
section
/-!
DEFINITION. Bringing the rails up in STARTING and WAKING and what the report of ACTIVE starts (R135, R145), the end of
plan initialization (R175), the DRAM's completions (R160 to R165), and the passing of a microsecond (R119, R123).
-/
namespace Sys2Proof.Machine

/-! ### Reports of ACTIVE (R135, R145) -/

/-- Steps 4 and 5 of STARTING: the host leaves reset, and the scan-out and the audio unit start; that they start in this
order is a DESIGN CHOICE (log 55). -/
def activeAfterStart (s : State) : State :=
  audioStart (startScan (enterActive (s.onPwc fun p => { p with hostReset := false })))

/-- Step 3 of WAKING: ACTIVE is reported to every block that waits on it; the port serves a held transaction. That the
scan-out's first boundary comes before the captures at the end of the standby hold, that the pulses of this moment are
delivered once all blocks have the report, and that the port comes last, is a DESIGN CHOICE (log 55). -/
def activeAfterWaking (s : State) : State :=
  let s := (enterActive s).onSt fun t => { t with barred := false }
  let s := audioStart (restrictionEnd (holdEnd (startScan s)))
  endHold (drain (beaconsResume s))

/-- Step 3 of STARTING: plan initialization. -/
def startPlan (s : State) : State := planInitialize 0 (s.onPwc fun p => { p with step := .startPlan, railTimer := none })

/-- A rail that is up is watched (R136). -/
def Pwc.watch (r : Rail) (p : Pwc) : Pwc := { p with watched := p.watched.set r true, railTimer := none }

/-- The rails still to be brought up: one whose power-good is already high ends its step at the enable (R135). -/
def bringRails (wake : Bool) : List Rail → State → State
  | [], s => if wake then activeAfterWaking s else startPlan s
  | r :: rest, s =>
    let s := s.onPwc (Pwc.enable r)
    if s.pins.pg.get r then bringRails wake rest (s.onPwc (Pwc.watch r))
    else s.onPwc fun p =>
      { p with step := if wake then .wakeRail r rest else .startRail r rest, railTimer := some 10000 }

/-- The core supply has settled (R135, step 1). -/
def coreSettled (sel : Fin 4) (s : State) : State := bringRails false [.sensor, .audio, .panel, .host] (coreReset sel s)

/-- A power-good input rises (R135, R136). -/
def powerGoodRises (r : Rail) (s : State) : State :=
  let s := s.onPins fun p => { p with pg := p.pg.set r true }
  match s.pwc.step with
  | .startRail c rest => if c = r then bringRails false rest (s.onPwc (Pwc.watch r)) else s
  | .wakeRail c rest => if c = r then bringRails true rest (s.onPwc (Pwc.watch r)) else s
  | _ => s

/-- A power-good input falls: the end of a rail's step in STOPPING, or a fault of a watched rail (R136, R143). -/
def powerGoodFalls (r : Rail) (s : State) : State :=
  let s := s.onPins fun p => { p with pg := p.pg.set r false }
  match s.pwc.step with
  | .stopRail c rest => if c = r then stopRails rest (s.onPwc fun p => { p with railTimer := none }) else s
  | _ => if s.pwc.watched.get r then railFault r s else s

/-- A rail's 10 ms run out (R136, R143). -/
def railTimerExpired (s : State) : State :=
  match s.pwc.step with
  | .startRail r _ => railFault r s
  | .wakeRail r _ => railFault r s
  | _ => s

def railOffExpired (s : State) : State :=
  match s.pwc.step with
  | .stopRail _ rest => stopRails rest (s.onPwc fun p => { p with railTimer := none })
  | _ => s

/-- The DRAM is out of self-refresh: waiting requests are chosen, and WAKING goes on (R145, R167). -/
def refreshLeft (s : State) : State :=
  let s := s.onDa fun d => { d with mode := .normal }.kick
  if s.pwc.step = .wakeExit then bringRails true [.audio, .panel] s else s

/-! ### Plan initialization's end (R175) -/

/-- The port's hold for the initialization ends, and in STARTING the next steps follow. -/
def planDone (s : State) : State :=
  let s := if s.hmp.hold = .standby then s else endHold s
  if s.pwc.step = .startPlan then activeAfterStart s else s

/-- An image write has completed. -/
def imageWriteDone (s : State) : State :=
  let s := s.onPu fun p => { p with initLeft := p.initLeft - 1 }
  if s.pu.initLeft = 0 then planDone s else s

/-! ### DRAM completions (R160, R164) -/

/-- The agent of a request is told of its completion. -/
def agentDone (r : Request) (v : Served) (s : State) : State :=
  match r.agent with
  | .hostRead id => answerRead id v.data s
  | .hostWrite => s
  | .planInit => imageWriteDone s
  | .band job => bandReadDone job r.line v.data v.bad s
  | .fetch period => fetchDone period r.line v.data v.bad s
  | .capture block => captureDone block s
  | .deposit job _ => resumeDownlink (depositWriteDone job s)
  | .messageEntry index gen _ => resumeDownlink (entryWriteDone index gen s)
  | .messageRead read => messageReadDone read r.line v.data v.bad s
  | .sensorRing ring index gen => ringWriteDone ring index gen s
  | .scrub => s

/-- The errors found in a line that is read join what is known of it (log 7); a write with no byte enabled reads
nothing. -/
def reportErrors (r : Request) (ecc : EccReport) (s : State) : State :=
  if r.op = .write [] then s else s.onDa fun d => { d with flaws := addReport d.flaws r.line ecc }

/-- The request in service is served: the DRAM's part with its captures, its agent, and the next choice (R160). That
the requests its agent makes now join before that choice, and those of a host transaction waiting for the place now free
after it, is a DESIGN CHOICE (log 49). -/
def finishService (r : Request) (ecc : EccReport) (s : State) : State :=
  let (v, s) := access r (reportErrors r ecc s)
  let s := if v.bad then memoryError r.op.captureKind r.line r.agent.cls s else s
  let s := agentDone r v (s.onDa fun d => { d with service := none })
  drain (pump (s.onDa Da.kick))

/-- A completion row: the request in service completes if it is one of the row's; the line must exist (log 26). -/
def completeService (mine : State → Request → Bool) (ecc : EccReport) (s : State) : Host.Outcome State Fault Refusal :=
  match s.da.service with
  | none => .next s
  | some r =>
    if !mine s r then .next s
    else if lineLimit ≤ r.line then .fault .noSuchLine
    else .next (finishService r ecc s)

/-! ### A microsecond (R119, R123, log 3) -/

/-- Device time steps; from FFFFFFFFFFh it steps to 0 and the epoch goes up (R119). -/
def Stamp.step (t : Stamp) : Stamp :=
  { time := t.time + 1, epoch := if t.time = 0xFFFFFFFFFF then t.epoch + 1 else t.epoch }

def Tb.tick (live : Bool) (t : Tb) : Tb :=
  let now := Stamp.step t.now
  let t := { t with now, holding := t.holding.map fun a => { a with age := a.age + 1 } }
  if live && t.refresh then { t with snapshot := now, fresh := true } else t

/-- The power controller's timers; `low` is the level of PWR_BTN at the step. -/
def Pwc.tick (low : Bool) (p : Pwc) : Pwc :=
  { p with railTimer := tickTimer p.railTimer, overrideTimer := tickTimer p.overrideTimer,
           thermalTimer := tickTimer p.thermalTimer, debounce := debounceStep (low != p.pressed) p.debounce }

def So.tick (o : So) : So :=
  { o with phaseTimer := tickTimer o.phaseTimer, darkTimer := tickTimer o.darkTimer,
           periodTimer := tickTimer o.periodTimer, syncTimer := tickTimer o.syncTimer, light := tickTimer o.light,
           sinceBoundary := if o.state = .running then o.sinceBoundary + 1 else o.sinceBoundary }

def Sh.tick (h : Sh) : Sh :=
  { h with channels := vmap (fun c => { c with timer := tickTimer c.timer }) h.channels,
           bus := h.bus.map fun t => { t with left := t.left - 1 } }

def Lane.tick : Lane → Lane
  | .sending p e left => .sending p e (left - 1)
  | l => l

def Tc.tick (t : Tc) : Tc :=
  { t with retry := tickTimer t.retry, training := tickTimer t.training, recovery := tickTimer t.recovery,
           receive := tickTimer t.receive, idle := tickTimer t.idle, ackTimers := vmap tickTimer t.ackTimers,
           lane := t.lane.tick }

def Tm.tick (t : Tm) : Tm :=
  { t with outs := vmap (fun o => { o with follow := tickTimer o.follow }) t.outs,
           beacons := vmap (fun b => { b with timer := tickTimer b.timer }) t.beacons }

/-- The core's timers count while the core runs. -/
def tickCore (s : State) : State :=
  { s with so := s.so.tick, sh := s.sh.tick, tc := s.tc.tick, tm := s.tm.tick,
           au := { s.au with timer := tickTimer s.au.timer }, eu := { s.eu with gap := tickTimer s.eu.gap } }

/-- Input levels seen at the step (log 10). -/
def seeLows (lows : PinLows) (p : Pins) : Pins :=
  { p with drdy := p.drdy &&& ~~~lows.drdy, thermCrit := p.thermCrit && !lows.thermCrit, button := !lows.button }

/-- One microsecond step of the always-on oscillator. -/
def microsecond (lows : PinLows) (s : State) : State :=
  let live := s.coreLive
  let s := ((s.onPins (seeLows lows)).onTb (Tb.tick live)).onPwc (Pwc.tick lows.button)
  if live then tickCore s else s

/-! ### The end of a time crossing (R121, R122) -/

/-- The adjust is applied to device time. -/
def Adjust.apply (a : Adjust) (t : Stamp) : Stamp :=
  { time := match a.mode with
      | .set => a.value.truncate 40
      | .add => t.time + a.value.truncate 40
    epoch := t.epoch + 1 }

/-- The report to the core: snapshot, outcome, event (R121); the snapshot is left out while it is frozen, which
time fresh tells: in STANDBY, and in WAKING up to its first microsecond step (R122, R123). -/
def reportAdjust (s : State) : State :=
  let s := s.onTb fun t => if t.fresh then { t with snapshot := t.now } else t
  raise .timeTaken (s.onPu (Pu.finish .time .taken))

/-- A crossing completes. -/
def crossingDone (a : Adjust) (s : State) : State :=
  let s := s.onTb fun t => { t with now := a.apply t.now, holding := none, taken := t.taken + 1 }
  if s.coreLive && a.gen == s.generation then reportAdjust s else s

end Sys2Proof.Machine
end

