-- ==== Sys2Proof/Machine/PowerCmds.lean ====
section
/-!
DEFINITION. The meanings of the power and reset commands (chapter 7). A command whose moment has not come has no effect (log 1).
-/
namespace Sys2Proof.Machine

/-- What a command answers. -/
abbrev Answer := Host.Outcome State Fault Refusal

/-- POWER_ON_RESET (R119, R133): every field takes its power-on value; the pins keep the levels the outside drives. That
a THERM_ALERT pin whose level means asserted under the reset polarity makes no assertion edge here, and counts as
asserted from then on, is a DESIGN CHOICE (log 52). -/
def powerOn (s : State) : State :=
  { State.reset with pending := s.pending, pins := s.pins, out := s.out, free := s.free, nextId := s.nextId,
                     generation := s.generation }

def execPowerOnReset (s : State) : Answer := .next (powerOn s)

/-- CORE_SUPPLY_SETTLED (R135). -/
def execCoreSupplySettled (planSel : Fin 4) (s : State) : Answer :=
  .next (if s.pwc.state = .starting ∧ s.pwc.step = .startCore then drain (coreSettled planSel s) else s)

/-- RAIL_POWER_GOOD_RISE (R135, R145). -/
def execRailPowerGoodRise (r : Rail) (s : State) : Answer :=
  .next (if s.pins.pg.get r then s else drain (powerGoodRises r s))

/-- RAIL_BRING_UP_TIMER_EXPIRY (R136). -/
def execRailBringUpTimerExpiry (s : State) : Answer :=
  .next (if due s.pwc.railTimer then drain (railTimerExpired s) else s)

/-- RAIL_POWER_GOOD_FALL (R136, R143). -/
def execRailPowerGoodFall (r : Rail) (s : State) : Answer :=
  .next (if s.pins.pg.get r then drain (powerGoodFalls r s) else s)

/-- RAIL_OFF_TIMER_EXPIRY (R143). -/
def execRailOffTimerExpiry (s : State) : Answer :=
  .next (if due s.pwc.railTimer then drain (railOffExpired s) else s)

/-- The 20 ms debounce of a change from this debounced level has run out (R146, log 22). -/
def Pwc.debounced (was : Bool) (p : Pwc) : Bool := due p.debounce && p.pressed == was

/-- BUTTON_PRESS (R146). -/
def execButtonPress (s : State) : Answer := .next (if s.pwc.debounced false then drain (buttonPressed s) else s)

/-- BUTTON_RELEASE (R146): the override count stops. -/
def execButtonRelease (s : State) : Answer :=
  .next (if s.pwc.debounced true then
      s.onPwc fun p => { p with pressed := false, debounce := none, overrideTimer := none }
    else s)

/-- BUTTON_OVERRIDE_EXPIRY (R144, R146). -/
def execButtonOverrideExpiry (s : State) : Answer :=
  .next (if due s.pwc.overrideTimer then drain (immediateStop .buttonOverride s) else s)

/-- THERM_ALERT_ASSERTION (R147, R148): the pin takes the level that means asserted. -/
def execThermAlertAssertion (s : State) : Answer :=
  .next (if s.alertAsserted then s
    else alertAsserts (s.onPins fun p => { p with thermAlert := s.pwc.settings.activeHigh }))

/-- THERM_ALERT_DEASSERTION (R147, R148). -/
def execThermAlertDeassertion (s : State) : Answer :=
  .next (if s.alertAsserted then
      drain (alertDeasserts (s.onPins fun p => { p with thermAlert := !s.pwc.settings.activeHigh }))
    else s)

/-- THERMAL_TIMER_EXPIRY (R148). -/
def execThermalTimerExpiry (s : State) : Answer :=
  .next (if due s.pwc.thermalTimer then drain (thermalExpired s) else s)

/-- THERM_CRIT_ASSERTION (R144, R147). -/
def execThermCritAssertion (s : State) : Answer :=
  .next (immediateStop .thermalCritical (s.onPins fun p => { p with thermCrit := true }))

/-- MAIN_OK_FALL (R144): main loss is remembered unless the part is OFF. -/
def mainFalls (s : State) : State :=
  let s := s.onPins fun p => { p with mainOk := false }
  if s.pwc.state = .off then s else immediateStop .mainLost (s.onPwc fun p => { p with mainLoss := true })

def execMainOkFall (s : State) : Answer := .next (if s.pins.mainOk then mainFalls s else s)

/-- MAIN_OK_RISE (R134, R144): a start cause when main loss is remembered and the policy is RESTART. -/
def mainRises (s : State) : State :=
  let s := s.onPins fun p => { p with mainOk := true }
  if s.pwc.state = .off ∧ s.pwc.mainLoss ∧ s.pwc.settings.restart then startCause .mainReturn s else s

def execMainOkRise (s : State) : Answer := .next (if s.pins.mainOk then s else mainRises s)

/-- DRAM_DRAIN_COMPLETE (R140, R167): DA holds no request and serves none. -/
def execDramDrainComplete (s : State) : Answer :=
  .next (if s.pwc.step = .enterDrain ∧ s.da.all = [] then drainDone s else s)

/-- SELF_REFRESH_ENTERED (R140, R142). -/
def execSelfRefreshEntered (s : State) : Answer :=
  .next (if s.da.mode = .entering then drain (refreshEntered s) else s)

/-- SELF_REFRESH_EXIT_COMPLETE (R145, R167). -/
def execSelfRefreshExitComplete (s : State) : Answer :=
  .next (if s.da.mode = .exiting then drain (refreshLeft s) else s)

end Sys2Proof.Machine
end

