-- ==== Sys2Proof/Machine/HostCmds.lean ====
section
/-!
DEFINITION. The meanings of the host transactions and the live word writes (chapters 8 and 9).
-/
namespace Sys2Proof.Machine

/-- HOST_READ (R152, R154). -/
def execHostRead (line : HostLine) (s : State) : Answer := .next (hostArrive (.read line) s)

/-- A line of the status page as a host line. -/
def State.pageLine (s : State) (page : Fin 128) : HostLine := BitVec.ofNat 25 ((s.planBase + 0x2000) / 64 + page.val)

/-- STATUS_PAGE_READ (R154, R177). -/
def execStatusPageRead (page : Fin 128) (s : State) : Answer := .next (hostArrive (.read (s.pageLine page)) s)

def TxClass.isFresh : TxClass → Bool
  | .fresh _ _ => true
  | _ => false

/-- FRESH_READ (R67, R159): a read of a line that a FRESH entry covers. -/
def execFreshRead (line : HostLine) (s : State) : Answer :=
  .next (if (classify (64 * line.toNat) s).isFresh then hostArrive (.read line) s else s)

/-- HOST_WRITE (R152, R154). -/
def execHostWrite (line : HostLine) (data : BitVec 512) (enables : BitVec 64) (s : State) : Answer :=
  .next (hostArrive (.write line data enables) s)

/-- HELD_TRANSACTION (R141, R153): a transaction arrives while the port holds. -/
def execHeldTransaction (tx : HostTx) (s : State) : Answer :=
  .next (if s.hmp.hold = .none then s else hostArrive tx s)

/-- SENSOR_RING_CONSUME_WRITE (R65, R174). -/
def execSensorRingConsumeWrite (ring : Fin 8) (value : U32) (enables : BitVec 4) (s : State) : Answer :=
  .next (liveWrite (.sensorConsume ring) value enables s)

/-- MESSAGE_RING_CONSUME_WRITE (R86, R174). -/
def execMessageRingConsumeWrite (value : U32) (enables : BitVec 4) (s : State) : Answer :=
  .next (liveWrite .messageConsume value enables s)

/-- AUDIO_RING1_PRODUCE_WRITE (R106, R174). -/
def execAudioRing1ProduceWrite (value : U32) (enables : BitVec 4) (s : State) : Answer :=
  .next (liveWrite .ring1Produce value enables s)

/-- AUDIO_RING2_CONSUME_WRITE (R107, R174). -/
def execAudioRing2ConsumeWrite (value : U32) (enables : BitVec 4) (s : State) : Answer :=
  .next (liveWrite .ring2Consume value enables s)

/-- FENCE_WORD_WRITE (R7, R174). -/
def execFenceWordWrite (surface : Fin 6) (value : U32) (enables : BitVec 4) (s : State) : Answer :=
  .next (liveWrite (.fence surface) value enables s)

end Sys2Proof.Machine
end

