-- ==== Sys2Proof/Machine/ArmCmds.lean ====
section
/-!
DEFINITION. The meanings of the record arms: each is the host line write of a record (log 12), so that it goes through the port, the shadow and the outcome table like any other (R171, R172).
-/
namespace Sys2Proof.Machine

/-- Fields of a surface record with the given command byte (R186). -/
def withCommand (command : Byte) (fields : List Byte) : List Byte := (padTo 28 fields).set 17 command

/-- A command byte and an arm sequence of a surface record, by offset in their line: the command byte alone is written,
so that the other fields stay as the shadow holds them (log 12). -/
def commandBytes (n : Fin 6) (command : Byte) (seq : U32) : List (Nat × Byte) :=
  let k := RecordKind.surface n
  (k.offset % 64 + 17, command) :: enumFrom (k.seqOffset % 64) (toBytes 4 seq.toNat)

/-- The host line write of a surface command. -/
def commandTx (n : Fin 6) (command : Byte) (seq : U32) (s : State) : HostTx :=
  let bytes := commandBytes n command seq
  .write (BitVec.ofNat 25 ((s.planBase + (RecordKind.surface n).seqOffset) / 64)) (lineData bytes) (lineEnables bytes)

/-- REGION_RECORD_ARM (R157). -/
def execRegionRecordArm (n : Fin 32) (fields : List Byte) (seq : U32) (s : State) : Answer :=
  .next (armRecord (.region n) fields seq s)

/-- SURFACE_CONFIGURE (R1). -/
def execSurfaceConfigure (n : Fin 6) (fields : List Byte) (seq : U32) (s : State) : Answer :=
  .next (armRecord (.surface n) (withCommand 0 fields) seq s)

/-- SURFACE_OPEN (R3). -/
def execSurfaceOpen (n : Fin 6) (seq : U32) (s : State) : Answer := .next (hostArrive (commandTx n 1 seq s) s)

/-- SURFACE_RELEASE (R4). -/
def execSurfaceRelease (n : Fin 6) (seq : U32) (s : State) : Answer := .next (hostArrive (commandTx n 2 seq s) s)

/-- TIMING_SET_ARM (R24, R25, R27). -/
def execTimingSetArm (fields : List Byte) (seq : U32) (s : State) : Answer := .next (armRecord .timing fields seq s)

/-- PRESENT_SLOT_ARM (R9). -/
def execPresentSlotArm (n : Fin 4) (fields : List Byte) (seq : U32) (s : State) : Answer :=
  .next (armRecord (.present n) fields seq s)

/-- SENSOR_CHANNEL_ARM (R50). -/
def execSensorChannelArm (n : Fin 4) (fields : List Byte) (seq : U32) (s : State) : Answer :=
  .next (armRecord (.channel n) fields seq s)

/-- ROUTING_RULE_ARM (R59). -/
def execRoutingRuleArm (n : Fin 16) (fields : List Byte) (seq : U32) (s : State) : Answer :=
  .next (armRecord (.rule n) fields seq s)

/-- SENSOR_RING_ARM (R63). -/
def execSensorRingArm (n : Fin 8) (fields : List Byte) (seq : U32) (s : State) : Answer :=
  .next (armRecord (.sensorRing n) fields seq s)

/-- AUDIO_RING_ARM (R103). -/
def execAudioRingArm (n : Fin 3) (fields : List Byte) (seq : U32) (s : State) : Answer :=
  .next (armRecord (.audioRing n) fields seq s)

/-- AUDIO_OUTPUT_ARM (R111). -/
def execAudioOutputArm (fields : List Byte) (seq : U32) (s : State) : Answer :=
  .next (armRecord .audioOut fields seq s)

/-- MESSAGE_RING_ARM (R84). -/
def execMessageRingArm (fields : List Byte) (seq : U32) (s : State) : Answer :=
  .next (armRecord .messageRing fields seq s)

/-- MESSAGE_SLOT_ARM (R97). -/
def execMessageSlotArm (n : Fin 3) (fields : List Byte) (seq : U32) (s : State) : Answer :=
  .next (armRecord (.messageSlot n) fields seq s)

/-- TRIGGER_RECORD_ARM (R127): the fields stand in the record's first line, written before. -/
def execTriggerRecordArm (seq : U32) (s : State) : Answer := .next (armRecord .trigger [] seq s)

/-- BEACON_RECORD_ARM (R129). -/
def execBeaconRecordArm (n : Fin 2) (fields : List Byte) (seq : U32) (s : State) : Answer :=
  .next (armRecord (.beacon n) fields seq s)

/-- TIME_RECORD_ARM (R120). -/
def execTimeRecordArm (fields : List Byte) (seq : U32) (s : State) : Answer := .next (armRecord .time fields seq s)

/-- A power record arm with a request code and the settings bytes from offset 1. -/
def armPower (request : Byte) (settings : List Byte) (seq : U32) (s : State) : State :=
  armRecord .power (request :: settings.take 7) seq s

/-- POWER_REQUEST_NONE (R137). -/
def execPowerRequestNone (settings : List Byte) (seq : U32) (s : State) : Answer := .next (armPower 0 settings seq s)

/-- POWER_REQUEST_ACTIVE (R137, R138). -/
def execPowerRequestActive (settings : List Byte) (seq : U32) (s : State) : Answer := .next (armPower 1 settings seq s)

/-- POWER_REQUEST_DIMMED (R137, R138). -/
def execPowerRequestDimmed (settings : List Byte) (seq : U32) (s : State) : Answer := .next (armPower 2 settings seq s)

/-- POWER_REQUEST_STANDBY (R137, R140). -/
def execPowerRequestStandby (settings : List Byte) (seq : U32) (s : State) : Answer := .next (armPower 3 settings seq s)

/-- POWER_REQUEST_OFF (R137, R143). -/
def execPowerRequestOff (settings : List Byte) (seq : U32) (s : State) : Answer := .next (armPower 4 settings seq s)

/-- An event record's fields (R186). -/
def eventFields (enable ack : U32) (eos : Byte) : List Byte :=
  toBytes 4 enable.toNat ++ toBytes 4 ack.toNat ++ [eos]

/-- EVENT_RECORD_ARM with end-of-service no (R181). -/
def execEventRecordArm (enable ack : U32) (seq : U32) (s : State) : Answer :=
  .next (armRecord .event (eventFields enable ack 0) seq s)

/-- END_OF_SERVICE: an event record arm with end-of-service yes (R181, R182). -/
def execEndOfService (enable ack : U32) (seq : U32) (s : State) : Answer :=
  .next (armRecord .event (eventFields enable ack 1) seq s)

/-- PART_RECORD_ARM with soft reset no (R176). -/
def execPartRecordArm (seq : U32) (s : State) : Answer := .next (armRecord .part [0] seq s)

/-- SOFT_RESET: a part record arm with soft reset yes (R176). -/
def execSoftReset (seq : U32) (s : State) : Answer := .next (armRecord .part [1] seq s)

end Sys2Proof.Machine
end

