-- ==== Sys2Proof/Machine/ScanCmds.lean ====
section
/-!
DEFINITION. The meanings of the scan-out and strobe events (chapter 2).
-/
namespace Sys2Proof.Machine

/-- A phase of a running frame whose timer has run out. -/
def So.phaseEnds (o : So) (p : Phase) : Bool := o.state == .running && o.phase == p && due o.phaseTimer

/-- SCAN_END (R30). -/
def execScanEnd (s : State) : Answer := .next (if s.so.phaseEnds .scan then drain (scanEnds s) else s)

/-- STROBE_BEGIN (R30, R41). -/
def execStrobeBegin (s : State) : Answer := .next (if s.so.phaseEnds .settle then drain (strobeBegins s) else s)

/-- LIGHT_WINDOW_END (R41). -/
def execLightWindowEnd (s : State) : Answer :=
  .next (if due s.so.light then s.onSo fun o => { o with light := none } else s)

/-- STROBE_END (R30). -/
def execStrobeEnd (s : State) : Answer := .next (if s.so.phaseEnds .strobe then drain (strobeEnds s) else s)

/-- MINIMUM_DARK_END (R30): an active FRAME_START level makes a boundary at this moment (R34). -/
def execMinimumDarkEnd (s : State) : Answer :=
  .next (if due s.so.darkTimer then drain (s.onSo fun o => { o with darkTimer := none }) else s)

/-- FRAME_PERIOD_EXPIRY (R33, R36, R37). -/
def execFramePeriodExpiry (s : State) : Answer :=
  .next (if s.so.afterDark && due s.so.periodTimer then drain (boundaryMoment false s) else s)

/-- SYNC_LOSS_EXPIRY (R36, R37). -/
def execSyncLossExpiry (s : State) : Answer :=
  .next (if s.so.afterDark && due s.so.syncTimer then drain (syncLost s) else s)

/-- The band start due on a panel's schedule. -/
def So.dueBand (o : So) (panel : Side) : Option Schedule :=
  (o.schedules.find? (·.panel == panel)).filter o.bandDue

/-- BAND_START (R38, R39). -/
def execBandStart (panel : Side) (s : State) : Answer :=
  .next (match s.so.dueBand panel with
    | some c => bandStarts c s
    | none => s)

end Sys2Proof.Machine
end

