-- ==== Sys2Proof/Machine/SensorCmds.lean ====
section
/-!
DEFINITION. The meanings of the sync inputs, the sensor events and the beacon and sync output timers (chapters 3 and 6).
-/
namespace Sys2Proof.Machine

/-- SYNC_IN_CHANGE (R125, R126). -/
def execSyncInChange (pin : Fin 2) (level : Bool) (s : State) : Answer :=
  let bit := BitVec.twoPow 2 pin.val
  .next (drain (s.onPins fun p => { p with sync := if level then p.sync ||| bit else p.sync &&& ~~~bit }))

/-- A data-ready input goes from low to high (R52). -/
def drdyRises (ch : Fin 4) (s : State) : State :=
  let s := s.onPins fun p => { p with drdy := p.drdy ||| BitVec.twoPow 4 ch.val }
  if (s.channel ch).config.mode = .dataReady then becomeDue ch s else s

/-- SB_DRDY_RISE (R52, R53). -/
def execSbDrdyRise (ch : Fin 4) (s : State) : Answer :=
  .next (if s.pins.drdy.getLsbD ch.val then s else drain (drdyRises ch s))

/-- SENSOR_INTERVAL_EXPIRY (R52). -/
def execSensorIntervalExpiry (ch : Fin 4) (s : State) : Answer :=
  .next (if due (s.channel ch).timer then drain (intervalExpired ch s) else s)

/-- The presence report of a completed transfer reaches the power controller (R69). -/
def transferAndReport (t : Transfer) (din : List Byte) (s : State) : State :=
  let (report, s) := transferDone t din s
  match report with
  | some v => presenceReport v s
  | none => s

/-- SENSOR_TRANSFER_COMPLETE (R55, R56). -/
def execSensorTransferComplete (din : List Byte) (s : State) : Answer :=
  .next (match s.sh.bus with
    | some t => if t.left = 0 then drain (transferAndReport t din s) else s
    | none => s)

/-- A generator's timer has run out in a state. -/
def State.beaconEnds (s : State) (n : Fin 2) (x : BeaconState) : Bool :=
  (vget s.tm.beacons n).state == x && due (vget s.tm.beacons n).timer

/-- BEACON_DELAY_EXPIRY (R130). -/
def execBeaconDelayExpiry (n : Fin 2) (s : State) : Answer :=
  .next (if s.beaconEnds n .delay then drain (s.onBeacon n Beacon.enterPulse) else s)

/-- BEACON_WIDTH_EXPIRY (R130). -/
def execBeaconWidthExpiry (n : Fin 2) (s : State) : Answer :=
  .next (if s.beaconEnds n .pulse then drain (s.onBeacon n Beacon.goIdle) else s)

/-- SYNC_OUT_FOLLOW_END (R128). -/
def execSyncOutFollowEnd (n : Fin 2) (s : State) : Answer :=
  .next (if due (vget s.tm.outs n).follow then
      s.onTm fun t => { t with outs := vmod t.outs n fun o => { o with follow := none } }
    else s)

end Sys2Proof.Machine
end

