-- ==== Sys2Proof/Machine/TetherCmds.lean ====
section
/-!
DEFINITION. The meanings of the tether events and downlink packets (chapter 4).
-/
namespace Sys2Proof.Machine

/-- A rise of CABLE_PRESENT (R74). -/
def cableRises (s : State) : State :=
  let s := s.onPins fun p => { p with cable := true }
  if s.coreLive ∧ s.tc.link = .down then startTraining s else s

/-- CABLE_PRESENT_RISE (R74). -/
def execCablePresentRise (s : State) : Answer := .next (if s.pins.cable then s else cableRises s)

/-- A fall of CABLE_PRESENT (R73, R74, R77). -/
def cableFalls (s : State) : State :=
  let s := s.onPins fun p => { p with cable := false }
  match s.tc.link with
  | .down => s.onTc fun t => { t with retry := none }
  | .training => trainingLost s
  | .up => drain (enterDown s)
  | .recovery => enterDown s

/-- CABLE_PRESENT_FALL (R73, R77). -/
def execCablePresentFall (s : State) : Answer := .next (if s.pins.cable then cableFalls s else s)

/-- RETRY_TIMER_EXPIRY (R74). -/
def execRetryTimerExpiry (s : State) : Answer :=
  .next (if s.tc.link = .down ∧ due s.tc.retry then startTraining s else s)

/-- TRAINING_COMPLETE (R74). -/
def execTrainingComplete (s : State) : Answer :=
  .next (if s.tc.link = .training then drain (trainingDone s) else s)

/-- TRAINING_TIMER_EXPIRY (R74). -/
def execTrainingTimerExpiry (s : State) : Answer :=
  .next (if s.tc.link = .training ∧ due s.tc.training then trainingLost s else s)

/-- RECEIVE_TIMER_EXPIRY (R75, R76). -/
def execReceiveTimerExpiry (s : State) : Answer :=
  .next (if s.tc.link = .up ∧ due s.tc.receive then drain (enterRecovery s) else s)

/-- RECOVERY_COMPLETE (R76). -/
def execRecoveryComplete (s : State) : Answer :=
  .next (if s.tc.link = .recovery then drain (recoveryDone s) else s)

/-- RECOVERY_TIMER_EXPIRY (R76, R77). -/
def execRecoveryTimerExpiry (s : State) : Answer :=
  .next (if s.tc.link = .recovery ∧ due s.tc.recovery then enterDown s else s)

/-- IDLE_TIMER_EXPIRY (R75): the KEEPALIVE request is set and sent. -/
def execIdleTimerExpiry (s : State) : Answer :=
  .next (if s.tc.link = .up ∧ due s.tc.idle then
      laneKick (s.onTc fun t => { t with keepRequest := true, idle := none })
    else s)

/-- A packet that the buffer has no room for. -/
def State.mustPause (s : State) (raw : List Byte) : Bool := decide (s.depositRoom < roomOf raw)

/-- DOWNLINK_PAUSE (R81): a packet that needs more room than is free. -/
def execDownlinkPause (raw : List Byte) (s : State) : Answer :=
  .next (if s.mustPause raw then arrive (roomOf raw) (readPacket raw) s else s)

/-- DOWNLINK_INVALID_PACKET (R78): a packet that fails the CRC or the format check. -/
def execDownlinkInvalidPacket (raw : List Byte) (s : State) : Answer :=
  .next (if readPacket raw = .badCrc ∨ readPacket raw = .badFormat then arrive (roomOf raw) (readPacket raw) s else s)

/-- KEEPALIVE (R75, R80). -/
def execKeepalive (s : State) : Answer := .next (arrive 0 .keepalive s)

/-- ACK (R95). -/
def execAck (photon sensor message : AckField) (s : State) : Answer := .next (arrive 0 (.ack photon sensor message) s)

/-- FRAME_BEGIN (R17, R18, R79). -/
def execFrameBegin (seq : U16) (fields : FrameBegin) (s : State) : Answer := .next (arrive 0 (.frameBegin seq fields) s)

/-- SLICE (R82). -/
def execSlice (fields : Slice) (s : State) : Answer :=
  .next (arrive (8 + fields.pixels.length) (slicePacket fields) s)

/-- FRAME_END (R20, R79). -/
def execFrameEnd (seq : U16) (tag : U32) (s : State) : Answer := .next (arrive 0 (.frameEnd seq tag) s)

/-- AUDIO (R83). -/
def execAudio (frames : List U32) (s : State) : Answer :=
  .next (arrive (4 * frames.length) (audioPacket frames) s)

/-- MESSAGE (R79, R85). -/
def execMessage (seq : U16) (bytes : List Byte) (s : State) : Answer :=
  .next (arrive bytes.length (messagePacket seq bytes) s)

/-- TIME (R87). -/
def execTime (console : U64) (s : State) : Answer := .next (arrive 0 (.time console) s)

/-- WAKE (R79, R88). -/
def execWake (seq : U16) (s : State) : Answer := .next (arrive 0 (.wake seq) s)

/-- UPLINK_TRANSMISSION_COMPLETE (R93). -/
def execUplinkTransmissionComplete (s : State) : Answer :=
  .next (match s.tc.lane with
    | .sending packet entry left => if left = 0 then sendDone packet entry s else s
    | _ => s)

/-- ACK_TIMER_EXPIRY (R96). -/
def execAckTimerExpiry (cls : Fin 3) (s : State) : Answer :=
  .next (if s.tc.link = .up ∧ due (vget s.tc.ackTimers cls) then drain (ackExpired cls s) else s)

end Sys2Proof.Machine
end

