-- ==== Sys2Proof/Machine/TimeCmds.lean ====
section
/-!
DEFINITION. The meanings of the audio boundaries, the microsecond step, the time crossing and the attention gap (chapters 5, 6 and 10).
-/
namespace Sys2Proof.Machine

/-- AUDIO_PERIOD_BOUNDARY (R108). -/
def execAudioPeriodBoundary (pdm : List U64) (s : State) : Answer :=
  .next (if s.au.running && due s.au.timer then drain (audioBoundary (some pdm) s) else s)

/-- PWM_PERIOD_BOUNDARY (R114). -/
def execPwmPeriodBoundary (s : State) : Answer := .next (if s.au.pwmDue then s.onAu Au.pwmBoundary else s)

/-- MICROSECOND_STEP (R119, R123). -/
def execMicrosecondStep (lows : PinLows) (s : State) : Answer := .next (microsecond lows s)

/-- DEVICE_TIME_WRAP (R119): the microsecond step from FFFFFFFFFFh. -/
def execDeviceTimeWrap (lows : PinLows) (s : State) : Answer :=
  .next (if s.tb.now.time = 0xFFFFFFFFFF then microsecond lows s else s)

/-- TIME_CROSSING_COMPLETE (R120, R121): 20 µs after the arm or later (log 23). -/
def execTimeCrossingComplete (s : State) : Answer :=
  .next (match s.tb.holding with
    | some a => if 20 ≤ a.age then crossingDone a s else s
    | none => s)

/-- ATTN_GAP_END (R182). -/
def execAttnGapEnd (s : State) : Answer := .next (if due s.eu.gap then s.onEu fun e => { e with gap := none } else s)

end Sys2Proof.Machine
end

