-- ==== Sys2Proof/Machine/MemoryCmds.lean ====
section
/-!
DEFINITION. The meanings of the DRAM completion rows (R160): each completes the request in service when it is one of its own.
-/
namespace Sys2Proof.Machine

/-- PLAN_INITIALIZATION_COMPLETE (R175): the last image write. -/
def execPlanInitializationComplete (ecc : EccReport) (s : State) : Answer :=
  completeService (fun s r => r.agent == .planInit && decide (s.pu.initLeft ≤ 1)) ecc s

/-- HOST_READ_COMPLETE (R152, R164). -/
def execHostReadComplete (ecc : EccReport) (s : State) : Answer :=
  completeService (fun _ r => match r.agent with
    | .hostRead _ => true
    | _ => false) ecc s

/-- HOST_WRITE_COMPLETE (R152, R160, R163): a host write, or an image write before the last. -/
def execHostWriteComplete (ecc : EccReport) (s : State) : Answer :=
  completeService (fun s r => r.agent == .hostWrite || (r.agent == .planInit && decide (1 < s.pu.initLeft))) ecc s

/-- SCRUB_COMPLETE (R165). -/
def execScrubComplete (ecc : EccReport) (s : State) : Answer :=
  completeService (fun _ r => r.agent == .scrub) ecc s

/-- BAND_READ_COMPLETE (R39, R40). -/
def execBandReadComplete (ecc : EccReport) (s : State) : Answer :=
  completeService (fun _ r => match r.agent with
    | .band _ => true
    | _ => false) ecc s

/-- SENSOR_RING_WRITE_COMPLETE (R64). -/
def execSensorRingWriteComplete (ecc : EccReport) (s : State) : Answer :=
  completeService (fun _ r => match r.agent with
    | .sensorRing _ _ _ => true
    | _ => false) ecc s

/-- DEPOSIT_WRITE_COMPLETE (R19, R81, R105). -/
def execDepositWriteComplete (ecc : EccReport) (s : State) : Answer :=
  completeService (fun _ r => match r.agent with
    | .deposit _ _ => true
    | _ => false) ecc s

/-- MESSAGE_ENTRY_WRITE_COMPLETE (R85). -/
def execMessageEntryWriteComplete (ecc : EccReport) (s : State) : Answer :=
  completeService (fun _ r => match r.agent with
    | .messageEntry _ _ _ => true
    | _ => false) ecc s

/-- MESSAGE_READ_COMPLETE (R93). -/
def execMessageReadComplete (ecc : EccReport) (s : State) : Answer :=
  completeService (fun _ r => match r.agent with
    | .messageRead _ => true
    | _ => false) ecc s

/-- AUDIO_FETCH_COMPLETE (R109). -/
def execAudioFetchComplete (ecc : EccReport) (s : State) : Answer :=
  completeService (fun _ r => match r.agent with
    | .fetch _ => true
    | _ => false) ecc s

/-- CAPTURE_WRITE_COMPLETE (R115). -/
def execCaptureWriteComplete (ecc : EccReport) (s : State) : Answer :=
  completeService (fun _ r => match r.agent with
    | .capture _ => true
    | _ => false) ecc s

end Sys2Proof.Machine
end

