-- ==== Sys2Proof/Machine/Dispatch.lean ====
section
/-! DEFINITION. The dispatch: one arm per command, each one call of its meaning. -/
namespace Sys2Proof.Machine

def exec (i : Instr) (s : State) : Host.Outcome State Fault Refusal :=
  match i with
  | .powerOnReset => Sys2Proof.Machine.execPowerOnReset s
  | .coreSupplySettled planSel => Sys2Proof.Machine.execCoreSupplySettled planSel s
  | .railPowerGoodRise r => Sys2Proof.Machine.execRailPowerGoodRise r s
  | .railBringUpTimerExpiry => Sys2Proof.Machine.execRailBringUpTimerExpiry s
  | .railPowerGoodFall r => Sys2Proof.Machine.execRailPowerGoodFall r s
  | .railOffTimerExpiry => Sys2Proof.Machine.execRailOffTimerExpiry s
  | .planInitializationComplete ecc => Sys2Proof.Machine.execPlanInitializationComplete ecc s
  | .hostRead line => Sys2Proof.Machine.execHostRead line s
  | .statusPageRead page => Sys2Proof.Machine.execStatusPageRead page s
  | .freshRead line => Sys2Proof.Machine.execFreshRead line s
  | .hostWrite line data enables => Sys2Proof.Machine.execHostWrite line data enables s
  | .heldTransaction tx => Sys2Proof.Machine.execHeldTransaction tx s
  | .sensorRingConsumeWrite ring value enables => Sys2Proof.Machine.execSensorRingConsumeWrite ring value enables s
  | .messageRingConsumeWrite value enables => Sys2Proof.Machine.execMessageRingConsumeWrite value enables s
  | .audioRing1ProduceWrite value enables => Sys2Proof.Machine.execAudioRing1ProduceWrite value enables s
  | .audioRing2ConsumeWrite value enables => Sys2Proof.Machine.execAudioRing2ConsumeWrite value enables s
  | .fenceWordWrite surface value enables => Sys2Proof.Machine.execFenceWordWrite surface value enables s
  | .regionRecordArm n fields seq => Sys2Proof.Machine.execRegionRecordArm n fields seq s
  | .surfaceConfigure n fields seq => Sys2Proof.Machine.execSurfaceConfigure n fields seq s
  | .surfaceOpen n seq => Sys2Proof.Machine.execSurfaceOpen n seq s
  | .surfaceRelease n seq => Sys2Proof.Machine.execSurfaceRelease n seq s
  | .timingSetArm fields seq => Sys2Proof.Machine.execTimingSetArm fields seq s
  | .presentSlotArm n fields seq => Sys2Proof.Machine.execPresentSlotArm n fields seq s
  | .sensorChannelArm n fields seq => Sys2Proof.Machine.execSensorChannelArm n fields seq s
  | .routingRuleArm n fields seq => Sys2Proof.Machine.execRoutingRuleArm n fields seq s
  | .sensorRingArm n fields seq => Sys2Proof.Machine.execSensorRingArm n fields seq s
  | .audioRingArm n fields seq => Sys2Proof.Machine.execAudioRingArm n fields seq s
  | .audioOutputArm fields seq => Sys2Proof.Machine.execAudioOutputArm fields seq s
  | .messageRingArm fields seq => Sys2Proof.Machine.execMessageRingArm fields seq s
  | .messageSlotArm n fields seq => Sys2Proof.Machine.execMessageSlotArm n fields seq s
  | .triggerRecordArm seq => Sys2Proof.Machine.execTriggerRecordArm seq s
  | .beaconRecordArm n fields seq => Sys2Proof.Machine.execBeaconRecordArm n fields seq s
  | .timeRecordArm fields seq => Sys2Proof.Machine.execTimeRecordArm fields seq s
  | .powerRequestNone settings seq => Sys2Proof.Machine.execPowerRequestNone settings seq s
  | .powerRequestActive settings seq => Sys2Proof.Machine.execPowerRequestActive settings seq s
  | .powerRequestDimmed settings seq => Sys2Proof.Machine.execPowerRequestDimmed settings seq s
  | .powerRequestStandby settings seq => Sys2Proof.Machine.execPowerRequestStandby settings seq s
  | .powerRequestOff settings seq => Sys2Proof.Machine.execPowerRequestOff settings seq s
  | .eventRecordArm enable ack seq => Sys2Proof.Machine.execEventRecordArm enable ack seq s
  | .endOfService enable ack seq => Sys2Proof.Machine.execEndOfService enable ack seq s
  | .partRecordArm seq => Sys2Proof.Machine.execPartRecordArm seq s
  | .softReset seq => Sys2Proof.Machine.execSoftReset seq s
  | .scanEnd => Sys2Proof.Machine.execScanEnd s
  | .strobeBegin => Sys2Proof.Machine.execStrobeBegin s
  | .lightWindowEnd => Sys2Proof.Machine.execLightWindowEnd s
  | .strobeEnd => Sys2Proof.Machine.execStrobeEnd s
  | .minimumDarkEnd => Sys2Proof.Machine.execMinimumDarkEnd s
  | .framePeriodExpiry => Sys2Proof.Machine.execFramePeriodExpiry s
  | .syncLossExpiry => Sys2Proof.Machine.execSyncLossExpiry s
  | .bandStart panel => Sys2Proof.Machine.execBandStart panel s
  | .bandReadComplete ecc => Sys2Proof.Machine.execBandReadComplete ecc s
  | .syncInChange pin level => Sys2Proof.Machine.execSyncInChange pin level s
  | .sbDrdyRise ch => Sys2Proof.Machine.execSbDrdyRise ch s
  | .sensorIntervalExpiry ch => Sys2Proof.Machine.execSensorIntervalExpiry ch s
  | .sensorTransferComplete din => Sys2Proof.Machine.execSensorTransferComplete din s
  | .sensorRingWriteComplete ecc => Sys2Proof.Machine.execSensorRingWriteComplete ecc s
  | .cablePresentRise => Sys2Proof.Machine.execCablePresentRise s
  | .cablePresentFall => Sys2Proof.Machine.execCablePresentFall s
  | .retryTimerExpiry => Sys2Proof.Machine.execRetryTimerExpiry s
  | .trainingComplete => Sys2Proof.Machine.execTrainingComplete s
  | .trainingTimerExpiry => Sys2Proof.Machine.execTrainingTimerExpiry s
  | .receiveTimerExpiry => Sys2Proof.Machine.execReceiveTimerExpiry s
  | .recoveryComplete => Sys2Proof.Machine.execRecoveryComplete s
  | .recoveryTimerExpiry => Sys2Proof.Machine.execRecoveryTimerExpiry s
  | .idleTimerExpiry => Sys2Proof.Machine.execIdleTimerExpiry s
  | .downlinkPause raw => Sys2Proof.Machine.execDownlinkPause raw s
  | .downlinkInvalidPacket raw => Sys2Proof.Machine.execDownlinkInvalidPacket raw s
  | .keepalive => Sys2Proof.Machine.execKeepalive s
  | .ack photon sensor message => Sys2Proof.Machine.execAck photon sensor message s
  | .frameBegin seq fields => Sys2Proof.Machine.execFrameBegin seq fields s
  | .slice fields => Sys2Proof.Machine.execSlice fields s
  | .frameEnd seq tag => Sys2Proof.Machine.execFrameEnd seq tag s
  | .audio frames => Sys2Proof.Machine.execAudio frames s
  | .message seq bytes => Sys2Proof.Machine.execMessage seq bytes s
  | .time console => Sys2Proof.Machine.execTime console s
  | .wake seq => Sys2Proof.Machine.execWake seq s
  | .depositWriteComplete ecc => Sys2Proof.Machine.execDepositWriteComplete ecc s
  | .messageEntryWriteComplete ecc => Sys2Proof.Machine.execMessageEntryWriteComplete ecc s
  | .uplinkTransmissionComplete => Sys2Proof.Machine.execUplinkTransmissionComplete s
  | .messageReadComplete ecc => Sys2Proof.Machine.execMessageReadComplete ecc s
  | .ackTimerExpiry cls => Sys2Proof.Machine.execAckTimerExpiry cls s
  | .audioPeriodBoundary pdm => Sys2Proof.Machine.execAudioPeriodBoundary pdm s
  | .pwmPeriodBoundary => Sys2Proof.Machine.execPwmPeriodBoundary s
  | .audioFetchComplete ecc => Sys2Proof.Machine.execAudioFetchComplete ecc s
  | .captureWriteComplete ecc => Sys2Proof.Machine.execCaptureWriteComplete ecc s
  | .deviceTimeWrap lows => Sys2Proof.Machine.execDeviceTimeWrap lows s
  | .timeCrossingComplete => Sys2Proof.Machine.execTimeCrossingComplete s
  | .beaconDelayExpiry n => Sys2Proof.Machine.execBeaconDelayExpiry n s
  | .beaconWidthExpiry n => Sys2Proof.Machine.execBeaconWidthExpiry n s
  | .syncOutFollowEnd n => Sys2Proof.Machine.execSyncOutFollowEnd n s
  | .attnGapEnd => Sys2Proof.Machine.execAttnGapEnd s
  | .buttonPress => Sys2Proof.Machine.execButtonPress s
  | .buttonRelease => Sys2Proof.Machine.execButtonRelease s
  | .buttonOverrideExpiry => Sys2Proof.Machine.execButtonOverrideExpiry s
  | .thermAlertAssertion => Sys2Proof.Machine.execThermAlertAssertion s
  | .thermAlertDeassertion => Sys2Proof.Machine.execThermAlertDeassertion s
  | .thermalTimerExpiry => Sys2Proof.Machine.execThermalTimerExpiry s
  | .thermCritAssertion => Sys2Proof.Machine.execThermCritAssertion s
  | .mainOkFall => Sys2Proof.Machine.execMainOkFall s
  | .mainOkRise => Sys2Proof.Machine.execMainOkRise s
  | .dramDrainComplete => Sys2Proof.Machine.execDramDrainComplete s
  | .selfRefreshEntered => Sys2Proof.Machine.execSelfRefreshEntered s
  | .selfRefreshExitComplete => Sys2Proof.Machine.execSelfRefreshExitComplete s
  | .hostReadComplete ecc => Sys2Proof.Machine.execHostReadComplete ecc s
  | .hostWriteComplete ecc => Sys2Proof.Machine.execHostWriteComplete ecc s
  | .scrubComplete ecc => Sys2Proof.Machine.execScrubComplete ecc s
  | .microsecondStep lows => Sys2Proof.Machine.execMicrosecondStep lows s

end Sys2Proof.Machine
end

