-- ==== Sys2Proof/WellFormed.lean ====
section
/-!
DEFINITION. Which commands are well formed: the operands a moment can supply. Every number's range is already in its
type; what is left is the length of byte strings and that a report names a word once.
-/
namespace Sys2Proof

/-- A report names each word of the line at most once. -/
def EccReport.ok (ecc : EccReport) : Bool := decide (ecc.map (·.1)).Nodup

/-- The field bytes of a record before its arm sequence: 28 for a record of 32 bytes (R186). -/
def fieldsOk (size : Nat) (fields : List Byte) : Bool := fields.length + 4 == size

/-- A packet has a header of 8 bytes and a trailer of 4 (R189). -/
def packetOk (raw : List Byte) : Bool := decide (12 ≤ raw.length)

/-- The operands of a command are ones its moment can supply. -/
def Instr.wellFormed : Instr → Bool
  | .planInitializationComplete ecc => ecc.ok
  | .regionRecordArm _ fields _ => fieldsOk 32 fields
  | .surfaceConfigure _ fields _ => fieldsOk 32 fields
  | .timingSetArm fields _ => fieldsOk 64 fields
  | .presentSlotArm _ fields _ => fieldsOk 32 fields
  | .sensorChannelArm _ fields _ => fieldsOk 64 fields
  | .routingRuleArm _ fields _ => fieldsOk 16 fields
  | .sensorRingArm _ fields _ => fieldsOk 32 fields
  | .audioRingArm _ fields _ => fieldsOk 32 fields
  | .audioOutputArm fields _ => fieldsOk 32 fields
  | .messageRingArm fields _ => fieldsOk 32 fields
  | .messageSlotArm _ fields _ => fieldsOk 32 fields
  | .beaconRecordArm _ fields _ => fieldsOk 32 fields
  | .timeRecordArm fields _ => fieldsOk 32 fields
  | .powerRequestNone settings _ => settings.length == 7
  | .powerRequestActive settings _ => settings.length == 7
  | .powerRequestDimmed settings _ => settings.length == 7
  | .powerRequestStandby settings _ => settings.length == 7
  | .powerRequestOff settings _ => settings.length == 7
  | .bandReadComplete ecc => ecc.ok
  | .sensorTransferComplete din => decide (1 ≤ din.length ∧ din.length ≤ 16)
  | .sensorRingWriteComplete ecc => ecc.ok
  | .downlinkPause raw => packetOk raw
  | .downlinkInvalidPacket raw => packetOk raw
  | .slice fields => decide (fields.pixels.length ≤ 16376)
  | .audio frames => decide (1 ≤ frames.length ∧ frames.length ≤ 4096)
  | .message _ bytes => decide (bytes.length ≤ 16384)
  | .depositWriteComplete ecc => ecc.ok
  | .messageEntryWriteComplete ecc => ecc.ok
  | .messageReadComplete ecc => ecc.ok
  | .audioPeriodBoundary pdm => pdm.length == 16
  | .audioFetchComplete ecc => ecc.ok
  | .captureWriteComplete ecc => ecc.ok
  | .hostReadComplete ecc => ecc.ok
  | .hostWriteComplete ecc => ecc.ok
  | .scrubComplete ecc => ecc.ok
  | _ => true

end Sys2Proof
end

