-- ==== Sys2Proof/Safety.lean ====
section
/-!
DEFINITION. What counts as a good state and a safe run, in the terms the statements use: situations of the port and
the trigger matrix, what a live word's line write and a resend of the uplink do, how jobs in order are counted off, the
records that commands arm, the field map of the status page, the shape of the memory, the bounds of the lists, the
agreement of frames and surfaces, and the part at rest in standby.
-/
namespace Sys2Proof.Machine

/-! ### Situations -/

/-- The host memory port takes a transaction as it comes: it is open, holds nothing, nothing waits at the pins, and a
place is free (R152, R153). -/
def State.taking (s : State) : Prop :=
  s.portOpen = true ∧ s.hmp.hold = .none ∧ s.hmp.atPins = [] ∧ s.places < 16

/-- Nothing is left for the trigger matrix and the sensor bus to deliver (R126). -/
def State.quiet (s : State) : Prop := drainOnce s = none ∧ cutCheck s = s

/-- A kind of event is pending. -/
def State.pendingEvent (s : State) (k : EventKind) : Bool := s.eu.pendingSet.getLsbD k.num.val

/-- The outcome table's entry of a record. -/
def State.entry (s : State) (k : RecordKind) : OutcomeEntry := vget s.pu.table k.index

/-- The value a write of a live word hands over: the enabled bytes over those of the shadow (R174). -/
def State.liveValue (s : State) (w : LiveWord) (v : U32) (enables : BitVec 4) : U32 :=
  BitVec.ofNat 32 (ofBytes ((List.range 4).map fun i =>
    if enables.getLsbD i then v.extractLsb' (8 * i) 8 else s.pu.shadow.read (w.offset + i)))

/-- What the line write of a live word does for itself (R170, R174): each enabled byte of the word takes its place in the
shadow, and every other byte there stays; the line write joins the DRAM's requests, unless it enables no byte and so
completes when it is chosen (R160). -/
def State.mergesWord (s : State) (w : LiveWord) (v : U32) (enables : BitVec 4) (t : State) : Prop :=
  (∀ i, t.pu.shadow.read i =
    if w.offset ≤ i ∧ i < w.offset + 4 ∧ enables.getLsbD (i - w.offset) = true then
      v.extractLsb' (8 * (i - w.offset)) 8
    else s.pu.shadow.read i) ∧
  (enables ≠ 0 → ⟨.hostWrite, (s.planBase + w.offset) / 64, .write (liveBytes w v enables)⟩ ∈ t.da.all)

/-- The state but for what a host write of the record area does to the DRAM's waiting requests and its service and to the
shadow, which are those of `t`: of the DRAM arbiter, the captures, their total and the error counts among what stays. -/
def State.writtenAs (s t : State) : State :=
  { s with da := { s.da with requests := t.da.requests, service := t.da.service }
           pu := { s.pu with shadow := t.pu.shadow } }

/-- The lane arbiter comes to a sequenced class's resends (R92, R99): the lane is free, no packet of class 0 is asked for,
the standby restriction is not in force, and no class before it has anything eligible: no entry marked for resend, and
none in the queue unless the history is full. -/
def Tc.reaches (t : Tc) (c : Fin 3) : Prop :=
  t.lane = .free ∧ t.ackRequest = false ∧ t.echoRequest = none ∧ t.keepRequest = false ∧ t.restricted = false ∧
  ∀ d, d < c → (∀ e ∈ vget t.history d, e.resend = false) ∧
    (t.historyFill < 16 → ∀ q ∈ t.queue, q.content.seqClass ≠ some d)

/-- Between `s` and `u` the oldest entry `e` of a class's history, marked for resend, has taken the lane, with `rest`
behind it (R92, R93): for a MESSAGE its line reads are made and the lane is held, the entry still marked; any other packet
is being sent again under its sequence with RESENT set, its mark cleared and its send count one higher. The idle timer is
stopped; that a MESSAGE stops it as its reads begin, and not as its transmission does (R75), is the model's inference
(log 29). -/
def State.resends (s : State) (c : Fin 3) (e : HistEntry) (rest : List HistEntry) (u : State) : Prop :=
  u.tc.idle = none ∧
  match e.content with
  | .message _ addr length =>
    vget u.tc.history c = e :: rest ∧ u.tc.resent = s.tc.resent ∧
    u.tc.lane = .reading e.id s.nextId (linesOf addr length).length [] false false ∧
    ∀ line ∈ linesOf addr length, ⟨.messageRead s.nextId, line, .read⟩ ∈ u.da.all
  | content =>
    let packet := uplinkPacket content.kind true false e.seq content.payload
    vget u.tc.history c = { e with resend := false, sends := e.sends + 1 } :: rest ∧
    u.tc.resent = vset s.tc.resent c (vget s.tc.resent c + 1) ∧ u.tc.lane = .sending packet e.id (laneTime packet)

/-- Of a list of jobs in order the leading ones that have no write left go, and the rest is kept. -/
def countsOff {α : Type} (left : α → Nat) (jobs gone kept : List α) : Prop :=
  jobs = gone ++ kept ∧ (∀ j ∈ gone, left j = 0) ∧ ∀ j, kept.head? = some j → left j ≠ 0

/-- The record a command arms and the arm sequence it writes (R171). -/
def armsOf : Instr → Option (RecordKind × U32)
  | .regionRecordArm n _ seq => some (.region n, seq)
  | .surfaceConfigure n _ seq => some (.surface n, seq)
  | .surfaceOpen n seq => some (.surface n, seq)
  | .surfaceRelease n seq => some (.surface n, seq)
  | .timingSetArm _ seq => some (.timing, seq)
  | .presentSlotArm n _ seq => some (.present n, seq)
  | .sensorChannelArm n _ seq => some (.channel n, seq)
  | .routingRuleArm n _ seq => some (.rule n, seq)
  | .sensorRingArm n _ seq => some (.sensorRing n, seq)
  | .audioRingArm n _ seq => some (.audioRing n, seq)
  | .audioOutputArm _ seq => some (.audioOut, seq)
  | .messageRingArm _ seq => some (.messageRing, seq)
  | .messageSlotArm n _ seq => some (.messageSlot n, seq)
  | .triggerRecordArm seq => some (.trigger, seq)
  | .beaconRecordArm n _ seq => some (.beacon n, seq)
  | .timeRecordArm _ seq => some (.time, seq)
  | .powerRequestNone _ seq => some (.power, seq)
  | .powerRequestActive _ seq => some (.power, seq)
  | .powerRequestDimmed _ seq => some (.power, seq)
  | .powerRequestStandby _ seq => some (.power, seq)
  | .powerRequestOff _ seq => some (.power, seq)
  | .eventRecordArm _ _ seq => some (.event, seq)
  | .endOfService _ _ seq => some (.event, seq)
  | .partRecordArm seq => some (.part, seq)
  | .softReset seq => some (.part, seq)
  | _ => none

/-- The bytes of its record's last line that a record arm writes, by their offset in the line: the fields but for a live
word, or the command byte alone of OPEN and RELEASE, and the arm sequence (R185, R186, log 12). -/
def armWrite : Instr → List (Nat × Byte)
  | .regionRecordArm n fields seq => armBytes (.region n) fields seq
  | .surfaceConfigure n fields seq => armBytes (.surface n) (withCommand 0 fields) seq
  | .surfaceOpen n seq => commandBytes n 1 seq
  | .surfaceRelease n seq => commandBytes n 2 seq
  | .timingSetArm fields seq => armBytes .timing fields seq
  | .presentSlotArm n fields seq => armBytes (.present n) fields seq
  | .sensorChannelArm n fields seq => armBytes (.channel n) fields seq
  | .routingRuleArm n fields seq => armBytes (.rule n) fields seq
  | .sensorRingArm n fields seq => armBytes (.sensorRing n) fields seq
  | .audioRingArm n fields seq => armBytes (.audioRing n) fields seq
  | .audioOutputArm fields seq => armBytes .audioOut fields seq
  | .messageRingArm fields seq => armBytes .messageRing fields seq
  | .messageSlotArm n fields seq => armBytes (.messageSlot n) fields seq
  | .triggerRecordArm seq => armBytes .trigger [] seq
  | .beaconRecordArm n fields seq => armBytes (.beacon n) fields seq
  | .timeRecordArm fields seq => armBytes .time fields seq
  | .powerRequestNone settings seq => armBytes .power (0 :: settings.take 7) seq
  | .powerRequestActive settings seq => armBytes .power (1 :: settings.take 7) seq
  | .powerRequestDimmed settings seq => armBytes .power (2 :: settings.take 7) seq
  | .powerRequestStandby settings seq => armBytes .power (3 :: settings.take 7) seq
  | .powerRequestOff settings seq => armBytes .power (4 :: settings.take 7) seq
  | .eventRecordArm enable ack seq => armBytes .event (eventFields enable ack 0) seq
  | .endOfService enable ack seq => armBytes .event (eventFields enable ack 1) seq
  | .partRecordArm seq => armBytes .part [0] seq
  | .softReset seq => armBytes .part [1] seq
  | _ => []

/-- The agents whose requests each DRAM completion command completes (R160); image writes are split by whether the
last of them is in service (R175). -/
def completes (s : State) : Instr → Agent → Bool
  | .planInitializationComplete _, .planInit => decide (s.pu.initLeft ≤ 1)
  | .hostWriteComplete _, .planInit => decide (1 < s.pu.initLeft)
  | .hostReadComplete _, .hostRead _ => true
  | .hostWriteComplete _, .hostWrite => true
  | .scrubComplete _, .scrub => true
  | .bandReadComplete _, .band _ => true
  | .sensorRingWriteComplete _, .sensorRing _ _ _ => true
  | .depositWriteComplete _, .deposit _ _ => true
  | .messageEntryWriteComplete _, .messageEntry _ _ _ => true
  | .messageReadComplete _, .messageRead _ => true
  | .audioFetchComplete _, .fetch _ => true
  | .captureWriteComplete _, .capture _ => true
  | _, _ => false

/-- The ECC report a completion command carries. -/
def reportOf : Instr → EccReport
  | .planInitializationComplete e => e
  | .hostWriteComplete e => e
  | .hostReadComplete e => e
  | .scrubComplete e => e
  | .bandReadComplete e => e
  | .sensorRingWriteComplete e => e
  | .depositWriteComplete e => e
  | .messageEntryWriteComplete e => e
  | .messageReadComplete e => e
  | .audioFetchComplete e => e
  | .captureWriteComplete e => e
  | _ => []

/-- The command answers a next state: a state with a property, after the deliveries that follow (R126). -/
def runsTo (c : Instr) (s : State) (P : State → Prop) : Prop := ∃ u, exec c s = .next (drain u) ∧ P u

/-- Line writes that lay a byte string into memory: byte `i` of it stands in one of them, at address `addr i`, and they
enable no other byte. -/
def laysBytes (writes : List (Nat × List (Nat × Byte))) (addr : Nat → Nat) (bytes : List Byte) : Prop :=
  (∀ i b, bytes[i]? = some b → ∃ w ∈ writes, w.1 = addr i / 64 ∧ (addr i % 64, b) ∈ w.2) ∧
  (∀ w ∈ writes, ∀ p ∈ w.2, ∃ i, bytes[i]? = some p.2 ∧ 64 * w.1 + p.1 = addr i)

/-- The arm of a record with this sequence was judged with this outcome (R172). -/
def State.judged (u : State) (k : RecordKind) (seq : U32) (o : Outcome) : Prop :=
  (u.entry k).lastSeen = seq ∧ (u.entry k).outcome = o

/-- A command can arm this record now: the port takes it as it comes, and the sequence is new (R171). -/
def State.arms (s : State) (k : RecordKind) (seq : U32) : Prop := s.taking ∧ seq ≠ (s.entry k).lastSeen

/-- TC receives a packet that needs this room as it comes (R78, R81). -/
def State.hears (s : State) (room : Nat) : Prop :=
  s.tc.link = .up ∧ s.tc.paused = none ∧ room ≤ s.depositRoom

/-- Commands of the scan-out, the sensors, the tether's lanes and timers, and the audio boundaries: no host transaction
is among them, and no DRAM completion, power command or step of time. -/
def eventCommand : Instr → Bool
  | .scanEnd => true
  | .strobeBegin => true
  | .lightWindowEnd => true
  | .strobeEnd => true
  | .minimumDarkEnd => true
  | .framePeriodExpiry => true
  | .syncLossExpiry => true
  | .bandStart _ => true
  | .syncInChange _ _ => true
  | .sbDrdyRise _ => true
  | .sensorIntervalExpiry _ => true
  | .sensorTransferComplete _ => true
  | .cablePresentRise => true
  | .cablePresentFall => true
  | .retryTimerExpiry => true
  | .trainingComplete => true
  | .trainingTimerExpiry => true
  | .receiveTimerExpiry => true
  | .recoveryComplete => true
  | .recoveryTimerExpiry => true
  | .idleTimerExpiry => true
  | .downlinkPause _ => true
  | .downlinkInvalidPacket _ => true
  | .keepalive => true
  | .ack _ _ _ => true
  | .frameBegin _ _ => true
  | .slice _ => true
  | .frameEnd _ _ => true
  | .audio _ => true
  | .message _ _ => true
  | .time _ => true
  | .wake _ => true
  | .uplinkTransmissionComplete => true
  | .ackTimerExpiry _ => true
  | .audioPeriodBoundary _ => true
  | .pwmPeriodBoundary => true
  | .beaconDelayExpiry _ => true
  | .beaconWidthExpiry _ => true
  | .syncOutFollowEnd _ => true
  | .attnGapEnd => true
  | _ => false

/-- Commands that can change an input pin's level. -/
def pinCommand : Instr → Bool
  | .railPowerGoodRise _ => true
  | .railPowerGoodFall _ => true
  | .syncInChange _ _ => true
  | .sbDrdyRise _ => true
  | .cablePresentRise => true
  | .cablePresentFall => true
  | .thermAlertAssertion => true
  | .thermAlertDeassertion => true
  | .thermCritAssertion => true
  | .mainOkFall => true
  | .mainOkRise => true
  | .microsecondStep _ => true
  | .deviceTimeWrap _ => true
  | _ => false

/-- Commands that can change device time (R119, R121). -/
def timeCommand : Instr → Bool
  | .powerOnReset => true
  | .microsecondStep _ => true
  | .deviceTimeWrap _ => true
  | .timeCrossingComplete => true
  | _ => false

/-! ### The field map of the status page, with its offsets worked out (R188) -/

/-- Bytes at an offset of a status line. -/
abbrev Place := Nat × List Byte

def byteField (off : Nat) (v : Byte) : Place := (off, [v])

def flagPlace (off : Nat) (v : Bool) : Place := (off, [flagByte v])

/-- A value that may be none: its presence flag, and the value where it is present. -/
def optPlaces (flag off : Nat) (v : Option (List Byte)) : List Place :=
  flagPlace flag v.isSome :: (v.map fun b => (off, b)).toList

/-- Single bytes one after another. -/
def bytePlaces (off : Nat) (l : List Byte) : List Place := l.mapIdx fun i v => (off + i, [v])

/-- The `k` entries of a list from entry `first` on, each `size` bytes long; a place without an entry has none. -/
def entryPlaces {α : Type} (k size first : Nat) (l : List α) (places : α → List Place) : List Place :=
  (List.range k).flatMap fun i =>
    match l[first + i]? with
    | some e => (places e).map fun p => (size * i + p.1, p.2)
    | none => []

/-- The change count and the number of entries of a list. -/
def listPlaces (change : U16) (count : Nat) : List Place :=
  [(48, toBytes 2 change.toNat), byteField 50 (BitVec.ofNat 8 count)]

/-- An entry of the record outcome table, in 8 bytes. -/
def outcomePlaces (e : OutcomeEntry) : List Place :=
  [(0, toBytes 4 e.lastSeen.toNat), byteField 4 (codeOf outcomes e.outcome), (6, toBytes 2 e.overtaken.toNat)]

/-- A region entry, in 16 bytes. -/
def regionPlaces (r : Region) : List Place :=
  bytePlaces 0 [flagByte r.valid, r.kind, r.binding] ++
  [(4, toBytes 4 r.base.toNat), (8, toBytes 4 r.size.toNat), (12, toBytes 4 r.drops.toNat)]

/-- An entry of the error capture list, in 16 bytes. -/
def capturePlaces (c : Capture) : List Place :=
  bytePlaces 0 [codeOf captureKinds c.kind, codeOf agentCodes c.agent] ++
  [(4, toBytes 4 c.addr.toNat), (8, stampBytes c.stamp)]

/-- A photon report, in the 24 bytes of the PHOTON payload with CUT as the last (R189). -/
def photonPlaces (r : Photon) : List Place :=
  [(0, toBytes 4 r.frame.toNat), (4, toBytes 4 r.tag.toNat), (8, toBytes 4 (r.pose.getD 0).toNat),
   (12, stampBytes r.stamp), (18, toBytes 2 r.repeats.toNat), (20, toBytes 2 r.substituted.toNat),
   flagPlace 22 r.pose.isSome, flagPlace 23 r.cut]

/-- A sensor ring, in 24 bytes. -/
def sensorRingPlaces (r : SensorRing) : List Place :=
  [flagPlace 0 r.enabled, (4, toBytes 4 r.base), (8, toBytes 2 r.capacity), (10, toBytes 2 r.issued.toNat),
   (12, toBytes 2 r.produce.toNat), (14, toBytes 2 r.consume.toNat), (16, toBytes 4 r.drops.toNat)]

/-- A fresh slot, in 14 bytes. -/
def slotPlaces (x : FreshSlot) : List Place :=
  (0, toBytes 4 x.updates.toNat) ::
  match x.record with
  | some r => [flagPlace 4 true, byteField 5 (BitVec.ofNat 8 r.channel.val), (6, toBytes 2 r.seq.toNat),
      (8, stampBytes r.stamp)]
  | none => []

/-- The uplink history by class, each entry with its class's number: PHOTON 1, SENSOR 2, MESSAGE 3 (R89). -/
def Tc.classedHistory (t : Tc) : List (Byte × HistEntry) :=
  (vget t.history 0).map (Prod.mk 1) ++ (vget t.history 1).map (Prod.mk 2) ++ (vget t.history 2).map (Prod.mk 3)

/-- A history entry, in 8 bytes. -/
def historyPlaces (x : Byte × HistEntry) : List Place :=
  [byteField 0 x.1, byteField 1 (BitVec.ofNat 8 x.2.sends), (2, toBytes 2 x.2.seq.toNat), flagPlace 4 x.2.resend,
   flagPlace 5 x.2.belongs]

/-- A time pair, in 16 bytes. -/
def pairPlaces (p : TimePair) : List Place := [(0, toBytes 8 p.console.toNat), (8, stampBytes p.stamp)]

/-- A beacon generator, in 24 bytes. -/
def beaconPlaces (b : Beacon) : List Place :=
  [(0, toBytes 2 b.delay), (2, toBytes 2 b.width), flagPlace 4 b.restart, byteField 5 (codeOf beaconSelects b.select),
   byteField 6 (codeOf beaconStates b.state), (8, toBytes 4 (b.timer.getD 0)), (12, toBytes 4 b.pulses.toNat),
   (16, toBytes 4 b.ignored.toNat)]

/-- A queue entry or a frame, in 24 bytes. -/
def framePlaces (off : Nat) (tag : U32) (left right : Option (Fin 6)) (source : Owner) (target : Option Stamp)
    (pose : Option U32) (repeats substituted : U16) : List Place :=
  [(off, toBytes 4 tag.toNat), byteField (off + 4) (slotByte left), byteField (off + 5) (slotByte right),
   byteField (off + 6) (codeOf owners source)] ++
  optPlaces (off + 7) (off + 8) (target.map stampBytes) ++
  optPlaces (off + 14) (off + 16) (pose.map fun v => toBytes 4 v.toNat) ++
  [(off + 20, toBytes 2 repeats.toNat), (off + 22, toBytes 2 substituted.toNat)]

def queuePlaces (off : Nat) (e : Option Entry) : List Place :=
  match e with
  | some e => framePlaces off e.tag (some e.left) e.right e.source e.target e.pose 0 0
  | none => []

def shownPlaces (off : Nat) (f : Option Frame) : List Place :=
  match f with
  | some f => framePlaces off f.tag f.left f.right f.source f.target f.pose f.repeats f.substituted
  | none => []

/-- A timing set as bytes 0 to 35 of its record (R185). -/
def timingPlaces (off : Nat) (t : TimingSet) : List Place :=
  bytePlaces off [flagByte t.scanEnable, codeOf syncModes t.sync, codeOf policies t.policy,
    BitVec.ofNat 8 t.reloadSkip, flagByte t.photonUplink, codeOf strobeSelects t.lineLeft,
    codeOf strobeSelects t.lineRight, BitVec.ofNat 8 t.level] ++
  [(off + 8, toBytes 4 t.period), (off + 12, toBytes 4 t.scan), (off + 16, toBytes 4 t.settle),
   (off + 20, toBytes 4 t.strobeWidth), (off + 24, toBytes 4 t.lossLimit), (off + 28, toBytes 2 t.panelWidth),
   (off + 30, toBytes 2 t.panelHeight)] ++
  bytePlaces (off + 32) [t.fallback.red, t.fallback.green, t.fallback.blue]

/-- Lines 33 to 38. -/
def surfacePlaces (n : Fin 6) (s : State) : List Place :=
  let f := s.st.surface n
  let fr := vget s.tc.frontiers n
  let count (p : Band → Bool) : List Byte := toBytes 2 (f.bands.filter p).length
  let row (v : Option Nat) : Option (List Byte) := if f.ownedBy .tether then v.map (toBytes 2) else none
  [flagPlace 0 f.config.isSome, byteField 1 (codeOf surfaceStates f.state), (4, toBytes 4 f.fence.toNat),
   (8, count (·.complete)), (12, count (·.late)), (14, count (·.substituted))] ++
  (match f.config with
    | some c => [byteField 2 (codeOf owners c.owner), byteField 3 (codeOf eyes c.eye)]
    | none => []) ++
  optPlaces 10 11 ((f.bands.findIdx? fun b => !b.complete).map fun k => [BitVec.ofNat 8 k]) ++
  optPlaces 16 18 (row fr.issue) ++ optPlaces 20 22 (row fr.deposit)

/-- Line 42. -/
def scanPlaces (s : State) : List Place :=
  let o := s.so
  bytePlaces 0 [codeOf scanStates o.state, codeOf phases o.phase, flagByte o.coasting, flagByte s.killed] ++
  [(4, toBytes 4 o.frameNumber.toNat), (8, stampBytes o.lastBoundary)] ++ optPlaces 14 16 (o.measured.map (toBytes 4)) ++
  [(20, toBytes 4 o.early.toNat), byteField 24 (strobeDrive o.applied.lineLeft s.lit),
   byteField 25 (strobeDrive o.applied.lineRight s.lit), byteField 26 (BitVec.ofNat 8 o.lastThrottle)] ++
  optPlaces 27 28 (o.lastPhoton.map stampBytes) ++ optPlaces 34 36 (o.nextPhoton.map stampBytes) ++
  [(44, toBytes 4 o.failedBands.toNat), (48, toBytes 4 o.underruns.toNat), (52, toBytes 4 o.suppressed.toNat)]

/-- Lines 49 to 52. -/
def channelPlaces (n : Fin 4) (s : State) : List Place :=
  let c := s.channel n
  [byteField 0 (codeOf channelStates c.state), flagPlace 1 c.holder.isSome] ++
  (c.holder.map fun h => byteField 2 h.overrun).toList ++
  [flagPlace 3 (s.sh.bus.any fun t => t.channel == n), (4, toBytes 2 c.seq.toNat), flagPlace 6 c.faultCleared,
   flagPlace 7 c.resume, byteField 8 c.consecutive, (12, toBytes 4 c.noResponse.toNat),
   (16, toBytes 4 c.overruns.toNat), (20, toBytes 4 c.unrouted.toNat)]

/-- Line 62. -/
def uplinkPlaces (t : Tc) : List Place :=
  let fill (c : Fin 4) : Byte := BitVec.ofNat 8 (t.queue.filter fun e => e.content.queueClass == c).length
  let batch := t.queue.find? UplinkEntry.isOpen
  bytePlaces 0 [flagByte t.ackRequest, flagByte t.echoRequest.isSome, flagByte t.keepRequest, flagByte batch.isSome] ++
  (match batch with
    | some ⟨_, .sensor records _⟩ => [byteField 4 (BitVec.ofNat 8 records.length)]
    | _ => []) ++
  bytePlaces 5 [fill 0, fill 1, fill 2, fill 3] ++
  bytePlaces 9 [flagByte (vget t.inProgress 0), flagByte (vget t.inProgress 1), flagByte (vget t.inProgress 2)] ++
  [(12, toBytes 2 (vget t.nextSeq 0).toNat), (14, toBytes 2 (vget t.nextSeq 1).toNat),
   (16, toBytes 2 (vget t.nextSeq 2).toNat)] ++
  bytePlaces 18 [flagByte (vget t.ackTimers 0).isSome, flagByte (vget t.ackTimers 1).isSome,
    flagByte (vget t.ackTimers 2).isSome, BitVec.ofNat 8 (vget t.history 0).length,
    BitVec.ofNat 8 (vget t.history 1).length, BitVec.ofNat 8 (vget t.history 2).length] ++
  [(24, toBytes 4 t.badAcks.toNat), (28, toBytes 4 t.echoReplaced.toNat)]

/-- Lines 70 to 72; ring 1 has no issued index and no drops, and ring 2, which is captured, no start threshold, taken
index, underruns, late or failed fetches (R103, R118). -/
def ringPlaces (n : Fin 3) (a : Au) : List Place :=
  let r := vget a.rings n
  [flagPlace 0 r.enabled, byteField 1 (codeOf playStates r.play), (4, toBytes 2 r.gain), (8, toBytes 4 r.base),
   (12, toBytes 4 r.capacity), (24, toBytes 4 r.produce.toNat), (32, toBytes 4 r.consume.toNat)] ++
  (if n = 2 then [byteField 2 r.uplink]
    else [(16, toBytes 4 r.threshold), (28, toBytes 4 r.taken.toNat), (36, toBytes 4 r.underruns.toNat),
      (40, toBytes 4 r.lates.toNat), (44, toBytes 4 r.faileds.toNat)]) ++
  (if n = 1 then [] else [(20, toBytes 4 r.issued.toNat), (48, toBytes 4 r.overruns.toNat)])

/-- Line 73; the drives take the free values of log 21. -/
def audioPlaces (s : State) : List Place :=
  let a := s.au
  bytePlaces 0 [flagByte a.running, BitVec.ofNat 8 a.driftCount, codeOf corrections a.scheduled] ++
  [(4, toBytes 2 a.output.volume), flagPlace 6 a.output.mute, flagPlace 7 a.output.dither,
   (8, toBytes 2 a.output.taps.toNat)] ++
  bytePlaces 10 [codeOf speakerSelects a.output.left, codeOf speakerSelects a.output.right,
    a.lineDrive a.selLeft a.dutyLeft (Config.speakerLevel s.free),
    a.lineDrive a.selRight a.dutyRight (Config.speakerLevel (s.free + 1))] ++
  [(14, toBytes 2 a.lfsr.toNat), (16, toBytes 4 a.dropCorrs.toNat), (20, toBytes 4 a.repeatCorrs.toNat)]

/-- Line 75. -/
def triggerPlaces (s : State) : List Place :=
  entryPlaces 8 4 0 (vlist s.tm.consumers) (fun c => bytePlaces 0
    [BitVec.ofNat 8 c.source.val, flagByte c.invert, codeOf edgeModes c.mode, flagByte (s.consumerLevel c)]) ++
  entryPlaces 2 4 0 (vlist s.tm.outs) (fun o => bytePlaces 32
    [BitVec.ofNat 8 o.source.val, codeOf syncSelects o.select, s.syncDrive o]) ++
  [(40, toBytes 4 s.levelSet)]

/-- Line 77. -/
def powerPlaces (s : State) : List Place :=
  let p := s.pwc
  let pg := s.pins.pg
  bytePlaces 0 [codeOf powerStates p.state, codeOf dimCauses p.dimCause, codeOf wakeCauses p.lastWake,
    codeOf stopCauses p.lastStop, failedRailByte p.failedRail, flagByte p.mainLoss,
    BitVec.ofNat 8 p.settings.software, BitVec.ofNat 8 p.settings.override, flagByte p.settings.autoDim,
    flagByte p.settings.wakePresence, flagByte p.settings.wakeTether, flagByte p.settings.restart,
    flagByte p.settings.activeHigh, BitVec.ofNat 8 p.factor, flagByte p.overrideOn, flagByte p.thermalTimer.isSome,
    flagByte (!p.presence), flagByte p.pressed, flagByte p.overrideTimer.isSome, flagByte s.pins.mainOk,
    flagByte s.alertAsserted, flagByte s.pins.thermCrit, flagByte pg.sensor, flagByte pg.audio, flagByte pg.panel,
    flagByte pg.host, flagByte p.enables.sensor, flagByte p.enables.audio, flagByte p.enables.panel,
    flagByte p.enables.host]

/-- The fields of lines 0 to 32: the part, the outcomes, the events, the regions, the memory and the captures. -/
def statusMapLow (n : Nat) (s : State) : List Place :=
  if n = 0 then
    [(0, toBytes 4 s.planBase), byteField 4 (BitVec.ofNat 8 s.pu.sel.val), (6, toBytes 2 s.pu.softResets.toNat)]
  else if n ≤ 15 then
    entryPlaces 6 8 (6 * (n - 1)) (vlist s.pu.table) outcomePlaces ++
    listPlaces s.pu.change 86
  else if n = 16 then
    [(0, toBytes 4 s.eu.pendingSet.toNat), (4, toBytes 4 s.eu.enableSet.toNat), flagPlace 8 s.eu.attn,
     flagPlace 9 s.eu.gap.isSome]
  else if n = 17 then entryPlaces 28 2 0 (vlist s.eu.counts) (fun c => [(0, toBytes 2 c.toNat)])
  else if n ≤ 28 then
    entryPlaces 3 16 (3 * (n - 18)) (vlist s.rm.regions) regionPlaces ++
    listPlaces s.rm.change 32
  else if n = 29 then
    let waiting (c : ReqClass) : List Byte := toBytes 2 (s.da.requests.filter fun r => r.agent.cls == c).length
    [(0, toBytes 4 s.rm.statusDrops.toNat), (4, toBytes 4 s.rm.rangeDrops.toNat),
     byteField 8 (BitVec.ofNat 8 s.places), byteField 9 s.hmp.heldReason, (10, waiting .scan), (12, waiting .audio),
     (14, waiting .host), (16, waiting .deposit), (18, waiting .ring),
     byteField 20 (match s.da.service with
       | some r => codeOf classCodes r.agent.cls
       | none => 0xFF),
     flagPlace 21 (s.da.mode == .selfRefresh), (24, toBytes 4 s.da.corrected.toNat),
     byteField 28 (BitVec.ofNat 8 s.da.scrubs.length), (32, toBytes 4 s.da.scrubMissed.toNat),
     (36, toBytes 4 s.da.captureTotal.toNat)]
  else
    entryPlaces 3 16 (3 * (n - 30)) s.da.captures capturePlaces ++
    listPlaces s.da.change s.da.captures.length

/-- The fields of lines 33 to 58: the surfaces, the frames, the scan-out and the sensors. -/
def statusMapMiddle (n : Nat) (s : State) : List Place :=
  if n ≤ 38 then surfacePlaces ⟨(n - 33) % 6, Nat.mod_lt _ (by omega)⟩ s
  else if n = 39 then
    byteField 0 (BitVec.ofNat 8 s.st.queue.length) :: queuePlaces 4 s.st.queue[0]? ++ queuePlaces 28 s.st.queue[1]? ++
    [(52, toBytes 2 s.st.change.toNat)]
  else if n = 40 then
    queuePlaces 0 s.st.queue[2]? ++ optPlaces 24 28 (s.st.tether.map fun f => toBytes 4 f.tag.toNat) ++
    [byteField 32 (codeOf rejectCauses s.st.rejectCause), (36, toBytes 4 s.st.rejectTag.toNat),
     (40, toBytes 4 s.st.dropped.toNat), flagPlace 44 s.st.barred, (48, toBytes 2 s.st.change.toNat)]
  else if n = 41 then
    bytePlaces 0 [flagByte s.st.current.isSome, flagByte (s.st.current.any (·.bandLate)),
      flagByte s.st.previous.isSome, flagByte (s.st.previous.any (·.bandLate))] ++
    shownPlaces 4 s.st.current ++ shownPlaces 28 s.st.previous ++ [(52, toBytes 2 s.st.change.toNat)]
  else if n = 42 then scanPlaces s
  else if n = 43 then timingPlaces 0 s.so.applied
  else if n = 44 then
    match s.so.pendingSet with
    | some (t, skip) => flagPlace 0 true :: byteField 1 (BitVec.ofNat 8 skip) :: timingPlaces 4 t
    | none => []
  else if n ≤ 48 then
    entryPlaces 2 24 (2 * (n - 45)) s.so.reports photonPlaces ++
    listPlaces s.so.change s.so.reports.length
  else if n ≤ 52 then channelPlaces ⟨(n - 49) % 4, Nat.mod_lt _ (by omega)⟩ s
  else if n = 53 then
    [byteField 0 (match s.sh.bus with
      | some t => BitVec.ofNat 8 t.channel.val
      | none => 0xFF), flagPlace 1 s.sh.hold]
  else if n ≤ 57 then entryPlaces 2 24 (2 * (n - 54)) (vlist s.sh.rings) sensorRingPlaces
  else entryPlaces 4 14 0 (vlist s.sh.slots) slotPlaces

/-- The fields of lines 59 to 77: the tether, the audio unit, the timebase, the triggers and the power controller. -/
def statusMapHigh (n : Nat) (s : State) : List Place :=
  let t := s.tc
  if n = 59 then
    [byteField 0 (codeOf linkStates t.link), flagPlace 1 t.upFromRecovery, flagPlace 2 t.paused.isSome,
     flagPlace 3 t.restricted, (4, stampBytes t.since), (12, toBytes 4 t.attempts.toNat),
     (16, toBytes 4 t.recoveries.toNat)]
  else if n = 60 then
    (0, toBytes 2 t.expected.toNat) :: optPlaces 2 4 (t.lastTaken.map fun v => toBytes 2 v.toNat) ++
    [(8, toBytes 4 t.crcErrors.toNat), (12, toBytes 4 t.formatErrors.toNat), (16, toBytes 4 t.duplicates.toNat),
     (20, toBytes 4 t.gaps.toNat), (24, toBytes 4 t.pauses.toNat), (28, toBytes 4 s.depositFill),
     (32, toBytes 4 t.dropState.toNat), (36, toBytes 4 t.dropRange.toNat), (40, toBytes 4 t.dropFormat.toNat),
     (44, toBytes 4 t.dropStandby.toNat), (48, toBytes 4 t.audioDrops.toNat)]
  else if n = 61 then
    let r := t.ring
    [flagPlace 0 r.enabled, (2, toBytes 2 r.count), (4, toBytes 4 r.base), (8, toBytes 2 r.issued.toNat),
     (10, toBytes 2 r.produce.toNat), (12, toBytes 2 r.consume.toNat), (16, toBytes 4 r.backPressure.toNat),
     (20, toBytes 4 r.standbyDrops.toNat), (24, toBytes 4 r.noRingDrops.toNat), (28, toBytes 4 r.lengthDrops.toNat)]
  else if n = 62 then uplinkPlaces t
  else if n ≤ 65 then
    entryPlaces 6 8 (6 * (n - 63)) t.classedHistory historyPlaces ++
    listPlaces t.histChange ((vget t.history 0).length + (vget t.history 1).length + (vget t.history 2).length)
  else if n = 66 then
    entryPlaces 4 4 0 (vlist t.fullDrops) (fun c => [(0, toBytes 4 c.toNat)]) ++
    entryPlaces 4 4 0 (vlist t.unlinked) (fun c => [(16, toBytes 4 c.toNat)]) ++
    entryPlaces 3 4 0 (vlist t.resent) (fun c => [(32, toBytes 4 c.toNat)])
  else if n ≤ 69 then
    entryPlaces 3 16 (3 * (n - 67)) t.pairs pairPlaces ++
    listPlaces t.pairChange t.pairs.length
  else if n ≤ 72 then ringPlaces ⟨(n - 70) % 3, Nat.mod_lt _ (by omega)⟩ s.au
  else if n = 73 then audioPlaces s
  else if n = 74 then
    [(0, stampBytes s.tb.snapshot), flagPlace 6 s.tb.fresh, flagPlace 7 s.tb.holding.isSome,
     (24, toBytes 4 s.tb.taken.toNat)] ++
    (match s.tb.holding with
      | some a => [byteField 8 (codeOf adjustModes a.mode), (16, toBytes 8 a.value.toNat)]
      | none => [])
  else if n = 75 then triggerPlaces s
  else if n = 76 then entryPlaces 2 24 0 (vlist s.tm.beacons) beaconPlaces
  else powerPlaces s

/-- The fields of status page line `n`: where each stands, and its bytes (R188). -/
def statusMap (n : Nat) (s : State) : List Place :=
  if n ≤ 32 then statusMapLow n s
  else if n ≤ 58 then statusMapMiddle n s
  else if n ≤ 77 then statusMapHigh n s
  else []

/-! ### Good states -/

/-- The memory and the shadow are in canonical form (log 6). -/
def State.canonical (s : State) : Prop := Memory.wf s.mem = true ∧ Memory.wf s.pu.shadow = true

/-- The uplink history holds at most 16 entries over its classes (R94). What the model needs for that to last: the ids it
gives are new ones, no entry stands in the queue and in the history both, and a MESSAGE of the queue whose reads hold the
lane finds room. -/
def Tc.historyBounded (t : Tc) (nextId : Nat) : Prop :=
  t.historyFill ≤ 16 ∧
  (∀ q ∈ t.queue, q.id < nextId) ∧
  (∀ c, ∀ e ∈ vget t.history c, e.id < nextId ∧ ∀ q ∈ t.queue, q.id ≠ e.id) ∧
  (∀ entry read left lines damaged, t.lane = .reading entry read left lines damaged false →
    entry < nextId ∧ (t.historyFill < 16 ∨ ∀ q ∈ t.queue, q.id ≠ entry))

/-- The lists hold no more than the manual gives them (R10, R46, R87, R90, R94, R165, R166). -/
def State.bounded (s : State) : Prop :=
  s.st.queue.length ≤ 3 ∧ s.so.reports.length ≤ 8 ∧ s.tc.pairs.length ≤ 8 ∧ s.tc.queue.length ≤ 32 ∧
  s.tc.historyBounded s.nextId ∧ s.da.scrubs.length ≤ 8 ∧ s.da.captures.length ≤ 8

/-- The surfaces that the queue, the current frame and the previous frame name, in that order. -/
def St.allNamed (t : St) : List (Fin 6) := t.queue.flatMap Entry.named ++ namedBy t.current ++ namedBy t.previous

/-- Frames and surfaces agree (R10): no surface is named twice; a surface is QUEUED, CURRENT or HELD exactly when a
queue entry, the current frame or the previous frame names it; and the surfaces that an open tether frame still has
are OPEN and differ. -/
def St.framesAgree (t : St) : Prop :=
  t.allNamed.Nodup ∧
  (∀ n, (t.surface n).state = .queued ↔ n ∈ t.queue.flatMap Entry.named) ∧
  (∀ n, (t.surface n).state = .current ↔ n ∈ namedBy t.current) ∧
  (∀ n, (t.surface n).state = .held ↔ n ∈ namedBy t.previous) ∧
  (∀ f, t.tether = some f →
    (∀ n, n ∈ f.kept → (t.surface n).state = .opened ∧ (t.surface n).ownedBy .tether = true) ∧
    f.right ≠ some f.left)

/-- The steps of the standby path at which the part is at rest: from step 4 of ENTERING_STANDBY until ACTIVE (R140). -/
def Pwc.resting (p : Pwc) : Bool :=
  p.state == .standby || p.state == .waking || p.step == .enterDrain || p.step == .enterRefresh

/-- The part at rest: surfaces FREE, nothing presented, presentation barred, the scan-out STOPPED, the port holding. -/
def State.atRest (s : State) : Prop :=
  (∀ n, (s.st.surface n).state = .free) ∧ s.st.queue = [] ∧ s.st.current = none ∧ s.st.previous = none ∧
  s.st.tether = none ∧ s.st.barred = true ∧ s.so.state = .stopped ∧ s.hmp.hold = .standby

/-- What standby holds (R140, R22): at rest while resting, and the waiting steps belong to ENTERING_STANDBY. -/
def State.standbySound (s : State) : Prop :=
  (s.pwc.resting = true → s.atRest) ∧
  (s.pwc.step = .enterScan ∨ s.pwc.step = .enterDrain ∨ s.pwc.step = .enterRefresh →
    s.pwc.state = .enteringStandby)

end Sys2Proof.Machine
end

