-- ==== Sys2Proof/Certificates/Slice0/Obligations.lean ====
section
/-!
DEFINITION. The statements for the provers. Where a command's own effect is followed by the trigger matrix's deliveries
(R126, log 9), a statement names the state before them and writes `drain` of it; what `drain` leaves alone, and that it
changes nothing when nothing is to be delivered, is said by `DeliveryFrame`.
-/
open Sys2Proof Sys2Proof.Machine

/-! ### The step -/

/-- A step runs the command at the front of the queue on the queue's rest. -/
def Obligations.StepRunsTheFrontCommand : Prop :=
  ∀ (c : Instr) (rest : List Instr) (s : State),
    step { s with pending := c :: rest } = exec c { s with pending := rest }

/-- No command is refused, and the one fault is a DRAM completion of a line outside the populated memory; every other
command answers a next state in every state. Both are the model's choices: log 26 for the fault, and log 1 for a
command whose moment has not come, which the spec does not judge and which answers the state unchanged. -/
def Obligations.OnlyAnAbsentLineFaults : Prop :=
  ∀ (c : Instr) (s : State),
    (∀ r, exec c s ≠ .refused r) ∧
    (∀ f, exec c s = .fault f →
      f = .noSuchLine ∧ ∃ r, s.da.service = some r ∧ completes s c r.agent = true ∧ lineLimit ≤ r.line) ∧
    ((∀ r, s.da.service = some r → r.line < lineLimit) → ∃ t, exec c s = .next t)

/-- What the trigger matrix delivers (R126 to R128), and what delivery leaves alone: the queue, pins, memory, regions,
the DRAM arbiter, the shadow and straps, device time, and the reset generation; with nothing to deliver it changes
nothing. A pulse makes the sync outputs of its source follow for 2 µs and gives one event to each consumer that selects
it in an edge mode; a change of level is seen by its consumer and is an event in the modes that fire on it; then an
active level in LEVEL mode makes a frame boundary, a capture or a beacon pulse where its block waits for one. An event
of FRAME_START is judged by the engine's state (R33 to R35), one of STROBE_KILL stops the light until the boundary
(R44), one of CHn makes a MATRIX channel due (R52), and one of BEACONn starts, restarts or is ignored (R130, R131). That
pulses go before levels, in the order of the consumers, is the model's choice (log 9), and so is that a level which has
changed is seen before an active level starts a generator again (log 58), a generator on its own source in mode BOTH
seeing so the rise of the pulse that it starts as the last one ends (log 60). -/
def Obligations.DeliveryFrame : Prop :=
  ∀ s : State,
    let pulsed (p : Fin 26) : State :=
      { s with tm := { s.tm with outs := vmap (fun o => if o.source = p then { o with follow := some 2 } else o) s.tm.outs } }
    let seen (n : Fin 8) : State :=
      let c : Consumer := { s.consumer n with seen := s.consumerLevel (s.consumer n) }
      { s with tm := { s.tm with consumers := vset s.tm.consumers n c } }
    let now (n : Fin 8) : Bool := s.consumerLevel (s.consumer n)
    let active (n : Fin 8) : Prop := (s.consumer n).mode = .level ∧ now n = true
    let waits : Prop := s.so.state = .waiting ∨ s.so.afterDark = true
    let still : Prop := s.tm.pulses = [] ∧ ∀ n, now n = (s.consumer n).seen
    -- one delivery after which nothing is left is all that `drain` does
    (∀ t, s.coreLive = true → drainOnce s = some t → t.quiet → drain s = t) ∧
    -- the oldest pulse goes first
    (∀ p rest, s.tm.pulses = p :: rest →
      drainOnce s = some (deliverPulse p { s with tm := { s.tm with pulses := rest } })) ∧
    (∀ p, deliverPulse p s =
      ((List.finRange 8).filter fun n => (s.consumer n).source = p ∧ (s.consumer n).mode ≠ .level).foldl
        (fun u n => deliver n u) (pulsed p)) ∧
    -- then a level that has changed is seen
    (s.tm.pulses = [] → (∃ n, now n ≠ (s.consumer n).seen) →
      ∃ n, now n ≠ (s.consumer n).seen ∧ drainOnce s = some (seeChange n s)) ∧
    (∀ n, seeChange n s =
      match (s.consumer n).mode with
      | .rising => if now n then deliver n (seen n) else seen n
      | .falling => if now n then seen n else deliver n (seen n)
      | .both => deliver n (seen n)
      | .level => seen n) ∧
    -- then the blocks that an active level sets off
    (still → active 0 → s.so.applied.sync = .triggered → waits → drainOnce s = some (acceptTrigger s)) ∧
    (∀ n : Fin 4, still → (∀ m, m.val ≠ 2 + n.val → ¬ active m) → active ⟨2 + n.val, by omega⟩ →
      (s.channel n).state = .running → (s.channel n).config.mode = .matrix → (s.channel n).holder = none →
      (∀ x, s.sh.bus = some x → x.channel ≠ n) → drainOnce s = some (becomeDue n s)) ∧
    (∀ n : Fin 2, still → (∀ m, m.val ≠ 6 + n.val → ¬ active m) → active ⟨6 + n.val, by omega⟩ →
      (vget s.tm.beacons n).state = .idle → s.tm.beaconsOff = false →
      drainOnce s = some { s with tm := { s.tm with beacons := vmod s.tm.beacons n Beacon.start } }) ∧
    -- what an event does, consumer by consumer
    (s.so.applied.sync = .free ∨ s.so.state = .stopped → deliver 0 s = s) ∧
    (s.so.applied.sync = .triggered → s.so.state = .running → s.so.afterDark = false →
      deliver 0 s = { s with so := { s.so with early := s.so.early + 1 } }) ∧
    (s.so.applied.sync = .triggered → waits → deliver 0 s = acceptTrigger s) ∧
    (s.so.applied.sync = .triggered → waits → s.so.stopRequested = false → s.so.pendingSet = none →
      s.so.applied.scanEnable = true →
      let o := (acceptTrigger s).so
      o.state = .running ∧ o.phase = .scan ∧ o.phaseTimer = some s.so.applied.scan ∧
      o.syncTimer = some s.so.applied.lossLimit ∧ o.periodTimer = none ∧ o.sinceBoundary = 0 ∧
      o.lastBoundary = s.tb.now ∧ o.coasting = false ∧ o.byTrigger = true ∧
      o.measured = (if s.so.byTrigger then some s.so.sinceBoundary else s.so.measured) ∧
      o.frameNumber = (if s.so.frameNumber = 0xFFFFFFFF then 0xFFFFFFFF else s.so.frameNumber + 1)) ∧
    (deliver 1 s).so.edgeKill = true ∧ (deliver 1 s).lit = false ∧
    (s.so.light = none → deliver 1 s = { s with so := { s.so with edgeKill := true } }) ∧
    (∀ old r, s.so.light ≠ none → s.so.reports = old ++ [r] →
      (deliver 1 s).so.reports = old ++ [{ r with cut := true }]) ∧
    (∀ n : Fin 4,
      let u := deliver ⟨2 + n.val, by omega⟩ s
      let c := s.channel n
      (c.config.mode ≠ .matrix ∨ c.state ≠ .running → u = s) ∧
      (c.config.mode = .matrix → c.state = .running → c.holder = none →
        u.channel n = { c with holder := some ⟨s.tb.now, s.so.frameNumber, 0⟩ } ∧
        u.tm.pulses = s.tm.pulses ++ [⟨9 + n.val, by omega⟩]) ∧
      (∀ h, c.config.mode = .matrix → c.state = .running → c.holder = some h →
        u.channel n = { c with holder := some { h with overrun := if h.overrun = 255 then 255 else h.overrun + 1 },
                               overruns := c.overruns + 1 })) ∧
    (∀ n : Fin 2,
      let u := deliver ⟨6 + n.val, by omega⟩ s
      let b := vget s.tm.beacons n
      let started : Beacon :=
        if b.delay = 0 then { b with state := .pulse, timer := some b.width, pulses := b.pulses + 1 }
        else { b with state := .delay, timer := some b.delay }
      let put (x : Beacon) : State := { s with tm := { s.tm with beacons := vset s.tm.beacons n x } }
      (s.tm.beaconsOff = true → u = s) ∧
      (s.tm.beaconsOff = false → b.state = .idle ∨ b.restart = true → u = put started) ∧
      (s.tm.beaconsOff = false → b.state ≠ .idle → b.restart = false →
        u = put { b with ignored := b.ignored + 1 })) ∧
    -- the frame
    (drain s).pending = s.pending ∧ (drain s).pins = s.pins ∧ (drain s).mem = s.mem ∧ (drain s).rm = s.rm ∧
    (drain s).da = s.da ∧ (drain s).pu.shadow = s.pu.shadow ∧ (drain s).pu.sel = s.pu.sel ∧
    (drain s).tb = s.tb ∧ (drain s).generation = s.generation ∧ (drain s).pwc.state = s.pwc.state ∧
    (drain s).pwc.settings = s.pwc.settings ∧ (drain s).tc.link = s.tc.link ∧ (s.quiet → drain s = s)

/-! ### Resets and power (chapter 7) -/

/-- Power-on reset: device time 0, epoch 0, no adjust pending, the power controller's values, no event pending (R119,
R133, R180); the core domain is off. That a THERM_ALERT pin at its asserted level raises no THERMAL here is the model's
choice (log 52). -/
def Obligations.PowerOnResetValues : Prop :=
  ∀ s : State, ∃ t, exec .powerOnReset s = .next t ∧
    t.tb.now = ⟨0, 0⟩ ∧ t.tb.holding = none ∧ t.tb.taken = 0 ∧
    t.pwc.state = .off ∧ t.pwc.enables = ⟨false, false, false, false⟩ ∧ t.pwc.hostReset = true ∧
    t.pwc.settings = { software := 8, override := 4, autoDim := false, wakePresence := true, wakeTether := true,
                       restart := false, activeHigh := false } ∧
    t.pwc.presence = true ∧ t.pwc.dimCause = .none ∧ t.pwc.lastWake = .none ∧ t.pwc.lastStop = .none ∧
    t.pwc.failedRail = none ∧ t.pwc.mainLoss = false ∧ t.pwc.pressed = false ∧ t.pwc.debounce = none ∧
    t.pwc.overrideTimer = none ∧ t.pwc.overrideOn = false ∧ t.pwc.thermalTimer = none ∧ t.pwc.factor = 8 ∧
    t.eu.pendingSet = 0 ∧ t.coreOn = false ∧ t.pins = s.pins

/-- The core supply settles in STARTING: core reset puts every core block in its core-reset state, the DRAM arbiter,
the plan unit, the event unit and the tether controller with them, and begins a new reset generation; the straps are
sampled, the shadow takes the default image, the port holds, the link trains if the cable is there, the always-on domain
is kept, and the SENSOR rail is enabled (R74, R135, R160, R180). No request waits but the image writes of a plan
initialization that begins at once, where every power-good is high already. That every byte of the initialized DRAM
reads 00h (`t.mem = []`) is the model's choice (log 6). -/
def Obligations.CoreResetEffect : Prop :=
  ∀ (sel : Fin 4) (s : State), s.pwc.state = .starting → s.pwc.step = .startCore →
    ∃ t, exec (.coreSupplySettled sel) s = .next t ∧
      t.pu = { Pu.reset with sel, shadow := defaultImage s.pwc.settings 0, initLeft := t.pu.initLeft } ∧
      t.rm = Rm.reset ∧ t.st = St.reset ∧ t.so = So.reset ∧ t.sh = Sh.reset ∧ t.au = Au.reset ∧ t.tm = Tm.reset ∧
      t.mem = [] ∧ t.hmp = { Hmp.reset with hold := .starting } ∧
      t.da = { Da.reset with requests := t.da.requests, service := t.da.service } ∧
      (∀ r ∈ t.da.all, r.agent = .planInit) ∧ ((∃ r, s.pins.pg.get r = false) → t.da.all = []) ∧
      t.eu = { Eu.reset with pendingSet := s.eu.pendingSet &&& alwaysOnKinds } ∧
      t.tb = { s.tb with snapshot := ⟨0, 0⟩, fresh := false, refresh := true } ∧
      t.pwc.settings = s.pwc.settings ∧ t.pwc.presence = s.pwc.presence ∧ t.pwc.enables.sensor = true ∧
      t.tc = (if s.pins.cable then
          { Tc.reset with since := s.tb.now, link := .training, training := some 100000, attempts := 1 }
        else { Tc.reset with since := s.tb.now }) ∧
      t.generation = s.generation + 1 ∧
      (s.pins.pg.sensor = false → t.pwc.step = .startRail .sensor [.audio, .panel, .host] ∧
        t.pwc.railTimer = some 10000)

/-- A start cause in OFF: a press, or the return of main power after a remembered loss under RESTART, begins STARTING
when MAIN_OK is high and THERM_CRIT is not asserted; otherwise the part stays OFF (R134). -/
def Obligations.StartCauses : Prop :=
  ∀ s : State, s.pwc.state = .off →
    (s.pwc.pressed = false → s.pwc.debounce = some 0 →
      ∃ t, exec .buttonPress s = .next t ∧ t.pwc.pressed = true ∧ t.pwc.debounce = none ∧
        (if s.pins.mainOk && !s.pins.thermCrit then
          t.pwc.state = .starting ∧ t.pwc.step = .startCore ∧ t.pwc.lastWake = .button ∧ t.pwc.mainLoss = false ∧
          t.pwc.failedRail = none
        else t.pwc = { s.pwc with pressed := true, debounce := none })) ∧
    (s.pins.mainOk = false →
      ∃ t, exec .mainOkRise s = .next t ∧ t.pins.mainOk = true ∧
        (if s.pwc.mainLoss && s.pwc.settings.restart && !s.pins.thermCrit then
          t.pwc.state = .starting ∧ t.pwc.step = .startCore ∧ t.pwc.lastWake = .mainReturn ∧
          t.pwc.mainLoss = false ∧ t.pwc.failedRail = none
        else t.pwc = s.pwc))

/-- Bringing the rails up, from the core's settling, from the exit of self-refresh and from a rail's power-good: the
rail that rose is watched; each next rail is enabled, and one whose power-good is already high ends its step at its
enable, watched in its turn; the first whose power-good is low gets 10 ms to come up. With no rail left, plan
initialization begins in STARTING, and WAKING reaches ACTIVE (R135, R136, R145). -/
def Obligations.RailsComeUpInOrder : Prop :=
  ∀ s : State,
    let up (m : Rail) (u : State) : Prop := u.pwc.enables.get m = true ∧ u.pwc.watched.get m = true
    -- the rails `rest` are brought up as far as the power-good inputs `pg` let them
    let brought (pg : PerRail) (wake : Bool) (rest : List Rail) (u : State) : Prop :=
      (∀ passed n after, rest = passed ++ n :: after → (∀ m ∈ passed, pg.get m = true) → pg.get n = false →
        (∀ m ∈ passed, up m u) ∧ u.pwc.enables.get n = true ∧
        u.pwc.railTimer = some 10000 ∧ u.pwc.step = if wake then .wakeRail n after else .startRail n after) ∧
      ((∀ m ∈ rest, pg.get m = true) → (∀ m ∈ rest, up m u) ∧ u.pwc.railTimer = none ∧
        (wake = false → u.pwc.step = .startPlan ∧ u.pu.initLeft = 64 ∧ u.pu.shadow = defaultImage s.pwc.settings 0) ∧
        (wake = true → s.hmp.held = none → s.hmp.atPins = [] → u.pwc.state = .active ∧ u.pwc.dimCause = .none ∧
          u.st.barred = false ∧ u.sh.hold = false ∧ u.tc.restricted = false ∧ u.au.running = true ∧
          u.pendingEvent .powerChange = true))
    (∀ sel, s.pwc.state = .starting → s.pwc.step = .startCore →
      runsTo (.coreSupplySettled sel) s (brought s.pins.pg false [.sensor, .audio, .panel, .host])) ∧
    (s.da.mode = .exiting → s.pwc.step = .wakeExit →
      runsTo .selfRefreshExitComplete s (brought s.pins.pg true [.audio, .panel])) ∧
    (∀ (r : Rail) (rest : List Rail) (wake : Bool), s.pins.pg.get r = false →
      s.pwc.step = (if wake then .wakeRail r rest else .startRail r rest) →
      runsTo (.railPowerGoodRise r) s fun u =>
        u.pins.pg = s.pins.pg.set r true ∧ u.pwc.watched.get r = true ∧ brought (s.pins.pg.set r true) wake rest u)

/-- A rail fault: the 10 ms of a rail being brought up run out, or a watched rail's power-good falls. The failed rail
and the stop cause POWER_FAULT are recorded, HOST_RST_N is asserted, and STOPPING is entered with its first rail's step:
in the order HOST, PANEL, AUDIO, SENSOR the first rail whose enable is asserted is switched off and given 10 ms, and the
rails after it in that order are still to come (R136, R143; `RailsGoDownInOrder` says how it goes on). That the first
rail gets its 10 ms also where its power-good is already low, as that of a rail that failed to come up is, is the model's
inference (log 38). -/
def Obligations.RailFaultStops : Prop :=
  ∀ (r : Rail) (s : State), s.pwc.state ≠ .stopping → s.pwc.state ≠ .off → s.pwc.enables.get r = true →
    let stops (u : State) : Prop :=
      u.pwc.state = .stopping ∧ u.pwc.failedRail = some r ∧ u.pwc.lastStop = .powerFault ∧ u.pwc.hostReset = true ∧
      u.hmp.held = none ∧
      ∀ passed n after, [Rail.host, .panel, .audio, .sensor] = passed ++ n :: after →
        (∀ m ∈ passed, s.pwc.enables.get m = false) → s.pwc.enables.get n = true →
        u.pwc.step = .stopRail n after ∧ u.pwc.railTimer = some 10000 ∧ u.pwc.enables.get n = false ∧
        ∀ m, m ≠ n → u.pwc.enables.get m = s.pwc.enables.get m
    ((∃ rest, s.pwc.step = .startRail r rest ∨ s.pwc.step = .wakeRail r rest) → s.pwc.railTimer = some 0 →
      ∃ u, exec .railBringUpTimerExpiry s = .next (drain u) ∧ stops u) ∧
    (s.pins.pg.get r = true → s.pwc.watched.get r = true → (∀ c rest, s.pwc.step ≠ .stopRail c rest) →
      ∃ u, exec (.railPowerGoodFall r) s = .next (drain u) ∧ stops u ∧ u.pins.pg.get r = false)

/-- STOPPING: a rail's step ends at the fall of its power-good or after 10 ms, and the next rail whose enable is
asserted is switched off, those before it whose enable is not being passed over; after the last one the part is OFF with
POWER_CHANGE pending and the DRAM's contents lost (R143). That the next rail gets its 10 ms also where its power-good is
already low is the model's inference (log 38), and that every byte of the lost DRAM reads 00h (`t.mem = []`) is the
model's choice (log 6). -/
def Obligations.RailsGoDownInOrder : Prop :=
  ∀ (r : Rail) (rest : List Rail) (s : State), s.pwc.step = .stopRail r rest →
    ∀ c, c = .railOffTimerExpiry ∧ s.pwc.railTimer = some 0 ∨ c = .railPowerGoodFall r ∧ s.pins.pg.get r = true →
      (∀ passed n after, rest = passed ++ n :: after → (∀ m ∈ passed, s.pwc.enables.get m = false) →
        s.pwc.enables.get n = true →
        ∃ u, exec c s = .next (drain u) ∧ u.pwc.enables.get n = false ∧ u.pwc.step = .stopRail n after ∧
          u.pwc.railTimer = some 10000 ∧ u.pwc.state = s.pwc.state) ∧
      ((∀ n ∈ rest, s.pwc.enables.get n = false) →
        ∃ t, exec c s = .next t ∧ t.pwc.state = .off ∧ t.pwc.enables = ⟨false, false, false, false⟩ ∧
          t.mem = [] ∧ t.pendingEvent .powerChange = true ∧ t.pwc.lastStop = s.pwc.lastStop)

/-- An immediate stop takes the part to OFF from any other state: every enable deasserted, HOST_RST_N asserted, the
DRAM's contents lost, the stop cause recorded, POWER_CHANGE pending; a fall of MAIN_OK also makes main loss remembered
(R144). In OFF a fall of MAIN_OK changes nothing but its status, and THERM_CRIT nothing but its own (R144, R147). That
every byte of the lost DRAM reads 00h (`t.mem = []`) is the model's choice (log 6). -/
def Obligations.ImmediateStops : Prop :=
  ∀ s : State,
    let stopped (t : State) (cause : StopCause) : Prop :=
      t.pwc.state = .off ∧ t.pwc.lastStop = cause ∧ t.pwc.enables = ⟨false, false, false, false⟩ ∧
      t.pwc.hostReset = true ∧ t.mem = [] ∧ t.pendingEvent .powerChange = true ∧ t.pwc.overrideOn = false ∧
      t.pwc.overrideTimer = none ∧ t.tb.now = s.tb.now
    (s.pwc.state ≠ .off →
      (s.pwc.overrideTimer = some 0 →
        ∃ t, exec .buttonOverrideExpiry s = .next t ∧ stopped t .buttonOverride ∧ t.pwc.mainLoss = s.pwc.mainLoss) ∧
      (∃ t, exec .thermCritAssertion s = .next t ∧ stopped t .thermalCritical ∧ t.pwc.mainLoss = s.pwc.mainLoss) ∧
      (s.pins.mainOk = true →
        ∃ t, exec .mainOkFall s = .next t ∧ stopped t .mainLost ∧ t.pwc.mainLoss = true)) ∧
    (s.pwc.state = .off →
      (s.pins.mainOk = true → exec .mainOkFall s = .next { s with pins := { s.pins with mainOk := false } }) ∧
      exec .thermCritAssertion s = .next { s with pins := { s.pins with thermCrit := true } })

/-- The button outside OFF: once the 20 ms debounce has run out, a press in ACTIVE or DIMMED raises BUTTON and starts
the 4 s count; in STANDBY it begins WAKING; in ENTERING_STANDBY it is kept as the wake cause if none is kept yet, and
does nothing else; in STARTING, WAKING and STOPPING it has no effect; a release stops the count (R146, R142). The
model's choices: a change that has come due stands until its command, whatever the pin does since (log 22), and a press
or a release that is not due answers the state unchanged (log 1). -/
def Obligations.ButtonEffects : Prop :=
  ∀ s : State,
    (s.pwc.pressed = false → s.pwc.debounce = some 0 → s.pwc.state = .active ∨ s.pwc.state = .dimmed →
      ∃ u, exec .buttonPress s = .next (drain u) ∧
        u.pwc = { s.pwc with pressed := true, debounce := none, overrideTimer := some 4000000 } ∧
        u.pendingEvent .button = true) ∧
    (s.pwc.pressed = false → s.pwc.debounce = some 0 → s.pwc.state = .standby →
      ∃ u, exec .buttonPress s = .next (drain u) ∧ u.pwc.state = .waking ∧ u.pwc.lastWake = .button ∧
        u.da.mode = .exiting ∧ u.tb.refresh = true) ∧
    (s.pwc.pressed = false → s.pwc.debounce = some 0 → s.pwc.state = .enteringStandby →
      let kept := if s.pwc.keptWake = none then some .button else s.pwc.keptWake
      exec .buttonPress s =
        .next (drain { s with pwc := { s.pwc with pressed := true, debounce := none, keptWake := kept } })) ∧
    (s.pwc.pressed = false → s.pwc.debounce = some 0 →
      s.pwc.state = .starting ∨ s.pwc.state = .waking ∨ s.pwc.state = .stopping →
      exec .buttonPress s = .next (drain { s with pwc := { s.pwc with pressed := true, debounce := none } })) ∧
    (s.pwc.pressed = true → s.pwc.debounce = some 0 → exec .buttonRelease s =
      .next { s with pwc := { s.pwc with pressed := false, debounce := none, overrideTimer := none } }) ∧
    (s.pwc.pressed = true ∨ s.pwc.debounce ≠ some 0 → exec .buttonPress s = .next s) ∧
    (s.pwc.pressed = false ∨ s.pwc.debounce ≠ some 0 → exec .buttonRelease s = .next s)

/-- The thermal path: an assertion raises THERMAL and starts the 2 s timer in ACTIVE and DIMMED; its expiry begins the
override; a deassertion stops the timer and ends the override; the effective factor follows the override at once
(R147 to R149). -/
def Obligations.ThermalOverride : Prop :=
  ∀ s : State,
    (s.alertAsserted = false →
      ∃ t, exec .thermAlertAssertion s = .next t ∧ t.alertAsserted = true ∧ t.pendingEvent .thermal = true ∧
        t.pwc = (if (s.pwc.state = .active ∨ s.pwc.state = .dimmed) ∧ s.pwc.overrideOn = false then
            { s.pwc with thermalTimer := some 2000000 } else s.pwc)) ∧
    (s.pwc.thermalTimer = some 0 →
      ∃ u, exec .thermalTimerExpiry s = .next (drain u) ∧ u.pwc.overrideOn = true ∧ u.pwc.thermalTimer = none ∧
        u.pendingEvent .thermalOverride = true ∧ u.pwc.factor = s.pwc.settings.override) ∧
    (s.alertAsserted = true →
      ∃ u, exec .thermAlertDeassertion s = .next (drain u) ∧ u.alertAsserted = false ∧ u.pwc.overrideOn = false ∧
        u.pwc.thermalTimer = none ∧ u.pwc.factor = s.pwc.settings.software ∧
        (s.pwc.overrideOn = true → u.pendingEvent .thermalOverride = true))

/-- The way into STANDBY and out of it: the DRAM is empty and enters self-refresh; the PANEL and AUDIO rails go off,
the snapshot freezes and STANDBY is entered; at the exit the AUDIO rail is brought up (R140, R145, R123). That the
snapshot freezes and the rails go off when self-refresh has been entered, and not when the entry begins, is the model's
inference (log 36). -/
def Obligations.StandbyAndWake : Prop :=
  ∀ s : State,
    (s.pwc.step = .enterDrain → s.da.all = [] →
      exec .dramDrainComplete s =
        .next { s with pwc := { s.pwc with step := .enterRefresh }, da := { s.da with mode := .entering } }) ∧
    (s.da.mode = .entering → s.pwc.step = .enterRefresh → s.pwc.keptWake = none →
      ∃ u, exec .selfRefreshEntered s = .next (drain u) ∧ u.pwc.state = .standby ∧ u.da.mode = .selfRefresh ∧
        u.pwc.enables = { s.pwc.enables with panel := false, audio := false } ∧
        u.pwc.watched = { s.pwc.watched with panel := false, audio := false } ∧
        u.tb = { s.tb with refresh := false, fresh := false } ∧ u.pendingEvent .powerChange = true ∧
        (∀ n, (vget u.tm.beacons n).state = .idle)) ∧
    (∀ w, s.da.mode = .entering → s.pwc.step = .enterRefresh → s.pwc.keptWake = some w →
      ∃ u, exec .selfRefreshEntered s = .next (drain u) ∧ u.pwc.state = .waking ∧ u.pwc.lastWake = w ∧
        u.da.mode = .exiting ∧ u.tb.refresh = true ∧ u.pendingEvent .powerChange = true) ∧
    (s.da.mode = .exiting → s.pwc.step = .wakeExit → s.pins.pg.audio = false →
      ∃ u, exec .selfRefreshExitComplete s = .next (drain u) ∧ u.da.mode = .normal ∧ u.pwc.enables.audio = true ∧
        u.pwc.step = .wakeRail .audio [.panel] ∧ u.pwc.railTimer = some 10000)

/-- Power requests (R137, R138): taken in ACTIVE or DIMMED they replace the settings and move the state; with a field
out of range they are refused with FIELD, and in a transition with BUSY, and change nothing of the power controller. A
request code beyond OFF, which no command of the table spells, is refused with FIELD too. The settings stand at bytes 1
to 7 of the record, each factor from 1 to 8 and each flag 0 or 1 (R137, R184, R186). -/
def Obligations.PowerRequests : Prop :=
  (∀ (b : List Byte) (p : PowerSettings), settingsAt b = some p ↔
    p.software = byteAt b 1 ∧ 1 ≤ p.software ∧ p.software ≤ 8 ∧ p.override = byteAt b 2 ∧ 1 ≤ p.override ∧ p.override ≤ 8 ∧
    [false, true][byteAt b 3]? = some p.autoDim ∧ [false, true][byteAt b 4]? = some p.wakePresence ∧
    [false, true][byteAt b 5]? = some p.wakeTether ∧ [false, true][byteAt b 6]? = some p.restart ∧
    [false, true][byteAt b 7]? = some p.activeHigh) ∧
  (∀ (settings : List Byte) (seq : U32) (s : State),
    s.taking → settings.length = 7 → seq ≠ (s.entry .power).lastSeen →
    let requests : List Instr := [.powerRequestNone settings seq, .powerRequestActive settings seq,
      .powerRequestDimmed settings seq, .powerRequestStandby settings seq, .powerRequestOff settings seq]
    (∀ p, settingsAt (0 :: settings) = some p → s.pwc.awake = true →
      (∃ t, exec (.powerRequestNone settings seq) s = .next t ∧ t.pwc.settings = p ∧ t.pwc.state = s.pwc.state ∧
        (t.entry .power).outcome = .taken) ∧
      (∃ t, exec (.powerRequestActive settings seq) s = .next t ∧ t.pwc.settings = p ∧ t.pwc.state = .active ∧
        (t.entry .power).outcome = .taken ∧ (s.pwc.state = .dimmed → t.pwc.dimCause = .none)) ∧
      (∃ t, exec (.powerRequestDimmed settings seq) s = .next t ∧ t.pwc.settings = p ∧ t.pwc.state = .dimmed ∧
        t.pwc.dimCause = .request ∧ (t.entry .power).outcome = .taken) ∧
      (∃ t, exec (.powerRequestStandby settings seq) s = .next t ∧ t.pwc.settings = p ∧
        t.pwc.state = .enteringStandby ∧ t.pwc.dimCause = .none ∧ t.pwc.thermalTimer = none ∧
        (t.entry .power).outcome = .taken) ∧
      (s.pwc.enables.host = true → ∃ t, exec (.powerRequestOff settings seq) s = .next t ∧ t.pwc.settings = p ∧
        t.pwc.state = .stopping ∧ t.pwc.lastStop = .request ∧ t.pwc.hostReset = true ∧
        (t.entry .power).outcome = .taken)) ∧
    (settingsAt (0 :: settings) = none → ∀ c ∈ requests, runsTo c s fun u =>
      u.judged .power seq .refusedField ∧ u.pwc = s.pwc ∧ u.eu = s.eu) ∧
    (∀ p, settingsAt (0 :: settings) = some p →
      s.pwc.state ∈ [PowerState.starting, .enteringStandby, .waking, .stopping] → ∀ c ∈ requests, runsTo c s fun u =>
        u.judged .power seq .refusedBusy ∧ u.pwc = s.pwc ∧ u.eu = s.eu)) ∧
  (∀ (b : List Byte) (s : State), 4 < byteAt b 0 → judgePower b s = (.refusedField, s))

/-! ### The host memory port and the region matcher (chapter 8) -/

/-- The class of a host transaction, and a host read that its class passes (R152, R154, R155, R157). An address in the
plan area, which PLAN_SEL places, is of the record area, the plain part or the status page by its offset; any other goes by
the first region entry, in index order, that is valid and covers it, from its base on for its size in pages of 4 KiB:
FRAME, FRESH, TOUCH or GUARD with what the entry binds; one that no entry covers is plain. A read that its class passes
makes, below 1 GiB, one HOST-class read request and waits for its line, and is answered at or above 1 GiB with 64 bytes of
FFh. -/
def Obligations.HostReads : Prop :=
  (∀ (a : Nat) (s : State),
    let plan := s.planBase
    let inPlan : Prop := plan ≤ a ∧ a < plan + 0x4000
    let covers (n : Fin 32) : Prop :=
      let r := vget s.rm.regions n
      r.valid = true ∧ r.base.toNat ≤ a ∧ a < r.base.toNat + 4096 * r.size.toNat
    [0x3FFFC000, 0, 0x1FFFC000, 0x20000000][s.pu.sel.val]? = some plan ∧
    (inPlan → a - plan < 0x1000 → classify a s = .record (a - plan)) ∧
    (inPlan → 0x1000 ≤ a - plan → a - plan < 0x2000 → classify a s = .planPlain) ∧
    (inPlan → 0x2000 ≤ a - plan → classify a s = .status ((a - plan - 0x2000) / 64)) ∧
    (¬ inPlan → (∀ n, ¬ covers n) → classify a s = .plain) ∧
    (¬ inPlan → ∀ n, covers n → (∀ m, m < n → ¬ covers m) →
      let r := vget s.rm.regions n
      (∀ k : Fin 6, r.kind = 0 → r.binding.toNat = k.val → classify a s = .frame k) ∧
      (∀ k : Fin 4, r.kind = 1 → r.binding.toNat = k.val → classify a s = .fresh n k) ∧
      (∀ k : Fin 4, r.kind = 2 → r.binding.toNat = k.val → classify a s = .touch k) ∧
      (r.kind = 3 → classify a s = .guarded n))) ∧
  ∀ (line : HostLine) (s : State), s.taking →
    (∀ p, classify (64 * line.toNat) s ≠ .status p) → (∀ e n, classify (64 * line.toNat) s ≠ .fresh e n) →
    (64 * line.toNat < 0x40000000 →
      ∃ t, exec (.hostRead line) s = .next t ∧ t.hmp.reads = s.hmp.reads ++ [⟨s.nextId, none⟩] ∧
        ⟨.hostRead s.nextId, line.toNat, .read⟩ ∈ t.da.all ∧ t.mem = s.mem ∧ t.out = s.out) ∧
    (0x40000000 ≤ 64 * line.toNat → s.hmp.reads = [] →
      ∃ t, exec (.hostRead line) s = .next t ∧ t.out = s.out ++ [.hostLine (List.replicate 64 0xFF)] ∧
        t.da = s.da ∧ t.mem = s.mem)

/-- A status page read is answered, when no earlier read waits, with the line composed from the state at its arrival,
and makes no DRAM request (R177, R154); line 73 takes two free values (log 21). Every line is 64 bytes and ends in the
composition stamp: the snapshot's time and epoch, time fresh, and zero (R177, R188). Its first 56 bytes are the field map
of R188: each field that `statusMap` lists stands at its offset, and every other byte is zero; lines 78 to 127 have no
field. The model's choices in `statusMap`: FFh for a left surface that RELEASE took out of the previous frame (log 40),
the level seen of a pulse source in an edge mode (log 54), and the widths and codes that R188's tables leave to inference
(log 35). -/
def Obligations.StatusPageReads : Prop :=
  ∀ (page : Fin 128) (s : State),
    (s.taking → s.hmp.reads = [] →
      exec (.statusPageRead page) s =
        .next { s with out := s.out ++ [.hostLine (statusLine page.val s)], nextId := s.nextId + 1,
                       free := if page.val = 73 then s.free + 2 else s.free }) ∧
    (statusLine page.val s).length = 64 ∧
    (statusLine page.val s).drop 56 =
      toBytes 5 s.tb.snapshot.time.toNat ++ [s.tb.snapshot.epoch, if s.tb.fresh then 1 else 0, 0] ∧
    (∀ f ∈ statusMap page.val s, bytesAt (statusLine page.val s) f.1 f.2.length = f.2) ∧
    (∀ i, i < 56 → (∀ f ∈ statusMap page.val s, i < f.1 ∨ f.1 + f.2.length ≤ i) →
      (statusLine page.val s).getD i 0 = 0) ∧
    (78 ≤ page.val → (statusLine page.val s).take 56 = List.replicate 56 0)

/-- A read that a FRESH entry applies to is answered, when no earlier read waits, with the bound slot's fresh line, at
any address, and makes no DRAM request (R159, R67). The line holds the slot's record, every field of it, or zeros with
EMPTY; STALE_TIME while time fresh is clear; the snapshot's time and epoch; the last photon time and the next expected
one, each given as none when it is of another epoch; the display frame number and the update count (R67, R68, R187). The
next expected photon time is R47's. The model's inferences: the line's epoch is the snapshot's (log 38), and the next
expected photon time carries the epoch of the last boundary (log 15). -/
def Obligations.FreshReads : Prop :=
  ∀ (n : Fin 4) (s : State),
    let l := freshLine n s
    let flags := l.getD 1 0
    (∀ (line : HostLine) (e : Fin 32), s.taking → s.hmp.reads = [] → classify (64 * line.toNat) s = .fresh e n →
      exec (.freshRead line) s = .next { s with out := s.out ++ [.hostLine l], nextId := s.nextId + 1 }) ∧
    l.length = 64 ∧
    flags.getLsbD 2 = (vget s.sh.slots n).record.isNone ∧
    flags.getLsbD 1 = !s.tb.fresh ∧
    bytesAt l 32 5 = toBytes 5 s.tb.snapshot.time.toNat ∧ l.getD 37 0 = s.tb.snapshot.epoch ∧
    bytesAt l 48 4 = toBytes 4 s.so.frameNumber.toNat ∧
    bytesAt l 52 4 = toBytes 4 (vget s.sh.slots n).updates.toNat ∧ bytesAt l 56 8 = List.replicate 8 0 ∧
    (∀ t, s.so.lastPhoton = some t → t.epoch = s.tb.snapshot.epoch →
      flags.getLsbD 3 = false ∧ bytesAt l 38 5 = toBytes 5 t.time.toNat) ∧
    ((∀ t, s.so.lastPhoton = some t → t.epoch ≠ s.tb.snapshot.epoch) →
      flags.getLsbD 3 = true ∧ bytesAt l 38 5 = List.replicate 5 0) ∧
    (∀ t, s.so.nextPhoton = some t → t.epoch = s.tb.snapshot.epoch →
      flags.getLsbD 4 = false ∧ bytesAt l 43 5 = toBytes 5 t.time.toNat) ∧
    ((∀ t, s.so.nextPhoton = some t → t.epoch ≠ s.tb.snapshot.epoch) →
      flags.getLsbD 4 = true ∧ bytesAt l 43 5 = List.replicate 5 0) ∧
    (∀ i, 5 ≤ i → flags.getLsbD i = false) ∧
    (s.so.state ≠ .running → s.so.nextPhoton = none) ∧
    (s.so.state = .running →
      let lead := s.so.applied.scan + s.so.applied.settle
      let period :=
        if s.so.applied.sync = .triggered ∧ s.so.coasting = false then s.so.measured.getD s.so.applied.period
        else s.so.applied.period
      let ahead := if s.so.phase = .scan ∨ s.so.phase = .settle then lead else period + lead
      s.so.nextPhoton = some ⟨s.so.lastBoundary.time + BitVec.ofNat 40 ahead, s.so.lastBoundary.epoch⟩) ∧
    (∀ r, (vget s.sh.slots n).record = some r →
      l.getD 0 0 = BitVec.ofNat 8 r.channel.val ∧ flags.getLsbD 0 = r.faultCleared ∧
      bytesAt l 2 2 = toBytes 2 r.seq.toNat ∧ bytesAt l 4 5 = toBytes 5 r.stamp.time.toNat ∧
      l.getD 9 0 = r.stamp.epoch ∧ l.getD 10 0 = BitVec.ofNat 8 r.length ∧ l.getD 11 0 = r.overrun ∧
      bytesAt l 12 4 = toBytes 4 r.frame.toNat ∧ bytesAt l 16 16 = padTo 16 r.payload) ∧
    ((vget s.sh.slots n).record = none → l.getD 0 0 = 0 ∧ flags.getLsbD 0 = false ∧
      bytesAt l 2 30 = List.replicate 30 0)

/-- Host writes by class (R154 to R159): a write that its class passes below 1 GiB joins the DRAM's requests; a dropped
one is counted in exactly one drop counter, every other one and the entries' fields staying, and a GUARD or out-of-range
drop is captured once with MEMORY_ERROR, a TOUCH write at or above 1 GiB pulsing its source before it is dropped. A write
that a FRAME entry applies to is observed: the final line of a band of an ORDERED surface completes it, with LATE if it
was SCANNED, and a write into a SCANNED band of a CURRENT surface sets LATE and raises LATE_WRITE (R6). A write to the
record area is merged into the shadow, each byte of its line the enabled one or else the old one, and passed to the DRAM
(R170); it submits exactly the records whose final word it enables whole with a new value (R171, R172), and one that
submits none and covers no live word does nothing else.
(A soft reset lays the default image over the shadow, `SoftResetEffect`; a power request is judged with the HOST rail on,
as in every state a run reaches with the port open.) A write with no byte enabled makes a request that completes when
chosen, so nothing is said of its waiting. -/
def Obligations.HostWrites : Prop :=
  ∀ (line : HostLine) (data : BitVec 512) (enables : BitVec 64) (s : State), s.taking →
    let a := 64 * line.toNat
    let bytes := enabledBytes data enables
    -- the drop is counted at region entry `e`, and at no other counter
    let countedAt (e : Fin 32) (t : State) : Prop :=
      vget t.rm.regions e = { vget s.rm.regions e with drops := (vget s.rm.regions e).drops + 1 } ∧
      (∀ m, m ≠ e → vget t.rm.regions m = vget s.rm.regions m) ∧
      t.rm.statusDrops = s.rm.statusDrops ∧ t.rm.rangeDrops = s.rm.rangeDrops
    (∀ off, classify a s = .record off →
      let passed (t : State) : Prop := t.mem = s.mem ∧
        (enables ≠ 0 → ⟨.hostWrite, line.toNat, .write bytes⟩ ∈ t.da.all) ∧
        ∀ i, t.pu.shadow.read i =
          if i / 64 = off / 64 ∧ enables.getLsbD (i % 64) = true then data.extractLsb' (8 * (i % 64)) 8
          else s.pu.shadow.read i
      let armed (k : RecordKind) (v : U32) : Prop :=
        k.seqOffset / 64 = off / 64 ∧ k.finalWord bytes = some v ∧ v ≠ (s.entry k).lastSeen
      let covers (w : LiveWord) : Prop := w.offset / 64 = off / 64 ∧ w.coveredBy bytes = true
      ((∀ v, ¬ armed .part v) → ((∃ v, armed .power v) → s.pwc.enables.host = true) →
        ∃ t, exec (.hostWrite line data enables) s = .next t ∧ passed t ∧
          (∀ k v, armed k v → (t.entry k).lastSeen = v ∧ (t.entry k).outcome ≠ .none) ∧
          (∀ k, (∀ v, ¬ armed k v) → (t.entry k).lastSeen = (s.entry k).lastSeen)) ∧
      ((∀ k v, ¬ armed k v) → (∀ w, ¬ covers w) →
        ∃ t, exec (.hostWrite line data enables) s = .next t ∧ passed t ∧
          t = { s with da := t.da, pu := { s.pu with shadow := t.pu.shadow } } ∧ t.da.captures = s.da.captures)) ∧
    (classify a s = .plain ∨ classify a s = .planPlain → a < 0x40000000 →
      ∃ t, exec (.hostWrite line data enables) s = .next t ∧ t.mem = s.mem ∧ t.rm = s.rm ∧ t.st = s.st ∧
        t.eu = s.eu ∧ (enables ≠ 0 → ⟨.hostWrite, line.toNat, .write bytes⟩ ∈ t.da.all)) ∧
    (∀ n, classify a s = .frame n → a < 0x40000000 →
      let f := s.st.surface n
      let joins (t : State) : Prop := t.mem = s.mem ∧ t.rm = s.rm ∧ t.so = s.so ∧
        (enables ≠ 0 → ⟨.hostWrite, line.toNat, .write bytes⟩ ∈ t.da.all)
      let touches (cfg : SurfaceConfig) : Prop := f.config = some cfg ∧ cfg.owner = .host ∧ f.state ≠ .free ∧
        cfg.base ≤ a ∧ (a - cfg.base) / cfg.pitch < cfg.height ∧ (a - cfg.base) % cfg.pitch < cfg.rowBytes
      ((∀ cfg, ¬ touches cfg) → ∃ t, exec (.hostWrite line data enables) s = .next t ∧ joins t ∧
        t.st = s.st ∧ t.eu = s.eu) ∧
      (∀ cfg b, touches cfg →
        let k := (a - cfg.base) / cfg.pitch / cfg.bandRows
        f.bands[k]? = some b →
        let final : Prop := cfg.mode = .ordered ∧ a = cfg.finalLine k
        let shownLate : Prop := f.state = .current ∧ b.scanned = true
        ∃ t b', exec (.hostWrite line data enables) s = .next t ∧ joins t ∧
          t.st = { s.st with surfaces := vset s.st.surfaces n { f with bands := f.bands.set k b' } } ∧
          b'.scanned = b.scanned ∧ b'.substituted = b.substituted ∧
          (b'.complete = true ↔ b.complete = true ∨ final) ∧
          (b'.late = true ↔ b.late = true ∨ shownLate ∨ (final ∧ b.complete = false ∧ b.scanned = true)) ∧
          (shownLate → t.pendingEvent .lateWrite = true) ∧ (¬ shownLate → t.eu = s.eu))) ∧
    (classify a s = .plain ∨ (∃ n, classify a s = .frame n) → 0x40000000 ≤ a →
      ∃ t, exec (.hostWrite line data enables) s = .next t ∧ t.rm.rangeDrops = s.rm.rangeDrops + 1 ∧
        t.rm.regions = s.rm.regions ∧ t.rm.statusDrops = s.rm.statusDrops ∧ t.da.requests = s.da.requests ∧
        t.da.captures.getLast? = some ⟨.outOfRange, BitVec.ofNat 32 a, .host, s.tb.now⟩ ∧
        t.da.captureTotal = s.da.captureTotal + 1 ∧ t.pendingEvent .memoryError = true) ∧
    (∀ p, classify a s = .status p →
      exec (.hostWrite line data enables) s =
        .next { s with rm := { s.rm with statusDrops := s.rm.statusDrops + 1 } }) ∧
    (∀ e n, classify a s = .fresh e n →
      ∃ t, exec (.hostWrite line data enables) s = .next t ∧ t.da = s.da ∧ t.eu = s.eu ∧ t.mem = s.mem ∧
        countedAt e t) ∧
    (∀ e, classify a s = .guarded e →
      ∃ t, exec (.hostWrite line data enables) s = .next t ∧ t.da.requests = s.da.requests ∧ t.mem = s.mem ∧
        countedAt e t ∧ t.da.captures.getLast? = some ⟨.droppedWrite, BitVec.ofNat 32 a, .host, s.tb.now⟩ ∧
        t.da.captureTotal = s.da.captureTotal + 1 ∧ t.pendingEvent .memoryError = true) ∧
    (∀ n : Fin 4, classify a s = .touch n → a < 0x40000000 →
      ∃ u, exec (.hostWrite line data enables) s = .next (drain u) ∧
        u.tm.pulses = s.tm.pulses ++ [⟨20 + n.val, by omega⟩] ∧ u.rm = s.rm ∧ u.mem = s.mem ∧
        (enables ≠ 0 → ⟨.hostWrite, line.toNat, .write bytes⟩ ∈ u.da.all)) ∧
    (∀ n : Fin 4, classify a s = .touch n → 0x40000000 ≤ a →
      ∃ u, exec (.hostWrite line data enables) s = .next (drain u) ∧
        u.tm.pulses = s.tm.pulses ++ [⟨20 + n.val, by omega⟩] ∧ u.mem = s.mem ∧ u.da.requests = s.da.requests ∧
        u.rm = { s.rm with rangeDrops := s.rm.rangeDrops + 1 } ∧
        u.da.captures.getLast? = some ⟨.outOfRange, BitVec.ofNat 32 a, .host, s.tb.now⟩ ∧
        u.da.captureTotal = s.da.captureTotal + 1 ∧ u.pendingEvent .memoryError = true)

/-- A transaction that comes while the port holds is held; one that comes in STANDBY is the wake cause HOST_ACCESS and
begins WAKING (R141, R142, R153). -/
def Obligations.HeldTransactions : Prop :=
  ∀ (tx : HostTx) (s : State), s.portOpen = true → s.hmp.hold ≠ .none → s.hmp.held = none → s.hmp.atPins = [] →
    ∃ t, exec (.heldTransaction tx) s = .next t ∧ t.hmp.held = some tx ∧ t.hmp.hold = s.hmp.hold ∧
      t.da.requests = s.da.requests ∧ t.rm = s.rm ∧ t.out = s.out ∧
      (s.hmp.hold = .standby → s.pwc.state = .standby →
        t.pwc.state = .waking ∧ t.pwc.lastWake = .hostAccess) ∧
      (s.hmp.hold = .standby → s.pwc.state = .enteringStandby → s.pwc.keptWake = none →
        t.pwc.state = .enteringStandby ∧ t.pwc.keptWake = some .hostAccess) ∧
      (s.hmp.hold ≠ .standby → t.pwc = s.pwc)

/-! ### The DRAM arbiter (chapter 8) -/

/-- The choice among waiting requests (R161, R162): with a request's effective rank the best rank of the requests made
from it on to its line, the chosen request is ready (no earlier one to its line waits), no ready request has a better
effective rank, and none made earlier has the same; some request is chosen whenever one waits. -/
def Obligations.ArbiterChoice : Prop :=
  let eff (r : Request) (later : List Request) : Nat :=
    ((r :: later).filter (·.line == r.line)).foldl (fun m q => min m q.agent.cls.rank) 5
  ∀ reqs : List Request,
    (chooseRequest reqs = none ↔ reqs = []) ∧
    (∀ r, chooseRequest reqs = some r →
      ∃ pre post, reqs = pre ++ r :: post ∧ (∀ q ∈ pre, q.line ≠ r.line) ∧
        ∀ pre' q post', reqs = pre' ++ q :: post' → (∀ x ∈ pre', x.line ≠ q.line) →
          eff r post ≤ eff q post' ∧ (eff q post' = eff r post → pre.length ≤ pre'.length))

/-- A DRAM completion command whose kind of request is in service, of a line that exists, completes it (R160):
planInitializationComplete, hostReadComplete, hostWriteComplete, scrubComplete, bandReadComplete,
sensorRingWriteComplete, depositWriteComplete, messageEntryWriteComplete, messageReadComplete, audioFetchComplete and
captureWriteComplete. -/
def Obligations.ServicesComplete : Prop :=
  ∀ (c : Instr) (r : Request) (s : State), s.da.service = some r → completes s c r.agent = true →
    r.line < lineLimit → exec c s = .next (finishService r (reportOf c) s)

/-- What a completion does to the memory: a write puts its enabled bytes in its line and gives the line's other bytes
the values read (corrected, or as they are read from an uncorrectable word); every byte outside the line, and all of
memory for a read or a scrub, reads as before (R160, R163, R164). The HOST rail is on, as in every state a run reaches
with a transaction at the port; else an OFF request taken at the port could lose the memory. -/
def Obligations.WritesReachTheMemory : Prop :=
  ∀ (c : Instr) (r : Request) (s t : State), s.da.service = some r → completes s c r.agent = true →
    (s.pwc.enables.host = true ∨ s.hmp.held = none ∧ s.hmp.atPins = []) → exec c s = .next t →
    (∀ a, a / 64 ≠ r.line → t.mem.read a = s.mem.read a) ∧
    (r.op = .read ∨ r.op = .scrub → t.mem = s.mem) ∧
    (∀ bytes, r.op = .write bytes → (bytes.map (·.1)).Nodup → (∀ b ∈ bytes, b.1 < 64) →
      (∀ b ∈ bytes, t.mem.read (64 * r.line + b.1) = b.2) ∧
      (bytes ≠ [] → ∀ i, i < 64 → (∀ b ∈ bytes, b.1 ≠ i) →
        t.mem.read (64 * r.line + i) =
          readByte (addReport s.da.flaws r.line (reportOf c)) r.line (s.mem.line r.line) i) ∧
      (bytes = [] → t.mem = s.mem))

/-- What the completion of a read brings its agent (R39, R40, R93, R109, R152): a host read's line goes to the host when
no earlier read waits; the last line of a band sends its rows, or the fallback colour if a line was uncorrectable,
unless its window has ended and they have gone (`FramePhases` and `BandStarts` say when); a period's last fetch advances
consume; the last read of a MESSAGE begins its transmission, with DAMAGED and its slot LOST if a line was uncorrectable.
That a band is sent whole, and is counted at its last read's completion, and that a failed fetch is counted at its completion, are the model's
inferences (logs 16 and 20). That every panel's read of a band is counted for itself, a late or failed band of a BOTH
surface so once for each panel, is the model's choice (log 46). -/
def Obligations.ReadsComplete : Prop :=
  ∀ (c : Instr) (r : Request) (s : State), s.da.service = some r → r.op = .read → completes s c r.agent = true →
    r.line < lineLimit → s.hmp.atPins = [] →
    let flaws := addReport s.da.flaws r.line (reportOf c)
    let data := readLine s.mem flaws r.line
    let bad := (lineFlaws flaws r.line).any fun f => !singleFlaw f.2
    (∀ id rest, r.agent = .hostRead id → s.hmp.reads = ⟨id, none⟩ :: rest →
      (∀ q, rest.head? = some q → q.answer = none) →
      runsTo c s fun u => u.hmp.reads = rest ∧ u.mem = s.mem ∧ u.out = s.out ++ [.hostLine data]) ∧
    (∀ job j, r.agent = .band job → s.so.jobs.find? (·.id == job) = some j →
      let sent (o : Output) : List Output := if j.late then s.out else s.out ++ [o]
      (2 ≤ j.left → runsTo c s fun u => u.out = s.out ∧ u.so.jobs.length = s.so.jobs.length) ∧
      (j.left = 1 → j.failed = false → bad = false → runsTo c s fun u =>
        u.out = sent (.panelBand j.panel j.band
          (BandJob.rows { j with lines := j.lines ++ [(r.line, data)] } s.so.applied.fallback)) ∧
        u.so.underruns = s.so.underruns + (if j.late then 1 else 0) ∧
        u.so.failedBands = s.so.failedBands) ∧
      (j.left = 1 → j.failed = true ∨ bad = true → runsTo c s fun u =>
        u.out = sent (.panelFallback j.panel (some j.band) s.so.applied.fallback) ∧
        u.so.failedBands = s.so.failedBands + 1 ∧ u.so.underruns = s.so.underruns)) ∧
    (∀ period p, r.agent = .fetch period → s.au.fetches = [p] → p.id = period →
      let old := vget s.au.rings p.ring
      let lost : U32 := if bad ∧ p.mixed = false then 1 else 0
      (2 ≤ p.left → runsTo c s fun u =>
        vget u.au.rings p.ring = { old with faileds := old.faileds + lost }) ∧
      (p.left = 1 → runsTo c s fun u =>
        vget u.au.rings p.ring = { old with faileds := old.faileds + lost
                                            consume := old.consume + BitVec.ofNat 32 p.count })) ∧
    (∀ read entry lines damaged n addr length, r.agent = .messageRead read →
      s.tc.lane = .reading entry read 1 lines damaged false →
      s.tc.queue.find? (·.id == entry) = some ⟨entry, .message n addr length⟩ →
      runsTo c s fun u =>
        let packet := uplinkPacket 0x33 false (damaged || bad) (vget s.tc.nextSeq 2)
          (gather (lines ++ [(r.line, data)]) addr length)
        u.tc.lane = .sending packet entry (laneTime packet) ∧ u.tc.idle = none ∧
        vget u.tc.nextSeq 2 = vget s.tc.nextSeq 2 + 1 ∧
        (vget u.tc.history 2).length = (vget s.tc.history 2).length + 1 ∧
        ((damaged || bad) = true → (u.entry (.messageSlot n)).outcome = .lost ∧ vget u.tc.inProgress n = false ∧
          u.pendingEvent .messageSent = true) ∧
        ((damaged || bad) = false → u.pu = s.pu ∧ u.tc.inProgress = s.tc.inProgress))

/-- What the completion of a write or a scrub brings its agent (R19, R64, R85, R105, R115, R165, R175). The produce index
of its ring advances over the longest run that now stands complete next: records of a sensor ring, entries of the message
ring, AUDIO payloads of ring 0, blocks of ring 2; MESSAGE_IN is raised where it advances. Every slice whose writes, and
those of every earlier in-order slice of its frame, are now complete moves in turn the deposit frontier of the frame that
last opened its surface, and completes the bands up to there (that the frontier moves where the surface is FREE is an
inference: log 38). A write of an earlier reset generation moves no ring. The last image write ends the port's hold, and in
STARTING releases the host and enters ACTIVE; a scrub leaves the list. -/
def Obligations.WritesComplete : Prop :=
  ∀ (c : Instr) (r : Request) (s : State), s.da.service = some r → completes s c r.agent = true →
    r.line < lineLimit → s.hmp.atPins = [] → s.tc.paused = none →
    (∀ q idx gen, r.agent = .sensorRing q idx gen →
      let old := vget s.sh.rings q
      let landed := old.done ++ [idx]
      let nth (i : Nat) : U16 := old.produce + BitVec.ofNat 16 i
      (gen ≠ s.generation → runsTo c s fun u => u.sh = s.sh) ∧
      (∀ k, gen = s.generation → (∀ i, i < k → nth i ∈ landed) → nth k ∉ landed → runsTo c s fun u =>
        vget u.sh.rings q =
          { old with produce := nth k, done := (List.range k).foldl (fun l i => l.erase (nth i)) landed } ∧
        ∀ m, m ≠ q → vget u.sh.rings m = vget s.sh.rings m)) ∧
    (∀ idx gen room, r.agent = .messageEntry idx gen room →
      let old := s.tc.ring
      (gen ≠ s.generation → runsTo c s fun u => u.tc = s.tc) ∧
      (∀ pre left post gone kept, gen = s.generation → old.jobs = pre ++ ⟨idx, left + 1⟩ :: post →
        (∀ j ∈ pre, j.index ≠ idx) → countsOff EntryJob.left (pre ++ ⟨idx, left⟩ :: post) gone kept →
        runsTo c s fun u =>
          u.tc = { s.tc with ring := { old with jobs := kept, produce := old.produce + BitVec.ofNat 16 gone.length } } ∧
          (gone ≠ [] → u.pendingEvent .messageIn = true) ∧
          (gone = [] → u.pendingEvent .messageIn = s.pendingEvent .messageIn))) ∧
    (∀ job room, r.agent = .deposit job room →
      (∀ pre ident n lastRow left post, s.tc.slices = pre ++ ⟨job, ident, n, lastRow, left + 1⟩ :: post →
        (∀ j ∈ pre, j.id ≠ job) →
        let slices := (pre ++ ⟨job, ident, n, lastRow, left⟩ :: post).zipIdx
        -- no write is left of the slice, nor of an earlier one of its frame
        let stands (p : SliceJob × Nat) : Bool := slices.all fun q => q.1.ident != p.1.ident || p.2 < q.2 || q.1.left == 0
        runsTo c s fun u => u.tc.slices = (slices.filter fun p => !stands p).map (·.1) ∧
          u.st = { s.st with surfaces := u.st.surfaces } ∧
          ∀ m : Fin 6,
            let old := vget s.tc.frontiers m
            let f := s.st.surface m
            let moves := ((slices.filter stands).map (·.1)).filter fun j => j.surface == m && old.openedBy == some j.ident
            vget u.tc.frontiers m = { old with deposit := (moves.getLast?.map SliceJob.lastRow).or old.deposit } ∧
            (moves = [] ∨ f.state = .free ∨ f.ownedBy .tether = false → u.st.surface m = f) ∧
            (∀ cfg, f.config = some cfg → cfg.owner = .tether → f.state ≠ .free →
              let reached (i : Nat) : Prop := ∃ j ∈ moves,
                i < if j.lastRow + 1 = cfg.height then cfg.bandCount else (j.lastRow + 1) / cfg.bandRows
              u.st.surface m = { f with bands := (u.st.surface m).bands } ∧
              (u.st.surface m).bands.length = f.bands.length ∧
              ∀ i b, f.bands[i]? = some b → ∃ b', (u.st.surface m).bands[i]? = some b' ∧
                (b'.complete = true ↔ b.complete = true ∨ reached i) ∧
                (b'.late = true ↔ b.late = true ∨ (b.complete = false ∧ b.scanned = true ∧ reached i)))) ∧
      (∀ pre frames left post gone kept, s.tc.audioJobs = pre ++ ⟨job, frames, left + 1⟩ :: post →
        (∀ j ∈ pre, j.id ≠ job) → countsOff AudioJob.left (pre ++ ⟨job, frames, left⟩ :: post) gone kept →
        runsTo c s fun u => u.tc.audioJobs = kept ∧
          vget u.au.rings 0 = { vget s.au.rings 0 with
            produce := (vget s.au.rings 0).produce + BitVec.ofNat 32 (gone.map AudioJob.frames).sum })) ∧
    (∀ block pre left post gone kept, r.agent = .capture block → s.au.blocks = pre ++ ⟨block, left + 1⟩ :: post →
      (∀ b ∈ pre, b.id ≠ block) → countsOff CaptureBlock.left (pre ++ ⟨block, left⟩ :: post) gone kept →
      runsTo c s fun u => u.au.blocks = kept ∧
        vget u.au.rings 2 = { vget s.au.rings 2 with
          produce := (vget s.au.rings 2).produce + BitVec.ofNat 32 (16 * gone.length) }) ∧
    (r.agent = .scrub → r.op = .scrub → runsTo c s fun u => u.da.scrubs = s.da.scrubs.filter (· != r.line)) ∧
    (r.agent = .planInit → s.hmp.held = none →
      (2 ≤ s.pu.initLeft → runsTo c s fun u => u.pu.initLeft = s.pu.initLeft - 1 ∧ u.hmp = s.hmp) ∧
      (s.pu.initLeft ≤ 1 → s.hmp.hold ≠ .standby → runsTo c s fun u => u.hmp.hold = .none ∧
        (s.pwc.step = .startPlan → u.pwc.state = .active ∧ u.pwc.hostReset = false ∧ u.au.running = true ∧
          u.pendingEvent .powerChange = true) ∧
        (s.pwc.step ≠ .startPlan → u.pwc = s.pwc)))

/-- Errors found in a line (R164 to R166). A line read counts its corrected words and queues a scrub of the line,
unless it is listed already or the list is full, and tells its agent of an uncorrectable word. A capture joins as the
newest entry with the timebase's time, the oldest leaves a full list, and the total goes up by 1; the list's change count
(R178) goes up by 1 also when one entry leaves and one joins, which is the model's inference (log 14). -/
def Obligations.ErrorsOfALineRead : Prop :=
  ∀ (line : Nat) (kind : CaptureKind) (addr : Nat) (agent : ReqClass) (s : State),
    let found := lineFlaws s.da.flaws line
    let n := (found.filter fun f => singleFlaw f.2).length
    let t := (serveRead line s).2
    let x := capture kind addr agent s
    (serveRead line s).1.bad = (found.any fun f => !singleFlaw f.2) ∧ t.mem = s.mem ∧
    t.da.corrected = s.da.corrected + BitVec.ofNat 32 n ∧
    (n = 0 → t.da.scrubs = s.da.scrubs) ∧
    (0 < n → line ∉ s.da.scrubs → s.da.scrubs.length < 8 →
      t.da.scrubs = s.da.scrubs ++ [line] ∧ t.da.requests = s.da.requests ++ [⟨.scrub, line, .scrub⟩]) ∧
    (0 < n → line ∈ s.da.scrubs → t.da.scrubs = s.da.scrubs ∧ t.da.requests = s.da.requests) ∧
    (0 < n → line ∉ s.da.scrubs → 8 ≤ s.da.scrubs.length →
      t.da.scrubs = s.da.scrubs ∧ t.da.scrubMissed = s.da.scrubMissed + 1) ∧
    x.da.captureTotal = s.da.captureTotal + 1 ∧ x.da.change = s.da.change + 1 ∧
    (s.da.captures.length ≤ 8 →
      x.da.captures =
        (if s.da.captures.length = 8 then s.da.captures.drop 1 else s.da.captures) ++
          [⟨kind, BitVec.ofNat 32 addr, agent, s.tb.now⟩])

/-- A service that finds an uncorrectable word captures the line once with its agent's class and raises MEMORY_ERROR;
one that finds none captures nothing (R163 to R166). A merge judges only the words it does not replace whole. -/
def Obligations.UncorrectableWordsAreCaptured : Prop :=
  ∀ (c : Instr) (r : Request) (s : State), s.da.service = some r → completes s c r.agent = true →
    r.line < lineLimit → s.hmp.held = none → s.hmp.atPins = [] →
    let bad : Prop := ∃ f ∈ lineFlaws (addReport s.da.flaws r.line (reportOf c)) r.line, singleFlaw f.2 = false ∧
      match r.op with
      | .write bytes => bytes ≠ [] ∧ judged bytes (f.1 % 8) = true
      | _ => True
    ∃ t, exec c s = .next t ∧
      (bad → t.da.captureTotal = s.da.captureTotal + 1 ∧ t.pendingEvent .memoryError = true ∧
        t.da.captures.getLast? =
          some ⟨r.op.captureKind, BitVec.ofNat 32 (64 * r.line), r.agent.cls, s.tb.now⟩) ∧
      (¬ bad → t.da.captureTotal = s.da.captureTotal ∧ t.da.captures = s.da.captures)

/-! ### Arms, outcomes and live words (chapter 9) -/

/-- Every command that arms a record (R170 to R172): its bytes are merged into the shadow and its line write joins the
DRAM's requests; with a new sequence the record's owner judges its snapshot, the last seen sequence is the armed one and
the table has the owner's outcome; with the last seen sequence nothing is armed, and the merge and the request are all
that happens. (A soft reset lays the default image over the shadow, `SoftResetEffect`.) A power record arm is taken with
the HOST rail on, as in every state a run reaches with the port open. That a command writes its fields and its sequence,
and no live word, is the model's choice (log 12). -/
def Obligations.EveryArmIsJudged : Prop :=
  ∀ (c : Instr) (k : RecordKind) (seq : U32) (s : State), armsOf c = some (k, seq) → s.taking →
    let bytes := armWrite c
    let requested (t : State) : Prop :=
      ⟨.hostWrite, (s.planBase + k.seqOffset) / 64, .write bytes⟩ ∈ t.da.all
    let merged (t : State) : Prop := ∀ i, t.pu.shadow.read i =
      if i / 64 = k.seqOffset / 64 then (bytes.lookup (i % 64)).getD (s.pu.shadow.read i) else s.pu.shadow.read i
    (seq ≠ (s.entry k).lastSeen → (k = .power → s.pwc.enables.host = true) →
      ∃ t, exec c s = .next t ∧ (t.entry k).lastSeen = seq ∧ (t.entry k).outcome ≠ .none ∧ requested t ∧
        (k ≠ .part → merged t)) ∧
    (seq = (s.entry k).lastSeen →
      ∃ t, exec c s = .next t ∧ t = { s with da := t.da, pu := { s.pu with shadow := t.pu.shadow } } ∧
        requested t ∧ merged t ∧ t.da.captures = s.da.captures)

/-- The part record (R176): with soft reset no it has no effect beyond its outcome; with yes it is refused in a
transition, and else every core block takes its soft-reset state and a new reset generation begins, the link, the
DRAM's requests, errors and captures and the always-on domain are kept, the table is cleared but for the part record's
entry, and the default image is written while the port holds (R64, R175). -/
def Obligations.SoftResetEffect : Prop :=
  ∀ (seq : U32) (s : State), s.arms .part seq →
    let untouched (u : State) : Prop :=
      u.hmp = s.hmp ∧ u.rm = s.rm ∧ u.st = s.st ∧ u.so = s.so ∧ u.sh = s.sh ∧ u.tc = s.tc ∧ u.au = s.au ∧
      u.tb = s.tb ∧ u.tm = s.tm ∧ u.pwc = s.pwc ∧ u.eu = s.eu ∧ u.mem = s.mem ∧ u.generation = s.generation
    (runsTo (.partRecordArm seq) s fun u => u.judged .part seq .taken ∧ untouched u) ∧
    (s.pwc.inTransition = true → runsTo (.softReset seq) s fun u => u.judged .part seq .refusedBusy ∧ untouched u) ∧
    (s.pwc.inTransition = false → runsTo (.softReset seq) s fun u =>
      u.judged .part seq .taken ∧ (∀ k, k ≠ .part → u.entry k = ⟨0, .none, 0⟩) ∧
      u.pu.softResets = s.pu.softResets + 1 ∧ u.pu.shadow = defaultImage s.pwc.settings seq ∧ u.pu.initLeft = 64 ∧
      u.hmp = { s.hmp with hold := .softReset } ∧ u.rm = Rm.reset ∧
      u.st = { St.reset with nextIdent := s.st.nextIdent } ∧ u.so = So.reset ∧ u.sh = Sh.reset ∧ u.tm = Tm.reset ∧
      u.au.rings = Au.reset.rings ∧ u.au.output = AudioOut.reset ∧ u.au.lfsr = 1 ∧ u.au.running = s.au.running ∧
      u.tc.link = s.tc.link ∧ u.tc.expected = s.tc.expected ∧ u.tc.lastTaken = s.tc.lastTaken ∧
      u.tc.nextSeq = s.tc.nextSeq ∧ u.tc.queue = [] ∧ u.tc.pairs = [] ∧ u.tc.ring = MessageRing.reset ∧
      u.eu = { Eu.reset with pendingSet := s.eu.pendingSet &&& alwaysOnKinds } ∧
      u.generation = s.generation + 1 ∧ u.tb = s.tb ∧ u.pwc = s.pwc ∧ u.mem = s.mem ∧
      u.da = { s.da with requests := u.da.requests, service := u.da.service } ∧
      (∀ r ∈ s.da.all, r.op ≠ .write [] → r ∈ u.da.all) ∧
      (∀ i, i < 64 → ⟨.planInit, s.planBase / 64 + i,
        .write (enumFrom 0 ((defaultImage s.pwc.settings seq).bytes (64 * i) 64))⟩ ∈ u.da.all))

/-- The commands of a surface record: OPEN, RELEASE by the surface's state, and configure (R1, R3, R4). A configuration is
read from bytes 0 to 16 of the record, its codes numbered from 0 in the order of the field table, and passes the checks of
R1; a command above 2 is refused with FIELD before any other check (R184, R186). -/
def Obligations.SurfaceCommands : Prop :=
  (∀ (b : List Byte) (c : SurfaceConfig), surfaceConfigAt b = some c ↔
    c.base = numAt b 0 4 ∧ c.pitch = numAt b 4 4 ∧ c.width = numAt b 8 2 ∧ c.height = numAt b 10 2 ∧
    [PixelFormat.rgba8, .rgb565][byteAt b 12]? = some c.format ∧ [Eye.left, .right, .both][byteAt b 13]? = some c.eye ∧
    [Owner.host, .tether][byteAt b 14]? = some c.owner ∧ [CompletionMode.ordered, .fenced][byteAt b 15]? = some c.mode ∧
    c.bandRows = byteAt b 16 ∧ c.bandRows ∈ [16, 32, 64]) ∧
  (∀ (plan : Nat) (c : SurfaceConfig),
    let extent := c.pitch * c.height
    c.ok plan = true ↔
      c.base % 4096 = 0 ∧ c.base + extent ≤ 0x40000000 ∧ (c.base + extent ≤ plan ∨ plan + 0x4000 ≤ c.base) ∧
      16 ≤ c.width ∧ c.width ≤ 2560 ∧ 16 ≤ c.height ∧ c.height ≤ 2560 ∧ c.pitch % 64 = 0 ∧
      c.width * (if c.format = .rgba8 then 4 else 2) ≤ c.pitch) ∧
  (∀ (n : Fin 6) (b : List Byte) (s : State), 2 < byteAt b 17 → judgeSurface n b s = (.refusedField, s)) ∧
  ∀ (n : Fin 6) (seq : U32) (s : State), s.arms (.surface n) seq →
    let f := s.st.surface n
    let k := RecordKind.surface n
    let put (x : Surface) : St := { s.st with surfaces := vset s.st.surfaces n x }
    let keeps (c : Instr) (o : Outcome) : Prop := runsTo c s fun u => u.judged k seq o ∧ u.st = s.st
    (f.ownedBy .tether = true → keeps (.surfaceOpen n seq) .refusedField) ∧
    (f.ownedBy .tether = false → f.config = none ∨ f.state ≠ .free ∨ s.st.barred = true →
      keeps (.surfaceOpen n seq) .refusedState) ∧
    (f.ownedBy .host = true → f.state = .free → s.st.barred = false →
      runsTo (.surfaceOpen n seq) s fun u => u.judged k seq .taken ∧
        u.st = put { f with state := .opened, bands := List.replicate f.bands.length ⟨false, false, false, false⟩,
                            fence := 0 }) ∧
    (f.state = .free → keeps (.surfaceRelease n seq) .taken) ∧
    (f.state = .queued ∨ f.state = .current → keeps (.surfaceRelease n seq) .refusedState) ∧
    (f.state = .opened → runsTo (.surfaceRelease n seq) s fun u => u.judged k seq .taken ∧
      u.st = { put { f with state := .free } with tether := s.st.tether.map (TetherFrame.release n) }) ∧
    (f.state = .ready → runsTo (.surfaceRelease n seq) s fun u => u.judged k seq .taken ∧
      u.st = put { f with state := .free }) ∧
    (f.state = .held → runsTo (.surfaceRelease n seq) s fun u => u.judged k seq .taken ∧
      u.st.surfaces = (put { f with state := .free }).surfaces ∧ u.st.queue = s.st.queue ∧
      u.st.current = s.st.current ∧ u.st.previous = s.st.previous.bind (Frame.without n)) ∧
    (∀ fields, fieldsOk 32 fields = true →
      ((∀ c, surfaceConfigAt fields = some c → c.ok s.planBase = false) →
        keeps (.surfaceConfigure n fields seq) .refusedField) ∧
      (∀ c, surfaceConfigAt fields = some c → c.ok s.planBase = true →
        (f.state ≠ .free → keeps (.surfaceConfigure n fields seq) .refusedState) ∧
        (f.state = .free → runsTo (.surfaceConfigure n fields seq) s fun u => u.judged k seq .taken ∧
          u.st = put { f with config := some c,
                              bands := List.replicate c.bandCount ⟨false, false, false, false⟩, fence := 0 })))

/-- Present slots: the checks in order, and the entry that joins the queue's tail (R9, R10). That a presence flag out of
its list fails with the checks of order 1, before the state is looked at, is the model's inference (log 25). The entry's
fields stand at bytes 0 to 19 of the record, the right surface FFh for NONE and a target or pose tag absent with presence
00h (R184, R186); the checks of orders 2 and 3 are those of R9. -/
def Obligations.PresentSlots : Prop :=
  (∀ (b : List Byte) (e : Entry), presentAt b = some e ↔
    e.tag = BitVec.ofNat 32 (numAt b 0 4) ∧ byteAt b 4 = e.left.val ∧
    (byteAt b 5 = 0xFF ∧ e.right = none ∨ ∃ r, byteAt b 5 = r.val ∧ e.right = some r) ∧ e.right ≠ some e.left ∧
    (byteAt b 6 = 0 ∧ e.target = none ∨
      byteAt b 6 = 1 ∧ e.target = some ⟨BitVec.ofNat 40 (numAt b 8 5), b.getD 13 0⟩) ∧
    (byteAt b 7 = 0 ∧ e.pose = none ∨ byteAt b 7 = 1 ∧ e.pose = some (BitVec.ofNat 32 (numAt b 16 4))) ∧
    e.source = .host) ∧
  (∀ (left : Fin 6) (right : Option (Fin 6)) (t : St),
    let eye (n : Fin 6) (x : Eye) : Prop := ∃ c, (t.surface n).config = some c ∧ c.eye = x
    t.eyesOk left right = true ↔
      (∃ r, right = some r ∧ eye left .left ∧ eye r .right) ∨ (right = none ∧ eye left .both)) ∧
  (∀ (n : Fin 6) (set : TimingSet) (t : St),
    (t.fitsPanel set n = true ↔
      ∃ c, (t.surface n).config = some c ∧ c.width = set.panelWidth ∧ c.height = set.panelHeight) ∧
    ((t.surface n).presentable = true ↔
      ∃ c, (t.surface n).config = some c ∧
        ((t.surface n).state = .ready ∨ (c.owner = .host ∧ (t.surface n).state = .opened)))) ∧
  ∀ (n : Fin 4) (fields : List Byte) (seq : U32) (s : State), s.arms (.present n) seq → fieldsOk 32 fields = true →
    let keeps (o : Outcome) : Prop :=
      runsTo (.presentSlotArm n fields seq) s fun u => u.judged (.present n) seq o ∧ u.st = s.st
    (presentAt fields = none → keeps .refusedField) ∧
    (∀ e, presentAt fields = some e →
      let ready : Prop := (∀ m ∈ e.named, (s.st.surface m).presentable = true) ∧ s.st.barred = false
      let fits : Prop := s.st.eyesOk e.left e.right = true ∧ ∀ m ∈ e.named, s.st.fitsPanel s.so.applied m = true
      (¬ ready → keeps .refusedState) ∧ (ready → ¬ fits → keeps .refusedField) ∧
      (ready → fits → 3 ≤ s.st.queue.length → keeps .refusedFull) ∧
      (ready → fits → s.st.queue.length < 3 →
        runsTo (.presentSlotArm n fields seq) s fun u => u.judged (.present n) seq .taken ∧
          u.st.queue = s.st.queue ++ [e] ∧ u.st.current = s.st.current ∧ u.st.previous = s.st.previous ∧
          ∀ m, u.st.surface m =
            { s.st.surface m with state := if m ∈ e.named then .queued else (s.st.surface m).state }))

/-- Timing set arms (R24, R25, R27): refused with a field out of range, or with a changed panel size while a frame runs
or is held, discarding a pending set; pending while RUNNING; and else taken at once, starting or stopping the engine. The
set is read from bytes 0 to 34 of the record, with the ranges, the frame fit and, in TRIGGERED mode, the sync loss limit of
R24 (R184, R186). -/
def Obligations.TimingArms : Prop :=
  (∀ (b : List Byte) (t : TimingSet),
    let selects : List StrobeSelect := [.off, .pulse, .inverted, .released]
    timingAt b = some t ↔
      [false, true][byteAt b 0]? = some t.scanEnable ∧ [SyncMode.free, .triggered][byteAt b 1]? = some t.sync ∧
      [Policy.fifo, .latest][byteAt b 2]? = some t.policy ∧ t.reloadSkip = byteAt b 3 ∧ t.reloadSkip ≤ 7 ∧
      [false, true][byteAt b 4]? = some t.photonUplink ∧ selects[byteAt b 5]? = some t.lineLeft ∧
      selects[byteAt b 6]? = some t.lineRight ∧ t.level = byteAt b 7 ∧ 1 ≤ t.level ∧ t.level ≤ 63 ∧
      t.period = numAt b 8 4 ∧ 5000 ≤ t.period ∧ t.period ≤ 20000 ∧ t.scan = numAt b 12 4 ∧ 1000 ≤ t.scan ∧
      t.settle = numAt b 16 4 ∧ t.settle ≤ 2000 ∧ t.strobeWidth = numAt b 20 4 ∧ 50 ≤ t.strobeWidth ∧
      t.strobeWidth ≤ 4000 ∧ t.scan + t.settle + t.strobeWidth + 100 ≤ t.period ∧ t.lossLimit = numAt b 24 4 ∧
      (t.sync = .triggered → t.period ≤ t.lossLimit ∧ t.lossLimit ≤ 1000000) ∧
      t.panelWidth = numAt b 28 2 ∧ 16 ≤ t.panelWidth ∧ t.panelWidth ≤ 2560 ∧
      t.panelHeight = numAt b 30 2 ∧ 16 ≤ t.panelHeight ∧ t.panelHeight ≤ 2560 ∧
      t.fallback = ⟨b.getD 32 0, b.getD 33 0, b.getD 34 0⟩) ∧
  (∀ t : St, t.holdsFrame = true ↔ t.queue ≠ [] ∨ t.current ≠ none ∨ t.previous ≠ none) ∧
  ∀ (fields : List Byte) (seq : U32) (s : State), s.arms .timing seq → fieldsOk 64 fields = true →
    let run (P : State → Prop) : Prop := runsTo (.timingSetArm fields seq) s P
    let old := (s.entry .timing).overtaken
    let after := if s.so.pendingSet.isSome then sat16 old else old
    (timingAt fields = none → run fun u => u.judged .timing seq .refusedField ∧
      u.so = { s.so with pendingSet := none } ∧ (u.entry .timing).overtaken = after) ∧
    (∀ t, timingAt fields = some t →
      let resized : Prop := t.panelWidth ≠ s.so.applied.panelWidth ∨ t.panelHeight ≠ s.so.applied.panelHeight
      let barred : Prop := resized ∧ (s.so.state = .running ∨ s.st.holdsFrame = true)
      (barred → run fun u => u.judged .timing seq .refusedState ∧
        u.so = { s.so with pendingSet := none } ∧ (u.entry .timing).overtaken = after) ∧
      (¬ barred → s.so.state = .running → run fun u => u.judged .timing seq .pending ∧
        u.so = { s.so with pendingSet := some (t, t.reloadSkip) } ∧ (u.entry .timing).overtaken = after) ∧
      (¬ barred → s.so.state ≠ .running → s.so.pendingSet = none → run fun u => u.judged .timing seq .taken ∧
        u.so.applied = t ∧ u.pendingEvent .timingTaken = true ∧
        (t.scanEnable = false → u.so.state = .stopped) ∧
        (t.scanEnable = true → s.so.state = .waiting ∨ s.mayStart = true →
          u.so.state = if t.sync = .free then .running else .waiting)))

/-- Sensor channel, routing rule and sensor ring arms (R50, R51, R52, R57, R59, R63). A channel's configuration is read
from bytes 0 to 15 of its record and a rule from bytes 0 to 10 of its own, with the checks of R50 and R59, a ring or fresh
slot FFh for NONE (R184, R186). -/
def Obligations.SensorArms : Prop :=
  (∀ (b : List Byte) (c : ChannelConfig), channelConfigAt b = some c ↔
    [false, true][byteAt b 0]? = some c.enable ∧
    [ChannelMode.dataReady, .interval, .matrix][byteAt b 1]? = some c.mode ∧
    c.cmdCount = byteAt b 2 ∧ c.cmdCount ≤ 4 ∧ c.readLen = byteAt b 3 ∧ 1 ≤ c.readLen ∧ c.readLen ≤ 16 ∧
    c.faultLimit = byteAt b 4 ∧ 1 ≤ c.faultLimit ∧ c.faultLimit ≤ 15 ∧ [false, true][byteAt b 5]? = some c.keep ∧
    c.interval = numAt b 8 4 ∧ (c.mode = .interval → 250 ≤ c.interval ∧ c.interval ≤ 1000000) ∧
    c.cmdBytes = bytesAt b 12 4) ∧
  (∀ (b : List Byte) (r : Rule), ruleAt b = some r ↔
    [false, true][byteAt b 0]? = some r.enable ∧ r.channels = BitVec.ofNat 4 (byteAt b 1) ∧
    [Condition.none, .above, .below, .equal][byteAt b 2]? = some r.cond ∧ r.offset = byteAt b 3 ∧ r.offset ≤ 15 ∧
    r.mask = b.getD 4 0 ∧ r.value = b.getD 5 0 ∧
    (byteAt b 6 = 0xFF ∧ r.ring = none ∨ ∃ q, byteAt b 6 = q.val ∧ r.ring = some q) ∧
    (byteAt b 7 = 0xFF ∧ r.slot = none ∨ ∃ q, byteAt b 7 = q.val ∧ r.slot = some q) ∧
    [false, true][byteAt b 8]? = some r.uplink ∧ [PresenceAction.none, .on, .off][byteAt b 9]? = some r.presence ∧
    [false, true][byteAt b 10]? = some r.final) ∧
  ∀ (fields : List Byte) (seq : U32) (s : State),
    (∀ n : Fin 4, s.arms (.channel n) seq → fieldsOk 64 fields = true →
      (channelConfigAt fields = none → runsTo (.sensorChannelArm n fields seq) s fun u =>
        u.judged (.channel n) seq .refusedField ∧ u.sh = s.sh) ∧
      (∀ cfg, channelConfigAt fields = some cfg →
        let old := s.channel n
        let kept := s.sh.hold && !cfg.keep
        let runs := cfg.enable && !kept
        let high := cfg.mode == .dataReady && s.pins.drdy.getLsbD n.val
        runsTo (.sensorChannelArm n fields seq) s fun u => u.judged (.channel n) seq .taken ∧
          u.channel n =
            { old with config := cfg, state := if runs then .running else .idle, resume := cfg.enable && kept,
                       consecutive := 0, faultCleared := old.faultCleared || old.state == .fault,
                       holder := if runs && high then some ⟨s.tb.now, s.so.frameNumber, 0⟩ else none,
                       timer := if runs && cfg.mode == .interval then some cfg.interval else none } ∧
          (∀ m, m ≠ n → u.channel m = s.channel m) ∧ u.sh.bus = s.sh.bus)) ∧
    (∀ n : Fin 16, s.arms (.rule n) seq → fieldsOk 16 fields = true →
      (ruleAt fields = none → runsTo (.routingRuleArm n fields seq) s fun u =>
        u.judged (.rule n) seq .refusedField ∧ u.sh = s.sh) ∧
      (∀ r, ruleAt fields = some r → runsTo (.routingRuleArm n fields seq) s fun u =>
        u.judged (.rule n) seq .taken ∧ u.sh = { s.sh with rules := vset s.sh.rules n r })) ∧
    (∀ n : Fin 8, s.arms (.sensorRing n) seq → fieldsOk 32 fields = true →
      let base := numAt fields 4 4
      let capacity := numAt fields 8 4
      let old := vget s.sh.rings n
      let enable := [false, true][byteAt fields 0]?
      let ok : Prop := capacity ∈ [16, 32, 64, 128, 256, 512, 1024, 2048, 4096] ∧ base % 64 = 0 ∧
        base + 32 * capacity ≤ 0x40000000 ∧ (base + 32 * capacity ≤ s.planBase ∨ s.planBase + 0x4000 ≤ base)
      let run (P : State → Prop) : Prop := runsTo (.sensorRingArm n fields seq) s P
      let keeps (o : Outcome) : Prop := run fun u => u.judged (.sensorRing n) seq o ∧ u.sh = s.sh
      let put (r : SensorRing) : Prop := run fun u => u.judged (.sensorRing n) seq .taken ∧
        u.sh = { s.sh with rings := vset s.sh.rings n r }
      (enable = none → keeps .refusedField) ∧
      (enable = some false → put { old with enabled := false }) ∧
      (enable = some true →
        (¬ ok → keeps .refusedField) ∧ (ok → old.enabled = true → keeps .refusedState) ∧
        (ok → old.enabled = false → old.issued ≠ old.produce → keeps .refusedBusy) ∧
        (ok → old.enabled = false → old.issued = old.produce →
          put { old with enabled := true, base, capacity, issued := old.consume, produce := old.consume,
                         done := [] })))

/-- Audio ring and audio output arms (R103, R104, R111). -/
def Obligations.AudioArms : Prop :=
  ∀ (fields : List Byte) (seq : U32) (s : State), fieldsOk 32 fields = true →
    (∀ n : Fin 3, s.arms (.audioRing n) seq →
      let gain := numAt fields 2 2
      let base := numAt fields 4 4
      let capacity := numAt fields 8 4
      let threshold := numAt fields 12 4
      let uplink : Byte := if n = 2 then fields.getD 1 0 else 0
      let size := capacity * (if n = 2 then 2 else 4)
      let old := vget s.au.rings n
      let enable := [false, true][byteAt fields 0]?
      let plain : Prop := gain ≤ 256 ∧ (n = 2 → byteAt fields 1 ≤ 1)
      let ok : Prop := capacity ∈ [256, 512, 1024, 2048, 4096, 8192, 16384, 32768, 65536] ∧ base % 64 = 0 ∧
        base + size ≤ 0x40000000 ∧ (base + size ≤ s.planBase ∨ s.planBase + 0x4000 ≤ base) ∧
        (n ≠ 2 → 48 ≤ threshold ∧ threshold ≤ capacity)
      let run (P : State → Prop) : Prop := runsTo (.audioRingArm n fields seq) s P
      let keeps (o : Outcome) : Prop := run fun u => u.judged (.audioRing n) seq o ∧ u.au = s.au
      let put (r : AudioRing) : Prop := run fun u => u.judged (.audioRing n) seq .taken ∧
        u.au.rings = vset s.au.rings n r ∧ u.au.fetches = s.au.fetches ∧ u.au.output = s.au.output
      (¬ plain ∨ enable = none → keeps .refusedField) ∧
      (plain → enable = some false → put { old with enabled := false, play := .stopped }) ∧
      (plain → enable = some true →
        (¬ ok → keeps .refusedField) ∧
        (ok → old.enabled = true →
          (base = old.base ∧ capacity = old.capacity → put { old with threshold, gain, uplink }) ∧
          (¬ (base = old.base ∧ capacity = old.capacity) → keeps .refusedState)) ∧
        (ok → old.enabled = false → old.inFlight n = true → keeps .refusedBusy) ∧
        (ok → old.enabled = false → old.inFlight n = false →
          let new := { old with enabled := true, base, capacity, threshold, gain, uplink }
          (n = 2 → put { new with issued := old.consume, produce := old.consume }) ∧
          (n ≠ 2 → put { new with issued := 0, produce := 0, taken := 0, consume := 0,
                                  play := if s.au.running then .priming else .stopped })))) ∧
    (s.arms .audioOut seq →
      let volume := numAt fields 0 2
      let taps : U16 := BitVec.ofNat 16 (numAt fields 4 2)
      let flag (i : Nat) : Option Bool := [false, true][byteAt fields i]?
      let select (i : Nat) : Option SpeakerSelect := [.low, .pwm, .pwmInverted, .released][byteAt fields i]?
      let run (P : State → Prop) : Prop := runsTo (.audioOutputArm fields seq) s P
      (256 < volume ∨ taps = 0 ∨ flag 2 = none ∨ flag 3 = none ∨ select 6 = none ∨ select 7 = none →
        run fun u => u.judged .audioOut seq .refusedField ∧ u.au = s.au) ∧
      (∀ mute dither left right, volume ≤ 256 → taps ≠ 0 → flag 2 = some mute → flag 3 = some dither →
        select 6 = some left → select 7 = some right →
        run fun u => u.judged .audioOut seq .taken ∧
          u.au = { s.au with output := { volume, mute, dither, taps, left, right }, lfsr := 1 }))

/-- Message ring and message slot arms (R84, R97). -/
def Obligations.MessageArms : Prop :=
  ∀ (fields : List Byte) (seq : U32) (s : State), fieldsOk 32 fields = true →
    (s.arms .messageRing seq →
      let base := numAt fields 4 4
      let count := numAt fields 8 4
      let old := s.tc.ring
      let enable := [false, true][byteAt fields 0]?
      let ok : Prop := count ∈ [4, 8, 16, 32, 64, 128, 256] ∧ base % 1024 = 0 ∧ base + 1024 * count ≤ 0x40000000 ∧
        (base + 1024 * count ≤ s.planBase ∨ s.planBase + 0x4000 ≤ base)
      let run (P : State → Prop) : Prop := runsTo (.messageRingArm fields seq) s P
      let keeps (o : Outcome) : Prop := run fun u => u.judged .messageRing seq o ∧ u.tc = s.tc
      let put (r : MessageRing) : Prop := run fun u => u.judged .messageRing seq .taken ∧ u.tc = { s.tc with ring := r }
      (enable = none → keeps .refusedField) ∧
      (enable = some false → put { old with enabled := false }) ∧
      (enable = some true →
        (¬ ok → keeps .refusedField) ∧ (ok → old.enabled = true → keeps .refusedState) ∧
        (ok → old.enabled = false → old.issued ≠ old.produce → keeps .refusedBusy) ∧
        (ok → old.enabled = false → old.issued = old.produce →
          put { old with enabled := true, base, count, issued := old.consume, produce := old.consume,
                         jobs := [] }))) ∧
    (∀ n : Fin 3, s.arms (.messageSlot n) seq →
      let addr := numAt fields 0 4
      let length := numAt fields 4 4
      let ok : Prop := 1 ≤ length ∧ length ≤ 1020 ∧ addr + length ≤ 0x40000000
      let linked : Prop := s.tc.link = .up ∨ s.tc.link = .recovery
      let run (o : Outcome) (P : State → Prop) : Prop :=
        runsTo (.messageSlotArm n fields seq) s fun u => u.judged (.messageSlot n) seq o ∧ P u
      (vget s.tc.inProgress n = true → run .refusedBusy fun u => u.tc = s.tc) ∧
      (vget s.tc.inProgress n = false →
        (¬ ok → run .refusedField fun u => u.tc = s.tc) ∧
        (ok → ¬ linked → run .refusedState fun u =>
          u.tc = { s.tc with unlinked := vset s.tc.unlinked 2 (vget s.tc.unlinked 2 + 1) }) ∧
        (ok → linked → 32 ≤ s.tc.queue.length → run .refusedFull fun u =>
          u.tc = { s.tc with fullDrops := vset s.tc.fullDrops 2 (vget s.tc.fullDrops 2 + 1) }) ∧
        (ok → linked → s.tc.queue.length < 32 → run .pending fun u => vget u.tc.inProgress n = true ∧
          (s.tc.lane ≠ .free → u.tc = { s.tc with inProgress := vset s.tc.inProgress n true,
                                                  queue := s.tc.queue ++ [⟨s.nextId, .message n addr length⟩] }))))

/-- Region, beacon, trigger and time record arms (R120, R127, R129, R157). A region entry is read from bytes 0 to 11 of its
record, with R157's checks where its valid is yes; of the trigger record input consumer n stands at 4n and output consumer
n at 32 + 4n, a source below 26 (R127, R184, R186). -/
def Obligations.RegionTriggerAndTimeArms : Prop :=
  (∀ (b : List Byte) (r : Region), regionAt b = some r ↔
    [false, true][byteAt b 0]? = some r.valid ∧ r.kind = b.getD 1 0 ∧
    r.binding = (if byteAt b 1 = 3 then 0 else b.getD 2 0) ∧ r.base = BitVec.ofNat 32 (numAt b 4 4) ∧
    r.size = BitVec.ofNat 32 (numAt b 8 4) ∧ r.drops = 0 ∧
    (r.valid = true →
      (byteAt b 1 = 0 ∧ byteAt b 2 < 6 ∨ (byteAt b 1 = 1 ∨ byteAt b 1 = 2) ∧ byteAt b 2 < 4 ∨ byteAt b 1 = 3) ∧
      numAt b 4 4 % 4096 = 0 ∧ 1 ≤ numAt b 8 4 ∧ numAt b 8 4 ≤ 262144 ∧
      numAt b 4 4 + 4096 * numAt b 8 4 ≤ 0x80000000)) ∧
  (∀ (b : List Byte) (n : Fin 8) (c : Consumer), consumerAt b n = some c ↔
    byteAt b (4 * n.val) = c.source.val ∧ [false, true][byteAt b (4 * n.val + 1)]? = some c.invert ∧
    [EdgeMode.rising, .falling, .both, .level][byteAt b (4 * n.val + 2)]? = some c.mode ∧ c.seen = false) ∧
  (∀ (b : List Byte) (n : Fin 2) (o : SyncOut), syncOutAt b n = some o ↔
    byteAt b (32 + 4 * n.val) = o.source.val ∧
    [SyncSelect.low, .high, .follow, .followInverted, .released][byteAt b (33 + 4 * n.val)]? = some o.select ∧
    o.follow = none) ∧
  ∀ (fields : List Byte) (seq : U32) (s : State), fieldsOk 32 fields = true →
    (∀ n : Fin 32, s.arms (.region n) seq →
      let old := vget s.rm.regions n
      (regionAt fields = none → runsTo (.regionRecordArm n fields seq) s fun u =>
        u.judged (.region n) seq .refusedField ∧ u.rm = s.rm) ∧
      (∀ r, regionAt fields = some r → runsTo (.regionRecordArm n fields seq) s fun u =>
        u.judged (.region n) seq .taken ∧ u.rm.regions = vset s.rm.regions n { r with drops := old.drops } ∧
        u.rm.statusDrops = s.rm.statusDrops ∧ u.rm.rangeDrops = s.rm.rangeDrops)) ∧
    (∀ n : Fin 2, s.arms (.beacon n) seq →
      let width := numAt fields 2 2
      let retrigger := [false, true][byteAt fields 4]?
      let line := [BeaconSelect.low, .high, .pulse, .pulseInverted, .released][byteAt fields 5]?
      let old := vget s.tm.beacons n
      let run (P : State → Prop) : Prop := runsTo (.beaconRecordArm n fields seq) s P
      (width = 0 ∨ retrigger = none ∨ line = none →
        run fun u => u.judged (.beacon n) seq .refusedField ∧ u.tm = s.tm) ∧
      (∀ restart select, width ≠ 0 → retrigger = some restart → line = some select →
        let new : Beacon := { old with delay := numAt fields 0 2, width, restart, select, state := .idle, timer := none }
        run fun u => u.judged (.beacon n) seq .taken ∧
          u.tm = { s.tm with beacons := vset s.tm.beacons n new })) ∧
    (s.arms .trigger seq →
      let b := s.pu.shadow.bytes 0xA00 124
      let run (P : State → Prop) : Prop := runsTo (.triggerRecordArm seq) s P
      ((∃ n, consumerAt b n = none) ∨ (∃ n, syncOutAt b n = none) →
        run fun u => u.judged .trigger seq .refusedField ∧ u.tm = s.tm) ∧
      ((∀ n, consumerAt b n ≠ none) → (∀ n, syncOutAt b n ≠ none) →
        run fun u => u.judged .trigger seq .taken ∧ u.tm.beacons = s.tm.beacons ∧ u.tm.pulses = s.tm.pulses ∧
          (∀ n c, consumerAt b n = some c →
            let same : Prop := (s.consumer n).source = c.source ∧ (s.consumer n).invert = c.invert
            (same → u.consumer n = { c with seen := (s.consumer n).seen }) ∧
            (¬ same → u.consumer n = { c with seen := s.consumerLevel c })) ∧
          (∀ n o, syncOutAt b n = some o →
            let old := vget s.tm.outs n
            vget u.tm.outs n = { o with follow := if old.source = o.source then old.follow else none }))) ∧
    (s.arms .time seq →
      let value : U64 := BitVec.ofNat 64 (numAt fields 8 8)
      let run (o : Outcome) (tb : Tb) : Prop :=
        runsTo (.timeRecordArm fields seq) s fun u => u.judged .time seq o ∧ u.tb = tb
      let inRange (m : AdjustMode) : Prop :=
        (m = .set → value.toNat < 2 ^ 40) ∧ (m = .add → value.toInt.natAbs < 2 ^ 39)
      let mode := [AdjustMode.set, .add][byteAt fields 0]?
      (s.tb.holding ≠ none → run .refusedBusy s.tb) ∧
      (s.tb.holding = none →
        (mode = none → run .refusedField s.tb) ∧
        (∀ m, mode = some m →
          (¬ inRange m → run .refusedField s.tb) ∧
          (inRange m → run .pending
            { s.tb with holding := some { mode := m, value, gen := s.generation, age := 0 } }))))

/-- Event record arms (R181): the enables become the snapshot's, the acknowledged flags are cleared, end-of-service
begins the gap of 2 µs, and the attention line is judged afresh; a flag beyond kind 27, or an end-of-service value that
is neither yes nor no, is refused. A raise sets its kind's flag, pending or not, and adds 1 to the kind's raise count up
to 65535, enabled or not, but counts nothing while the core domain is off, as an assertion of THERM_ALERT shows in every
power state (R180). -/
def Obligations.EventArms : Prop :=
  (∀ (enable ack seq : U32) (s : State), s.arms .event seq →
    (2 ^ 28 ≤ enable.toNat ∨ 2 ^ 28 ≤ ack.toNat →
      (runsTo (.eventRecordArm enable ack seq) s fun u => u.judged .event seq .refusedField ∧ u.eu = s.eu) ∧
      (runsTo (.endOfService enable ack seq) s fun u => u.judged .event seq .refusedField ∧ u.eu = s.eu)) ∧
    (enable.toNat < 2 ^ 28 → ack.toNat < 2 ^ 28 →
      let enables : BitVec 28 := enable.truncate 28
      let pending : BitVec 28 := s.eu.pendingSet &&& ~~~(ack.truncate 28)
      (runsTo (.eventRecordArm enable ack seq) s fun u => u.judged .event seq .taken ∧
        u.eu = { s.eu with enableSet := enables, pendingSet := pending } ∧
        u.attn ≠ none ∧ (u.attn = some true ↔
          (∃ i, pending.getLsbD i = true ∧ enables.getLsbD i = true) ∧ s.eu.gap = none)) ∧
      (runsTo (.endOfService enable ack seq) s fun u => u.judged .event seq .taken ∧
        u.eu = { s.eu with enableSet := enables, pendingSet := pending, gap := some 2 } ∧ u.attn = some false))) ∧
  (∀ (b : List Byte) (s : State), 1 < byteAt b 8 → judgeEvent b s = (.refusedField, s)) ∧
  (∀ (k : EventKind) (s : State),
    let counted (n : U16) : U16 := if s.coreOn = false then n else if n.toNat = 65535 then 65535 else n + 1
    let e := (raise k s).eu
    raise k s = { s with eu := e } ∧ e.enableSet = s.eu.enableSet ∧ e.gap = s.eu.gap ∧
    (∀ n : Fin 28, e.pendingSet.getLsbD n.val = (s.eu.pendingSet.getLsbD n.val || decide (n = k.num)) ∧
      vget e.counts n = if n = k.num then counted (vget s.eu.counts n) else vget s.eu.counts n)) ∧
  (∀ s : State, s.alertAsserted = false →
    ∃ t, exec .thermAlertAssertion s = .next t ∧ t.eu = (raise .thermal s).eu)

/-- Consume index writes of the sensor rings and the message ring (R65, R86, R174). The enabled bytes of the word are
merged into the shadow, every other byte of it staying, and the line write, where it enables a byte, joins the DRAM's
requests. The value the word then has acts at once, whether or not the ring is enabled; one beyond produce leaves the
index and captures and raises BAD_INDEX; any other makes no capture. A write that covers no byte of the word changes no
byte and no index. -/
def Obligations.ConsumeWrites : Prop :=
  ∀ (v : U32) (enables : BitVec 4) (s : State), s.taking →
    let refused (w : LiveWord) (t : State) : Prop :=
      s.mergesWord w v enables t ∧ t = { s.writtenAs t with da := t.da, eu := t.eu } ∧ t.pendingEvent .badIndex = true ∧
      t.da.captureTotal = s.da.captureTotal + 1 ∧
      t.da.captures.getLast? = some ⟨.badIndex, BitVec.ofNat 32 (s.planBase + w.offset), .host, s.tb.now⟩
    let idle (w : LiveWord) (t : State) : Prop :=
      s.mergesWord w v enables t ∧ t = s.writtenAs t ∧ t.pu.shadow = s.pu.shadow ∧ t.da.captures = s.da.captures
    (∀ q : Fin 8,
      let c : Instr := .sensorRingConsumeWrite q v enables
      let k : U16 := (s.liveValue (.sensorConsume q) v enables).truncate 16
      let r := vget s.sh.rings q
      (enables = 0 → ∃ t, exec c s = .next t ∧ idle (.sensorConsume q) t) ∧
      (enables ≠ 0 → (k - r.consume).toNat ≤ (r.produce - r.consume).toNat →
        ∃ t, exec c s = .next t ∧ s.mergesWord (.sensorConsume q) v enables t ∧
          t = { s.writtenAs t with sh := { s.sh with rings := vset s.sh.rings q { r with consume := k } } } ∧
          t.da.captures = s.da.captures) ∧
      (enables ≠ 0 → (r.produce - r.consume).toNat < (k - r.consume).toNat →
        ∃ t, exec c s = .next t ∧ refused (.sensorConsume q) t)) ∧
    (let c : Instr := .messageRingConsumeWrite v enables
      let k : U16 := (s.liveValue .messageConsume v enables).truncate 16
      let r := s.tc.ring
      (enables = 0 → ∃ t, exec c s = .next t ∧ idle .messageConsume t) ∧
      (enables ≠ 0 → (k - r.consume).toNat ≤ (r.produce - r.consume).toNat →
        ∃ t, exec c s = .next t ∧ s.mergesWord .messageConsume v enables t ∧
          t = { s.writtenAs t with tc := { s.tc with ring := { r with consume := k } } } ∧
          t.da.captures = s.da.captures) ∧
      (enables ≠ 0 → (r.produce - r.consume).toNat < (k - r.consume).toNat →
        ∃ t, exec c s = .next t ∧ refused .messageConsume t))

/-- Index writes of audio rings 1 and 2 (R106, R107, R174): merged, requested and judged likewise; the produce index of
ring 1 may move from where it stands to one capacity past consume, and the consume index of ring 2 from where it stands to
produce. -/
def Obligations.AudioIndexWrites : Prop :=
  ∀ (v : U32) (enables : BitVec 4) (s : State), s.taking →
    let refused (w : LiveWord) (t : State) : Prop :=
      s.mergesWord w v enables t ∧ t = { s.writtenAs t with da := t.da, eu := t.eu } ∧ t.pendingEvent .badIndex = true ∧
      t.da.captureTotal = s.da.captureTotal + 1 ∧
      t.da.captures.getLast? = some ⟨.badIndex, BitVec.ofNat 32 (s.planBase + w.offset), .host, s.tb.now⟩
    let idle (w : LiveWord) (t : State) : Prop :=
      s.mergesWord w v enables t ∧ t = s.writtenAs t ∧ t.pu.shadow = s.pu.shadow ∧ t.da.captures = s.da.captures
    let put (w : LiveWord) (n : Fin 3) (r : AudioRing) (t : State) : Prop :=
      s.mergesWord w v enables t ∧ t = { s.writtenAs t with au := { s.au with rings := vset s.au.rings n r } } ∧
      t.da.captures = s.da.captures
    let p := s.liveValue .ring1Produce v enables
    let r1 := vget s.au.rings 1
    let valid1 : Prop := (r1.produce - r1.consume).toNat ≤ (p - r1.consume).toNat ∧
      (p - r1.consume).toNat ≤ r1.capacity
    let k := s.liveValue .ring2Consume v enables
    let r2 := vget s.au.rings 2
    let valid2 : Prop := (k - r2.consume).toNat ≤ (r2.produce - r2.consume).toNat
    (enables = 0 →
      (∃ t, exec (.audioRing1ProduceWrite v enables) s = .next t ∧ idle .ring1Produce t) ∧
      (∃ t, exec (.audioRing2ConsumeWrite v enables) s = .next t ∧ idle .ring2Consume t)) ∧
    (enables ≠ 0 →
      (valid1 → ∃ t, exec (.audioRing1ProduceWrite v enables) s = .next t ∧
        put .ring1Produce 1 { r1 with produce := p } t) ∧
      (¬ valid1 → ∃ t, exec (.audioRing1ProduceWrite v enables) s = .next t ∧ refused .ring1Produce t) ∧
      (valid2 → ∃ t, exec (.audioRing2ConsumeWrite v enables) s = .next t ∧
        put .ring2Consume 2 { r2 with consume := k } t) ∧
      (¬ valid2 → ∃ t, exec (.audioRing2ConsumeWrite v enables) s = .next t ∧ refused .ring2Consume t))

/-- Fence word writes (R7, R170, R174). In every case the enabled bytes of the word are merged into the shadow, every other
byte of it staying, the line write, where it enables a byte, joins the DRAM's requests, and no capture is made. On a
HOST-owned FENCED surface that is not FREE, a value above the fence value becomes it and completes that many bands, a
SCANNED one with LATE; otherwise the word only stands in the shadow. -/
def Obligations.FenceWrites : Prop :=
  ∀ (n : Fin 6) (v : U32) (enables : BitVec 4) (s : State), s.taking →
    let f := s.st.surface n
    let w := s.liveValue (.fence n) v enables
    let acts : Prop := enables ≠ 0 ∧ f.state ≠ .free ∧ f.fence.toNat < w.toNat ∧
      ∃ c, f.config = some c ∧ c.owner = .host ∧ c.mode = .fenced
    (¬ acts → ∃ t, exec (.fenceWordWrite n v enables) s = .next t ∧ s.mergesWord (.fence n) v enables t ∧
      t = s.writtenAs t ∧ t.da.captures = s.da.captures) ∧
    (acts → ∃ t g, exec (.fenceWordWrite n v enables) s = .next t ∧ s.mergesWord (.fence n) v enables t ∧
      t = { s.writtenAs t with st := { s.st with surfaces := vset s.st.surfaces n g } } ∧
      t.da.captures = s.da.captures ∧
      g.fence = w ∧ g.state = f.state ∧ g.config = f.config ∧ g.bands.length = f.bands.length ∧
      ∀ i b, f.bands[i]? = some b →
        g.bands[i]? = some (if i < min w.toNat (f.config.map SurfaceConfig.bandCount |>.getD 0) ∧ b.complete = false then
          { b with complete := true, late := b.late || b.scanned } else b))

/-! ### Scan-out and strobe (chapters 1 and 2) -/

/-- Which queue entry a boundary takes (R12 to R14): under FIFO the head if it is eligible; under LATEST the newest of
the run of eligible entries at the head, the older ones of the run being dropped. An entry is eligible without a target,
with a target of another epoch, or when its target minus the expected photon time, modulo 2^40 and signed, is at most
half the period. -/
def Obligations.PresentPolicies : Prop :=
  ∀ (boundary : Stamp) (set : TimingSet),
    (∀ e : Entry, e.eligible boundary set = true ↔
      ∀ t, e.target = some t → t.epoch = boundary.epoch →
        (t.time - (boundary.time + BitVec.ofNat 40 (set.scan + set.settle))).toInt ≤ (set.period / 2 : Nat)) ∧
    (set.policy = .fifo → choosePresent boundary set [] = ([], none, []) ∧ ∀ e rest,
      choosePresent boundary set (e :: rest) =
        if e.eligible boundary set then ([], some e, rest) else ([], none, e :: rest)) ∧
    (set.policy = .latest → ∀ run rest : List Entry, (∀ e ∈ run, e.eligible boundary set = true) →
      (∀ e, rest.head? = some e → e.eligible boundary set = false) →
      choosePresent boundary set (run ++ rest) = (run.dropLast, run.getLast?, rest))

/-- The frame boundaries SO makes by itself (R15, R16, R26, R28, R31 to R33, R35 to R37): at the frame period's expiry,
and at the sync loss limit with coasting and SYNC_LOST. A pending set is taken, or counts down while the applied set
stays, and the boundary goes by the set then applied throughout: its phase lengths, period and loss limit, strobe
level, fallback colour and present policy; one with sync mode FREE ends coasting and the measurement. That SYNC_LOST is
raised also where the boundary at the sync loss limit itself takes a set with sync mode FREE or scan enable no is the
model's choice (log 61). The frame number advances, SCAN begins, an entry is taken or the current frame repeated. The
surfaces of entries dropped under LATEST and of the previous frame go FREE, those of the current frame HELD and those of
the taken entry CURRENT, and on the surfaces of the frame now shown SCANNED, LATE and SUBSTITUTED are cleared (R14 to R16).
Both panels get a frame start with the strobe level, and the frame's band schedules begin: one for each panel, or one for
both where its one surface is BOTH; without a frame the panels get the fallback colour (R31, R38). Where the set then
applied has scan enable no, the engine goes STOPPED with FRAME_BOUNDARY pulsed, and nothing is decided, shown or sent; and
a stop asked for in ENTERING_STANDBY is answered here. -/
def Obligations.FrameBoundaries : Prop :=
  ∀ s : State, s.so.afterDark = true →
    let so := s.so
    let top : U32 := 0xFFFFFFFF
    -- a surface as a boundary that shows the surfaces `shown` leaves it, its state apart
    let unmarked (shown : List (Fin 6)) (n : Fin 6) : Surface :=
      let f := s.st.surface n
      if n ∈ shown then
        { f with bands := f.bands.map fun b => { b with scanned := false, late := false, substituted := false } }
      else f
    let schedule (panel : Side) (both : Bool) (n : Fin 6) : List Schedule :=
      match (s.st.surface n).config with
      | some c => [{ panel, both, surface := n, next := 0, count := (c.height + c.bandRows - 1) / c.bandRows }]
      | none => []
    let schedules (left right : Option (Fin 6)) : List Schedule :=
      match left, right with
      | some l, some r => if l = r then schedule .left true l else schedule .left false l ++ schedule .right false r
      | some l, none => schedule .left ((s.st.surface l).config.any fun c => c.eye == .both) l
      | none, some r => schedule .right false r
      | none, none => []
    -- the frame that a boundary begins by the timing set `set`
    let frame (set : TimingSet) (coasting : Bool) (u : State) : Prop :=
      let own := set.sync == .free || coasting
      let starts : List Output := [.panelStart .left set.level, .panelStart .right set.level]
      u.so.lastBoundary = s.tb.now ∧
      u.so.state = .running ∧ u.so.phase = .scan ∧ u.so.phaseTimer = some set.scan ∧
      u.so.coasting = coasting ∧ u.so.edgeKill = false ∧ u.so.powerCut = false ∧
      u.so.periodTimer = (if own then some set.period else none) ∧
      u.so.syncTimer = (if own then none else some set.lossLimit) ∧
      match choosePresent s.tb.now set s.st.queue with
      | (dropped, some e, rest) =>
        u.st.current = some e.toFrame ∧ u.st.previous = s.st.current ∧ u.st.queue = rest ∧
        u.st.dropped = s.st.dropped + BitVec.ofNat 32 dropped.length ∧ u.pendingEvent .frame = true ∧
        (dropped ≠ [] → u.pendingEvent .dropped = true) ∧ u.tm.pulses = s.tm.pulses ++ [2, 6] ∧
        (∀ n,
          let state : SurfaceState :=
            if n ∈ e.named then .current
            else if n ∈ namedBy s.st.current then .held
            else if n ∈ namedBy s.st.previous ∨ n ∈ dropped.flatMap Entry.named then .free
            else (s.st.surface n).state
          u.st.surface n = { unmarked e.named n with state }) ∧
        u.out = s.out ++ starts ∧ u.so.schedules = schedules (some e.left) e.right
      | (_, none, _) =>
        u.st.queue = s.st.queue ∧ u.st.previous = s.st.previous ∧
        u.st.current = s.st.current.map (fun f => { f with repeats := sat16 f.repeats, substituted := 0, bandLate := false }) ∧
        (s.st.current ≠ none → u.pendingEvent .repeated = true) ∧ u.tm.pulses = s.tm.pulses ++ [2] ∧
        (∀ n, u.st.surface n = unmarked (namedBy s.st.current) n) ∧
        (∀ f, s.st.current = some f → u.out = s.out ++ starts ∧ u.so.schedules = schedules f.left f.right) ∧
        (s.st.current = none → u.so.schedules = [] ∧
          u.out = s.out ++ starts ++ [.panelFallback .left none set.fallback, .panelFallback .right none set.fallback])
    let stopped (u : State) : Prop :=
      u.so.state = .stopped ∧ u.so.coasting = false ∧ u.so.measured = none ∧
      u.st = s.st ∧ u.tm.pulses = s.tm.pulses ++ [2] ∧ u.out = s.out
    -- a boundary with the timing set `set` applied
    let bounds (set : TimingSet) (coasting : Bool) (u : State) : Prop :=
      u.so.applied = set ∧ u.so.frameNumber = (if so.frameNumber = top then top else so.frameNumber + 1) ∧
      (so.frameNumber = top → u.so.limitPassed = true) ∧
      (set.scanEnable = true → frame set coasting u) ∧ (set.scanEnable = false → stopped u)
    -- what the two expiries do, each with whether it coasts
    let expiries (P : Bool → State → Prop) : Prop :=
      (so.periodTimer = some 0 → runsTo .framePeriodExpiry s (P so.coasting)) ∧
      (so.syncTimer = some 0 → runsTo .syncLossExpiry s (P true))
    (so.stopRequested = false →
      (so.pendingSet = none → expiries fun coasting u => bounds so.applied coasting u ∧ u.so.pendingSet = none) ∧
      (∀ t, so.pendingSet = some (t, 0) → expiries fun coasting u =>
        bounds t (t.sync != .free && coasting) u ∧ u.so.pendingSet = none ∧ (u.entry .timing).outcome = .taken ∧
        u.pendingEvent .timingTaken = true ∧ (t.sync = .free → u.so.measured = none)) ∧
      (∀ t k, so.pendingSet = some (t, k + 1) → expiries fun coasting u =>
        bounds so.applied coasting u ∧ u.so.pendingSet = some (t, k))) ∧
    (so.stopRequested = false → so.syncTimer = some 0 →
      runsTo .syncLossExpiry s fun u => u.pendingEvent .syncLost = true) ∧
    (so.stopRequested = true → expiries fun _ u => u.so.state = .stopped ∧
      (∀ t k, so.pendingSet = some (t, k) → u.so.applied = t ∧ u.so.pendingSet = none ∧
        (u.entry .timing).outcome = .taken) ∧
      (s.pwc.step = .enterScan → u.atRest ∧ u.pwc.step = .enterDrain))

/-- The phases of a frame (R30) and the decision at strobe begin (R41, R46): each phase ends at its timer, pulsing the
next one's source; the end of SCAN ends every band's window (R38), and a band that is still being read then sends what
has come of it, which is the model's inference (log 16); the frame lights, with its window and photon report, when a
current frame exists, a line is selected and the number limit is not passed, the state is ACTIVE and nothing kills it; a
kill or power cause alone is counted and raises STROBE_KILLED. With photon uplink yes the report is handed to the tether
controller, which drops and counts it while the link is DOWN or TRAINING or its queue is full, and else queues it (said
while the lane is held or in RECOVERY; a free lane then sends the next packet) (R48, R90). -/
def Obligations.FramePhases : Prop :=
  ∀ s : State,
    let so := s.so
    (so.state = .running → so.phase = .scan → so.phaseTimer = some 0 → runsTo .scanEnd s fun u =>
      u.so = { so with phase := .settle, phaseTimer := some so.applied.settle,
                       jobs := so.jobs.map fun j => { j with late := true } } ∧
      u.out = s.out ++ (so.jobs.filter fun j => !j.late).map (fun j =>
        if j.failed then .panelFallback j.panel (some j.band) so.applied.fallback
        else .panelBand j.panel j.band (j.rows so.applied.fallback)) ∧
      u.tm.pulses = s.tm.pulses ++ [3]) ∧
    (so.state = .running → so.phase = .strobe → so.phaseTimer = some 0 → runsTo .strobeEnd s fun u =>
      u.so = { so with phase := .dark, phaseTimer := none, darkTimer := some 100, light := none } ∧
      u.tm.pulses = s.tm.pulses ++ [5]) ∧
    (so.darkTimer = some 0 → runsTo .minimumDarkEnd s fun u => u = { s with so := { so with darkTimer := none } }) ∧
    (so.light = some 0 → exec .lightWindowEnd s = .next { s with so := { so with light := none } }) ∧
    (so.state = .running → so.phase = .settle → so.phaseTimer = some 0 →
      let silent : Prop := s.st.current = none ∨ so.applied.linesSelected = false ∨ so.limitPassed = true
      let stopped : Prop := s.pwc.state ≠ .active ∨ s.killed = true
      runsTo .strobeBegin s fun u =>
        u.so.phase = .strobe ∧ u.so.phaseTimer = some so.applied.strobeWidth ∧ u.so.lastThrottle = s.pwc.factor ∧
        u.tm.pulses = s.tm.pulses ++ [4] ∧
        (silent → u.so.light = so.light ∧ u.so.reports = so.reports ∧ u.so.suppressed = so.suppressed ∧ u.eu = s.eu ∧
          u.tc = s.tc) ∧
        (¬ silent → stopped → u.so.light = so.light ∧ u.so.reports = so.reports ∧
          u.so.suppressed = so.suppressed + 1 ∧ u.pendingEvent .strobeKilled = true ∧ u.tc = s.tc) ∧
        (¬ silent → ¬ stopped → u.so.suppressed = so.suppressed ∧ u.so.lastPhoton = some s.tb.now ∧
          u.so.light = some (so.applied.strobeWidth * s.pwc.factor / 8) ∧
          ∃ f, s.st.current = some f ∧
            let report : Photon :=
              { frame := so.frameNumber, tag := f.tag, pose := f.pose, stamp := s.tb.now, repeats := f.repeats,
                substituted := f.substituted, cut := false }
            let linked : Prop := s.tc.link = .up ∨ s.tc.link = .recovery
            u.so.reports = newest 8 (so.reports ++ [report]) ∧
            (so.applied.photonUplink = false → u.tc = s.tc) ∧
            (so.applied.photonUplink = true →
              (¬ linked → u.tc = { s.tc with unlinked := vset s.tc.unlinked 0 (vget s.tc.unlinked 0 + 1) }) ∧
              (linked → 32 ≤ s.tc.queue.length → u.pendingEvent .uplinkFull = true ∧
                u.tc = { s.tc with fullDrops := vset s.tc.fullDrops 0 (vget s.tc.fullDrops 0 + 1) }) ∧
              (linked → s.tc.queue.length < 32 → s.tc.link = .recovery ∨ s.tc.lane ≠ .free →
                u.tc = { s.tc with queue := s.tc.queue ++ [⟨s.nextId, .photon report⟩] }))))

/-- A band start (R8, R38 to R40): it answers a next state in which the schedule moves on, and for each panel that the
schedule serves a COMPLETE band is read from the current surface, an EMPTY one from the previous frame's surface for
that panel, at its base and pitch, and where there is none the fallback colour is sent and nothing is read. Each read is
one job with the band's rows, and its lines join the DRAM's requests in class SCAN. A COMPLETE band is marked SCANNED;
an EMPTY one is marked SCANNED and SUBSTITUTED, counted once, and raises BAND_LATE once a scan. The windows of the
panels' bands before it end: what has come of those still being read is sent, which is the model's inference (log 16).
That a band of a BOTH surface is read in two jobs, one for each panel, is the model's choice (log 46).
The schedule's band lies in the scoreboard, as it does in every state a run reaches. -/
def Obligations.BandStarts : Prop :=
  ∀ (panel : Side) (c : Schedule) (cfg : SurfaceConfig) (b : Band) (s : State),
    s.so.schedules.find? (·.panel == panel) = some c → s.so.state = .running → c.next < c.count →
    bandTime s.so.applied.scan c.next c.count ≤ s.so.sinceBoundary →
    (s.st.surface c.surface).config = some cfg → (s.st.surface c.surface).bands[c.next]? = some b →
    let f := s.st.surface c.surface
    let marked (x : Band) : Vector Surface 6 :=
      vset s.st.surfaces c.surface { f with bands := f.bands.set c.next x }
    let width := s.so.applied.panelWidth
    let colour := s.so.applied.fallback
    let serves (p : Side) : Bool := p == panel || (c.both && p == .right)
    let panels : List Side := panel :: (if c.both then [.right] else [])
    -- what is read for a panel: the current surface, or the previous frame's at the same rows, or nothing
    let source (p : Side) : Option SurfaceConfig :=
      if b.complete then some cfg
      else ((s.st.previous.bind (s.st.frameSurface p)).bind fun n => (s.st.surface n).config).map
        fun pc => { pc with bandRows := cfg.bandRows }
    let reads (k : SurfaceConfig) : List Nat := bandLines k width (c.next * k.bandRows) (k.rowsOf c.next)
    let started : List (Side × SurfaceConfig) := panels.filterMap fun p => (source p).map fun k => (p, k)
    let ended := s.so.jobs.filter fun j => serves j.panel && !j.late
    ∃ t, exec (.bandStart panel) s = .next t ∧
      t.so = { s.so with
        schedules := updateFirst (·.panel == panel) (fun x => { x with next := x.next + 1 }) s.so.schedules
        jobs := (s.so.jobs.map fun j => if serves j.panel then { j with late := true } else j) ++
          started.mapIdx fun i x =>
            { id := s.nextId + i, panel := x.1, band := c.next, config := x.2, firstRow := c.next * x.2.bandRows,
              rowCount := x.2.rowsOf c.next, width, left := (reads x.2).length, failed := false, late := false,
              lines := [] } } ∧
      t.nextId = s.nextId + started.length ∧
      (∀ i x, started[i]? = some x → ∀ line ∈ reads x.2, ⟨.band (s.nextId + i), line, .read⟩ ∈ t.da.all) ∧
      t.out = s.out ++
        ended.map (fun j => if j.failed then .panelFallback j.panel (some j.band) colour
          else .panelBand j.panel j.band (j.rows colour)) ++
        (panels.filter fun p => (source p).isNone).map (fun p => .panelFallback p (some c.next) colour) ∧
      (b.complete = true → t.st = { s.st with surfaces := marked { b with scanned := true } } ∧ t.eu = s.eu) ∧
      (b.complete = false → t.st.surfaces = marked { b with scanned := true, substituted := true } ∧
        t.st.current = s.st.current.map (fun fr =>
          { fr with substituted := if b.substituted then fr.substituted else sat16 fr.substituted, bandLate := true }) ∧
        (∀ fr, s.st.current = some fr → fr.bandLate = false → t.pendingEvent .bandLate = true) ∧
        t.st.queue = s.st.queue ∧ t.st.previous = s.st.previous)

/-! ### Sensors and triggers (chapters 3 and 6) -/

/-- What makes a channel due (R52, R53), the sync inputs (R125), and the ends of the beacon and follow times (R128,
R130). A RUNNING channel with an empty holder takes a capture of this moment; with a full one it merges. -/
def Obligations.SensorAndBeaconEvents : Prop :=
  ∀ s : State,
    let becomesDue (n : Fin 4) (c : Channel) (u : State) : Prop :=
      (c.state ≠ .running → u.channel n = c ∧ u.tm.pulses = s.tm.pulses) ∧
      (c.state = .running → c.holder = none →
        u.channel n = { c with holder := some ⟨s.tb.now, s.so.frameNumber, 0⟩ } ∧
        u.tm.pulses = s.tm.pulses ++ [⟨9 + n.val, by omega⟩]) ∧
      (∀ h, c.state = .running → c.holder = some h →
        u.channel n = { c with holder := some { h with overrun := if h.overrun = 255 then 255 else h.overrun + 1 },
                               overruns := c.overruns + 1 } ∧
        u.tm.pulses = s.tm.pulses) ∧
      (∀ m, m ≠ n → u.channel m = s.channel m) ∧ u.sh.rings = s.sh.rings ∧ u.sh.slots = s.sh.slots
    (∀ n : Fin 4, s.pins.drdy.getLsbD n.val = false → runsTo (.sbDrdyRise n) s fun u =>
      u.pins.drdy.getLsbD n.val = true ∧ (∀ m, m ≠ n.val → u.pins.drdy.getLsbD m = s.pins.drdy.getLsbD m) ∧
      ((s.channel n).config.mode = .dataReady → becomesDue n (s.channel n) u) ∧
      ((s.channel n).config.mode ≠ .dataReady → u.sh = s.sh)) ∧
    (∀ n : Fin 4, (s.channel n).timer = some 0 → runsTo (.sensorIntervalExpiry n) s fun u =>
      becomesDue n { s.channel n with timer := some (s.channel n).config.interval } u) ∧
    (∀ (pin : Fin 2) (level : Bool), runsTo (.syncInChange pin level) s fun u =>
      u = { s with pins := { s.pins with sync := u.pins.sync } } ∧ u.pins.sync.getLsbD pin.val = level ∧
      ∀ m, m ≠ pin.val → u.pins.sync.getLsbD m = s.pins.sync.getLsbD m) ∧
    (∀ n : Fin 2,
      let b := vget s.tm.beacons n
      let put (x : Beacon) : State := { s with tm := { s.tm with beacons := vset s.tm.beacons n x } }
      (b.state = .delay → b.timer = some 0 → runsTo (.beaconDelayExpiry n) s fun u =>
        u = put { b with state := .pulse, timer := some b.width, pulses := b.pulses + 1 }) ∧
      (b.state = .pulse → b.timer = some 0 → runsTo (.beaconWidthExpiry n) s fun u =>
        u = put { b with state := .idle, timer := none })) ∧
    (∀ n : Fin 2, (vget s.tm.outs n).follow = some 0 →
      exec (.syncOutFollowEnd n) s =
        .next { s with tm := { s.tm with outs := vset s.tm.outs n { vget s.tm.outs n with follow := none } } })

/-- A transfer's completion (R56 to R58, R60, R62, R64, R66, R69, R91, R139): a payload of 00h bytes only, or of FFh
bytes only, forms no record, is counted, and reaches FAULT at the limit; any other forms a record, which the matching
rules route to the fresh slots, the sensor rings, the uplink and the presence state; the sequence number advances. A
ring with room takes the record at issued modulo its capacity, and a full one drops it and raises RING_FULL; the record
joins the open SENSOR batch, which closes at four, or a new entry of the uplink queue; a change of presence dims or
restores the display, or is a wake cause, by the power state. In the standby hold neither rings nor uplink take it. That
with a fault limit of 1 a no-response read gives FAULT also where a channel arm was taken first is the model's choice
(log 41). -/
def Obligations.TransfersComplete : Prop :=
  ∀ (din : List Byte) (x : Transfer) (s : State), s.sh.bus = some x → x.left = 0 →
    let payload := padTo x.readLen din
    let silent : Prop := (∀ b ∈ payload, b = 0) ∨ (∀ b ∈ payload, b = 0xFF)
    let old := s.channel x.channel
    let run (P : State → Prop) : Prop := runsTo (.sensorTransferComplete din) s fun u => u.sh.bus = none ∧ P u
    (silent →
      let count : Byte := if old.consecutive = 255 then 255 else old.consecutive + 1
      let missed : Channel := { old with noResponse := old.noResponse + 1, consecutive := count }
      let faulted : Prop := x.faultLimit ≤ count.toNat ∧ old.state = .running
      run fun u => u.sh.slots = s.sh.slots ∧ u.sh.rings = s.sh.rings ∧ u.pwc = s.pwc ∧
        (¬ faulted → u.channel x.channel = missed ∧ u.eu = s.eu) ∧
        (faulted → u.channel x.channel = { missed with state := .fault, holder := none, timer := none } ∧
          u.pendingEvent .sensorFault = true)) ∧
    (¬ silent →
      let rcd : SensorRec :=
        { channel := x.channel, faultCleared := old.faultCleared, seq := old.seq, stamp := x.capture.stamp,
          frame := x.capture.frame, overrun := x.capture.overrun, length := x.readLen, payload := padTo 16 payload }
      let acting := matching rcd (vlist s.sh.rules)
      let sends : Prop := s.sh.hold = false ∧ acting.any (·.uplink) = true
      let seen := (presenceOf acting).getD s.pwc.presence
      run fun u =>
        u.channel x.channel = { old with consecutive := 0, faultCleared := false, seq := old.seq + 1,
                                         unrouted := if acting = [] then old.unrouted + 1 else old.unrouted } ∧
        (∀ n, vget u.sh.slots n = if acting.any (·.slot == some n) then ⟨some rcd, (vget s.sh.slots n).updates + 1⟩
          else vget s.sh.slots n) ∧
        -- the sensor rings
        (s.sh.hold = true → u.sh.rings = s.sh.rings) ∧
        (∀ n,
          let r := vget s.sh.rings n
          let offered : Prop := s.sh.hold = false ∧ acting.any (·.ring == some n) = true ∧ r.enabled = true
          (¬ offered → vget u.sh.rings n = r) ∧
          (offered → (r.issued - r.consume).toNat = r.capacity →
            vget u.sh.rings n = { r with drops := r.drops + 1 } ∧ u.pendingEvent .ringFull = true) ∧
          (offered → (r.issued - r.consume).toNat ≠ r.capacity →
            vget u.sh.rings n = { r with issued := r.issued + 1 } ∧
            ∀ w ∈ lineWrites (r.base + 32 * (r.issued.toNat % r.capacity)) (rcd.bytes 0), w.2 ≠ [] →
              ⟨.sensorRing n r.issued s.generation, w.1, .write w.2⟩ ∈ u.da.all)) ∧
        -- the uplink
        (¬ sends → u.tc = s.tc) ∧
        (sends →
          (∀ pre id records post, s.tc.queue = pre ++ ⟨id, .sensor records true⟩ :: post →
            (∀ e ∈ pre, e.isOpen = false) →
            u.tc = { s.tc with
              queue := pre ++ ⟨id, .sensor (records ++ [rcd]) (decide (records.length + 1 < 4))⟩ :: post }) ∧
          ((∀ e ∈ s.tc.queue, e.isOpen = false) →
            let linked : Prop := s.tc.link = .up ∨ s.tc.link = .recovery
            (¬ linked → u.tc = { s.tc with unlinked := vset s.tc.unlinked 1 (vget s.tc.unlinked 1 + 1) }) ∧
            (linked → 32 ≤ s.tc.queue.length →
              u.tc = { s.tc with fullDrops := vset s.tc.fullDrops 1 (vget s.tc.fullDrops 1 + 1) } ∧
              u.pendingEvent .uplinkFull = true) ∧
            (linked → s.tc.queue.length < 32 → s.tc.link = .recovery ∨ s.tc.lane ≠ .free →
              u.tc = { s.tc with queue := s.tc.queue ++ [⟨s.nextId, .sensor [rcd] true⟩] }))) ∧
        -- the presence state
        u.pwc.presence = seen ∧
        (seen = s.pwc.presence → u.pwc = s.pwc) ∧
        (seen ≠ s.pwc.presence → u.pendingEvent .presenceChange = true ∧
          let dims : Prop := s.pwc.state = .active ∧ s.pwc.settings.autoDim = true ∧ seen = false
          let restores : Prop := s.pwc.state = .dimmed ∧ s.pwc.dimCause = .presence ∧ seen = true
          let wakes : Prop := seen = true ∧ s.pwc.settings.wakePresence = true
          (dims → u.pwc.state = .dimmed ∧ u.pwc.dimCause = .presence ∧ u.pendingEvent .powerChange = true) ∧
          (restores → u.pwc.state = .active ∧ u.pwc.dimCause = .none ∧ u.pendingEvent .powerChange = true) ∧
          (wakes → s.pwc.state = .standby → u.pwc.state = .waking ∧ u.pwc.lastWake = .presence) ∧
          (wakes → s.pwc.state = .enteringStandby →
            u.pwc = { s.pwc with presence := seen, keptWake := s.pwc.keptWake.or (some .presence) }) ∧
          (¬ dims → ¬ restores → ¬ (wakes ∧ (s.pwc.state = .standby ∨ s.pwc.state = .enteringStandby)) →
            u.pwc = { s.pwc with presence := seen })))

/-- Which rules act on a record (R60 to R62). A rule matches that is enabled, has the record's channel in its mask, and
whose condition holds: the byte at its offset, masked, against its value; past the payload length only NONE holds. The
matching rules act in the order they stand in, up to and with the first whose final is yes. The presence reported is that
of the last acting rule that names ON or OFF. -/
def Obligations.RuleConditions : Prop :=
  (∀ (r : Rule) (rcd : SensorRec),
    let v := (rcd.payload.getD r.offset 0 &&& r.mask).toNat
    let inside : Prop := r.offset < rcd.length
    (r.cond = .none → r.holds rcd = true) ∧
    (r.cond = .above → (r.holds rcd = true ↔ inside ∧ r.value.toNat < v)) ∧
    (r.cond = .below → (r.holds rcd = true ↔ inside ∧ v < r.value.toNat)) ∧
    (r.cond = .equal → (r.holds rcd = true ↔ inside ∧ v = r.value.toNat))) ∧
  (∀ (rcd : SensorRec) (rules : List Rule),
    let hits (r : Rule) : Bool := r.enable && r.channels.getLsbD rcd.channel.val && r.holds rcd
    ((∀ r ∈ rules, hits r = true → r.final = false) → matching rcd rules = rules.filter hits) ∧
    (∀ pre r post, rules = pre ++ r :: post → (∀ x ∈ pre, hits x = true → x.final = false) → hits r = true →
      r.final = true → matching rcd rules = pre.filter hits ++ [r])) ∧
  (∀ rules : List Rule,
    ((∀ r ∈ rules, r.presence = .none) → presenceOf rules = none) ∧
    (∀ pre r post, rules = pre ++ r :: post → (∀ x ∈ post, x.presence = .none) →
      (r.presence = .on → presenceOf rules = some true) ∧ (r.presence = .off → presenceOf rules = some false)))

/-! ### The tether link (chapter 4) -/

/-- The link table (R73 to R77): each state's exits, with the timers that start and stop and the events raised. At the
end of RECOVERY every entry of every class's history is marked for resend with send count 0; where the lane is free and
comes to a class (R92), its oldest entry goes out at once, and the entries behind it stay marked. The model's inferences:
that where this entry is a MESSAGE the idle timer stops as its reads begin (log 29), and that a rise of CABLE_PRESENT
before core reset changes the pin's level only (log 28). -/
def Obligations.LinkTransitions : Prop :=
  ∀ s : State,
    let retry : Timer := if s.pins.cable then some 500000 else none
    let trains (t : State) : Prop := t.tc.link = .training ∧ t.tc.training = some 100000 ∧ t.tc.retry = none ∧
      t.tc.attempts = s.tc.attempts + 1 ∧ t.tc.since = s.tb.now
    let lost (retry : Timer) (t : State) : Prop := t.tc.link = .down ∧ t.tc.retry = retry ∧ t.tc.queue = [] ∧
      (∀ c, vget t.tc.history c = []) ∧ t.tc.ackRequest = false ∧ t.tc.echoRequest = none ∧
      t.tc.keepRequest = false ∧ (∀ c, vget t.tc.ackTimers c = none) ∧ t.tc.expected = s.tc.expected ∧
      t.tc.nextSeq = s.tc.nextSeq ∧ t.tc.ring = s.tc.ring ∧ t.tc.pairs = s.tc.pairs ∧ t.st.tether = none ∧
      t.pendingEvent .linkDown = true
    (s.pins.cable = false → ∃ t, exec .cablePresentRise s = .next t ∧ t.pins.cable = true ∧
      (s.coreLive = true ∧ s.tc.link = .down → trains t) ∧
      (¬ (s.coreLive = true ∧ s.tc.link = .down) → t.tc = s.tc)) ∧
    (s.pins.cable = true →
      (s.tc.link = .down → ∃ t, exec .cablePresentFall s = .next t ∧ t.pins.cable = false ∧
        t.tc = { s.tc with retry := none }) ∧
      (s.tc.link = .training → ∃ t, exec .cablePresentFall s = .next t ∧ t.pins.cable = false ∧
        t.tc = { s.tc with link := .down, since := s.tb.now, retry := none, training := none }) ∧
      (s.tc.link = .up → runsTo .cablePresentFall s fun u => u.pins.cable = false ∧ lost none u) ∧
      (s.tc.link = .recovery → ∃ t, exec .cablePresentFall s = .next t ∧ t.pins.cable = false ∧ lost none t)) ∧
    (s.tc.link = .down → s.tc.retry = some 0 → ∃ t, exec .retryTimerExpiry s = .next t ∧ trains t) ∧
    (s.tc.link = .training → runsTo .trainingComplete s fun u => u.tc.link = .up ∧ u.tc.training = none ∧
      u.tc.expected = 0 ∧ u.tc.lastTaken = none ∧ u.tc.receive = some 8000 ∧ u.tc.upFromRecovery = false ∧
      u.pendingEvent .linkUp = true ∧
      (s.tc.queue = [] → (∀ c, vget s.tc.history c = []) → s.tc.echoRequest = none → s.tc.keepRequest = false →
        u.tc.idle = some 2000 ∧ (∀ c, vget u.tc.nextSeq c = 0) ∧ u.tc.lane = s.tc.lane)) ∧
    (s.tc.link = .training → s.tc.training = some 0 → ∃ t, exec .trainingTimerExpiry s = .next t ∧
      t.tc = { s.tc with link := .down, since := s.tb.now, retry, training := none } ∧ t.eu = s.eu) ∧
    (s.tc.link = .up → s.tc.receive = some 0 → runsTo .receiveTimerExpiry s fun u => u.tc.link = .recovery ∧
      u.tc.recovery = some 50000 ∧ u.tc.recoveries = s.tc.recoveries + 1 ∧ u.tc.receive = none ∧ u.tc.idle = none ∧
      u.tc.paused = none ∧ (∀ c, vget u.tc.ackTimers c = none) ∧ u.tc.queue = s.tc.queue ∧
      u.tc.history = s.tc.history ∧ u.tc.expected = s.tc.expected ∧ u.tc.nextSeq = s.tc.nextSeq ∧
      u.pendingEvent .linkRecovery = true) ∧
    (s.tc.link = .recovery → runsTo .recoveryComplete s fun u => u.tc.link = .up ∧ u.tc.recovery = none ∧
      u.tc.receive = some 8000 ∧ u.tc.expected = s.tc.expected ∧ u.tc.lastTaken = s.tc.lastTaken ∧
      u.tc.upFromRecovery = true ∧ u.pendingEvent .linkUp = true ∧
      let marked (e : HistEntry) : HistEntry := { e with resend := true, sends := 0 }
      let back : Tc := { s.tc with history := vmap (List.map marked) s.tc.history }
      (s.tc.lane ≠ .free → ∀ c, vget u.tc.history c = (vget s.tc.history c).map marked) ∧
      (∀ c e rest, vget s.tc.history c = e :: rest →
        (back.reaches c → s.resends c (marked e) (rest.map marked) u) ∧
        (¬ back.reaches c → vget u.tc.history c = (e :: rest).map marked))) ∧
    (s.tc.link = .recovery → s.tc.recovery = some 0 → ∃ t, exec .recoveryTimerExpiry s = .next t ∧ lost retry t)

/-- The uplink's moments (R75, R92, R93, R96): the idle timer's expiry sends a KEEPALIVE; a packet's completion frees
the lane for the next choice or starts the idle timer, and starts the ack timer of the class whose oldest history entry
it was; an ack timer's expiry marks every history entry of the class for resend, or at 8 sends begins RECOVERY. Where the
lane is free and comes to the class, its oldest entry goes out at once, and the entries behind it stay marked; where it
does not, all of them stay marked. That a MESSAGE sent again, or chosen at a packet's completion, stops the idle timer as
its reads begin is the model's inference (log 29), and that a packet joins `out` at its completion the model's choice
(log 11). -/
def Obligations.UplinkMoments : Prop :=
  ∀ s : State, s.tc.link = .up →
    (s.tc.idle = some 0 → ∃ t, exec .idleTimerExpiry s = .next t ∧ t.tc.idle = none ∧ t.tc.link = .up ∧
      (s.tc.lane ≠ .free → t.tc.keepRequest = true) ∧
      (s.tc.lane = .free → s.tc.ackRequest = false → s.tc.echoRequest = none →
        t.tc.keepRequest = false ∧
        t.tc.lane = .sending (uplinkPacket 0x01 false false 0 []) s.nextId 2)) ∧
    (∀ packet entry, s.tc.lane = .sending packet entry 0 →
      ∃ t, exec .uplinkTransmissionComplete s = .next t ∧ t.out = s.out ++ [.uplink packet] ∧
        (s.tc.choice = none → t.tc.lane = .free ∧ t.tc.idle = some 2000) ∧
        (s.tc.choice ≠ none → t.tc.lane ≠ .free ∧ t.tc.idle = none) ∧
        (∀ c, s.tc.oldestClass entry = some c →
          vget t.tc.ackTimers c = if s.tc.restricted then none else some 4000)) ∧
    (∀ c : Fin 3, vget s.tc.ackTimers c = some 0 →
      (vget s.tc.history c = [] → runsTo (.ackTimerExpiry c) s fun u =>
        u.tc = { s.tc with ackTimers := vset s.tc.ackTimers c none }) ∧
      (∀ e rest, vget s.tc.history c = e :: rest → e.sends < 8 → runsTo (.ackTimerExpiry c) s fun u =>
        let marked (x : HistEntry) : HistEntry := { x with resend := true }
        let back : Tc := { s.tc with history := vset s.tc.history c ((e :: rest).map marked) }
        u.tc.link = .up ∧ vget u.tc.ackTimers c = none ∧
        (s.tc.lane ≠ .free → vget u.tc.history c = (e :: rest).map marked ∧ u.tc.lane = s.tc.lane) ∧
        (back.reaches c → s.resends c (marked e) (rest.map marked) u ∧
          ∀ d, d ≠ c → vget u.tc.history d = vget s.tc.history d) ∧
        (¬ back.reaches c → vget u.tc.history c = (e :: rest).map marked)) ∧
      (∀ e rest, vget s.tc.history c = e :: rest → 8 ≤ e.sends → runsTo (.ackTimerExpiry c) s fun u =>
        u.tc.link = .recovery ∧ u.tc.recoveries = s.tc.recoveries + 1 ∧ u.tc.history = s.tc.history ∧
        u.pendingEvent .linkRecovery = true))

/-- Downlink packets (R75, R78, R79, R81, R88): none is received but in UP; one without room pauses the downlink; a bad
one is counted and has no other effect; a KEEPALIVE restarts the receive timer; a sequenced packet is taken when it is
the next, counted as a duplicate or a GAP when it is older or newer; and a WAKE that is taken raises TETHER_WAKE and
offers its wake cause. That a packet which comes in a pause changes nothing and the pausing packet is kept is the
model's inference (log 30), and so is the room that a packet needs and finds (log 17). That a packet which states more
payload than the whole buffer holds pauses the downlink too, and is not discarded, is the model's choice (log 50). -/
def Obligations.DownlinkPackets : Prop :=
  ∀ (raw bytes : List Byte) (seq : U16) (fb : FrameBegin) (tag : U32) (s : State),
    let tc := s.tc
    let busy : Prop := tc.lane ≠ .free
    (tc.link ≠ .up ∨ tc.paused ≠ none → ∀ c, c ∈ [Instr.downlinkPause raw, .downlinkInvalidPacket raw, .keepalive,
        .frameBegin seq fb, .frameEnd seq tag, .message seq bytes, .wake seq] → exec c s = .next s) ∧
    (tc.link = .up → tc.paused = none → s.depositRoom < roomOf raw →
      runsTo (.downlinkPause raw) s fun u => u =
        { s with tc := { tc with paused := some (roomOf raw, readPacket raw), pauses := tc.pauses + 1,
                                 receive := none } }) ∧
    (s.hears (roomOf raw) →
      (readPacket raw = .badCrc → runsTo (.downlinkInvalidPacket raw) s fun u =>
        u = { s with tc := { tc with crcErrors := tc.crcErrors + 1 } }) ∧
      (readPacket raw = .badFormat → runsTo (.downlinkInvalidPacket raw) s fun u =>
        u = { s with tc := { tc with formatErrors := tc.formatErrors + 1 } })) ∧
    (s.hears 0 → runsTo .keepalive s fun u => u.tc.receive = some 8000 ∧ u.st = s.st ∧ u.sh = s.sh ∧ u.au = s.au ∧
      u.pwc = s.pwc ∧ u.tc.expected = tc.expected ∧ (busy → u = { s with tc := { tc with receive := some 8000 } })) ∧
    (bytes.length ≤ 16384 → s.hears bytes.length →
      ∀ c, c ∈ [Instr.frameBegin seq fb, .frameEnd seq tag, .message seq bytes, .wake seq] →
        (1 ≤ (tc.expected - seq).toNat → (tc.expected - seq).toNat ≤ 32768 → runsTo c s fun u =>
          u.tc.expected = tc.expected ∧ u.tc.duplicates = tc.duplicates + 1 ∧ u.tc.receive = some 8000 ∧
          u.st = s.st ∧ u.pwc = s.pwc ∧ (busy → u.tc.ackRequest = (tc.ackRequest || tc.lastTaken.isSome))) ∧
        (1 ≤ (seq - tc.expected).toNat → (seq - tc.expected).toNat ≤ 32767 → runsTo c s fun u =>
          u.tc.expected = tc.expected ∧ u.tc.gaps = tc.gaps + 1 ∧ u.tc.receive = some 8000 ∧
          u.st = s.st ∧ u.pwc = s.pwc ∧ (busy → u.tc.ackRequest = tc.ackRequest))) ∧
    (s.hears 0 → seq = tc.expected → ∀ c, c ∈ [Instr.frameBegin seq fb, .frameEnd seq tag, .wake seq] →
      runsTo c s fun u => u.tc.expected = seq + 1 ∧ u.tc.lastTaken = some seq ∧ u.tc.receive = some 8000 ∧
        (busy → u.tc.ackRequest = true)) ∧
    (s.hears 0 → seq = tc.expected → runsTo (.wake seq) s fun u => u.pendingEvent .tetherWake = true ∧
      (s.pwc.settings.wakeTether = true → s.pwc.state = .standby →
        u.pwc.state = .waking ∧ u.pwc.lastWake = .tetherWake) ∧
      (s.pwc.settings.wakeTether = true → s.pwc.state = .enteringStandby → s.pwc.keptWake = none →
        u.pwc = { s.pwc with keptWake := some .tetherWake }) ∧
      (s.pwc.settings.wakeTether = false ∨ (s.pwc.state ≠ .standby ∧ s.pwc.state ≠ .enteringStandby) →
        u.pwc = s.pwc))

/-- Tether frames (R17, R18, R20, R23): a FRAME_BEGIN first abandons an open tether frame: its surfaces that the host has
not released go FREE, its context is gone, and TETHER_FRAME_REJECT is pending with cause ABANDONED. Then a packet that
names free tether surfaces of the right eyes opens them as the open tether frame, and any other is rejected with cause
STATE, judged on the surfaces as the abandonment left them. A FRAME_END closes the frame of its tag, and presents it if
asked and able, or leaves its surfaces READY. That the tag recorded with ABANDONED is the new packet's is the model's
inference (log 25). -/
def Obligations.TetherFrames : Prop :=
  ∀ (seq : U16) (fb : FrameBegin) (tag : U32) (s : State), s.hears 0 → seq = s.tc.expected →
    let rejects (cause : RejectCause) (tag : U32) (u : State) : Prop :=
      u.st.rejectCause = cause ∧ u.st.rejectTag = tag ∧ u.pendingEvent .tetherFrameReject = true
    let begins (P : State → Prop) : Prop := runsTo (.frameBegin seq fb) s P
    let ends (P : State → Prop) : Prop := runsTo (.frameEnd seq tag) s P
    -- the surfaces that an open frame still has, and every surface once it has been abandoned
    let given : List (Fin 6) := match s.st.tether with
      | none => []
      | some f => (if f.leftReleased then [] else [f.left]) ++ (if f.rightReleased then [] else f.right.toList)
    let freed (n : Fin 6) : Surface :=
      if n ∈ given then { s.st.surface n with state := .free } else s.st.surface n
    let openable (n : Fin 6) : Prop := (freed n).ownedBy .tether = true ∧ (freed n).state = .free
    let accepts (left : Fin 6) (right : Option (Fin 6)) : Prop :=
      beginSurfaces fb = some (left, right) ∧ (∀ n ∈ left :: right.toList, openable n) ∧
      s.st.eyesOk left right = true ∧ s.st.barred = false
    let kept (u : State) : Prop := u.st.queue = s.st.queue ∧ u.st.current = s.st.current ∧ u.st.previous = s.st.previous
    (∀ left right, accepts left right → begins fun u => kept u ∧
      u.st.tether = some { tag := fb.tag, left, leftReleased := false, right, rightReleased := false,
                           target := fb.target, pose := fb.pose, present := fb.present, ident := s.st.nextIdent } ∧
      (∀ n, u.st.surface n =
        if n ∈ left :: right.toList then { (freed n).clear with state := .opened } else freed n) ∧
      (∀ n ∈ left :: right.toList, vget u.tc.frontiers n = ⟨none, none, some s.st.nextIdent⟩) ∧
      u.tm.pulses = s.tm.pulses ++ [14] ∧
      (s.st.tether ≠ none → rejects .abandoned fb.tag u) ∧
      (s.st.tether = none → u.st.rejectCause = s.st.rejectCause ∧ u.st.rejectTag = s.st.rejectTag)) ∧
    ((∀ left right, ¬ accepts left right) → begins fun u => kept u ∧ rejects .state fb.tag u ∧ u.st.tether = none ∧
      (∀ n, u.st.surface n = freed n) ∧ u.tc.frontiers = s.tc.frontiers ∧ u.tm.pulses = s.tm.pulses) ∧
    (s.st.tether = none →
      ends fun u => rejects .tag tag u ∧ u.st.surfaces = s.st.surfaces ∧ u.st.queue = s.st.queue) ∧
    (∀ f, s.st.tether = some f →
      let names := f.left :: f.right.toList
      let released := f.leftReleased || f.rightReleased
      let become (x : SurfaceState) (l : List (Fin 6)) (u : State) : Prop :=
        u.st.tether = none ∧ u.st.current = s.st.current ∧ u.st.previous = s.st.previous ∧
        ∀ n, u.st.surface n = if n ∈ l then { s.st.surface n with state := x } else s.st.surface n
      let able : Prop := (∀ n ∈ names, s.st.fitsPanel s.so.applied n = true) ∧ s.st.barred = false
      (f.tag ≠ tag → ends fun u => rejects .tag tag u ∧ u.st.tether = some f ∧ u.st.surfaces = s.st.surfaces) ∧
      (f.tag = tag → released = true → ends fun u => rejects .state tag u ∧ become .free f.kept u) ∧
      (f.tag = tag → released = false → f.present = false → ends fun u =>
        become .ready names u ∧ u.st.queue = s.st.queue) ∧
      (f.tag = tag → released = false → f.present = true → ¬ able → ends fun u =>
        rejects .state tag u ∧ become .ready names u ∧ u.st.queue = s.st.queue) ∧
      (f.tag = tag → released = false → f.present = true → able → 3 ≤ s.st.queue.length → ends fun u =>
        rejects .full tag u ∧ become .ready names u ∧ u.st.queue = s.st.queue) ∧
      (f.tag = tag → released = false → f.present = true → able → s.st.queue.length < 3 → ends fun u =>
        become .queued names u ∧ u.st.queue = s.st.queue ++
          [{ tag, left := f.left, right := f.right, target := f.target, pose := f.pose, source := .tether }]))

/-- SLICE and AUDIO (R19, R82, R83, R105): the first failing check drops a slice and counts its cause; an accepted one
makes the line writes of its rows, and counts for the frontier when in order. AUDIO frames are placed in ring 0 up to
its room, and the rest dropped with AUDIO_OVERRUN; with ring 0 disabled or in standby all are dropped and counted. The
pixels of an accepted slice lie in its rows and the accepted frames at the ring's positions from issued onward, wrapping
at its end, and the payload whose writes these are is recorded. That each line write holds as much deposit room as it
has bytes is the model's inference (log 17). -/
def Obligations.Deposits : Prop :=
  ∀ s : State,
    (∀ p : Slice, p.pixels.length ≤ 16376 → s.hears (8 + p.pixels.length) →
      let run (P : State → Prop) : Prop := runsTo (.slice p) s fun u => u.tc.receive = some 8000 ∧ u.st = s.st ∧ P u
      let drops (u : State) : List U32 := [u.tc.dropStandby, u.tc.dropState, u.tc.dropRange, u.tc.dropFormat]
      let kept (u : State) : Prop := u.tc.slices = s.tc.slices ∧ u.tc.frontiers = s.tc.frontiers
      (s.tc.restricted = true → run fun u => kept u ∧
        drops u = [s.tc.dropStandby + 1, s.tc.dropState, s.tc.dropRange, s.tc.dropFormat]) ∧
      (s.tc.restricted = false → sliceTarget p.surface s = none → run fun u => kept u ∧
        drops u = [s.tc.dropStandby, s.tc.dropState + 1, s.tc.dropRange, s.tc.dropFormat]) ∧
      (∀ n c ident, s.tc.restricted = false → sliceTarget p.surface s = some (n, c, ident) →
        let first := p.firstRow.toNat
        let count := p.rowCount.toNat
        let range : Prop := count ≠ 0 ∧ first + count ≤ c.height
        (¬ range → run fun u => kept u ∧
          drops u = [s.tc.dropStandby, s.tc.dropState, s.tc.dropRange + 1, s.tc.dropFormat]) ∧
        (range → p.pixels.length ≠ count * c.rowBytes → run fun u => kept u ∧
          drops u = [s.tc.dropStandby, s.tc.dropState, s.tc.dropRange, s.tc.dropFormat + 1]) ∧
        (range → p.pixels.length = count * c.rowBytes → run fun u =>
          let writes := sliceWrites c first count p.pixels
          let next := match (vget s.tc.frontiers n).issue with
            | none => 0
            | some r => r + 1
          drops u = drops s ∧
          laysBytes writes (fun i => c.base + c.pitch * (first + i / c.rowBytes) + i % c.rowBytes) p.pixels ∧
          (∀ w ∈ writes, w.2 ≠ [] → ⟨.deposit s.nextId w.2.length, w.1, .write w.2⟩ ∈ u.da.all) ∧
          (first ≠ next → kept u) ∧
          (first = next → (vget u.tc.frontiers n).issue = some (first + count - 1) ∧
            u.tc.slices = s.tc.slices ++ [⟨s.nextId, ident, n, first + count - 1, writes.length⟩])))) ∧
    (∀ frames : List U32, frames ≠ [] → frames.length ≤ 4096 → s.hears (4 * frames.length) →
      let r := vget s.au.rings 0
      let taken := min frames.length (r.capacity - (r.issued - r.consume).toNat)
      let refused : Prop := s.tc.restricted = true ∨ r.enabled = false
      let new : AudioRing := { r with issued := r.issued + BitVec.ofNat 32 taken,
                                      overruns := r.overruns + BitVec.ofNat 32 (frames.length - taken) }
      let bytes := (frames.take taken).flatMap fun f => toBytes 4 f.toNat
      let writes := frameWrites 4 (ringSpans r.base 4 r.capacity r.issued.toNat taken) bytes
      (refused → runsTo (.audio frames) s fun u => u.au = s.au ∧ u.tc.receive = some 8000 ∧
        u.tc.audioDrops = s.tc.audioDrops + BitVec.ofNat 32 frames.length) ∧
      (¬ refused → runsTo (.audio frames) s fun u => u.tc.receive = some 8000 ∧ u.tc.audioDrops = s.tc.audioDrops ∧
        u.au = { s.au with rings := vset s.au.rings 0 new } ∧
        laysBytes writes (fun i => r.base + 4 * ((r.issued.toNat + i / 4) % r.capacity) + i % 4) bytes ∧
        (∀ w ∈ writes, ⟨.deposit s.nextId w.2.length, w.1, .write w.2⟩ ∈ u.da.all) ∧
        u.tc.audioJobs = s.tc.audioJobs ++ (if taken = 0 then [] else [⟨s.nextId, taken, writes.length⟩]) ∧
        (taken < frames.length → u.pendingEvent .audioOverrun = true)))

/-- MESSAGE, TIME and ACK packets (R79, R85, R87, R95): a MESSAGE that is next is taken unless the ring is full; an
accepted one is written at the ring's position issued, its length word and then its bytes, by line writes of this reset
generation that hold the deposit room of the message bytes, which is the model's inference (log 17); a TIME records and
echoes its pair; an ACK's valid field takes its entry and every older one out of its class's history and makes the slots
of messages that still belong to them TAKEN (said while the lane is held; a free lane then sends the next packet). That
the pair list's change count (R178) goes up by 1 also when a full list loses its oldest pair is the model's inference
(log 14). -/
def Obligations.MessagesTimeAndAcks : Prop :=
  ∀ s : State,
    let busy : Prop := s.tc.lane ≠ .free
    (∀ (seq : U16) (bytes : List Byte), bytes.length ≤ 16384 → s.hears bytes.length → seq = s.tc.expected →
      let r := s.tc.ring
      let run (P : State → Prop) : Prop := runsTo (.message seq bytes) s P
      let taken (new : MessageRing) : Prop := run fun u => u.tc.expected = seq + 1 ∧ u.tc.lastTaken = some seq ∧
        (busy → u.tc.ackRequest = true) ∧ u.tc.ring = new
      let long : Prop := bytes.length = 0 ∨ 1020 < bytes.length
      let full : Prop := (r.issued - r.consume).toNat = r.count
      (s.tc.restricted = true → taken { r with standbyDrops := r.standbyDrops + 1 }) ∧
      (s.tc.restricted = false → r.enabled = false → taken { r with noRingDrops := r.noRingDrops + 1 }) ∧
      (s.tc.restricted = false → r.enabled = true → long → taken { r with lengthDrops := r.lengthDrops + 1 }) ∧
      (s.tc.restricted = false → r.enabled = true → ¬ long → full → run fun u =>
        u.tc.expected = s.tc.expected ∧ u.tc.lastTaken = s.tc.lastTaken ∧ (busy → u.tc.ackRequest = s.tc.ackRequest) ∧
        u.tc.ring = { r with backPressure := r.backPressure + 1 }) ∧
      let writes := entryWrites r bytes
      laysBytes writes (fun i => r.base + 1024 * (r.issued.toNat % r.count) + i) (toBytes 4 bytes.length ++ bytes) ∧
      (s.tc.restricted = false → r.enabled = true → ¬ long → ¬ full →
        taken { r with issued := r.issued + 1, jobs := r.jobs ++ [⟨r.issued, writes.length⟩] } ∧
        run fun u => ∀ i w, writes[i]? = some w →
          let room := if i = 0 then w.2.length - 4 else w.2.length
          ⟨.messageEntry r.issued s.generation room, w.1, .write w.2⟩ ∈ u.da.all)) ∧
    (∀ console : U64, s.hears 0 → runsTo (.time console) s fun u =>
      u.tc.pairs = newest 8 (s.tc.pairs ++ [⟨console, s.tb.now⟩]) ∧ u.tc.pairChange = s.tc.pairChange + 1 ∧
      u.tc.echoReplaced = s.tc.echoReplaced + (if s.tc.echoRequest.isSome then 1 else 0) ∧
      u.tc.expected = s.tc.expected ∧ u.tm.pulses = s.tm.pulses ++ [15] ∧
      (busy → u.tc.echoRequest = some ⟨console, s.tb.now⟩ ∧ u.tc.ackRequest = s.tc.ackRequest)) ∧
    (∀ photon sensor message : AckField, s.hears 0 →
      runsTo (.ack photon sensor message) s fun u => u.tc.receive = some 8000 ∧
        (busy → ∀ (c : Fin 3) (f : AckField), [photon, sensor, message][c.val]? = some f →
          let h := vget s.tc.history c
          (f.valid = false ∨ (∀ e ∈ h, e.seq ≠ f.seq) → vget u.tc.history c = h) ∧
          (∀ pre e post, h = pre ++ e :: post → f.valid = true → e.seq = f.seq → (∀ x ∈ pre, x.seq ≠ f.seq) →
            vget u.tc.history c = post ∧
            vget u.tc.ackTimers c = (if post = [] ∨ s.tc.restricted = true then none else some 4000) ∧
            (∀ x n, x ∈ pre ++ [e] → c = 2 → x.slot = some n →
              (u.entry (.messageSlot n)).outcome = .taken ∧ vget u.tc.inProgress n = false ∧
              u.pendingEvent .messageSent = true))))

/-! ### Audio (chapter 5) -/

/-- The audio period and the PWM periods (R108 to R110, R112 to R115): a boundary pulses AUDIO_PERIOD, starts the next
period of 1000 µs, mixes the frames chosen before into 48 duties of 10 bits for each side, the dither generator
advancing for each duty, left before right, and counts the reads that are late; it writes the microphone's 16 frames,
formed of the PDM bits, to ring 2 from position issued onward, wrapping at its end, or drops them, and hands them to the
uplink where ring 2's uplink is yes, which counts, queues or sends them (R90, R92; said of a lane that is held, of
RECOVERY, and of a free lane without restriction that has nothing else to send); and each playback ring chooses its
frames for the next period by its state, with an underrun counted and raised, their lines read once each in class AUDIO,
and ring 0's drift comparison at every tenth such boundary. One output sample is the two rings' gained sum, held to 16
bits, scaled by the volume, muted, and turned into a duty with its dither bit; the dither generator shifts in the parity
of its tapped bits; and PWM period i takes duty i and the line selects. That the gain applied at the boundary scales all
of the microphone's 16 frames is the model's choice (log 43). That period i begins i * 1000 / 48 whole microseconds
after the boundary, and that a period without a mixed duty has duty 512, are the model's (log 24). While AU runs a line
with select PWM is high for the first d/1024 of a period of duty d, one with PWM_INVERTED low, and the rest of the
period, and all the while AU is halted, the other way (R114); in the one microsecond that holds the end of the active
part its level is free (log 21). -/
def Obligations.AudioPeriods : Prop :=
  (∀ (pdm : List U64) (s : State), s.au.running = true → s.au.timer = some 0 →
    runsTo (.audioPeriodBoundary pdm) s fun u =>
      let a := s.au
      let o := a.output
      let r := vget a.rings 2
      let room : Prop := (r.issued - r.consume).toNat + 16 ≤ r.capacity
      -- the frame that a ring's reads give an output place, and silence where they give none
      let frame (ring : Fin 3) (place : Nat) : U32 :=
        match a.fetches.find? fun p => p.ring == ring && !p.mixed with
        | none => 0
        | some p =>
          let i := match p.corr with
            | .none => place
            | .drop => if place < 24 then place else place + 1
            | .again => if place = p.frames.length then place - 1 else place
          ((p.frames[i]?).bind (·.2)).getD 0
      let duty (side : Nat) (place : Nat) (bit : Bool) : Nat :=
        let sample (ring : Fin 3) : Int := ((frame ring place).extractLsb' (16 * side) 16).toInt
        dutyOf (mixSample (sample 0) (sample 1) (vget a.rings 0).gain (vget a.rings 1).gain o.volume o.mute)
          (if o.dither && bit then 1 else 0)
      u.au.timer = some 1000 ∧ u.au.running = true ∧ u.au.pwmNext = 0 ∧ u.tm.pulses = s.tm.pulses ++ [17] ∧
      (u.au.duties.length = 48 ∧ ∃ dither : Nat → U16, dither 0 = a.lfsr ∧ u.au.lfsr = dither 96 ∧
        (∀ k, dither (k + 1) = if o.dither then lfsrNext o.taps (dither k) else dither k) ∧
        ∀ i, i < 48 → u.au.duties[i]? = some
          (duty 0 i ((dither (2 * i + 1)).getLsbD 0), duty 1 i ((dither (2 * i + 2)).getLsbD 0))) ∧
      -- the microphone's frames
      let frames : List U16 := (List.range 16).map fun i => captureFrame r.gain (pdm.getD i 0)
      let bytes := frames.flatMap fun f => toBytes 2 f.toNat
      let writes := frameWrites 2 (ringSpans r.base 2 r.capacity r.issued.toNat 16) bytes
      (r.enabled = false → vget u.au.rings 2 = r ∧ u.au.blocks = a.blocks) ∧
      (r.enabled = true → room → vget u.au.rings 2 = { r with issued := r.issued + 16 } ∧
        laysBytes writes (fun i => r.base + 2 * ((r.issued.toNat + i / 2) % r.capacity) + i % 2) bytes ∧
        (∀ w ∈ writes, ⟨.capture s.nextId, w.1, .write w.2⟩ ∈ u.da.all) ∧
        u.au.blocks = a.blocks ++ [⟨s.nextId, writes.length⟩]) ∧
      (r.enabled = true → ¬ room → vget u.au.rings 2 = { r with overruns := r.overruns + 16 } ∧
        u.au.blocks = a.blocks ∧ u.pendingEvent .audioOverrun = true) ∧
      let linked : Prop := s.tc.link = .up ∨ s.tc.link = .recovery
      (r.uplink ≠ 1 → u.tc = s.tc) ∧
      (r.uplink = 1 → ¬ linked → u.tc = { s.tc with unlinked := vset s.tc.unlinked 3 (vget s.tc.unlinked 3 + 1) }) ∧
      (r.uplink = 1 → linked → 32 ≤ s.tc.queue.length → u.pendingEvent .uplinkFull = true ∧
        u.tc = { s.tc with fullDrops := vset s.tc.fullDrops 3 (vget s.tc.fullDrops 3 + 1) }) ∧
      (r.uplink = 1 → linked → s.tc.queue.length < 32 → ∃ id,
        (s.tc.link = .recovery ∨ s.tc.lane ≠ .free →
          u.tc = { s.tc with queue := s.tc.queue ++ [⟨id, .audioIn frames⟩] }) ∧
        (s.tc.link = .up → s.tc.lane = .free → s.tc.choice = none → s.tc.restricted = false →
          let packet := uplinkPacket 0x34 false false 0 bytes
          u.tc.lane = .sending packet id (laneTime packet))) ∧
      -- the playback rings' choice for the next period
      let avail (n : Fin 3) : Nat := ((vget a.rings n).produce - (vget a.rings n).taken).toNat
      let plays (n : Fin 3) : Prop := (vget a.rings n).play = .playing ∨
        ((vget a.rings n).play = .priming ∧ (vget a.rings n).threshold ≤ avail n)
      let size : Correction → Nat
        | .none => 48
        | .drop => 49
        | .again => 47
      let corr (n : Fin 3) : Correction := if n = 0 ∧ size a.scheduled ≤ avail 0 then a.scheduled else .none
      let count (n : Fin 3) : Nat := min (avail n) (size (corr n))
      let under (n : Fin 3) : Prop := plays n ∧ avail n < size (corr n)
      (∀ n : Fin 3, n ≠ 2 →
        let old := vget a.rings n
        let new := vget u.au.rings n
        let waiting := u.au.fetches.filter fun p => p.ring == n && !p.mixed
        let addr (i : Nat) : Nat := old.base + 4 * ((old.taken.toNat + i) % old.capacity)
        new.lates = old.lates +
          BitVec.ofNat 32 ((a.fetches.filter fun p => p.ring == n && !p.mixed).map (·.left)).sum ∧
        (¬ plays n → new.play = old.play ∧ new.taken = old.taken ∧ new.underruns = old.underruns ∧ waiting = []) ∧
        (plays n → new.play = (if avail n = 0 then .priming else .playing) ∧
          new.taken = old.taken + BitVec.ofNat 32 (count n)) ∧
        (under n → new.underruns = old.underruns + 1 ∧ u.pendingEvent .audioUnderrun = true) ∧
        (¬ under n → new.underruns = old.underruns) ∧
        (plays n → avail n = 0 → waiting = []) ∧
        (plays n → avail n ≠ 0 → ∃ (id : Nat) (lines : List Nat),
          waiting = [{ id, ring := n, corr := corr n, count := count n, left := lines.length, mixed := false,
                       frames := (List.range (count n)).map fun i => (addr i, none) }] ∧
          (∀ line ∈ lines, ⟨.fetch id, line, .read⟩ ∈ u.da.all) ∧
          (old.capacity ∈ [256, 512, 1024, 2048, 4096, 8192, 16384, 32768, 65536] → old.base % 64 = 0 →
            lines.Nodup ∧ ∀ line, line ∈ lines ↔ ∃ i, i < count n ∧ line = addr i / 64))) ∧
      (¬ under 0 → ¬ under 1 → u.pendingEvent .audioUnderrun = s.pendingEvent .audioUnderrun) ∧
      -- ring 0's drift correction
      let compared := if a.driftCount = 10 then 1 else a.driftCount + 1
      let fill := avail 0 - count 0
      let threshold := (vget a.rings 0).threshold
      let made (c : Correction) : U32 := if plays 0 ∧ avail 0 ≠ 0 ∧ corr 0 = c then 1 else 0
      u.au.dropCorrs = a.dropCorrs + made .drop ∧ u.au.repeatCorrs = a.repeatCorrs + made .again ∧
      (¬ plays 0 → u.au.driftCount = a.driftCount ∧ u.au.scheduled = a.scheduled) ∧
      (plays 0 → avail 0 = 0 → u.au.driftCount = 0 ∧ u.au.scheduled = .none) ∧
      (plays 0 → avail 0 ≠ 0 → u.au.driftCount = compared ∧
        u.au.scheduled =
          if compared ≠ 10 then .none
          else if threshold + 96 < fill then .drop
          else if fill + 96 < threshold ∧ 0 < fill then .again
          else .none)) ∧
  (∀ s : State, s.au.running = true → s.au.pwmNext < 48 → s.au.pwmNext * 1000 / 48 ≤ s.au.elapsed →
    let d := s.au.duties.getD s.au.pwmNext (512, 512)
    exec .pwmPeriodBoundary s =
      .next { s with au := { s.au with dutyLeft := d.1, dutyRight := d.2, selLeft := s.au.output.left,
                                       selRight := s.au.output.right, pwmNext := s.au.pwmNext + 1 } }) ∧
  (∀ (a : Au) (d : Nat) (edge : Bool),
    let drive (x : SpeakerSelect) : Byte := a.lineDrive x d edge
    -- where this microsecond, which is 48 thousandths of a period, begins in the period and where it ends
    let start : Int := 48 * (a.elapsed : Int) - 1000 * ((a.pwmNext : Int) - 1)
    let stop : Int := start + 48
    drive .low = 0 ∧ drive .released = 2 ∧
    (a.running = true → 0 < stop → 1024 * stop ≤ 1000 * (d : Int) → drive .pwm = 1 ∧ drive .pwmInverted = 0) ∧
    (a.running = true → d = 0 ∨ 1000 * (d : Int) ≤ 1024 * start → drive .pwm = 0 ∧ drive .pwmInverted = 1) ∧
    (a.running = false → drive .pwm = 0 ∧ drive .pwmInverted = 1)) ∧
  (∀ (r0 r1 : Int) (g0 g1 volume bit : Nat) (mute : Bool),
    let clamp (v : Int) : Int := if v < -32768 then -32768 else if 32767 < v then 32767 else v
    let mixed := clamp ((r0 * g0 + r1 * g1).fdiv 256)
    let scaled := if mute then 0 else clamp ((mixed * volume).fdiv 256)
    (dutyOf (mixSample r0 r1 g0 g1 volume mute) bit : Int) = min 1023 ((scaled + 32768).fdiv 64 + bit)) ∧
  (∀ (gain : Nat) (bits : U64),
    let clamp (v : Int) : Int := if v < -32768 then -32768 else if 32767 < v then 32767 else v
    let ones : Int := ((List.range 64).filter fun i => bits.getLsbD i).length
    (captureFrame gain bits).toInt = clamp ((clamp ((ones - 32) * 1024) * gain).fdiv 256)) ∧
  (∀ taps state : U16,
    let x : U16 := if state = 0 then 1 else state
    ((lfsrNext taps state).getLsbD 0 = true ↔
      ((List.range 16).filter fun i => x.getLsbD i && taps.getLsbD i).length % 2 = 1) ∧
    ∀ i, i < 15 → (lfsrNext taps state).getLsbD (i + 1) = x.getLsbD i)

/-! ### Time, events and frames (chapters 6 and 10) -/

/-- The microsecond step (R119, R123), the end of a time crossing (R121, R122) and of the attention gap (R182): device
time steps by 1 and from FFFFFFFFFFh to 0 with the epoch; the snapshot follows while refresh runs; the pins take the
levels seen at the step; timers count down to 0 and wait there, those of the core while it runs; the button's debounce
counts the steps that find PWR_BTN away from the debounced level (R146). A crossing applies its adjust, begins a new
epoch, and reports to the core that armed it, without the snapshot while that is frozen. The model's choices: timers
whose expiry is a command of its own (log 3), the levels that a step carries (log 10), DEVICE_TIME_WRAP as the step from
FFFFFFFFFFh (log 38), a crossing that completes at any age from 20 µs on, with no upper bound (log 23), a debounce whose
20000 counts run from the first step that finds the pin away, and a change of the button that has come due and then
stands until its command (log 22). -/
def Obligations.TimeSteps : Prop :=
  ∀ s : State,
    let down (t : Timer) : Timer := t.map (· - 1)
    (∀ lows : PinLows, ∃ t, exec (.microsecondStep lows) s = .next t ∧
      t.tb.now.time.toNat = (s.tb.now.time.toNat + 1) % 2 ^ 40 ∧
      t.tb.now.epoch = s.tb.now.epoch + (if s.tb.now.time = 0xFFFFFFFFFF then 1 else 0) ∧
      t.tb.taken = s.tb.taken ∧ t.tb.holding = s.tb.holding.map (fun a => { a with age := a.age + 1 }) ∧
      (s.coreLive = true → s.tb.refresh = true → t.tb.snapshot = t.tb.now ∧ t.tb.fresh = true) ∧
      (s.coreLive = false ∨ s.tb.refresh = false → t.tb.snapshot = s.tb.snapshot ∧ t.tb.fresh = s.tb.fresh) ∧
      t.pins = { s.pins with drdy := s.pins.drdy &&& ~~~lows.drdy, thermCrit := s.pins.thermCrit && !lows.thermCrit,
                             button := !lows.button } ∧
      t.pwc = { s.pwc with railTimer := down s.pwc.railTimer, overrideTimer := down s.pwc.overrideTimer,
                           thermalTimer := down s.pwc.thermalTimer, debounce := t.pwc.debounce } ∧
      (s.pwc.debounce = some 0 → t.pwc.debounce = some 0) ∧
      (s.pwc.debounce ≠ some 0 → lows.button = s.pwc.pressed → t.pwc.debounce = none) ∧
      (lows.button ≠ s.pwc.pressed → s.pwc.debounce = none → t.pwc.debounce = some 20000) ∧
      (∀ n, lows.button ≠ s.pwc.pressed → s.pwc.debounce = some (n + 1) → t.pwc.debounce = some n) ∧
      (s.coreLive = false → t.so = s.so ∧ t.sh = s.sh ∧ t.tc = s.tc ∧ t.au = s.au ∧ t.tm = s.tm ∧ t.eu = s.eu) ∧
      (s.coreLive = true →
        t.so = { s.so with phaseTimer := down s.so.phaseTimer, darkTimer := down s.so.darkTimer,
                           periodTimer := down s.so.periodTimer, syncTimer := down s.so.syncTimer,
                           light := down s.so.light,
                           sinceBoundary := s.so.sinceBoundary + (if s.so.state = .running then 1 else 0) } ∧
        t.sh = { s.sh with channels := t.sh.channels, bus := s.sh.bus.map fun x => { x with left := x.left - 1 } } ∧
        (∀ n, t.channel n = { s.channel n with timer := down (s.channel n).timer }) ∧
        t.tc = { s.tc with retry := down s.tc.retry, training := down s.tc.training, recovery := down s.tc.recovery,
                           receive := down s.tc.receive, idle := down s.tc.idle, ackTimers := t.tc.ackTimers,
                           lane := t.tc.lane } ∧
        (∀ c, vget t.tc.ackTimers c = down (vget s.tc.ackTimers c)) ∧
        (∀ packet entry left, s.tc.lane = .sending packet entry left → t.tc.lane = .sending packet entry (left - 1)) ∧
        ((∀ packet entry left, s.tc.lane ≠ .sending packet entry left) → t.tc.lane = s.tc.lane) ∧
        t.au = { s.au with timer := down s.au.timer } ∧
        t.tm = { s.tm with outs := t.tm.outs, beacons := t.tm.beacons } ∧
        (∀ n, vget t.tm.outs n = { vget s.tm.outs n with follow := down (vget s.tm.outs n).follow }) ∧
        (∀ n, vget t.tm.beacons n = { vget s.tm.beacons n with timer := down (vget s.tm.beacons n).timer }) ∧
        t.eu = { s.eu with gap := down s.eu.gap }) ∧
      t.mem = s.mem ∧ t.st = s.st ∧ t.rm = s.rm ∧ t.pu = s.pu ∧ t.da = s.da ∧ t.hmp = s.hmp ∧ t.out = s.out ∧
      (s.tb.now.time = 0xFFFFFFFFFF → exec (.deviceTimeWrap lows) s = .next t)) ∧
    (∀ a, s.tb.holding = some a → 20 ≤ a.age → ∃ t, exec .timeCrossingComplete s = .next t ∧
      t.tb.now.epoch = s.tb.now.epoch + 1 ∧ t.tb.holding = none ∧ t.tb.taken = s.tb.taken + 1 ∧
      (a.mode = .set → t.tb.now.time = a.value.truncate 40) ∧
      (a.mode = .add → t.tb.now.time.toNat = (s.tb.now.time.toNat + a.value.toNat) % 2 ^ 40) ∧
      (s.coreLive = true ∧ a.gen = s.generation → (t.entry .time).outcome = .taken ∧
        t.pendingEvent .timeTaken = true ∧
        (s.tb.fresh = true → t.tb.snapshot = t.tb.now ∧ t.tb.fresh = true) ∧
        (s.tb.fresh = false → t.tb.snapshot = s.tb.snapshot ∧ t.tb.fresh = false)) ∧
      (¬ (s.coreLive = true ∧ a.gen = s.generation) → t = { s with tb := t.tb } ∧ t.tb.snapshot = s.tb.snapshot)) ∧
    (s.eu.gap = some 0 → exec .attnGapEnd s = .next { s with eu := { s.eu with gap := none } })

/-- What no command or only some commands change: the queue of commands; input pins, device time, and memory. A byte of
memory changes only when a write of its line is served, or when the whole memory is lost with the core domain: the
command leaves the core off, or it is the core reset at which the DRAM is initialized. That a lost or initialized byte
reads 00h is the model's choice (log 6). -/
def Obligations.QueuePinsTimeAndMemory : Prop :=
  ∀ (c : Instr) (s t : State), exec c s = .next t → t.pending = s.pending ∧
    (pinCommand c = false → t.pins = s.pins) ∧
    (timeCommand c = false → t.tb.now = s.tb.now) ∧
    (∀ a, t.mem.read a ≠ s.mem.read a →
      t.mem = [] ∧ (t.coreOn = false ∨ ∃ sel, c = .coreSupplySettled sel) ∨
      ∃ r bytes, s.da.service = some r ∧ completes s c r.agent = true ∧ r.op = .write bytes ∧ a / 64 = r.line)

/-- The frame of the commands of the scan-out, the sensors, the tether and the audio unit: they leave the memory and
what is known of its errors, the region entries, the shadow and straps, device time and its adjusts, the port's reads
and transactions, the rails and the power settings as they are. -/
def Obligations.EventCommandsFrame : Prop :=
  ∀ (c : Instr) (s t : State), eventCommand c = true → exec c s = .next t →
    t.mem = s.mem ∧ t.da.flaws = s.da.flaws ∧ t.da.captures = s.da.captures ∧ t.da.scrubs = s.da.scrubs ∧
    t.rm = s.rm ∧ t.pu.shadow = s.pu.shadow ∧ t.pu.sel = s.pu.sel ∧ t.pu.softResets = s.pu.softResets ∧
    t.tb.now = s.tb.now ∧ t.tb.holding = s.tb.holding ∧ t.tb.taken = s.tb.taken ∧ t.tb.snapshot = s.tb.snapshot ∧
    t.hmp.reads = s.hmp.reads ∧ t.hmp.held = s.hmp.held ∧ t.hmp.atPins = s.hmp.atPins ∧
    t.pwc.settings = s.pwc.settings ∧ t.pwc.enables = s.pwc.enables ∧ t.pwc.hostReset = s.pwc.hostReset ∧
    t.generation = s.generation ∧ t.eu.enableSet = s.eu.enableSet

/-! ### What every step keeps -/

/-- Every step keeps the memory and the shadow in canonical form (log 6) and the lists within their sizes, the uplink
history over its classes at 16 among them (R10, R46, R87, R90, R94, R165, R166). -/
def Obligations.MemoryAndListsStayWellFormed : Prop :=
  ∀ s t : State, step s = .next t → (s.canonical → t.canonical) ∧ (s.bounded → t.bounded)

/-- Every step keeps frames and surfaces in agreement (R2, R10): no surface is named twice, and a surface is QUEUED,
CURRENT or HELD exactly when a queue entry, the current frame or the previous frame names it. -/
def Obligations.FramesAndSurfacesAgree : Prop :=
  ∀ s t : State, step s = .next t → s.st.framesAgree → t.st.framesAgree

/-- Every step keeps the part at rest in STANDBY (R22, R140): while the power state is STANDBY every surface is FREE,
the present queue is empty and the scan-out is STOPPED, and so they stay until ACTIVE. -/
def Obligations.StandbyIsAtRest : Prop := ∀ s t : State, step s = .next t → s.standbySound → t.standbySound

/-- The state after power-on reset is one that these invariants speak of; its queue is empty, and on an empty queue the
part idles (the model's choice, log 4). -/
def Obligations.ResetIsSound : Prop :=
  State.reset.canonical ∧ State.reset.bounded ∧ State.reset.st.framesAgree ∧ State.reset.standbySound ∧
  State.reset.pending = [] ∧ State.reset.pwc.state = .off ∧ State.reset.tb.now = ⟨0, 0⟩ ∧
  ∀ s : State, s.pending = [] → step s = .next s
end

