-- ==== Sys2Proof/Laws/Memory.lean ====
section
/-!
SUPPORT. What the memory operations do: reading after a write, and that every write keeps the canonical form. From these
a proof never needs to unfold the list a memory is.
-/
namespace Sys2Proof.Machine

/-! ### Fixed-size tables -/

@[simp] theorem vget_vset_same {α : Type} {n : Nat} (v : Vector α n) (i : Fin n) (x : α) : vget (vset v i x) i = x := by
  simp [vget, vset]

theorem vget_vset_ne {α : Type} {n : Nat} (v : Vector α n) {i j : Fin n} (x : α) (h : i ≠ j) :
    vget (vset v i x) j = vget v j := by
  have h' : i.val ≠ j.val := fun e => h (Fin.ext e)
  simp [vget, vset, h']

@[simp] theorem vget_vmod_same {α : Type} {n : Nat} (v : Vector α n) (i : Fin n) (f : α → α) :
    vget (vmod v i f) i = f (vget v i) := vget_vset_same ..

theorem vget_vmod_ne {α : Type} {n : Nat} (v : Vector α n) {i j : Fin n} (f : α → α) (h : i ≠ j) :
    vget (vmod v i f) j = vget v j := vget_vset_ne v _ h

@[simp] theorem vset_vget {α : Type} {n : Nat} (v : Vector α n) (i : Fin n) : vset v i (vget v i) = v := by
  simp [vget, vset]

@[simp] theorem vget_vmap {α β : Type} {n : Nat} (f : α → β) (v : Vector α n) (i : Fin n) :
    vget (vmap f v) i = f (vget v i) := by
  simp [vget, vmap]

@[simp] theorem vget_replicate {α : Type} {n : Nat} (x : α) (i : Fin n) : vget (Vector.replicate n x) i = x := by
  simp [vget]

theorem vector_ext {α : Type} {n : Nat} {v w : Vector α n} (h : ∀ i, vget v i = vget w i) : v = w := by
  ext i hi
  exact h ⟨i, hi⟩

/-! ### One byte -/

theorem Mem.read_filter_same (m : Mem) (a : Nat) : Mem.read (m.filter (·.1 != a)) a = 0 := by
  induction m with
  | nil => rfl
  | cons p r ih =>
    obtain ⟨k, c⟩ := p
    by_cases h : k = a <;> simp_all [Mem.read]

theorem Mem.read_filter_ne (m : Mem) {a x : Nat} (h : x ≠ a) : Mem.read (m.filter (·.1 != a)) x = m.read x := by
  induction m with
  | nil => rfl
  | cons p r ih =>
    obtain ⟨k, c⟩ := p
    by_cases hk : k = a
    · simp [hk, ih, Mem.read, show a ≠ x from fun e => h e.symm]
    · simp [hk, ih, Mem.read]

theorem Mem.read_insert_ne (m : Mem) {a x : Nat} (b : Byte) (h : x ≠ a) : (Mem.insert m a b).read x = m.read x := by
  induction m with
  | nil => simp [Mem.insert, Mem.read, show a ≠ x from fun e => h e.symm]
  | cons p r ih =>
    obtain ⟨k, c⟩ := p
    by_cases hk : k < a <;> simp [Mem.insert, hk, Mem.read, ih, show a ≠ x from fun e => h e.symm]

theorem Mem.read_insert_same (m : Mem) (a : Nat) (b : Byte) : (Mem.insert m a b).read a = b := by
  induction m with
  | nil => simp [Mem.insert, Mem.read]
  | cons p r ih =>
    obtain ⟨k, c⟩ := p
    by_cases hk : k < a
    · simp [Mem.insert, hk, Mem.read, ih, show k ≠ a by omega]
    · simp [Mem.insert, hk, Mem.read]

/-- A byte reads as written, and every other one as before. -/
theorem Mem.read_write (m : Mem) (a x : Nat) (b : Byte) : (m.write a b).read x = if x = a then b else m.read x := by
  unfold Mem.write
  by_cases hx : x = a
  · subst hx
    by_cases hb : b = 0
    · simp only [hb, if_true, Mem.read_filter_same]
    · simp only [hb, if_false, if_true, Mem.read_insert_same]
  · by_cases hb : b = 0
    · simp only [hb, if_true, hx, if_false, Mem.read_filter_ne m hx]
    · simp only [hb, hx, if_false, Mem.read_insert_ne _ b hx, Mem.read_filter_ne m hx]

/-! ### The canonical form -/

theorem Memory.risingFrom_mono {m : Mem} {lo lo' : Nat} (h : Memory.risingFrom lo m = true) (hl : lo' ≤ lo) :
    Memory.risingFrom lo' m = true := by
  cases m with
  | nil => rfl
  | cons p r =>
    obtain ⟨k, b⟩ := p
    simp only [Memory.risingFrom, Bool.and_eq_true, decide_eq_true_eq] at h ⊢
    exact ⟨⟨by omega, h.1.2⟩, h.2⟩

theorem Memory.risingFrom_filter {m : Mem} {lo : Nat} (h : Memory.risingFrom lo m = true) (a : Nat) :
    Memory.risingFrom lo (m.filter (·.1 != a)) = true := by
  induction m generalizing lo with
  | nil => rfl
  | cons p r ih =>
    obtain ⟨k, c⟩ := p
    simp only [Memory.risingFrom, Bool.and_eq_true, decide_eq_true_eq] at h
    by_cases hk : k = a
    · simp only [List.filter, hk, bne_self_eq_false]
      exact Memory.risingFrom_mono (ih h.2) (by omega)
    · simp only [List.filter, show (k != a) = true by simpa using hk, Memory.risingFrom, Bool.and_eq_true,
        decide_eq_true_eq]
      exact ⟨h.1, ih h.2⟩

theorem Memory.risingFrom_insert {m : Mem} {lo a : Nat} {b : Byte} (h : Memory.risingFrom lo m = true) (ha : lo ≤ a)
    (hb : b ≠ 0) (hm : ∀ p ∈ m, p.1 ≠ a) : Memory.risingFrom lo (Mem.insert m a b) = true := by
  induction m generalizing lo with
  | nil => simpa [Mem.insert, Memory.risingFrom, ha] using hb
  | cons p r ih =>
    obtain ⟨k, c⟩ := p
    have hne : k ≠ a := hm (k, c) List.mem_cons_self
    simp only [Memory.risingFrom, Bool.and_eq_true, decide_eq_true_eq] at h
    by_cases hk : k < a
    · simp only [Mem.insert, hk, if_true, Memory.risingFrom, Bool.and_eq_true, decide_eq_true_eq]
      exact ⟨h.1, ih h.2 (by omega) fun q hq => hm q (List.mem_cons_of_mem _ hq)⟩
    · simp only [Mem.insert, hk, if_false, Memory.risingFrom, Bool.and_eq_true, decide_eq_true_eq]
      exact ⟨⟨ha, by simpa using hb⟩, ⟨by omega, h.1.2⟩, h.2⟩

@[simp] theorem Memory.wf_nil : Memory.wf [] = true := rfl

theorem Memory.wf_write {m : Mem} (h : Memory.wf m = true) (a : Nat) (b : Byte) : Memory.wf (m.write a b) = true := by
  unfold Mem.write
  by_cases hb : b = 0
  · simp only [hb, if_true]
    exact Memory.risingFrom_filter h a
  · simp only [hb, if_false]
    refine Memory.risingFrom_insert (Memory.risingFrom_filter h a) (Nat.zero_le a) hb fun p hp => ?_
    simpa using (List.mem_filter.mp hp).2

theorem Memory.wf_writeAll {m : Mem} (h : Memory.wf m = true) (base : Nat) (l : List (Nat × Byte)) :
    Memory.wf (m.writeAll base l) = true := by
  induction l generalizing m with
  | nil => exact h
  | cons p r ih => exact ih (Memory.wf_write h _ _)

/-! ### Several bytes -/

/-- Away from the bytes written, the memory reads as before. -/
theorem Mem.read_writeAll_ne (m : Mem) (base a : Nat) (l : List (Nat × Byte))
    (ha : ∀ p ∈ l, base + p.1 ≠ a) : (m.writeAll base l).read a = m.read a := by
  induction l generalizing m with
  | nil => rfl
  | cons p r ih =>
    simp only [Mem.writeAll]
    rw [ih _ fun q hq => ha q (List.mem_cons_of_mem _ hq), Mem.read_write]
    simp [show a ≠ base + p.1 from fun e => ha p List.mem_cons_self e.symm]

/-- Where a byte is written once, the memory reads it. -/
theorem Mem.read_writeAll_mem (m : Mem) (base : Nat) (l : List (Nat × Byte))
    (hd : (l.map (·.1)).Nodup) {p : Nat × Byte} (hp : p ∈ l) : (m.writeAll base l).read (base + p.1) = p.2 := by
  induction l generalizing m with
  | nil => cases hp
  | cons q r ih =>
    simp only [List.map_cons, List.nodup_cons] at hd
    simp only [Mem.writeAll]
    rcases List.mem_cons.mp hp with e | hr
    · subst e
      rw [Mem.read_writeAll_ne, Mem.read_write]
      · simp
      · intro q hq e
        exact hd.1 (List.mem_map.mpr ⟨q, hq, by omega⟩)
    · exact ih _ hd.2 hr

/-! ### Byte strings -/

@[simp] theorem toBytes_length (n v : Nat) : (toBytes n v).length = n := by
  induction n generalizing v with
  | zero => rfl
  | succ n ih => simp [toBytes, ih]

@[simp] theorem zeros_length (n : Nat) : (zeros n).length = n := by simp [zeros]

@[simp] theorem padTo_length (n : Nat) (l : List Byte) : (padTo n l).length = n := by
  simp only [padTo, List.length_take, List.length_append, zeros_length]
  omega

theorem ofBytes_toBytes (n v : Nat) : ofBytes (toBytes n v) = v % 256 ^ n := by
  induction n generalizing v with
  | zero => simp [toBytes, ofBytes, Nat.mod_one]
  | succ n ih =>
    have e : (BitVec.ofNat 8 v).toNat = v % 256 := rfl
    rw [toBytes, ofBytes, ih, e, Nat.pow_succ', Nat.mod_mul]

@[simp] theorem enumFrom_length (off : Nat) (l : List Byte) : (enumFrom off l).length = l.length := by
  induction l generalizing off with
  | nil => rfl
  | cons b r ih => simp [enumFrom, ih]

theorem enumFrom_bounds {off : Nat} {l : List Byte} {p : Nat × Byte} (h : p ∈ enumFrom off l) :
    off ≤ p.1 ∧ p.1 < off + l.length := by
  induction l generalizing off with
  | nil => cases h
  | cons b r ih =>
    simp only [enumFrom, List.mem_cons, List.length_cons] at h ⊢
    rcases h with e | h
    · subst e
      simp
    · have := ih h
      omega

theorem enumFrom_nodup (off : Nat) (l : List Byte) : ((enumFrom off l).map (·.1)).Nodup := by
  induction l generalizing off with
  | nil => exact List.nodup_nil
  | cons b r ih =>
    simp only [enumFrom, List.map_cons, List.nodup_cons]
    refine ⟨fun h => ?_, ih _⟩
    obtain ⟨p, hp, e⟩ := List.mem_map.mp h
    have := enumFrom_bounds hp
    omega

@[simp] theorem Mem.bytes_length (m : Mem) (a n : Nat) : (m.bytes a n).length = n := by simp [Mem.bytes]

@[simp] theorem Mem.line_length (m : Mem) (l : Nat) : (m.line l).length = 64 := Mem.bytes_length ..

@[simp] theorem readLine_length (m : Mem) (fl : List (Nat × Flaw)) (l : Nat) : (readLine m fl l).length = 64 := by
  simp [readLine]

theorem newest_length_le {α : Type} (n : Nat) (l : List α) : (newest n l).length ≤ n := by
  simp only [newest, List.length_drop]
  omega

/-! ### The memory after reset -/

theorem reset_memory_wf : Memory.wf State.reset.mem = true := rfl

end Sys2Proof.Machine
end

