-- ==== Sys2Proof/Laws/Requests.lean ====
section
/-!
SUPPORT. What making requests of the DRAM, the DRAM's choice, serving a request, captures and raises do: which fields they
change, and that the DRAM's choice loses no request but a write with no byte enabled.
-/
namespace Sys2Proof.Machine

/-! ### The choice -/

theorem chooseRequest_mem {reqs : List Request} {r : Request} (h : chooseRequest reqs = some r) : r ∈ reqs :=
  List.mem_of_find?_eq_some h

/-- Choosing changes the waiting requests and the service only. -/
theorem Da.chooseUpTo_eq (n : Nat) (d : Da) :
    d.chooseUpTo n = { d with requests := (d.chooseUpTo n).requests, service := (d.chooseUpTo n).service } := by
  induction n generalizing d with
  | zero => rfl
  | succ n ih =>
    unfold Da.chooseUpTo
    split
    · split
      · rfl
      · rename_i r _
        simp only
        split
        · rw [ih]
        · rfl
    · rfl

theorem Da.kick_eq (d : Da) : d.kick = { d with requests := d.kick.requests, service := d.kick.service } :=
  Da.chooseUpTo_eq ..

/-- The DRAM's choice invents no request. -/
theorem Da.mem_all_of_chooseUpTo (n : Nat) (d : Da) {r : Request} (h : r ∈ (d.chooseUpTo n).all) : r ∈ d.all := by
  induction n generalizing d with
  | zero => exact h
  | succ n ih =>
    unfold Da.chooseUpTo at h
    split at h
    · rename_i hc
      split at h
      · exact h
      · rename_i q hq
        have hs : d.service = none := by
          simp only [Bool.and_eq_true, Option.isNone_iff_eq_none] at hc
          exact hc.1
        simp only at h
        split at h
        · have := ih _ h
          simp only [Da.all, hs, Option.toList, List.append_nil] at this ⊢
          exact List.mem_of_mem_erase this
        · simp only [Da.all, Option.toList, List.mem_append, List.mem_singleton] at h ⊢
          rcases h with h | h
          · exact Or.inl (List.mem_of_mem_erase h)
          · exact Or.inl (h ▸ chooseRequest_mem hq)
    · exact h

/-- The DRAM's choice loses no request but a write with no byte enabled. -/
theorem Da.mem_chooseUpTo_of_mem (n : Nat) (d : Da) {r : Request} (h : r ∈ d.all) (hr : r.op ≠ .write []) :
    r ∈ (d.chooseUpTo n).all := by
  induction n generalizing d with
  | zero => exact h
  | succ n ih =>
    unfold Da.chooseUpTo
    split
    · rename_i hc
      split
      · exact h
      · rename_i q hq
        have hs : d.service = none := by
          simp only [Bool.and_eq_true, Option.isNone_iff_eq_none] at hc
          exact hc.1
        simp only [Da.all, hs, Option.toList, List.append_nil] at h
        simp only
        split
        · rename_i he
          apply ih
          simp only [Da.all, hs, Option.toList, List.append_nil]
          exact (List.mem_erase_of_ne (by
            rintro rfl
            exact hr he)).mpr h
        · simp only [Da.all, Option.toList, List.mem_append, List.mem_singleton]
          by_cases e : r = q
          · exact Or.inr e
          · exact Or.inl ((List.mem_erase_of_ne e).mpr h)
    · exact h

/-! ### Making requests -/

@[simp] theorem request_da (a : Agent) (l : Nat) (op : ReqOp) (s : State) :
    (request a l op s).da = (s.da.join ⟨a, l, op⟩).kick := rfl

theorem request_eq (a : Agent) (l : Nat) (op : ReqOp) (s : State) :
    request a l op s = { s with da := (request a l op s).da } := rfl

/-- A request stands waiting or in service once made, unless it is a write with no byte enabled. -/
theorem mem_request (a : Agent) (l : Nat) (op : ReqOp) (s : State) (h : op ≠ .write []) :
    ⟨a, l, op⟩ ∈ (request a l op s).da.all :=
  Da.mem_chooseUpTo_of_mem _ _ (by simp [Da.join, Da.all]) h

theorem mem_request_of_mem {a : Agent} {l : Nat} {op : ReqOp} {s : State} {r : Request} (h : r ∈ s.da.all)
    (hr : r.op ≠ .write []) : r ∈ (request a l op s).da.all :=
  Da.mem_chooseUpTo_of_mem _ _ (by
    simp only [Da.join, Da.all, List.mem_append] at h ⊢
    exact h.imp Or.inl id) hr

theorem requestWrites_eq (a : Agent) (w : List (Nat × List (Nat × Byte))) (s : State) :
    requestWrites a w s = { s with da := (requestWrites a w s).da } := by
  induction w generalizing s with
  | nil => rfl
  | cons p r ih =>
    simp only [requestWrites]
    rw [ih]
    rfl

theorem requestReads_eq (a : Agent) (l : List Nat) (s : State) :
    requestReads a l s = { s with da := (requestReads a l s).da } := by
  induction l generalizing s with
  | nil => rfl
  | cons p r ih =>
    simp only [requestReads]
    rw [ih]
    rfl

/-- Line writes and reads take no request away that stands, but for a write with no byte enabled. -/
theorem mem_requestWrites_of_mem {a : Agent} (w : List (Nat × List (Nat × Byte))) {s : State} {r : Request}
    (h : r ∈ s.da.all) (hr : r.op ≠ .write []) : r ∈ (requestWrites a w s).da.all := by
  induction w generalizing s with
  | nil => exact h
  | cons p q ih => exact ih (mem_request_of_mem h hr)

theorem mem_requestReads_of_mem {a : Agent} (l : List Nat) {s : State} {r : Request} (h : r ∈ s.da.all)
    (hr : r.op ≠ .write []) : r ∈ (requestReads a l s).da.all := by
  induction l generalizing s with
  | nil => exact h
  | cons p q ih => exact ih (mem_request_of_mem h hr)

/-- Each line write of a list stands once made, unless it enables no byte. -/
theorem mem_requestWrites {a : Agent} {w : List (Nat × List (Nat × Byte))} {s : State} {p : Nat × List (Nat × Byte)}
    (h : p ∈ w) (hp : p.2 ≠ []) : ⟨a, p.1, .write p.2⟩ ∈ (requestWrites a w s).da.all := by
  have ne : ReqOp.write p.2 ≠ .write [] := fun e => hp (ReqOp.write.inj e)
  induction w generalizing s with
  | nil => cases h
  | cons q r ih =>
    rcases List.mem_cons.mp h with e | h
    · subst e
      exact mem_requestWrites_of_mem r (mem_request _ _ _ _ ne) ne
    · exact ih h

/-- Each line read of a list stands once made. -/
theorem mem_requestReads {a : Agent} {l : List Nat} {s : State} {line : Nat} (h : line ∈ l) :
    ⟨a, line, .read⟩ ∈ (requestReads a l s).da.all := by
  induction l generalizing s with
  | nil => cases h
  | cons q r ih =>
    rcases List.mem_cons.mp h with e | h
    · subst e
      exact mem_requestReads_of_mem r (mem_request _ _ _ _ (fun e => nomatch e)) (fun e => nomatch e)
    · exact ih h

/-! ### Raises and captures -/

theorem raise_eq (k : EventKind) (s : State) : raise k s = { s with eu := s.eu.raise s.coreOn k } := rfl

theorem capture_eq (k : CaptureKind) (a : Nat) (c : ReqClass) (s : State) :
    capture k a c s = { s with da := (capture k a c s).da } := rfl

theorem memoryError_eq (k : CaptureKind) (l : Nat) (c : ReqClass) (s : State) :
    memoryError k l c s = { s with da := (capture k (64 * l) c s).da, eu := s.eu.raise s.coreOn .memoryError } := rfl

theorem badIndex_eq (a : Nat) (c : ReqClass) (s : State) :
    badIndex a c s = { s with da := (capture .badIndex a c s).da, eu := s.eu.raise s.coreOn .badIndex } := rfl

theorem EventKind.num_injective {k j : EventKind} (h : k.num = j.num) : k = j := by
  cases k <;> cases j <;> first | rfl | exact absurd h (by decide)

/-- A raise sets its own flag and no other. -/
theorem raise_pending (k j : EventKind) (s : State) :
    (raise k s).eu.pendingSet.getLsbD j.num.val = (decide (j = k) || s.eu.pendingSet.getLsbD j.num.val) := by
  have e : decide (k.num.val = j.num.val) = decide (j = k) :=
    decide_eq_decide.mpr ⟨fun h => (EventKind.num_injective (Fin.ext h)).symm, fun h => h ▸ rfl⟩
  simp only [raise, State.onEu, Eu.raise, BitVec.getLsbD_or, EventKind.bit, BitVec.getLsbD_twoPow, e, k.num.isLt,
    decide_true, Bool.true_and, Bool.or_comm]

theorem raise_enable (k : EventKind) (s : State) : (raise k s).eu.enableSet = s.eu.enableSet := rfl

theorem raise_gap (k : EventKind) (s : State) : (raise k s).eu.gap = s.eu.gap := rfl

/-! ### Serving -/

/-- Serving a request changes the memory and the arbiter's own fields only. -/
theorem access_eq (r : Request) (s : State) :
    (access r s).2 = { s with mem := (access r s).2.mem, da := (access r s).2.da } := by
  unfold access
  split <;> rfl

/-- Only a write changes the memory. -/
theorem access_mem_of_not_write (r : Request) (s : State) (h : ∀ b, r.op ≠ .write b) : (access r s).2.mem = s.mem := by
  unfold access
  split
  · rfl
  · rfl
  · rename_i b _ e
    exact absurd e (h b)
  · rfl

/-- A write puts the kept bytes of its line and then its own. -/
theorem access_mem_write (r : Request) (s : State) (b : List (Nat × Byte)) (h : r.op = .write b) (hb : b ≠ []) :
    (access r s).2.mem =
      (s.mem.writeAll (64 * r.line)
        (if b.length = 64 then [] else enumFrom 0 (readLine s.mem s.da.flaws r.line))).writeAll (64 * r.line) b := by
  unfold access
  rw [h]
  split
  · rename_i e
    cases e
  · rename_i e
    cases e
    exact absurd rfl hb
  · rename_i e
    cases e
    rfl
  · rename_i e
    cases e

end Sys2Proof.Machine
end

