-- ==== Sys2Proof/Laws/Port.lean ====
section
/-!
SUPPORT. The host memory port: a transaction that comes while the port takes them is taken as it comes; a read's answer
goes out when no earlier read waits; and the bytes a command lays into a line are the bytes the port reads out of it.
-/
namespace Sys2Proof.Machine

/-! ### Arrival -/

/-- A transaction that comes while the port takes them is taken at once. -/
theorem hostArrive_of_taking {s : State} (h : s.taking) (tx : HostTx) : hostArrive tx s = takeTx tx s := by
  obtain ⟨ho, hh, hp, hn⟩ := h
  have e : (s.onHmp fun h => { h with hold := .none, atPins := [] }) = s := by
    cases s with
    | mk _ _ _ hmp => cases hmp; simp only at hh hp; subst hh hp; rfl
  have hn' : ¬ 16 ≤ s.places := by omega
  simp only [hostArrive, ho, if_true, pump, pumpUpTo, State.onHmp, hp, List.nil_append, List.length_singleton, hh,
    ne_eq, not_true_eq_false, if_false]
  exact (if_neg hn').trans (congrArg (takeTx tx) e)

theorem exec_of_arrival {s : State} (h : s.taking) (tx : HostTx) :
    (.next (hostArrive tx s) : Answer) = .next (takeTx tx s) := by
  rw [hostArrive_of_taking h]

/-- An answer given at once goes out when no earlier read waits. -/
theorem answerNow_of_none {s : State} (h : s.hmp.reads = []) (line : List Byte) :
    answerNow line s = { s with out := s.out ++ [.hostLine line], nextId := s.nextId + 1 } := by
  cases s with
  | mk _ _ _ hmp =>
    cases hmp
    simp only at h
    subst h
    rfl

/-! ### The bytes of a line -/

theorem getLsbD_foldl_or {α : Type} {n : Nat} (f : α → BitVec n) (l : List α) (d : BitVec n) (j : Nat) :
    (l.foldl (fun d b => d ||| f b) d).getLsbD j = (d.getLsbD j || l.any fun b => (f b).getLsbD j) := by
  induction l generalizing d with
  | nil => simp
  | cons a r ih => simp [ih, Bool.or_assoc]

theorem lineEnables_getLsbD (l : List (Nat × Byte)) (h : ∀ p ∈ l, p.1 < 64) (i : Nat) :
    (lineEnables l).getLsbD i = l.any fun b => b.1 == i := by
  unfold lineEnables
  rw [getLsbD_foldl_or]
  simp only [BitVec.ofNat_eq_ofNat, BitVec.getLsbD_zero, Bool.false_or, BitVec.getLsbD_twoPow]
  rw [Bool.eq_iff_iff]
  simp only [List.any_eq_true, Bool.and_eq_true, decide_eq_true_eq, beq_iff_eq]
  exact ⟨fun ⟨p, hp, a, b⟩ => ⟨p, hp, b⟩, fun ⟨p, hp, b⟩ => ⟨p, hp, h p hp, b⟩⟩

theorem eq_of_nodup_map {l : List (Nat × Byte)} (hd : (l.map (·.1)).Nodup) {p q : Nat × Byte} (hp : p ∈ l)
    (hq : q ∈ l) (h : p.1 = q.1) : p = q := by
  induction l with
  | nil => cases hp
  | cons a r ih =>
    simp only [List.map_cons, List.nodup_cons] at hd
    rcases List.mem_cons.mp hp with e | hp <;> rcases List.mem_cons.mp hq with e' | hq
    · exact e.trans e'.symm
    · exact absurd (List.mem_map.mpr ⟨q, hq, by rw [← h, e]⟩) hd.1
    · exact absurd (List.mem_map.mpr ⟨p, hp, by rw [h, e']⟩) hd.1
    · exact ih hd.2 hp hq

/-- A byte of a line that names no offset twice is the one listed. -/
theorem lineData_byte {l : List (Nat × Byte)} (h : ∀ p ∈ l, p.1 < 64) (hd : (l.map (·.1)).Nodup) {p : Nat × Byte}
    (hp : p ∈ l) : (lineData l).extractLsb' (8 * p.1) 8 = p.2 := by
  have hlt := h p hp
  apply BitVec.eq_of_getLsbD_eq
  intro j hj
  rw [BitVec.getLsbD_extractLsb']
  unfold lineData
  rw [getLsbD_foldl_or]
  simp only [hj, decide_true, Bool.true_and, BitVec.ofNat_eq_ofNat, BitVec.getLsbD_zero, Bool.false_or,
    BitVec.getLsbD_shiftLeft, BitVec.getLsbD_setWidth]
  rw [Bool.eq_iff_iff, List.any_eq_true]
  constructor
  · rintro ⟨q, hq, e⟩
    simp only [Bool.and_eq_true, Bool.not_eq_true', decide_eq_true_eq, decide_eq_false_iff_not, Nat.not_lt] at e
    obtain ⟨⟨_, h1⟩, _, h2⟩ := e
    have hb : 8 * p.1 + j - 8 * q.1 < 8 := by
      rcases Nat.lt_or_ge (8 * p.1 + j - 8 * q.1) 8 with hc | hc
      · exact hc
      · rw [BitVec.getLsbD_of_ge _ _ hc] at h2
        cases h2
    have hpq : q.1 = p.1 := by omega
    have : q = p := eq_of_nodup_map hd hq hp hpq
    subst this
    have e8 : 8 * q.1 + j - 8 * q.1 = j := by omega
    rw [e8] at h2
    exact h2
  · intro e
    refine ⟨p, hp, ?_⟩
    have e8 : 8 * p.1 + j - 8 * p.1 = j := by omega
    simp only [e8, e, Bool.and_true, Bool.and_eq_true, Bool.not_eq_true', decide_eq_true_eq, decide_eq_false_iff_not,
      Nat.not_lt]
    omega

theorem filterMap_rising (g : Nat → Option (Nat × Byte)) (n : Nat) :
    ∀ (lo : Nat) (l : List (Nat × Byte)), (∀ p ∈ l, lo ≤ p.1 ∧ p.1 < lo + n) → l.Pairwise (fun p q => p.1 < q.1) →
      (∀ p ∈ l, g p.1 = some p) → (∀ i, lo ≤ i → (∀ p ∈ l, p.1 ≠ i) → g i = none) → (List.range' lo n).filterMap g = l := by
  induction n with
  | zero =>
    intro lo l hb _ _ _
    cases l with
    | nil => rfl
    | cons p r =>
      have := hb p List.mem_cons_self
      omega
  | succ n ih =>
    intro lo l hb hs hg hn
    rw [List.range'_succ]
    cases l with
    | nil =>
      rw [List.filterMap_cons_none (hn lo (Nat.le_refl _) (by simp))]
      exact ih (lo + 1) [] (by simp) hs (by simp) fun i hi _ => hn i (by omega) (by simp)
    | cons p r =>
      have hp := hb p List.mem_cons_self
      rw [List.pairwise_cons] at hs
      by_cases e : p.1 = lo
      · rw [List.filterMap_cons_some (e ▸ hg p List.mem_cons_self)]
        congr 1
        apply ih (lo + 1) r
        · intro q hq
          have := hb q (List.mem_cons_of_mem _ hq)
          have := hs.1 q hq
          omega
        · exact hs.2
        · exact fun q hq => hg q (List.mem_cons_of_mem _ hq)
        · intro i hi hr
          apply hn i (by omega)
          intro q hq
          rcases List.mem_cons.mp hq with e' | hq
          · subst e'
            omega
          · exact hr q hq
      · rw [List.filterMap_cons_none]
        · apply ih (lo + 1) (p :: r)
          · intro q hq
            have := hb q hq
            rcases List.mem_cons.mp hq with e' | hq
            · subst e'
              omega
            · have := hs.1 q hq
              omega
          · exact List.pairwise_cons.mpr hs
          · exact hg
          · exact fun i hi => hn i (by omega)
        · apply hn lo (Nat.le_refl _)
          intro q hq
          rcases List.mem_cons.mp hq with e' | hq
          · subst e'
            exact e
          · have := hs.1 q hq
            omega

/-- The port reads out of a line the bytes that were laid into it. -/
theorem enabledBytes_lineData {l : List (Nat × Byte)} (h : ∀ p ∈ l, p.1 < 64)
    (hs : l.Pairwise fun p q => p.1 < q.1) : enabledBytes (lineData l) (lineEnables l) = l := by
  have hd : (l.map (·.1)).Nodup := by
    rw [List.nodup_iff_pairwise_ne, List.pairwise_map]
    exact hs.imp fun h => Nat.ne_of_lt h
  unfold enabledBytes
  rw [List.range_eq_range']
  apply filterMap_rising _ 64 0 l (fun p hp => ⟨Nat.zero_le _, by simpa using h p hp⟩) hs
  · intro p hp
    have e : l.any (fun b => b.1 == p.1) = true := List.any_eq_true.mpr ⟨p, hp, by simp⟩
    simp only [lineEnables_getLsbD l h, e, if_true, lineData_byte h hd hp]
  · intro i _ hi
    have e : l.any (fun b => b.1 == i) = false := by
      rw [List.any_eq_false]
      intro p hp
      simpa using hi p hp
    simp only [lineEnables_getLsbD l h, e, Bool.false_eq_true, if_false]

end Sys2Proof.Machine
end

