-- ==== Sys2Proof/Laws/Arms.lean ====
section
/-!
SUPPORT. The path of an arm command: its line lies in the record area, its write covers no live word and no other record's
final word, and so it submits its own record alone when the sequence is new (R171).
-/
namespace Sys2Proof.Machine

/-! ### The record area -/

theorem planBase_aligned (sel : Fin 4) : planBase sel % 0x4000 = 0 := by
  revert sel
  decide

theorem planBase_le (sel : Fin 4) : planBase sel ≤ 0x3FFFC000 := by
  revert sel
  decide

theorem classify_record (s : State) {off : Nat} (h : off < 0x1000) : classify (s.planBase + off) s = .record off := by
  have h1 : s.planBase ≤ s.planBase + off ∧ s.planBase + off < s.planBase + 0x4000 := by omega
  have h2 : s.planBase + off - s.planBase = off := by omega
  simp only [classify, h1, and_self, if_true, h2, h]

theorem mem_allRecords (k : RecordKind) : k ∈ allRecords := by
  cases k <;> simp [allRecords, List.mem_finRange]

theorem allRecords_nodup : allRecords.Nodup := by decide +kernel

theorem seqOffset_lt (k : RecordKind) : k.seqOffset < 0x1000 := by
  have h : ∀ k ∈ allRecords, k.seqOffset < 0x1000 := by decide +kernel
  exact h k (mem_allRecords k)

/-- The line that an arm command writes. -/
theorem arm_line (s : State) (off : Nat) (h : off < 0x1000) :
    64 * (BitVec.ofNat 25 ((s.planBase + off) / 64)).toNat = s.planBase + off / 64 * 64 := by
  have h1 := planBase_aligned s.pu.sel
  have h2 := planBase_le s.pu.sel
  have e : (BitVec.ofNat 25 ((s.planBase + off) / 64)).toNat = (s.planBase + off) / 64 := by
    rw [BitVec.toNat_ofNat]
    apply Nat.mod_eq_of_lt
    simp only [State.planBase] at *
    omega
  rw [e]
  simp only [State.planBase] at *
  omega

/-! ### The bytes of an arm -/

/-- The offsets an arm writes: field bytes that are no live word's, and the final word. -/
theorem armBytes_offset {k : RecordKind} {fields : List Byte} {seq : U32} {b : Nat × Byte}
    (h : b ∈ armBytes k fields seq) :
    (k.size ≠ 128 ∧ ∃ i, i < k.size - 4 ∧ k.liveAt i = false ∧ b.1 = k.offset % 64 + i) ∨
    (k.seqOffset % 64 ≤ b.1 ∧ b.1 < k.seqOffset % 64 + 4) := by
  simp only [armBytes, List.mem_append, List.mem_map] at h
  rcases h with ⟨c, hc, rfl⟩ | h
  · refine Or.inl ?_
    split at hc
    · cases hc
    · rename_i hk
      obtain ⟨hm, hl⟩ := List.mem_filter.mp hc
      have := enumFrom_bounds hm
      rw [List.length_take] at this
      exact ⟨hk, c.1, by omega, by simpa using hl, rfl⟩
  · have := enumFrom_bounds h
    rw [toBytes_length] at this
    exact Or.inr this

theorem enumFrom_pairwise (off : Nat) (l : List Byte) : (enumFrom off l).Pairwise fun p q => p.1 < q.1 := by
  induction l generalizing off with
  | nil => exact List.Pairwise.nil
  | cons b r ih =>
    refine List.Pairwise.cons (fun p hp => ?_) (ih _)
    have := enumFrom_bounds hp
    simp only
    omega

theorem record_fits (k : RecordKind) :
    k.seqOffset % 64 + 4 ≤ 64 ∧ (k.size ≠ 128 → k.offset % 64 + (k.size - 4) = k.seqOffset % 64) := by
  have h : ∀ k ∈ allRecords, k.seqOffset % 64 + 4 ≤ 64 ∧
      (k.size ≠ 128 → k.offset % 64 + (k.size - 4) = k.seqOffset % 64) := by decide +kernel
  exact h k (mem_allRecords k)

theorem armBytes_lt {k : RecordKind} {fields : List Byte} {seq : U32} {b : Nat × Byte}
    (h : b ∈ armBytes k fields seq) : b.1 < 64 := by
  have hf := record_fits k
  rcases armBytes_offset h with ⟨hk, i, hi, _, e⟩ | ⟨_, e⟩
  · have := hf.2 hk
    omega
  · omega

theorem armBytes_pairwise (k : RecordKind) (fields : List Byte) (seq : U32) :
    (armBytes k fields seq).Pairwise fun p q => p.1 < q.1 := by
  have hf := record_fits k
  unfold armBytes
  rw [List.pairwise_append]
  refine ⟨?_, enumFrom_pairwise _ _, ?_⟩
  · rw [List.pairwise_map]
    split
    · exact List.Pairwise.nil
    · exact ((enumFrom_pairwise 0 _).filter _).imp fun h => by
        simp only
        omega
  · intro p hp q hq
    obtain ⟨c, hc, rfl⟩ := List.mem_map.mp hp
    have hq := enumFrom_bounds hq
    split at hc
    · cases hc
    · rename_i hk
      have hc := enumFrom_bounds (List.mem_filter.mp hc).1
      rw [List.length_take] at hc
      have := hf.2 hk
      simp only
      omega

/-! ### What an arm's write reaches -/

theorem live_not_covered (k : RecordKind) (fields : List Byte) (seq : U32) {w : LiveWord}
    (hw : w ∈ liveWordsIn (k.seqOffset / 64)) : w.coveredBy (armBytes k fields seq) = false := by
  have h : ∀ k ∈ allRecords, ∀ w ∈ liveWordsIn (k.seqOffset / 64),
      (k.size ≠ 128 → ∀ i ∈ List.range (k.size - 4), k.liveAt i = false →
        ¬ (w.offset % 64 ≤ k.offset % 64 + i ∧ k.offset % 64 + i < w.offset % 64 + 4)) ∧
      (w.offset % 64 + 4 ≤ k.seqOffset % 64 ∨ k.seqOffset % 64 + 4 ≤ w.offset % 64) := by decide +kernel
  have hk := h k (mem_allRecords k) w hw
  simp only [LiveWord.coveredBy, List.any_eq_false, Bool.and_eq_true, decide_eq_true_eq]
  intro b hb hc
  rcases armBytes_offset hb with ⟨h1, i, hi, hl, e⟩ | e
  · exact hk.1 h1 i (List.mem_range.mpr hi) hl (by omega)
  · have := hk.2
    omega

theorem lookup_none {l : List (Nat × Byte)} {a : Nat} (h : ∀ b ∈ l, b.1 ≠ a) : l.lookup a = none := by
  induction l with
  | nil => rfl
  | cons p r ih =>
    have hp : (a == p.1) = false := by
      simpa using fun e : a = p.1 => h p List.mem_cons_self e.symm
    rw [List.lookup_cons, hp]
    exact ih fun b hb => h b (List.mem_cons_of_mem _ hb)

theorem enumFrom_lookup (l : List Byte) : ∀ o i, (enumFrom o l).lookup (o + i) = l[i]? := by
  induction l with
  | nil => intros; rfl
  | cons b r ih =>
    intro o i
    cases i with
    | zero => simp [enumFrom]
    | succ i =>
      have h : (o + (i + 1) == o) = false := by simp
      rw [enumFrom, List.lookup_cons, h, show o + (i + 1) = o + 1 + i by omega]
      exact ih _ _

theorem other_not_armed (k : RecordKind) (fields : List Byte) (seq : U32) {j : RecordKind}
    (hj : j ∈ recordsEndingIn (k.seqOffset / 64)) (hne : j ≠ k) : j.finalWord (armBytes k fields seq) = none := by
  have h : ∀ k ∈ allRecords, ∀ j ∈ recordsEndingIn (k.seqOffset / 64), j ≠ k →
      (k.size ≠ 128 → k.seqOffset % 64 ≤ j.seqOffset % 64 ∨ j.seqOffset % 64 < k.offset % 64) ∧
      (j.seqOffset % 64 < k.seqOffset % 64 ∨ k.seqOffset % 64 + 4 ≤ j.seqOffset % 64) := by decide +kernel
  have hk := h k (mem_allRecords k) j hj hne
  have hf := record_fits k
  have e : (armBytes k fields seq).lookup (j.seqOffset % 64 + 0) = none := by
    apply lookup_none
    intro b hb e
    rcases armBytes_offset hb with ⟨h1, i, hi, _, e'⟩ | e'
    · have := hk.1 h1
      have := hk.2
      have := hf.2 h1
      omega
    · have := hk.2
      omega
  simp only [RecordKind.finalWord, e]

theorem arm_finalWord (k : RecordKind) (fields : List Byte) (seq : U32) :
    k.finalWord (armBytes k fields seq) = some seq := by
  have hf := record_fits k
  have hl : ∀ i, (armBytes k fields seq).lookup (k.seqOffset % 64 + i) =
      (enumFrom (k.seqOffset % 64) (toBytes 4 seq.toNat)).lookup (k.seqOffset % 64 + i) := by
    intro i
    unfold armBytes
    rw [List.lookup_append, lookup_none, Option.none_or]
    intro b hb
    obtain ⟨c, hc, rfl⟩ := List.mem_map.mp hb
    split at hc
    · cases hc
    · rename_i hk
      have hc := enumFrom_bounds (List.mem_filter.mp hc).1
      rw [List.length_take] at hc
      have := hf.2 hk
      simp only
      omega
  have hs : ofBytes (toBytes 4 seq.toNat) = seq.toNat := by
    rw [ofBytes_toBytes]
    exact Nat.mod_eq_of_lt seq.isLt
  have e : seq = BitVec.ofNat 32 (ofBytes (toBytes 4 seq.toNat)) := by
    rw [hs, BitVec.ofNat_toNat, BitVec.setWidth_eq]
  conv => rhs; rw [e]
  simp only [RecordKind.finalWord, hl, enumFrom_lookup]
  rfl

theorem foldl_one {α σ : Type} [DecidableEq α] (f : σ → α → σ) (a : α) :
    ∀ (l : List α) (s : σ), l.Nodup → a ∈ l → (∀ b ∈ l, b ≠ a → ∀ s, f s b = s) → l.foldl f s = f s a := by
  have skip : ∀ (l : List α) (s : σ), (∀ b ∈ l, ∀ s, f s b = s) → l.foldl f s = s := by
    intro l
    induction l with
    | nil => intros; rfl
    | cons b r ih =>
      intro s h
      rw [List.foldl_cons, h b List.mem_cons_self]
      exact ih s fun c hc => h c (List.mem_cons_of_mem _ hc)
  intro l
  induction l with
  | nil => intro s _ h; cases h
  | cons b r ih =>
    intro s hd ha h
    rw [List.nodup_cons] at hd
    rw [List.foldl_cons]
    by_cases e : b = a
    · subst e
      exact skip r _ fun c hc => h c (List.mem_cons_of_mem _ hc) fun e => hd.1 (e ▸ hc)
    · rw [h b List.mem_cons_self e]
      exact ih s hd.2 ((List.mem_cons.mp ha).resolve_left fun e' => e e'.symm)
        fun c hc => h c (List.mem_cons_of_mem _ hc)

/-- The plan unit's part of an arm's write: the bytes are merged, and the record is submitted if its sequence is new. -/
theorem planWrite_arm (k : RecordKind) (fields : List Byte) (seq : U32) (s : State) :
    planWrite (k.seqOffset / 64 * 64) (armBytes k fields seq) s =
      submitIfArmed (armBytes k fields seq)
        (s.onPu fun p => { p with shadow := p.shadow.writeAll (64 * (k.seqOffset / 64)) (armBytes k fields seq) }) k := by
  have hline : k.seqOffset / 64 * 64 / 64 = k.seqOffset / 64 := by omega
  have hlive : (liveWordsIn (k.seqOffset / 64)).filter (LiveWord.coveredBy (armBytes k fields seq)) = [] := by
    rw [List.filter_eq_nil_iff]
    intro w hw
    rw [live_not_covered k fields seq hw]
    exact Bool.false_ne_true
  simp only [planWrite, hline, hlive, List.foldl_nil]
  apply foldl_one
  · exact allRecords_nodup.filter _
  · exact List.mem_filter.mpr ⟨mem_allRecords k, by simp⟩
  · intro j hj hne s
    simp only [submitIfArmed, other_not_armed k fields seq hj hne]

/-- An arm command that the port takes as it comes. -/
theorem armRecord_of_taking {s : State} (h : s.taking) (k : RecordKind) (fields : List Byte) (seq : U32) :
    armRecord k fields seq s =
      submitIfArmed (armBytes k fields seq)
        ((request .hostWrite ((s.planBase + k.seqOffset) / 64) (.write (armBytes k fields seq)) s).onPu fun p =>
          { p with shadow := p.shadow.writeAll (64 * (k.seqOffset / 64)) (armBytes k fields seq) }) k := by
  have ha := arm_line s k.seqOffset (seqOffset_lt k)
  have hlt := seqOffset_lt k
  have hb := enabledBytes_lineData (fun p hp => armBytes_lt (k := k) (fields := fields) (seq := seq) hp)
    (armBytes_pairwise k fields seq)
  have hl : (BitVec.ofNat 25 ((s.planBase + k.seqOffset) / 64)).toNat = (s.planBase + k.seqOffset) / 64 := by
    have h1 := planBase_aligned s.pu.sel
    simp only [State.planBase] at *
    omega
  simp only [armRecord, armTx]
  rw [hostArrive_of_taking h]
  simp only [takeTx, takeWrite, hb, ha]
  rw [classify_record s (show k.seqOffset / 64 * 64 < 0x1000 by omega)]
  simp only
  rw [planWrite_arm, hl]

end Sys2Proof.Machine
end

