-- ==== Sys2Proof/Laws/Fields.lean ====
section
/-!
SUPPORT. What the readers of a record's fields answer (R184): a flag, a number below a bound, and a number that may be
NONE, each by the byte it stands in.
-/
namespace Sys2Proof.Machine

theorem flagAt_eq (b : List Byte) (off : Nat) : flagAt b off = [false, true][byteAt b off]? := by
  unfold flagAt
  split
  · rename_i h
    simp [h]
  · rename_i h
    simp [h]
  · rename_i h0 h1
    replace h0 : byteAt b off ≠ 0 := h0
    replace h1 : byteAt b off ≠ 1 := h1
    exact (List.getElem?_eq_none (show 2 ≤ byteAt b off by omega)).symm

theorem finAt_eq_some_iff (n : Nat) (b : List Byte) (off : Nat) (v : Fin n) :
    finAt n b off = some v ↔ byteAt b off = v.val := by
  unfold finAt
  simp only
  split
  · simp [Fin.ext_iff]
  · have := v.isLt
    simp only [reduceCtorEq, false_iff]
    omega

theorem slotAt_eq_some_iff {n : Nat} (hn : n ≤ 255) (b : List Byte) (off : Nat) (v : Option (Fin n)) :
    slotAt n b off = some v ↔ byteAt b off = 0xFF ∧ v = none ∨ ∃ q, byteAt b off = q.val ∧ v = some q := by
  unfold slotAt
  simp only
  split
  · rename_i h
    simp only [h, Option.some.injEq, true_and]
    constructor
    · rintro rfl
      exact Or.inl rfl
    · rintro (h | ⟨q, hq, _⟩)
      · exact h.symm
      · have := q.isLt
        omega
  · rename_i h
    simp only [h, false_and, false_or]
    split
    · simp only [Option.some.injEq]
      constructor
      · rintro rfl
        exact ⟨_, rfl, rfl⟩
      · rintro ⟨q, hq, rfl⟩
        exact congrArg some (Fin.ext hq)
    · simp only [reduceCtorEq, false_iff]
      rintro ⟨q, hq, _⟩
      have := q.isLt
      omega

end Sys2Proof.Machine
end

