-- ==== Sys2Proof/Laws/State.lean ====
section
/-!
SUPPORT. One lemma per field of State and update: what each of the updates of a block, and sending something out, leaves
and changes.
-/
namespace Sys2Proof.Machine

/-! ### `onPins` -/

@[simp] theorem State.onPins_pins (f : Pins → Pins) (s : State) : (s.onPins f).pins = f s.pins := rfl
@[simp] theorem State.onPins_pending (f : Pins → Pins) (s : State) : (s.onPins f).pending = s.pending := rfl
@[simp] theorem State.onPins_mem (f : Pins → Pins) (s : State) : (s.onPins f).mem = s.mem := rfl
@[simp] theorem State.onPins_hmp (f : Pins → Pins) (s : State) : (s.onPins f).hmp = s.hmp := rfl
@[simp] theorem State.onPins_rm (f : Pins → Pins) (s : State) : (s.onPins f).rm = s.rm := rfl
@[simp] theorem State.onPins_da (f : Pins → Pins) (s : State) : (s.onPins f).da = s.da := rfl
@[simp] theorem State.onPins_pu (f : Pins → Pins) (s : State) : (s.onPins f).pu = s.pu := rfl
@[simp] theorem State.onPins_st (f : Pins → Pins) (s : State) : (s.onPins f).st = s.st := rfl
@[simp] theorem State.onPins_so (f : Pins → Pins) (s : State) : (s.onPins f).so = s.so := rfl
@[simp] theorem State.onPins_sh (f : Pins → Pins) (s : State) : (s.onPins f).sh = s.sh := rfl
@[simp] theorem State.onPins_tc (f : Pins → Pins) (s : State) : (s.onPins f).tc = s.tc := rfl
@[simp] theorem State.onPins_au (f : Pins → Pins) (s : State) : (s.onPins f).au = s.au := rfl
@[simp] theorem State.onPins_tb (f : Pins → Pins) (s : State) : (s.onPins f).tb = s.tb := rfl
@[simp] theorem State.onPins_tm (f : Pins → Pins) (s : State) : (s.onPins f).tm = s.tm := rfl
@[simp] theorem State.onPins_pwc (f : Pins → Pins) (s : State) : (s.onPins f).pwc = s.pwc := rfl
@[simp] theorem State.onPins_eu (f : Pins → Pins) (s : State) : (s.onPins f).eu = s.eu := rfl
@[simp] theorem State.onPins_generation (f : Pins → Pins) (s : State) : (s.onPins f).generation = s.generation := rfl
@[simp] theorem State.onPins_nextId (f : Pins → Pins) (s : State) : (s.onPins f).nextId = s.nextId := rfl
@[simp] theorem State.onPins_free (f : Pins → Pins) (s : State) : (s.onPins f).free = s.free := rfl
@[simp] theorem State.onPins_out (f : Pins → Pins) (s : State) : (s.onPins f).out = s.out := rfl

/-! ### `onMem` -/

@[simp] theorem State.onMem_mem (f : Mem → Mem) (s : State) : (s.onMem f).mem = f s.mem := rfl
@[simp] theorem State.onMem_pending (f : Mem → Mem) (s : State) : (s.onMem f).pending = s.pending := rfl
@[simp] theorem State.onMem_pins (f : Mem → Mem) (s : State) : (s.onMem f).pins = s.pins := rfl
@[simp] theorem State.onMem_hmp (f : Mem → Mem) (s : State) : (s.onMem f).hmp = s.hmp := rfl
@[simp] theorem State.onMem_rm (f : Mem → Mem) (s : State) : (s.onMem f).rm = s.rm := rfl
@[simp] theorem State.onMem_da (f : Mem → Mem) (s : State) : (s.onMem f).da = s.da := rfl
@[simp] theorem State.onMem_pu (f : Mem → Mem) (s : State) : (s.onMem f).pu = s.pu := rfl
@[simp] theorem State.onMem_st (f : Mem → Mem) (s : State) : (s.onMem f).st = s.st := rfl
@[simp] theorem State.onMem_so (f : Mem → Mem) (s : State) : (s.onMem f).so = s.so := rfl
@[simp] theorem State.onMem_sh (f : Mem → Mem) (s : State) : (s.onMem f).sh = s.sh := rfl
@[simp] theorem State.onMem_tc (f : Mem → Mem) (s : State) : (s.onMem f).tc = s.tc := rfl
@[simp] theorem State.onMem_au (f : Mem → Mem) (s : State) : (s.onMem f).au = s.au := rfl
@[simp] theorem State.onMem_tb (f : Mem → Mem) (s : State) : (s.onMem f).tb = s.tb := rfl
@[simp] theorem State.onMem_tm (f : Mem → Mem) (s : State) : (s.onMem f).tm = s.tm := rfl
@[simp] theorem State.onMem_pwc (f : Mem → Mem) (s : State) : (s.onMem f).pwc = s.pwc := rfl
@[simp] theorem State.onMem_eu (f : Mem → Mem) (s : State) : (s.onMem f).eu = s.eu := rfl
@[simp] theorem State.onMem_generation (f : Mem → Mem) (s : State) : (s.onMem f).generation = s.generation := rfl
@[simp] theorem State.onMem_nextId (f : Mem → Mem) (s : State) : (s.onMem f).nextId = s.nextId := rfl
@[simp] theorem State.onMem_free (f : Mem → Mem) (s : State) : (s.onMem f).free = s.free := rfl
@[simp] theorem State.onMem_out (f : Mem → Mem) (s : State) : (s.onMem f).out = s.out := rfl

/-! ### `onHmp` -/

@[simp] theorem State.onHmp_hmp (f : Hmp → Hmp) (s : State) : (s.onHmp f).hmp = f s.hmp := rfl
@[simp] theorem State.onHmp_pending (f : Hmp → Hmp) (s : State) : (s.onHmp f).pending = s.pending := rfl
@[simp] theorem State.onHmp_pins (f : Hmp → Hmp) (s : State) : (s.onHmp f).pins = s.pins := rfl
@[simp] theorem State.onHmp_mem (f : Hmp → Hmp) (s : State) : (s.onHmp f).mem = s.mem := rfl
@[simp] theorem State.onHmp_rm (f : Hmp → Hmp) (s : State) : (s.onHmp f).rm = s.rm := rfl
@[simp] theorem State.onHmp_da (f : Hmp → Hmp) (s : State) : (s.onHmp f).da = s.da := rfl
@[simp] theorem State.onHmp_pu (f : Hmp → Hmp) (s : State) : (s.onHmp f).pu = s.pu := rfl
@[simp] theorem State.onHmp_st (f : Hmp → Hmp) (s : State) : (s.onHmp f).st = s.st := rfl
@[simp] theorem State.onHmp_so (f : Hmp → Hmp) (s : State) : (s.onHmp f).so = s.so := rfl
@[simp] theorem State.onHmp_sh (f : Hmp → Hmp) (s : State) : (s.onHmp f).sh = s.sh := rfl
@[simp] theorem State.onHmp_tc (f : Hmp → Hmp) (s : State) : (s.onHmp f).tc = s.tc := rfl
@[simp] theorem State.onHmp_au (f : Hmp → Hmp) (s : State) : (s.onHmp f).au = s.au := rfl
@[simp] theorem State.onHmp_tb (f : Hmp → Hmp) (s : State) : (s.onHmp f).tb = s.tb := rfl
@[simp] theorem State.onHmp_tm (f : Hmp → Hmp) (s : State) : (s.onHmp f).tm = s.tm := rfl
@[simp] theorem State.onHmp_pwc (f : Hmp → Hmp) (s : State) : (s.onHmp f).pwc = s.pwc := rfl
@[simp] theorem State.onHmp_eu (f : Hmp → Hmp) (s : State) : (s.onHmp f).eu = s.eu := rfl
@[simp] theorem State.onHmp_generation (f : Hmp → Hmp) (s : State) : (s.onHmp f).generation = s.generation := rfl
@[simp] theorem State.onHmp_nextId (f : Hmp → Hmp) (s : State) : (s.onHmp f).nextId = s.nextId := rfl
@[simp] theorem State.onHmp_free (f : Hmp → Hmp) (s : State) : (s.onHmp f).free = s.free := rfl
@[simp] theorem State.onHmp_out (f : Hmp → Hmp) (s : State) : (s.onHmp f).out = s.out := rfl

/-! ### `onRm` -/

@[simp] theorem State.onRm_rm (f : Rm → Rm) (s : State) : (s.onRm f).rm = f s.rm := rfl
@[simp] theorem State.onRm_pending (f : Rm → Rm) (s : State) : (s.onRm f).pending = s.pending := rfl
@[simp] theorem State.onRm_pins (f : Rm → Rm) (s : State) : (s.onRm f).pins = s.pins := rfl
@[simp] theorem State.onRm_mem (f : Rm → Rm) (s : State) : (s.onRm f).mem = s.mem := rfl
@[simp] theorem State.onRm_hmp (f : Rm → Rm) (s : State) : (s.onRm f).hmp = s.hmp := rfl
@[simp] theorem State.onRm_da (f : Rm → Rm) (s : State) : (s.onRm f).da = s.da := rfl
@[simp] theorem State.onRm_pu (f : Rm → Rm) (s : State) : (s.onRm f).pu = s.pu := rfl
@[simp] theorem State.onRm_st (f : Rm → Rm) (s : State) : (s.onRm f).st = s.st := rfl
@[simp] theorem State.onRm_so (f : Rm → Rm) (s : State) : (s.onRm f).so = s.so := rfl
@[simp] theorem State.onRm_sh (f : Rm → Rm) (s : State) : (s.onRm f).sh = s.sh := rfl
@[simp] theorem State.onRm_tc (f : Rm → Rm) (s : State) : (s.onRm f).tc = s.tc := rfl
@[simp] theorem State.onRm_au (f : Rm → Rm) (s : State) : (s.onRm f).au = s.au := rfl
@[simp] theorem State.onRm_tb (f : Rm → Rm) (s : State) : (s.onRm f).tb = s.tb := rfl
@[simp] theorem State.onRm_tm (f : Rm → Rm) (s : State) : (s.onRm f).tm = s.tm := rfl
@[simp] theorem State.onRm_pwc (f : Rm → Rm) (s : State) : (s.onRm f).pwc = s.pwc := rfl
@[simp] theorem State.onRm_eu (f : Rm → Rm) (s : State) : (s.onRm f).eu = s.eu := rfl
@[simp] theorem State.onRm_generation (f : Rm → Rm) (s : State) : (s.onRm f).generation = s.generation := rfl
@[simp] theorem State.onRm_nextId (f : Rm → Rm) (s : State) : (s.onRm f).nextId = s.nextId := rfl
@[simp] theorem State.onRm_free (f : Rm → Rm) (s : State) : (s.onRm f).free = s.free := rfl
@[simp] theorem State.onRm_out (f : Rm → Rm) (s : State) : (s.onRm f).out = s.out := rfl

/-! ### `onDa` -/

@[simp] theorem State.onDa_da (f : Da → Da) (s : State) : (s.onDa f).da = f s.da := rfl
@[simp] theorem State.onDa_pending (f : Da → Da) (s : State) : (s.onDa f).pending = s.pending := rfl
@[simp] theorem State.onDa_pins (f : Da → Da) (s : State) : (s.onDa f).pins = s.pins := rfl
@[simp] theorem State.onDa_mem (f : Da → Da) (s : State) : (s.onDa f).mem = s.mem := rfl
@[simp] theorem State.onDa_hmp (f : Da → Da) (s : State) : (s.onDa f).hmp = s.hmp := rfl
@[simp] theorem State.onDa_rm (f : Da → Da) (s : State) : (s.onDa f).rm = s.rm := rfl
@[simp] theorem State.onDa_pu (f : Da → Da) (s : State) : (s.onDa f).pu = s.pu := rfl
@[simp] theorem State.onDa_st (f : Da → Da) (s : State) : (s.onDa f).st = s.st := rfl
@[simp] theorem State.onDa_so (f : Da → Da) (s : State) : (s.onDa f).so = s.so := rfl
@[simp] theorem State.onDa_sh (f : Da → Da) (s : State) : (s.onDa f).sh = s.sh := rfl
@[simp] theorem State.onDa_tc (f : Da → Da) (s : State) : (s.onDa f).tc = s.tc := rfl
@[simp] theorem State.onDa_au (f : Da → Da) (s : State) : (s.onDa f).au = s.au := rfl
@[simp] theorem State.onDa_tb (f : Da → Da) (s : State) : (s.onDa f).tb = s.tb := rfl
@[simp] theorem State.onDa_tm (f : Da → Da) (s : State) : (s.onDa f).tm = s.tm := rfl
@[simp] theorem State.onDa_pwc (f : Da → Da) (s : State) : (s.onDa f).pwc = s.pwc := rfl
@[simp] theorem State.onDa_eu (f : Da → Da) (s : State) : (s.onDa f).eu = s.eu := rfl
@[simp] theorem State.onDa_generation (f : Da → Da) (s : State) : (s.onDa f).generation = s.generation := rfl
@[simp] theorem State.onDa_nextId (f : Da → Da) (s : State) : (s.onDa f).nextId = s.nextId := rfl
@[simp] theorem State.onDa_free (f : Da → Da) (s : State) : (s.onDa f).free = s.free := rfl
@[simp] theorem State.onDa_out (f : Da → Da) (s : State) : (s.onDa f).out = s.out := rfl

/-! ### `onPu` -/

@[simp] theorem State.onPu_pu (f : Pu → Pu) (s : State) : (s.onPu f).pu = f s.pu := rfl
@[simp] theorem State.onPu_pending (f : Pu → Pu) (s : State) : (s.onPu f).pending = s.pending := rfl
@[simp] theorem State.onPu_pins (f : Pu → Pu) (s : State) : (s.onPu f).pins = s.pins := rfl
@[simp] theorem State.onPu_mem (f : Pu → Pu) (s : State) : (s.onPu f).mem = s.mem := rfl
@[simp] theorem State.onPu_hmp (f : Pu → Pu) (s : State) : (s.onPu f).hmp = s.hmp := rfl
@[simp] theorem State.onPu_rm (f : Pu → Pu) (s : State) : (s.onPu f).rm = s.rm := rfl
@[simp] theorem State.onPu_da (f : Pu → Pu) (s : State) : (s.onPu f).da = s.da := rfl
@[simp] theorem State.onPu_st (f : Pu → Pu) (s : State) : (s.onPu f).st = s.st := rfl
@[simp] theorem State.onPu_so (f : Pu → Pu) (s : State) : (s.onPu f).so = s.so := rfl
@[simp] theorem State.onPu_sh (f : Pu → Pu) (s : State) : (s.onPu f).sh = s.sh := rfl
@[simp] theorem State.onPu_tc (f : Pu → Pu) (s : State) : (s.onPu f).tc = s.tc := rfl
@[simp] theorem State.onPu_au (f : Pu → Pu) (s : State) : (s.onPu f).au = s.au := rfl
@[simp] theorem State.onPu_tb (f : Pu → Pu) (s : State) : (s.onPu f).tb = s.tb := rfl
@[simp] theorem State.onPu_tm (f : Pu → Pu) (s : State) : (s.onPu f).tm = s.tm := rfl
@[simp] theorem State.onPu_pwc (f : Pu → Pu) (s : State) : (s.onPu f).pwc = s.pwc := rfl
@[simp] theorem State.onPu_eu (f : Pu → Pu) (s : State) : (s.onPu f).eu = s.eu := rfl
@[simp] theorem State.onPu_generation (f : Pu → Pu) (s : State) : (s.onPu f).generation = s.generation := rfl
@[simp] theorem State.onPu_nextId (f : Pu → Pu) (s : State) : (s.onPu f).nextId = s.nextId := rfl
@[simp] theorem State.onPu_free (f : Pu → Pu) (s : State) : (s.onPu f).free = s.free := rfl
@[simp] theorem State.onPu_out (f : Pu → Pu) (s : State) : (s.onPu f).out = s.out := rfl

/-! ### `onSt` -/

@[simp] theorem State.onSt_st (f : St → St) (s : State) : (s.onSt f).st = f s.st := rfl
@[simp] theorem State.onSt_pending (f : St → St) (s : State) : (s.onSt f).pending = s.pending := rfl
@[simp] theorem State.onSt_pins (f : St → St) (s : State) : (s.onSt f).pins = s.pins := rfl
@[simp] theorem State.onSt_mem (f : St → St) (s : State) : (s.onSt f).mem = s.mem := rfl
@[simp] theorem State.onSt_hmp (f : St → St) (s : State) : (s.onSt f).hmp = s.hmp := rfl
@[simp] theorem State.onSt_rm (f : St → St) (s : State) : (s.onSt f).rm = s.rm := rfl
@[simp] theorem State.onSt_da (f : St → St) (s : State) : (s.onSt f).da = s.da := rfl
@[simp] theorem State.onSt_pu (f : St → St) (s : State) : (s.onSt f).pu = s.pu := rfl
@[simp] theorem State.onSt_so (f : St → St) (s : State) : (s.onSt f).so = s.so := rfl
@[simp] theorem State.onSt_sh (f : St → St) (s : State) : (s.onSt f).sh = s.sh := rfl
@[simp] theorem State.onSt_tc (f : St → St) (s : State) : (s.onSt f).tc = s.tc := rfl
@[simp] theorem State.onSt_au (f : St → St) (s : State) : (s.onSt f).au = s.au := rfl
@[simp] theorem State.onSt_tb (f : St → St) (s : State) : (s.onSt f).tb = s.tb := rfl
@[simp] theorem State.onSt_tm (f : St → St) (s : State) : (s.onSt f).tm = s.tm := rfl
@[simp] theorem State.onSt_pwc (f : St → St) (s : State) : (s.onSt f).pwc = s.pwc := rfl
@[simp] theorem State.onSt_eu (f : St → St) (s : State) : (s.onSt f).eu = s.eu := rfl
@[simp] theorem State.onSt_generation (f : St → St) (s : State) : (s.onSt f).generation = s.generation := rfl
@[simp] theorem State.onSt_nextId (f : St → St) (s : State) : (s.onSt f).nextId = s.nextId := rfl
@[simp] theorem State.onSt_free (f : St → St) (s : State) : (s.onSt f).free = s.free := rfl
@[simp] theorem State.onSt_out (f : St → St) (s : State) : (s.onSt f).out = s.out := rfl

/-! ### `onSo` -/

@[simp] theorem State.onSo_so (f : So → So) (s : State) : (s.onSo f).so = f s.so := rfl
@[simp] theorem State.onSo_pending (f : So → So) (s : State) : (s.onSo f).pending = s.pending := rfl
@[simp] theorem State.onSo_pins (f : So → So) (s : State) : (s.onSo f).pins = s.pins := rfl
@[simp] theorem State.onSo_mem (f : So → So) (s : State) : (s.onSo f).mem = s.mem := rfl
@[simp] theorem State.onSo_hmp (f : So → So) (s : State) : (s.onSo f).hmp = s.hmp := rfl
@[simp] theorem State.onSo_rm (f : So → So) (s : State) : (s.onSo f).rm = s.rm := rfl
@[simp] theorem State.onSo_da (f : So → So) (s : State) : (s.onSo f).da = s.da := rfl
@[simp] theorem State.onSo_pu (f : So → So) (s : State) : (s.onSo f).pu = s.pu := rfl
@[simp] theorem State.onSo_st (f : So → So) (s : State) : (s.onSo f).st = s.st := rfl
@[simp] theorem State.onSo_sh (f : So → So) (s : State) : (s.onSo f).sh = s.sh := rfl
@[simp] theorem State.onSo_tc (f : So → So) (s : State) : (s.onSo f).tc = s.tc := rfl
@[simp] theorem State.onSo_au (f : So → So) (s : State) : (s.onSo f).au = s.au := rfl
@[simp] theorem State.onSo_tb (f : So → So) (s : State) : (s.onSo f).tb = s.tb := rfl
@[simp] theorem State.onSo_tm (f : So → So) (s : State) : (s.onSo f).tm = s.tm := rfl
@[simp] theorem State.onSo_pwc (f : So → So) (s : State) : (s.onSo f).pwc = s.pwc := rfl
@[simp] theorem State.onSo_eu (f : So → So) (s : State) : (s.onSo f).eu = s.eu := rfl
@[simp] theorem State.onSo_generation (f : So → So) (s : State) : (s.onSo f).generation = s.generation := rfl
@[simp] theorem State.onSo_nextId (f : So → So) (s : State) : (s.onSo f).nextId = s.nextId := rfl
@[simp] theorem State.onSo_free (f : So → So) (s : State) : (s.onSo f).free = s.free := rfl
@[simp] theorem State.onSo_out (f : So → So) (s : State) : (s.onSo f).out = s.out := rfl

/-! ### `onSh` -/

@[simp] theorem State.onSh_sh (f : Sh → Sh) (s : State) : (s.onSh f).sh = f s.sh := rfl
@[simp] theorem State.onSh_pending (f : Sh → Sh) (s : State) : (s.onSh f).pending = s.pending := rfl
@[simp] theorem State.onSh_pins (f : Sh → Sh) (s : State) : (s.onSh f).pins = s.pins := rfl
@[simp] theorem State.onSh_mem (f : Sh → Sh) (s : State) : (s.onSh f).mem = s.mem := rfl
@[simp] theorem State.onSh_hmp (f : Sh → Sh) (s : State) : (s.onSh f).hmp = s.hmp := rfl
@[simp] theorem State.onSh_rm (f : Sh → Sh) (s : State) : (s.onSh f).rm = s.rm := rfl
@[simp] theorem State.onSh_da (f : Sh → Sh) (s : State) : (s.onSh f).da = s.da := rfl
@[simp] theorem State.onSh_pu (f : Sh → Sh) (s : State) : (s.onSh f).pu = s.pu := rfl
@[simp] theorem State.onSh_st (f : Sh → Sh) (s : State) : (s.onSh f).st = s.st := rfl
@[simp] theorem State.onSh_so (f : Sh → Sh) (s : State) : (s.onSh f).so = s.so := rfl
@[simp] theorem State.onSh_tc (f : Sh → Sh) (s : State) : (s.onSh f).tc = s.tc := rfl
@[simp] theorem State.onSh_au (f : Sh → Sh) (s : State) : (s.onSh f).au = s.au := rfl
@[simp] theorem State.onSh_tb (f : Sh → Sh) (s : State) : (s.onSh f).tb = s.tb := rfl
@[simp] theorem State.onSh_tm (f : Sh → Sh) (s : State) : (s.onSh f).tm = s.tm := rfl
@[simp] theorem State.onSh_pwc (f : Sh → Sh) (s : State) : (s.onSh f).pwc = s.pwc := rfl
@[simp] theorem State.onSh_eu (f : Sh → Sh) (s : State) : (s.onSh f).eu = s.eu := rfl
@[simp] theorem State.onSh_generation (f : Sh → Sh) (s : State) : (s.onSh f).generation = s.generation := rfl
@[simp] theorem State.onSh_nextId (f : Sh → Sh) (s : State) : (s.onSh f).nextId = s.nextId := rfl
@[simp] theorem State.onSh_free (f : Sh → Sh) (s : State) : (s.onSh f).free = s.free := rfl
@[simp] theorem State.onSh_out (f : Sh → Sh) (s : State) : (s.onSh f).out = s.out := rfl

/-! ### `onTc` -/

@[simp] theorem State.onTc_tc (f : Tc → Tc) (s : State) : (s.onTc f).tc = f s.tc := rfl
@[simp] theorem State.onTc_pending (f : Tc → Tc) (s : State) : (s.onTc f).pending = s.pending := rfl
@[simp] theorem State.onTc_pins (f : Tc → Tc) (s : State) : (s.onTc f).pins = s.pins := rfl
@[simp] theorem State.onTc_mem (f : Tc → Tc) (s : State) : (s.onTc f).mem = s.mem := rfl
@[simp] theorem State.onTc_hmp (f : Tc → Tc) (s : State) : (s.onTc f).hmp = s.hmp := rfl
@[simp] theorem State.onTc_rm (f : Tc → Tc) (s : State) : (s.onTc f).rm = s.rm := rfl
@[simp] theorem State.onTc_da (f : Tc → Tc) (s : State) : (s.onTc f).da = s.da := rfl
@[simp] theorem State.onTc_pu (f : Tc → Tc) (s : State) : (s.onTc f).pu = s.pu := rfl
@[simp] theorem State.onTc_st (f : Tc → Tc) (s : State) : (s.onTc f).st = s.st := rfl
@[simp] theorem State.onTc_so (f : Tc → Tc) (s : State) : (s.onTc f).so = s.so := rfl
@[simp] theorem State.onTc_sh (f : Tc → Tc) (s : State) : (s.onTc f).sh = s.sh := rfl
@[simp] theorem State.onTc_au (f : Tc → Tc) (s : State) : (s.onTc f).au = s.au := rfl
@[simp] theorem State.onTc_tb (f : Tc → Tc) (s : State) : (s.onTc f).tb = s.tb := rfl
@[simp] theorem State.onTc_tm (f : Tc → Tc) (s : State) : (s.onTc f).tm = s.tm := rfl
@[simp] theorem State.onTc_pwc (f : Tc → Tc) (s : State) : (s.onTc f).pwc = s.pwc := rfl
@[simp] theorem State.onTc_eu (f : Tc → Tc) (s : State) : (s.onTc f).eu = s.eu := rfl
@[simp] theorem State.onTc_generation (f : Tc → Tc) (s : State) : (s.onTc f).generation = s.generation := rfl
@[simp] theorem State.onTc_nextId (f : Tc → Tc) (s : State) : (s.onTc f).nextId = s.nextId := rfl
@[simp] theorem State.onTc_free (f : Tc → Tc) (s : State) : (s.onTc f).free = s.free := rfl
@[simp] theorem State.onTc_out (f : Tc → Tc) (s : State) : (s.onTc f).out = s.out := rfl

/-! ### `onAu` -/

@[simp] theorem State.onAu_au (f : Au → Au) (s : State) : (s.onAu f).au = f s.au := rfl
@[simp] theorem State.onAu_pending (f : Au → Au) (s : State) : (s.onAu f).pending = s.pending := rfl
@[simp] theorem State.onAu_pins (f : Au → Au) (s : State) : (s.onAu f).pins = s.pins := rfl
@[simp] theorem State.onAu_mem (f : Au → Au) (s : State) : (s.onAu f).mem = s.mem := rfl
@[simp] theorem State.onAu_hmp (f : Au → Au) (s : State) : (s.onAu f).hmp = s.hmp := rfl
@[simp] theorem State.onAu_rm (f : Au → Au) (s : State) : (s.onAu f).rm = s.rm := rfl
@[simp] theorem State.onAu_da (f : Au → Au) (s : State) : (s.onAu f).da = s.da := rfl
@[simp] theorem State.onAu_pu (f : Au → Au) (s : State) : (s.onAu f).pu = s.pu := rfl
@[simp] theorem State.onAu_st (f : Au → Au) (s : State) : (s.onAu f).st = s.st := rfl
@[simp] theorem State.onAu_so (f : Au → Au) (s : State) : (s.onAu f).so = s.so := rfl
@[simp] theorem State.onAu_sh (f : Au → Au) (s : State) : (s.onAu f).sh = s.sh := rfl
@[simp] theorem State.onAu_tc (f : Au → Au) (s : State) : (s.onAu f).tc = s.tc := rfl
@[simp] theorem State.onAu_tb (f : Au → Au) (s : State) : (s.onAu f).tb = s.tb := rfl
@[simp] theorem State.onAu_tm (f : Au → Au) (s : State) : (s.onAu f).tm = s.tm := rfl
@[simp] theorem State.onAu_pwc (f : Au → Au) (s : State) : (s.onAu f).pwc = s.pwc := rfl
@[simp] theorem State.onAu_eu (f : Au → Au) (s : State) : (s.onAu f).eu = s.eu := rfl
@[simp] theorem State.onAu_generation (f : Au → Au) (s : State) : (s.onAu f).generation = s.generation := rfl
@[simp] theorem State.onAu_nextId (f : Au → Au) (s : State) : (s.onAu f).nextId = s.nextId := rfl
@[simp] theorem State.onAu_free (f : Au → Au) (s : State) : (s.onAu f).free = s.free := rfl
@[simp] theorem State.onAu_out (f : Au → Au) (s : State) : (s.onAu f).out = s.out := rfl

/-! ### `onTb` -/

@[simp] theorem State.onTb_tb (f : Tb → Tb) (s : State) : (s.onTb f).tb = f s.tb := rfl
@[simp] theorem State.onTb_pending (f : Tb → Tb) (s : State) : (s.onTb f).pending = s.pending := rfl
@[simp] theorem State.onTb_pins (f : Tb → Tb) (s : State) : (s.onTb f).pins = s.pins := rfl
@[simp] theorem State.onTb_mem (f : Tb → Tb) (s : State) : (s.onTb f).mem = s.mem := rfl
@[simp] theorem State.onTb_hmp (f : Tb → Tb) (s : State) : (s.onTb f).hmp = s.hmp := rfl
@[simp] theorem State.onTb_rm (f : Tb → Tb) (s : State) : (s.onTb f).rm = s.rm := rfl
@[simp] theorem State.onTb_da (f : Tb → Tb) (s : State) : (s.onTb f).da = s.da := rfl
@[simp] theorem State.onTb_pu (f : Tb → Tb) (s : State) : (s.onTb f).pu = s.pu := rfl
@[simp] theorem State.onTb_st (f : Tb → Tb) (s : State) : (s.onTb f).st = s.st := rfl
@[simp] theorem State.onTb_so (f : Tb → Tb) (s : State) : (s.onTb f).so = s.so := rfl
@[simp] theorem State.onTb_sh (f : Tb → Tb) (s : State) : (s.onTb f).sh = s.sh := rfl
@[simp] theorem State.onTb_tc (f : Tb → Tb) (s : State) : (s.onTb f).tc = s.tc := rfl
@[simp] theorem State.onTb_au (f : Tb → Tb) (s : State) : (s.onTb f).au = s.au := rfl
@[simp] theorem State.onTb_tm (f : Tb → Tb) (s : State) : (s.onTb f).tm = s.tm := rfl
@[simp] theorem State.onTb_pwc (f : Tb → Tb) (s : State) : (s.onTb f).pwc = s.pwc := rfl
@[simp] theorem State.onTb_eu (f : Tb → Tb) (s : State) : (s.onTb f).eu = s.eu := rfl
@[simp] theorem State.onTb_generation (f : Tb → Tb) (s : State) : (s.onTb f).generation = s.generation := rfl
@[simp] theorem State.onTb_nextId (f : Tb → Tb) (s : State) : (s.onTb f).nextId = s.nextId := rfl
@[simp] theorem State.onTb_free (f : Tb → Tb) (s : State) : (s.onTb f).free = s.free := rfl
@[simp] theorem State.onTb_out (f : Tb → Tb) (s : State) : (s.onTb f).out = s.out := rfl

/-! ### `onTm` -/

@[simp] theorem State.onTm_tm (f : Tm → Tm) (s : State) : (s.onTm f).tm = f s.tm := rfl
@[simp] theorem State.onTm_pending (f : Tm → Tm) (s : State) : (s.onTm f).pending = s.pending := rfl
@[simp] theorem State.onTm_pins (f : Tm → Tm) (s : State) : (s.onTm f).pins = s.pins := rfl
@[simp] theorem State.onTm_mem (f : Tm → Tm) (s : State) : (s.onTm f).mem = s.mem := rfl
@[simp] theorem State.onTm_hmp (f : Tm → Tm) (s : State) : (s.onTm f).hmp = s.hmp := rfl
@[simp] theorem State.onTm_rm (f : Tm → Tm) (s : State) : (s.onTm f).rm = s.rm := rfl
@[simp] theorem State.onTm_da (f : Tm → Tm) (s : State) : (s.onTm f).da = s.da := rfl
@[simp] theorem State.onTm_pu (f : Tm → Tm) (s : State) : (s.onTm f).pu = s.pu := rfl
@[simp] theorem State.onTm_st (f : Tm → Tm) (s : State) : (s.onTm f).st = s.st := rfl
@[simp] theorem State.onTm_so (f : Tm → Tm) (s : State) : (s.onTm f).so = s.so := rfl
@[simp] theorem State.onTm_sh (f : Tm → Tm) (s : State) : (s.onTm f).sh = s.sh := rfl
@[simp] theorem State.onTm_tc (f : Tm → Tm) (s : State) : (s.onTm f).tc = s.tc := rfl
@[simp] theorem State.onTm_au (f : Tm → Tm) (s : State) : (s.onTm f).au = s.au := rfl
@[simp] theorem State.onTm_tb (f : Tm → Tm) (s : State) : (s.onTm f).tb = s.tb := rfl
@[simp] theorem State.onTm_pwc (f : Tm → Tm) (s : State) : (s.onTm f).pwc = s.pwc := rfl
@[simp] theorem State.onTm_eu (f : Tm → Tm) (s : State) : (s.onTm f).eu = s.eu := rfl
@[simp] theorem State.onTm_generation (f : Tm → Tm) (s : State) : (s.onTm f).generation = s.generation := rfl
@[simp] theorem State.onTm_nextId (f : Tm → Tm) (s : State) : (s.onTm f).nextId = s.nextId := rfl
@[simp] theorem State.onTm_free (f : Tm → Tm) (s : State) : (s.onTm f).free = s.free := rfl
@[simp] theorem State.onTm_out (f : Tm → Tm) (s : State) : (s.onTm f).out = s.out := rfl

/-! ### `onPwc` -/

@[simp] theorem State.onPwc_pwc (f : Pwc → Pwc) (s : State) : (s.onPwc f).pwc = f s.pwc := rfl
@[simp] theorem State.onPwc_pending (f : Pwc → Pwc) (s : State) : (s.onPwc f).pending = s.pending := rfl
@[simp] theorem State.onPwc_pins (f : Pwc → Pwc) (s : State) : (s.onPwc f).pins = s.pins := rfl
@[simp] theorem State.onPwc_mem (f : Pwc → Pwc) (s : State) : (s.onPwc f).mem = s.mem := rfl
@[simp] theorem State.onPwc_hmp (f : Pwc → Pwc) (s : State) : (s.onPwc f).hmp = s.hmp := rfl
@[simp] theorem State.onPwc_rm (f : Pwc → Pwc) (s : State) : (s.onPwc f).rm = s.rm := rfl
@[simp] theorem State.onPwc_da (f : Pwc → Pwc) (s : State) : (s.onPwc f).da = s.da := rfl
@[simp] theorem State.onPwc_pu (f : Pwc → Pwc) (s : State) : (s.onPwc f).pu = s.pu := rfl
@[simp] theorem State.onPwc_st (f : Pwc → Pwc) (s : State) : (s.onPwc f).st = s.st := rfl
@[simp] theorem State.onPwc_so (f : Pwc → Pwc) (s : State) : (s.onPwc f).so = s.so := rfl
@[simp] theorem State.onPwc_sh (f : Pwc → Pwc) (s : State) : (s.onPwc f).sh = s.sh := rfl
@[simp] theorem State.onPwc_tc (f : Pwc → Pwc) (s : State) : (s.onPwc f).tc = s.tc := rfl
@[simp] theorem State.onPwc_au (f : Pwc → Pwc) (s : State) : (s.onPwc f).au = s.au := rfl
@[simp] theorem State.onPwc_tb (f : Pwc → Pwc) (s : State) : (s.onPwc f).tb = s.tb := rfl
@[simp] theorem State.onPwc_tm (f : Pwc → Pwc) (s : State) : (s.onPwc f).tm = s.tm := rfl
@[simp] theorem State.onPwc_eu (f : Pwc → Pwc) (s : State) : (s.onPwc f).eu = s.eu := rfl
@[simp] theorem State.onPwc_generation (f : Pwc → Pwc) (s : State) : (s.onPwc f).generation = s.generation := rfl
@[simp] theorem State.onPwc_nextId (f : Pwc → Pwc) (s : State) : (s.onPwc f).nextId = s.nextId := rfl
@[simp] theorem State.onPwc_free (f : Pwc → Pwc) (s : State) : (s.onPwc f).free = s.free := rfl
@[simp] theorem State.onPwc_out (f : Pwc → Pwc) (s : State) : (s.onPwc f).out = s.out := rfl

/-! ### `onEu` -/

@[simp] theorem State.onEu_eu (f : Eu → Eu) (s : State) : (s.onEu f).eu = f s.eu := rfl
@[simp] theorem State.onEu_pending (f : Eu → Eu) (s : State) : (s.onEu f).pending = s.pending := rfl
@[simp] theorem State.onEu_pins (f : Eu → Eu) (s : State) : (s.onEu f).pins = s.pins := rfl
@[simp] theorem State.onEu_mem (f : Eu → Eu) (s : State) : (s.onEu f).mem = s.mem := rfl
@[simp] theorem State.onEu_hmp (f : Eu → Eu) (s : State) : (s.onEu f).hmp = s.hmp := rfl
@[simp] theorem State.onEu_rm (f : Eu → Eu) (s : State) : (s.onEu f).rm = s.rm := rfl
@[simp] theorem State.onEu_da (f : Eu → Eu) (s : State) : (s.onEu f).da = s.da := rfl
@[simp] theorem State.onEu_pu (f : Eu → Eu) (s : State) : (s.onEu f).pu = s.pu := rfl
@[simp] theorem State.onEu_st (f : Eu → Eu) (s : State) : (s.onEu f).st = s.st := rfl
@[simp] theorem State.onEu_so (f : Eu → Eu) (s : State) : (s.onEu f).so = s.so := rfl
@[simp] theorem State.onEu_sh (f : Eu → Eu) (s : State) : (s.onEu f).sh = s.sh := rfl
@[simp] theorem State.onEu_tc (f : Eu → Eu) (s : State) : (s.onEu f).tc = s.tc := rfl
@[simp] theorem State.onEu_au (f : Eu → Eu) (s : State) : (s.onEu f).au = s.au := rfl
@[simp] theorem State.onEu_tb (f : Eu → Eu) (s : State) : (s.onEu f).tb = s.tb := rfl
@[simp] theorem State.onEu_tm (f : Eu → Eu) (s : State) : (s.onEu f).tm = s.tm := rfl
@[simp] theorem State.onEu_pwc (f : Eu → Eu) (s : State) : (s.onEu f).pwc = s.pwc := rfl
@[simp] theorem State.onEu_generation (f : Eu → Eu) (s : State) : (s.onEu f).generation = s.generation := rfl
@[simp] theorem State.onEu_nextId (f : Eu → Eu) (s : State) : (s.onEu f).nextId = s.nextId := rfl
@[simp] theorem State.onEu_free (f : Eu → Eu) (s : State) : (s.onEu f).free = s.free := rfl
@[simp] theorem State.onEu_out (f : Eu → Eu) (s : State) : (s.onEu f).out = s.out := rfl

/-! ### `emit` and `pulse` -/

@[simp] theorem State.emit_pending (o : Output) (s : State) : (s.emit o).pending = s.pending := rfl
@[simp] theorem State.emit_pins (o : Output) (s : State) : (s.emit o).pins = s.pins := rfl
@[simp] theorem State.emit_mem (o : Output) (s : State) : (s.emit o).mem = s.mem := rfl
@[simp] theorem State.emit_hmp (o : Output) (s : State) : (s.emit o).hmp = s.hmp := rfl
@[simp] theorem State.emit_rm (o : Output) (s : State) : (s.emit o).rm = s.rm := rfl
@[simp] theorem State.emit_da (o : Output) (s : State) : (s.emit o).da = s.da := rfl
@[simp] theorem State.emit_pu (o : Output) (s : State) : (s.emit o).pu = s.pu := rfl
@[simp] theorem State.emit_st (o : Output) (s : State) : (s.emit o).st = s.st := rfl
@[simp] theorem State.emit_so (o : Output) (s : State) : (s.emit o).so = s.so := rfl
@[simp] theorem State.emit_sh (o : Output) (s : State) : (s.emit o).sh = s.sh := rfl
@[simp] theorem State.emit_tc (o : Output) (s : State) : (s.emit o).tc = s.tc := rfl
@[simp] theorem State.emit_au (o : Output) (s : State) : (s.emit o).au = s.au := rfl
@[simp] theorem State.emit_tb (o : Output) (s : State) : (s.emit o).tb = s.tb := rfl
@[simp] theorem State.emit_tm (o : Output) (s : State) : (s.emit o).tm = s.tm := rfl
@[simp] theorem State.emit_pwc (o : Output) (s : State) : (s.emit o).pwc = s.pwc := rfl
@[simp] theorem State.emit_eu (o : Output) (s : State) : (s.emit o).eu = s.eu := rfl
@[simp] theorem State.emit_generation (o : Output) (s : State) : (s.emit o).generation = s.generation := rfl
@[simp] theorem State.emit_nextId (o : Output) (s : State) : (s.emit o).nextId = s.nextId := rfl
@[simp] theorem State.emit_free (o : Output) (s : State) : (s.emit o).free = s.free := rfl
@[simp] theorem State.emit_out (o : Output) (s : State) : (s.emit o).out = s.out ++ [o] := rfl

@[simp] theorem pulse_pending (p : Fin 26) (s : State) : (pulse p s).pending = s.pending := rfl
@[simp] theorem pulse_pins (p : Fin 26) (s : State) : (pulse p s).pins = s.pins := rfl
@[simp] theorem pulse_mem (p : Fin 26) (s : State) : (pulse p s).mem = s.mem := rfl
@[simp] theorem pulse_hmp (p : Fin 26) (s : State) : (pulse p s).hmp = s.hmp := rfl
@[simp] theorem pulse_rm (p : Fin 26) (s : State) : (pulse p s).rm = s.rm := rfl
@[simp] theorem pulse_da (p : Fin 26) (s : State) : (pulse p s).da = s.da := rfl
@[simp] theorem pulse_pu (p : Fin 26) (s : State) : (pulse p s).pu = s.pu := rfl
@[simp] theorem pulse_st (p : Fin 26) (s : State) : (pulse p s).st = s.st := rfl
@[simp] theorem pulse_so (p : Fin 26) (s : State) : (pulse p s).so = s.so := rfl
@[simp] theorem pulse_sh (p : Fin 26) (s : State) : (pulse p s).sh = s.sh := rfl
@[simp] theorem pulse_tc (p : Fin 26) (s : State) : (pulse p s).tc = s.tc := rfl
@[simp] theorem pulse_au (p : Fin 26) (s : State) : (pulse p s).au = s.au := rfl
@[simp] theorem pulse_tb (p : Fin 26) (s : State) : (pulse p s).tb = s.tb := rfl
@[simp] theorem pulse_tm (p : Fin 26) (s : State) : (pulse p s).tm = { s.tm with pulses := s.tm.pulses ++ [p] } := rfl
@[simp] theorem pulse_pwc (p : Fin 26) (s : State) : (pulse p s).pwc = s.pwc := rfl
@[simp] theorem pulse_eu (p : Fin 26) (s : State) : (pulse p s).eu = s.eu := rfl
@[simp] theorem pulse_generation (p : Fin 26) (s : State) : (pulse p s).generation = s.generation := rfl
@[simp] theorem pulse_nextId (p : Fin 26) (s : State) : (pulse p s).nextId = s.nextId := rfl
@[simp] theorem pulse_free (p : Fin 26) (s : State) : (pulse p s).free = s.free := rfl
@[simp] theorem pulse_out (p : Fin 26) (s : State) : (pulse p s).out = s.out := rfl

/-! ### `fresh` and `when` -/

@[simp] theorem State.fresh_fst (s : State) : s.fresh.1 = s.nextId := rfl
@[simp] theorem State.fresh_snd (s : State) : s.fresh.2 = { s with nextId := s.nextId + 1 } := rfl
@[simp] theorem State.when_true (f : State → State) (s : State) : s.when true f = f s := rfl
@[simp] theorem State.when_false (f : State → State) (s : State) : s.when false f = s := rfl

end Sys2Proof.Machine
end

