-- ==== Sys2Proof/Laws/Frames.lean ====
section
/-!
SUPPORT. The frame of each shared operation: one lemma per operation that lists the blocks of the state it leaves as they
are. They are simp lemmas, so that the frame of what calls them follows by simp.
-/
namespace Sys2Proof.Machine

/-- A fold of steps that each keep a part of the state keeps it. -/
theorem foldl_keeps {α β : Type} (p : State → β) (f : State → α → State) (h : ∀ s a, p (f s a) = p s) (l : List α)
    (s : State) : p (l.foldl f s) = p s := by
  induction l generalizing s with
  | nil => rfl
  | cons a r ih => rw [List.foldl_cons, ih, h]

/-! ### Requests, raises and captures -/

@[simp] theorem request_keeps (a : Agent) (l : Nat) (op : ReqOp) (s : State) :
    (request a l op s).pending = s.pending ∧ (request a l op s).pins = s.pins ∧ (request a l op s).mem = s.mem ∧
    (request a l op s).hmp = s.hmp ∧ (request a l op s).rm = s.rm ∧ (request a l op s).pu = s.pu ∧
    (request a l op s).st = s.st ∧ (request a l op s).so = s.so ∧ (request a l op s).sh = s.sh ∧
    (request a l op s).tc = s.tc ∧ (request a l op s).au = s.au ∧ (request a l op s).tb = s.tb ∧
    (request a l op s).tm = s.tm ∧ (request a l op s).pwc = s.pwc ∧ (request a l op s).eu = s.eu ∧
    (request a l op s).generation = s.generation ∧ (request a l op s).nextId = s.nextId ∧
    (request a l op s).free = s.free ∧ (request a l op s).out = s.out := by
  simp [request]

@[simp] theorem requestWrites_keeps (a : Agent) (w : List (Nat × List (Nat × Byte))) (s : State) :
    (requestWrites a w s).pending = s.pending ∧ (requestWrites a w s).pins = s.pins ∧
    (requestWrites a w s).mem = s.mem ∧ (requestWrites a w s).hmp = s.hmp ∧ (requestWrites a w s).rm = s.rm ∧
    (requestWrites a w s).pu = s.pu ∧ (requestWrites a w s).st = s.st ∧ (requestWrites a w s).so = s.so ∧
    (requestWrites a w s).sh = s.sh ∧ (requestWrites a w s).tc = s.tc ∧ (requestWrites a w s).au = s.au ∧
    (requestWrites a w s).tb = s.tb ∧ (requestWrites a w s).tm = s.tm ∧ (requestWrites a w s).pwc = s.pwc ∧
    (requestWrites a w s).eu = s.eu ∧ (requestWrites a w s).generation = s.generation ∧
    (requestWrites a w s).nextId = s.nextId ∧ (requestWrites a w s).free = s.free ∧ (requestWrites a w s).out = s.out := by
  induction w generalizing s with
  | nil => simp [requestWrites]
  | cons p r ih =>
    simp only [requestWrites]
    have h := ih (request a p.1 (.write p.2) s)
    simpa using h

@[simp] theorem requestReads_keeps (a : Agent) (l : List Nat) (s : State) :
    (requestReads a l s).pending = s.pending ∧ (requestReads a l s).pins = s.pins ∧
    (requestReads a l s).mem = s.mem ∧ (requestReads a l s).hmp = s.hmp ∧ (requestReads a l s).rm = s.rm ∧
    (requestReads a l s).pu = s.pu ∧ (requestReads a l s).st = s.st ∧ (requestReads a l s).so = s.so ∧
    (requestReads a l s).sh = s.sh ∧ (requestReads a l s).tc = s.tc ∧ (requestReads a l s).au = s.au ∧
    (requestReads a l s).tb = s.tb ∧ (requestReads a l s).tm = s.tm ∧ (requestReads a l s).pwc = s.pwc ∧
    (requestReads a l s).eu = s.eu ∧ (requestReads a l s).generation = s.generation ∧
    (requestReads a l s).nextId = s.nextId ∧ (requestReads a l s).free = s.free ∧ (requestReads a l s).out = s.out := by
  induction l generalizing s with
  | nil => simp [requestReads]
  | cons p r ih =>
    simp only [requestReads]
    have h := ih (request a p .read s)
    simpa using h

@[simp] theorem depositWrites_keeps (j : Nat) (w : List (Nat × List (Nat × Byte))) (s : State) :
    (depositWrites j w s).pending = s.pending ∧ (depositWrites j w s).pins = s.pins ∧
    (depositWrites j w s).mem = s.mem ∧ (depositWrites j w s).hmp = s.hmp ∧ (depositWrites j w s).rm = s.rm ∧
    (depositWrites j w s).pu = s.pu ∧ (depositWrites j w s).st = s.st ∧ (depositWrites j w s).so = s.so ∧
    (depositWrites j w s).sh = s.sh ∧ (depositWrites j w s).tc = s.tc ∧ (depositWrites j w s).au = s.au ∧
    (depositWrites j w s).tb = s.tb ∧ (depositWrites j w s).tm = s.tm ∧ (depositWrites j w s).pwc = s.pwc ∧
    (depositWrites j w s).eu = s.eu ∧ (depositWrites j w s).generation = s.generation ∧
    (depositWrites j w s).nextId = s.nextId ∧ (depositWrites j w s).free = s.free ∧ (depositWrites j w s).out = s.out := by
  induction w generalizing s with
  | nil => simp [depositWrites]
  | cons p r ih =>
    simp only [depositWrites]
    have h := ih (request (.deposit j p.2.length) p.1 (.write p.2) s)
    simpa using h

@[simp] theorem issueEntry_keeps (i : U16) (g : Nat) (first : Bool) (w : List (Nat × List (Nat × Byte))) (s : State) :
    (issueEntry i g first w s).pending = s.pending ∧ (issueEntry i g first w s).pins = s.pins ∧
    (issueEntry i g first w s).mem = s.mem ∧ (issueEntry i g first w s).hmp = s.hmp ∧
    (issueEntry i g first w s).rm = s.rm ∧ (issueEntry i g first w s).pu = s.pu ∧
    (issueEntry i g first w s).st = s.st ∧ (issueEntry i g first w s).so = s.so ∧
    (issueEntry i g first w s).sh = s.sh ∧ (issueEntry i g first w s).tc = s.tc ∧
    (issueEntry i g first w s).au = s.au ∧ (issueEntry i g first w s).tb = s.tb ∧
    (issueEntry i g first w s).tm = s.tm ∧ (issueEntry i g first w s).pwc = s.pwc ∧
    (issueEntry i g first w s).eu = s.eu ∧ (issueEntry i g first w s).generation = s.generation ∧
    (issueEntry i g first w s).nextId = s.nextId ∧ (issueEntry i g first w s).free = s.free ∧
    (issueEntry i g first w s).out = s.out := by
  induction w generalizing s first with
  | nil => simp [issueEntry]
  | cons p r ih =>
    simp only [issueEntry]
    have h := ih false (request (.messageEntry i g (if first then p.2.length - 4 else p.2.length)) p.1 (.write p.2) s)
    simpa using h

@[simp] theorem raise_keeps (k : EventKind) (s : State) :
    (raise k s).pending = s.pending ∧ (raise k s).pins = s.pins ∧ (raise k s).mem = s.mem ∧ (raise k s).hmp = s.hmp ∧
    (raise k s).rm = s.rm ∧ (raise k s).da = s.da ∧ (raise k s).pu = s.pu ∧ (raise k s).st = s.st ∧
    (raise k s).so = s.so ∧ (raise k s).sh = s.sh ∧ (raise k s).tc = s.tc ∧ (raise k s).au = s.au ∧
    (raise k s).tb = s.tb ∧ (raise k s).tm = s.tm ∧ (raise k s).pwc = s.pwc ∧ (raise k s).generation = s.generation ∧
    (raise k s).nextId = s.nextId ∧ (raise k s).free = s.free ∧ (raise k s).out = s.out := by
  simp [raise]

@[simp] theorem capture_keeps (k : CaptureKind) (a : Nat) (c : ReqClass) (s : State) :
    (capture k a c s).pending = s.pending ∧ (capture k a c s).pins = s.pins ∧ (capture k a c s).mem = s.mem ∧
    (capture k a c s).hmp = s.hmp ∧ (capture k a c s).rm = s.rm ∧ (capture k a c s).pu = s.pu ∧
    (capture k a c s).st = s.st ∧ (capture k a c s).so = s.so ∧ (capture k a c s).sh = s.sh ∧
    (capture k a c s).tc = s.tc ∧ (capture k a c s).au = s.au ∧ (capture k a c s).tb = s.tb ∧
    (capture k a c s).tm = s.tm ∧ (capture k a c s).pwc = s.pwc ∧ (capture k a c s).eu = s.eu ∧
    (capture k a c s).generation = s.generation ∧ (capture k a c s).nextId = s.nextId ∧
    (capture k a c s).free = s.free ∧ (capture k a c s).out = s.out := by
  simp [capture]

@[simp] theorem memoryError_keeps (k : CaptureKind) (l : Nat) (c : ReqClass) (s : State) :
    (memoryError k l c s).pending = s.pending ∧ (memoryError k l c s).pins = s.pins ∧
    (memoryError k l c s).mem = s.mem ∧ (memoryError k l c s).hmp = s.hmp ∧ (memoryError k l c s).rm = s.rm ∧
    (memoryError k l c s).pu = s.pu ∧ (memoryError k l c s).st = s.st ∧ (memoryError k l c s).so = s.so ∧
    (memoryError k l c s).sh = s.sh ∧ (memoryError k l c s).tc = s.tc ∧ (memoryError k l c s).au = s.au ∧
    (memoryError k l c s).tb = s.tb ∧ (memoryError k l c s).tm = s.tm ∧ (memoryError k l c s).pwc = s.pwc ∧
    (memoryError k l c s).generation = s.generation ∧ (memoryError k l c s).nextId = s.nextId ∧
    (memoryError k l c s).free = s.free ∧ (memoryError k l c s).out = s.out := by
  simp [memoryError]

@[simp] theorem badIndex_keeps (a : Nat) (c : ReqClass) (s : State) :
    (badIndex a c s).pending = s.pending ∧ (badIndex a c s).pins = s.pins ∧ (badIndex a c s).mem = s.mem ∧
    (badIndex a c s).hmp = s.hmp ∧ (badIndex a c s).rm = s.rm ∧ (badIndex a c s).pu = s.pu ∧
    (badIndex a c s).st = s.st ∧ (badIndex a c s).so = s.so ∧ (badIndex a c s).sh = s.sh ∧
    (badIndex a c s).tc = s.tc ∧ (badIndex a c s).au = s.au ∧ (badIndex a c s).tb = s.tb ∧
    (badIndex a c s).tm = s.tm ∧ (badIndex a c s).pwc = s.pwc ∧ (badIndex a c s).generation = s.generation ∧
    (badIndex a c s).nextId = s.nextId ∧ (badIndex a c s).free = s.free ∧ (badIndex a c s).out = s.out := by
  simp [badIndex]

/-! ### Surface tracker -/

@[simp] theorem State.stChange_keeps (f : St → St) (s : State) :
    (s.stChange f).pending = s.pending ∧ (s.stChange f).pins = s.pins ∧
    (s.stChange f).mem = s.mem ∧ (s.stChange f).hmp = s.hmp ∧ (s.stChange f).rm = s.rm ∧
    (s.stChange f).da = s.da ∧ (s.stChange f).pu = s.pu ∧ (s.stChange f).so = s.so ∧
    (s.stChange f).sh = s.sh ∧ (s.stChange f).tc = s.tc ∧ (s.stChange f).au = s.au ∧
    (s.stChange f).tb = s.tb ∧ (s.stChange f).tm = s.tm ∧ (s.stChange f).pwc = s.pwc ∧
    (s.stChange f).eu = s.eu ∧ (s.stChange f).generation = s.generation ∧
    (s.stChange f).nextId = s.nextId ∧ (s.stChange f).free = s.free ∧ (s.stChange f).out = s.out := by
  simp [State.stChange]

@[simp] theorem enqueue_keeps (e : Entry) (s : State) :
    (enqueue e s).pending = s.pending ∧ (enqueue e s).pins = s.pins ∧ (enqueue e s).mem = s.mem ∧
    (enqueue e s).hmp = s.hmp ∧ (enqueue e s).rm = s.rm ∧ (enqueue e s).da = s.da ∧ (enqueue e s).pu = s.pu ∧
    (enqueue e s).so = s.so ∧ (enqueue e s).sh = s.sh ∧ (enqueue e s).tc = s.tc ∧ (enqueue e s).au = s.au ∧
    (enqueue e s).tb = s.tb ∧ (enqueue e s).tm = s.tm ∧ (enqueue e s).pwc = s.pwc ∧ (enqueue e s).eu = s.eu ∧
    (enqueue e s).generation = s.generation ∧ (enqueue e s).nextId = s.nextId ∧ (enqueue e s).free = s.free ∧
    (enqueue e s).out = s.out := by
  simp [enqueue]

@[simp] theorem observedWrite_keeps (n : Fin 6) (a : Nat) (s : State) :
    (observedWrite n a s).pending = s.pending ∧ (observedWrite n a s).pins = s.pins ∧
    (observedWrite n a s).mem = s.mem ∧ (observedWrite n a s).hmp = s.hmp ∧ (observedWrite n a s).rm = s.rm ∧
    (observedWrite n a s).da = s.da ∧ (observedWrite n a s).pu = s.pu ∧ (observedWrite n a s).so = s.so ∧
    (observedWrite n a s).sh = s.sh ∧ (observedWrite n a s).tc = s.tc ∧ (observedWrite n a s).au = s.au ∧
    (observedWrite n a s).tb = s.tb ∧ (observedWrite n a s).tm = s.tm ∧ (observedWrite n a s).pwc = s.pwc ∧
    (observedWrite n a s).generation = s.generation ∧ (observedWrite n a s).nextId = s.nextId ∧
    (observedWrite n a s).free = s.free ∧ (observedWrite n a s).out = s.out := by
  simp only [observedWrite]
  repeat' split
  all_goals simp

@[simp] theorem fenceWrite_keeps (n : Fin 6) (v : U32) (s : State) :
    (fenceWrite n v s).pending = s.pending ∧ (fenceWrite n v s).pins = s.pins ∧ (fenceWrite n v s).mem = s.mem ∧
    (fenceWrite n v s).hmp = s.hmp ∧ (fenceWrite n v s).rm = s.rm ∧ (fenceWrite n v s).da = s.da ∧
    (fenceWrite n v s).pu = s.pu ∧ (fenceWrite n v s).so = s.so ∧ (fenceWrite n v s).sh = s.sh ∧
    (fenceWrite n v s).tc = s.tc ∧ (fenceWrite n v s).au = s.au ∧ (fenceWrite n v s).tb = s.tb ∧
    (fenceWrite n v s).tm = s.tm ∧ (fenceWrite n v s).pwc = s.pwc ∧ (fenceWrite n v s).eu = s.eu ∧
    (fenceWrite n v s).generation = s.generation ∧ (fenceWrite n v s).nextId = s.nextId ∧
    (fenceWrite n v s).free = s.free ∧ (fenceWrite n v s).out = s.out := by
  simp only [fenceWrite]
  repeat' split
  all_goals simp

@[simp] theorem askBand_keeps (p : Side) (n : Fin 6) (k : Nat) (s : State) :
    (askBand p n k s).2.pending = s.pending ∧ (askBand p n k s).2.pins = s.pins ∧ (askBand p n k s).2.mem = s.mem ∧
    (askBand p n k s).2.hmp = s.hmp ∧ (askBand p n k s).2.rm = s.rm ∧ (askBand p n k s).2.da = s.da ∧
    (askBand p n k s).2.pu = s.pu ∧ (askBand p n k s).2.so = s.so ∧ (askBand p n k s).2.sh = s.sh ∧
    (askBand p n k s).2.tc = s.tc ∧ (askBand p n k s).2.au = s.au ∧ (askBand p n k s).2.tb = s.tb ∧
    (askBand p n k s).2.tm = s.tm ∧ (askBand p n k s).2.pwc = s.pwc ∧ (askBand p n k s).2.generation = s.generation ∧
    (askBand p n k s).2.nextId = s.nextId ∧ (askBand p n k s).2.free = s.free ∧ (askBand p n k s).2.out = s.out := by
  simp only [askBand, State.when]
  repeat' split
  all_goals simp

@[simp] theorem boundaryDecision_keeps (b : Stamp) (s : State) :
    (boundaryDecision b s).pending = s.pending ∧ (boundaryDecision b s).pins = s.pins ∧
    (boundaryDecision b s).mem = s.mem ∧ (boundaryDecision b s).hmp = s.hmp ∧ (boundaryDecision b s).rm = s.rm ∧
    (boundaryDecision b s).da = s.da ∧ (boundaryDecision b s).pu = s.pu ∧ (boundaryDecision b s).so = s.so ∧
    (boundaryDecision b s).sh = s.sh ∧ (boundaryDecision b s).tc = s.tc ∧ (boundaryDecision b s).au = s.au ∧
    (boundaryDecision b s).tb = s.tb ∧ (boundaryDecision b s).pwc = s.pwc ∧
    (boundaryDecision b s).generation = s.generation ∧ (boundaryDecision b s).nextId = s.nextId ∧
    (boundaryDecision b s).free = s.free ∧ (boundaryDecision b s).out = s.out := by
  simp only [boundaryDecision, State.when]
  repeat' split
  all_goals simp

@[simp] theorem rejectTether_keeps (c : RejectCause) (t : U32) (s : State) :
    (rejectTether c t s).pending = s.pending ∧ (rejectTether c t s).pins = s.pins ∧
    (rejectTether c t s).mem = s.mem ∧ (rejectTether c t s).hmp = s.hmp ∧ (rejectTether c t s).rm = s.rm ∧
    (rejectTether c t s).da = s.da ∧ (rejectTether c t s).pu = s.pu ∧ (rejectTether c t s).so = s.so ∧
    (rejectTether c t s).sh = s.sh ∧ (rejectTether c t s).tc = s.tc ∧ (rejectTether c t s).au = s.au ∧
    (rejectTether c t s).tb = s.tb ∧ (rejectTether c t s).tm = s.tm ∧ (rejectTether c t s).pwc = s.pwc ∧
    (rejectTether c t s).generation = s.generation ∧ (rejectTether c t s).nextId = s.nextId ∧
    (rejectTether c t s).free = s.free ∧ (rejectTether c t s).out = s.out := by
  simp [rejectTether]

@[simp] theorem acceptFrame_keeps (f : FrameBegin) (l : Fin 6) (r : Option (Fin 6)) (s : State) :
    (acceptFrame f l r s).pending = s.pending ∧ (acceptFrame f l r s).pins = s.pins ∧
    (acceptFrame f l r s).mem = s.mem ∧ (acceptFrame f l r s).hmp = s.hmp ∧ (acceptFrame f l r s).rm = s.rm ∧
    (acceptFrame f l r s).da = s.da ∧ (acceptFrame f l r s).pu = s.pu ∧ (acceptFrame f l r s).so = s.so ∧
    (acceptFrame f l r s).sh = s.sh ∧ (acceptFrame f l r s).au = s.au ∧ (acceptFrame f l r s).tb = s.tb ∧
    (acceptFrame f l r s).pwc = s.pwc ∧ (acceptFrame f l r s).eu = s.eu ∧
    (acceptFrame f l r s).generation = s.generation ∧ (acceptFrame f l r s).nextId = s.nextId ∧
    (acceptFrame f l r s).free = s.free ∧ (acceptFrame f l r s).out = s.out := by
  simp [acceptFrame]

@[simp] theorem tetherBegin_keeps (f : FrameBegin) (s : State) :
    (tetherBegin f s).pending = s.pending ∧ (tetherBegin f s).pins = s.pins ∧ (tetherBegin f s).mem = s.mem ∧
    (tetherBegin f s).hmp = s.hmp ∧ (tetherBegin f s).rm = s.rm ∧ (tetherBegin f s).da = s.da ∧
    (tetherBegin f s).pu = s.pu ∧ (tetherBegin f s).so = s.so ∧ (tetherBegin f s).sh = s.sh ∧
    (tetherBegin f s).au = s.au ∧ (tetherBegin f s).tb = s.tb ∧ (tetherBegin f s).pwc = s.pwc ∧
    (tetherBegin f s).generation = s.generation ∧ (tetherBegin f s).nextId = s.nextId ∧
    (tetherBegin f s).free = s.free ∧ (tetherBegin f s).out = s.out := by
  simp only [tetherBegin]
  repeat' split
  all_goals simp

@[simp] theorem tetherEnd_keeps (t : U32) (s : State) :
    (tetherEnd t s).pending = s.pending ∧ (tetherEnd t s).pins = s.pins ∧ (tetherEnd t s).mem = s.mem ∧
    (tetherEnd t s).hmp = s.hmp ∧ (tetherEnd t s).rm = s.rm ∧ (tetherEnd t s).da = s.da ∧ (tetherEnd t s).pu = s.pu ∧
    (tetherEnd t s).so = s.so ∧ (tetherEnd t s).sh = s.sh ∧ (tetherEnd t s).tc = s.tc ∧ (tetherEnd t s).au = s.au ∧
    (tetherEnd t s).tb = s.tb ∧ (tetherEnd t s).tm = s.tm ∧ (tetherEnd t s).pwc = s.pwc ∧
    (tetherEnd t s).generation = s.generation ∧ (tetherEnd t s).nextId = s.nextId ∧ (tetherEnd t s).free = s.free ∧
    (tetherEnd t s).out = s.out := by
  simp only [tetherEnd]
  repeat' split
  all_goals simp

@[simp] theorem tetherLost_keeps (s : State) :
    (tetherLost s).pending = s.pending ∧ (tetherLost s).pins = s.pins ∧ (tetherLost s).mem = s.mem ∧
    (tetherLost s).hmp = s.hmp ∧ (tetherLost s).rm = s.rm ∧ (tetherLost s).da = s.da ∧ (tetherLost s).pu = s.pu ∧
    (tetherLost s).so = s.so ∧ (tetherLost s).sh = s.sh ∧ (tetherLost s).tc = s.tc ∧ (tetherLost s).au = s.au ∧
    (tetherLost s).tb = s.tb ∧ (tetherLost s).tm = s.tm ∧ (tetherLost s).pwc = s.pwc ∧
    (tetherLost s).generation = s.generation ∧ (tetherLost s).nextId = s.nextId ∧ (tetherLost s).free = s.free ∧
    (tetherLost s).out = s.out := by
  simp only [tetherLost]
  repeat' split
  all_goals simp

@[simp] theorem depositBands_keeps (n : Fin 6) (row : Nat) (s : State) :
    (depositBands n row s).pending = s.pending ∧ (depositBands n row s).pins = s.pins ∧
    (depositBands n row s).mem = s.mem ∧ (depositBands n row s).hmp = s.hmp ∧
    (depositBands n row s).rm = s.rm ∧ (depositBands n row s).da = s.da ∧
    (depositBands n row s).pu = s.pu ∧ (depositBands n row s).so = s.so ∧
    (depositBands n row s).sh = s.sh ∧ (depositBands n row s).au = s.au ∧
    (depositBands n row s).tb = s.tb ∧ (depositBands n row s).tm = s.tm ∧
    (depositBands n row s).pwc = s.pwc ∧ (depositBands n row s).eu = s.eu ∧
    (depositBands n row s).generation = s.generation ∧ (depositBands n row s).nextId = s.nextId ∧
    (depositBands n row s).free = s.free ∧ (depositBands n row s).out = s.out := by
  simp only [depositBands]
  repeat' split
  all_goals simp

@[simp] theorem advanceDeposit_keeps (n : Fin 6) (i row : Nat) (s : State) :
    (advanceDeposit n i row s).pending = s.pending ∧ (advanceDeposit n i row s).pins = s.pins ∧
    (advanceDeposit n i row s).mem = s.mem ∧ (advanceDeposit n i row s).hmp = s.hmp ∧
    (advanceDeposit n i row s).rm = s.rm ∧ (advanceDeposit n i row s).da = s.da ∧
    (advanceDeposit n i row s).pu = s.pu ∧ (advanceDeposit n i row s).so = s.so ∧
    (advanceDeposit n i row s).sh = s.sh ∧ (advanceDeposit n i row s).au = s.au ∧
    (advanceDeposit n i row s).tb = s.tb ∧ (advanceDeposit n i row s).tm = s.tm ∧
    (advanceDeposit n i row s).pwc = s.pwc ∧ (advanceDeposit n i row s).eu = s.eu ∧
    (advanceDeposit n i row s).generation = s.generation ∧ (advanceDeposit n i row s).nextId = s.nextId ∧
    (advanceDeposit n i row s).free = s.free ∧ (advanceDeposit n i row s).out = s.out := by
  simp only [advanceDeposit]
  repeat' split
  all_goals simp

@[simp] theorem presentationFlush_keeps (s : State) :
    (presentationFlush s).pending = s.pending ∧ (presentationFlush s).pins = s.pins ∧
    (presentationFlush s).mem = s.mem ∧ (presentationFlush s).hmp = s.hmp ∧ (presentationFlush s).rm = s.rm ∧
    (presentationFlush s).da = s.da ∧ (presentationFlush s).pu = s.pu ∧ (presentationFlush s).so = s.so ∧
    (presentationFlush s).sh = s.sh ∧ (presentationFlush s).tc = s.tc ∧ (presentationFlush s).au = s.au ∧
    (presentationFlush s).tb = s.tb ∧ (presentationFlush s).tm = s.tm ∧ (presentationFlush s).pwc = s.pwc ∧
    (presentationFlush s).eu = s.eu ∧ (presentationFlush s).generation = s.generation ∧
    (presentationFlush s).nextId = s.nextId ∧ (presentationFlush s).free = s.free ∧ (presentationFlush s).out = s.out := by
  simp [presentationFlush]

/-! ### Tether controller -/

@[simp] theorem beginSend_keeps (p : List Byte) (e : Nat) (s : State) :
    (beginSend p e s).pending = s.pending ∧ (beginSend p e s).pins = s.pins ∧ (beginSend p e s).mem = s.mem ∧
    (beginSend p e s).hmp = s.hmp ∧ (beginSend p e s).rm = s.rm ∧ (beginSend p e s).da = s.da ∧
    (beginSend p e s).pu = s.pu ∧ (beginSend p e s).st = s.st ∧ (beginSend p e s).so = s.so ∧
    (beginSend p e s).sh = s.sh ∧ (beginSend p e s).au = s.au ∧ (beginSend p e s).tb = s.tb ∧
    (beginSend p e s).tm = s.tm ∧ (beginSend p e s).pwc = s.pwc ∧ (beginSend p e s).eu = s.eu ∧
    (beginSend p e s).generation = s.generation ∧ (beginSend p e s).nextId = s.nextId ∧
    (beginSend p e s).free = s.free ∧ (beginSend p e s).out = s.out := by
  simp [beginSend]

@[simp] theorem beginReads_keeps (e a l : Nat) (s : State) :
    (beginReads e a l s).pending = s.pending ∧ (beginReads e a l s).pins = s.pins ∧
    (beginReads e a l s).mem = s.mem ∧ (beginReads e a l s).hmp = s.hmp ∧ (beginReads e a l s).rm = s.rm ∧
    (beginReads e a l s).pu = s.pu ∧ (beginReads e a l s).st = s.st ∧ (beginReads e a l s).so = s.so ∧
    (beginReads e a l s).sh = s.sh ∧ (beginReads e a l s).au = s.au ∧ (beginReads e a l s).tb = s.tb ∧
    (beginReads e a l s).tm = s.tm ∧ (beginReads e a l s).pwc = s.pwc ∧ (beginReads e a l s).eu = s.eu ∧
    (beginReads e a l s).generation = s.generation ∧ (beginReads e a l s).free = s.free ∧
    (beginReads e a l s).out = s.out := by
  simp [beginReads]

@[simp] theorem sendChoice_keeps (c : Choice) (s : State) :
    (sendChoice c s).pending = s.pending ∧ (sendChoice c s).pins = s.pins ∧ (sendChoice c s).mem = s.mem ∧
    (sendChoice c s).hmp = s.hmp ∧ (sendChoice c s).rm = s.rm ∧ (sendChoice c s).pu = s.pu ∧
    (sendChoice c s).st = s.st ∧ (sendChoice c s).so = s.so ∧ (sendChoice c s).sh = s.sh ∧
    (sendChoice c s).au = s.au ∧ (sendChoice c s).tb = s.tb ∧ (sendChoice c s).tm = s.tm ∧
    (sendChoice c s).pwc = s.pwc ∧ (sendChoice c s).eu = s.eu ∧ (sendChoice c s).generation = s.generation ∧
    (sendChoice c s).free = s.free ∧ (sendChoice c s).out = s.out := by
  simp only [sendChoice]
  repeat' split
  all_goals simp

@[simp] theorem laneKick_keeps (s : State) :
    (laneKick s).pending = s.pending ∧ (laneKick s).pins = s.pins ∧ (laneKick s).mem = s.mem ∧
    (laneKick s).hmp = s.hmp ∧ (laneKick s).rm = s.rm ∧ (laneKick s).pu = s.pu ∧ (laneKick s).st = s.st ∧
    (laneKick s).so = s.so ∧ (laneKick s).sh = s.sh ∧ (laneKick s).au = s.au ∧ (laneKick s).tb = s.tb ∧
    (laneKick s).tm = s.tm ∧ (laneKick s).pwc = s.pwc ∧ (laneKick s).eu = s.eu ∧
    (laneKick s).generation = s.generation ∧ (laneKick s).free = s.free ∧ (laneKick s).out = s.out := by
  simp only [laneKick]
  repeat' split
  all_goals simp

@[simp] theorem laneFreed_keeps (s : State) :
    (laneFreed s).pending = s.pending ∧ (laneFreed s).pins = s.pins ∧ (laneFreed s).mem = s.mem ∧
    (laneFreed s).hmp = s.hmp ∧ (laneFreed s).rm = s.rm ∧ (laneFreed s).pu = s.pu ∧ (laneFreed s).st = s.st ∧
    (laneFreed s).so = s.so ∧ (laneFreed s).sh = s.sh ∧ (laneFreed s).au = s.au ∧ (laneFreed s).tb = s.tb ∧
    (laneFreed s).tm = s.tm ∧ (laneFreed s).pwc = s.pwc ∧ (laneFreed s).eu = s.eu ∧
    (laneFreed s).generation = s.generation ∧ (laneFreed s).free = s.free ∧ (laneFreed s).out = s.out := by
  simp [laneFreed]

@[simp] theorem uplinkJoin_keeps (c : Content) (s : State) :
    (uplinkJoin c s).pending = s.pending ∧ (uplinkJoin c s).pins = s.pins ∧ (uplinkJoin c s).mem = s.mem ∧
    (uplinkJoin c s).hmp = s.hmp ∧ (uplinkJoin c s).rm = s.rm ∧ (uplinkJoin c s).pu = s.pu ∧
    (uplinkJoin c s).st = s.st ∧ (uplinkJoin c s).so = s.so ∧ (uplinkJoin c s).sh = s.sh ∧
    (uplinkJoin c s).au = s.au ∧ (uplinkJoin c s).tb = s.tb ∧ (uplinkJoin c s).tm = s.tm ∧
    (uplinkJoin c s).pwc = s.pwc ∧ (uplinkJoin c s).generation = s.generation ∧ (uplinkJoin c s).free = s.free ∧
    (uplinkJoin c s).out = s.out := by
  simp only [uplinkJoin]
  repeat' split
  all_goals simp

@[simp] theorem uplinkSensor_keeps (r : SensorRec) (s : State) :
    (uplinkSensor r s).pending = s.pending ∧ (uplinkSensor r s).pins = s.pins ∧ (uplinkSensor r s).mem = s.mem ∧
    (uplinkSensor r s).hmp = s.hmp ∧ (uplinkSensor r s).rm = s.rm ∧ (uplinkSensor r s).pu = s.pu ∧
    (uplinkSensor r s).st = s.st ∧ (uplinkSensor r s).so = s.so ∧ (uplinkSensor r s).sh = s.sh ∧
    (uplinkSensor r s).au = s.au ∧ (uplinkSensor r s).tb = s.tb ∧ (uplinkSensor r s).tm = s.tm ∧
    (uplinkSensor r s).pwc = s.pwc ∧ (uplinkSensor r s).generation = s.generation ∧
    (uplinkSensor r s).free = s.free ∧ (uplinkSensor r s).out = s.out := by
  simp only [uplinkSensor]
  repeat' split
  all_goals simp

@[simp] theorem finishSlot_keeps (n : Fin 3) (o : Outcome) (s : State) :
    (finishSlot n o s).pending = s.pending ∧ (finishSlot n o s).pins = s.pins ∧ (finishSlot n o s).mem = s.mem ∧
    (finishSlot n o s).hmp = s.hmp ∧ (finishSlot n o s).rm = s.rm ∧ (finishSlot n o s).da = s.da ∧
    (finishSlot n o s).st = s.st ∧ (finishSlot n o s).so = s.so ∧ (finishSlot n o s).sh = s.sh ∧
    (finishSlot n o s).au = s.au ∧ (finishSlot n o s).tb = s.tb ∧ (finishSlot n o s).tm = s.tm ∧
    (finishSlot n o s).pwc = s.pwc ∧ (finishSlot n o s).generation = s.generation ∧
    (finishSlot n o s).nextId = s.nextId ∧ (finishSlot n o s).free = s.free ∧ (finishSlot n o s).out = s.out := by
  simp [finishSlot]

@[simp] theorem finishSlots_keeps (l : List (Fin 3)) (o : Outcome) (s : State) :
    (finishSlots l o s).pending = s.pending ∧ (finishSlots l o s).pins = s.pins ∧ (finishSlots l o s).mem = s.mem ∧
    (finishSlots l o s).hmp = s.hmp ∧ (finishSlots l o s).rm = s.rm ∧ (finishSlots l o s).da = s.da ∧
    (finishSlots l o s).st = s.st ∧ (finishSlots l o s).so = s.so ∧ (finishSlots l o s).sh = s.sh ∧
    (finishSlots l o s).au = s.au ∧ (finishSlots l o s).tb = s.tb ∧ (finishSlots l o s).tm = s.tm ∧
    (finishSlots l o s).pwc = s.pwc ∧ (finishSlots l o s).generation = s.generation ∧
    (finishSlots l o s).nextId = s.nextId ∧ (finishSlots l o s).free = s.free ∧ (finishSlots l o s).out = s.out := by
  unfold finishSlots
  refine ⟨?_, ?_, ?_, ?_, ?_, ?_, ?_, ?_, ?_, ?_, ?_, ?_, ?_, ?_, ?_, ?_, ?_⟩
  · exact (foldl_keeps State.pending _ (by intros; simp) _ _)
  · exact (foldl_keeps State.pins _ (by intros; simp) _ _)
  · exact (foldl_keeps State.mem _ (by intros; simp) _ _)
  · exact (foldl_keeps State.hmp _ (by intros; simp) _ _)
  · exact (foldl_keeps State.rm _ (by intros; simp) _ _)
  · exact (foldl_keeps State.da _ (by intros; simp) _ _)
  · exact (foldl_keeps State.st _ (by intros; simp) _ _)
  · exact (foldl_keeps State.so _ (by intros; simp) _ _)
  · exact (foldl_keeps State.sh _ (by intros; simp) _ _)
  · exact (foldl_keeps State.au _ (by intros; simp) _ _)
  · exact (foldl_keeps State.tb _ (by intros; simp) _ _)
  · exact (foldl_keeps State.tm _ (by intros; simp) _ _)
  · exact (foldl_keeps State.pwc _ (by intros; simp) _ _)
  · exact (foldl_keeps State.generation _ (by intros; simp) _ _)
  · exact (foldl_keeps State.nextId _ (by intros; simp) _ _)
  · exact (foldl_keeps State.free _ (by intros; simp) _ _)
  · exact (foldl_keeps State.out _ (by intros; simp) _ _)

@[simp] theorem setLink_keeps (l : LinkState) (s : State) :
    (setLink l s).pending = s.pending ∧ (setLink l s).pins = s.pins ∧ (setLink l s).mem = s.mem ∧
    (setLink l s).hmp = s.hmp ∧ (setLink l s).rm = s.rm ∧ (setLink l s).da = s.da ∧ (setLink l s).pu = s.pu ∧
    (setLink l s).st = s.st ∧ (setLink l s).so = s.so ∧ (setLink l s).sh = s.sh ∧ (setLink l s).au = s.au ∧
    (setLink l s).tb = s.tb ∧ (setLink l s).tm = s.tm ∧ (setLink l s).pwc = s.pwc ∧ (setLink l s).eu = s.eu ∧
    (setLink l s).generation = s.generation ∧ (setLink l s).nextId = s.nextId ∧ (setLink l s).free = s.free ∧
    (setLink l s).out = s.out := by
  simp [setLink]

@[simp] theorem startTraining_keeps (s : State) :
    (startTraining s).pending = s.pending ∧ (startTraining s).pins = s.pins ∧ (startTraining s).mem = s.mem ∧
    (startTraining s).hmp = s.hmp ∧ (startTraining s).rm = s.rm ∧ (startTraining s).da = s.da ∧
    (startTraining s).pu = s.pu ∧ (startTraining s).st = s.st ∧ (startTraining s).so = s.so ∧
    (startTraining s).sh = s.sh ∧ (startTraining s).au = s.au ∧ (startTraining s).tb = s.tb ∧
    (startTraining s).tm = s.tm ∧ (startTraining s).pwc = s.pwc ∧ (startTraining s).eu = s.eu ∧
    (startTraining s).generation = s.generation ∧ (startTraining s).nextId = s.nextId ∧
    (startTraining s).free = s.free ∧ (startTraining s).out = s.out := by
  simp [startTraining]

@[simp] theorem trainingLost_keeps (s : State) :
    (trainingLost s).pending = s.pending ∧ (trainingLost s).pins = s.pins ∧ (trainingLost s).mem = s.mem ∧
    (trainingLost s).hmp = s.hmp ∧ (trainingLost s).rm = s.rm ∧ (trainingLost s).da = s.da ∧
    (trainingLost s).pu = s.pu ∧ (trainingLost s).st = s.st ∧ (trainingLost s).so = s.so ∧
    (trainingLost s).sh = s.sh ∧ (trainingLost s).au = s.au ∧ (trainingLost s).tb = s.tb ∧
    (trainingLost s).tm = s.tm ∧ (trainingLost s).pwc = s.pwc ∧ (trainingLost s).eu = s.eu ∧
    (trainingLost s).generation = s.generation ∧ (trainingLost s).nextId = s.nextId ∧
    (trainingLost s).free = s.free ∧ (trainingLost s).out = s.out := by
  simp [trainingLost]

@[simp] theorem enterRecovery_keeps (s : State) :
    (enterRecovery s).pending = s.pending ∧ (enterRecovery s).pins = s.pins ∧ (enterRecovery s).mem = s.mem ∧
    (enterRecovery s).hmp = s.hmp ∧ (enterRecovery s).rm = s.rm ∧ (enterRecovery s).da = s.da ∧
    (enterRecovery s).pu = s.pu ∧ (enterRecovery s).st = s.st ∧ (enterRecovery s).so = s.so ∧
    (enterRecovery s).sh = s.sh ∧ (enterRecovery s).au = s.au ∧ (enterRecovery s).tb = s.tb ∧
    (enterRecovery s).tm = s.tm ∧ (enterRecovery s).pwc = s.pwc ∧ (enterRecovery s).generation = s.generation ∧
    (enterRecovery s).nextId = s.nextId ∧ (enterRecovery s).free = s.free ∧ (enterRecovery s).out = s.out := by
  simp [enterRecovery]

@[simp] theorem enterDown_keeps (s : State) :
    (enterDown s).pending = s.pending ∧ (enterDown s).pins = s.pins ∧ (enterDown s).mem = s.mem ∧
    (enterDown s).hmp = s.hmp ∧ (enterDown s).rm = s.rm ∧ (enterDown s).da = s.da ∧ (enterDown s).so = s.so ∧
    (enterDown s).sh = s.sh ∧ (enterDown s).au = s.au ∧ (enterDown s).tb = s.tb ∧ (enterDown s).tm = s.tm ∧
    (enterDown s).pwc = s.pwc ∧ (enterDown s).generation = s.generation ∧ (enterDown s).nextId = s.nextId ∧
    (enterDown s).free = s.free ∧ (enterDown s).out = s.out := by
  simp [enterDown]

@[simp] theorem trainingDone_keeps (s : State) :
    (trainingDone s).pending = s.pending ∧ (trainingDone s).pins = s.pins ∧ (trainingDone s).mem = s.mem ∧
    (trainingDone s).hmp = s.hmp ∧ (trainingDone s).rm = s.rm ∧ (trainingDone s).pu = s.pu ∧
    (trainingDone s).st = s.st ∧ (trainingDone s).so = s.so ∧ (trainingDone s).sh = s.sh ∧
    (trainingDone s).au = s.au ∧ (trainingDone s).tb = s.tb ∧ (trainingDone s).tm = s.tm ∧
    (trainingDone s).pwc = s.pwc ∧ (trainingDone s).generation = s.generation ∧ (trainingDone s).free = s.free ∧
    (trainingDone s).out = s.out := by
  simp [trainingDone]

@[simp] theorem recoveryDone_keeps (s : State) :
    (recoveryDone s).pending = s.pending ∧ (recoveryDone s).pins = s.pins ∧ (recoveryDone s).mem = s.mem ∧
    (recoveryDone s).hmp = s.hmp ∧ (recoveryDone s).rm = s.rm ∧ (recoveryDone s).pu = s.pu ∧
    (recoveryDone s).st = s.st ∧ (recoveryDone s).so = s.so ∧ (recoveryDone s).sh = s.sh ∧
    (recoveryDone s).au = s.au ∧ (recoveryDone s).tb = s.tb ∧ (recoveryDone s).tm = s.tm ∧
    (recoveryDone s).pwc = s.pwc ∧ (recoveryDone s).generation = s.generation ∧ (recoveryDone s).free = s.free ∧
    (recoveryDone s).out = s.out := by
  simp [recoveryDone]

@[simp] theorem ackExpired_keeps (c : Fin 3) (s : State) :
    (ackExpired c s).pending = s.pending ∧ (ackExpired c s).pins = s.pins ∧ (ackExpired c s).mem = s.mem ∧
    (ackExpired c s).hmp = s.hmp ∧ (ackExpired c s).rm = s.rm ∧ (ackExpired c s).pu = s.pu ∧
    (ackExpired c s).st = s.st ∧ (ackExpired c s).so = s.so ∧ (ackExpired c s).sh = s.sh ∧
    (ackExpired c s).au = s.au ∧ (ackExpired c s).tb = s.tb ∧ (ackExpired c s).tm = s.tm ∧
    (ackExpired c s).pwc = s.pwc ∧ (ackExpired c s).generation = s.generation ∧ (ackExpired c s).free = s.free ∧
    (ackExpired c s).out = s.out := by
  simp only [ackExpired]
  repeat' split
  all_goals simp

@[simp] theorem sendDone_keeps (p : List Byte) (e : Nat) (s : State) :
    (sendDone p e s).pending = s.pending ∧ (sendDone p e s).pins = s.pins ∧ (sendDone p e s).mem = s.mem ∧
    (sendDone p e s).hmp = s.hmp ∧ (sendDone p e s).rm = s.rm ∧ (sendDone p e s).pu = s.pu ∧
    (sendDone p e s).st = s.st ∧ (sendDone p e s).so = s.so ∧ (sendDone p e s).sh = s.sh ∧
    (sendDone p e s).au = s.au ∧ (sendDone p e s).tb = s.tb ∧ (sendDone p e s).tm = s.tm ∧
    (sendDone p e s).pwc = s.pwc ∧ (sendDone p e s).eu = s.eu ∧ (sendDone p e s).generation = s.generation ∧
    (sendDone p e s).free = s.free := by
  simp only [sendDone]
  repeat' split
  all_goals simp

@[simp] theorem applyAck_keeps (c : Fin 3) (f : AckField) (s : State) :
    (applyAck c f s).pending = s.pending ∧ (applyAck c f s).pins = s.pins ∧ (applyAck c f s).mem = s.mem ∧
    (applyAck c f s).hmp = s.hmp ∧ (applyAck c f s).rm = s.rm ∧ (applyAck c f s).da = s.da ∧
    (applyAck c f s).st = s.st ∧ (applyAck c f s).so = s.so ∧ (applyAck c f s).sh = s.sh ∧
    (applyAck c f s).au = s.au ∧ (applyAck c f s).tb = s.tb ∧ (applyAck c f s).tm = s.tm ∧
    (applyAck c f s).pwc = s.pwc ∧ (applyAck c f s).generation = s.generation ∧ (applyAck c f s).nextId = s.nextId ∧
    (applyAck c f s).free = s.free ∧ (applyAck c f s).out = s.out := by
  simp only [applyAck]
  repeat' split
  all_goals simp

@[simp] theorem loseSlot_keeps (i : Nat) (n : Fin 3) (b : Bool) (s : State) :
    (loseSlot i n b s).pending = s.pending ∧ (loseSlot i n b s).pins = s.pins ∧ (loseSlot i n b s).mem = s.mem ∧
    (loseSlot i n b s).hmp = s.hmp ∧ (loseSlot i n b s).rm = s.rm ∧ (loseSlot i n b s).da = s.da ∧
    (loseSlot i n b s).st = s.st ∧ (loseSlot i n b s).so = s.so ∧ (loseSlot i n b s).sh = s.sh ∧
    (loseSlot i n b s).au = s.au ∧ (loseSlot i n b s).tb = s.tb ∧ (loseSlot i n b s).tm = s.tm ∧
    (loseSlot i n b s).pwc = s.pwc ∧ (loseSlot i n b s).generation = s.generation ∧
    (loseSlot i n b s).nextId = s.nextId ∧ (loseSlot i n b s).free = s.free ∧ (loseSlot i n b s).out = s.out := by
  simp only [loseSlot]
  repeat' split
  all_goals simp

@[simp] theorem sendMessage_keeps (e : Nat) (l : List (Nat × List Byte)) (d : Bool) (s : State) :
    (sendMessage e l d s).pending = s.pending ∧ (sendMessage e l d s).pins = s.pins ∧
    (sendMessage e l d s).mem = s.mem ∧ (sendMessage e l d s).hmp = s.hmp ∧ (sendMessage e l d s).rm = s.rm ∧
    (sendMessage e l d s).st = s.st ∧ (sendMessage e l d s).so = s.so ∧ (sendMessage e l d s).sh = s.sh ∧
    (sendMessage e l d s).au = s.au ∧ (sendMessage e l d s).tb = s.tb ∧ (sendMessage e l d s).tm = s.tm ∧
    (sendMessage e l d s).pwc = s.pwc ∧ (sendMessage e l d s).generation = s.generation ∧
    (sendMessage e l d s).free = s.free ∧ (sendMessage e l d s).out = s.out := by
  simp only [sendMessage]
  repeat' split
  all_goals simp

@[simp] theorem messageReadDone_keeps (r l : Nat) (d : List Byte) (b : Bool) (s : State) :
    (messageReadDone r l d b s).pending = s.pending ∧ (messageReadDone r l d b s).pins = s.pins ∧
    (messageReadDone r l d b s).mem = s.mem ∧ (messageReadDone r l d b s).hmp = s.hmp ∧
    (messageReadDone r l d b s).rm = s.rm ∧ (messageReadDone r l d b s).st = s.st ∧
    (messageReadDone r l d b s).so = s.so ∧ (messageReadDone r l d b s).sh = s.sh ∧
    (messageReadDone r l d b s).au = s.au ∧ (messageReadDone r l d b s).tb = s.tb ∧
    (messageReadDone r l d b s).tm = s.tm ∧ (messageReadDone r l d b s).pwc = s.pwc ∧
    (messageReadDone r l d b s).generation = s.generation ∧ (messageReadDone r l d b s).free = s.free ∧
    (messageReadDone r l d b s).out = s.out := by
  simp only [messageReadDone]
  repeat' split
  all_goals simp

@[simp] theorem restrictionBegin_keeps (s : State) :
    (restrictionBegin s).pending = s.pending ∧ (restrictionBegin s).pins = s.pins ∧
    (restrictionBegin s).mem = s.mem ∧ (restrictionBegin s).hmp = s.hmp ∧ (restrictionBegin s).rm = s.rm ∧
    (restrictionBegin s).da = s.da ∧ (restrictionBegin s).pu = s.pu ∧ (restrictionBegin s).st = s.st ∧
    (restrictionBegin s).so = s.so ∧ (restrictionBegin s).sh = s.sh ∧ (restrictionBegin s).au = s.au ∧
    (restrictionBegin s).tb = s.tb ∧ (restrictionBegin s).tm = s.tm ∧ (restrictionBegin s).pwc = s.pwc ∧
    (restrictionBegin s).eu = s.eu ∧ (restrictionBegin s).generation = s.generation ∧
    (restrictionBegin s).nextId = s.nextId ∧ (restrictionBegin s).free = s.free ∧ (restrictionBegin s).out = s.out := by
  simp [restrictionBegin]

@[simp] theorem restrictionEnd_keeps (s : State) :
    (restrictionEnd s).pending = s.pending ∧ (restrictionEnd s).pins = s.pins ∧ (restrictionEnd s).mem = s.mem ∧
    (restrictionEnd s).hmp = s.hmp ∧ (restrictionEnd s).rm = s.rm ∧ (restrictionEnd s).pu = s.pu ∧
    (restrictionEnd s).st = s.st ∧ (restrictionEnd s).so = s.so ∧ (restrictionEnd s).sh = s.sh ∧
    (restrictionEnd s).au = s.au ∧ (restrictionEnd s).tb = s.tb ∧ (restrictionEnd s).tm = s.tm ∧
    (restrictionEnd s).pwc = s.pwc ∧ (restrictionEnd s).eu = s.eu ∧ (restrictionEnd s).generation = s.generation ∧
    (restrictionEnd s).free = s.free ∧ (restrictionEnd s).out = s.out := by
  simp [restrictionEnd]

@[simp] theorem acceptSlice_keeps (n : Fin 6) (c : SurfaceConfig) (i : Nat) (p : Slice) (s : State) :
    (acceptSlice n c i p s).pending = s.pending ∧ (acceptSlice n c i p s).pins = s.pins ∧
    (acceptSlice n c i p s).mem = s.mem ∧ (acceptSlice n c i p s).hmp = s.hmp ∧ (acceptSlice n c i p s).rm = s.rm ∧
    (acceptSlice n c i p s).pu = s.pu ∧ (acceptSlice n c i p s).st = s.st ∧ (acceptSlice n c i p s).so = s.so ∧
    (acceptSlice n c i p s).sh = s.sh ∧ (acceptSlice n c i p s).au = s.au ∧ (acceptSlice n c i p s).tb = s.tb ∧
    (acceptSlice n c i p s).tm = s.tm ∧ (acceptSlice n c i p s).pwc = s.pwc ∧ (acceptSlice n c i p s).eu = s.eu ∧
    (acceptSlice n c i p s).generation = s.generation ∧ (acceptSlice n c i p s).free = s.free ∧
    (acceptSlice n c i p s).out = s.out := by
  simp only [acceptSlice]
  repeat' split
  all_goals simp

@[simp] theorem takeSlice_keeps (p : Slice) (s : State) :
    (takeSlice p s).pending = s.pending ∧ (takeSlice p s).pins = s.pins ∧ (takeSlice p s).mem = s.mem ∧
    (takeSlice p s).hmp = s.hmp ∧ (takeSlice p s).rm = s.rm ∧ (takeSlice p s).pu = s.pu ∧ (takeSlice p s).st = s.st ∧
    (takeSlice p s).so = s.so ∧ (takeSlice p s).sh = s.sh ∧ (takeSlice p s).au = s.au ∧ (takeSlice p s).tb = s.tb ∧
    (takeSlice p s).tm = s.tm ∧ (takeSlice p s).pwc = s.pwc ∧ (takeSlice p s).eu = s.eu ∧
    (takeSlice p s).generation = s.generation ∧ (takeSlice p s).free = s.free ∧ (takeSlice p s).out = s.out := by
  simp only [takeSlice]
  repeat' split
  all_goals simp

@[simp] theorem offerMessage_keeps (b : List Byte) (s : State) :
    (offerMessage b s).2.pending = s.pending ∧ (offerMessage b s).2.pins = s.pins ∧
    (offerMessage b s).2.mem = s.mem ∧ (offerMessage b s).2.hmp = s.hmp ∧ (offerMessage b s).2.rm = s.rm ∧
    (offerMessage b s).2.pu = s.pu ∧ (offerMessage b s).2.st = s.st ∧ (offerMessage b s).2.so = s.so ∧
    (offerMessage b s).2.sh = s.sh ∧ (offerMessage b s).2.au = s.au ∧ (offerMessage b s).2.tb = s.tb ∧
    (offerMessage b s).2.tm = s.tm ∧ (offerMessage b s).2.pwc = s.pwc ∧ (offerMessage b s).2.eu = s.eu ∧
    (offerMessage b s).2.generation = s.generation ∧ (offerMessage b s).2.nextId = s.nextId ∧
    (offerMessage b s).2.free = s.free ∧ (offerMessage b s).2.out = s.out := by
  simp only [offerMessage]
  repeat' split
  all_goals simp

@[simp] theorem entryWriteDone_keeps (i : U16) (g : Nat) (s : State) :
    (entryWriteDone i g s).pending = s.pending ∧ (entryWriteDone i g s).pins = s.pins ∧
    (entryWriteDone i g s).mem = s.mem ∧ (entryWriteDone i g s).hmp = s.hmp ∧ (entryWriteDone i g s).rm = s.rm ∧
    (entryWriteDone i g s).da = s.da ∧ (entryWriteDone i g s).pu = s.pu ∧ (entryWriteDone i g s).st = s.st ∧
    (entryWriteDone i g s).so = s.so ∧ (entryWriteDone i g s).sh = s.sh ∧ (entryWriteDone i g s).au = s.au ∧
    (entryWriteDone i g s).tb = s.tb ∧ (entryWriteDone i g s).tm = s.tm ∧ (entryWriteDone i g s).pwc = s.pwc ∧
    (entryWriteDone i g s).generation = s.generation ∧ (entryWriteDone i g s).nextId = s.nextId ∧
    (entryWriteDone i g s).free = s.free ∧ (entryWriteDone i g s).out = s.out := by
  simp only [entryWriteDone, State.when]
  repeat' split
  all_goals simp

@[simp] theorem messageConsume_keeps (v : U32) (s : State) :
    (messageConsume v s).pending = s.pending ∧ (messageConsume v s).pins = s.pins ∧
    (messageConsume v s).mem = s.mem ∧ (messageConsume v s).hmp = s.hmp ∧ (messageConsume v s).rm = s.rm ∧
    (messageConsume v s).pu = s.pu ∧ (messageConsume v s).st = s.st ∧ (messageConsume v s).so = s.so ∧
    (messageConsume v s).sh = s.sh ∧ (messageConsume v s).au = s.au ∧ (messageConsume v s).tb = s.tb ∧
    (messageConsume v s).tm = s.tm ∧ (messageConsume v s).pwc = s.pwc ∧
    (messageConsume v s).generation = s.generation ∧ (messageConsume v s).nextId = s.nextId ∧
    (messageConsume v s).free = s.free ∧ (messageConsume v s).out = s.out := by
  simp only [messageConsume]
  repeat' split
  all_goals simp

/-! ### Audio unit -/

@[simp] theorem State.onRing_keeps (n : Fin 3) (f : AudioRing → AudioRing) (s : State) :
    (s.onRing n f).pending = s.pending ∧ (s.onRing n f).pins = s.pins ∧
    (s.onRing n f).mem = s.mem ∧ (s.onRing n f).hmp = s.hmp ∧ (s.onRing n f).rm = s.rm ∧
    (s.onRing n f).da = s.da ∧ (s.onRing n f).pu = s.pu ∧ (s.onRing n f).st = s.st ∧
    (s.onRing n f).so = s.so ∧ (s.onRing n f).sh = s.sh ∧ (s.onRing n f).tc = s.tc ∧
    (s.onRing n f).tb = s.tb ∧ (s.onRing n f).tm = s.tm ∧ (s.onRing n f).pwc = s.pwc ∧
    (s.onRing n f).eu = s.eu ∧ (s.onRing n f).generation = s.generation ∧
    (s.onRing n f).nextId = s.nextId ∧ (s.onRing n f).free = s.free ∧ (s.onRing n f).out = s.out := by
  simp [State.onRing]

@[simp] theorem placeAudio_keeps (f : List U32) (s : State) :
    (placeAudio f s).pending = s.pending ∧ (placeAudio f s).pins = s.pins ∧ (placeAudio f s).mem = s.mem ∧
    (placeAudio f s).hmp = s.hmp ∧ (placeAudio f s).rm = s.rm ∧ (placeAudio f s).pu = s.pu ∧
    (placeAudio f s).st = s.st ∧ (placeAudio f s).so = s.so ∧ (placeAudio f s).sh = s.sh ∧
    (placeAudio f s).tb = s.tb ∧ (placeAudio f s).tm = s.tm ∧ (placeAudio f s).pwc = s.pwc ∧
    (placeAudio f s).generation = s.generation ∧ (placeAudio f s).free = s.free ∧ (placeAudio f s).out = s.out := by
  simp only [placeAudio]
  repeat' split
  all_goals simp

@[simp] theorem ring1Produce_keeps (v : U32) (s : State) :
    (ring1Produce v s).pending = s.pending ∧ (ring1Produce v s).pins = s.pins ∧ (ring1Produce v s).mem = s.mem ∧
    (ring1Produce v s).hmp = s.hmp ∧ (ring1Produce v s).rm = s.rm ∧ (ring1Produce v s).pu = s.pu ∧
    (ring1Produce v s).st = s.st ∧ (ring1Produce v s).so = s.so ∧ (ring1Produce v s).sh = s.sh ∧
    (ring1Produce v s).tc = s.tc ∧ (ring1Produce v s).tb = s.tb ∧ (ring1Produce v s).tm = s.tm ∧
    (ring1Produce v s).pwc = s.pwc ∧ (ring1Produce v s).generation = s.generation ∧
    (ring1Produce v s).nextId = s.nextId ∧ (ring1Produce v s).free = s.free ∧ (ring1Produce v s).out = s.out := by
  simp only [ring1Produce]
  repeat' split
  all_goals simp

@[simp] theorem ring2Consume_keeps (v : U32) (s : State) :
    (ring2Consume v s).pending = s.pending ∧ (ring2Consume v s).pins = s.pins ∧ (ring2Consume v s).mem = s.mem ∧
    (ring2Consume v s).hmp = s.hmp ∧ (ring2Consume v s).rm = s.rm ∧ (ring2Consume v s).pu = s.pu ∧
    (ring2Consume v s).st = s.st ∧ (ring2Consume v s).so = s.so ∧ (ring2Consume v s).sh = s.sh ∧
    (ring2Consume v s).tc = s.tc ∧ (ring2Consume v s).tb = s.tb ∧ (ring2Consume v s).tm = s.tm ∧
    (ring2Consume v s).pwc = s.pwc ∧ (ring2Consume v s).generation = s.generation ∧
    (ring2Consume v s).nextId = s.nextId ∧ (ring2Consume v s).free = s.free ∧ (ring2Consume v s).out = s.out := by
  simp only [ring2Consume]
  repeat' split
  all_goals simp

@[simp] theorem takeFrames_keeps (r : Fin 3) (n : Nat) (c : Correction) (s : State) :
    (takeFrames r n c s).pending = s.pending ∧ (takeFrames r n c s).pins = s.pins ∧
    (takeFrames r n c s).mem = s.mem ∧ (takeFrames r n c s).hmp = s.hmp ∧ (takeFrames r n c s).rm = s.rm ∧
    (takeFrames r n c s).pu = s.pu ∧ (takeFrames r n c s).st = s.st ∧ (takeFrames r n c s).so = s.so ∧
    (takeFrames r n c s).sh = s.sh ∧ (takeFrames r n c s).tc = s.tc ∧ (takeFrames r n c s).tb = s.tb ∧
    (takeFrames r n c s).tm = s.tm ∧ (takeFrames r n c s).pwc = s.pwc ∧ (takeFrames r n c s).eu = s.eu ∧
    (takeFrames r n c s).generation = s.generation ∧ (takeFrames r n c s).free = s.free ∧
    (takeFrames r n c s).out = s.out := by
  simp [takeFrames]

@[simp] theorem settleRing_keeps (r : Fin 3) (s : State) :
    (settleRing r s).pending = s.pending ∧ (settleRing r s).pins = s.pins ∧ (settleRing r s).mem = s.mem ∧
    (settleRing r s).hmp = s.hmp ∧ (settleRing r s).rm = s.rm ∧ (settleRing r s).da = s.da ∧
    (settleRing r s).pu = s.pu ∧ (settleRing r s).st = s.st ∧ (settleRing r s).so = s.so ∧
    (settleRing r s).sh = s.sh ∧ (settleRing r s).tc = s.tc ∧ (settleRing r s).tb = s.tb ∧
    (settleRing r s).tm = s.tm ∧ (settleRing r s).pwc = s.pwc ∧ (settleRing r s).eu = s.eu ∧
    (settleRing r s).generation = s.generation ∧ (settleRing r s).nextId = s.nextId ∧
    (settleRing r s).free = s.free ∧ (settleRing r s).out = s.out := by
  simp [settleRing]

@[simp] theorem fetchDone_keeps (p l : Nat) (d : List Byte) (b : Bool) (s : State) :
    (fetchDone p l d b s).pending = s.pending ∧ (fetchDone p l d b s).pins = s.pins ∧
    (fetchDone p l d b s).mem = s.mem ∧ (fetchDone p l d b s).hmp = s.hmp ∧ (fetchDone p l d b s).rm = s.rm ∧
    (fetchDone p l d b s).da = s.da ∧ (fetchDone p l d b s).pu = s.pu ∧ (fetchDone p l d b s).st = s.st ∧
    (fetchDone p l d b s).so = s.so ∧ (fetchDone p l d b s).sh = s.sh ∧ (fetchDone p l d b s).tc = s.tc ∧
    (fetchDone p l d b s).tb = s.tb ∧ (fetchDone p l d b s).tm = s.tm ∧ (fetchDone p l d b s).pwc = s.pwc ∧
    (fetchDone p l d b s).eu = s.eu ∧ (fetchDone p l d b s).generation = s.generation ∧
    (fetchDone p l d b s).nextId = s.nextId ∧ (fetchDone p l d b s).free = s.free ∧ (fetchDone p l d b s).out = s.out := by
  simp only [fetchDone]
  repeat' split
  all_goals simp

@[simp] theorem driftStep_keeps (s : State) :
    (driftStep s).pending = s.pending ∧ (driftStep s).pins = s.pins ∧ (driftStep s).mem = s.mem ∧
    (driftStep s).hmp = s.hmp ∧ (driftStep s).rm = s.rm ∧ (driftStep s).da = s.da ∧ (driftStep s).pu = s.pu ∧
    (driftStep s).st = s.st ∧ (driftStep s).so = s.so ∧ (driftStep s).sh = s.sh ∧ (driftStep s).tc = s.tc ∧
    (driftStep s).tb = s.tb ∧ (driftStep s).tm = s.tm ∧ (driftStep s).pwc = s.pwc ∧ (driftStep s).eu = s.eu ∧
    (driftStep s).generation = s.generation ∧ (driftStep s).nextId = s.nextId ∧ (driftStep s).free = s.free ∧
    (driftStep s).out = s.out := by
  simp [driftStep]

@[simp] theorem underrun_keeps (r : Fin 3) (s : State) :
    (underrun r s).pending = s.pending ∧ (underrun r s).pins = s.pins ∧ (underrun r s).mem = s.mem ∧
    (underrun r s).hmp = s.hmp ∧ (underrun r s).rm = s.rm ∧ (underrun r s).da = s.da ∧ (underrun r s).pu = s.pu ∧
    (underrun r s).st = s.st ∧ (underrun r s).so = s.so ∧ (underrun r s).sh = s.sh ∧ (underrun r s).tc = s.tc ∧
    (underrun r s).tb = s.tb ∧ (underrun r s).tm = s.tm ∧ (underrun r s).pwc = s.pwc ∧
    (underrun r s).generation = s.generation ∧ (underrun r s).nextId = s.nextId ∧ (underrun r s).free = s.free ∧
    (underrun r s).out = s.out := by
  simp [underrun]

@[simp] theorem choosePlaying_keeps (r : Fin 3) (s : State) :
    (choosePlaying r s).pending = s.pending ∧ (choosePlaying r s).pins = s.pins ∧ (choosePlaying r s).mem = s.mem ∧
    (choosePlaying r s).hmp = s.hmp ∧ (choosePlaying r s).rm = s.rm ∧ (choosePlaying r s).pu = s.pu ∧
    (choosePlaying r s).st = s.st ∧ (choosePlaying r s).so = s.so ∧ (choosePlaying r s).sh = s.sh ∧
    (choosePlaying r s).tc = s.tc ∧ (choosePlaying r s).tb = s.tb ∧ (choosePlaying r s).tm = s.tm ∧
    (choosePlaying r s).pwc = s.pwc ∧ (choosePlaying r s).generation = s.generation ∧
    (choosePlaying r s).free = s.free ∧ (choosePlaying r s).out = s.out := by
  simp only [choosePlaying]
  repeat' split
  all_goals simp

@[simp] theorem chooseFrames_keeps (r : Fin 3) (s : State) :
    (chooseFrames r s).pending = s.pending ∧ (chooseFrames r s).pins = s.pins ∧ (chooseFrames r s).mem = s.mem ∧
    (chooseFrames r s).hmp = s.hmp ∧ (chooseFrames r s).rm = s.rm ∧ (chooseFrames r s).pu = s.pu ∧
    (chooseFrames r s).st = s.st ∧ (chooseFrames r s).so = s.so ∧ (chooseFrames r s).sh = s.sh ∧
    (chooseFrames r s).tc = s.tc ∧ (chooseFrames r s).tb = s.tb ∧ (chooseFrames r s).tm = s.tm ∧
    (chooseFrames r s).pwc = s.pwc ∧ (chooseFrames r s).generation = s.generation ∧
    (chooseFrames r s).free = s.free ∧ (chooseFrames r s).out = s.out := by
  simp only [chooseFrames]
  repeat' split
  all_goals simp

@[simp] theorem audioMix_keeps (s : State) :
    (audioMix s).pending = s.pending ∧ (audioMix s).pins = s.pins ∧ (audioMix s).mem = s.mem ∧
    (audioMix s).hmp = s.hmp ∧ (audioMix s).rm = s.rm ∧ (audioMix s).da = s.da ∧ (audioMix s).pu = s.pu ∧
    (audioMix s).st = s.st ∧ (audioMix s).so = s.so ∧ (audioMix s).sh = s.sh ∧ (audioMix s).tc = s.tc ∧
    (audioMix s).tb = s.tb ∧ (audioMix s).tm = s.tm ∧ (audioMix s).pwc = s.pwc ∧ (audioMix s).eu = s.eu ∧
    (audioMix s).generation = s.generation ∧ (audioMix s).nextId = s.nextId ∧ (audioMix s).free = s.free ∧
    (audioMix s).out = s.out := by
  simp [audioMix]

@[simp] theorem micBlock_keeps (p : List U64) (s : State) :
    (micBlock p s).pending = s.pending ∧ (micBlock p s).pins = s.pins ∧ (micBlock p s).mem = s.mem ∧
    (micBlock p s).hmp = s.hmp ∧ (micBlock p s).rm = s.rm ∧ (micBlock p s).pu = s.pu ∧ (micBlock p s).st = s.st ∧
    (micBlock p s).so = s.so ∧ (micBlock p s).sh = s.sh ∧ (micBlock p s).tb = s.tb ∧ (micBlock p s).tm = s.tm ∧
    (micBlock p s).pwc = s.pwc ∧ (micBlock p s).generation = s.generation ∧ (micBlock p s).free = s.free ∧
    (micBlock p s).out = s.out := by
  simp only [micBlock]
  repeat' split
  all_goals simp

@[simp] theorem captureDone_keeps (b : Nat) (s : State) :
    (captureDone b s).pending = s.pending ∧ (captureDone b s).pins = s.pins ∧ (captureDone b s).mem = s.mem ∧
    (captureDone b s).hmp = s.hmp ∧ (captureDone b s).rm = s.rm ∧ (captureDone b s).da = s.da ∧
    (captureDone b s).pu = s.pu ∧ (captureDone b s).st = s.st ∧ (captureDone b s).so = s.so ∧
    (captureDone b s).sh = s.sh ∧ (captureDone b s).tc = s.tc ∧ (captureDone b s).tb = s.tb ∧
    (captureDone b s).tm = s.tm ∧ (captureDone b s).pwc = s.pwc ∧ (captureDone b s).eu = s.eu ∧
    (captureDone b s).generation = s.generation ∧ (captureDone b s).nextId = s.nextId ∧
    (captureDone b s).free = s.free ∧ (captureDone b s).out = s.out := by
  simp [captureDone]

@[simp] theorem audioBoundary_keeps (p : Option (List U64)) (s : State) :
    (audioBoundary p s).pending = s.pending ∧ (audioBoundary p s).pins = s.pins ∧ (audioBoundary p s).mem = s.mem ∧
    (audioBoundary p s).hmp = s.hmp ∧ (audioBoundary p s).rm = s.rm ∧ (audioBoundary p s).pu = s.pu ∧
    (audioBoundary p s).st = s.st ∧ (audioBoundary p s).so = s.so ∧ (audioBoundary p s).sh = s.sh ∧
    (audioBoundary p s).tb = s.tb ∧ (audioBoundary p s).pwc = s.pwc ∧ (audioBoundary p s).generation = s.generation ∧
    (audioBoundary p s).free = s.free ∧ (audioBoundary p s).out = s.out := by
  simp only [audioBoundary, audioBoundaryRest]
  repeat' split
  all_goals simp

@[simp] theorem audioStart_keeps (s : State) :
    (audioStart s).pending = s.pending ∧ (audioStart s).pins = s.pins ∧ (audioStart s).mem = s.mem ∧
    (audioStart s).hmp = s.hmp ∧ (audioStart s).rm = s.rm ∧ (audioStart s).pu = s.pu ∧ (audioStart s).st = s.st ∧
    (audioStart s).so = s.so ∧ (audioStart s).sh = s.sh ∧ (audioStart s).tb = s.tb ∧ (audioStart s).pwc = s.pwc ∧
    (audioStart s).generation = s.generation ∧ (audioStart s).free = s.free ∧ (audioStart s).out = s.out := by
  simp [audioStart]

@[simp] theorem audioHalt_keeps (s : State) :
    (audioHalt s).pending = s.pending ∧ (audioHalt s).pins = s.pins ∧ (audioHalt s).mem = s.mem ∧
    (audioHalt s).hmp = s.hmp ∧ (audioHalt s).rm = s.rm ∧ (audioHalt s).da = s.da ∧ (audioHalt s).pu = s.pu ∧
    (audioHalt s).st = s.st ∧ (audioHalt s).so = s.so ∧ (audioHalt s).sh = s.sh ∧ (audioHalt s).tc = s.tc ∧
    (audioHalt s).tb = s.tb ∧ (audioHalt s).tm = s.tm ∧ (audioHalt s).pwc = s.pwc ∧ (audioHalt s).eu = s.eu ∧
    (audioHalt s).generation = s.generation ∧ (audioHalt s).nextId = s.nextId ∧ (audioHalt s).free = s.free ∧
    (audioHalt s).out = s.out := by
  simp [audioHalt]

/-! ### Sensor hub -/

@[simp] theorem State.onChannel_keeps (n : Fin 4) (f : Channel → Channel) (s : State) :
    (s.onChannel n f).pending = s.pending ∧ (s.onChannel n f).pins = s.pins ∧
    (s.onChannel n f).mem = s.mem ∧ (s.onChannel n f).hmp = s.hmp ∧ (s.onChannel n f).rm = s.rm ∧
    (s.onChannel n f).da = s.da ∧ (s.onChannel n f).pu = s.pu ∧ (s.onChannel n f).st = s.st ∧
    (s.onChannel n f).so = s.so ∧ (s.onChannel n f).tc = s.tc ∧ (s.onChannel n f).au = s.au ∧
    (s.onChannel n f).tb = s.tb ∧ (s.onChannel n f).tm = s.tm ∧ (s.onChannel n f).pwc = s.pwc ∧
    (s.onChannel n f).eu = s.eu ∧ (s.onChannel n f).generation = s.generation ∧
    (s.onChannel n f).nextId = s.nextId ∧ (s.onChannel n f).free = s.free ∧
    (s.onChannel n f).out = s.out := by
  simp [State.onChannel]

@[simp] theorem State.onSensorRing_keeps (n : Fin 8) (f : SensorRing → SensorRing) (s : State) :
    (s.onSensorRing n f).pending = s.pending ∧ (s.onSensorRing n f).pins = s.pins ∧
    (s.onSensorRing n f).mem = s.mem ∧ (s.onSensorRing n f).hmp = s.hmp ∧
    (s.onSensorRing n f).rm = s.rm ∧ (s.onSensorRing n f).da = s.da ∧
    (s.onSensorRing n f).pu = s.pu ∧ (s.onSensorRing n f).st = s.st ∧
    (s.onSensorRing n f).so = s.so ∧ (s.onSensorRing n f).tc = s.tc ∧
    (s.onSensorRing n f).au = s.au ∧ (s.onSensorRing n f).tb = s.tb ∧
    (s.onSensorRing n f).tm = s.tm ∧ (s.onSensorRing n f).pwc = s.pwc ∧
    (s.onSensorRing n f).eu = s.eu ∧ (s.onSensorRing n f).generation = s.generation ∧
    (s.onSensorRing n f).nextId = s.nextId ∧ (s.onSensorRing n f).free = s.free ∧
    (s.onSensorRing n f).out = s.out := by
  simp [State.onSensorRing]

@[simp] theorem becomeDue_keeps (n : Fin 4) (s : State) :
    (becomeDue n s).pending = s.pending ∧ (becomeDue n s).pins = s.pins ∧ (becomeDue n s).mem = s.mem ∧
    (becomeDue n s).hmp = s.hmp ∧ (becomeDue n s).rm = s.rm ∧ (becomeDue n s).da = s.da ∧ (becomeDue n s).pu = s.pu ∧
    (becomeDue n s).st = s.st ∧ (becomeDue n s).so = s.so ∧ (becomeDue n s).tc = s.tc ∧ (becomeDue n s).au = s.au ∧
    (becomeDue n s).tb = s.tb ∧ (becomeDue n s).pwc = s.pwc ∧ (becomeDue n s).eu = s.eu ∧
    (becomeDue n s).generation = s.generation ∧ (becomeDue n s).nextId = s.nextId ∧ (becomeDue n s).free = s.free ∧
    (becomeDue n s).out = s.out := by
  simp only [becomeDue]
  repeat' split
  all_goals simp

@[simp] theorem enterRunning_keeps (n : Fin 4) (s : State) :
    (enterRunning n s).pending = s.pending ∧ (enterRunning n s).pins = s.pins ∧ (enterRunning n s).mem = s.mem ∧
    (enterRunning n s).hmp = s.hmp ∧ (enterRunning n s).rm = s.rm ∧ (enterRunning n s).da = s.da ∧
    (enterRunning n s).pu = s.pu ∧ (enterRunning n s).st = s.st ∧ (enterRunning n s).so = s.so ∧
    (enterRunning n s).tc = s.tc ∧ (enterRunning n s).au = s.au ∧ (enterRunning n s).tb = s.tb ∧
    (enterRunning n s).pwc = s.pwc ∧ (enterRunning n s).eu = s.eu ∧ (enterRunning n s).generation = s.generation ∧
    (enterRunning n s).nextId = s.nextId ∧ (enterRunning n s).free = s.free ∧ (enterRunning n s).out = s.out := by
  simp only [enterRunning]
  repeat' split
  all_goals simp

@[simp] theorem intervalExpired_keeps (n : Fin 4) (s : State) :
    (intervalExpired n s).pending = s.pending ∧ (intervalExpired n s).pins = s.pins ∧
    (intervalExpired n s).mem = s.mem ∧ (intervalExpired n s).hmp = s.hmp ∧ (intervalExpired n s).rm = s.rm ∧
    (intervalExpired n s).da = s.da ∧ (intervalExpired n s).pu = s.pu ∧ (intervalExpired n s).st = s.st ∧
    (intervalExpired n s).so = s.so ∧ (intervalExpired n s).tc = s.tc ∧ (intervalExpired n s).au = s.au ∧
    (intervalExpired n s).tb = s.tb ∧ (intervalExpired n s).pwc = s.pwc ∧ (intervalExpired n s).eu = s.eu ∧
    (intervalExpired n s).generation = s.generation ∧ (intervalExpired n s).nextId = s.nextId ∧
    (intervalExpired n s).free = s.free ∧ (intervalExpired n s).out = s.out := by
  simp [intervalExpired]

@[simp] theorem giveBus_keeps (s : State) :
    (giveBus s).pending = s.pending ∧ (giveBus s).pins = s.pins ∧ (giveBus s).mem = s.mem ∧ (giveBus s).hmp = s.hmp ∧
    (giveBus s).rm = s.rm ∧ (giveBus s).da = s.da ∧ (giveBus s).pu = s.pu ∧ (giveBus s).st = s.st ∧
    (giveBus s).so = s.so ∧ (giveBus s).tc = s.tc ∧ (giveBus s).au = s.au ∧ (giveBus s).tb = s.tb ∧
    (giveBus s).tm = s.tm ∧ (giveBus s).pwc = s.pwc ∧ (giveBus s).eu = s.eu ∧ (giveBus s).generation = s.generation ∧
    (giveBus s).nextId = s.nextId ∧ (giveBus s).free = s.free := by
  simp only [giveBus]
  repeat' split
  all_goals simp

@[simp] theorem offerRing_keeps (r : SensorRec) (s : State) (n : Fin 8) :
    (offerRing r s n).pending = s.pending ∧ (offerRing r s n).pins = s.pins ∧ (offerRing r s n).mem = s.mem ∧
    (offerRing r s n).hmp = s.hmp ∧ (offerRing r s n).rm = s.rm ∧ (offerRing r s n).pu = s.pu ∧
    (offerRing r s n).st = s.st ∧ (offerRing r s n).so = s.so ∧ (offerRing r s n).tc = s.tc ∧
    (offerRing r s n).au = s.au ∧ (offerRing r s n).tb = s.tb ∧ (offerRing r s n).tm = s.tm ∧
    (offerRing r s n).pwc = s.pwc ∧ (offerRing r s n).generation = s.generation ∧
    (offerRing r s n).nextId = s.nextId ∧ (offerRing r s n).free = s.free ∧ (offerRing r s n).out = s.out := by
  simp only [offerRing]
  repeat' split
  all_goals simp

@[simp] theorem ringWriteDone_keeps (n : Fin 8) (i : U16) (g : Nat) (s : State) :
    (ringWriteDone n i g s).pending = s.pending ∧ (ringWriteDone n i g s).pins = s.pins ∧
    (ringWriteDone n i g s).mem = s.mem ∧ (ringWriteDone n i g s).hmp = s.hmp ∧ (ringWriteDone n i g s).rm = s.rm ∧
    (ringWriteDone n i g s).da = s.da ∧ (ringWriteDone n i g s).pu = s.pu ∧ (ringWriteDone n i g s).st = s.st ∧
    (ringWriteDone n i g s).so = s.so ∧ (ringWriteDone n i g s).tc = s.tc ∧ (ringWriteDone n i g s).au = s.au ∧
    (ringWriteDone n i g s).tb = s.tb ∧ (ringWriteDone n i g s).tm = s.tm ∧ (ringWriteDone n i g s).pwc = s.pwc ∧
    (ringWriteDone n i g s).eu = s.eu ∧ (ringWriteDone n i g s).generation = s.generation ∧
    (ringWriteDone n i g s).nextId = s.nextId ∧ (ringWriteDone n i g s).free = s.free ∧
    (ringWriteDone n i g s).out = s.out := by
  simp only [ringWriteDone]
  repeat' split
  all_goals simp

@[simp] theorem sensorConsume_keeps (n : Fin 8) (v : U32) (s : State) :
    (sensorConsume n v s).pending = s.pending ∧ (sensorConsume n v s).pins = s.pins ∧
    (sensorConsume n v s).mem = s.mem ∧ (sensorConsume n v s).hmp = s.hmp ∧ (sensorConsume n v s).rm = s.rm ∧
    (sensorConsume n v s).pu = s.pu ∧ (sensorConsume n v s).st = s.st ∧ (sensorConsume n v s).so = s.so ∧
    (sensorConsume n v s).tc = s.tc ∧ (sensorConsume n v s).au = s.au ∧ (sensorConsume n v s).tb = s.tb ∧
    (sensorConsume n v s).tm = s.tm ∧ (sensorConsume n v s).pwc = s.pwc ∧
    (sensorConsume n v s).generation = s.generation ∧ (sensorConsume n v s).nextId = s.nextId ∧
    (sensorConsume n v s).free = s.free ∧ (sensorConsume n v s).out = s.out := by
  simp only [sensorConsume]
  repeat' split
  all_goals simp

@[simp] theorem updateSlot_keeps (r : SensorRec) (s : State) (n : Fin 4) :
    (updateSlot r s n).pending = s.pending ∧ (updateSlot r s n).pins = s.pins ∧ (updateSlot r s n).mem = s.mem ∧
    (updateSlot r s n).hmp = s.hmp ∧ (updateSlot r s n).rm = s.rm ∧ (updateSlot r s n).da = s.da ∧
    (updateSlot r s n).pu = s.pu ∧ (updateSlot r s n).st = s.st ∧ (updateSlot r s n).so = s.so ∧
    (updateSlot r s n).tc = s.tc ∧ (updateSlot r s n).au = s.au ∧ (updateSlot r s n).tb = s.tb ∧
    (updateSlot r s n).tm = s.tm ∧ (updateSlot r s n).pwc = s.pwc ∧ (updateSlot r s n).eu = s.eu ∧
    (updateSlot r s n).generation = s.generation ∧ (updateSlot r s n).nextId = s.nextId ∧
    (updateSlot r s n).free = s.free ∧ (updateSlot r s n).out = s.out := by
  simp [updateSlot]

@[simp] theorem holdBegin_keeps (s : State) :
    (holdBegin s).pending = s.pending ∧ (holdBegin s).pins = s.pins ∧ (holdBegin s).mem = s.mem ∧
    (holdBegin s).hmp = s.hmp ∧ (holdBegin s).rm = s.rm ∧ (holdBegin s).da = s.da ∧ (holdBegin s).pu = s.pu ∧
    (holdBegin s).st = s.st ∧ (holdBegin s).so = s.so ∧ (holdBegin s).tc = s.tc ∧ (holdBegin s).au = s.au ∧
    (holdBegin s).tb = s.tb ∧ (holdBegin s).tm = s.tm ∧ (holdBegin s).pwc = s.pwc ∧ (holdBegin s).eu = s.eu ∧
    (holdBegin s).generation = s.generation ∧ (holdBegin s).nextId = s.nextId ∧ (holdBegin s).free = s.free ∧
    (holdBegin s).out = s.out := by
  simp [holdBegin]

/-! ### Scan-out -/

@[simp] theorem cutCheck_keeps (s : State) :
    (cutCheck s).pending = s.pending ∧ (cutCheck s).pins = s.pins ∧ (cutCheck s).mem = s.mem ∧
    (cutCheck s).hmp = s.hmp ∧ (cutCheck s).rm = s.rm ∧ (cutCheck s).da = s.da ∧ (cutCheck s).pu = s.pu ∧
    (cutCheck s).st = s.st ∧ (cutCheck s).sh = s.sh ∧ (cutCheck s).tc = s.tc ∧ (cutCheck s).au = s.au ∧
    (cutCheck s).tb = s.tb ∧ (cutCheck s).tm = s.tm ∧ (cutCheck s).pwc = s.pwc ∧ (cutCheck s).eu = s.eu ∧
    (cutCheck s).generation = s.generation ∧ (cutCheck s).nextId = s.nextId ∧ (cutCheck s).free = s.free ∧
    (cutCheck s).out = s.out := by
  simp only [cutCheck]
  repeat' split
  all_goals simp

@[simp] theorem killEvent_keeps (s : State) :
    (killEvent s).pending = s.pending ∧ (killEvent s).pins = s.pins ∧ (killEvent s).mem = s.mem ∧
    (killEvent s).hmp = s.hmp ∧ (killEvent s).rm = s.rm ∧ (killEvent s).da = s.da ∧ (killEvent s).pu = s.pu ∧
    (killEvent s).st = s.st ∧ (killEvent s).sh = s.sh ∧ (killEvent s).tc = s.tc ∧ (killEvent s).au = s.au ∧
    (killEvent s).tb = s.tb ∧ (killEvent s).tm = s.tm ∧ (killEvent s).pwc = s.pwc ∧ (killEvent s).eu = s.eu ∧
    (killEvent s).generation = s.generation ∧ (killEvent s).nextId = s.nextId ∧ (killEvent s).free = s.free ∧
    (killEvent s).out = s.out := by
  simp [killEvent]

@[simp] theorem setPower_keeps (p : PowerState) (s : State) :
    (setPower p s).pending = s.pending ∧ (setPower p s).pins = s.pins ∧ (setPower p s).mem = s.mem ∧
    (setPower p s).hmp = s.hmp ∧ (setPower p s).rm = s.rm ∧ (setPower p s).da = s.da ∧ (setPower p s).pu = s.pu ∧
    (setPower p s).st = s.st ∧ (setPower p s).sh = s.sh ∧ (setPower p s).tc = s.tc ∧ (setPower p s).au = s.au ∧
    (setPower p s).tb = s.tb ∧ (setPower p s).tm = s.tm ∧ (setPower p s).eu = s.eu ∧
    (setPower p s).generation = s.generation ∧ (setPower p s).nextId = s.nextId ∧ (setPower p s).free = s.free ∧
    (setPower p s).out = s.out := by
  simp only [setPower]
  repeat' split
  all_goals simp

@[simp] theorem strobeLights_keeps (f : Machine.Frame) (s : State) :
    (strobeLights f s).pending = s.pending ∧ (strobeLights f s).pins = s.pins ∧ (strobeLights f s).mem = s.mem ∧
    (strobeLights f s).hmp = s.hmp ∧ (strobeLights f s).rm = s.rm ∧ (strobeLights f s).pu = s.pu ∧
    (strobeLights f s).st = s.st ∧ (strobeLights f s).sh = s.sh ∧ (strobeLights f s).au = s.au ∧
    (strobeLights f s).tb = s.tb ∧ (strobeLights f s).tm = s.tm ∧ (strobeLights f s).pwc = s.pwc ∧
    (strobeLights f s).generation = s.generation ∧ (strobeLights f s).free = s.free ∧ (strobeLights f s).out = s.out := by
  simp only [strobeLights]
  repeat' split
  all_goals simp

@[simp] theorem strobeDecision_keeps (s : State) :
    (strobeDecision s).pending = s.pending ∧ (strobeDecision s).pins = s.pins ∧ (strobeDecision s).mem = s.mem ∧
    (strobeDecision s).hmp = s.hmp ∧ (strobeDecision s).rm = s.rm ∧ (strobeDecision s).pu = s.pu ∧
    (strobeDecision s).st = s.st ∧ (strobeDecision s).sh = s.sh ∧ (strobeDecision s).au = s.au ∧
    (strobeDecision s).tb = s.tb ∧ (strobeDecision s).tm = s.tm ∧ (strobeDecision s).pwc = s.pwc ∧
    (strobeDecision s).generation = s.generation ∧ (strobeDecision s).free = s.free ∧ (strobeDecision s).out = s.out := by
  simp only [strobeDecision]
  repeat' split
  all_goals simp

@[simp] theorem strobeBegins_keeps (s : State) :
    (strobeBegins s).pending = s.pending ∧ (strobeBegins s).pins = s.pins ∧ (strobeBegins s).mem = s.mem ∧
    (strobeBegins s).hmp = s.hmp ∧ (strobeBegins s).rm = s.rm ∧ (strobeBegins s).pu = s.pu ∧
    (strobeBegins s).st = s.st ∧ (strobeBegins s).sh = s.sh ∧ (strobeBegins s).au = s.au ∧
    (strobeBegins s).tb = s.tb ∧ (strobeBegins s).pwc = s.pwc ∧ (strobeBegins s).generation = s.generation ∧
    (strobeBegins s).free = s.free ∧ (strobeBegins s).out = s.out := by
  simp [strobeBegins]

@[simp] theorem applySet_keeps (t : TimingSet) (s : State) :
    (applySet t s).pending = s.pending ∧ (applySet t s).pins = s.pins ∧ (applySet t s).mem = s.mem ∧
    (applySet t s).hmp = s.hmp ∧ (applySet t s).rm = s.rm ∧ (applySet t s).da = s.da ∧ (applySet t s).pu = s.pu ∧
    (applySet t s).st = s.st ∧ (applySet t s).sh = s.sh ∧ (applySet t s).tc = s.tc ∧ (applySet t s).au = s.au ∧
    (applySet t s).tb = s.tb ∧ (applySet t s).tm = s.tm ∧ (applySet t s).pwc = s.pwc ∧
    (applySet t s).generation = s.generation ∧ (applySet t s).nextId = s.nextId ∧ (applySet t s).free = s.free ∧
    (applySet t s).out = s.out := by
  simp [applySet]

@[simp] theorem takePending_keeps (t : TimingSet) (s : State) :
    (takePending t s).pending = s.pending ∧ (takePending t s).pins = s.pins ∧ (takePending t s).mem = s.mem ∧
    (takePending t s).hmp = s.hmp ∧ (takePending t s).rm = s.rm ∧ (takePending t s).da = s.da ∧
    (takePending t s).st = s.st ∧ (takePending t s).sh = s.sh ∧ (takePending t s).tc = s.tc ∧
    (takePending t s).au = s.au ∧ (takePending t s).tb = s.tb ∧ (takePending t s).tm = s.tm ∧
    (takePending t s).pwc = s.pwc ∧ (takePending t s).generation = s.generation ∧
    (takePending t s).nextId = s.nextId ∧ (takePending t s).free = s.free ∧ (takePending t s).out = s.out := by
  simp [takePending]

@[simp] theorem reload_keeps (s : State) :
    (reload s).pending = s.pending ∧ (reload s).pins = s.pins ∧ (reload s).mem = s.mem ∧ (reload s).hmp = s.hmp ∧
    (reload s).rm = s.rm ∧ (reload s).da = s.da ∧ (reload s).st = s.st ∧ (reload s).sh = s.sh ∧
    (reload s).tc = s.tc ∧ (reload s).au = s.au ∧ (reload s).tb = s.tb ∧ (reload s).tm = s.tm ∧
    (reload s).pwc = s.pwc ∧ (reload s).generation = s.generation ∧ (reload s).nextId = s.nextId ∧
    (reload s).free = s.free ∧ (reload s).out = s.out := by
  simp only [reload]
  repeat' split
  all_goals simp

@[simp] theorem standbySteps_keeps (s : State) :
    (standbySteps s).pending = s.pending ∧ (standbySteps s).pins = s.pins ∧ (standbySteps s).mem = s.mem ∧
    (standbySteps s).rm = s.rm ∧ (standbySteps s).da = s.da ∧ (standbySteps s).pu = s.pu ∧
    (standbySteps s).so = s.so ∧ (standbySteps s).tb = s.tb ∧ (standbySteps s).tm = s.tm ∧
    (standbySteps s).eu = s.eu ∧ (standbySteps s).generation = s.generation ∧ (standbySteps s).nextId = s.nextId ∧
    (standbySteps s).free = s.free ∧ (standbySteps s).out = s.out := by
  simp [standbySteps]

@[simp] theorem stopAndAnswer_keeps (s : State) :
    (stopAndAnswer s).pending = s.pending ∧ (stopAndAnswer s).pins = s.pins ∧ (stopAndAnswer s).mem = s.mem ∧
    (stopAndAnswer s).rm = s.rm ∧ (stopAndAnswer s).da = s.da ∧ (stopAndAnswer s).pu = s.pu ∧
    (stopAndAnswer s).tb = s.tb ∧ (stopAndAnswer s).tm = s.tm ∧ (stopAndAnswer s).eu = s.eu ∧
    (stopAndAnswer s).generation = s.generation ∧ (stopAndAnswer s).nextId = s.nextId ∧
    (stopAndAnswer s).free = s.free ∧ (stopAndAnswer s).out = s.out := by
  simp only [stopAndAnswer]
  repeat' split
  all_goals simp

@[simp] theorem stopPoint_keeps (s : State) :
    (stopPoint s).pending = s.pending ∧ (stopPoint s).pins = s.pins ∧ (stopPoint s).mem = s.mem ∧
    (stopPoint s).rm = s.rm ∧ (stopPoint s).da = s.da ∧ (stopPoint s).tb = s.tb ∧ (stopPoint s).tm = s.tm ∧
    (stopPoint s).generation = s.generation ∧ (stopPoint s).nextId = s.nextId ∧ (stopPoint s).free = s.free ∧
    (stopPoint s).out = s.out := by
  simp only [stopPoint]
  repeat' split
  all_goals simp

@[simp] theorem requestStop_keeps (s : State) :
    (requestStop s).pending = s.pending ∧ (requestStop s).pins = s.pins ∧ (requestStop s).mem = s.mem ∧
    (requestStop s).rm = s.rm ∧ (requestStop s).da = s.da ∧ (requestStop s).pu = s.pu ∧ (requestStop s).tb = s.tb ∧
    (requestStop s).tm = s.tm ∧ (requestStop s).eu = s.eu ∧ (requestStop s).generation = s.generation ∧
    (requestStop s).nextId = s.nextId ∧ (requestStop s).free = s.free ∧ (requestStop s).out = s.out := by
  simp only [requestStop]
  repeat' split
  all_goals simp

@[simp] theorem beginBands_keeps (s : State) :
    (beginBands s).pending = s.pending ∧ (beginBands s).pins = s.pins ∧ (beginBands s).mem = s.mem ∧
    (beginBands s).hmp = s.hmp ∧ (beginBands s).rm = s.rm ∧ (beginBands s).da = s.da ∧ (beginBands s).pu = s.pu ∧
    (beginBands s).st = s.st ∧ (beginBands s).sh = s.sh ∧ (beginBands s).tc = s.tc ∧ (beginBands s).au = s.au ∧
    (beginBands s).tb = s.tb ∧ (beginBands s).tm = s.tm ∧ (beginBands s).pwc = s.pwc ∧ (beginBands s).eu = s.eu ∧
    (beginBands s).generation = s.generation ∧ (beginBands s).nextId = s.nextId ∧ (beginBands s).free = s.free := by
  simp only [beginBands]
  repeat' split
  all_goals simp

@[simp] theorem frameBoundary_keeps (b : Bool) (s : State) :
    (frameBoundary b s).pending = s.pending ∧ (frameBoundary b s).pins = s.pins ∧ (frameBoundary b s).mem = s.mem ∧
    (frameBoundary b s).rm = s.rm ∧ (frameBoundary b s).da = s.da ∧ (frameBoundary b s).tb = s.tb ∧
    (frameBoundary b s).generation = s.generation ∧ (frameBoundary b s).nextId = s.nextId ∧
    (frameBoundary b s).free = s.free := by
  simp only [frameBoundary]
  repeat' split
  all_goals simp

@[simp] theorem boundaryMoment_keeps (b : Bool) (s : State) :
    (boundaryMoment b s).pending = s.pending ∧ (boundaryMoment b s).pins = s.pins ∧
    (boundaryMoment b s).mem = s.mem ∧ (boundaryMoment b s).rm = s.rm ∧ (boundaryMoment b s).da = s.da ∧
    (boundaryMoment b s).tb = s.tb ∧ (boundaryMoment b s).generation = s.generation ∧
    (boundaryMoment b s).nextId = s.nextId ∧ (boundaryMoment b s).free = s.free := by
  simp only [boundaryMoment]
  repeat' split
  all_goals simp

@[simp] theorem acceptTrigger_keeps (s : State) :
    (acceptTrigger s).pending = s.pending ∧ (acceptTrigger s).pins = s.pins ∧ (acceptTrigger s).mem = s.mem ∧
    (acceptTrigger s).rm = s.rm ∧ (acceptTrigger s).da = s.da ∧ (acceptTrigger s).tb = s.tb ∧
    (acceptTrigger s).generation = s.generation ∧ (acceptTrigger s).nextId = s.nextId ∧
    (acceptTrigger s).free = s.free := by
  simp [acceptTrigger]

@[simp] theorem frameStartEvent_keeps (s : State) :
    (frameStartEvent s).pending = s.pending ∧ (frameStartEvent s).pins = s.pins ∧ (frameStartEvent s).mem = s.mem ∧
    (frameStartEvent s).rm = s.rm ∧ (frameStartEvent s).da = s.da ∧ (frameStartEvent s).tb = s.tb ∧
    (frameStartEvent s).generation = s.generation ∧ (frameStartEvent s).nextId = s.nextId ∧
    (frameStartEvent s).free = s.free := by
  simp only [frameStartEvent]
  repeat' split
  all_goals simp

@[simp] theorem syncLost_keeps (s : State) :
    (syncLost s).pending = s.pending ∧ (syncLost s).pins = s.pins ∧ (syncLost s).mem = s.mem ∧
    (syncLost s).rm = s.rm ∧ (syncLost s).da = s.da ∧ (syncLost s).tb = s.tb ∧
    (syncLost s).generation = s.generation ∧ (syncLost s).nextId = s.nextId ∧ (syncLost s).free = s.free := by
  simp only [syncLost]
  repeat' split
  all_goals simp

@[simp] theorem startScan_keeps (s : State) :
    (startScan s).pending = s.pending ∧ (startScan s).pins = s.pins ∧ (startScan s).mem = s.mem ∧
    (startScan s).rm = s.rm ∧ (startScan s).da = s.da ∧ (startScan s).tb = s.tb ∧
    (startScan s).generation = s.generation ∧ (startScan s).nextId = s.nextId ∧ (startScan s).free = s.free := by
  simp only [startScan]
  repeat' split
  all_goals simp

@[simp] theorem readBand_keeps (p : Side) (k : Nat) (a : BandAnswer) (s : State) :
    (readBand p k a s).pending = s.pending ∧ (readBand p k a s).pins = s.pins ∧
    (readBand p k a s).mem = s.mem ∧ (readBand p k a s).hmp = s.hmp ∧ (readBand p k a s).rm = s.rm ∧
    (readBand p k a s).pu = s.pu ∧ (readBand p k a s).st = s.st ∧ (readBand p k a s).sh = s.sh ∧
    (readBand p k a s).tc = s.tc ∧ (readBand p k a s).au = s.au ∧ (readBand p k a s).tb = s.tb ∧
    (readBand p k a s).tm = s.tm ∧ (readBand p k a s).pwc = s.pwc ∧ (readBand p k a s).eu = s.eu ∧
    (readBand p k a s).generation = s.generation ∧ (readBand p k a s).free = s.free := by
  simp only [readBand]
  repeat' split
  all_goals simp

@[simp] theorem startBandFor_keeps (p : Side) (n : Fin 6) (k : Nat) (s : State) :
    (startBandFor p n k s).pending = s.pending ∧ (startBandFor p n k s).pins = s.pins ∧
    (startBandFor p n k s).mem = s.mem ∧ (startBandFor p n k s).hmp = s.hmp ∧
    (startBandFor p n k s).rm = s.rm ∧ (startBandFor p n k s).pu = s.pu ∧ (startBandFor p n k s).sh = s.sh ∧
    (startBandFor p n k s).tc = s.tc ∧ (startBandFor p n k s).au = s.au ∧ (startBandFor p n k s).tb = s.tb ∧
    (startBandFor p n k s).tm = s.tm ∧ (startBandFor p n k s).pwc = s.pwc ∧
    (startBandFor p n k s).generation = s.generation ∧ (startBandFor p n k s).free = s.free := by
  simp [startBandFor]

@[simp] theorem endWindows_keeps (w : BandJob → Bool) (s : State) :
    (endWindows w s).pending = s.pending ∧ (endWindows w s).pins = s.pins ∧ (endWindows w s).mem = s.mem ∧
    (endWindows w s).hmp = s.hmp ∧ (endWindows w s).rm = s.rm ∧ (endWindows w s).da = s.da ∧
    (endWindows w s).pu = s.pu ∧ (endWindows w s).st = s.st ∧ (endWindows w s).sh = s.sh ∧
    (endWindows w s).tc = s.tc ∧ (endWindows w s).au = s.au ∧ (endWindows w s).tb = s.tb ∧
    (endWindows w s).tm = s.tm ∧ (endWindows w s).pwc = s.pwc ∧ (endWindows w s).eu = s.eu ∧
    (endWindows w s).generation = s.generation ∧ (endWindows w s).nextId = s.nextId ∧
    (endWindows w s).free = s.free := by
  simp [endWindows]

/-- All that `endWindows` does to SO: the bands named are marked. -/
@[simp] theorem endWindows_so (w : BandJob → Bool) (s : State) :
    (endWindows w s).so =
      { s.so with jobs := s.so.jobs.map fun j => if w j then { j with late := true } else j } := rfl

/-- All that `endWindows` sends: what has come of the bands named that were still in their window. -/
@[simp] theorem endWindows_out (w : BandJob → Bool) (s : State) :
    (endWindows w s).out =
      s.out ++ (s.so.jobs.filter fun j => w j && !j.late).map (BandJob.output s.so.applied.fallback) := rfl

@[simp] theorem bandStarts_keeps (c : Schedule) (s : State) :
    (bandStarts c s).pending = s.pending ∧ (bandStarts c s).pins = s.pins ∧ (bandStarts c s).mem = s.mem ∧
    (bandStarts c s).hmp = s.hmp ∧ (bandStarts c s).rm = s.rm ∧ (bandStarts c s).pu = s.pu ∧
    (bandStarts c s).sh = s.sh ∧ (bandStarts c s).tc = s.tc ∧ (bandStarts c s).au = s.au ∧
    (bandStarts c s).tb = s.tb ∧ (bandStarts c s).tm = s.tm ∧ (bandStarts c s).pwc = s.pwc ∧
    (bandStarts c s).generation = s.generation ∧ (bandStarts c s).free = s.free := by
  simp only [bandStarts]
  repeat' split
  all_goals simp

@[simp] theorem bandFinished_keeps (j : BandJob) (s : State) :
    (bandFinished j s).pending = s.pending ∧ (bandFinished j s).pins = s.pins ∧ (bandFinished j s).mem = s.mem ∧
    (bandFinished j s).hmp = s.hmp ∧ (bandFinished j s).rm = s.rm ∧ (bandFinished j s).da = s.da ∧
    (bandFinished j s).pu = s.pu ∧ (bandFinished j s).st = s.st ∧ (bandFinished j s).sh = s.sh ∧
    (bandFinished j s).tc = s.tc ∧ (bandFinished j s).au = s.au ∧ (bandFinished j s).tb = s.tb ∧
    (bandFinished j s).tm = s.tm ∧ (bandFinished j s).pwc = s.pwc ∧ (bandFinished j s).eu = s.eu ∧
    (bandFinished j s).generation = s.generation ∧ (bandFinished j s).nextId = s.nextId ∧
    (bandFinished j s).free = s.free := by
  simp only [bandFinished]
  repeat' split
  all_goals simp

@[simp] theorem bandReadDone_keeps (j l : Nat) (d : List Byte) (b : Bool) (s : State) :
    (bandReadDone j l d b s).pending = s.pending ∧ (bandReadDone j l d b s).pins = s.pins ∧
    (bandReadDone j l d b s).mem = s.mem ∧ (bandReadDone j l d b s).hmp = s.hmp ∧
    (bandReadDone j l d b s).rm = s.rm ∧ (bandReadDone j l d b s).da = s.da ∧ (bandReadDone j l d b s).pu = s.pu ∧
    (bandReadDone j l d b s).st = s.st ∧ (bandReadDone j l d b s).sh = s.sh ∧ (bandReadDone j l d b s).tc = s.tc ∧
    (bandReadDone j l d b s).au = s.au ∧ (bandReadDone j l d b s).tb = s.tb ∧ (bandReadDone j l d b s).tm = s.tm ∧
    (bandReadDone j l d b s).pwc = s.pwc ∧ (bandReadDone j l d b s).eu = s.eu ∧
    (bandReadDone j l d b s).generation = s.generation ∧ (bandReadDone j l d b s).nextId = s.nextId ∧
    (bandReadDone j l d b s).free = s.free := by
  simp only [bandReadDone]
  repeat' split
  all_goals simp

/-! ### Trigger matrix and power -/

@[simp] theorem State.onBeacon_keeps (n : Fin 2) (f : Beacon → Beacon) (s : State) :
    (s.onBeacon n f).pending = s.pending ∧ (s.onBeacon n f).pins = s.pins ∧
    (s.onBeacon n f).mem = s.mem ∧ (s.onBeacon n f).hmp = s.hmp ∧ (s.onBeacon n f).rm = s.rm ∧
    (s.onBeacon n f).da = s.da ∧ (s.onBeacon n f).pu = s.pu ∧ (s.onBeacon n f).st = s.st ∧
    (s.onBeacon n f).so = s.so ∧ (s.onBeacon n f).sh = s.sh ∧ (s.onBeacon n f).tc = s.tc ∧
    (s.onBeacon n f).au = s.au ∧ (s.onBeacon n f).tb = s.tb ∧ (s.onBeacon n f).pwc = s.pwc ∧
    (s.onBeacon n f).eu = s.eu ∧ (s.onBeacon n f).generation = s.generation ∧
    (s.onBeacon n f).nextId = s.nextId ∧ (s.onBeacon n f).free = s.free ∧
    (s.onBeacon n f).out = s.out := by
  simp [State.onBeacon]

@[simp] theorem beaconEvent_keeps (n : Fin 2) (s : State) :
    (beaconEvent n s).pending = s.pending ∧ (beaconEvent n s).pins = s.pins ∧ (beaconEvent n s).mem = s.mem ∧
    (beaconEvent n s).hmp = s.hmp ∧ (beaconEvent n s).rm = s.rm ∧ (beaconEvent n s).da = s.da ∧
    (beaconEvent n s).pu = s.pu ∧ (beaconEvent n s).st = s.st ∧ (beaconEvent n s).so = s.so ∧
    (beaconEvent n s).sh = s.sh ∧ (beaconEvent n s).tc = s.tc ∧ (beaconEvent n s).au = s.au ∧
    (beaconEvent n s).tb = s.tb ∧ (beaconEvent n s).pwc = s.pwc ∧ (beaconEvent n s).eu = s.eu ∧
    (beaconEvent n s).generation = s.generation ∧ (beaconEvent n s).nextId = s.nextId ∧
    (beaconEvent n s).free = s.free ∧ (beaconEvent n s).out = s.out := by
  simp only [beaconEvent]
  repeat' split
  all_goals simp

@[simp] theorem channelEvent_keeps (n : Fin 4) (s : State) :
    (channelEvent n s).pending = s.pending ∧ (channelEvent n s).pins = s.pins ∧ (channelEvent n s).mem = s.mem ∧
    (channelEvent n s).hmp = s.hmp ∧ (channelEvent n s).rm = s.rm ∧ (channelEvent n s).da = s.da ∧
    (channelEvent n s).pu = s.pu ∧ (channelEvent n s).st = s.st ∧ (channelEvent n s).so = s.so ∧
    (channelEvent n s).tc = s.tc ∧ (channelEvent n s).au = s.au ∧ (channelEvent n s).tb = s.tb ∧
    (channelEvent n s).pwc = s.pwc ∧ (channelEvent n s).eu = s.eu ∧ (channelEvent n s).generation = s.generation ∧
    (channelEvent n s).nextId = s.nextId ∧ (channelEvent n s).free = s.free ∧ (channelEvent n s).out = s.out := by
  simp only [channelEvent]
  repeat' split
  all_goals simp

@[simp] theorem deliver_keeps (n : Fin 8) (s : State) :
    (deliver n s).pending = s.pending ∧ (deliver n s).pins = s.pins ∧ (deliver n s).mem = s.mem ∧
    (deliver n s).rm = s.rm ∧ (deliver n s).da = s.da ∧ (deliver n s).tb = s.tb ∧
    (deliver n s).generation = s.generation ∧ (deliver n s).nextId = s.nextId ∧ (deliver n s).free = s.free := by
  simp only [deliver]
  repeat' split
  all_goals simp

@[simp] theorem seeChange_keeps (n : Fin 8) (s : State) :
    (seeChange n s).pending = s.pending ∧ (seeChange n s).pins = s.pins ∧ (seeChange n s).mem = s.mem ∧
    (seeChange n s).rm = s.rm ∧ (seeChange n s).da = s.da ∧ (seeChange n s).tb = s.tb ∧
    (seeChange n s).generation = s.generation ∧ (seeChange n s).nextId = s.nextId ∧ (seeChange n s).free = s.free := by
  simp only [seeChange]
  repeat' split
  all_goals simp

@[simp] theorem overrideEnds_keeps (s : State) :
    (overrideEnds s).pending = s.pending ∧ (overrideEnds s).pins = s.pins ∧ (overrideEnds s).mem = s.mem ∧
    (overrideEnds s).hmp = s.hmp ∧ (overrideEnds s).rm = s.rm ∧ (overrideEnds s).da = s.da ∧
    (overrideEnds s).pu = s.pu ∧ (overrideEnds s).st = s.st ∧ (overrideEnds s).so = s.so ∧
    (overrideEnds s).sh = s.sh ∧ (overrideEnds s).tc = s.tc ∧ (overrideEnds s).au = s.au ∧
    (overrideEnds s).tb = s.tb ∧ (overrideEnds s).tm = s.tm ∧ (overrideEnds s).generation = s.generation ∧
    (overrideEnds s).nextId = s.nextId ∧ (overrideEnds s).free = s.free ∧ (overrideEnds s).out = s.out := by
  simp only [overrideEnds]
  repeat' split
  all_goals simp

@[simp] theorem wakeCause_keeps (c : WakeCause) (s : State) :
    (wakeCause c s).pending = s.pending ∧ (wakeCause c s).pins = s.pins ∧ (wakeCause c s).mem = s.mem ∧
    (wakeCause c s).hmp = s.hmp ∧ (wakeCause c s).rm = s.rm ∧ (wakeCause c s).pu = s.pu ∧ (wakeCause c s).st = s.st ∧
    (wakeCause c s).so = s.so ∧ (wakeCause c s).sh = s.sh ∧ (wakeCause c s).tc = s.tc ∧ (wakeCause c s).au = s.au ∧
    (wakeCause c s).tm = s.tm ∧ (wakeCause c s).eu = s.eu ∧ (wakeCause c s).generation = s.generation ∧
    (wakeCause c s).nextId = s.nextId ∧ (wakeCause c s).free = s.free ∧ (wakeCause c s).out = s.out := by
  simp only [wakeCause, beginWaking]
  repeat' split
  all_goals simp

@[simp] theorem enterActive_keeps (s : State) :
    (enterActive s).pending = s.pending ∧ (enterActive s).pins = s.pins ∧ (enterActive s).mem = s.mem ∧
    (enterActive s).hmp = s.hmp ∧ (enterActive s).rm = s.rm ∧ (enterActive s).da = s.da ∧ (enterActive s).pu = s.pu ∧
    (enterActive s).st = s.st ∧ (enterActive s).sh = s.sh ∧ (enterActive s).tc = s.tc ∧ (enterActive s).au = s.au ∧
    (enterActive s).tb = s.tb ∧ (enterActive s).tm = s.tm ∧ (enterActive s).generation = s.generation ∧
    (enterActive s).nextId = s.nextId ∧ (enterActive s).free = s.free ∧ (enterActive s).out = s.out := by
  simp [enterActive]

@[simp] theorem enterDimmed_keeps (c : DimCause) (s : State) :
    (enterDimmed c s).pending = s.pending ∧ (enterDimmed c s).pins = s.pins ∧ (enterDimmed c s).mem = s.mem ∧
    (enterDimmed c s).hmp = s.hmp ∧ (enterDimmed c s).rm = s.rm ∧ (enterDimmed c s).da = s.da ∧
    (enterDimmed c s).pu = s.pu ∧ (enterDimmed c s).st = s.st ∧ (enterDimmed c s).sh = s.sh ∧
    (enterDimmed c s).tc = s.tc ∧ (enterDimmed c s).au = s.au ∧ (enterDimmed c s).tb = s.tb ∧
    (enterDimmed c s).tm = s.tm ∧ (enterDimmed c s).generation = s.generation ∧ (enterDimmed c s).nextId = s.nextId ∧
    (enterDimmed c s).free = s.free ∧ (enterDimmed c s).out = s.out := by
  simp [enterDimmed]

@[simp] theorem presenceReport_keeps (v : Bool) (s : State) :
    (presenceReport v s).pending = s.pending ∧ (presenceReport v s).pins = s.pins ∧
    (presenceReport v s).mem = s.mem ∧ (presenceReport v s).hmp = s.hmp ∧ (presenceReport v s).rm = s.rm ∧
    (presenceReport v s).pu = s.pu ∧ (presenceReport v s).st = s.st ∧ (presenceReport v s).sh = s.sh ∧
    (presenceReport v s).tc = s.tc ∧ (presenceReport v s).au = s.au ∧ (presenceReport v s).tm = s.tm ∧
    (presenceReport v s).generation = s.generation ∧ (presenceReport v s).nextId = s.nextId ∧
    (presenceReport v s).free = s.free ∧ (presenceReport v s).out = s.out := by
  simp only [presenceReport]
  repeat' split
  all_goals simp

@[simp] theorem beginStandby_keeps (s : State) :
    (beginStandby s).pending = s.pending ∧ (beginStandby s).pins = s.pins ∧ (beginStandby s).mem = s.mem ∧
    (beginStandby s).rm = s.rm ∧ (beginStandby s).da = s.da ∧ (beginStandby s).pu = s.pu ∧
    (beginStandby s).tb = s.tb ∧ (beginStandby s).tm = s.tm ∧ (beginStandby s).eu = s.eu ∧
    (beginStandby s).generation = s.generation ∧ (beginStandby s).nextId = s.nextId ∧
    (beginStandby s).free = s.free ∧ (beginStandby s).out = s.out := by
  simp [beginStandby]

@[simp] theorem giveAnswers_keeps (s : State) :
    (giveAnswers s).pending = s.pending ∧ (giveAnswers s).pins = s.pins ∧ (giveAnswers s).mem = s.mem ∧
    (giveAnswers s).rm = s.rm ∧ (giveAnswers s).da = s.da ∧ (giveAnswers s).pu = s.pu ∧ (giveAnswers s).st = s.st ∧
    (giveAnswers s).so = s.so ∧ (giveAnswers s).sh = s.sh ∧ (giveAnswers s).tc = s.tc ∧ (giveAnswers s).au = s.au ∧
    (giveAnswers s).tb = s.tb ∧ (giveAnswers s).tm = s.tm ∧ (giveAnswers s).pwc = s.pwc ∧ (giveAnswers s).eu = s.eu ∧
    (giveAnswers s).generation = s.generation ∧ (giveAnswers s).nextId = s.nextId ∧ (giveAnswers s).free = s.free := by
  simp [giveAnswers]

@[simp] theorem answerNow_keeps (l : List Byte) (s : State) :
    (answerNow l s).pending = s.pending ∧ (answerNow l s).pins = s.pins ∧ (answerNow l s).mem = s.mem ∧
    (answerNow l s).rm = s.rm ∧ (answerNow l s).da = s.da ∧ (answerNow l s).pu = s.pu ∧ (answerNow l s).st = s.st ∧
    (answerNow l s).so = s.so ∧ (answerNow l s).sh = s.sh ∧ (answerNow l s).tc = s.tc ∧ (answerNow l s).au = s.au ∧
    (answerNow l s).tb = s.tb ∧ (answerNow l s).tm = s.tm ∧ (answerNow l s).pwc = s.pwc ∧ (answerNow l s).eu = s.eu ∧
    (answerNow l s).generation = s.generation ∧ (answerNow l s).free = s.free := by
  simp [answerNow]

@[simp] theorem answerRead_keeps (i : Nat) (l : List Byte) (s : State) :
    (answerRead i l s).pending = s.pending ∧ (answerRead i l s).pins = s.pins ∧ (answerRead i l s).mem = s.mem ∧
    (answerRead i l s).rm = s.rm ∧ (answerRead i l s).da = s.da ∧ (answerRead i l s).pu = s.pu ∧
    (answerRead i l s).st = s.st ∧ (answerRead i l s).so = s.so ∧ (answerRead i l s).sh = s.sh ∧
    (answerRead i l s).tc = s.tc ∧ (answerRead i l s).au = s.au ∧ (answerRead i l s).tb = s.tb ∧
    (answerRead i l s).tm = s.tm ∧ (answerRead i l s).pwc = s.pwc ∧ (answerRead i l s).eu = s.eu ∧
    (answerRead i l s).generation = s.generation ∧ (answerRead i l s).nextId = s.nextId ∧
    (answerRead i l s).free = s.free := by
  simp [answerRead]

@[simp] theorem countDrop_keeps (n : Fin 32) (s : State) :
    (countDrop n s).pending = s.pending ∧ (countDrop n s).pins = s.pins ∧ (countDrop n s).mem = s.mem ∧
    (countDrop n s).hmp = s.hmp ∧ (countDrop n s).da = s.da ∧ (countDrop n s).pu = s.pu ∧ (countDrop n s).st = s.st ∧
    (countDrop n s).so = s.so ∧ (countDrop n s).sh = s.sh ∧ (countDrop n s).tc = s.tc ∧ (countDrop n s).au = s.au ∧
    (countDrop n s).tb = s.tb ∧ (countDrop n s).tm = s.tm ∧ (countDrop n s).pwc = s.pwc ∧ (countDrop n s).eu = s.eu ∧
    (countDrop n s).generation = s.generation ∧ (countDrop n s).nextId = s.nextId ∧ (countDrop n s).free = s.free ∧
    (countDrop n s).out = s.out := by
  simp [countDrop]

@[simp] theorem passWrite_keeps (l : Nat) (b : List (Nat × Byte)) (s : State) :
    (passWrite l b s).pending = s.pending ∧ (passWrite l b s).pins = s.pins ∧ (passWrite l b s).mem = s.mem ∧
    (passWrite l b s).hmp = s.hmp ∧ (passWrite l b s).pu = s.pu ∧ (passWrite l b s).st = s.st ∧
    (passWrite l b s).so = s.so ∧ (passWrite l b s).sh = s.sh ∧ (passWrite l b s).tc = s.tc ∧
    (passWrite l b s).au = s.au ∧ (passWrite l b s).tb = s.tb ∧ (passWrite l b s).tm = s.tm ∧
    (passWrite l b s).pwc = s.pwc ∧ (passWrite l b s).generation = s.generation ∧
    (passWrite l b s).nextId = s.nextId ∧ (passWrite l b s).free = s.free ∧ (passWrite l b s).out = s.out := by
  simp only [passWrite]
  repeat' split
  all_goals simp

@[simp] theorem passRead_keeps (l : Nat) (s : State) :
    (passRead l s).pending = s.pending ∧ (passRead l s).pins = s.pins ∧ (passRead l s).mem = s.mem ∧
    (passRead l s).rm = s.rm ∧ (passRead l s).pu = s.pu ∧ (passRead l s).st = s.st ∧ (passRead l s).so = s.so ∧
    (passRead l s).sh = s.sh ∧ (passRead l s).tc = s.tc ∧ (passRead l s).au = s.au ∧ (passRead l s).tb = s.tb ∧
    (passRead l s).tm = s.tm ∧ (passRead l s).pwc = s.pwc ∧ (passRead l s).eu = s.eu ∧
    (passRead l s).generation = s.generation ∧ (passRead l s).free = s.free := by
  simp only [passRead]
  repeat' split
  all_goals simp

@[simp] theorem issueImage_keeps (s : State) :
    (issueImage s).pending = s.pending ∧ (issueImage s).pins = s.pins ∧ (issueImage s).mem = s.mem ∧
    (issueImage s).hmp = s.hmp ∧ (issueImage s).rm = s.rm ∧ (issueImage s).st = s.st ∧ (issueImage s).so = s.so ∧
    (issueImage s).sh = s.sh ∧ (issueImage s).tc = s.tc ∧ (issueImage s).au = s.au ∧ (issueImage s).tb = s.tb ∧
    (issueImage s).tm = s.tm ∧ (issueImage s).pwc = s.pwc ∧ (issueImage s).eu = s.eu ∧
    (issueImage s).generation = s.generation ∧ (issueImage s).nextId = s.nextId ∧ (issueImage s).free = s.free ∧
    (issueImage s).out = s.out := by
  simp [issueImage]

@[simp] theorem planInitialize_keeps (q : U32) (s : State) :
    (planInitialize q s).pending = s.pending ∧ (planInitialize q s).pins = s.pins ∧
    (planInitialize q s).mem = s.mem ∧ (planInitialize q s).hmp = s.hmp ∧ (planInitialize q s).rm = s.rm ∧
    (planInitialize q s).st = s.st ∧ (planInitialize q s).so = s.so ∧ (planInitialize q s).sh = s.sh ∧
    (planInitialize q s).tc = s.tc ∧ (planInitialize q s).au = s.au ∧ (planInitialize q s).tb = s.tb ∧
    (planInitialize q s).tm = s.tm ∧ (planInitialize q s).pwc = s.pwc ∧ (planInitialize q s).eu = s.eu ∧
    (planInitialize q s).generation = s.generation ∧ (planInitialize q s).nextId = s.nextId ∧
    (planInitialize q s).free = s.free ∧ (planInitialize q s).out = s.out := by
  simp [planInitialize]

end Sys2Proof.Machine
end

