-- ==== Sys2Proof/Laws/Uplink.lean ====
section
/-!
SUPPORT. The lane arbiter where it comes to a class's resends (R92, R93): it takes the oldest entry marked for resend, and
where it does not come to the class it leaves the class's history as it stands.
-/
namespace Sys2Proof.Machine

/-! ### The choice -/

/-- The sequenced class whose history a choice can change. -/
def Choice.cls : Choice → Option (Fin 3)
  | .again d _ => some d
  | .first q => q.content.seqClass
  | _ => none

/-- A class has no eligible packet when nothing of it is marked, and nothing queued that the history has room for. -/
theorem Tc.classChoice_eq_none_iff {t : Tc} {d : Fin 3} :
    t.classChoice d = none ↔ (∀ e ∈ vget t.history d, e.resend = false) ∧
      (t.historyFill < 16 → ∀ q ∈ t.queue, q.content.seqClass ≠ some d) := by
  unfold Tc.classChoice
  cases h : (vget t.history d).find? (·.resend) with
  | some e =>
    simp only [reduceCtorEq, false_iff]
    rintro ⟨hn, _⟩
    simpa [hn e (List.mem_of_find?_eq_some h)] using List.find?_some h
  | none =>
    have hn : ∀ e ∈ vget t.history d, e.resend = false := by simpa using h
    simp only
    split
    · rename_i hf
      rw [Option.map_eq_none_iff, List.find?_eq_none]
      simpa [hf] using fun _ => hn
    · rename_i hf
      exact ⟨fun _ => ⟨hn, fun h => absurd h hf⟩, fun _ => rfl⟩

theorem Tc.classChoice_cls {t : Tc} {d : Fin 3} {x : Choice} (h : t.classChoice d = some x) : x.cls = some d := by
  unfold Tc.classChoice at h
  split at h
  · cases h
    rfl
  · split at h
    · obtain ⟨q, hq, rfl⟩ := Option.map_eq_some_iff.mp h
      simpa [Choice.cls] using List.find?_some hq
    · cases h

/-- A class that the arbiter comes to, its oldest entry marked, gives that entry. -/
theorem Tc.choice_of_reaches {t : Tc} {c : Fin 3} {e : HistEntry} {rest : List HistEntry} (h : t.reaches c)
    (hh : vget t.history c = e :: rest) (he : e.resend = true) : t.choice = some (.again c e) := by
  obtain ⟨_, ha, hp, hk, hr, hd⟩ := h
  have own : t.classChoice c = some (.again c e) := by
    simp only [Tc.classChoice, hh, List.find?_cons, he]
  have none_before (d : Fin 3) (hdc : d < c) : t.classChoice d = none := Tc.classChoice_eq_none_iff.mpr (hd d hdc)
  unfold Tc.choice
  rw [ha, hp, hk, hr]
  obtain rfl | rfl | rfl : c = 0 ∨ c = 1 ∨ c = 2 := by omega
  · simp [own]
  · simp [own, none_before 0 (by decide)]
  · simp [own, none_before 0 (by decide), none_before 1 (by decide)]

/-- Where the lane is free and the arbiter does not come to a class, it chooses no packet of that class. -/
theorem Tc.choice_of_not_reaches {t : Tc} {c : Fin 3} (hl : t.lane = .free) (h : ¬ t.reaches c) {x : Choice}
    (hx : t.choice = some x) : x.cls ≠ some c := by
  unfold Tc.choice at hx
  split at hx
  · cases hx; simp [Choice.cls]
  · rename_i ha
    split at hx
    · cases hx; simp [Choice.cls]
    · rename_i hp
      split at hx
      · cases hx; simp [Choice.cls]
      · rename_i hk
        split at hx
        · cases hx
        · rename_i hr
          have before : ∃ d, d < c ∧ t.classChoice d ≠ none := Classical.byContradiction fun hn =>
            h ⟨hl, by simpa using ha, hp, by simpa using hk, by simpa using hr, fun d hd =>
              Tc.classChoice_eq_none_iff.mp (Classical.byContradiction fun hne => hn ⟨d, hd, hne⟩)⟩
          obtain ⟨d, hd, hne⟩ := before
          have firstOf : ∃ d, d < c ∧ t.classChoice d = some x := by
            cases h0 : t.classChoice 0 with
            | some y =>
              rw [h0, Option.some_or] at hx
              exact ⟨0, by omega, by rw [h0, hx]⟩
            | none =>
              rw [h0, Option.none_or] at hx
              have hd1 : d ≠ 0 := fun e => hne (e ▸ h0)
              cases h1 : t.classChoice 1 with
              | some y =>
                rw [h1, Option.some_or] at hx
                exact ⟨1, by omega, by rw [h1, hx]⟩
              | none =>
                have hd2 : d ≠ 1 := fun e => hne (e ▸ h1)
                omega
          obtain ⟨d, hd, he⟩ := firstOf
          rw [Tc.classChoice_cls he]
          simpa using Fin.ne_of_lt hd

/-! ### The sending -/

/-- A choice changes the history of its own class alone. -/
theorem sendChoice_history {x : Choice} {s : State} {d : Fin 3} (h : x.cls ≠ some d) :
    vget (sendChoice x s).tc.history d = vget s.tc.history d := by
  have reads (entry addr length : Nat) : (beginReads entry addr length s).tc.history = s.tc.history := by
    simp only [beginReads]
    rw [requestReads_eq]
    rfl
  cases x with
  | ack => rfl
  | echo p => rfl
  | keepalive => rfl
  | again c e =>
    have hc : c ≠ d := fun e => h (congrArg some e)
    simp only [sendChoice]
    split
    · rw [reads]
    · exact vget_vmod_ne _ _ hc
  | first q =>
    simp only [sendChoice]
    split
    · rw [reads]
    · rfl
    · rename_i r hq
      exact vget_vmod_ne _ _ fun e => h (by rw [Choice.cls, hq, Content.seqClass, e])
    · rename_i r o hq
      exact vget_vmod_ne _ _ fun e => h (by rw [Choice.cls, hq, Content.seqClass, e])

/-- A history entry chosen again takes the lane. -/
theorem sendChoice_again {s : State} {c : Fin 3} {e : HistEntry} {rest : List HistEntry}
    (hh : vget s.tc.history c = e :: rest) : s.resends c e rest (sendChoice (.again c e) s) := by
  simp only [sendChoice]
  split
  · rename_i n addr length he
    have hr : beginReads e.id addr length s =
        { s with nextId := s.nextId + 1
                 tc := { s.tc with lane := .reading e.id s.nextId (linesOf addr length).length [] false false, idle := none }
                 da := (beginReads e.id addr length s).da } := by
      simp only [beginReads]
      rw [requestReads_eq]
      rfl
    unfold State.resends
    rw [he]
    refine ⟨by rw [hr], by rw [hr]; exact hh, by rw [hr], by rw [hr], ?_⟩
    intro line hl
    exact mem_requestReads hl
  · rename_i hc
    unfold State.resends
    refine ⟨rfl, ?_⟩
    have hist : vget (vmod s.tc.history c (updateFirst (·.id == e.id) fun h =>
        { h with sends := h.sends + 1, resend := false })) c = { e with resend := false, sends := e.sends + 1 } :: rest := by
      simp [vmod, hh, updateFirst]
    cases he : e.content with
    | message n a l => exact absurd he (hc n a l)
    | photon r => exact ⟨he ▸ hist, rfl, rfl⟩
    | sensor r o => exact ⟨he ▸ hist, rfl, rfl⟩
    | audioIn f => exact ⟨he ▸ hist, rfl, rfl⟩

/-! ### The arbiter -/

/-- The arbiter comes to a class whose oldest entry is marked: that entry takes the lane, and no other class's history
changes. -/
theorem laneKick_of_reaches {s : State} {c : Fin 3} {e : HistEntry} {rest : List HistEntry} (hl : s.tc.link = .up)
    (h : s.tc.reaches c) (hh : vget s.tc.history c = e :: rest) (he : e.resend = true) :
    s.resends c e rest (laneKick s) ∧ ∀ d, d ≠ c → vget (laneKick s).tc.history d = vget s.tc.history d := by
  have hk : laneKick s = sendChoice (.again c e) s := by
    rw [laneKick, if_pos ⟨hl, h.1⟩, Tc.choice_of_reaches h hh he]
  rw [hk]
  exact ⟨sendChoice_again hh, fun d hd => sendChoice_history fun e => hd (Option.some.inj e).symm⟩

/-- The arbiter does not come to a class: the class's history stays. -/
theorem laneKick_of_not_reaches {s : State} {c : Fin 3} (h : ¬ s.tc.reaches c) :
    vget (laneKick s).tc.history c = vget s.tc.history c := by
  unfold laneKick
  split
  · rename_i hl
    split
    · rename_i x hx
      exact sendChoice_history (Tc.choice_of_not_reaches hl.2 h hx)
    · rfl
  · rfl

end Sys2Proof.Machine
end

