-- ==== Sys2Proof/Laws/History.lean ====
section
/-!
SUPPORT. The bound of the uplink history (R94): what the arbiter, an entry handed over, a MESSAGE's sending and an ack do
keeps `Tc.historyBounded`.
-/
namespace Sys2Proof.Machine

/-! ### The fill, and what keeps the bound -/

/-- The history's fill is that of its three classes. -/
theorem Tc.historyFill_eq (t : Tc) : t.historyFill =
    (vget t.history 0).length + ((vget t.history 1).length + ((vget t.history 2).length + 0)) := by
  have (v : Vector (List HistEntry) 3) : ((vlist v).map List.length).sum =
      (vget v 0).length + ((vget v 1).length + ((vget v 2).length + 0)) := by
    obtain ⟨⟨l⟩, h⟩ := v
    match l, h with
    | [_, _, _], _ => rfl
  exact this t.history

/-- Where no class grows the history does not. -/
theorem Tc.historyFill_le {t u : Tc} (h : ∀ c, (vget u.history c).length ≤ (vget t.history c).length) :
    u.historyFill ≤ t.historyFill := by
  rw [Tc.historyFill_eq, Tc.historyFill_eq]
  have := h 0
  have := h 1
  have := h 2
  omega

/-- An entry that joins one class makes the history one longer. -/
theorem Tc.historyFill_join {t u : Tc} {c : Fin 3} {e : HistEntry}
    (h : u.history = vmod t.history c (· ++ [e])) : u.historyFill = t.historyFill + 1 := by
  rw [Tc.historyFill_eq, Tc.historyFill_eq, h]
  obtain rfl | rfl | rfl : c = 0 ∨ c = 1 ∨ c = 2 := by omega
  all_goals simp [vget_vmod_ne]
  all_goals omega

/-- What keeps the history within its bound: the queue's and each class's entries are among those before, and the lane is
as it was or holds no reads of its own (R94). -/
theorem Tc.historyBounded.shrinks {t u : Tc} {n m : Nat} (hb : t.historyBounded n) (hn : n ≤ m)
    (hq : ∀ q ∈ u.queue, ∃ p ∈ t.queue, p.id = q.id)
    (hl : ∀ c, (vget u.history c).length ≤ (vget t.history c).length)
    (hh : ∀ c, ∀ e ∈ vget u.history c, ∃ p ∈ vget t.history c, p.id = e.id)
    (lane : ∀ entry read left lines damaged, u.lane = .reading entry read left lines damaged false →
      entry < m ∧ (u.historyFill < 16 ∨ ∀ q ∈ u.queue, q.id ≠ entry)) : u.historyBounded m := by
  obtain ⟨b1, b2, b3, _⟩ := hb
  refine ⟨Nat.le_trans (Tc.historyFill_le hl) b1, fun q hm => ?_, fun c e he => ?_, lane⟩
  · obtain ⟨p, hp, e⟩ := hq q hm
    have := b2 p hp
    omega
  · obtain ⟨p, hp, ep⟩ := hh c e he
    obtain ⟨x, y⟩ := b3 c p hp
    refine ⟨by omega, fun q hm => ?_⟩
    obtain ⟨r, hr, er⟩ := hq q hm
    have := y r hr
    omega

/-- The same where the lane stays as it is. -/
theorem Tc.historyBounded.shrinksOnly {t u : Tc} {n m : Nat} (hb : t.historyBounded n) (hn : n ≤ m)
    (hq : ∀ q ∈ u.queue, q ∈ t.queue) (hh : ∀ c, (vget u.history c).Sublist (vget t.history c)) (lane : u.lane = t.lane) :
    u.historyBounded m := by
  refine hb.shrinks hn (fun q h => ⟨q, hq q h, rfl⟩) (fun c => (hh c).length_le)
    (fun c e h => ⟨e, (hh c).subset h, rfl⟩) fun entry read left lines damaged hl => ?_
  obtain ⟨x, y⟩ := hb.2.2.2 entry read left lines damaged (lane ▸ hl)
  have := Tc.historyFill_le (t := t) (u := u) fun c => (hh c).length_le
  exact ⟨by omega, y.imp (fun _ => by omega) fun y q h => y q (hq q h)⟩

/-- A history whose entries keep their ids in place, with the lane no longer reading, keeps its bound. -/
theorem Tc.historyBounded.inPlace {t u : Tc} {n m : Nat} (hb : t.historyBounded n) (hn : n ≤ m) (hq : u.queue = t.queue)
    (ids : ∀ d, (vget u.history d).map HistEntry.id = (vget t.history d).map HistEntry.id)
    (lane : ∀ entry read left lines damaged, u.lane = .reading entry read left lines damaged false →
      entry < m ∧ (u.historyFill < 16 ∨ ∀ q ∈ u.queue, q.id ≠ entry)) : u.historyBounded m := by
  refine hb.shrinks hn (fun q h => ⟨q, hq ▸ h, rfl⟩) (fun d => ?_) (fun d x h => ?_) lane
  · have := congrArg List.length (ids d)
    simp only [List.length_map] at this
    exact Nat.le_of_eq this
  · have : x.id ∈ (vget t.history d).map HistEntry.id := ids d ▸ List.mem_map_of_mem h
    simpa using this

/-- A queue entry moves to the history where it has room, and the lane goes on to send (R93, R94). -/
theorem Tc.historyBounded.joins {t u : Tc} {n m : Nat} {c : Fin 3} {h : HistEntry} (hb : t.historyBounded n) (hn : n ≤ m)
    (hid : h.id < n) (room : t.historyFill < 16) (hq : u.queue = t.queue.filter (·.id != h.id))
    (hh : u.history = vmod t.history c (· ++ [h]))
    (lane : ∀ entry read left lines damaged, u.lane ≠ .reading entry read left lines damaged false) :
    u.historyBounded m := by
  obtain ⟨b1, b2, b3, _⟩ := hb
  have mem (q) (hm : q ∈ u.queue) : q ∈ t.queue ∧ q.id ≠ h.id := by
    rw [hq] at hm
    simpa using hm
  refine ⟨by rw [Tc.historyFill_join hh]; omega, fun q hm => ?_, fun d e he => ?_,
    fun _ _ _ _ _ hx => absurd hx (lane _ _ _ _ _)⟩
  · have := b2 q (mem q hm).1
    omega
  · have old (he : e ∈ vget t.history d) : e.id < m ∧ ∀ q ∈ u.queue, q.id ≠ e.id :=
      ⟨by have := (b3 d e he).1; omega, fun q hm => (b3 d e he).2 q (mem q hm).1⟩
    rw [hh] at he
    by_cases hd : c = d
    · subst hd
      rw [vget_vmod_same, List.mem_append, List.mem_singleton] at he
      rcases he with he | rfl
      · exact old he
      · exact ⟨by omega, fun q hm => (mem q hm).2⟩
    · rw [vget_vmod_ne _ _ hd] at he
      exact old he

/-- The ids and the length of a list are those of another, as a change of the entries in place leaves them. -/
theorem updateFirst_ids {α : Type} {id : α → Nat} {p : α → Bool} {f : α → α} (hf : ∀ x, id (f x) = id x) (l : List α) :
    (updateFirst p f l).map id = l.map id := by
  induction l with
  | nil => rfl
  | cons x r ih =>
    rw [updateFirst]
    split <;> simp [hf, ih]

/-! ### The arbiter and the queue -/

/-- Where the arbiter's choices come from: a resend from its class's history, a first sending from the queue, where the
history has room if it is of a sequenced class (R92, R94). -/
theorem Tc.classChoice_from {t : Tc} {d : Fin 3} {x : Choice} (h : t.classChoice d = some x) :
    (∃ e, x = .again d e ∧ e ∈ vget t.history d) ∨ (∃ q, x = .first q ∧ q ∈ t.queue ∧ t.historyFill < 16) := by
  unfold Tc.classChoice at h
  split at h
  · rename_i e he
    cases h
    exact Or.inl ⟨e, rfl, List.mem_of_find?_eq_some he⟩
  · split at h
    · rename_i hr
      obtain ⟨q, hq, rfl⟩ := Option.map_eq_some_iff.mp h
      exact Or.inr ⟨q, rfl, List.mem_of_find?_eq_some hq, hr⟩
    · cases h

theorem Tc.choice_from {t : Tc} {x : Choice} (h : t.choice = some x) :
    (∀ d e, x = .again d e → e ∈ vget t.history d) ∧
    (∀ q, x = .first q → q ∈ t.queue ∧ (q.content.seqClass ≠ none → t.historyFill < 16)) := by
  have ofClass {d : Fin 3} (h : t.classChoice d = some x) :
      (∀ d e, x = .again d e → e ∈ vget t.history d) ∧
      (∀ q, x = .first q → q ∈ t.queue ∧ (q.content.seqClass ≠ none → t.historyFill < 16)) := by
    rcases Tc.classChoice_from h with ⟨e, rfl, he⟩ | ⟨q, rfl, hq, hr⟩
    · refine ⟨fun d' e' h' => ?_, nofun⟩
      cases h'
      exact he
    · refine ⟨nofun, fun q' h' => ?_⟩
      cases h'
      exact ⟨hq, fun _ => hr⟩
  unfold Tc.choice at h
  split at h
  · cases h
    exact ⟨nofun, nofun⟩
  split at h
  · cases h
    exact ⟨nofun, nofun⟩
  split at h
  · cases h
    exact ⟨nofun, nofun⟩
  split at h
  · cases h
  simp only [Option.or_eq_some_iff] at h
  rcases h with h | ⟨_, h | ⟨_, h | ⟨_, h⟩⟩⟩
  · exact ofClass h
  · exact ofClass h
  · exact ofClass h
  · obtain ⟨q, hq, rfl⟩ := Option.map_eq_some_iff.mp h
    refine ⟨nofun, fun q' h' => ?_⟩
    cases h'
    have hs : q.content.seqClass = none := by simpa using List.find?_some hq
    exact ⟨List.mem_of_find?_eq_some hq, fun hn => absurd hs hn⟩

/-- The reads of a MESSAGE's bytes hold the lane for its entry, and nothing else of the link changes but the idle timer. -/
theorem beginReads_tc (entry addr length : Nat) (s : State) :
    (beginReads entry addr length s).nextId = s.nextId + 1 ∧
    (beginReads entry addr length s).tc = { s.tc with
      lane := .reading entry s.nextId (linesOf addr length).length [] false false, idle := none } := by
  simp only [beginReads]
  rw [requestReads_eq]
  exact ⟨rfl, rfl⟩

/-- A choice of the arbiter keeps the history within its bound: it takes a queue entry of a sequenced class only where
there is room (R92 to R94). -/
theorem sendChoice_historyBounded {x : Choice} {s : State} (hb : s.tc.historyBounded s.nextId) (hx : s.tc.choice = some x) :
    (sendChoice x s).tc.historyBounded (sendChoice x s).nextId := by
  obtain ⟨fromHistory, fromQueue⟩ := Tc.choice_from hx
  have same {u : Tc} {m : Nat} (hm : s.nextId ≤ m) (hq : u.queue = s.tc.queue) (hh : u.history = s.tc.history)
      (lane : ∀ entry read left lines damaged, u.lane = .reading entry read left lines damaged false →
        entry < m ∧ (u.historyFill < 16 ∨ ∀ q ∈ u.queue, q.id ≠ entry)) : u.historyBounded m :=
    hb.shrinks hm (fun q h => ⟨q, hq ▸ h, rfl⟩) (fun c => by simp only [hh, Nat.le_refl])
      (fun c e h => ⟨e, hh ▸ h, rfl⟩) lane
  cases x with
  | ack => exact same (Nat.le_succ _) rfl rfl nofun
  | echo p => exact same (Nat.le_succ _) rfl rfl nofun
  | keepalive => exact same (Nat.le_succ _) rfl rfl nofun
  | again c e =>
    have he := fromHistory c e rfl
    have hid := hb.2.2.1 c e he
    simp only [sendChoice]
    split
    · obtain ⟨h1, h2⟩ := beginReads_tc e.id _ _ s
      rw [h1, h2]
      refine same (Nat.le_succ _) rfl rfl fun entry read left lines damaged hl => ?_
      cases hl
      exact ⟨Nat.lt_succ_of_lt hid.1, Or.inr hid.2⟩
    · have ids (d : Fin 3) : ((vget (Tc.sentAgain c e.id s.tc).history d).map (·.id)) = (vget s.tc.history d).map (·.id) := by
        by_cases hd : c = d
        · subst hd
          rw [show vget (Tc.sentAgain c e.id s.tc).history c = _ from vget_vmod_same ..]
          refine updateFirst_ids ?_ _
          exact fun _ => rfl
        · rw [show vget (Tc.sentAgain c e.id s.tc).history d = _ from vget_vmod_ne _ _ hd]
      exact hb.inPlace (Nat.le_refl _) rfl ids nofun
  | first q =>
    obtain ⟨hq, room⟩ := fromQueue q rfl
    have hid := hb.2.1 q hq
    simp only [sendChoice]
    split
    · rename_i hc
      obtain ⟨h1, h2⟩ := beginReads_tc q.id _ _ s
      rw [h1, h2]
      refine same (Nat.le_succ _) rfl rfl fun entry read left lines damaged hl => ?_
      cases hl
      exact ⟨Nat.lt_succ_of_lt hid, Or.inl (room (by rw [hc]; exact nofun))⟩
    · exact hb.shrinks (Nat.le_refl _) (fun p h => ⟨p, (List.mem_filter.mp h).1, rfl⟩) (fun _ => Nat.le_refl _)
        (fun c e h => ⟨e, h, rfl⟩) nofun
    · rename_i hc
      exact hb.joins (Nat.le_refl _) hid (room (by rw [hc]; exact nofun)) rfl rfl nofun
    · rename_i hc
      exact hb.joins (Nat.le_refl _) hid (room (by rw [hc]; exact nofun)) rfl rfl nofun

/-- The arbiter keeps the history within its bound. -/
theorem laneKick_historyBounded {s : State} (hb : s.tc.historyBounded s.nextId) :
    (laneKick s).tc.historyBounded (laneKick s).nextId := by
  unfold laneKick
  split
  · split
    · rename_i hx
      exact sendChoice_historyBounded hb hx
    · exact hb
  · exact hb

/-- The lane freed, the arbiter chooses, within the bound. -/
theorem laneFreed_historyBounded {s : State} (hb : s.tc.historyBounded s.nextId) :
    (laneFreed s).tc.historyBounded (laneFreed s).nextId :=
  laneKick_historyBounded (hb.shrinks (Nat.le_refl _) (fun q h => ⟨q, h, rfl⟩) (fun _ => Nat.le_refl _)
    (fun _ e h => ⟨e, h, rfl⟩) nofun)

/-- An entry handed over joins the queue under a new id (R90). -/
theorem uplinkJoin_historyBounded {content : Content} {s : State} (hb : s.tc.historyBounded s.nextId) :
    (uplinkJoin content s).tc.historyBounded (uplinkJoin content s).nextId := by
  have joined : ({ s.tc with queue := s.tc.queue ++ [⟨s.nextId, content⟩] } : Tc).historyBounded (s.nextId + 1) := by
    obtain ⟨b1, b2, b3, b4⟩ := hb
    refine ⟨b1, fun q hq => ?_, fun c e he => ⟨Nat.lt_succ_of_lt (b3 c e he).1, fun q hq => ?_⟩,
      fun entry read left lines damaged hl => ?_⟩
    · rcases List.mem_append.mp hq with h | h
      · exact Nat.lt_succ_of_lt (b2 q h)
      · rw [List.mem_singleton.mp h]
        exact Nat.lt_succ_self _
    · rcases List.mem_append.mp hq with h | h
      · exact (b3 c e he).2 q h
      · rw [List.mem_singleton.mp h]
        exact fun e' => Nat.lt_irrefl _ (e' ▸ (b3 c e he).1)
    · obtain ⟨x, y⟩ := b4 entry read left lines damaged hl
      refine ⟨Nat.lt_succ_of_lt x, y.imp id fun y q hq => ?_⟩
      rcases List.mem_append.mp hq with h | h
      · exact y q h
      · rw [List.mem_singleton.mp h]
        exact fun e' => Nat.lt_irrefl _ (e' ▸ x)
  unfold uplinkJoin
  split
  · exact hb
  · exact hb
  · split
    · exact hb
    · exact laneKick_historyBounded joined

/-! ### A MESSAGE's sending, and acks -/

theorem finishSlot_tc (n : Fin 3) (o : Outcome) (s : State) :
    (finishSlot n o s).nextId = s.nextId ∧
      (finishSlot n o s).tc = { s.tc with inProgress := vset s.tc.inProgress n false } := by
  constructor <;> rw [finishSlot, raise_eq] <;> rfl

/-- A slot mark lost leaves the history's entries in place. -/
theorem loseSlot_historyBounded {id : Nat} {n : Fin 3} {belonged : Bool} {s : State}
    (hb : s.tc.historyBounded s.nextId)
    (lane : ∀ entry read left lines damaged, s.tc.lane ≠ .reading entry read left lines damaged false) :
    (loseSlot id n belonged s).tc.historyBounded (loseSlot id n belonged s).nextId := by
  cases belonged with
  | false => exact hb
  | true =>
    have kept : ({ s.tc with
        history := vmod s.tc.history 2 (updateFirst (·.id == id) fun h => { h with belongs := false })
        histChange := s.tc.histChange + 1
        inProgress := vset s.tc.inProgress n false } : Tc).historyBounded s.nextId := by
      refine hb.inPlace (Nat.le_refl _) rfl (fun d => ?_) fun entry read left lines damaged hl =>
        absurd hl (lane entry read left lines damaged)
      by_cases hd : 2 = d
      · subst hd
        refine (congrArg _ (vget_vmod_same ..)).trans (updateFirst_ids ?_ _)
        exact fun _ => rfl
      · exact congrArg _ (vget_vmod_ne _ _ hd)
    rw [loseSlot, if_pos rfl, (finishSlot_tc ..).1, (finishSlot_tc ..).2]
    exact kept

/-- A transmission begun holds the lane with no reads. -/
theorem beginSend_reads (packet : List Byte) (id : Nat) (s : State) (entry read left : Nat)
    (lines : List (Nat × List Byte)) (damaged : Bool) :
    (beginSend packet id s).tc.lane ≠ .reading entry read left lines damaged false := nofun

/-- A transmission begun changes nothing else of what the bound rests on. -/
theorem beginSend_inPlace {packet : List Byte} {id n : Nat} {s : State} {t : Tc} (hb : t.historyBounded n)
    (hn : n ≤ s.nextId) (hq : s.tc.queue = t.queue)
    (ids : ∀ d, (vget s.tc.history d).map HistEntry.id = (vget t.history d).map HistEntry.id) :
    (beginSend packet id s).tc.historyBounded (beginSend packet id s).nextId :=
  hb.inPlace hn hq ids nofun

/-- A transmission begun as its entry moves to the history, which has room. -/
theorem beginSend_joins {packet : List Byte} {id : Nat} {s : State} {c : Fin 3} {e : UplinkEntry} {belongs : Bool}
    (hb : s.tc.historyBounded s.nextId) (hid : e.id < s.nextId) (room : s.tc.historyFill < 16) :
    (beginSend packet id (s.onTc (Tc.intoHistory c e belongs))).tc.historyBounded
      (beginSend packet id (s.onTc (Tc.intoHistory c e belongs))).nextId :=
  hb.joins (Nat.le_refl _) hid room rfl rfl nofun

/-- A MESSAGE whose reads are in joins the history where its reads found room, or is sent again (R93, R94). -/
theorem sendMessage_historyBounded {entry : Nat} {lines : List (Nat × List Byte)} {damaged : Bool} {s : State}
    (hb : s.tc.historyBounded s.nextId) (hid : entry < s.nextId)
    (room : s.tc.historyFill < 16 ∨ ∀ q ∈ s.tc.queue, q.id ≠ entry) :
    (sendMessage entry lines damaged s).tc.historyBounded (sendMessage entry lines damaged s).nextId := by
  unfold sendMessage
  split
  · exact laneFreed_historyBounded hb
  · rename_i n addr length sent hm
    cases sent with
    | some e =>
      refine loseSlot_historyBounded (beginSend_inPlace hb (Nat.le_refl _) rfl fun d => ?_) (beginSend_reads _ _ _)
      by_cases hd : 2 = d
      · subst hd
        refine (congrArg _ (vget_vmod_same ..)).trans (updateFirst_ids ?_ _)
        exact fun _ => rfl
      · exact congrArg _ (vget_vmod_ne _ _ hd)
    | none =>
      have full : s.tc.historyFill < 16 := by
        refine room.resolve_right fun h => ?_
        unfold findMessage at hm
        split at hm
        · rename_i q hq
          exact h _ (List.mem_of_find?_eq_some hq) (by simpa using List.find?_some hq)
        · split at hm
          · split at hm <;> cases hm
          · cases hm
      exact loseSlot_historyBounded (beginSend_joins hb hid full) (beginSend_reads _ _ _)

theorem finishSlots_tc (l : List (Fin 3)) (o : Outcome) (s : State) :
    (finishSlots l o s).nextId = s.nextId ∧
      (finishSlots l o s).tc = { s.tc with inProgress := (finishSlots l o s).tc.inProgress } := by
  induction l generalizing s with
  | nil => exact ⟨rfl, rfl⟩
  | cons n r ih =>
    obtain ⟨h1, h2⟩ := ih (finishSlot n o s)
    rw [(finishSlot_tc n o s).1] at h1
    rw [(finishSlot_tc n o s).2] at h2
    exact ⟨h1, h2⟩

/-- An ack removes the oldest entries of its class and keeps the bound (R95). -/
theorem applyAck_historyBounded {c : Fin 3} {f : AckField} {s : State} (hb : s.tc.historyBounded s.nextId) :
    (applyAck c f s).tc.historyBounded (applyAck c f s).nextId := by
  unfold applyAck
  simp only
  split
  · exact hb
  split
  · rw [(finishSlots_tc _ _ _).1, (finishSlots_tc _ _ _).2]
    have rest (k : Nat) (d : Fin 3) :
        (vget (vset s.tc.history c ((vget s.tc.history c).drop k)) d).Sublist (vget s.tc.history d) := by
      by_cases hd : c = d
      · subst hd
        rw [vget_vset_same]
        exact List.drop_sublist _ _
      · simp only [vget_vset_ne _ _ hd, List.Sublist.refl]
    refine hb.shrinksOnly (Nat.le_refl _) (fun q h => ?_) (fun d => ?_) ?_
    · revert h
      simp only [State.onTc]
      split <;> exact id
    · simp only [State.onTc]
      split <;> exact rest _ d
    · simp only [State.onTc]
      split <;> rfl
  · split
    · exact hb
    · split
      · exact hb
      · exact hb

end Sys2Proof.Machine
end

