-- ==== Sys2Proof/Laws/LiveWords.lean ====
section
/-!
SUPPORT. The path of a live word command: its write covers its own word alone and no record's final word, and so it is
merged, requested and, where it enables a byte, acted on with the value the word then has (R170, R174).
-/
namespace Sys2Proof.Machine

/-! ### Where the live words stand -/

theorem mem_allLiveWords (w : LiveWord) : w ∈ allLiveWords := by
  cases w <;> simp [allLiveWords, List.mem_finRange]

theorem allLiveWords_nodup : allLiveWords.Nodup := by decide +kernel

/-- A live word lies in the record area, in one line, apart from the other live words and from every final word. -/
theorem LiveWord.place (w : LiveWord) :
    w.offset < 0x1000 ∧ w.offset % 64 + 4 ≤ 64 ∧
    (∀ x ∈ liveWordsIn (w.offset / 64), x ≠ w →
      x.offset % 64 + 4 ≤ w.offset % 64 ∨ w.offset % 64 + 4 ≤ x.offset % 64) ∧
    ∀ k ∈ recordsEndingIn (w.offset / 64), k.seqOffset % 64 < w.offset % 64 ∨ w.offset % 64 + 4 ≤ k.seqOffset % 64 := by
  have h : ∀ w ∈ allLiveWords, w.offset < 0x1000 ∧ w.offset % 64 + 4 ≤ 64 ∧
      (∀ x ∈ liveWordsIn (w.offset / 64), x ≠ w →
        x.offset % 64 + 4 ≤ w.offset % 64 ∨ w.offset % 64 + 4 ≤ x.offset % 64) ∧
      ∀ k ∈ recordsEndingIn (w.offset / 64),
        k.seqOffset % 64 < w.offset % 64 ∨ w.offset % 64 + 4 ≤ k.seqOffset % 64 := by decide +kernel
  exact h w (mem_allLiveWords w)

/-! ### The bytes of the write -/

theorem toBytes_four (v : U32) : toBytes 4 v.toNat = (List.range 4).map fun i => v.extractLsb' (8 * i) 8 := by
  have e (i : Nat) : v.extractLsb' (8 * i) 8 = BitVec.ofNat 8 (v.toNat / 2 ^ (8 * i)) := by
    apply BitVec.eq_of_toNat_eq
    rw [BitVec.extractLsb'_toNat, Nat.shiftRight_eq_div_pow, BitVec.toNat_ofNat]
  simp only [List.range_succ, List.range_zero, List.nil_append, List.cons_append, List.map_cons, List.map_nil, e,
    toBytes, Nat.div_div_eq_div_mul]
  simp

/-- The bytes written are the word's enabled ones. -/
theorem mem_liveBytes {w : LiveWord} {v : U32} {enables : BitVec 4} {b : Nat × Byte} :
    b ∈ liveBytes w v enables ↔
      ∃ i, i < 4 ∧ enables.getLsbD i = true ∧ b = (w.offset % 64 + i, v.extractLsb' (8 * i) 8) := by
  simp only [liveBytes, List.mem_filter, toBytes_four, List.range_succ, List.range_zero, List.nil_append,
    List.cons_append, List.map_cons, List.map_nil, enumFrom, List.mem_cons, List.not_mem_nil, or_false]
  constructor
  · rintro ⟨rfl | rfl | rfl | rfl, h⟩
    · exact ⟨0, by decide, by simpa using h, by simp⟩
    · exact ⟨1, by decide, by simpa using h, by simp⟩
    · exact ⟨2, by decide, by simpa [Nat.add_assoc] using h, by simp [Nat.add_assoc]⟩
    · exact ⟨3, by decide, by simpa [Nat.add_assoc] using h, by simp [Nat.add_assoc]⟩
  · rintro ⟨i, hi, h, rfl⟩
    refine ⟨?_, by simpa using h⟩
    obtain rfl | rfl | rfl | rfl : i = 0 ∨ i = 1 ∨ i = 2 ∨ i = 3 := by omega
    all_goals simp [Nat.add_assoc]

theorem liveBytes_bounds {w : LiveWord} {v : U32} {enables : BitVec 4} {b : Nat × Byte}
    (h : b ∈ liveBytes w v enables) : w.offset % 64 ≤ b.1 ∧ b.1 < w.offset % 64 + 4 := by
  obtain ⟨i, hi, _, rfl⟩ := mem_liveBytes.mp h
  simp only
  omega

theorem liveBytes_pairwise (w : LiveWord) (v : U32) (enables : BitVec 4) :
    (liveBytes w v enables).Pairwise fun p q => p.1 < q.1 :=
  (enumFrom_pairwise _ _).filter _

theorem liveBytes_eq_nil_iff {w : LiveWord} {v : U32} {enables : BitVec 4} :
    liveBytes w v enables = [] ↔ enables = 0 := by
  constructor
  · intro h
    apply BitVec.eq_of_getLsbD_eq
    intro i hi
    cases hb : enables.getLsbD i with
    | false => simp
    | true =>
      have := (mem_liveBytes (w := w) (v := v)).mpr ⟨i, hi, hb, rfl⟩
      rw [h] at this
      cases this
  · rintro rfl
    rw [List.eq_nil_iff_forall_not_mem]
    intro b hb
    obtain ⟨i, _, h, _⟩ := mem_liveBytes.mp hb
    simp at h

/-! ### The merge -/

/-- The shadow after the merge: the word's enabled bytes, and every other byte as before. -/
theorem read_merge (m : Mem) (w : LiveWord) (v : U32) (enables : BitVec 4) (a : Nat) :
    (m.writeAll (64 * (w.offset / 64)) (liveBytes w v enables)).read a =
      if w.offset ≤ a ∧ a < w.offset + 4 ∧ enables.getLsbD (a - w.offset) = true then
        v.extractLsb' (8 * (a - w.offset)) 8
      else m.read a := by
  have hd := Nat.div_add_mod w.offset 64
  split
  · rename_i h
    have hn : ((liveBytes w v enables).map (·.1)).Nodup := by
      rw [List.nodup_iff_pairwise_ne, List.pairwise_map]
      exact (liveBytes_pairwise w v enables).imp fun h => Nat.ne_of_lt h
    have := Mem.read_writeAll_mem m (64 * (w.offset / 64)) _ hn
      (mem_liveBytes.mpr ⟨a - w.offset, by omega, h.2.2, rfl⟩)
    rwa [show 64 * (w.offset / 64) + (w.offset % 64 + (a - w.offset)) = a by omega] at this
  · rename_i h
    apply Mem.read_writeAll_ne
    rintro b hb e
    obtain ⟨i, hi, he, rfl⟩ := mem_liveBytes.mp hb
    simp only at e
    exact h ⟨by omega, by omega, by rwa [show a - w.offset = i by omega]⟩

/-- The value the word then has is the one its owner is handed. -/
theorem value_merge (s : State) (w : LiveWord) (v : U32) (enables : BitVec 4) :
    BitVec.ofNat 32 (ofBytes ((s.pu.shadow.writeAll (64 * (w.offset / 64)) (liveBytes w v enables)).bytes w.offset 4)) =
      s.liveValue w v enables := by
  have e (i : Nat) (hi : i < 4) : (s.pu.shadow.writeAll (64 * (w.offset / 64)) (liveBytes w v enables)).read (w.offset + i) =
      if enables.getLsbD i then v.extractLsb' (8 * i) 8 else s.pu.shadow.read (w.offset + i) := by
    rw [read_merge, Nat.add_sub_cancel_left]
    simp [hi]
  unfold State.liveValue
  congr 2
  simp only [Mem.bytes]
  apply List.map_congr_left
  intro i hi
  exact e i (List.mem_range.mp hi)

/-! ### The plan unit's part -/

theorem LiveWord.coveredBy_iff (bytes : List (Nat × Byte)) (w : LiveWord) :
    w.coveredBy bytes = true ↔ ∃ b ∈ bytes, w.offset % 64 ≤ b.1 ∧ b.1 < w.offset % 64 + 4 := by
  simp [LiveWord.coveredBy, List.any_eq_true]

/-- Of its line's live words the write covers its own alone, and that one only if it enables a byte of it. -/
theorem liveWords_covered (w : LiveWord) (v : U32) (enables : BitVec 4) {x : LiveWord}
    (hx : x ∈ liveWordsIn (w.offset / 64)) :
    x.coveredBy (liveBytes w v enables) = decide (x = w ∧ enables ≠ 0) := by
  rw [Bool.eq_iff_iff, LiveWord.coveredBy_iff, decide_eq_true_iff]
  constructor
  · rintro ⟨b, hb, h⟩
    have hw := liveBytes_bounds hb
    refine ⟨Classical.byContradiction fun hne => ?_, fun h0 => ?_⟩
    · have := w.place.2.2.1 x hx hne
      omega
    · rw [liveBytes_eq_nil_iff.mpr h0] at hb
      cases hb
  · rintro ⟨rfl, h⟩
    obtain ⟨b, hb⟩ := List.exists_mem_of_ne_nil _ fun e => h (liveBytes_eq_nil_iff.mp e)
    exact ⟨b, hb, liveBytes_bounds hb⟩

/-- The write puts nothing in a record's final word. -/
theorem finalWord_liveBytes (w : LiveWord) (v : U32) (enables : BitVec 4) {k : RecordKind}
    (hk : k ∈ recordsEndingIn (w.offset / 64)) : k.finalWord (liveBytes w v enables) = none := by
  have e : (liveBytes w v enables).lookup (k.seqOffset % 64 + 0) = none := by
    apply lookup_none
    intro b hb e
    have := liveBytes_bounds hb
    have := w.place.2.2.2 k hk
    omega
  simp only [RecordKind.finalWord, e]

/-- The plan unit's part of a live word's write: the bytes are merged, and the owner acts on the value the word then has,
unless the write enables no byte. -/
theorem planWrite_live (w : LiveWord) (v : U32) (enables : BitVec 4) (s : State) :
    planWrite (w.offset / 64 * 64) (liveBytes w v enables) s =
      let s' := s.onPu fun p =>
        { p with shadow := p.shadow.writeAll (64 * (w.offset / 64)) (liveBytes w v enables) }
      if enables = 0 then s' else liveAct w (s.liveValue w v enables) s' := by
  have hline : w.offset / 64 * 64 / 64 = w.offset / 64 := by omega
  have none_armed (l : List RecordKind) (hl : ∀ k ∈ l, k ∈ recordsEndingIn (w.offset / 64)) (s : State) :
      l.foldl (submitIfArmed (liveBytes w v enables)) s = s := by
    induction l with
    | nil => rfl
    | cons k r ih =>
      rw [List.foldl_cons, submitIfArmed, finalWord_liveBytes w v enables (hl k List.mem_cons_self)]
      exact ih fun j hj => hl j (List.mem_cons_of_mem _ hj)
  simp only [planWrite, hline, none_armed _ (fun _ h => h)]
  split
  · rename_i h
    have : (liveWordsIn (w.offset / 64)).filter (LiveWord.coveredBy (liveBytes w v enables)) = [] := by
      rw [List.filter_eq_nil_iff]
      intro x hx
      rw [liveWords_covered w v enables hx, decide_eq_true_iff]
      exact fun e => e.2 h
    rw [this, List.foldl_nil]
  · rename_i h
    have hw : w ∈ liveWordsIn (w.offset / 64) := List.mem_filter.mpr ⟨mem_allLiveWords w, by simp⟩
    rw [← value_merge s]
    apply foldl_one
    · exact (allLiveWords_nodup.filter _).filter _
    · exact List.mem_filter.mpr ⟨hw, by rw [liveWords_covered w v enables hw]; exact decide_eq_true ⟨rfl, h⟩⟩
    · intro x hx hne
      have := List.mem_filter.mp hx
      simp [liveWords_covered w v enables this.1, hne] at this

/-! ### The command -/

/-- A live word command that the port takes: its line write does what it does for itself, and then the owner acts on the
value handed over, unless the write enables no byte. -/
theorem liveWrite_of_taking {s : State} (h : s.taking) (w : LiveWord) (v : U32) (enables : BitVec 4) :
    ∃ u, s.mergesWord w v enables u ∧ u = s.writtenAs u ∧ (enables = 0 → u.pu.shadow = s.pu.shadow) ∧
      liveWrite w v enables s = if enables = 0 then u else liveAct w (s.liveValue w v enables) u := by
  have hp := w.place
  have hlt : ∀ p ∈ liveBytes w v enables, p.1 < 64 := fun p hp' => by
    have := liveBytes_bounds hp'
    omega
  have hb := enabledBytes_lineData hlt (liveBytes_pairwise w v enables)
  have ha := arm_line s w.offset hp.1
  have hl : (BitVec.ofNat 25 ((s.planBase + w.offset) / 64)).toNat = (s.planBase + w.offset) / 64 := by
    have h1 := planBase_aligned s.pu.sel
    simp only [State.planBase] at *
    omega
  refine ⟨(request .hostWrite ((s.planBase + w.offset) / 64) (.write (liveBytes w v enables)) s).onPu fun p =>
    { p with shadow := p.shadow.writeAll (64 * (w.offset / 64)) (liveBytes w v enables) }, ⟨?_, ?_⟩, ?_, ?_, ?_⟩
  · exact read_merge s.pu.shadow w v enables
  · intro h0
    exact mem_request _ _ _ s fun e => h0 (liveBytes_eq_nil_iff.mp (ReqOp.write.inj e))
  · rw [request_eq]
    simp only [State.onPu, State.writtenAs, request_da]
    rw [Da.kick_eq]
    rfl
  · intro h0
    simp only [liveBytes_eq_nil_iff.mpr h0]
    rfl
  · simp only [liveWrite, liveTx]
    rw [hostArrive_of_taking h]
    simp only [takeTx, takeWrite, hb, ha]
    rw [classify_record s (show w.offset / 64 * 64 < 0x1000 by omega)]
    simp only
    rw [planWrite_live, hl]
    rfl

end Sys2Proof.Machine
end

