-- ==== Sys2Proof/Laws/Releases.lean ====
section
/-!
SUPPORT. What a completion releases of the work that stands in order (R19, R64, R85, R105, R115): each release function
counts off the leading jobs with no write left, a sensor ring advances over the longest run that stands complete, and the
slices released in turn move the frontiers and complete the bands.
-/
namespace Sys2Proof.Machine

/-! ### Jobs in order -/

theorem countsOff_cons {α : Type} {left : α → Nat} {j : α} {jobs gone kept : List α}
    (h : countsOff left (j :: jobs) gone kept) :
    (left j ≠ 0 ∧ gone = [] ∧ kept = j :: jobs) ∨
      (left j = 0 ∧ ∃ gone', gone = j :: gone' ∧ countsOff left jobs gone' kept) := by
  obtain ⟨heq, hg, hk⟩ := h
  cases gone with
  | nil =>
    rw [List.nil_append] at heq
    subst heq
    exact Or.inl ⟨hk j rfl, rfl, rfl⟩
  | cons x gone' =>
    obtain ⟨rfl, rfl⟩ := List.cons.inj heq
    exact Or.inr ⟨hg j List.mem_cons_self, gone', rfl, rfl, fun y hy => hg y (List.mem_cons_of_mem _ hy), hk⟩

theorem countsOff_nil {α : Type} {left : α → Nat} {gone kept : List α} (h : countsOff left [] gone kept) :
    gone = [] ∧ kept = [] := List.append_eq_nil_iff.mp h.1.symm

/-- The message ring counts off its leading complete entries (R85). -/
theorem releaseEntries_eq {jobs gone kept : List EntryJob} (h : countsOff EntryJob.left jobs gone kept) :
    releaseEntries jobs = (gone.length, kept) := by
  induction jobs generalizing gone with
  | nil =>
    obtain ⟨rfl, rfl⟩ := countsOff_nil h
    rfl
  | cons j r ih =>
    rcases countsOff_cons h with ⟨hj, rfl, rfl⟩ | ⟨hj, g, rfl, hr⟩
    · exact if_neg hj
    · rw [releaseEntries, if_pos hj, ih hr]
      rfl

/-- Ring 0 counts off its leading complete payloads (R105). -/
theorem releaseAudio_eq {jobs gone kept : List AudioJob} (h : countsOff AudioJob.left jobs gone kept) :
    releaseAudio jobs = ((gone.map AudioJob.frames).sum, kept) := by
  induction jobs generalizing gone with
  | nil =>
    obtain ⟨rfl, rfl⟩ := countsOff_nil h
    rfl
  | cons j r ih =>
    rcases countsOff_cons h with ⟨hj, rfl, rfl⟩ | ⟨hj, g, rfl, hr⟩
    · exact if_neg hj
    · rw [releaseAudio, if_pos hj, ih hr]
      rfl

/-- Ring 2 counts off its leading complete blocks, of 16 frames each (R115). -/
theorem releaseBlocks_eq {jobs gone kept : List CaptureBlock} (h : countsOff CaptureBlock.left jobs gone kept) :
    releaseBlocks jobs = (16 * gone.length, kept) := by
  induction jobs generalizing gone with
  | nil =>
    obtain ⟨rfl, rfl⟩ := countsOff_nil h
    rfl
  | cons j r ih =>
    rcases countsOff_cons h with ⟨hj, rfl, rfl⟩ | ⟨hj, g, rfl, hr⟩
    · exact if_neg hj
    · rw [releaseBlocks, if_pos hj, ih hr]
      rfl

/-! ### Sensor rings -/

/-- A complete sensor record leads the ring one further (R64). -/
theorem SensorRing.advance_succ {n : Nat} {r : SensorRing} (h : r.produce ∈ r.done) :
    SensorRing.advance (n + 1) r =
      SensorRing.advance n { r with produce := r.produce + 1, done := r.done.erase r.produce } :=
  if_pos (List.contains_iff_mem.mpr h)

/-- A sensor ring whose next record is not complete stays (R64). -/
theorem SensorRing.advance_stays {n : Nat} {r : SensorRing} (h : r.produce ∉ r.done) :
    SensorRing.advance n r = r := by
  cases n with
  | zero => rfl
  | succ n => exact if_neg fun hc => h (List.contains_iff_mem.mp hc)

/-- The place `i` after a ring's produce index. -/
def SensorRing.nth (r : SensorRing) (i : Nat) : U16 := r.produce + BitVec.ofNat 16 i

theorem SensorRing.run_short {r : SensorRing} {k : Nat} (hi : ∀ i, i < k → r.nth i ∈ r.done)
    (hk : r.nth k ∉ r.done) : k < 65536 := by
  refine Nat.lt_of_not_le fun hle => hk ?_
  have same : r.nth (k % 65536) = r.nth k :=
    congrArg (r.produce + ·) (BitVec.eq_of_toNat_eq (by simp))
  exact same ▸ hi _ (Nat.lt_of_lt_of_le (Nat.mod_lt _ (by decide)) hle)

/-- A sensor ring advances over the longest run of complete records that stands next, and forgets them (R64). -/
theorem SensorRing.advance_run {r : SensorRing} {n k : Nat} (hn : r.done.length ≤ n)
    (hi : ∀ i, i < k → r.nth i ∈ r.done) (hk : r.nth k ∉ r.done) : SensorRing.advance n r =
      { r with produce := r.nth k, done := (List.range k).foldl (fun l i => l.erase (r.nth i)) r.done } := by
  have short := SensorRing.run_short hi hk
  induction k generalizing n r with
  | zero =>
    have h0 : r.nth 0 = r.produce := BitVec.add_zero _
    rw [SensorRing.advance_stays (h0 ▸ hk), h0]
    rfl
  | succ k ih =>
    have h0 : r.nth 0 = r.produce := BitVec.add_zero _
    have hm : r.produce ∈ r.done := h0 ▸ hi 0 (Nat.succ_pos k)
    have hpos := List.length_pos_of_mem hm
    obtain ⟨n, rfl⟩ : ∃ m, n = m + 1 := ⟨n - 1, by omega⟩
    let r' : SensorRing := { r with produce := r.produce + 1, done := r.done.erase r.produce }
    have hs (i : Nat) : r'.nth i = r.nth (i + 1) :=
      (BitVec.add_assoc ..).trans (congrArg (r.produce + ·) (BitVec.eq_of_toNat_eq (by simp [Nat.add_comm])))
    have hne (i : Nat) (h : i < k) : r.nth (i + 1) ≠ r.produce := fun e => by
      have := congrArg BitVec.toNat (BitVec.add_right_eq_self.mp e)
      simp at this
      omega
    have step := ih (r := r') (n := n) (by simp only [r']; rw [List.length_erase_of_mem hm]; omega)
      (fun i h => hs i ▸ (List.mem_erase_of_ne (hne i h)).mpr (hi (i + 1) (by omega)))
      (fun h => hk (hs k ▸ List.mem_of_mem_erase h)) (by omega)
    rw [SensorRing.advance_succ hm, step, hs k, List.range_succ_eq_map, List.foldl_cons, List.foldl_map, h0]
    simp only [hs]
    rfl

/-! ### Slices -/

/-- No write is left of a slice, nor of an earlier one of its frame (R19). -/
def standing (slices : List (SliceJob × Nat)) (p : SliceJob × Nat) : Bool :=
  slices.all fun q => q.1.ident != p.1.ident || p.2 < q.2 || q.1.left == 0

theorem releaseSlices_aux (blocked : List Nat) (jobs : List SliceJob) (k : Nat) (free : SliceJob × Nat → Bool)
    (hfree : ∀ p, free p = (!blocked.contains p.1.ident && standing (jobs.zipIdx k) p)) :
    releaseSlices blocked jobs =
      (((jobs.zipIdx k).filter free).map (·.1), ((jobs.zipIdx k).filter fun p => !free p).map (·.1)) := by
  induction jobs generalizing blocked k free with
  | nil => rfl
  | cons j r ih =>
    have later (p) (h : p ∈ r.zipIdx (k + 1)) : k < p.2 := List.le_snd_of_mem_zipIdx h
    have head : free (j, k) = (!blocked.contains j.ident && j.left == 0) := by
      have : (r.zipIdx (k + 1)).all (fun q => q.1.ident != j.ident || decide (k < q.2) || q.1.left == 0) = true :=
        List.all_eq_true.mpr fun q hq => by simp [later q hq]
      simp [hfree, standing, List.zipIdx_cons, this]
    have tail (p) (h : p ∈ r.zipIdx (k + 1)) : free p =
        (!blocked.contains p.1.ident && ((j.ident != p.1.ident || j.left == 0) && standing (r.zipIdx (k + 1)) p)) := by
      have : decide (p.2 < k) = false := decide_eq_false (by have := later p h; omega)
      simp [hfree, standing, List.zipIdx_cons, this]
    have rest (b : List Nat) (hb : ∀ p : SliceJob × Nat, b.contains p.1.ident =
        (blocked.contains p.1.ident || !(j.ident != p.1.ident || j.left == 0))) :
        releaseSlices b r = (((r.zipIdx (k + 1)).filter free).map (·.1),
          ((r.zipIdx (k + 1)).filter fun p => !free p).map (·.1)) := by
      have hf (p) (h : p ∈ r.zipIdx (k + 1)) :
          free p = (!b.contains p.1.ident && standing (r.zipIdx (k + 1)) p) := by
        rw [tail p h, hb p, Bool.not_or, Bool.not_not, Bool.and_assoc]
      rw [ih b (k + 1) _ fun _ => rfl, List.filter_congr hf, List.filter_congr fun p h => congrArg not (hf p h)]
    have keeps (h : free (j, k) = false) : ((((j :: r).zipIdx k).filter free).map (·.1),
        (((j :: r).zipIdx k).filter fun p => !free p).map (·.1)) =
        (((r.zipIdx (k + 1)).filter free).map (·.1),
          j :: ((r.zipIdx (k + 1)).filter fun p => !free p).map (·.1)) := by
      rw [List.zipIdx_cons, List.filter_cons_of_neg (by simp [h]), List.filter_cons_of_pos (by simp [h])]
      rfl
    rw [releaseSlices]
    cases hb : blocked.contains j.ident with
    | true =>
      rw [rest blocked fun p => ?_, keeps (by rw [head, hb]; rfl)]
      · rfl
      · by_cases he : j.ident = p.1.ident
        · rw [← he, hb]; rfl
        · rw [(bne_iff_ne.mpr he : (j.ident != p.1.ident) = true)]; simp
    | false =>
      by_cases hl : j.left = 0
      · rw [if_neg Bool.false_ne_true, if_pos hl, rest blocked fun p => by simp [hl], List.zipIdx_cons,
          List.filter_cons_of_pos (by simp only [head, hb, hl]; rfl),
          List.filter_cons_of_neg (by simp only [head, hb, hl]; decide)]
        rfl
      · rw [if_neg Bool.false_ne_true, if_neg hl, rest (j.ident :: blocked) fun p => ?_,
          keeps (by rw [head, beq_eq_false_iff_ne.mpr hl, Bool.and_false])]
        · have hl' : (j.left == 0) = false := beq_eq_false_iff_ne.mpr hl
          rw [List.contains_cons, hl', Bool.or_false, Bool.or_comm]
          congr 1
          rw [bne, Bool.not_not, Bool.beq_comm]

/-- The slices released are those with no write left of them, nor of an earlier one of their frame (R19). -/
theorem releaseSlices_eq (jobs : List SliceJob) :
    let slices := jobs.zipIdx
    releaseSlices [] jobs =
      ((slices.filter (standing slices)).map (·.1), (slices.filter fun p => !standing slices p).map (·.1)) :=
  releaseSlices_aux [] jobs 0 _ fun _ => (Bool.true_and _).symm

/-! ### Deposit frontiers -/

/-- A surface whose deposit frontier comes to a row: the bands up to there are complete, unless the surface is FREE or not
the TETHER's (R19). -/
def Surface.deposited (row : Nat) (f : Surface) : Surface :=
  match f.config with
  | none => f
  | some c =>
    if f.state ≠ .free ∧ c.owner = .tether then
      { f with bands := finishBands (if row + 1 = c.height then c.bandCount else (row + 1) / c.bandRows) f.bands }
    else f

/-- Whether a slice moves the deposit frontier of a surface, as the frontiers stand. -/
def SliceJob.moves (t : Tc) (m : Fin 6) (j : SliceJob) : Bool :=
  j.surface == m && (vget t.frontiers m).openedBy == some j.ident

/-- A frontier at a row changes its own surface's bands and nothing else (R19). -/
theorem depositBands_at (n : Fin 6) (row : Nat) (s : State) (m : Fin 6) :
    let u := depositBands n row s
    u.st = { s.st with surfaces := u.st.surfaces } ∧ u.tc = s.tc ∧
    u.st.surface m = if n = m then (s.st.surface m).deposited row else s.st.surface m := by
  have stays (hu : depositBands n row s = s) (hd : (s.st.surface n).deposited row = s.st.surface n) :
      let u := depositBands n row s
      u.st = { s.st with surfaces := u.st.surfaces } ∧ u.tc = s.tc ∧
      u.st.surface m = if n = m then (s.st.surface m).deposited row else s.st.surface m := by
    rw [hu]
    refine ⟨rfl, rfl, ?_⟩
    split
    · rename_i hm
      rw [← hm, hd]
    · rfl
  cases h : (s.st.surface n).config with
  | none => exact stays (by simp only [depositBands, h]) (by simp only [Surface.deposited, h])
  | some c =>
    by_cases hc : (s.st.surface n).state ≠ .free ∧ c.owner = .tether
    · have hu : depositBands n row s = s.onSt (St.onSurface n fun f => { f with
          bands := finishBands (if row + 1 = c.height then c.bandCount else (row + 1) / c.bandRows) f.bands }) := by
        simp only [depositBands, h]
        exact if_pos hc
      rw [hu]
      refine ⟨rfl, rfl, ?_⟩
      by_cases hm : n = m
      · subst hm
        rw [if_pos rfl]
        have hd : (s.st.surface n).deposited row = { s.st.surface n with
            bands := finishBands (if row + 1 = c.height then c.bandCount else (row + 1) / c.bandRows)
              (s.st.surface n).bands } := by
          simp only [Surface.deposited]
          split
          · rename_i h'
            exact absurd (h.symm.trans h') nofun
          · rename_i c' h'
            cases h.symm.trans h'
            exact if_pos hc
        rw [hd]
        exact vget_vmod_same ..
      · rw [if_neg hm]
        exact vget_vmod_ne _ _ hm
    · exact stays (by simp only [depositBands, h]; exact if_neg hc)
        (by
          simp only [Surface.deposited, h]
          exact if_neg hc)

/-- What one slice's release brings a surface and its frontier (R19). -/
theorem advanceDeposit_at (j : SliceJob) (s : State) (m : Fin 6) :
    let u := advanceDeposit j.surface j.ident j.lastRow s
    let old := vget s.tc.frontiers m
    u.st = { s.st with surfaces := u.st.surfaces } ∧ u.tc = { s.tc with frontiers := u.tc.frontiers } ∧
    vget u.tc.frontiers m = (if j.moves s.tc m then { old with deposit := some j.lastRow } else old) ∧
    u.st.surface m = if j.moves s.tc m then (s.st.surface m).deposited j.lastRow else s.st.surface m := by
  intro u old
  by_cases ho : (vget s.tc.frontiers j.surface).openedBy = some j.ident
  · have hu : u = depositBands j.surface j.lastRow (s.onTc fun t => { t with
        frontiers := vmod t.frontiers j.surface fun x => { x with deposit := some j.lastRow } }) := if_pos ho
    obtain ⟨h1, h2, h3⟩ := depositBands_at j.surface j.lastRow (s.onTc fun t => { t with
        frontiers := vmod t.frontiers j.surface fun x => { x with deposit := some j.lastRow } }) m
    rw [← hu] at h1 h2 h3
    refine ⟨h1, by rw [h2]; rfl, ?_, ?_⟩
    · rw [h2]
      by_cases hm : j.surface = m
      · subst hm
        rw [if_pos (by simp [SliceJob.moves, ho])]
        exact vget_vmod_same ..
      · rw [if_neg (by simp [SliceJob.moves, hm])]
        exact vget_vmod_ne _ _ hm
    · rw [h3]
      by_cases hm : j.surface = m
      · subst hm
        rw [if_pos rfl, if_pos (by simp [SliceJob.moves, ho])]
        rfl
      · rw [if_neg hm, if_neg (by simp [SliceJob.moves, hm])]
        rfl
  · have hmove : j.moves s.tc m = false := by
      by_cases hm : j.surface = m
      · subst hm
        simp [SliceJob.moves, ho]
      · simp [SliceJob.moves, hm]
    have hu : u = s := if_neg ho
    rw [hmove, hu]
    exact ⟨rfl, rfl, rfl, rfl⟩

/-- What the release of slices in turn brings a surface and its frontier (R19): the slices of the frame that last opened
the surface count, and the frontier ends at the last of them. -/
theorem advanceDeposits_at (l : List SliceJob) (s : State) (m : Fin 6) :
    let u := l.foldl (fun s j => advanceDeposit j.surface j.ident j.lastRow s) s
    let old := vget s.tc.frontiers m
    let moves := l.filter (SliceJob.moves s.tc m)
    u.st = { s.st with surfaces := u.st.surfaces } ∧ u.tc = { s.tc with frontiers := u.tc.frontiers } ∧
    vget u.tc.frontiers m = { old with deposit := (moves.getLast?.map SliceJob.lastRow).or old.deposit } ∧
    u.st.surface m = moves.foldl (fun f j => f.deposited j.lastRow) (s.st.surface m) := by
  induction l generalizing s with
  | nil => exact ⟨rfl, rfl, rfl, rfl⟩
  | cons j r ih =>
    obtain ⟨a1, a2, a3, a4⟩ := advanceDeposit_at j s m
    obtain ⟨b1, b2, b3, b4⟩ := ih (advanceDeposit j.surface j.ident j.lastRow s)
    have same : SliceJob.moves (advanceDeposit j.surface j.ident j.lastRow s).tc m = SliceJob.moves s.tc m := by
      funext x
      have : (vget (advanceDeposit j.surface j.ident j.lastRow s).tc.frontiers m).openedBy =
          (vget s.tc.frontiers m).openedBy := by
        rw [a3]
        cases j.moves s.tc m <;> rfl
      rw [SliceJob.moves, SliceJob.moves, this]
    simp only [List.foldl_cons]
    rw [same] at b3 b4
    refine ⟨b1.trans (by rw [a1]), b2.trans (by rw [a2]), ?_, ?_⟩
    · rw [b3, a3]
      cases hj : j.moves s.tc m
      · rw [List.filter_cons_of_neg (by simp [hj])]
        rfl
      · rw [List.filter_cons_of_pos hj, if_pos rfl]
        cases h : r.filter (SliceJob.moves s.tc m) with
        | nil => rfl
        | cons x t =>
          rw [List.getLast?_cons_cons]
          cases hx : (x :: t).getLast? with
          | none => exact absurd (List.getLast?_eq_none_iff.mp hx) (List.cons_ne_nil _ _)
          | some y => rfl
    · rw [b4, a4]
      cases hj : j.moves s.tc m
      · rw [List.filter_cons_of_neg (by simp [hj])]
        rfl
      · rw [List.filter_cons_of_pos hj]
        rfl

/-- The first `n` bands are finished, the others stay. -/
theorem finishBands_getElem? (n : Nat) (l : List Band) (i : Nat) :
    (finishBands n l)[i]? = l[i]?.map fun b => if i < n then b.finish else b := by
  induction n generalizing l i with
  | zero => simp [finishBands]
  | succ n ih =>
    cases l with
    | nil => simp [finishBands]
    | cons b r =>
      cases i with
      | zero => simp [finishBands]
      | succ i => simp [finishBands, ih]

/-- The bands that a row of a deposit frontier reaches. -/
def SurfaceConfig.depositCount (c : SurfaceConfig) (row : Nat) : Nat :=
  if row + 1 = c.height then c.bandCount else (row + 1) / c.bandRows

/-- A surface that no frontier reaches, or that ignores it, keeps its bands. -/
theorem Surface.deposited_stays {f : Surface} (h : f.state = .free ∨ f.ownedBy .tether = false) (rows : List SliceJob) :
    rows.foldl (fun f j => f.deposited j.lastRow) f = f := by
  have one (row : Nat) : f.deposited row = f := by
    simp only [Surface.deposited]
    split
    · rfl
    · rename_i c hc
      refine if_neg fun hh => ?_
      rcases h with h | h
      · exact hh.1 h
      · simp [Surface.ownedBy, hc, hh.2] at h
  induction rows with
  | nil => rfl
  | cons j r ih => rw [List.foldl_cons, one, ih]

/-- The bands of a TETHER-owned surface in use that the rows of a frontier reach in turn are complete, with LATE on those
scanned before (R7, R19). -/
theorem Surface.deposited_bands {c : SurfaceConfig} (rows : List SliceJob) (f : Surface) (hc : f.config = some c)
    (ho : c.owner = .tether) (hs : f.state ≠ .free) :
    let u := rows.foldl (fun f j => f.deposited j.lastRow) f
    let reached (i : Nat) : Prop := ∃ j ∈ rows, i < c.depositCount j.lastRow
    u = { f with bands := u.bands } ∧ u.bands.length = f.bands.length ∧
    ∀ i b, f.bands[i]? = some b → ∃ b', u.bands[i]? = some b' ∧
      (b'.complete = true ↔ b.complete = true ∨ reached i) ∧
      (b'.late = true ↔ b.late = true ∨ (b.complete = false ∧ b.scanned = true ∧ reached i)) := by
  induction rows generalizing f with
  | nil => exact ⟨rfl, rfl, fun i b hb => ⟨b, hb, by simp, by simp⟩⟩
  | cons j r ih =>
    have hf : f.deposited j.lastRow = { f with bands := finishBands (c.depositCount j.lastRow) f.bands } := by
      simp only [Surface.deposited]
      split
      · rename_i h
        exact absurd (hc.symm.trans h) nofun
      · rename_i c' h
        cases hc.symm.trans h
        exact if_pos ⟨hs, ho⟩
    obtain ⟨h1, h2, h3⟩ := ih (f.deposited j.lastRow) (by rw [hf]; exact hc) (by rw [hf]; exact hs)
    simp only [List.foldl_cons]
    have hlen (n : Nat) (l : List Band) : (finishBands n l).length = l.length := by
      induction n generalizing l with
      | zero => rfl
      | succ n ih => cases l <;> simp [finishBands, ih]
    refine ⟨h1.trans (by rw [hf]), h2.trans (by rw [hf]; exact hlen ..), fun i b hb => ?_⟩
    have hb1 : (f.deposited j.lastRow).bands[i]? =
        some (if i < c.depositCount j.lastRow then b.finish else b) := by
      rw [hf]
      simp [finishBands_getElem?, hb]
    obtain ⟨b', e, h4, h5⟩ := h3 i _ hb1
    refine ⟨b', e, h4.trans ?_, h5.trans ?_⟩
    · simp only [List.mem_cons, exists_eq_or_imp]
      by_cases hi : i < c.depositCount j.lastRow <;> cases hcb : b.complete <;> simp [hi, Band.finish, hcb]
    · simp only [List.mem_cons, exists_eq_or_imp]
      by_cases hi : i < c.depositCount j.lastRow <;> cases hcb : b.complete <;> simp [hi, Band.finish, hcb]

end Sys2Proof.Machine
end

