-- ==== Sys2Proof/Laws/Status.lean ====
section
/-!
SUPPORT. The layout of a status page line (R188): which bytes stand at which offsets. `Shows l ps` says that the bytes
`l` hold the fields `ps` at their offsets and 00h everywhere else; there is one lemma for each way a line is put together.
-/
namespace Sys2Proof.Machine

/-- The bytes hold each field at its offset, and 00h wherever no field stands. -/
def Shows (l : List Byte) (ps : List Place) : Prop :=
  (∀ p ∈ ps, bytesAt l p.1 p.2.length = p.2) ∧
  ∀ i, (∀ p ∈ ps, i < p.1 ∨ p.1 + p.2.length ≤ i) → l.getD i 0 = 0

/-- Every field ends by byte `n`. -/
def Within (n : Nat) (ps : List Place) : Prop := ∀ p ∈ ps, p.1 + p.2.length ≤ n

/-- The same fields further on. -/
def shift (n : Nat) (ps : List Place) : List Place := ps.map fun p => (n + p.1, p.2)

theorem shows_nil : Shows [] [] := ⟨by simp, by simp⟩

theorem shows_zeros (n : Nat) : Shows (zeros n) [] := by
  refine ⟨by simp, fun i _ => ?_⟩
  by_cases h : i < n <;> simp [zeros, List.getD_eq_getElem?_getD, h]

/-- The bytes of one field. -/
theorem shows_bytes (b : List Byte) : Shows b [(0, b)] := by
  refine ⟨by simp [bytesAt], fun i h => ?_⟩
  have := h (0, b) (by simp)
  simp only [Nat.not_lt_zero, false_or, Nat.zero_add] at this
  simp [List.getD_eq_getElem?_getD, this]

/-- The same fields in another order, or named twice. -/
theorem Shows.congr {l : List Byte} {ps qs : List Place} (h : Shows l ps) (e : ∀ p, p ∈ ps ↔ p ∈ qs) : Shows l qs :=
  ⟨fun p hp => h.1 p ((e p).2 hp), fun i hi => h.2 i fun p hp => hi p ((e p).1 hp)⟩

/-- A field of zeros need not be named. -/
theorem Shows.drop_zero {l : List Byte} {p : Place} {ps : List Place} (h : Shows l (p :: ps))
    (z : ∀ b ∈ p.2, b = 0) : Shows l ps := by
  refine ⟨fun q hq => h.1 q (by simp [hq]), fun i hi => ?_⟩
  by_cases hp : i < p.1 ∨ p.1 + p.2.length ≤ i
  · exact h.2 i fun q hq => by
      rcases List.mem_cons.1 hq with rfl | hq
      · exact hp
      · exact hi q hq
  · have e := h.1 p (by simp)
    have : bytesAt l p.1 p.2.length = p.2 := e
    have hlt : i - p.1 < p.2.length := by omega
    have : l[i]? = some (p.2[i - p.1]) := by
      have := congrArg (·[i - p.1]?) e
      simp only [bytesAt, List.getElem?_take, List.getElem?_drop, hlt, if_true, List.getElem?_eq_getElem hlt] at this
      rwa [show p.1 + (i - p.1) = i by omega] at this
    rw [List.getD_eq_getElem?_getD, this]
    simpa using z _ (List.getElem_mem hlt)

/-- Two strings one after the other. -/
theorem Shows.append {l m : List Byte} {ps qs : List Place} (hl : Shows l ps) (hm : Shows m qs)
    (w : Within l.length ps) : Shows (l ++ m) (ps ++ shift l.length qs) := by
  refine ⟨fun p hp => ?_, fun i hi => ?_⟩
  · rcases List.mem_append.1 hp with hp | hp
    · have h1 := hl.1 p hp
      have h2 := w p hp
      simp only [bytesAt] at h1 ⊢
      rw [List.drop_append_of_le_length (by omega), List.take_append_of_le_length (by simp; omega), h1]
    · obtain ⟨q, hq, rfl⟩ := List.mem_map.1 hp
      have h1 := hm.1 q hq
      simpa [bytesAt, List.drop_append, List.drop_of_length_le (Nat.le_add_right l.length q.1)] using h1
  · by_cases h : i < l.length
    · have := hl.2 i fun p hp => hi p (by simp [hp])
      simpa [List.getD_eq_getElem?_getD, List.getElem?_append_left h] using this
    · have := hm.2 (i - l.length) fun q hq => by
        have := hi (l.length + q.1, q.2) (List.mem_append_right _ (List.mem_map.2 ⟨q, hq, rfl⟩))
        simp only at this
        omega
      simpa [List.getD_eq_getElem?_getD, List.getElem?_append_right (Nat.le_of_not_lt h)] using this

/-- Zeros after the fields. -/
theorem Shows.zeros_after {l : List Byte} {ps : List Place} (h : Shows l ps) (w : Within l.length ps) (n : Nat) :
    Shows (l ++ zeros n) ps := by
  simpa [shift] using h.append (shows_zeros n) w

/-- Fields cut or padded to a length that holds them all. -/
theorem Shows.padTo {l : List Byte} {ps : List Place} (h : Shows l ps) (w : Within l.length ps) (n : Nat)
    (wn : Within n ps) : Shows (padTo n l) ps := by
  have h' := h.zeros_after w (n - l.length)
  refine ⟨fun p hp => ?_, fun i hi => ?_⟩
  · have h1 := h'.1 p hp
    have h2 := wn p hp
    simp only [Machine.padTo, bytesAt] at h1 ⊢
    rw [List.drop_take, List.take_take, Nat.min_eq_left (by omega), h1]
  · have h1 := h'.2 i hi
    by_cases h : i < n
    · simpa [Machine.padTo, List.getD_eq_getElem?_getD, List.getElem?_take, h] using h1
    · rw [List.getD_eq_getElem?_getD, Machine.padTo, List.getElem?_take, if_neg h]; rfl

/-! ### Fields in order -/

/-- The multiple a field's offset is brought up to. -/
def Field.align : Field → Nat
  | .b1 _ => 1
  | .b2 _ => 2
  | .b4 _ => 4
  | .b8 _ => 8
  | .time _ => 2

/-- A field's bytes. -/
def Field.bytes : Field → List Byte
  | .b1 v => [v]
  | .b2 v => toBytes 2 v
  | .b4 v => toBytes 4 v
  | .b8 v => toBytes 8 v
  | .time t => stampBytes t

/-- The next multiple. -/
def roundUp (n k : Nat) : Nat := k + (n - k % n) % n

/-- Where fields stand that are laid out in order from an offset on. -/
def fieldPlaces : Nat → List Field → List Place
  | _, [] => []
  | off, f :: r => (roundUp f.align off, f.bytes) :: fieldPlaces (roundUp f.align off + f.bytes.length) r

theorem placeField_eq (l : List Byte) (f : Field) :
    placeField l f = l ++ zeros (roundUp f.align l.length - l.length) ++ f.bytes := by
  cases f <;> simp [placeField, alignTo, Field.align, Field.bytes, roundUp, Nat.mod_one, zeros]

theorem placeField_length (l : List Byte) (f : Field) :
    (placeField l f).length = roundUp f.align l.length + f.bytes.length := by
  simp only [placeField_eq, List.length_append, zeros, List.length_replicate, roundUp]
  omega

theorem fieldPlaces_within (fs : List Field) :
    ∀ l : List Byte, Within (fs.foldl placeField l).length (fieldPlaces l.length fs) ∧
      l.length ≤ (fs.foldl placeField l).length := by
  induction fs with
  | nil => intro l; exact ⟨by simp [fieldPlaces, Within], by simp⟩
  | cons f r ih =>
    intro l
    obtain ⟨h1, h2⟩ := ih (placeField l f)
    rw [placeField_length] at h1 h2
    refine ⟨fun p hp => ?_, ?_⟩
    · rcases List.mem_cons.1 hp with rfl | hp
      · simpa using h2
      · exact h1 p hp
    · simp only [List.foldl_cons, roundUp] at h2 ⊢
      omega

theorem shows_foldl (fs : List Field) : ∀ (l : List Byte) (ps : List Place), Shows l ps → Within l.length ps →
    Shows (fs.foldl placeField l) (ps ++ fieldPlaces l.length fs) := by
  induction fs with
  | nil => intro l ps h _; simpa [fieldPlaces] using h
  | cons f r ih =>
    intro l ps h w
    have h1 : Shows (placeField l f) (ps ++ [(roundUp f.align l.length, f.bytes)]) := by
      have := (h.zeros_after w (roundUp f.align l.length - l.length)).append (shows_bytes f.bytes)
        (fun p hp => by have := w p hp; simp only [List.length_append]; omega)
      rw [placeField_eq]
      simp only [shift, List.map_cons, List.map_nil, Nat.add_zero, List.length_append, zeros,
        List.length_replicate] at this
      rwa [show l.length + (roundUp f.align l.length - l.length) = roundUp f.align l.length by
        simp only [roundUp]; omega] at this
    have h2 := ih _ _ h1 (fun p hp => by
      rw [placeField_length]
      rcases List.mem_append.1 hp with hp | hp
      · have := w p hp
        simp only [roundUp]
        omega
      · simp [List.mem_singleton.1 hp])
    rw [placeField_length] at h2
    simpa [fieldPlaces] using h2

/-- A line of fields shows each of them at the next offset its width allows (R188). -/
theorem shows_layout (fs : List Field) : Shows (layout fs) (fieldPlaces 0 fs) := by
  have := shows_foldl fs [] [] shows_nil fun p hp => absurd hp (by simp)
  simpa [layout] using this

theorem layout_within (fs : List Field) : Within (layout fs).length (fieldPlaces 0 fs) := (fieldPlaces_within fs []).1

/-- A status line shows what its 56 bytes show, and its stamp is no part of them. -/
theorem statusLine_shows {n : Nat} {s : State} {ps : List Place} (h : Shows (padTo 56 (statusFields n s)) ps)
    (w : Within 56 ps) :
    (∀ p ∈ ps, bytesAt (statusLine n s) p.1 p.2.length = p.2) ∧
    ∀ i, i < 56 → (∀ p ∈ ps, i < p.1 ∨ p.1 + p.2.length ≤ i) → (statusLine n s).getD i 0 = 0 := by
  have len := padTo_length 56 (statusFields n s)
  refine ⟨fun p hp => ?_, fun i hi hp => ?_⟩
  · have h1 := h.1 p hp
    have h2 := w p hp
    simp only [statusLine, bytesAt] at h1 ⊢
    rw [List.drop_append_of_le_length (by omega), List.take_append_of_le_length (by simp; omega), h1]
  · have h1 := h.2 i hp
    rw [statusLine, List.getD_eq_getElem?_getD, List.getElem?_append_left (by omega)]
    rwa [List.getD_eq_getElem?_getD] at h1

/-- Bytes laid out in order show any list that names the same places but for places of zeros. -/
theorem shows_of_layout (fs : List Field) (ps zs : List Place) (e : ∀ p, p ∈ fieldPlaces 0 fs ↔ p ∈ zs ++ ps)
    (z : ∀ p ∈ zs, ∀ b ∈ p.2, b = 0) : Shows (layout fs) ps := by
  have h := (shows_layout fs).congr e
  clear e
  induction zs with
  | nil => simpa using h
  | cons a r ih => exact ih (fun p hp => z p (by simp [hp])) (Shows.drop_zero h (z a (by simp)))

/-- A line of fields, cut to its 56 bytes. -/
theorem line_shows_of_layout (fs : List Field) (ps zs : List Place) (e : ∀ p, p ∈ fieldPlaces 0 fs ↔ p ∈ zs ++ ps)
    (z : ∀ p ∈ zs, ∀ b ∈ p.2, b = 0) (w : Within 56 (fieldPlaces 0 fs)) :
    Shows (padTo 56 (layout fs)) ps ∧ Within 56 ps :=
  have sub : ∀ p ∈ ps, p ∈ fieldPlaces 0 fs := fun p hp => (e p).2 (by simp [hp])
  ⟨(shows_of_layout fs ps zs e z).padTo (fun p hp => layout_within fs p (sub p hp)) 56 fun p hp => w p (sub p hp),
   fun p hp => w p (sub p hp)⟩

/-! ### Entries one after another -/

/-- Where the fields of entries of one size stand. -/
def fieldsOf {α : Type} (size : Nat) (places : α → List Place) : List α → List Place
  | [] => []
  | e :: r => places e ++ shift size (fieldsOf size places r)

theorem mem_fieldsOf {α : Type} (size : Nat) (places : α → List Place) (l : List α) (p : Place) :
    p ∈ fieldsOf size places l ↔
      ∃ i e, l[i]? = some e ∧ ∃ q ∈ places e, p = (size * i + q.1, q.2) := by
  induction l generalizing p with
  | nil => simp [fieldsOf]
  | cons e r ih =>
    simp only [fieldsOf, List.mem_append, shift, List.mem_map, ih]
    constructor
    · rintro (h | ⟨q, ⟨i, x, hx, y, hy, rfl⟩, rfl⟩)
      · exact ⟨0, e, rfl, p, h, by simp⟩
      · exact ⟨i + 1, x, hx, y, hy, by simp [Nat.mul_add]; omega⟩
    · rintro ⟨i, x, hx, q, hq, rfl⟩
      match i, hx with
      | 0, hx =>
        obtain rfl : e = x := by simpa using hx
        exact Or.inl (by simpa using hq)
      | i + 1, hx =>
        exact Or.inr ⟨(size * i + q.1, q.2), ⟨i, x, hx, q, hq, rfl⟩, by simp [Nat.mul_add]; omega⟩

/-- The entries of a group of a list show each entry's fields at its multiple of the size. -/
theorem mem_entryPlaces {α : Type} (k size first : Nat) (l : List α) (places : α → List Place) (p : Place) :
    p ∈ entryPlaces k size first l places ↔ p ∈ fieldsOf size places ((l.drop first).take k) := by
  simp only [entryPlaces, List.mem_flatMap, List.mem_range, mem_fieldsOf]
  constructor
  · rintro ⟨i, hi, h⟩
    split at h
    · next e he =>
      obtain ⟨q, hq, rfl⟩ := List.mem_map.1 h
      exact ⟨i, e, by simpa [List.getElem?_take, hi] using he, q, hq, rfl⟩
    · simp at h
  · rintro ⟨i, e, he, q, hq, rfl⟩
    have hi : i < k := Nat.lt_of_not_le fun h => by
      rw [List.getElem?_take, if_neg (Nat.not_lt.2 h)] at he; cases he
    refine ⟨i, hi, ?_⟩
    rw [show l[first + i]? = some e by simpa [List.getElem?_take, hi] using he]
    exact List.mem_map.2 ⟨q, hq, rfl⟩

theorem shows_flatMap {α : Type} (size : Nat) (bytes : α → List Byte) (places : α → List Place) (l : List α)
    (h : ∀ e ∈ l, Shows (bytes e) (places e) ∧ (bytes e).length = size ∧ Within size (places e)) :
    Shows (l.flatMap bytes) (fieldsOf size places l) ∧
      Within (l.flatMap bytes).length (fieldsOf size places l) := by
  induction l with
  | nil => exact ⟨shows_nil, by simp [Within, fieldsOf]⟩
  | cons e r ih =>
    obtain ⟨h1, h2, h3⟩ := h e (by simp)
    obtain ⟨i1, i2⟩ := ih fun x hx => h x (by simp [hx])
    simp only [List.flatMap_cons, fieldsOf]
    have := h1.append i1 (by rwa [h2])
    rw [h2] at this
    refine ⟨this, fun p hp => ?_⟩
    rw [List.length_append, h2]
    rcases List.mem_append.1 hp with hp | hp
    · have := h3 p hp
      omega
    · obtain ⟨q, hq, rfl⟩ := List.mem_map.1 hp
      have := i2 q hq
      simp only
      omega

/-- The fields of a group of entries end where the group ends. -/
theorem entryPlaces_within {α : Type} (k size first : Nat) (l : List α) (places : α → List Place)
    (h : ∀ e ∈ l, Within size (places e)) : Within (k * size) (entryPlaces k size first l places) := by
  intro p hp
  simp only [entryPlaces, List.mem_flatMap, List.mem_range] at hp
  obtain ⟨i, hi, hp⟩ := hp
  split at hp
  · next e he =>
    obtain ⟨q, hq, rfl⟩ := List.mem_map.1 hp
    have h1 := h e (List.mem_of_getElem? he) q hq
    have h2 : size * i + size ≤ k * size := by
      rw [Nat.mul_comm k size, ← Nat.mul_succ]
      exact Nat.mul_le_mul_left _ hi
    simp only
    omega
  · simp at hp

/-- A line of a group of entries, padded to a length that holds them. -/
theorem shows_group {α : Type} (n k size first : Nat) (l : List α) (bytes : α → List Byte) (places : α → List Place)
    (fits : k * size ≤ n)
    (h : ∀ e ∈ l, Shows (bytes e) (places e) ∧ (bytes e).length = size ∧ Within size (places e)) :
    Shows (padTo n (((l.drop first).take k).flatMap bytes)) (entryPlaces k size first l places) ∧
      Within n (entryPlaces k size first l places) := by
  have hg : ∀ e ∈ (l.drop first).take k, e ∈ l := fun e he => List.mem_of_mem_drop (List.mem_of_mem_take he)
  obtain ⟨s1, w1⟩ := shows_flatMap size bytes places ((l.drop first).take k) fun e he => h e (hg e he)
  have w : Within n (entryPlaces k size first l places) := fun p hp =>
    Nat.le_trans (entryPlaces_within k size first l places (fun e he => (h e he).2.2) p hp) fits
  have e := mem_entryPlaces k size first l places
  exact ⟨(s1.padTo w1 n fun p hp => w p ((e p).2 hp)).congr fun p => (e p).symm, w⟩

/-- A line of a list shows the entries of its group, and then the change count and the number of entries. -/
theorem shows_listLine {α : Type} (k size g : Nat) (l : List α) (bytes : α → List Byte) (places : α → List Place)
    (change : U16) (count : Nat) (fits : k * size ≤ 48)
    (h : ∀ e ∈ l, Shows (bytes e) (places e) ∧ (bytes e).length = size ∧ Within size (places e)) :
    Shows (padTo 56 (listLine ((groupOf k g l).map bytes) change count))
      (entryPlaces k size (k * g) l places ++ listPlaces change count) ∧
    Within 56 (entryPlaces k size (k * g) l places ++ listPlaces change count) := by
  obtain ⟨s1, w1⟩ := shows_group 48 k size (k * g) l bytes places fits h
  have s2 := s1.append ((shows_bytes (toBytes 2 change.toNat)).append (shows_bytes [BitVec.ofNat 8 count])
    (by simp [Within])) (by rwa [padTo_length])
  have w : Within 51 (entryPlaces k size (k * g) l places ++ listPlaces change count) := fun p hp => by
    rcases List.mem_append.1 hp with hp | hp
    · exact Nat.le_trans (w1 p hp) (by omega)
    · simp only [listPlaces, byteField, List.mem_cons, List.not_mem_nil, or_false] at hp
      rcases hp with rfl | rfl <;> simp [toBytes]
  have len : (listLine ((groupOf k g l).map bytes) change count).length = 51 := by
    simp [listLine, padTo_length, toBytes]
  have s3 : Shows (listLine ((groupOf k g l).map bytes) change count)
      (entryPlaces k size (k * g) l places ++ listPlaces change count) := by
    rw [listLine, List.flatten_eq_flatMap, List.flatMap_map, List.append_assoc]
    simpa [padTo_length, toBytes, shift, listPlaces, byteField, groupOf] using s2
  have w56 : Within 56 (entryPlaces k size (k * g) l places ++ listPlaces change count) := fun p hp =>
    Nat.le_trans (w p hp) (by omega)
  exact ⟨s3.padTo (by rwa [len]) 56 w56, w56⟩

end Sys2Proof.Machine
end

