-- ==== Sys2Proof/Laws/Writes.lean ====
section
/-!
SUPPORT. What the line writes of a byte string, of a ring's frames and of a slice's rows lay into memory, that each of
them enables a byte, and that the requests made of them stand.
-/
namespace Sys2Proof.Machine

/-! ### The bytes laid -/

theorem mem_enumFrom (off : Nat) (l : List Byte) (p : Nat × Byte) :
    p ∈ enumFrom off l ↔ ∃ i, l[i]? = some p.2 ∧ p.1 = off + i := by
  induction l generalizing off with
  | nil => simp [enumFrom]
  | cons b r ih =>
    rw [enumFrom, List.mem_cons, ih]
    constructor
    · rintro (rfl | ⟨i, hi, e⟩)
      · exact ⟨0, rfl, rfl⟩
      · exact ⟨i + 1, hi, by omega⟩
    · rintro ⟨i, hi, e⟩
      cases i with
      | zero => exact Or.inl (Prod.ext e (Option.some.inj hi).symm)
      | succ i => exact Or.inr ⟨i, hi, by omega⟩

theorem mem_linesOf (a n l : Nat) : l ∈ linesOf a n ↔ n ≠ 0 ∧ a / 64 ≤ l ∧ l ≤ (a + n - 1) / 64 := by
  unfold linesOf
  split
  · simp [*]
  · rename_i h
    simp only [List.mem_map, List.mem_range]
    constructor
    · rintro ⟨i, hi, rfl⟩
      omega
    · rintro ⟨_, h1, h2⟩
      exact ⟨l - a / 64, by omega, by omega⟩

theorem mem_bytesAt (l : List Byte) (off n i : Nat) (b : Byte) :
    (bytesAt l off n)[i]? = some b ↔ i < n ∧ l[off + i]? = some b := by
  unfold bytesAt
  rw [List.getElem?_take]
  split <;> simp [*]

/-- A byte string's line writes lay it at its address. -/
theorem lineWrites_lays (a : Nat) (bytes : List Byte) : laysBytes (lineWrites a bytes) (a + ·) bytes := by
  constructor
  · intro i b hb
    have hi : i < bytes.length := (List.getElem?_eq_some_iff.mp hb).1
    refine ⟨_, List.mem_map.mpr ⟨(a + i) / 64, (mem_linesOf ..).mpr ⟨by omega, by omega, by omega⟩, rfl⟩, rfl, ?_⟩
    refine (mem_enumFrom ..).mpr ⟨a + i - max a (64 * ((a + i) / 64)), (mem_bytesAt ..).mpr ⟨by omega, ?_⟩, ?_⟩
    · rw [show max a (64 * ((a + i) / 64)) - a + (a + i - max a (64 * ((a + i) / 64))) = i by omega]
      exact hb
    · show (a + i) % 64 = _
      omega
  · intro w hw p hp
    obtain ⟨l, hl, rfl⟩ := List.mem_map.mp hw
    obtain ⟨_, h1, h2⟩ := (mem_linesOf ..).mp hl
    obtain ⟨i, hi, e⟩ := (mem_enumFrom ..).mp hp
    obtain ⟨hn, hb⟩ := (mem_bytesAt ..).mp hi
    exact ⟨_, hb, by simp only [e]; omega⟩

/-- Writes of one byte string and of the next lay the two together. -/
theorem laysBytes.append {w v : List (Nat × List (Nat × Byte))} {f g h : Nat → Nat} {b c : List Byte}
    (hb : laysBytes w f b) (hc : laysBytes v g c) (hf : ∀ i, i < b.length → h i = f i)
    (hg : ∀ i, i < c.length → h (b.length + i) = g i) : laysBytes (w ++ v) h (b ++ c) := by
  have lt {l : List Byte} {i : Nat} {x : Byte} (e : l[i]? = some x) : i < l.length := (List.getElem?_eq_some_iff.mp e).1
  constructor
  · intro i x hx
    by_cases hi : i < b.length
    · rw [List.getElem?_append_left hi] at hx
      obtain ⟨p, hp, e⟩ := hb.1 i x hx
      exact ⟨p, List.mem_append_left _ hp, by rwa [hf i hi]⟩
    · rw [List.getElem?_append_right (by omega)] at hx
      obtain ⟨p, hp, e⟩ := hc.1 _ x hx
      refine ⟨p, List.mem_append_right _ hp, ?_⟩
      rwa [← hg _ (lt hx), show b.length + (i - b.length) = i by omega] at e
  · intro p hp q hq
    rcases List.mem_append.mp hp with hp | hp
    · obtain ⟨i, hi, e⟩ := hb.2 p hp q hq
      exact ⟨i, by rw [List.getElem?_append_left (lt hi)]; exact hi, by rw [e, hf i (lt hi)]⟩
    · obtain ⟨i, hi, e⟩ := hc.2 p hp q hq
      exact ⟨b.length + i, by rw [List.getElem?_append_right (by omega)]; simpa using hi, by rw [e, hg i (lt hi)]⟩

theorem laysBytes.congr {w : List (Nat × List (Nat × Byte))} {f h : Nat → Nat} {b : List Byte} (hb : laysBytes w f b)
    (hf : ∀ i, i < b.length → h i = f i) : laysBytes w h b := by
  have := hb.append (v := []) (g := f) (c := []) ⟨nofun, nofun⟩ hf nofun
  simpa using this

/-- A ring's frames lie at their positions, wrapping at the ring's end (R105, R115). -/
theorem frameWrites_lays (base size capacity idx n : Nat) (bytes : List Byte) (hs : size ≠ 0) (hn : n ≤ capacity)
    (hl : bytes.length = size * n) :
    laysBytes (frameWrites size (ringSpans base size capacity idx n) bytes)
      (fun i => base + size * ((idx + i / size) % capacity) + i % size) bytes := by
  have pos : 0 < size := Nat.pos_of_ne_zero hs
  have place (q : Nat) (i : Nat) : base + size * (q + i / size) + i % size = base + size * q + i := by
    rw [Nat.mul_add, Nat.add_assoc, Nat.add_assoc, Nat.add_assoc, Nat.div_add_mod]
  have frame {i k : Nat} (h : i < size * k) : i / size < k := Nat.div_lt_of_lt_mul h
  rcases Nat.eq_zero_or_pos capacity with h0 | hc
  · have : bytes = [] := List.eq_nil_of_length_eq_zero (by rw [hl, show n = 0 by omega, Nat.mul_zero])
    subst this
    have : n = 0 := by omega
    subst this
    simp only [ringSpans, h0, Nat.zero_le, Nat.min_eq_left, if_true, frameWrites, Nat.mul_zero, List.take_nil]
    exact ⟨nofun, by simp [lineWrites, linesOf]⟩
  have hm := Nat.mod_lt idx hc
  by_cases h : n ≤ capacity - idx % capacity
  · have e : ringSpans base size capacity idx n = [(base + size * (idx % capacity), n)] := by
      simp [ringSpans, Nat.min_eq_left h]
    rw [e, frameWrites, frameWrites, List.append_nil, List.take_of_length_le (by omega)]
    refine (lineWrites_lays _ _).congr fun i hi => ?_
    have := frame (hl ▸ hi)
    show base + size * ((idx + i / size) % capacity) + i % size = _
    rw [Nat.add_mod, Nat.mod_eq_of_lt (a := i / size) (by omega), Nat.mod_eq_of_lt (by omega), place]
  · have e : ringSpans base size capacity idx n =
        [(base + size * (idx % capacity), capacity - idx % capacity), (base, n - (capacity - idx % capacity))] := by
      simp [ringSpans, Nat.min_eq_right (Nat.le_of_lt (Nat.lt_of_not_le h)), h]
    generalize hk : capacity - idx % capacity = k at e h
    have len : (bytes.take (size * k)).length = size * k := by
      rw [List.length_take, hl, Nat.min_eq_left (Nat.mul_le_mul_left _ (by omega))]
    have rest : (bytes.drop (size * k)).length = size * (n - k) := by
      rw [List.length_drop, hl, Nat.mul_sub]
    rw [e, frameWrites, frameWrites, frameWrites, List.append_nil, List.take_of_length_le (Nat.le_of_eq rest)]
    have := (lineWrites_lays (base + size * (idx % capacity)) (bytes.take (size * k))).append
      (lineWrites_lays base (bytes.drop (size * k)))
      (h := fun i => base + size * ((idx + i / size) % capacity) + i % size) ?_ ?_
    · rwa [List.take_append_drop] at this
    · intro i hi
      have := frame (len ▸ hi)
      show base + size * ((idx + i / size) % capacity) + i % size = _
      rw [Nat.add_mod, Nat.mod_eq_of_lt (a := i / size) (by omega), Nat.mod_eq_of_lt (by omega), place]
    · intro i hi
      have := frame (rest ▸ hi)
      show base + size * ((idx + (_ + i) / size) % capacity) + (_ + i) % size = _
      rw [len, Nat.mul_add_div pos, Nat.mul_add_mod, Nat.add_mod, Nat.mod_eq_of_lt (a := k + i / size) (by omega),
        show idx % capacity + (k + i / size) = i / size + capacity by omega, Nat.add_mod_right,
        Nat.mod_eq_of_lt (by omega)]
      simpa using place 0 i

/-- A slice's pixels lie in its rows (R82). -/
theorem sliceWrites_lays (c : SurfaceConfig) (row n : Nat) (pixels : List Byte) (hl : pixels.length = n * c.rowBytes) :
    laysBytes (sliceWrites c row n pixels)
      (fun i => c.base + c.pitch * (row + i / c.rowBytes) + i % c.rowBytes) pixels := by
  induction n generalizing row pixels with
  | zero =>
    have : pixels = [] := List.eq_nil_of_length_eq_zero (by omega)
    subst this
    exact ⟨nofun, nofun⟩
  | succ n ih =>
    have len : (pixels.take c.rowBytes).length = c.rowBytes := by
      rw [List.length_take, hl, Nat.min_eq_left (Nat.le_mul_of_pos_left _ (by omega))]
    have := (lineWrites_lays (c.base + c.pitch * row) (pixels.take c.rowBytes)).append
      (ih (row + 1) (pixels.drop c.rowBytes) (by rw [List.length_drop, hl, Nat.add_mul]; omega))
      (h := fun i => c.base + c.pitch * (row + i / c.rowBytes) + i % c.rowBytes) ?_ ?_
    · rwa [List.take_append_drop] at this
    · intro i hi
      rw [len] at hi
      simp only [Nat.div_eq_of_lt hi, Nat.mod_eq_of_lt hi, Nat.add_zero]
    · intro i hi
      rcases Nat.eq_zero_or_pos c.rowBytes with h | h
      · rw [List.length_drop, hl, h] at hi
        simp at hi
      · simp only [len, Nat.add_div_left _ h, Nat.add_mod_left]
        rw [show row + (i / c.rowBytes).succ = row + 1 + i / c.rowBytes by omega]

/-! ### The requests made -/

/-- Each line write of a byte string enables a byte. -/
theorem lineWrites_ne_nil {a : Nat} {bytes : List Byte} {w : Nat × List (Nat × Byte)} (h : w ∈ lineWrites a bytes) :
    w.2 ≠ [] := by
  obtain ⟨l, hl, rfl⟩ := List.mem_map.mp h
  obtain ⟨h0, h1, h2⟩ := (mem_linesOf ..).mp hl
  intro e
  have := congrArg List.length e
  simp only [enumFrom_length, bytesAt, List.length_take, List.length_drop, List.length_nil] at this
  omega

theorem frameWrites_ne_nil {size : Nat} {spans : List (Nat × Nat)} {bytes : List Byte} {w : Nat × List (Nat × Byte)}
    (h : w ∈ frameWrites size spans bytes) : w.2 ≠ [] := by
  induction spans generalizing bytes with
  | nil => cases h
  | cons p r ih =>
    rcases List.mem_append.mp h with h | h
    · exact lineWrites_ne_nil h
    · exact ih h

theorem mem_depositWrites_of_mem {job : Nat} (w : List (Nat × List (Nat × Byte))) {s : State} {r : Request}
    (h : r ∈ s.da.all) (hr : r.op ≠ .write []) : r ∈ (depositWrites job w s).da.all := by
  induction w generalizing s with
  | nil => exact h
  | cons p q ih => exact ih (mem_request_of_mem h hr)

/-- Each line write of a deposit payload stands once made. -/
theorem mem_depositWrites {job : Nat} {w : List (Nat × List (Nat × Byte))} {s : State} {p : Nat × List (Nat × Byte)}
    (h : p ∈ w) (hp : p.2 ≠ []) : ⟨.deposit job p.2.length, p.1, .write p.2⟩ ∈ (depositWrites job w s).da.all := by
  have ne : ReqOp.write p.2 ≠ .write [] := fun e => hp (ReqOp.write.inj e)
  induction w generalizing s with
  | nil => cases h
  | cons q r ih =>
    rcases List.mem_cons.mp h with e | h
    · subst e
      exact mem_depositWrites_of_mem r (mem_request _ _ _ _ ne) ne
    · exact ih h

theorem mem_issueEntry_of_mem {index : U16} {gen : Nat} {first : Bool} (w : List (Nat × List (Nat × Byte))) {s : State}
    {r : Request} (h : r ∈ s.da.all) (hr : r.op ≠ .write []) : r ∈ (issueEntry index gen first w s).da.all := by
  induction w generalizing s first with
  | nil => exact h
  | cons p q ih => exact ih (mem_request_of_mem h hr)

/-- Each line write of a message ring entry stands once made, the first one without the length word's room. -/
theorem mem_issueEntry {index : U16} {gen : Nat} {first : Bool} {w : List (Nat × List (Nat × Byte))} {s : State} {i : Nat}
    {p : Nat × List (Nat × Byte)} (h : w[i]? = some p) (hp : p.2 ≠ []) :
    ⟨.messageEntry index gen (if i = 0 ∧ first = true then p.2.length - 4 else p.2.length), p.1, .write p.2⟩ ∈
      (issueEntry index gen first w s).da.all := by
  have ne : ReqOp.write p.2 ≠ .write [] := fun e => hp (ReqOp.write.inj e)
  induction w generalizing s first i with
  | nil => cases h
  | cons q r ih =>
    cases i with
    | zero =>
      obtain rfl : q = p := Option.some.inj h
      cases first <;> exact mem_issueEntry_of_mem r (mem_request _ _ _ _ ne) ne
    | succ i =>
      have room : (if i + 1 = 0 ∧ first = true then p.2.length - 4 else p.2.length) =
          if i = 0 ∧ false = true then p.2.length - 4 else p.2.length := by simp
      rw [room]
      exact ih h

end Sys2Proof.Machine
end

