-- ==== Sys2Proof/Tests/Slice0.lean ====
section
/-!
SUPPORT. Tests of the model: an ill-formed term for each check of WellFormed, small values worked out by hand from the
rules, and for each statement of Obligations.lean that has premises a state that meets them, clause by clause.
-/
namespace Sys2Proof.Tests
open Sys2Proof.Machine

set_option Elab.async false

/-! ### Ill-formed commands -/

theorem test_ecc_names_a_word_twice :
    (Instr.scrubComplete [(3, .single), (3, .double 5)]).wellFormed = false ∧
    (Instr.scrubComplete [(3, .single), (7, .double 5)]).wellFormed = true := by decide

theorem test_record_fields_of_wrong_length :
    (Instr.regionRecordArm 31 (zeros 29) 1).wellFormed = false ∧
    (Instr.regionRecordArm 31 (zeros 28) 1).wellFormed = true ∧
    (Instr.timingSetArm (zeros 28) 1).wellFormed = false ∧ (Instr.timingSetArm (zeros 60) 1).wellFormed = true ∧
    (Instr.routingRuleArm 0 (zeros 16) 1).wellFormed = false ∧
    (Instr.routingRuleArm 0 (zeros 12) 1).wellFormed = true := by decide

theorem test_settings_of_wrong_length :
    (Instr.powerRequestOff (zeros 8) 1).wellFormed = false ∧ (Instr.powerRequestOff (zeros 7) 1).wellFormed = true := by
  decide

theorem test_packet_too_short :
    (Instr.downlinkPause (zeros 11)).wellFormed = false ∧ (Instr.downlinkInvalidPacket (zeros 12)).wellFormed = true := by
  decide

theorem test_payload_too_long :
    (Instr.message 0 (zeros 16385)).wellFormed = false ∧
    (Instr.slice ⟨0, 0, 1, zeros 16377⟩).wellFormed = false ∧
    (Instr.audio (List.replicate 4097 0)).wellFormed = false ∧ (Instr.audio []).wellFormed = false := by decide +kernel

theorem test_sensor_bytes_of_wrong_length :
    (Instr.sensorTransferComplete []).wellFormed = false ∧
    (Instr.sensorTransferComplete (zeros 17)).wellFormed = false := by decide

theorem test_pdm_of_wrong_length : (Instr.audioPeriodBoundary (List.replicate 15 0)).wellFormed = false := by decide

/-! ### Values worked out by hand -/

/-- The check value of this CRC over the digits 1 to 9 (R78). -/
theorem test_crc_check_value : crc32 [0x31, 0x32, 0x33, 0x34, 0x35, 0x36, 0x37, 0x38, 0x39] = 0xCBF43926 := by
  decide +kernel

/-- Half of full scale at gain and volume one is duty 768; silence is 512 (R112). -/
theorem test_duties :
    dutyOf (mixSample 16384 0 256 256 256 false) 0 = 768 ∧ dutyOf (mixSample 0 0 256 256 256 false) 0 = 512 ∧
    dutyOf (mixSample (-32768) (-32768) 256 256 256 false) 0 = 0 ∧
    dutyOf (mixSample 32767 32767 256 256 256 false) 1 = 1023 := by decide

/-- The dither generator replaces state 0 by 1; taps D008h select bits 3, 12, 14 and 15 (R113). -/
theorem test_dither : lfsrNext 0xD008 1 = 2 ∧ lfsrNext 0xD008 8 = 17 ∧ lfsrNext 0xD008 0 = 2 := by decide +kernel

/-- A silent microphone reads 0, and one stuck high reads full scale (R115). -/
theorem test_capture_frames :
    captureFrame 256 0xAAAAAAAAAAAAAAAA = 0 ∧ captureFrame 256 0xFFFFFFFFFFFFFFFF = 0x7FFF ∧
    captureFrame 256 0 = 0x8000 := by decide +kernel

/-- The widths of a converted component: 31 and 63 both widen to 255 (R39). -/
theorem test_rgb565 : pixelOf .rgb565 [0xFF, 0xFF] = ⟨255, 255, 255⟩ ∧ pixelOf .rgb565 [0x00, 0x80] = ⟨132, 0, 0⟩ := by
  decide

/-- A RING request with a SCAN request behind it to its line is served as SCAN; otherwise the higher class goes first
(R161, R162). -/
theorem test_choice :
    chooseRequest [⟨.scrub, 7, .scrub⟩, ⟨.hostWrite, 3, .read⟩, ⟨.band 0, 7, .read⟩] = some ⟨.scrub, 7, .scrub⟩ ∧
    chooseRequest [⟨.deposit 0 1, 3, .read⟩, ⟨.hostWrite, 4, .read⟩] = some ⟨.hostWrite, 4, .read⟩ := by decide

/-- Arm sequences and live words stand where the offset tables put them (R185, R186). -/
theorem test_offsets :
    RecordKind.seqOffset (.region 1) = 0x3C ∧ RecordKind.seqOffset .trigger = 0xA7C ∧
    RecordKind.seqOffset .part = 0xB3C ∧ LiveWord.offset (.fence 5) = 0x4B8 ∧
    (allRecords.map (·.index.val)) = List.range 86 := by decide +kernel

/-- The memory keeps its order and drops a byte that becomes 00h (log 6). -/
theorem test_memory :
    Mem.write (Mem.write [] 9 1) 4 2 = [(4, 2), (9, 1)] ∧ Mem.write [(4, 2), (9, 1)] 4 0 = [(9, 1)] ∧
    Memory.wf [(9, 1), (4, 2)] = false ∧ Memory.wf [(4, 0)] = false := by decide

/-! ### States -/

def allRails : PerRail := ⟨true, true, true, true⟩

/-- ACTIVE, every rail on and its power-good high, the port open, nothing under way. -/
def live : State :=
  { State.reset with
    pins := { Pins.reset with mainOk := true, cable := true, pg := allRails }
    pwc := { Pwc.reset with state := .active, enables := allRails, watched := allRails, hostReset := false } }

/-- The link UP. -/
def up : State := live.onTc fun t => { t with link := .up }

/-- The lane sending. -/
def sendingUp : State := up.onTc fun t => { t with lane := .sending [1] 5 0 }

/-- A request in service. -/
def serving (a : Agent) (l : Nat) (op : ReqOp) (s : State) : State :=
  s.onDa fun d => { d with service := some ⟨a, l, op⟩ }

/-- A surface of 16 by 16 pixels of 4 bytes, at its own 1 MiB. -/
def cfg (n : Nat) (eye : Eye) (owner : Owner) (mode : CompletionMode) : SurfaceConfig :=
  { base := 0x100000 * (n + 1), pitch := 64, width := 16, height := 16, format := .rgba8, eye, owner, mode,
    bandRows := 16 }

/-- A surface with that configuration in a state, its one band EMPTY. -/
def surf (c : SurfaceConfig) (x : SurfaceState) : Surface :=
  { config := some c, state := x, bands := [⟨false, false, false, false⟩], fence := 0 }

def putSurface (n : Fin 6) (f : Surface) (s : State) : State := s.onSt fun t => { t with surfaces := vset t.surfaces n f }

/-- Panels of 16 by 16. -/
def panels (s : State) : State :=
  s.onSo fun o => { o with applied := { o.applied with panelWidth := 16, panelHeight := 16, scanEnable := true } }

/-- Surface 0 serves both eyes, is the host's and OPEN; surface 3 is the tether's and FREE. -/
def shown : State :=
  putSurface 3 (surf (cfg 3 .both .tether .ordered) .free)
    (putSurface 0 (surf (cfg 0 .both .host .fenced) .opened) (panels live))

def entry0 : Entry := { tag := 7, left := 0, right := none, target := none, pose := none, source := .host }

/-- A phase of a running frame whose timer has run out. -/
def phase (p : Phase) (s : State) : State := s.onSo fun o => { o with state := .running, phase := p, phaseTimer := some 0 }

/-- After the minimum dark, with the frame period and the sync loss wait run out. -/
def boundary (s : State) : State :=
  s.onSo fun o => { o with state := .running, phase := .dark, phaseTimer := none, darkTimer := none,
                           periodTimer := some 0, syncTimer := some 0 }

def powered (p : PowerState) (x : PowerStep) (s : State) : State := s.onPwc fun q => { q with state := p, step := x }

/-- The state a command answers; the same state where it stops. -/
def after (c : Instr) (s : State) : State :=
  match exec c s with
  | .next t => t
  | _ => s

/-- The outcome that an arm leaves in the table. -/
def outcomeOf (c : Instr) (k : RecordKind) (s : State) : Outcome := ((after c s).entry k).outcome

theorem live_takes : live.taking := ⟨by decide, by decide, by decide, by decide⟩
theorem live_arms (k : RecordKind) (h : (live.entry k).lastSeen = 0) : live.arms k 1 :=
  ⟨live_takes, by rw [h]; decide⟩
theorem up_hears : up.hears 65536 := ⟨by decide, by decide, by decide⟩

/-! ### States that meet the premises of the statements -/

/-- OnlyAnAbsentLineFaults: a completion of the first line that does not exist, and of the last that does. -/
theorem test_OnlyAnAbsentLineFaults_premises :
    (match exec (.scrubComplete []) (serving .scrub lineLimit .scrub live) with
      | .fault .noSuchLine => true
      | _ => false) = true ∧
    (match exec (.scrubComplete []) (serving .scrub (lineLimit - 1) .scrub live) with
      | .next _ => true
      | _ => false) = true := by decide +kernel

/-- One consumer selects a source; constant source 1 is high. -/
def selecting (n : Fin 8) (c : Consumer) (s : State) : State :=
  s.onTm fun t => { t with consumers := vset t.consumers n c }

/-- The engine waits for a trigger, or lights inside its window with one report; a MATRIX channel runs. -/
def awaiting : State :=
  live.onSo fun o => { o with state := .waiting, applied := { o.applied with sync := .triggered, scanEnable := true } }
def lighting : State :=
  live.onSo fun o =>
    { o with light := some 5
             reports := [{ frame := 1, tag := 0, pose := none, stamp := ⟨0, 0⟩, repeats := 0, substituted := 0, cut := false }] }
def matrixed : State :=
  live.onChannel 3 fun c => { c with state := .running, config := { c.config with mode := .matrix, enable := true } }

theorem test_DeliveryFrame_premises :
    let touched := selecting 6 ⟨20, false, .rising, false⟩ live
    let pulsing := touched.onTm fun t => { t with pulses := [20] }
    let on : Consumer := ⟨1, false, .level, true⟩
    let still (s : State) : Bool :=
      s.tm.pulses.isEmpty && (List.finRange 8).all fun n => s.consumerLevel (s.consumer n) == (s.consumer n).seen
    let alone (s : State) (n : Fin 8) : Bool := (List.finRange 8).all fun m => s.levelActive m == (m == n)
    let leaves (s t : State) : Bool := drainOnce s == some t && (drainOnce t).isNone && cutCheck t == t
    live.quiet ∧ pulsing.coreLive = true ∧ leaves pulsing (deliverPulse 20 touched) = true ∧
    live.consumerLevel ⟨1, false, .both, false⟩ = true ∧ (selecting 7 ⟨1, false, .both, false⟩ live).tm.pulses = [] ∧
    (still (selecting 0 on awaiting) && alone (selecting 0 on awaiting) 0) = true ∧
    (still (selecting 5 on matrixed) && alone (selecting 5 on matrixed) 5) = true ∧
    (still (selecting 7 on live) && alone (selecting 7 on live) 7) = true :=
  ⟨⟨by decide +kernel, by decide +kernel⟩, by decide +kernel⟩

/-- The premises of the events that DeliveryFrame states, consumer by consumer. -/
theorem test_DeliveryFrame_events :
    awaiting.so.stopRequested = false ∧ awaiting.so.pendingSet = none ∧ (deliver 0 awaiting).so.state = .running ∧
    live.so.applied.sync = .free ∧ lighting.lit = true ∧ (deliver 1 lighting).so.reports.map (·.cut) = [true] ∧
    ((deliver 5 matrixed).channel 3).holder = some ⟨⟨0, 0⟩, 0, 0⟩ ∧
    ((deliver 5 (deliver 5 matrixed)).channel 3).overruns = 1 ∧ (deliver 4 matrixed) = matrixed ∧
    ((vget (deliver 7 live).tm.beacons 1).state, (vget (deliver 7 (deliver 7 live)).tm.beacons 1).ignored) = (.pulse, 1) := by
  decide +kernel

def starting : State := powered .starting .startCore { State.reset with pins := { Pins.reset with mainOk := true } }

theorem test_CoreResetEffect_premises :
    let high := starting.onPins fun p => { p with pg := allRails }
    starting.pwc.state = .starting ∧ starting.pwc.step = .startCore ∧ starting.pins.pg.sensor = false ∧
    starting.pins.pg.get .host = false ∧
    ((after (.coreSupplySettled 1) high).pwc.step, (after (.coreSupplySettled 1) high).da.all.length) =
      (.startPlan, 64) := by decide +kernel

/-- OFF, with and without what a start cause needs. -/
def offReady : State :=
  { State.reset with pins := { Pins.reset with mainOk := true }, pwc := { Pwc.reset with debounce := some 0 } }
def offLoss : State :=
  State.reset.onPwc fun p => { p with mainLoss := true, settings := { p.settings with restart := true } }

theorem test_StartCauses_premises :
    offReady.pwc.state = .off ∧ offReady.pwc.pressed = false ∧ offReady.pwc.debounce = some 0 ∧
    (offReady.pins.mainOk && !offReady.pins.thermCrit) = true ∧
    offLoss.pwc.state = .off ∧ offLoss.pins.mainOk = false ∧
    (offLoss.pwc.mainLoss && offLoss.pwc.settings.restart && !offLoss.pins.thermCrit) = true ∧
    (State.reset.pwc.mainLoss && State.reset.pwc.settings.restart) = false := by decide

theorem test_RailsComeUpInOrder_premises :
    let s := starting.onPwc fun p => { p with step := .startRail .sensor [.audio, .panel, .host] }
    let w := starting.onPwc fun p => { p with step := .wakeRail .audio [.panel] }
    let last := starting.onPwc fun p => { p with step := .startRail .host [] }
    let wlast := starting.onPwc fun p => { p with step := .wakeRail .panel [] }
    s.pins.pg.get .sensor = false ∧ s.pins.pg.get .audio = false ∧ s.pwc.step = .startRail .sensor [.audio, .panel, .host] ∧
    w.pwc.step = .wakeRail .audio [.panel] ∧ last.pwc.step = .startRail .host [] ∧ last.pins.pg.get .host = false ∧
    wlast.pwc.step = .wakeRail .panel [] ∧ wlast.hmp.held = none ∧ wlast.hmp.atPins = [] := by decide

/-- RailsComeUpInOrder, rails whose power-good is already high: one passed at its enable and the next waited for, and
none left to wait for; after a rise, after the core has settled and after the exit of self-refresh. -/
theorem test_RailsComeUpInOrder_passed :
    let pg (p : PerRail) (s : State) : State := s.onPins fun q => { q with pg := p }
    let core := pg { allRails with panel := false } starting
    let some1 := pg { PerRail.none with audio := true } (powered .starting (.startRail .sensor [.audio, .panel, .host]) starting)
    let all := pg { allRails with sensor := false } some1
    let wake := (pg { allRails with panel := false } (powered .waking .wakeExit live)).onDa fun d => { d with mode := .exiting }
    let wall := wake.onPins fun q => { q with pg := allRails }
    let wr := pg { allRails with audio := false } (powered .waking (.wakeRail .audio [.panel]) live)
    [Rail.audio, .panel, .host] = [.audio] ++ .panel :: [.host] ∧
    (after (.railPowerGoodRise .sensor) some1).pwc.step = .startRail .panel [.host] ∧
    (after (.railPowerGoodRise .sensor) all).pwc.step = .startPlan ∧
    (after (.coreSupplySettled 0) core).pwc.step = .startRail .panel [.host] ∧
    (after .selfRefreshExitComplete wake).pwc.step = .wakeRail .panel [] ∧
    (after .selfRefreshExitComplete wall).pwc.state = .active ∧
    (after (.railPowerGoodRise .audio) wr).pwc.state = .active := by decide +kernel

/-- RailFaultStops: the last rail's 10 ms and a watched rail's fall; HOST off, so that PANEL is the first to go. -/
theorem test_RailFaultStops_premises :
    let s := starting.onPwc fun p => { p with step := .startRail .host [], railTimer := some 0, enables := allRails }
    let l := live.onPwc fun p => { p with enables := { allRails with host := false } }
    [Rail.host, .panel, .audio, .sensor] = [.host] ++ .panel :: [.audio, .sensor] ∧
    (∀ m ∈ [Rail.host], l.pwc.enables.get m = false) ∧ l.pwc.enables.get .panel = true ∧
    (after (.railPowerGoodFall .audio) l).pwc.step = .stopRail .panel [.audio, .sensor] ∧
    (after (.railPowerGoodFall .audio) live).pwc.step = .stopRail .host [.panel, .audio, .sensor] ∧
    s.pwc.state ≠ .stopping ∧ s.pwc.state ≠ .off ∧ s.pwc.enables.get .host = true ∧
    s.pwc.step = .startRail .host [] ∧ s.pwc.railTimer = some 0 ∧
    live.pwc.state ≠ .stopping ∧ live.pwc.state ≠ .off ∧ live.pwc.enables.get .audio = true ∧
    live.pins.pg.get .audio = true ∧ live.pwc.watched.get .audio = true ∧ live.pwc.step = .none := by decide

/-- RailsGoDownInOrder: the next rail, a rail whose enable is not asserted passed over, and none left. -/
theorem test_RailsGoDownInOrder_premises :
    let s := live.onPwc fun p => { p with state := .stopping, step := .stopRail .host [.panel], railTimer := some 0 }
    let l := live.onPwc fun p =>
      { p with state := .stopping, step := .stopRail .host [.panel], railTimer := some 0, enables := PerRail.none }
    s.pwc.step = .stopRail .host [.panel] ∧ s.pwc.railTimer = some 0 ∧ s.pins.pg.get .host = true ∧
    s.pwc.enables.get .panel = true ∧ l.pwc.step = .stopRail .host [.panel] ∧ l.pwc.railTimer = some 0 ∧
    l.pins.pg.get .host = true ∧ (∀ n ∈ [Rail.panel], l.pwc.enables.get n = false) ∧
    (let o := s.onPwc fun p =>
      { p with step := .stopRail .host [.panel, .audio, .sensor], enables := ⟨true, false, false, true⟩ }
     [Rail.panel, .audio, .sensor] = [.panel, .audio] ++ .sensor :: [] ∧
     (∀ m ∈ [Rail.panel, .audio], o.pwc.enables.get m = false) ∧ o.pwc.enables.get .sensor = true) := by decide

theorem test_ImmediateStops_premises :
    let s := live.onPwc fun p => { p with overrideTimer := some 0 }
    s.pwc.state ≠ .off ∧ s.pwc.overrideTimer = some 0 ∧ s.pins.mainOk = true ∧
    offReady.pwc.state = .off ∧ offReady.pins.mainOk = true := by decide

/-- ButtonEffects: 20 ms after the level changed, in ACTIVE, DIMMED and STANDBY; pressed; and a microsecond earlier. -/
theorem test_ButtonEffects_premises :
    let held (s : State) : State := s.onPwc fun p => { p with debounce := some 0 }
    let pressed := held live |>.onPwc fun p => { p with pressed := true }
    (held live).pwc.pressed = false ∧ (held live).pwc.debounce = some 0 ∧ (held live).pwc.state = .active ∧
    (held (powered .dimmed .none live)).pwc.pressed = false ∧ (held (powered .dimmed .none live)).pwc.state = .dimmed ∧
    (held (powered .standby .none live)).pwc.pressed = false ∧ (held (powered .standby .none live)).pwc.state = .standby ∧
    pressed.pwc.pressed = true ∧ pressed.pwc.debounce = some 0 ∧
    (after .buttonPress (held (powered .enteringStandby .enterDrain live))).pwc.keptWake = some .button ∧
    (after .buttonPress ((held (powered .enteringStandby .enterDrain live)).onPwc fun p =>
      { p with keptWake := some .presence })).pwc.keptWake = some .presence ∧
    (∀ x ∈ [PowerState.starting, .waking, .stopping],
      (held (powered x .none live)).pwc.pressed = false ∧ (held (powered x .none live)).pwc.debounce = some 0 ∧
      (after .buttonPress (held (powered x .none live))).pwc.pressed = true) ∧
    (live.onPwc fun p => { p with debounce := some 1 }).pwc.debounce ≠ some 0 := by decide

theorem test_ThermalOverride_premises :
    live.alertAsserted = false ∧ (live.onPwc fun p => { p with thermalTimer := some 0 }).pwc.thermalTimer = some 0 ∧
    ((live.onPins fun p => { p with thermAlert := false }).onPwc fun p => { p with overrideOn := true }).alertAsserted =
      true := by decide

theorem test_StandbyAndWake_premises :
    let d := powered .enteringStandby .enterDrain live
    let r := (powered .enteringStandby .enterRefresh live).onDa fun d => { d with mode := .entering }
    let k := r.onPwc fun p => { p with keptWake := some .button }
    let w := ((powered .waking .wakeExit live).onDa fun d => { d with mode := .exiting }).onPins fun p =>
      { p with pg := PerRail.none }
    d.pwc.step = .enterDrain ∧ d.da.all = [] ∧ r.da.mode = .entering ∧ r.pwc.step = .enterRefresh ∧
    r.pwc.keptWake = none ∧ k.pwc.keptWake = some .button ∧ w.da.mode = .exiting ∧ w.pwc.step = .wakeExit ∧
    w.pins.pg.audio = false := by decide

/-- Settings at the ends of their ranges, factors 1 and 8, and beyond; a transition in which the port takes the
record; and a request code above OFF. -/
theorem test_PowerRequests_premises :
    let waking := powered .waking .wakeExit live
    live.taking ∧ waking.taking ∧ live.pwc.awake = true ∧ ([8, 1, 1, 0, 0, 0, 1] : List Byte).length = 7 ∧
    settingsAt (0 :: [8, 1, 1, 0, 0, 0, 1]) = some ⟨8, 1, true, false, false, false, true⟩ ∧
    settingsAt (0 :: [9, 1, 1, 0, 0, 0, 1]) = none ∧ settingsAt (0 :: [8, 0, 1, 0, 0, 0, 1]) = none ∧
    (1 : U32) ≠ (live.entry .power).lastSeen ∧ (powered .dimmed .none live).pwc.awake = true ∧
    (powered .dimmed .none live).pwc.state = .dimmed ∧ live.pwc.enables.host = true ∧
    waking.pwc.state ∈ [PowerState.starting, .enteringStandby, .waking, .stopping] ∧ 4 < byteAt [5] 0 ∧
    outcomeOf (.powerRequestOff [8, 1, 1, 0, 0, 0, 1] 1) .power waking = .refusedBusy ∧
    outcomeOf (.powerRequestOff [9, 1, 1, 0, 0, 0, 1] 1) .power waking = .refusedField :=
  ⟨live_takes, ⟨by decide, by decide, by decide, by decide⟩, by decide +kernel⟩

/-- PowerRequests, the settings' places and ranges at their ends. -/
theorem test_PowerRequests_fields :
    settingsAt [3, 1, 8, 1, 0, 1, 0, 1] = some ⟨1, 8, true, false, true, false, true⟩ ∧
    settingsAt [3, 0, 8, 1, 0, 1, 0, 1] = none ∧ settingsAt [3, 1, 9, 1, 0, 1, 0, 1] = none ∧
    ([3, 4, 5, 6, 7].all fun i => settingsAt ([3, 1, 8, 1, 0, 1, 0, 1].set i 2) == none) = true := by decide

/-- The last line below 1 GiB that the plan area leaves, the first one above, and the last of all. -/
theorem test_HostReads_premises :
    classify (64 * (0xFFFEFF : HostLine).toNat) live = .plain ∧ 64 * (0xFFFEFF : HostLine).toNat < 0x40000000 ∧
    classify (64 * (0x1000000 : HostLine).toNat) live = .plain ∧ 64 * (0x1000000 : HostLine).toNat = 0x40000000 ∧
    classify (64 * (0x1FFFFFF : HostLine).toNat) live = .plain ∧ live.hmp.reads = [] := by decide +kernel

theorem test_StatusPageReads_premises :
    live.taking ∧ live.hmp.reads = [] ∧ classify (64 * (live.pageLine 127).toNat) live = .status 127 ∧
    (6, [8]) ∈ statusMap 77 live ∧ bytesAt (statusLine 77 live) 6 2 = [8, 4] ∧
    (∀ f ∈ statusMap 77 live, 40 < f.1 ∨ f.1 + f.2.length ≤ 40) :=
  ⟨live_takes, by decide +kernel⟩

/-- Regions 0 to 3 bind 4 KiB each from address 1 MiB: frame 5, fresh 3, touch 3, guard. -/
def zoned : State :=
  live.onRm fun m =>
    { m with regions := vset (vset (vset (vset m.regions 0 ⟨true, 0, 5, 0x100000, 1, 0⟩)
        1 ⟨true, 1, 3, 0x101000, 1, 0⟩) 2 ⟨true, 2, 3, 0x102000, 1, 0⟩) 3 ⟨true, 3, 0, 0x103000, 1, 0⟩ }

/-- HostReads, the classes at the edges of the plan area, of an entry's extent and of two entries that overlap; with each
plan base that PLAN_SEL gives. -/
theorem test_HostReads_classes :
    let overlapping := live.onRm fun m => { m with
      regions := vset (vset m.regions 30 ⟨true, 1, 2, 0x100000, 2, 0⟩) 31 ⟨true, 3, 9, 0x101000, 2, 0⟩ }
    let selected (n : Fin 4) : State := live.onPu fun p => { p with sel := n }
    ([0x3FFFBFFF, 0x3FFFC000, 0x3FFFCFFF, 0x3FFFD000, 0x3FFFDFFF, 0x3FFFE000, 0x3FFFFFFF, 0x40000000].map (classify · live) =
      [.plain, .record 0, .record 0xFFF, .planPlain, .planPlain, .status 0, .status 127, .plain]) ∧
    ([0xFFFFF, 0x100000, 0x100FFF, 0x101000, 0x101FFF, 0x102000, 0x102FFF, 0x103000].map (classify · overlapping) =
      [.plain, .fresh 30 2, .fresh 30 2, .fresh 30 2, .fresh 30 2, .guarded 31, .guarded 31, .plain]) ∧
    (classify 0x100000 zoned, classify 0x101FFF zoned, classify 0x102FFF zoned) = (.frame 5, .fresh 1 3, .touch 3) ∧
    ((List.finRange 4).map fun n => (selected n).planBase) = [0x3FFFC000, 0, 0x1FFFC000, 0x20000000] := by decide +kernel

theorem zoned_takes : zoned.taking := ⟨by decide, by decide, by decide, by decide⟩

theorem test_FreshReads_premises :
    zoned.taking ∧ zoned.hmp.reads = [] ∧ classify (64 * (0x4040 : HostLine).toNat) zoned = .fresh 1 3 ∧
    (∃ t, (live.onSo fun o => { o with lastPhoton := some ⟨5, 0⟩ }).so.lastPhoton = some t ∧
      t.epoch = live.tb.snapshot.epoch) ∧
    (∃ t, (live.onSo fun o => { o with lastPhoton := some ⟨5, 1⟩ }).so.lastPhoton = some t ∧
      t.epoch ≠ live.tb.snapshot.epoch) ∧ (vget live.sh.slots 0).record = none :=
  ⟨zoned_takes, by decide, by decide +kernel, ⟨⟨5, 0⟩, by decide⟩, ⟨⟨5, 1⟩, by decide⟩, by decide⟩

/-- FreshReads: a record with every field set, and the next expected photon time in this epoch, in another, and none. -/
theorem test_FreshReads_record :
    let r : SensorRec :=
      { channel := 3, faultCleared := true, seq := 0x201, stamp := ⟨5, 7⟩, frame := 9, overrun := 4, length := 2,
        payload := padTo 16 [0xAA, 0xBB] }
    let s := (live.onSh fun h => { h with slots := vset h.slots 2 ⟨some r, 6⟩ }).onSo fun o =>
      { o with state := .running, lastBoundary := ⟨100, 0⟩ }
    let other := s.onTb fun t => { t with snapshot := ⟨0, 1⟩ }
    (vget s.sh.slots 2).record = some r ∧ s.so.nextPhoton = some ⟨5900, 0⟩ ∧ live.so.nextPhoton = none ∧
    (freshLine 2 s).take 20 = [3, 0x0B, 1, 2, 5, 0, 0, 0, 0, 7, 2, 4, 9, 0, 0, 0, 0xAA, 0xBB, 0, 0] ∧
    bytesAt (freshLine 2 s) 43 5 = [0x0C, 0x17, 0, 0, 0] ∧ (freshLine 2 other).getD 1 0 = 0x1B := by decide +kernel

/-- The classes of a write, each at the last line of its region or area. -/
theorem test_HostWrites_premises :
    classify (64 * (0x407F : HostLine).toNat) zoned = .fresh 1 3 ∧
    classify (64 * (0x40BF : HostLine).toNat) zoned = .touch 3 ∧
    classify (64 * (0x40FF : HostLine).toNat) zoned = .guarded 3 ∧
    classify (64 * (0x4100 : HostLine).toNat) zoned = .plain ∧
    classify (64 * (0xFFFF7F : HostLine).toNat) zoned = .planPlain ∧
    classify (64 * (0xFFFF80 : HostLine).toNat) zoned = .status 0 ∧
    classify (64 * (0x1000000 : HostLine).toNat) zoned = .plain := by decide +kernel

/-- HostWrites, the drops of a FRESH and a GUARD region: each is counted at its own entry alone, and the GUARD one captured
once. -/
theorem test_HostWrites_drops :
    let fresh := after (.hostWrite 0x407F 0 1) zoned
    let guarded := after (.hostWrite 0x40FF 0 1) zoned
    let drops (s : State) : List Nat := (vlist s.rm.regions).map (·.drops.toNat)
    drops zoned = List.replicate 32 0 ∧ drops fresh = (List.replicate 32 0).set 1 1 ∧
    drops guarded = (List.replicate 32 0).set 3 1 ∧ (guarded.rm.statusDrops, guarded.rm.rangeDrops) = (0, 0) ∧
    (zoned.da.captureTotal, fresh.da.captureTotal, guarded.da.captureTotal) = (0, 0, 1) := by decide +kernel

/-- HostWrites, the record area: one write that ends both regions of its line, one that ends none and covers no live
word, and one that does nothing but cover a live word; and a TOUCH write at 1 GiB. -/
theorem test_HostWrites_records :
    let ends := lineData (enumFrom 0 (List.replicate 64 1))
    let both := after (.hostWrite 0xFFFF00 ends 0xF0000000F0000000) live
    let none := after (.hostWrite 0xFFFF00 ends 0x70000001) live
    let word := after (.hostWrite 0xFFFF10 3 0x1000000) shown
    let high := live.onRm fun m => { m with regions := vset m.regions 2 ⟨true, 2, 3, 0x40000000, 1, 0⟩ }
    classify (64 * (0xFFFF00 : HostLine).toNat) live = .record 0 ∧
    classify (64 * (0xFFFF3F : HostLine).toNat) live = .record 0xFC0 ∧
    ((both.entry (.region 0)).lastSeen, (both.entry (.region 1)).outcome) = (0x01010101, .taken) ∧
    (both.pu.shadow.read 28, both.pu.shadow.read 0, both.da.requests.length + both.da.service.toList.length) = (1, 0, 1) ∧
    ((none.entry (.region 0)).outcome, none.pu.shadow.read 30, none.pu.shadow.read 31) = (.none, 1, 0) ∧
    LiveWord.coveredBy (enabledBytes 3 0x1000000) (.fence 0) = true ∧ word.pu.shadow.read 0x418 = 0 ∧
    classify (64 * (0x1000000 : HostLine).toNat) high = .touch 3 ∧ high.taking ∧
    (after (.hostWrite 0x1000000 0 1) high).rm.rangeDrops = 1 :=
  ⟨by decide +kernel, by decide +kernel, by decide +kernel, by decide +kernel, by decide +kernel, by decide +kernel,
   by decide +kernel, by decide +kernel, ⟨by decide, by decide, by decide, by decide⟩, by decide +kernel⟩

/-- Surface 0, CURRENT and ORDERED, in a FRAME region; its one band SCANNED or not. -/
def watched (scanned : Bool) : State :=
  (putSurface 0 { surf (cfg 0 .both .host .ordered) .current with bands := [⟨false, scanned, false, false⟩] } live).onRm
    fun m => { m with regions := vset (vset m.regions 0 ⟨true, 0, 0, 0x100000, 1, 0⟩) 1 ⟨true, 0, 0, 0x40000000, 1, 0⟩ }

theorem watched_takes (b : Bool) : (watched b).taking := ⟨rfl, rfl, rfl, by cases b <;> decide⟩

/-- The FRAME class: the first line of the surface, its final line, the line below, and one above the memory. -/
theorem test_HostWrites_frame_premises :
    let late := after (.hostWrite 0x400F 0 1) (watched true)
    let done := after (.hostWrite 0x400F 0 1) (watched false)
    (∀ b, (watched b).taking) ∧ classify (64 * (0x4000 : HostLine).toNat) (watched true) = .frame 0 ∧
    classify (64 * (0x400F : HostLine).toNat) (watched true) = .frame 0 ∧
    classify (64 * (0x4010 : HostLine).toNat) (watched true) = .frame 0 ∧
    classify (64 * (0x1000000 : HostLine).toNat) (watched true) = .frame 0 ∧
    (cfg 0 .both .host .ordered).finalLine 0 = 64 * 0x400F ∧ ((watched true).st.surface 0).bands.length = 1 ∧
    ((late.st.surface 0).bands, late.pendingEvent .lateWrite) = ([⟨true, true, true, false⟩], true) ∧
    ((done.st.surface 0).bands, done.pendingEvent .lateWrite) = ([⟨true, false, false, false⟩], false) ∧
    (after (.hostWrite 0x4010 0 1) (watched true)).st = (watched true).st :=
  ⟨watched_takes, by decide +kernel⟩

theorem test_HeldTransactions_premises :
    let s := (powered .standby .none live).onHmp fun h => { h with hold := .standby }
    let e := (powered .enteringStandby .enterDrain live).onHmp fun h => { h with hold := .standby }
    let r := live.onHmp fun h => { h with hold := .softReset }
    s.portOpen = true ∧ s.hmp.hold ≠ .none ∧ s.hmp.held = none ∧ s.hmp.atPins = [] ∧ s.pwc.state = .standby ∧
    e.portOpen = true ∧ e.hmp.hold = .standby ∧ e.pwc.state = .enteringStandby ∧ e.pwc.keptWake = none ∧
    r.portOpen = true ∧ r.hmp.hold ≠ .none ∧ r.hmp.hold ≠ .standby := by decide

/-- ServicesComplete: every completion command has an agent whose request it completes. -/
theorem test_ServicesComplete_premises :
    let l : List (Instr × Agent) :=
      [(.planInitializationComplete [], .planInit), (.hostReadComplete [], .hostRead 0), (.hostWriteComplete [], .hostWrite),
       (.scrubComplete [], .scrub), (.bandReadComplete [], .band 0), (.sensorRingWriteComplete [], .sensorRing 0 0 0),
       (.depositWriteComplete [], .deposit 0 0), (.messageEntryWriteComplete [], .messageEntry 0 0 0),
       (.messageReadComplete [], .messageRead 0), (.audioFetchComplete [], .fetch 0), (.captureWriteComplete [], .capture 0)]
    (l.all fun p => completes live p.1 p.2) = true ∧
    completes (live.onPu fun p => { p with initLeft := 2 }) (.hostWriteComplete []) .planInit = true := by decide

theorem test_WritesReachTheMemory_premises :
    let bytes : List (Nat × Byte) := [(0, 1), (63, 0)]
    let s := serving .hostWrite 5 (.write bytes) live
    s.da.service = some ⟨.hostWrite, 5, .write bytes⟩ ∧ completes s (.hostWriteComplete []) .hostWrite = true ∧
    s.pwc.enables.host = true ∧ (bytes.map (·.1)).Nodup ∧ (∀ b ∈ bytes, b.1 < 64) ∧
    (match exec (.hostWriteComplete []) s with
      | .next t => t.mem == [(320, 1)]
      | _ => false) = true := by decide +kernel

/-- ReadsComplete: a host read in front, the last line of a band, a period's last fetch, the last read of a MESSAGE. -/
def bandJob : BandJob :=
  { id := 1, panel := .left, band := 0, config := cfg 0 .both .host .ordered, firstRow := 0, rowCount := 16, width := 16,
    left := 1, failed := false, late := false, lines := [] }

def readBack : State :=
  (((up.onHmp fun h => { h with reads := [⟨0, none⟩] }).onSo fun o => { o with jobs := [bandJob] }).onAu fun a =>
    { a with fetches := [{ id := 2, ring := 0, corr := .none, count := 48, frames := [], left := 1, mixed := false }] }).onTc
    fun t => { t with lane := .reading 4 3 1 [] false false, queue := [⟨4, .message 2 0x1000 8⟩] }

theorem test_ReadsComplete_premises :
    readBack.hmp.atPins = [] ∧ readBack.hmp.reads = [⟨0, none⟩] ∧
    readBack.so.jobs.find? (·.id == 1) = some bandJob ∧ bandJob.left = 1 ∧ bandJob.failed = false ∧
    { bandJob with left := 2 }.left = 2 ∧ { bandJob with late := true }.left = 1 ∧ (readBack.au.fetches.map (·.id)) = [2] ∧
    readBack.tc.lane = .reading 4 3 1 [] false false ∧
    readBack.tc.queue.find? (·.id == 4) = some ⟨4, .message 2 0x1000 8⟩ ∧
    (addReport [] 0x40 [(0, .double 5)]).any (fun f => !singleFlaw f.2) = true := by decide

/-- WritesComplete: the rings', slices', payloads' and blocks' next writes. -/
def writeBack : State :=
  ((up.onTc fun t =>
    { t with ring := { t.ring with jobs := [⟨0, 1⟩, ⟨1, 2⟩] }, slices := [⟨9, 4, 3, 15, 1⟩],
             frontiers := vset t.frontiers 3 ⟨some 15, none, some 4⟩ }).onAu fun a => { a with blocks := [⟨6, 1⟩, ⟨7, 2⟩] }).onSt
    fun t => { t with surfaces := vset t.surfaces 3 (surf (cfg 3 .both .tether .ordered) .opened) }

theorem test_WritesComplete_premises :
    writeBack.hmp.atPins = [] ∧ writeBack.tc.paused = none ∧ (vget writeBack.sh.rings 7).done = [] ∧
    (vget writeBack.sh.rings 7).produce = 0 ∧ (1 : U16) ≠ (vget writeBack.sh.rings 7).produce ∧
    writeBack.generation = 0 ∧ writeBack.tc.ring.jobs = [⟨0, 1⟩, ⟨1, 2⟩] ∧
    writeBack.tc.slices = [⟨9, 4, 3, 15, 1⟩] ∧ writeBack.tc.audioJobs = [] ∧
    (writeBack.st.surface 3).config = some (cfg 3 .both .tether .ordered) ∧
    (cfg 3 .both .tether .ordered).owner = .tether ∧ (vget writeBack.tc.frontiers 3).openedBy = some 4 ∧
    (writeBack.st.surface 3).state ≠ .free ∧ (up.onTc fun t => { t with audioJobs := [⟨8, 16, 1⟩] }).tc.slices = [] ∧
    writeBack.au.blocks = [⟨6, 1⟩, ⟨7, 2⟩] ∧ writeBack.hmp.held = none ∧ writeBack.pu.initLeft ≤ 1 ∧
    writeBack.hmp.hold ≠ .standby ∧ (powered .starting .startPlan live).pwc.step = .startPlan := by decide

/-- WritesComplete, several at once: three records of a ring around FFFFh with one beyond a gap; three entries of four;
blocks and payloads up to the first with a write left. -/
theorem test_WritesComplete_runs :
    let ring := up.onSensorRing 7 fun r => { r with produce := 0xFFFE, done := [0, 2, 0xFFFF] }
    let entries := up.onTc fun t => { t with ring := { t.ring with produce := 8, jobs := [⟨8, 1⟩, ⟨9, 0⟩, ⟨10, 0⟩, ⟨11, 2⟩] } }
    let played := up.onTc fun t => { t with audioJobs := [⟨8, 16, 1⟩, ⟨9, 4, 0⟩, ⟨10, 2, 3⟩] }
    let caught := up.onAu fun a => { a with blocks := [⟨6, 1⟩, ⟨7, 0⟩, ⟨8, 1⟩] }
    let r := vget (after (.sensorRingWriteComplete []) (serving (.sensorRing 7 0xFFFE 0) 1 (.write [(0, 1)]) ring)).sh.rings 7
    let m := after (.messageEntryWriteComplete []) (serving (.messageEntry 8 0 1) 1 (.write [(0, 1)]) entries)
    let a := after (.depositWriteComplete []) (serving (.deposit 8 1) 1 (.write [(0, 1)]) played)
    let c := after (.captureWriteComplete []) (serving (.capture 6) 1 (.write [(0, 1)]) caught)
    (r.produce, r.done) = (1, [2]) ∧ (m.tc.ring.produce, m.tc.ring.jobs, m.pendingEvent .messageIn) = (11, [⟨11, 2⟩], true) ∧
    ((vget a.au.rings 0).produce, a.tc.audioJobs) = (20, [⟨10, 2, 3⟩]) ∧
    ((vget c.au.rings 2).produce, c.au.blocks) = (32, [⟨8, 1⟩]) := by decide +kernel

/-- What the jobs of these completions count off. -/
theorem test_WritesComplete_counted :
    countsOff EntryJob.left [⟨8, 0⟩, ⟨9, 0⟩, ⟨10, 0⟩, ⟨11, 2⟩] [⟨8, 0⟩, ⟨9, 0⟩, ⟨10, 0⟩] [⟨11, 2⟩] ∧
    countsOff AudioJob.left [⟨8, 16, 0⟩, ⟨9, 4, 0⟩, ⟨10, 2, 3⟩] [⟨8, 16, 0⟩, ⟨9, 4, 0⟩] [⟨10, 2, 3⟩] ∧
    countsOff CaptureBlock.left [⟨6, 0⟩, ⟨7, 0⟩, ⟨8, 1⟩] [⟨6, 0⟩, ⟨7, 0⟩] [⟨8, 1⟩] ∧
    countsOff EntryJob.left [⟨8, 1⟩, ⟨9, 0⟩] [] [⟨8, 1⟩, ⟨9, 0⟩] ∧ countsOff EntryJob.left [⟨8, 0⟩] [⟨8, 0⟩] [] := by
  refine ⟨⟨rfl, by decide, ?_⟩, ⟨rfl, by decide, ?_⟩, ⟨rfl, by decide, ?_⟩, ⟨rfl, by decide, ?_⟩, rfl, by decide, nofun⟩ <;>
    (rintro j h; cases h; decide)

/-- WritesComplete, slices: of frame 4 the first three are complete once this write is, of frame 5 the first is not; the
frontier of surface 3 comes to row 15 of its 16, and its one band, SCANNED, is complete and LATE. -/
theorem test_WritesComplete_slices :
    let f := surf (cfg 3 .both .tether .ordered) .opened
    let s := (putSurface 3 { f with bands := [⟨false, true, false, false⟩] } up).onTc fun t =>
      { t with slices := [⟨9, 4, 3, 3, 1⟩, ⟨10, 5, 2, 7, 1⟩, ⟨11, 4, 3, 7, 0⟩, ⟨12, 5, 2, 9, 0⟩, ⟨13, 4, 3, 15, 0⟩, ⟨14, 4, 3, 16, 2⟩],
               frontiers := vset (vset t.frontiers 3 ⟨some 15, none, some 4⟩) 2 ⟨some 9, none, some 5⟩ }
    let u := after (.depositWriteComplete []) (serving (.deposit 9 1) 1 (.write [(0, 1)]) s)
    u.tc.slices = [⟨10, 5, 2, 7, 1⟩, ⟨12, 5, 2, 9, 0⟩, ⟨14, 4, 3, 16, 2⟩] ∧
    vget u.tc.frontiers 3 = ⟨some 15, some 15, some 4⟩ ∧ vget u.tc.frontiers 2 = ⟨some 9, none, some 5⟩ ∧
    (u.st.surface 3).bands = [⟨true, true, true, false⟩] := by decide +kernel

theorem test_ErrorsOfALineRead_premises :
    let one := live.onDa fun d => { d with flaws := [(40, .single)] }
    let full := one.onDa fun d => { d with scrubs := [1, 2, 3, 4, 6, 7, 8, 9] }
    (lineFlaws one.da.flaws 5).length = 1 ∧ 5 ∉ one.da.scrubs ∧ one.da.scrubs.length < 8 ∧
    5 ∈ (one.onDa fun d => { d with scrubs := [5] }).da.scrubs ∧ 5 ∉ full.da.scrubs ∧ 8 ≤ full.da.scrubs.length ∧
    lineFlaws live.da.flaws 5 = [] := by decide

theorem test_UncorrectableWordsAreCaptured_premises :
    let bytes : List (Nat × Byte) := [(0, 1)]
    let s := serving .hostWrite 5 (.write bytes) live
    s.da.service = some ⟨.hostWrite, 5, .write bytes⟩ ∧ completes s (.hostWriteComplete []) .hostWrite = true ∧
    s.hmp.held = none ∧ s.hmp.atPins = [] ∧
    (∃ f ∈ lineFlaws (addReport s.da.flaws 5 [(0, .double 3)]) 5, singleFlaw f.2 = false ∧ judged bytes (f.1 % 8) = true) ∧
    judged (enumFrom 0 (zeros 8)) 0 = false := by decide

/-! ### Arms -/

theorem shown_takes : shown.taking := ⟨by decide, by decide, by decide, by decide⟩

theorem test_EveryArmIsJudged_premises :
    live.taking ∧ armsOf (.powerRequestNone [8, 4, 0, 1, 1, 0, 0] 1) = some (.power, 1) ∧
    (1 : U32) ≠ (live.entry .power).lastSeen ∧ live.pwc.enables.host = true ∧ (0 : U32) = (live.entry .power).lastSeen ∧
    outcomeOf (.powerRequestNone [8, 4, 0, 1, 1, 0, 0] 1) .power live = .taken ∧
    outcomeOf (.powerRequestNone [8, 4, 0, 1, 1, 0, 0] 0) .power live = .none ∧
    armWrite (.surfaceOpen 5 1) = [(49, 1), (60, 1), (61, 0), (62, 0), (63, 0)] ∧
    (after (.surfaceOpen 5 1) live).pu.shadow.read 0x4B1 = 1 :=
  ⟨live_takes, by decide +kernel⟩

theorem test_SoftResetEffect_premises :
    live.arms .part 1 ∧ live.pwc.inTransition = false ∧ (powered .waking .wakeExit live).arms .part 1 ∧
    (powered .waking .wakeExit live).pwc.inTransition = true :=
  ⟨live_arms .part (by decide), by decide, ⟨⟨by decide, by decide, by decide, by decide⟩, by decide⟩, by decide⟩

/-- The fields of a surface record at 1 MiB, 16 by 16 pixels. -/
def surfaceFields (bandRows : Byte) : List Byte :=
  padTo 28 (toBytes 4 0x100000 ++ toBytes 4 64 ++ toBytes 2 16 ++ toBytes 2 16 ++ [0, 2, 0, 1, bandRows])

theorem test_SurfaceCommands_premises :
    shown.arms (.surface 0) 1 ∧ shown.arms (.surface 3) 1 ∧ (shown.st.surface 3).ownedBy .tether = true ∧
    (shown.st.surface 3).state = .free ∧ (shown.st.surface 0).ownedBy .host = true ∧
    (shown.st.surface 0).state = .opened ∧ shown.st.barred = false ∧ (shown.st.surface 1).config = none ∧
    ((putSurface 0 (surf (cfg 0 .both .host .fenced) .free) shown).st.surface 0).state = .free ∧
    ([SurfaceState.ready, .queued, .current, .held].all fun x =>
      ((putSurface 0 (surf (cfg 0 .both .host .fenced) x) shown).st.surface 0).state == x) = true ∧
    fieldsOk 32 (surfaceFields 16) = true ∧ surfaceConfigAt (surfaceFields 16) = some (cfg 0 .both .host .fenced) ∧
    (cfg 0 .both .host .fenced).ok shown.planBase = true ∧ surfaceConfigAt (surfaceFields 17) = none ∧
    ({ cfg 0 .both .host .fenced with height := 15 }).ok shown.planBase = false :=
  ⟨⟨shown_takes, by decide⟩, ⟨shown_takes, by decide⟩, by decide +kernel⟩

/-- SurfaceCommands, the codes' ends, the extent beside the plan area, and the checks' bounds. -/
theorem test_SurfaceCommands_fields :
    let c := cfg 0 .both .host .fenced
    let page : SurfaceConfig := { c with pitch := 256 }
    surfaceConfigAt ((surfaceFields 64).set 12 1) = some { c with format := .rgb565, bandRows := 64 } ∧
    surfaceConfigAt ((surfaceFields 16).set 12 2) = none ∧ surfaceConfigAt ((surfaceFields 16).set 13 3) = none ∧
    surfaceConfigAt ((surfaceFields 16).set 14 2) = none ∧ surfaceConfigAt ((surfaceFields 16).set 15 2) = none ∧
    ([0x3FFFB000, 0x3FFFC000, 0x3FFFF000, 0x40000000].map fun b => { page with base := b }.ok 0x3FFFC000) =
      [true, false, false, false] ∧
    ([0, 0x3000, 0x4000, 0x3FFFF000].map fun b => { page with base := b }.ok 0) = [false, false, true, true] ∧
    ({ c with base := 0x100800 }.ok 0, { c with pitch := 96 }.ok 0, { c with width := 17 }.ok 0,
      { c with width := 17, format := .rgb565 }.ok 0, { c with width := 15 }.ok 0) = (false, false, false, true, false) ∧
    (judgeSurface 0 ((surfaceFields 16).set 17 3) shown).1 = .refusedField ∧
    (judgeSurface 0 ((surfaceFields 16).set 17 2) shown).1 = .taken := by decide +kernel

/-- A present slot's fields: tag 7, surface 0 for both eyes, no target, no pose. -/
def presentFields (left : Byte) : List Byte := padTo 28 [7, 0, 0, 0, left, 0xFF, 0, 0]

theorem test_PresentSlots_premises :
    shown.arms (.present 0) 1 ∧ fieldsOk 32 (presentFields 0) = true ∧ presentAt (presentFields 6) = none ∧
    presentAt (presentFields 0) = some entry0 ∧ (∀ m ∈ entry0.named, (shown.st.surface m).presentable = true) ∧
    shown.st.barred = false ∧ shown.st.eyesOk entry0.left entry0.right = true ∧
    (∀ m ∈ entry0.named, shown.st.fitsPanel shown.so.applied m = true) ∧ shown.st.queue.length < 3 ∧
    3 ≤ (shown.onSt fun t => { t with queue := [entry0, entry0, entry0] }).st.queue.length ∧
    (live.st.surface 0).presentable = false ∧
    (putSurface 0 (surf (cfg 0 .left .host .fenced) .opened) shown).st.eyesOk 0 none = false ∧
    outcomeOf (.presentSlotArm 0 (presentFields 0) 1) (.present 0) shown = .taken ∧
    outcomeOf (.presentSlotArm 0 (presentFields 1) 1) (.present 0) shown = .refusedState :=
  ⟨⟨shown_takes, by decide⟩, by decide +kernel⟩

/-- PresentSlots, the places of the fields, with a right surface, a target and a pose; the right surface like the left
one, and presence codes beyond their lists. -/
theorem test_PresentSlots_fields :
    let b : List Byte := padTo 28 [7, 0, 0, 1, 0, 5, 1, 1, 1, 2, 3, 4, 5, 6, 0, 0, 8, 0, 0, 2]
    presentAt b = some ⟨0x01000007, 0, some 5, some ⟨0x0504030201, 6⟩, some 0x02000008, .host⟩ ∧
    presentAt (b.set 5 0) = none ∧ presentAt (b.set 5 6) = none ∧ presentAt (b.set 6 2) = none ∧
    presentAt (b.set 7 2) = none ∧
    (putSurface 1 (surf (cfg 1 .right .host .fenced) .opened) (putSurface 0 (surf (cfg 0 .left .host .fenced) .opened)
      shown)).st.eyesOk 0 (some 1) = true ∧
    (putSurface 1 (surf (cfg 1 .right .host .fenced) .opened) shown).st.eyesOk 1 (some 0) = false ∧
    (surf (cfg 0 .both .tether .fenced) .opened).presentable = false ∧
    (surf (cfg 0 .both .tether .fenced) .ready).presentable = true := by decide +kernel

/-- The fields of the default timing set with scan enable and the height of the panels. -/
def timingFields (enable : Byte) (height : Nat) : List Byte :=
  padTo 60 (enable :: (timingBytes { TimingSet.default with panelHeight := height }).drop 1)

theorem test_TimingArms_premises :
    live.arms .timing 1 ∧ fieldsOk 64 (timingFields 1 2160) = true ∧ timingAt (timingFields 2 2160) = none ∧
    timingAt (timingFields 1 2160) = some { TimingSet.default with scanEnable := true } ∧
    timingAt (timingFields 1 15) = none ∧ (timingAt (timingFields 1 2560)).isSome = true ∧
    live.so.state ≠ .running ∧ live.so.pendingSet = none ∧ live.mayStart = true ∧
    (live.onSo fun o => { o with state := .waiting }).so.state = .waiting ∧ (phase .scan live).so.state = .running ∧
    outcomeOf (.timingSetArm (timingFields 1 2160) 1) .timing live = .taken ∧
    outcomeOf (.timingSetArm (timingFields 1 2160) 1) .timing (phase .scan live) = .pending ∧
    outcomeOf (.timingSetArm (timingFields 1 2159) 1) .timing (phase .scan live) = .refusedState :=
  ⟨live_arms .timing (by decide), by decide +kernel⟩

/-- TimingArms, the places and ranges: TRIGGERED with the loss limit at the period and at 1 s, and past each; the frame
that just fits, and one that does not. -/
theorem test_TimingArms_fields :
    let t : TimingSet := { TimingSet.default with sync := .triggered, policy := .latest, reloadSkip := 7, photonUplink := true,
                                                  lineLeft := .released, lineRight := .inverted, level := 63,
                                                  lossLimit := TimingSet.default.period, fallback := ⟨1, 2, 3⟩ }
    let at' (t : TimingSet) : Option TimingSet := timingAt (padTo 60 (timingBytes t))
    at' t = some t ∧ at' { t with lossLimit := t.period - 1 } = none ∧
    (at' { t with lossLimit := 1000000 }).isSome = true ∧ at' { t with lossLimit := 1000001 } = none ∧
    (at' { t with sync := .free, lossLimit := 0 }).isSome = true ∧ at' { t with reloadSkip := 8 } = none ∧
    at' { t with level := 64 } = none ∧ at' { t with level := 0 } = none ∧
    (at' { t with scan := 1000, settle := 2000, strobeWidth := 1900, period := 5000, lossLimit := 5000 }).isSome = true ∧
    at' { t with scan := 1001, settle := 2000, strobeWidth := 1900, period := 5000, lossLimit := 5000 } = none ∧
    live.st.holdsFrame = false ∧ (live.onSt fun t => { t with queue := [entry0] }).st.holdsFrame = true := by decide +kernel

/-- A channel record: data-ready, 4 command bytes, 16 bytes read, fault limit 15, keep. -/
def channelFields (limit : Byte) : List Byte := padTo 60 ([1, 0, 4, 16, limit, 1, 0, 0] ++ toBytes 4 250 ++ [1, 2, 3, 4])
/-- A routing rule for every channel: ring 7, slot 3, uplink, presence ON, final. -/
def ruleFields (offset : Byte) : List Byte := padTo 12 [1, 15, 1, offset, 0xFF, 9, 7, 3, 1, 1, 1]
/-- A sensor ring enable with base and capacity. -/
def ringFields (base capacity : Nat) : List Byte := padTo 28 ([1, 0, 0, 0] ++ toBytes 4 base ++ toBytes 4 capacity)

theorem test_SensorArms_premises :
    live.arms (.channel 3) 1 ∧ live.arms (.rule 15) 1 ∧ live.arms (.sensorRing 7) 1 ∧
    fieldsOk 64 (channelFields 15) = true ∧ channelConfigAt (channelFields 16) = none ∧
    (channelConfigAt (channelFields 15)).isSome = true ∧ fieldsOk 16 (ruleFields 15) = true ∧
    (ruleAt (ruleFields 15)).isSome = true ∧ ruleAt (ruleFields 16) = none ∧
    fieldsOk 32 (ringFields 0 4096) = true ∧ flagAt (ringFields 0 4096) 0 = some true ∧ flagAt [2] 0 = none ∧
    flagAt [0] 0 = some false ∧ numAt (ringFields 64 4096) 8 4 ∈ sensorCapacities ∧
    meetsPlan live.planBase 0x3FFDC000 (32 * 4096) = false ∧ meetsPlan live.planBase 0x3FFDC040 (32 * 4096) = true ∧
    (vget live.sh.rings 7).enabled = false ∧ (vget live.sh.rings 7).issued = (vget live.sh.rings 7).produce ∧
    outcomeOf (.sensorRingArm 7 (ringFields 0x3FFDC000 4096) 1) (.sensorRing 7) live = .taken ∧
    outcomeOf (.sensorRingArm 7 (ringFields 0x3FFDC040 4096) 1) (.sensorRing 7) live = .refusedField :=
  ⟨live_arms _ (by decide), live_arms _ (by decide), live_arms _ (by decide), by decide +kernel⟩

/-- SensorArms, the fields of a channel and of a rule at their ends. -/
theorem test_SensorArms_fields :
    let b := channelFields 15
    let interval (n : Nat) : List Byte := (padTo 60 ([1, 1, 4, 16, 1, 0, 0, 0] ++ toBytes 4 n ++ [1, 2, 3, 4]))
    channelConfigAt b = some ⟨true, .dataReady, 250, 4, [1, 2, 3, 4], 16, 15, true⟩ ∧
    channelConfigAt (b.set 2 5) = none ∧ channelConfigAt (b.set 3 0) = none ∧ channelConfigAt (b.set 3 17) = none ∧
    channelConfigAt (b.set 4 0) = none ∧ channelConfigAt (b.set 1 3) = none ∧
    ([249, 250, 1000000, 1000001].map fun n => (channelConfigAt (interval n)).isSome) = [false, true, true, false] ∧
    (channelConfigAt (b.set 8 0)).isSome = true ∧
    ruleAt (ruleFields 15) = some ⟨true, 15, .above, 15, 0xFF, 9, some 7, some 3, true, .on, true⟩ ∧
    ruleAt (((ruleFields 15).set 6 0xFF).set 7 0xFF) = some ⟨true, 15, .above, 15, 0xFF, 9, none, none, true, .on, true⟩ ∧
    ruleAt ((ruleFields 15).set 6 8) = none ∧ ruleAt ((ruleFields 15).set 7 4) = none ∧
    ruleAt ((ruleFields 15).set 2 4) = none ∧ ruleAt ((ruleFields 15).set 9 3) = none := by decide +kernel

/-- An audio ring enable: gain, base 2 MiB, capacity 256, threshold. -/
def audioFields (gain threshold : Nat) : List Byte :=
  padTo 28 ([1, 0] ++ toBytes 2 gain ++ toBytes 4 0x200000 ++ toBytes 4 256 ++ toBytes 4 threshold)
def outputFields (volume taps : Nat) : List Byte := padTo 28 (toBytes 2 volume ++ [0, 1] ++ toBytes 2 taps ++ [3, 1])

theorem test_AudioArms_premises :
    live.arms (.audioRing 2) 1 ∧ live.arms (.audioRing 0) 1 ∧ live.arms .audioOut 1 ∧
    fieldsOk 32 (audioFields 256 48) = true ∧ numAt (audioFields 257 48) 2 2 = 257 ∧
    numAt (audioFields 256 48) 8 4 ∈ audioCapacities ∧
    meetsPlan live.planBase 0x200000 1024 = false ∧ (vget live.au.rings 0).enabled = false ∧
    (vget live.au.rings 0).inFlight 0 = false ∧
    (live.onRing 0 fun r => { r with issued := 5 }).au.rings.toList.map (·.issued) = [5, 0, 0] ∧
    outcomeOf (.audioRingArm 0 (audioFields 256 48) 1) (.audioRing 0) live = .taken ∧
    outcomeOf (.audioRingArm 0 (audioFields 257 48) 1) (.audioRing 0) live = .refusedField ∧
    outcomeOf (.audioRingArm 0 (audioFields 256 47) 1) (.audioRing 0) live = .refusedField ∧
    outcomeOf (.audioRingArm 0 (audioFields 256 48) 1) (.audioRing 0) (live.onRing 0 fun r => { r with issued := 5 }) =
      .refusedBusy ∧
    outcomeOf (.audioOutputArm (outputFields 256 1) 1) .audioOut live = .taken ∧
    outcomeOf (.audioOutputArm (outputFields 256 0) 1) .audioOut live = .refusedField :=
  ⟨live_arms _ (by decide), live_arms _ (by decide), live_arms _ (by decide), by decide +kernel⟩

def messageRingFields (count : Nat) : List Byte := padTo 28 ([1, 0, 0, 0] ++ toBytes 4 0x100000 ++ toBytes 4 count)
def slotFields (addr length : Nat) : List Byte := padTo 28 (toBytes 4 addr ++ toBytes 4 length)

theorem test_MessageArms_premises :
    live.arms .messageRing 1 ∧ live.arms (.messageSlot 2) 1 ∧ fieldsOk 32 (messageRingFields 256) = true ∧
    outcomeOf (.messageRingArm (messageRingFields 256) 1) .messageRing live = .taken ∧
    outcomeOf (.messageRingArm (messageRingFields 255) 1) .messageRing live = .refusedField ∧
    outcomeOf (.messageSlotArm 2 (slotFields 0x3FFFFC04 1020) 1) (.messageSlot 2) up = .pending ∧
    outcomeOf (.messageSlotArm 2 (slotFields 0x3FFFFC05 1020) 1) (.messageSlot 2) up = .refusedField ∧
    outcomeOf (.messageSlotArm 2 (slotFields 0 1) 1) (.messageSlot 2) live = .refusedState ∧
    outcomeOf (.messageSlotArm 2 (slotFields 0 1) 1) (.messageSlot 2)
      (up.onTc fun t => { t with inProgress := vset t.inProgress 2 true }) = .refusedBusy ∧
    outcomeOf (.messageSlotArm 2 (slotFields 0 1) 1) (.messageSlot 2)
      (up.onTc fun t => { t with queue := List.replicate 32 ⟨0, .audioIn []⟩ }) = .refusedFull ∧
    sendingUp.tc.lane ≠ .free :=
  ⟨live_arms _ (by decide), live_arms _ (by decide), by decide +kernel⟩

def regionFields (binding : Byte) (size : Nat) : List Byte :=
  padTo 28 ([1, 0, binding, 0] ++ toBytes 4 0x7FFFF000 ++ toBytes 4 size)
def timeFields (mode : Byte) (value : Nat) : List Byte := padTo 28 ([mode, 0, 0, 0, 0, 0, 0, 0] ++ toBytes 8 value)

theorem test_RegionTriggerAndTimeArms_premises :
    live.arms (.region 31) 1 ∧ live.arms (.beacon 1) 1 ∧ live.arms .trigger 1 ∧ live.arms .time 1 ∧
    fieldsOk 32 (regionFields 5 1) = true ∧ (regionAt (regionFields 5 1)).isSome = true ∧
    regionAt (regionFields 6 1) = none ∧ regionAt (regionFields 5 2) = none ∧
    outcomeOf (.beaconRecordArm 1 (padTo 28 [0, 0, 1, 0, 1, 4]) 1) (.beacon 1) live = .taken ∧
    outcomeOf (.beaconRecordArm 1 (padTo 28 [0, 0, 0, 0, 1, 4]) 1) (.beacon 1) live = .refusedField ∧
    outcomeOf (.triggerRecordArm 1) .trigger live = .taken ∧
    outcomeOf (.triggerRecordArm 1) .trigger (live.onPu fun p => { p with shadow := [(0xA1C, 26)] }) = .refusedField ∧
    outcomeOf (.timeRecordArm (timeFields 0 (2 ^ 40 - 1)) 1) .time live = .pending ∧
    outcomeOf (.timeRecordArm (timeFields 0 (2 ^ 40)) 1) .time live = .refusedField ∧
    outcomeOf (.timeRecordArm (timeFields 1 (2 ^ 64 - 2 ^ 39 + 1)) 1) .time live = .pending ∧
    outcomeOf (.timeRecordArm (timeFields 1 (2 ^ 39)) 1) .time live = .refusedField ∧
    outcomeOf (.timeRecordArm (timeFields 0 0) 1) .time
      (live.onTb fun t => { t with holding := some ⟨.set, 0, 0, 0⟩ }) = .refusedBusy :=
  ⟨live_arms _ (by decide), live_arms _ (by decide), live_arms _ (by decide), live_arms _ (by decide), by decide +kernel⟩

/-- RegionTriggerAndTimeArms, the fields: a GUARD entry whose binding is not read, an entry that is not valid and so has no
range checks, bindings at the kinds' ends; the last consumer and the last output, sources 25 and 26. -/
theorem test_RegionTriggerAndTimeArms_fields :
    let region (valid kind binding : Byte) (base : Nat) : List Byte :=
      padTo 28 ([valid, kind, binding, 0] ++ toBytes 4 base ++ toBytes 4 1)
    let trigger (consumer out : List Byte) : List Byte := zeros 28 ++ consumer ++ zeros 4 ++ out ++ zeros 20
    regionAt (region 1 3 9 0x1000) = some ⟨true, 3, 0, 0x1000, 1, 0⟩ ∧
    regionAt (region 0 9 9 1) = some ⟨false, 9, 9, 1, 1, 0⟩ ∧ regionAt (region 1 1 3 0) = some ⟨true, 1, 3, 0, 1, 0⟩ ∧
    regionAt (region 1 2 4 0) = none ∧ regionAt (region 1 4 0 0) = none ∧ regionAt (region 1 0 0 1) = none ∧
    regionAt (region 2 0 0 0) = none ∧
    consumerAt (trigger [25, 1, 3, 0] [25, 4, 0, 0]) 7 = some ⟨25, true, .level, false⟩ ∧
    syncOutAt (trigger [25, 1, 3, 0] [25, 4, 0, 0]) 1 = some ⟨25, .released, none⟩ ∧
    consumerAt (trigger [26, 1, 3, 0] []) 7 = none ∧ consumerAt (trigger [25, 2, 3, 0] []) 7 = none ∧
    consumerAt (trigger [25, 1, 4, 0] []) 7 = none ∧ syncOutAt (trigger [0, 0, 0, 0] [26, 4, 0, 0]) 1 = none ∧
    syncOutAt (trigger [0, 0, 0, 0] [25, 5, 0, 0]) 1 = none := by decide +kernel

theorem test_EventArms_premises :
    live.arms .event 1 ∧ (0xFFFFFFF : U32).toNat < 2 ^ 28 ∧ 2 ^ 28 ≤ (0x10000000 : U32).toNat ∧
    outcomeOf (.endOfService 0xFFFFFFF 0xFFFFFFF 1) .event live = .taken ∧
    outcomeOf (.eventRecordArm 0 0x10000000 1) .event live = .refusedField ∧
    1 < byteAt [0, 0, 0, 0, 0, 0, 0, 0, 2] 8 :=
  ⟨live_arms _ (by decide), by decide +kernel⟩

/-- EventArms, the raise counts: at the last value, below it, and with the core off. -/
theorem test_EventArms_counts :
    let full := live.onEu fun e => { e with counts := vset e.counts 27 0xFFFF }
    live.coreOn = true ∧ State.reset.coreOn = false ∧ live.alertAsserted = false ∧ State.reset.alertAsserted = false ∧
    vget (raise .timeTaken full).eu.counts 27 = 0xFFFF ∧ vget (raise .timeTaken live).eu.counts 27 = 1 ∧
    vget (after .thermAlertAssertion live).eu.counts 22 = 1 ∧
    vget (after .thermAlertAssertion State.reset).eu.counts 22 = 0 ∧
    (after .thermAlertAssertion State.reset).pendingEvent .thermal = true := by decide +kernel

/-! ### Live words -/

def produced : State :=
  (((live.onSensorRing 7 fun r => { r with produce := 3 }).onTc fun t => { t with ring := { t.ring with produce := 3 } }).onRing
    2 fun r => { r with produce := 3 }).onRing 1 fun r => { r with produce := 3 }

theorem test_ConsumeWrites_premises :
    produced.taking ∧ (0xF : BitVec 4) ≠ 0 ∧
    ((vget (after (.sensorRingConsumeWrite 7 3 0xF) produced).sh.rings 7).consume,
      (vget (after (.sensorRingConsumeWrite 7 4 0xF) produced).sh.rings 7).consume,
      (after (.messageRingConsumeWrite 3 0xF) produced).tc.ring.consume,
      (after (.messageRingConsumeWrite 4 0xF) produced).tc.ring.consume) = (3, 0, 3, 0) ∧
    (produced.liveValue (.sensorConsume 7) 3 0xF, produced.liveValue .messageConsume 0x304 1) = (3, 4) :=
  ⟨⟨by decide, by decide, by decide, by decide⟩, by decide +kernel⟩

theorem test_AudioIndexWrites_premises :
    produced.taking ∧
    ((vget (after (.audioRing1ProduceWrite 256 0xF) produced).au.rings 1).produce,
      (vget (after (.audioRing1ProduceWrite 257 0xF) produced).au.rings 1).produce,
      (vget (after (.audioRing1ProduceWrite 2 0xF) produced).au.rings 1).produce,
      (vget (after (.audioRing2ConsumeWrite 3 0xF) produced).au.rings 2).consume,
      (vget (after (.audioRing2ConsumeWrite 4 0xF) produced).au.rings 2).consume) = (256, 3, 3, 3, 0) :=
  ⟨⟨by decide, by decide, by decide, by decide⟩, by decide +kernel⟩

/-- FenceWrites: the word acts on surface 0, FENCED and OPEN, above its fence value 0, and not on surface 3. -/
theorem test_FenceWrites_premises :
    shown.taking ∧ (shown.st.surface 0).state ≠ .free ∧ (shown.st.surface 0).fence.toNat < 1 ∧
    (shown.st.surface 0).config = some (cfg 0 .both .host .fenced) ∧
    shown.liveValue (.fence 0) 1 0xF = 1 ∧ (shown.st.surface 3).state = .free ∧
    ((after (.fenceWordWrite 0 1 0xF) shown).st.surface 0).bands.map (·.complete) = [true] :=
  ⟨shown_takes, by decide +kernel⟩

/-- The words of the record area that a command's write left, and the host writes it made. -/
def merged (c : Instr) (s : State) (offset : Nat) : List Byte × List Request :=
  ((after c s).pu.shadow.bytes offset 6, (after c s).da.all)

/-- FenceWrites: bytes 0 and 2 of the first and the last fence word are merged and requested, with the surface that the
word acts on and with one that it does not; a write that enables no byte merges and leaves nothing. -/
theorem test_FenceWrites_merge :
    (shown.da.all, (produced.pu.shadow.bytes 0x800 0xA00).all (· == 0)) = ([], true) ∧
    merged (.fenceWordWrite 5 0x01020304 5) shown 0x4B7 =
      ([0, 4, 0, 2, 0, 0], [⟨.hostWrite, 0xFFFF12, .write [(56, 4), (58, 2)]⟩]) ∧
    merged (.fenceWordWrite 0 0x01020304 5) shown 0x417 =
      ([0, 4, 0, 2, 0, 0], [⟨.hostWrite, 0xFFFF10, .write [(24, 4), (26, 2)]⟩]) ∧
    ((after (.fenceWordWrite 0 0x01020304 5) shown).st.surface 0).fence = 0x020004 ∧
    merged (.fenceWordWrite 0 0x01020304 0) shown 0x417 = (zeros 6, []) ∧
    (after (.fenceWordWrite 0 0x01020304 0) shown).st = shown.st := by decide +kernel

/-- ConsumeWrites and AudioIndexWrites: the merge and the request of a write judged valid, of one judged not, and of one
that enables no byte; only the second makes a capture. -/
theorem test_IndexWrites_merge :
    merged (.sensorRingConsumeWrite 7 3 1) produced 0x8EB =
      ([0, 3, 0, 0, 0, 0], [⟨.hostWrite, 0xFFFF23, .write [(44, 3)]⟩]) ∧
    merged (.messageRingConsumeWrite 0x400 2) produced 0x98B =
      ([0, 0, 4, 0, 0, 0], [⟨.hostWrite, 0xFFFF26, .write [(13, 4)]⟩]) ∧
    merged (.audioRing1ProduceWrite 0x01000000 8) produced 0x92F =
      ([0, 0, 0, 0, 1, 0], [⟨.hostWrite, 0xFFFF24, .write [(51, 1)]⟩]) ∧
    merged (.audioRing2ConsumeWrite 3 0) produced 0x94F = (zeros 6, []) ∧
    ([.sensorRingConsumeWrite 7 3 1, .messageRingConsumeWrite 0x400 2, .audioRing1ProduceWrite 0x01000000 8,
      .audioRing2ConsumeWrite 3 0].map fun c => (after c produced).da.captures.length) = [0, 1, 1, 0] ∧
    (after (.audioRing2ConsumeWrite 3 0) produced).au = produced.au := by decide +kernel

/-! ### Frames -/

/-- An entry whose target is `d` microseconds after the expected photon time of a boundary at time 0. -/
def aimed (d : Nat) : Entry := { entry0 with target := some ⟨BitVec.ofNat 40 (5800 + d), 0⟩ }

/-- PresentPolicies: a target half a period late is shown and one a microsecond later is not, across the wrap too. -/
theorem test_PresentPolicies_premises :
    (aimed 4166).eligible ⟨0, 0⟩ TimingSet.default = true ∧ (aimed 4167).eligible ⟨0, 0⟩ TimingSet.default = false ∧
    (aimed 4167).eligible ⟨0, 1⟩ TimingSet.default = true ∧
    { entry0 with target := some ⟨5, 0⟩ }.eligible ⟨0xFFFFFFFFFF, 0⟩ TimingSet.default = true ∧
    TimingSet.default.policy = .fifo ∧ { TimingSet.default with policy := .latest }.policy = .latest ∧
    choosePresent ⟨0, 0⟩ { TimingSet.default with policy := .latest } [aimed 0, aimed 1, aimed 4167] =
      ([aimed 0], some (aimed 1), [aimed 4167]) := by decide +kernel

/-- The current frame shows surface 0. -/
def showing : State :=
  (putSurface 0 { surf (cfg 0 .both .host .ordered) .current with bands := [⟨true, false, false, false⟩] } shown).onSt
    fun t => { t with current := some entry0.toFrame }

theorem test_FrameBoundaries_premises :
    let s := boundary shown
    let q := s.onSt fun t => { t with queue := [entry0] }
    let off := boundary live
    let pend := s.onSo fun o => { o with pendingSet := some (TimingSet.default, 1) }
    let now := s.onSo fun o => { o with pendingSet := some (TimingSet.default, 0) }
    let stop := (powered .enteringStandby .enterScan s).onSo fun o => { o with stopRequested := true }
    s.so.afterDark = true ∧ s.so.periodTimer = some 0 ∧ s.so.syncTimer = some 0 ∧ s.so.stopRequested = false ∧
    s.so.pendingSet = none ∧ s.so.applied.scanEnable = true ∧ off.so.applied.scanEnable = false ∧ off.so.afterDark = true ∧
    (choosePresent s.tb.now s.so.applied q.st.queue).2.1 = some entry0 ∧ (boundary showing).st.current ≠ none ∧
    pend.so.pendingSet = some (TimingSet.default, 1) ∧ now.so.pendingSet = some (TimingSet.default, 0) ∧
    stop.so.stopRequested = true ∧ stop.pwc.step = .enterScan ∧ stop.so.afterDark = true ∧
    (after .framePeriodExpiry s).so.frameNumber = 1 ∧ (after .framePeriodExpiry stop).pwc.step = .enterDrain := by
  decide +kernel

/-- What the period's expiry leaves of a pending set with this skip count, while the engine coasts. -/
def withPending (t : TimingSet) (k : Nat) : So :=
  (after .framePeriodExpiry ((boundary showing).onSo fun o =>
    { o with coasting := true, measured := some 8000, pendingSet := some (t, k) })).so
def slower : TimingSet := { TimingSet.default with scanEnable := true, scan := 4000, period := 9000 }

/-- FrameBoundaries, a pending set: taken, with the frame by the new set, coasting ended by one that is FREE; taken with
scan enable no; and counted down, with the frame by the set that stays. -/
theorem test_FrameBoundaries_pending :
    let seen (o : So) := (o.phaseTimer, o.periodTimer, o.coasting)
    let off := withPending { slower with scanEnable := false } 0
    seen (withPending slower 0) = (some 4000, some 9000, false) ∧ (withPending slower 0).pendingSet = none ∧
    seen (withPending { slower with sync := .triggered } 0) = (some 4000, some 9000, true) ∧
    seen (withPending slower 1) = (some 5500, some 8333, true) ∧ (withPending slower 1).pendingSet = some (slower, 0) ∧
    (off.state, off.periodTimer, off.frameNumber) = (.stopped, none, 1) := by decide +kernel

/-- FrameBoundaries, what is shown: a frame taken with another dropped under LATEST, one repeated, and none; a surface
that is BOTH, and one for each eye. -/
theorem test_FrameBoundaries_shown :
    let eyes := putSurface 1 (surf (cfg 1 .right .host .ordered) .queued)
      (putSurface 2 (surf (cfg 2 .left .host .ordered) .queued) (boundary showing))
    let latest := (eyes.onSo fun o => { o with applied := { o.applied with policy := .latest } }).onSt fun t =>
      { t with queue := [{ entry0 with left := 1 }, { entry0 with left := 2, right := some 1 }] }
    let frame (s : State) := after .framePeriodExpiry s
    ((choosePresent latest.tb.now latest.so.applied latest.st.queue).1.length,
      (frame latest).st.surfaces.toList.map (·.state)) = (1, [.held, .current, .current, .free, .free, .free]) ∧
    (frame latest).so.schedules = [⟨.left, false, 2, 0, 1⟩, ⟨.right, false, 1, 0, 1⟩] ∧
    (frame (boundary showing)).so.schedules = [⟨.left, true, 0, 0, 1⟩] ∧
    ((frame (boundary showing)).out.length, (frame (boundary shown)).out.length) = (2, 4) := by decide +kernel

/-- FramePhases, the uplink: a report without a link, with room, and with a full queue; and photon uplink no. -/
theorem test_FramePhases_uplink :
    let lights (s : State) : State := phase .settle (s.onSo fun o =>
      { o with applied := { o.applied with lineLeft := .pulse, photonUplink := true } })
    let linked (l : LinkState) (n : Nat) : State := lights (showing.onTc fun t =>
      { t with link := l, lane := .sending [1] 5 0, queue := List.replicate n ⟨0, .audioIn []⟩ })
    let strobe (s : State) : Tc := (after .strobeBegin s).tc
    live.so.applied.photonUplink = false ∧ (lights showing).st.current ≠ none ∧ (lights showing).tc.link = .down ∧
    vget (strobe (lights showing)).unlinked 0 = 1 ∧ (strobe (linked .up 31)).queue.length = 32 ∧
    (strobe (linked .recovery 0)).queue.length = 1 ∧ vget (strobe (linked .up 32)).fullDrops 0 = 1 := by decide +kernel

theorem test_FramePhases_premises :
    let lines := fun s : State => s.onSo fun o => { o with applied := { o.applied with lineLeft := .pulse } }
    (phase .scan live).so.phase = .scan ∧ (phase .scan live).so.phaseTimer = some 0 ∧
    ((after .scanEnd ((phase .scan live).onSo fun o => { o with jobs := [bandJob, { bandJob with late := true }] })).out.length =
      1) ∧
    (phase .strobe live).so.phase = .strobe ∧ (phase .settle live).so.state = .running ∧
    (live.onSo fun o => { o with darkTimer := some 0 }).so.darkTimer = some 0 ∧
    (live.onSo fun o => { o with light := some 0 }).so.light = some 0 ∧ (phase .settle live).st.current = none ∧
    (lines (phase .settle showing)).st.current ≠ none ∧ (lines (phase .settle showing)).so.applied.linesSelected = true ∧
    (lines (phase .settle showing)).so.limitPassed = false ∧ (lines (phase .settle showing)).pwc.state = .active ∧
    (lines (phase .settle showing)).killed = false ∧ (powered .dimmed .none (lines (phase .settle showing))).pwc.state ≠ .active ∧
    ((after .strobeBegin (lines (phase .settle showing))).so.light,
      (after .strobeBegin (powered .dimmed .none (lines (phase .settle showing)))).so.suppressed) = (some 1500, 1) := by
  decide +kernel

def scheduled : State :=
  (phase .scan showing).onSo fun o => { o with schedules := [⟨.left, true, 0, 0, 1⟩] }

/-- Surface 0's band is EMPTY, and the previous frame has surface 3, for both eyes. -/
def lateBand : State := putSurface 0 (surf (cfg 0 .both .host .ordered) .current) scheduled
def substituted : State :=
  (putSurface 3 (surf (cfg 3 .both .tether .ordered) .held) lateBand).onSt fun t =>
    { t with previous := some { entry0.toFrame with left := some 3 } }

/-- BandStarts: a COMPLETE band; an EMPTY one with the previous frame's surface and without; and a band still being read. -/
theorem test_BandStarts_premises :
    let busy := scheduled.onSo fun o => { o with jobs := [bandJob] }
    scheduled.so.schedules.find? (·.panel == .left) = some ⟨.left, true, 0, 0, 1⟩ ∧ scheduled.so.state = .running ∧
    bandTime scheduled.so.applied.scan 0 1 ≤ scheduled.so.sinceBoundary ∧
    (scheduled.st.surface 0).config = some (cfg 0 .both .host .ordered) ∧
    (scheduled.st.surface 0).bands[0]? = some ⟨true, false, false, false⟩ ∧
    (lateBand.st.surface 0).bands[0]? = some ⟨false, false, false, false⟩ ∧ lateBand.st.current = some entry0.toFrame ∧
    entry0.toFrame.bandLate = false ∧
    (after (.bandStart .left) scheduled).so.jobs.map (fun j => (j.panel, j.config.base)) =
      [(.left, 0x100000), (.right, 0x100000)] ∧
    (after (.bandStart .left) substituted).so.jobs.map (fun j => (j.panel, j.config.base)) =
      [(.left, 0x400000), (.right, 0x400000)] ∧
    ((after (.bandStart .left) lateBand).so.jobs, (after (.bandStart .left) lateBand).out.length) = ([], 2) ∧
    ((after (.bandStart .left) busy).so.jobs.map (·.late), (after (.bandStart .left) busy).out.length) =
      ([true, false, false], 1) := by decide +kernel

/-! ### Sensors -/

def sensing (m : ChannelMode) : State :=
  live.onChannel 3 fun c => { c with state := .running, config := { c.config with mode := m, enable := true }, timer := some 0 }

theorem test_SensorAndBeaconEvents_premises :
    let held := (sensing .dataReady).onChannel 3 fun c => { c with holder := some ⟨⟨0, 0⟩, 0, 255⟩ }
    let b := live.onBeacon 1 fun b => { b with state := .delay, timer := some 0 }
    let p := live.onBeacon 1 fun b => { b with state := .pulse, timer := some 0 }
    let o := live.onTm fun t => { t with outs := vset t.outs 1 ⟨6, .follow, some 0⟩ }
    (sensing .dataReady).pins.drdy.getLsbD 3 = false ∧ ((sensing .dataReady).channel 3).config.mode = .dataReady ∧
    ((sensing .interval).channel 3).config.mode ≠ .dataReady ∧ ((sensing .interval).channel 3).timer = some 0 ∧
    (live.channel 3).state ≠ .running ∧ ((sensing .dataReady).channel 3).state = .running ∧
    ((sensing .dataReady).channel 3).holder = none ∧ (held.channel 3).holder = some ⟨⟨0, 0⟩, 0, 255⟩ ∧
    (vget b.tm.beacons 1).state = .delay ∧ (vget b.tm.beacons 1).timer = some 0 ∧ (vget p.tm.beacons 1).state = .pulse ∧
    (vget p.tm.beacons 1).timer = some 0 ∧ (vget o.tm.outs 1).follow = some 0 ∧
    ((after (.sbDrdyRise 3) held).channel 3).overruns = 1 := by decide +kernel

/-- What the model chose at a width's expiry: a generator on its own source in mode BOTH sees the fall and the rise, and in
FALLING, or inverted RISING, the fall alone (log 60); a STROBE_KILL level of no length cuts nothing (logs 58 and 59). -/
theorem test_width_expiry_choices :
    let pulsing (restart : Bool) (s : State) : State :=
      s.onBeacon 0 fun b => { b with state := .pulse, timer := some 0, width := 5, delay := 0, restart }
    let own (restart invert : Bool) (m : EdgeMode) : Nat × Nat :=
      let b := vget (after (.beaconWidthExpiry 0) (selecting 6 ⟨18, invert, m, !invert⟩ (pulsing restart live))).tm.beacons 0
      (b.pulses.toNat, b.ignored.toNat)
    let kill := selecting 1 ⟨18, true, .level, false⟩ (selecting 6 ⟨1, false, .level, true⟩ (pulsing false lighting))
    let t := after (.beaconWidthExpiry 0) kill
    (own true false .both, own false false .both, own false false .falling, own false true .rising) =
      ((2, 0), (1, 1), (1, 0), (1, 0)) ∧
    (kill.lit, kill.levelActive 6, t.lit, (vget t.tm.beacons 0).pulses, t.so.reports.map (·.cut)) =
      (true, true, true, 1, [false]) := by decide +kernel

/-- The bus of channel 3 at the end of a transfer of 2 bytes. -/
def onBus (limit : Nat) : State :=
  (sensing .dataReady).onSh fun h => { h with bus := some ⟨3, ⟨⟨0, 0⟩, 0, 0⟩, 2, limit, 0⟩ }

theorem test_TransfersComplete_premises :
    (onBus 1).sh.bus = some ⟨3, ⟨⟨0, 0⟩, 0, 0⟩, 2, 1, 0⟩ ∧
    (∀ b ∈ padTo 2 [0, 0, 9], b = 0) ∧ (∀ b ∈ padTo 2 [0xFF, 0xFF], b = 0xFF) ∧ ¬ (∀ b ∈ padTo 2 [0, 9], b = 0) ∧
    ((after (.sensorTransferComplete [0, 0]) (onBus 1)).channel 3).state = .fault ∧
    ((after (.sensorTransferComplete [0, 0]) (onBus 2)).channel 3).state = .running ∧
    ((after (.sensorTransferComplete [0, 9]) (onBus 1)).channel 3).seq = 1 ∧ (onBus 1).sh.hold = false ∧
    (holdBegin (onBus 1)).sh.hold = true := by decide +kernel

/-- The transfer's record goes to ring 0, the uplink and the presence state. -/
def routed (issued : U16) (queue : List UplinkEntry) (presence : PresenceAction) : State :=
  let rule : Rule := { Rule.reset with enable := true, channels := 15, ring := some 0, uplink := true, presence }
  (((onBus 1).onSh fun h => { h with rules := vset h.rules 0 rule }).onSensorRing 0 fun r =>
    { r with enabled := true, base := 0x1000, capacity := 16, issued }).onTc fun t =>
    { t with link := .up, lane := .sending [1] 5 0, queue }

/-- TransfersComplete: a ring with room for one and a full one; no batch, one that closes, and a full queue; presence
that dims, restores, wakes, or is kept as a wake cause. -/
theorem test_TransfersComplete_routing :
    let done (s : State) : State := after (.sensorTransferComplete [0, 9]) s
    let off (dim : Bool) (p : PowerState) : State := (powered p .none (routed 0 [] (if dim then .off else .on))).onPwc fun q =>
      { q with presence := dim, dimCause := if dim then .none else .presence, settings := { q.settings with autoDim := true } }
    let rcd (n : Nat) : List SensorRec := (List.range n).map fun k => formRecord ⟨3, ⟨⟨0, 0⟩, 0, 0⟩, 2, 1, 0⟩ (live.channel 3) [BitVec.ofNat 8 k]
    ((vget (done (routed 15 [] .none)).sh.rings 0).issued, (vget (done (routed 16 [] .none)).sh.rings 0).drops) = (16, 1) ∧
    (done (routed 0 [] .none)).tc.queue.map (·.isOpen) = [true] ∧
    (done (routed 0 [⟨1, .sensor (rcd 3) true⟩] .none)).tc.queue.map (·.isOpen) = [false] ∧
    (done (routed 0 (List.replicate 32 ⟨1, .sensor [] false⟩) .none)).pendingEvent .uplinkFull = true ∧
    (done (off true .active)).pwc.state = .dimmed ∧ (done (off false .dimmed)).pwc.state = .active ∧
    (done (off false .standby)).pwc.state = .waking ∧
    (done (off false .enteringStandby)).pwc.keptWake = some .presence := by decide +kernel

/-- RuleConditions: byte 1 of a payload of 2, equal to the value and one to each side of it; offset 2 lies outside. -/
theorem test_RuleConditions_premises :
    let rcd : SensorRec :=
      { channel := 0, faultCleared := false, seq := 0, stamp := ⟨0, 0⟩, frame := 0, overrun := 0, length := 2,
        payload := padTo 16 [7, 8] }
    let r (c : Condition) (offset : Nat) (value : Byte) : Rule := { Rule.reset with cond := c, offset, mask := 0xFF, value }
    ((r .above 1 7).holds rcd, (r .above 1 8).holds rcd, (r .below 1 9).holds rcd, (r .below 1 8).holds rcd,
      (r .equal 1 8).holds rcd, (r .equal 2 0).holds rcd, (r .none 2 0).holds rcd) =
    (true, false, true, false, true, false, true) := by decide

/-- RuleConditions, which rules act: 1 is off, 2 names another channel, 4 is final and ends the list before 5; the presence
is 3's, the last that names one. -/
theorem test_RuleConditions_acting :
    let rcd : SensorRec :=
      { channel := 3, faultCleared := false, seq := 0, stamp := ⟨0, 0⟩, frame := 0, overrun := 0, length := 2,
        payload := padTo 16 [7, 8] }
    let r (k : Nat) (enable : Bool) (channels : BitVec 4) (presence : PresenceAction) (final : Bool) : Rule :=
      { Rule.reset with enable, channels, value := BitVec.ofNat 8 k, presence, final }
    let rules := [r 0 true 15 .on false, r 1 false 15 .off true, r 2 true 7 .off true, r 3 true 8 .off false,
      r 4 true 8 .none true, r 5 true 15 .on false]
    ((matching rcd rules).map (·.value.toNat), presenceOf (matching rcd rules)) = ([0, 3, 4], some false) ∧
    ((matching rcd (rules.take 4)).map (·.value.toNat), presenceOf (rules.take 1)) = ([0, 3], some true) ∧
    (matching rcd (rules.take 3).tail, presenceOf []) = ([], none) := by decide +kernel

/-! ### The tether -/

def linked (l : LinkState) : State :=
  live.onTc fun t => { t with link := l, retry := some 0, training := some 0, receive := some 0, recovery := some 0,
                              idle := some 0, ackTimers := Vector.replicate 3 (some 0) }

theorem test_LinkTransitions_premises :
    let unplugged := live.onPins fun p => { p with cable := false }
    unplugged.pins.cable = false ∧ unplugged.coreLive = true ∧ unplugged.tc.link = .down ∧ State.reset.coreLive = false ∧
    ([LinkState.down, .training, .up, .recovery].all fun l =>
      (linked l).pins.cable && (linked l).tc.link == l && (linked l).tc.retry == some 0 &&
      (linked l).tc.training == some 0 && (linked l).tc.receive == some 0 && (linked l).tc.recovery == some 0) = true ∧
    (linked .training).tc.queue = [] ∧ (∀ c, vget (linked .training).tc.history c = []) ∧
    (linked .training).tc.echoRequest = none ∧ (linked .training).tc.keepRequest = false ∧
    ((linked .recovery).onTc fun t => { t with lane := .sending [] 0 1 }).tc.lane ≠ .free ∧
    ((after .trainingComplete (linked .training)).tc.link, (after .recoveryTimerExpiry (linked .recovery)).tc.link,
      (after .receiveTimerExpiry (linked .up)).tc.link) = (.up, .down, .recovery) := by decide +kernel

/-- The history of class 1 holds one entry, sent `n` times. -/
def sent (n : Nat) : State :=
  (linked .up).onTc fun t =>
    { t with history := vset t.history 1 [⟨5, 0, .sensor [] false, n, false, false⟩], lane := .sending [1] 5 0 }

theorem test_UplinkMoments_premises :
    (linked .up).tc.link = .up ∧ (linked .up).tc.idle = some 0 ∧ (linked .up).tc.lane = .free ∧
    (linked .up).tc.ackRequest = false ∧ (linked .up).tc.echoRequest = none ∧ (sent 7).tc.lane = .sending [1] 5 0 ∧
    (sent 7).tc.choice = none ∧ ((sent 7).onTc fun t => { t with keepRequest := true }).tc.choice ≠ none ∧
    (sent 7).tc.oldestClass 5 = some 1 ∧ vget (sent 7).tc.ackTimers 1 = some 0 ∧ vget (sent 7).tc.history 0 = [] ∧
    vget (sent 7).tc.history 1 = [⟨5, 0, .sensor [] false, 7, false, false⟩] ∧
    ((after (.ackTimerExpiry 1) (sent 7)).tc.link, (after (.ackTimerExpiry 1) (sent 8)).tc.link) = (.up, .recovery) := by
  decide +kernel

/-- Histories of two entries each in classes 1 and 2, the lane free; the oldest MESSAGE spans two lines. -/
def owed (l : LinkState) : State :=
  (linked l).onTc fun t =>
    { t with history := vset (vset t.history 1 [⟨5, 9, .sensor [] false, 7, false, false⟩, ⟨6, 10, .sensor [] false, 1, false, false⟩])
                          2 [⟨7, 3, .message 0 0x1020 0x40, 2, false, true⟩, ⟨8, 4, .message 1 0 1, 1, false, true⟩] }

/-- The ids, send counts and resend marks of a class's history. -/
def owes (s : State) (c : Fin 3) : List (Nat × Nat × Bool) := (vget s.tc.history c).map fun e => (e.id, e.sends, e.resend)

/-- LinkTransitions, RECOVERY's end with the lane free: the arbiter comes to class 1 and not to class 2, or, class 1's
history being empty, to class 2. -/
theorem test_LinkTransitions_resends :
    let back (s : State) : Tc := { s.tc with
      history := vmap (List.map fun e => { e with resend := true, sends := 0 }) s.tc.history }
    let s := owed .recovery
    let m := s.onTc fun t => { t with history := vset t.history 1 [] }
    let t := after .recoveryComplete s
    let u := after .recoveryComplete m
    (back s).reaches 1 ∧ ¬ (back s).reaches 2 ∧ (back m).reaches 2 ∧
    (owes t 1, owes t 2, vget t.tc.resent 1) = ([(5, 1, false), (6, 0, true)], [(7, 0, true), (8, 0, true)], 1) ∧
    t.tc.lane = .sending (uplinkPacket 0x32 true false 9 (zeros 4)) 5 2 ∧
    (owes u 2, vget u.tc.resent 2) = ([(7, 0, true), (8, 0, true)], 0) ∧
    u.tc.lane = .reading 7 m.nextId 2 [] false false ∧
    u.da.all.map (fun r => (r.agent, r.line)) = [(.messageRead m.nextId, 0x41), (.messageRead m.nextId, 0x40)] :=
  ⟨by unfold Tc.reaches; decide +kernel, by unfold Tc.reaches; decide +kernel, by unfold Tc.reaches; decide +kernel,
   by decide +kernel⟩

/-- UplinkMoments, an ack timer's expiry with the lane free: the arbiter comes to the class, or a packet of class 0, the
standby restriction or a mark of an earlier class keeps it away. -/
theorem test_UplinkMoments_resends :
    let s := owed .up
    let back (s : State) (c : Fin 3) : Tc := { s.tc with
      history := vset s.tc.history c ((vget s.tc.history c).map fun e => { e with resend := true }) }
    let kept := s.onTc fun t => { t with keepRequest := true }
    let held := s.onTc fun t => { t with restricted := true }
    let marked := s.onTc fun _ => back s 1
    let t := after (.ackTimerExpiry 1) s
    let v := after (.ackTimerExpiry 1) kept
    (back s 1).reaches 1 ∧ (back s 2).reaches 2 ∧ ¬ (back kept 1).reaches 1 ∧ ¬ (back held 1).reaches 1 ∧
    ¬ (back marked 2).reaches 2 ∧ (owes t 1, owes t 2) = ([(5, 8, false), (6, 1, true)], owes s 2) ∧
    t.tc.lane = .sending (uplinkPacket 0x32 true false 9 (zeros 4)) 5 2 ∧
    (owes v 1, v.tc.lane) = ([(5, 7, true), (6, 1, true)], .sending (uplinkPacket 0x01 false false 0 []) kept.nextId 2) ∧
    (owes (after (.ackTimerExpiry 1) held) 1, (after (.ackTimerExpiry 1) held).tc.lane) =
      ([(5, 7, true), (6, 1, true)], .free) :=
  ⟨by unfold Tc.reaches; decide +kernel, by unfold Tc.reaches; decide +kernel, by unfold Tc.reaches; decide +kernel,
   by unfold Tc.reaches; decide +kernel, by unfold Tc.reaches; decide +kernel, by decide +kernel⟩

/-- A WAKE packet of sequence 0, with its CRC, with a wrong CRC, and with a payload it must not have. -/
def wakeBytes : List Byte := [0x16, 0, 0, 0, 0, 0, 0, 0] ++ toBytes 4 (crc32 [0x16, 0, 0, 0, 0, 0, 0, 0]).toNat
def longWake : List Byte := [0x16, 0, 0, 0, 1, 0, 0, 0, 5] ++ toBytes 4 (crc32 [0x16, 0, 0, 0, 1, 0, 0, 0, 5]).toNat

/-- The deposit buffer full to 16 bytes. -/
def crowded : State := serving (.deposit 0 65520) 5 (.write [(0, 1)]) up

theorem test_DownlinkPackets_premises :
    readPacket wakeBytes = .wake 0 ∧ readPacket (wakeBytes.set 11 0) = .badCrc ∧ readPacket longWake = .badFormat ∧
    live.tc.link ≠ .up ∧ (up.onTc fun t => { t with paused := some (0, .keepalive) }).tc.paused ≠ none ∧
    up.hears 0 ∧ crowded.depositRoom = 16 ∧ roomOf [0x14, 0, 0, 0, 17, 0, 0, 0, 0, 0, 0, 0] = 17 ∧
    sendingUp.tc.lane ≠ .free ∧ (0 - 0x8000 : U16).toNat = 32768 ∧ ((0x7FFF : U16) - 0).toNat = 32767 ∧
    (after (.frameEnd 0x8000 0) sendingUp).tc.duplicates = 1 ∧ (after (.frameEnd 0x7FFF 0) sendingUp).tc.gaps = 1 ∧
    (after (.wake 0) sendingUp).tc.expected = 1 ∧ up.pwc.settings.wakeTether = true ∧
    (powered .standby .none up).hears 0 ∧
    (after (.wake 0) (powered .standby .none up)).pwc.state = .waking ∧
    (after (.wake 0) (powered .enteringStandby .enterDrain up)).pwc.keptWake = some .tetherWake :=
  ⟨by decide +kernel, by decide +kernel, by decide +kernel, by decide +kernel, by decide +kernel,
   ⟨by decide, by decide, by decide⟩, by decide +kernel, by decide +kernel, by decide +kernel, by decide +kernel,
   by decide +kernel, by decide +kernel, by decide +kernel, by decide +kernel, by decide +kernel,
   ⟨by decide, by decide, by decide⟩, by decide +kernel, by decide +kernel⟩

def begin3 (tag : U32) (present : Bool) : FrameBegin := ⟨tag, 3, 0xFF, present, none, none⟩
def shownUp : State := shown.onTc fun t => { t with link := .up }
/-- A tether frame of tag 7 is open on surface 3. -/
def begun (present : Bool) : State :=
  (putSurface 3 (surf (cfg 3 .both .tether .ordered) .opened) shownUp).onSt fun t =>
    { t with tether := some ⟨7, 3, false, none, false, none, none, present, 0⟩ }

theorem test_TetherFrames_premises :
    shownUp.hears 0 ∧ (begun true).hears 0 ∧ shownUp.st.tether = none ∧ beginSurfaces (begin3 7 true) = some (3, none) ∧
    (shownUp.st.surface 3).openable = true ∧ shownUp.st.eyesOk 3 none = true ∧ shownUp.st.barred = false ∧
    beginSurfaces { begin3 7 true with right := 3 } = none ∧ beginSurfaces { begin3 7 true with left := 6 } = none ∧
    (∀ n ∈ [(3 : Fin 6)], (begun true).st.fitsPanel (begun true).so.applied n = true) ∧
    ((after (.frameBegin 0 (begin3 7 true)) shownUp).st.surface 3).state = .opened ∧
    (let again := after (.frameBegin 0 (begin3 9 true)) (begun true)
     let other := after (.frameBegin 0 { begin3 9 true with left := 0 }) (begun true)
     ((again.st.surface 3).state, again.st.tether.map (·.tag), again.st.rejectCause) = (.opened, some 9, .abandoned) ∧
     ((other.st.surface 3).state, other.st.tether, other.st.rejectCause) = (.free, none, .state)) ∧
    (after (.frameEnd 0 7) (begun true)).st.queue.length = 1 ∧ (after (.frameEnd 0 7) (begun false)).st.queue.length = 0 ∧
    ((after (.frameEnd 0 7) (begun false)).st.surface 3).state = .ready ∧
    (after (.frameEnd 0 8) (begun true)).st.rejectCause = .tag ∧
    (after (.frameEnd 0 7) ((begun true).onSt fun t => { t with queue := [entry0, entry0, entry0] })).st.rejectCause = .full ∧
    (after (.frameEnd 0 7) ((begun true).onSt fun t => { t with barred := true })).st.rejectCause = .state ∧
    (after (.frameEnd 0 7) ((begun true).onSt fun t => { t with tether := t.tether.map (TetherFrame.release 3) })).st.rejectCause =
      .state :=
  ⟨⟨by decide, by decide, by decide⟩, ⟨by decide, by decide, by decide⟩, by decide +kernel⟩

/-- Deposits: the last row of surface 3, one row beyond it, and a row of wrong length; ring 0 with room for 2 frames. -/
theorem test_Deposits_premises :
    let room := up.onRing 0 fun r => { r with enabled := true, issued := 254 }
    (begun true).hears (8 + 64) ∧ up.hears (4 * 3) ∧ (begun true).tc.restricted = false ∧
    (sliceTarget 3 (begun true)).isSome = true ∧ sliceTarget 4 (begun true) = none ∧
    (cfg 3 .both .tether .ordered).rowBytes = 64 ∧
    (after (.slice ⟨3, 15, 1, List.replicate 64 1⟩) (begun true)).tc.dropRange = 0 ∧
    (after (.slice ⟨3, 16, 1, List.replicate 64 1⟩) (begun true)).tc.dropRange = 1 ∧
    (after (.slice ⟨3, 15, 1, List.replicate 63 1⟩) (begun true)).tc.dropFormat = 1 ∧
    (after (.slice ⟨4, 15, 1, List.replicate 64 1⟩) (begun true)).tc.dropState = 1 ∧
    (vget (after (.slice ⟨3, 0, 1, List.replicate 64 1⟩) (begun true)).tc.frontiers 3).issue = some 0 ∧
    (vget (after (.slice ⟨3, 15, 1, List.replicate 64 1⟩) (begun true)).tc.frontiers 3).issue = none ∧
    (vget (after (.audio [1, 2, 3]) room).au.rings 0).overruns = 1 ∧ (after (.audio [1, 2, 3]) up).tc.audioDrops = 3 :=
  ⟨⟨by decide, by decide, by decide⟩, ⟨by decide, by decide, by decide⟩, by decide +kernel⟩

/-- Deposits and MessagesTimeAndAcks, the writes: frames at the ring's end and its start, none where there is no room,
and an entry over two lines, the room of its first one without the length word. -/
theorem test_Deposits_writes :
    let room := up.onRing 0 fun r => { r with enabled := true, base := 0x1000, issued := 255, consume := 255 }
    let open4 := up.onTc fun t => { t with ring := { t.ring with enabled := true, base := 0x1000, issued := 1 } }
    let made (c : Instr) (s : State) := (after c s).da.all.map fun r => (r.agent, r.line)
    (made (.audio [1, 2]) room).map (·.2) = [0x40, 0x4F] ∧
    ((after (.audio [1, 2]) room).tc.audioJobs.map fun j => (j.frames, j.left)) = [(2, 2)] ∧
    (after (.audio [1, 2]) (room.onRing 0 fun r => { r with issued := 511 })).tc.audioJobs = [] ∧
    made (.message 0 (zeros 61)) open4 = [(.messageEntry 1 0 1, 0x51), (.messageEntry 1 0 60, 0x50)] := by decide +kernel

theorem test_MessagesTimeAndAcks_premises :
    let open4 := sendingUp.onTc fun t => { t with ring := { t.ring with enabled := true, base := 0x1000 } }
    let full := open4.onTc fun t => { t with ring := { t.ring with issued := 4 } }
    let hist := sendingUp.onTc fun t =>
      { t with history := vset t.history 2 [⟨1, 8, .message 2 0 1, 1, false, true⟩, ⟨2, 9, .message 1 0 1, 1, false, true⟩] }
    open4.hears 1020 ∧ up.hears 0 ∧ (0 : U16) = open4.tc.expected ∧ open4.tc.ring.enabled = true ∧
    (after (.message 0 (zeros 1020)) open4).tc.ring.issued = 1 ∧ (after (.message 0 (zeros 1021)) open4).tc.ring.lengthDrops = 1 ∧
    (after (.message 0 [1]) full).tc.ring.backPressure = 1 ∧ (after (.message 0 [1]) sendingUp).tc.ring.noRingDrops = 1 ∧
    (after (.time 5) sendingUp).tc.echoRequest = some ⟨5, ⟨0, 0⟩⟩ ∧
    ((after (.ack ⟨0, false⟩ ⟨0, true⟩ ⟨8, true⟩) hist).entry (.messageSlot 2)).outcome = .taken ∧
    (vget (after (.ack ⟨0, false⟩ ⟨0, true⟩ ⟨8, true⟩) hist).tc.history 2).length = 1 ∧
    (vget (after (.ack ⟨0, false⟩ ⟨0, true⟩ ⟨7, true⟩) hist).tc.history 2).length = 2 :=
  ⟨⟨by decide, by decide, by decide⟩, ⟨by decide, by decide, by decide⟩, by decide +kernel⟩

/-! ### Audio and time -/

def sounding : State := live.onAu fun a => { a with running := true, timer := some 0, pwmNext := 47 }

theorem test_AudioPeriods_premises :
    let mic (issued : U32) : State := sounding.onRing 2 fun r => { r with enabled := true, issued }
    sounding.au.running = true ∧ sounding.au.timer = some 0 ∧ sounding.au.pwmNext < 48 ∧
    sounding.au.pwmNext * 1000 / 48 ≤ sounding.au.elapsed ∧ (vget sounding.au.rings 2).enabled = false ∧
    (vget (mic 240).au.rings 2).enabled = true ∧ ((mic 240).au.rings.toList.map (·.capacity)) = [256, 256, 256] ∧
    (vget (after (.audioPeriodBoundary (List.replicate 16 0)) (mic 240)).au.rings 2).issued = 256 ∧
    (vget (after (.audioPeriodBoundary (List.replicate 16 0)) (mic 241)).au.rings 2).overruns = 16 ∧
    (after .pwmPeriodBoundary sounding).au.pwmNext = 48 := by decide +kernel

/-- AudioPeriods, the microphone: the frames of no 1 bit and of all 64 at gains 256 and 128; a block that wraps at the
ring's end; and the uplink where there is no link, where the lane is held, free, and where the queue is full. -/
theorem test_AudioPeriods_microphone :
    let mic (t : State) : State := (t.onAu fun a => { a with running := true, timer := some 0 }).onRing 2 fun r =>
      { r with enabled := true, base := 0x1000, issued := 250, consume := 250, uplink := 1 }
    let next (t : State) : State := after (.audioPeriodBoundary (List.replicate 16 0)) (mic t)
    let queued (n : Nat) : State := sendingUp.onTc fun t => { t with queue := List.replicate n ⟨0, .audioIn []⟩ }
    (captureFrame 256 0, captureFrame 256 0xFFFFFFFFFFFFFFFF, captureFrame 128 0) = (0x8000, 0x7FFF, 0xC000) ∧
    (next live).da.all.map (·.line) = [0x40, 0x47] ∧ (next live).au.blocks.map (·.left) = [2] ∧
    vget (next live).tc.unlinked 3 = 1 ∧ (next (queued 31)).tc.queue.length = 32 ∧
    vget (next (queued 32)).tc.fullDrops 3 = 1 ∧ up.tc.choice = none ∧ up.tc.lane = .free ∧
    (next up).tc.lane ≠ .free := by decide +kernel

/-- AudioPeriods, the playback rings: ring 0 by its state and what it has, from nothing to a scheduled correction, and
what it then has taken, its state, its underruns, its drop and repeat corrections, and its reads. -/
theorem test_AudioPeriods_choice :
    let ring (play : PlayState) (n : U32) : State := sounding.onRing 0 fun r =>
      { r with enabled := true, base := 0x1000, threshold := 96, play, taken := 250, produce := 250 + n }
    let due (c : Correction) (s : State) : State := s.onAu fun a => { a with scheduled := c, driftCount := 9 }
    let next (s : State) : Au := (after (.audioPeriodBoundary (List.replicate 16 0)) s).au
    let shows (a : Au) := ((vget a.rings 0).play, (vget a.rings 0).taken, (vget a.rings 0).underruns)
    shows (next (ring .stopped 200)) = (.stopped, 250, 0) ∧ shows (next (ring .priming 95)) = (.priming, 250, 0) ∧
    shows (next (ring .priming 96)) = (.playing, 298, 0) ∧ shows (next (ring .playing 0)) = (.priming, 250, 1) ∧
    shows (next (ring .playing 47)) = (.playing, 297, 1) ∧ shows (next (due .drop (ring .playing 48))) = (.playing, 298, 0) ∧
    shows (next (due .drop (ring .playing 49))) = (.playing, 299, 0) ∧ shows (next (due .again (ring .playing 47))) = (.playing, 297, 0) ∧
    ((next (due .drop (ring .playing 49))).dropCorrs, (next (due .again (ring .playing 47))).repeatCorrs) = (1, 1) ∧
    ((next (due .none (ring .playing 241))).scheduled, (next (due .none (ring .playing 240))).scheduled) = (.drop, .none) ∧
    (256 ∈ audioCapacities ∧ 0x1000 % 64 = 0) ∧
    (after (.audioPeriodBoundary (List.replicate 16 0)) (ring .playing 48)).da.all.map (·.line) =
      [0x40, 0x41, 0x42, 0x4F] := by decide +kernel

/-- AudioPeriods, the mix: the first frame of a period's reads is at place 0, on both sides, with the dither bits of the
first two advances; a place without a frame is silence. -/
theorem test_AudioPeriods_mix :
    let p : FetchPeriod :=
      { id := 1, ring := 1, corr := .none, count := 1, frames := [(0, some 0xC0004000)], left := 0, mixed := false }
    let s := sounding.onAu fun a => { a with fetches := [p], lfsr := 8, output := { a.output with dither := true } }
    let a := (after (.audioPeriodBoundary (List.replicate 16 0)) s).au
    a.duties.take 2 = [(769, 256), (512, 512)] ∧ a.fetches = [] := by decide +kernel

/-- AudioPeriods, the lines: 5 µs into PWM period 0, duty 300 still has its active part and duty 200 has not; the
microsecond from 5 µs holds the end of the active part of duty 256. PWM period 1 begins 40 of 48 into the microsecond
from 20 µs: there duty 20 has its active part, that of duty 5 ends, and duty 0 has none. -/
theorem test_AudioPeriods_lines :
    let a : Au := { Au.reset with running := true, timer := some 995, pwmNext := 1 }
    let b : Au := { a with timer := some 980, pwmNext := 2 }
    let drives (a : Au) (d : Nat) : List Byte := [a.lineDrive .pwm d true, a.lineDrive .pwm d false, a.lineDrive .pwmInverted d true]
    drives a 300 = [1, 1, 0] ∧ drives a 200 = [0, 0, 1] ∧ drives a 256 = [1, 0, 0] ∧
    drives { a with running := false } 300 = [0, 0, 1] ∧
    drives b 20 = [1, 1, 0] ∧ drives b 5 = [1, 0, 0] ∧ drives b 0 = [0, 0, 1] := by decide

theorem test_TimeSteps_premises :
    let wrap := live.onTb fun t => { t with now := ⟨0xFFFFFFFFFF, 255⟩ }
    let cross := fun age => live.onTb fun t => { t with holding := some ⟨.add, 0xFFFFFFFFFFFFFFFF, 0, age⟩ }
    live.coreLive = true ∧ live.tb.refresh = true ∧ State.reset.coreLive = false ∧
    (live.onTb fun t => { t with refresh := false }).tb.refresh = false ∧
    (after (.deviceTimeWrap ⟨0, false, false⟩) wrap).tb.now = ⟨0, 0⟩ ∧ (cross 20).tb.holding = some ⟨.add, 0xFFFFFFFFFFFFFFFF, 0, 20⟩ ∧
    (after .timeCrossingComplete (cross 20)).tb.now = ⟨0xFFFFFFFFFF, 1⟩ ∧
    (after .timeCrossingComplete (cross 19)).tb.now = ⟨0, 0⟩ ∧ (cross 20).tb.fresh = false ∧
    ((cross 20).onTb fun t => { t with fresh := true }).tb.fresh = true ∧ live.generation = 0 ∧
    ([none, some 20000, some 0].map fun d =>
      ((after (.microsecondStep ⟨0, false, true⟩) (live.onPwc fun p => { p with debounce := d })).pwc.debounce,
        (after (.microsecondStep ⟨0, false, false⟩) (live.onPwc fun p => { p with debounce := d })).pwc.debounce)) =
      [(some 20000, none), (some 19999, none), (some 0, some 0)] ∧
    (after (.microsecondStep ⟨0, false, false⟩) (up.onTc fun t => { t with lane := .sending [1] 5 3 })).tc.lane =
      .sending [1] 5 2 ∧
    (live.onEu fun e => { e with gap := some 0 }).eu.gap = some 0 := by decide +kernel

/-! ### What every step keeps -/

/-- The premises that a command answers a next state, and the kinds of command the frames leave out. -/
theorem test_frames_premises :
    exec .keepalive live = .next live ∧ eventCommand .keepalive = true ∧ pinCommand .keepalive = false ∧
    timeCommand .keepalive = false ∧ (after (.hostWriteComplete []) (serving .hostWrite 0 (.write [(0, 1)]) live)).mem = [(0, 1)] ∧
    (after .mainOkFall { live with mem := [(5, 1)] }).mem = [] ∧ (after .mainOkFall live).coreOn = false ∧
    step { live with pending := [.keepalive] } = .next live := ⟨rfl, by decide +kernel, by decide, by decide, by decide +kernel, by decide +kernel, by decide +kernel, rfl⟩

/-- In STANDBY, as the standby steps leave the part. -/
def asleep : State :=
  { powered .standby .none live with st := (presentationFlush live).st, hmp := { live.hmp with hold := .standby } }

theorem test_FramesAndSurfacesAgree_premises : showing.st.framesAgree :=
  ⟨by decide +kernel, by decide +kernel, by decide +kernel, by decide +kernel, fun _ h => nomatch h⟩

theorem test_StandbyIsAtRest_premises : asleep.standbySound ∧ asleep.pwc.resting = true :=
  ⟨⟨fun _ => ⟨by decide +kernel, by decide, by decide, by decide, by decide, by decide, by decide, by decide⟩, by decide⟩,
   by decide⟩

/-- A history of `n` entries of class 1, with a MESSAGE that waits in the queue. -/
def remembering (n : Nat) (lane : Lane) : State :=
  { up with nextId := 21, tc := { up.tc with
      history := vset up.tc.history 1 ((List.range n).map fun k => ⟨k, 0, .sensor [] false, 1, false, false⟩)
      queue := [⟨20, .message 2 0 1⟩], lane } }

/-- MemoryAndListsStayWellFormed, the history: full with the lane sending, and one short of full while a MESSAGE's reads
hold the lane; one more entry is too many. -/
theorem test_bounded_history :
    (remembering 16 (.sending [1] 5 0)).tc.historyFill = 16 ∧ (remembering 16 (.sending [1] 5 0)).bounded ∧
    (remembering 15 (.reading 20 3 1 [] false false)).bounded ∧
    ¬ (remembering 16 (.reading 20 3 1 [] false false)).bounded ∧ ¬ (remembering 17 .free).bounded := by
  refine ⟨by decide, ⟨by decide, by decide, by decide, by decide, ⟨by decide, by decide, by decide, ?_⟩, by decide, by decide⟩,
    ⟨by decide, by decide, by decide, by decide, ⟨by decide, by decide, by decide, ?_⟩, by decide, by decide⟩, ?_, ?_⟩
  · intro entry read left lines damaged h
    exact Lane.noConfusion h
  · intro entry read left lines damaged h
    cases (show Lane.reading 20 3 1 [] false false = .reading entry read left lines damaged false from h)
    decide
  · intro h
    exact absurd (h.2.2.2.2.1.2.2.2 20 3 1 [] false rfl) (by decide)
  · intro h
    exact absurd h.2.2.2.2.1.1 (by decide)

theorem test_invariants_premises :
    live.canonical ∧ live.bounded ∧ showing.st.allNamed = [0] ∧ (showing.st.surface 0).state = .current ∧
    (powered .standby .none live).pwc.resting = true ∧ (presentationFlush live).st.barred = true :=
  ⟨⟨by decide, by decide⟩, ⟨by decide, by decide, by decide, by decide,
    ⟨by decide, by decide, by decide, fun _ _ _ _ _ h => Lane.noConfusion h⟩, by decide, by decide⟩, by decide +kernel⟩

end Sys2Proof.Tests
end

section
/-!
PROOFS. The entry a boundary takes (R12 to R14): when an entry is eligible, and what FIFO and LATEST answer of the queue.
-/
namespace Sys2Proof.Machine

/-! ### Eligibility (R12) -/

/-- Only a target of the boundary's own epoch can make an entry wait. -/
theorem Entry.eligible_iff (boundary : Stamp) (set : TimingSet) (e : Entry) :
    e.eligible boundary set = true ↔
      ∀ t, e.target = some t → t.epoch = boundary.epoch →
        (t.time - (boundary.time + BitVec.ofNat 40 (set.scan + set.settle))).toInt ≤ (set.period / 2 : Nat) := by
  unfold Entry.eligible
  cases e.target with
  | none => simp
  | some t =>
    by_cases he : t.epoch = boundary.epoch <;> simp [he]

/-! ### The policies (R13, R14) -/

theorem choosePresent_fifo_nil (boundary : Stamp) {set : TimingSet} (h : set.policy = .fifo) :
    choosePresent boundary set [] = ([], none, []) := by
  simp [choosePresent, h]

theorem choosePresent_fifo_cons (boundary : Stamp) {set : TimingSet} (h : set.policy = .fifo) (e : Entry)
    (rest : List Entry) : choosePresent boundary set (e :: rest) =
      if e.eligible boundary set then ([], some e, rest) else ([], none, e :: rest) := by
  simp [choosePresent, h]

/-- The first entries of a list that satisfy `p` are a run whose successor, if it has one, does not. -/
theorem takeWhile_run {α : Type} {p : α → Bool} {run rest : List α} (hr : ∀ a ∈ run, p a = true)
    (hn : ∀ a, rest.head? = some a → p a = false) : (run ++ rest).takeWhile p = run := by
  rw [List.takeWhile_append_of_pos hr]
  cases rest with
  | nil => simp
  | cons a r => simp [hn a rfl]

theorem choosePresent_latest (boundary : Stamp) {set : TimingSet} (h : set.policy = .latest) {run rest : List Entry}
    (hr : ∀ e ∈ run, e.eligible boundary set = true)
    (hn : ∀ e, rest.head? = some e → e.eligible boundary set = false) :
    choosePresent boundary set (run ++ rest) = (run.dropLast, run.getLast?, rest) := by
  simp only [choosePresent, h, takeWhile_run hr hn, List.drop_left]

/-- Settles O40: eligibility by the target's two cases, FIFO by the head, LATEST by the eligible run at the head. -/
theorem presentPolicies : Obligations.PresentPolicies := fun boundary set =>
  ⟨Entry.eligible_iff boundary set,
   fun h => ⟨choosePresent_fifo_nil boundary h, choosePresent_fifo_cons boundary h⟩,
   fun h _ _ hr hn => choosePresent_latest boundary h hr hn⟩

end Sys2Proof.Machine
end

section
/-!
PROOFS. The commands of a surface record (R1, R3, R4): how its fields are read and checked, what each command does to the
surface tracker, and how the command's line write brings the record before it.
-/
namespace Sys2Proof.Machine

/-! ### Reading a record's fields (R184, R186) -/

theorem byteAt_take {m off : Nat} (h : off < m) (l : List Byte) : byteAt (l.take m) off = byteAt l off := by
  simp [byteAt, List.getD_eq_getElem?_getD, h]

theorem numAt_take {m off n : Nat} (h : off + n ≤ m) (l : List Byte) : numAt (l.take m) off n = numAt l off n := by
  simp only [numAt, bytesAt, List.drop_take, List.take_take, Nat.min_eq_left (show n ≤ m - off by omega)]

theorem byteAt_bytes (m : Mem) (a : Nat) {n i : Nat} (h : i < n) : byteAt (m.bytes a n) i = (m.read (a + i)).toNat := by
  simp [byteAt, Mem.bytes, List.getD_eq_getElem?_getD, h]

/-- A configuration stands in the first 17 bytes of its record. -/
theorem surfaceConfigAt_take (b : List Byte) : surfaceConfigAt (b.take 17) = surfaceConfigAt b := by
  simp only [surfaceConfigAt, codeAt, byteAt_take (show 12 < 17 by omega), byteAt_take (show 13 < 17 by omega),
    byteAt_take (show 14 < 17 by omega), byteAt_take (show 15 < 17 by omega), byteAt_take (show 16 < 17 by omega),
    numAt_take (show 0 + 4 ≤ 17 by omega), numAt_take (show 4 + 4 ≤ 17 by omega), numAt_take (show 8 + 2 ≤ 17 by omega),
    numAt_take (show 10 + 2 ≤ 17 by omega)]

theorem surfaceConfigAt_eq_some_iff (b : List Byte) (c : SurfaceConfig) : surfaceConfigAt b = some c ↔
    c.base = numAt b 0 4 ∧ c.pitch = numAt b 4 4 ∧ c.width = numAt b 8 2 ∧ c.height = numAt b 10 2 ∧
    [PixelFormat.rgba8, .rgb565][byteAt b 12]? = some c.format ∧ [Eye.left, .right, .both][byteAt b 13]? = some c.eye ∧
    [Owner.host, .tether][byteAt b 14]? = some c.owner ∧ [CompletionMode.ordered, .fenced][byteAt b 15]? = some c.mode ∧
    c.bandRows = byteAt b 16 ∧ c.bandRows ∈ [16, 32, 64] := by
  obtain ⟨base, pitch, width, height, format, eye, owner, mode, bandRows⟩ := c
  simp only [surfaceConfigAt, Option.bind_eq_bind, Option.bind_eq_some_iff, Option.ite_none_right_eq_some,
    Option.some.injEq, SurfaceConfig.mk.injEq, codeAt, pixelFormats, eyes, owners, completionModes, List.mem_cons,
    List.not_mem_nil, or_false]
  constructor
  · rintro ⟨f, hf, e, he, o, ho, m, hm, hr, rfl, rfl, rfl, rfl, rfl, rfl, rfl, rfl, rfl⟩
    exact ⟨rfl, rfl, rfl, rfl, hf, he, ho, hm, rfl, hr⟩
  · rintro ⟨rfl, rfl, rfl, rfl, hf, he, ho, hm, rfl, hr⟩
    exact ⟨format, hf, eye, he, owner, ho, mode, hm, hr, rfl, rfl, rfl, rfl, rfl, rfl, rfl, rfl, rfl⟩

/-! ### The checks on a configuration (R1) -/

theorem meetsPlan_eq_false_iff (plan a n : Nat) : meetsPlan plan a n = false ↔ a + n ≤ plan ∨ plan + 0x4000 ≤ a := by
  simp only [meetsPlan, Bool.and_eq_false_iff, decide_eq_false_iff_not]
  omega

theorem PixelFormat.size_eq (f : PixelFormat) : f.size = if f = .rgba8 then 4 else 2 := by
  cases f <;> rfl

theorem SurfaceConfig.ok_iff (plan : Nat) (c : SurfaceConfig) : c.ok plan = true ↔
    c.base % 4096 = 0 ∧ c.base + c.pitch * c.height ≤ 0x40000000 ∧
    (c.base + c.pitch * c.height ≤ plan ∨ plan + 0x4000 ≤ c.base) ∧
    16 ≤ c.width ∧ c.width ≤ 2560 ∧ 16 ≤ c.height ∧ c.height ≤ 2560 ∧ c.pitch % 64 = 0 ∧
    c.width * (if c.format = .rgba8 then 4 else 2) ≤ c.pitch := by
  simp only [SurfaceConfig.ok, SurfaceConfig.rowBytes, PixelFormat.size_eq, Bool.and_eq_true, Bool.not_eq_true',
    meetsPlan_eq_false_iff, decide_eq_true_eq, and_assoc]

/-! ### The command byte (R184) -/

theorem judgeSurface_above {b : List Byte} (h : 2 < byteAt b 17) (n : Fin 6) (s : State) :
    judgeSurface n b s = (.refusedField, s) := by
  unfold judgeSurface
  split
  case h_4 => rfl
  all_goals omega

/-! ### OPEN (R3) -/

theorem openSurface_of_tether {n : Fin 6} {s : State} (h : (s.st.surface n).ownedBy .tether = true) :
    openSurface n s = (.refusedField, s) := by
  simp [openSurface, h]

theorem openSurface_of_state {n : Fin 6} {s : State} (ho : (s.st.surface n).ownedBy .tether = false)
    (h : (s.st.surface n).config = none ∨ (s.st.surface n).state ≠ .free ∨ s.st.barred = true) :
    openSurface n s = (.refusedState, s) := by
  have hb : ((s.st.surface n).config.isNone || (s.st.surface n).state != .free || s.st.barred) = true := by
    simpa [or_assoc] using h
  simp [openSurface, ho, hb]

theorem Surface.config_of_ownedBy {o : Owner} {f : Surface} (h : f.ownedBy o = true) :
    ∃ c, f.config = some c ∧ c.owner = o := by
  unfold Surface.ownedBy at h
  split at h
  · exact ⟨_, ‹_›, eq_of_beq h⟩
  · cases h

theorem openSurface_of_host {n : Fin 6} {s : State} (ho : (s.st.surface n).ownedBy .host = true)
    (hf : (s.st.surface n).state = .free) (hb : s.st.barred = false) :
    openSurface n s = (.taken, s.onSt (St.onSurface n fun f => { f.clear with state := .opened })) := by
  obtain ⟨c, hc, hco⟩ := Surface.config_of_ownedBy ho
  have ht : (s.st.surface n).ownedBy .tether = false := by
    simp [Surface.ownedBy, hc, hco]
  simp [openSurface, ht, hc, hf, hb]

theorem Surface.clear_eq (f : Surface) :
    f.clear = { f with bands := List.replicate f.bands.length ⟨false, false, false, false⟩, fence := 0 } := by
  simp only [Surface.clear, List.map_const', Band.empty]

/-! ### RELEASE (R4) -/

theorem releaseSurface_of_free {n : Fin 6} {s : State} (h : (s.st.surface n).state = .free) :
    releaseSurface n s = (.taken, s) := by
  simp [releaseSurface, h]

theorem releaseSurface_of_shown {n : Fin 6} {s : State}
    (h : (s.st.surface n).state = .queued ∨ (s.st.surface n).state = .current) :
    releaseSurface n s = (.refusedState, s) := by
  rcases h with h | h <;> simp [releaseSurface, h]

theorem releaseSurface_of_opened {n : Fin 6} {s : State} (h : (s.st.surface n).state = .opened) :
    releaseSurface n s = (.taken,
      s.onSt fun t => { (t.setState .free n) with tether := t.tether.map (TetherFrame.release n) }) := by
  simp [releaseSurface, h]

theorem releaseSurface_of_ready {n : Fin 6} {s : State} (h : (s.st.surface n).state = .ready) :
    releaseSurface n s = (.taken, s.onSt (St.setState .free n)) := by
  simp [releaseSurface, h]

theorem releaseSurface_of_held {n : Fin 6} {s : State} (h : (s.st.surface n).state = .held) :
    releaseSurface n s = (.taken,
      s.stChange fun t => { (t.setState .free n) with previous := t.previous.bind (Frame.without n) }) := by
  simp [releaseSurface, h]

/-- Noting a change of the frames counts it and leaves what changed. -/
theorem St.noteFrames_eq (old new : St) : St.noteFrames old new = { new with change := (St.noteFrames old new).change } := by
  unfold St.noteFrames
  split <;> rfl

/-! ### NONE: configure (R1) -/

theorem configureSurface_of_field {n : Fin 6} {b : List Byte} {s : State}
    (h : ∀ c, surfaceConfigAt b = some c → c.ok s.planBase = false) : configureSurface n b s = (.refusedField, s) := by
  unfold configureSurface
  split
  · rfl
  · simp [h _ ‹_›]

theorem configureSurface_of_state {n : Fin 6} {b : List Byte} {s : State} {c : SurfaceConfig}
    (hc : surfaceConfigAt b = some c) (hk : c.ok s.planBase = true) (hf : (s.st.surface n).state ≠ .free) :
    configureSurface n b s = (.refusedState, s) := by
  simp [configureSurface, hc, hk, hf]

theorem configureSurface_of_free {n : Fin 6} {b : List Byte} {s : State} {c : SurfaceConfig}
    (hc : surfaceConfigAt b = some c) (hk : c.ok s.planBase = true) (hf : (s.st.surface n).state = .free) :
    configureSurface n b s =
      (.taken, s.onSt (St.onSurface n fun f => { f with config := some c, bands := c.emptyBands, fence := 0 })) := by
  simp [configureSurface, hc, hk, hf]

/-! ### The state a record's line write makes -/

/-- The line write of a record's command, before the record is judged: its request stands in the DRAM, and its bytes in the
shadow (R170). -/
def State.recordWritten (k : RecordKind) (bytes : List (Nat × Byte)) (s : State) : State :=
  (request .hostWrite ((s.planBase + k.seqOffset) / 64) (.write bytes) s).onPu fun p =>
    { p with shadow := p.shadow.writeAll (64 * (k.seqOffset / 64)) bytes }

/-- What the owner of a record is given (R172). -/
def State.snapshot (k : RecordKind) (s : State) : List Byte := s.pu.shadow.bytes k.offset k.size

@[simp] theorem State.recordWritten_st (k : RecordKind) (bytes : List (Nat × Byte)) (s : State) :
    (s.recordWritten k bytes).st = s.st := by
  simp [State.recordWritten]

@[simp] theorem State.recordWritten_planBase (k : RecordKind) (bytes : List (Nat × Byte)) (s : State) :
    (s.recordWritten k bytes).planBase = s.planBase := by
  simp [State.recordWritten, State.planBase]

@[simp] theorem State.recordWritten_entry (k j : RecordKind) (bytes : List (Nat × Byte)) (s : State) :
    (s.recordWritten k bytes).entry j = s.entry j := by
  simp [State.recordWritten, State.entry]

theorem State.recordWritten_read (k : RecordKind) {bytes : List (Nat × Byte)} (s : State)
    (hs : bytes.Pairwise fun p q => p.1 < q.1) {i : Nat} {b : Byte} (h : (i, b) ∈ bytes) :
    (s.recordWritten k bytes).pu.shadow.read (64 * (k.seqOffset / 64) + i) = b := by
  refine Mem.read_writeAll_mem _ _ _ ?_ h
  rw [List.nodup_iff_pairwise_ne, List.pairwise_map]
  exact hs.imp Nat.ne_of_lt

/-- A surface record lies in one line. -/
theorem surface_offset (n : Fin 6) :
    (RecordKind.surface n).offset = 64 * ((RecordKind.surface n).seqOffset / 64) + (RecordKind.surface n).offset % 64 := by
  have := n.isLt
  simp only [RecordKind.seqOffset, RecordKind.offset, RecordKind.size]
  omega

/-- A byte of a surface record's snapshot that its line write wrote. -/
theorem byteAt_snapshot_written (n : Fin 6) {bytes : List (Nat × Byte)} (s : State)
    (hs : bytes.Pairwise fun p q => p.1 < q.1) {i : Nat} {b : Byte} (hi : i < 32)
    (h : ((RecordKind.surface n).offset % 64 + i, b) ∈ bytes) :
    byteAt ((s.recordWritten (.surface n) bytes).snapshot (.surface n)) i = b.toNat := by
  rw [State.snapshot, byteAt_bytes _ _ (show i < (RecordKind.surface n).size from hi), surface_offset, Nat.add_assoc,
    State.recordWritten_read _ _ hs h]

/-! ### The line write of OPEN and RELEASE -/

/-- A command's bytes are the command byte before those of an arm without fields. -/
theorem commandBytes_eq (n : Fin 6) (command : Byte) (seq : U32) :
    commandBytes n command seq = ((RecordKind.surface n).offset % 64 + 17, command) :: armBytes (.surface n) [] seq := rfl

/-- The command byte stands in no live word and in no record's final word. -/
theorem command_place (n : Fin 6) :
    (∀ w ∈ liveWordsIn ((RecordKind.surface n).seqOffset / 64),
      ¬ (w.offset % 64 ≤ (RecordKind.surface n).offset % 64 + 17 ∧
        (RecordKind.surface n).offset % 64 + 17 < w.offset % 64 + 4)) ∧
    ∀ j ∈ recordsEndingIn ((RecordKind.surface n).seqOffset / 64),
      (RecordKind.surface n).offset % 64 + 17 < j.seqOffset % 64 ∨
      j.seqOffset % 64 + 4 ≤ (RecordKind.surface n).offset % 64 + 17 := by
  revert n
  decide +kernel

theorem surface_mem_recordsEndingIn (n : Fin 6) :
    RecordKind.surface n ∈ recordsEndingIn ((RecordKind.surface n).seqOffset / 64) :=
  List.mem_filter.mpr ⟨mem_allRecords _, beq_self_eq_true _⟩

/-- A byte before or after a record's final word has no part in it. -/
theorem finalWord_cons_outside {k : RecordKind} {p : Nat × Byte}
    (h : p.1 < k.seqOffset % 64 ∨ k.seqOffset % 64 + 4 ≤ p.1) (l : List (Nat × Byte)) :
    k.finalWord (p :: l) = k.finalWord l := by
  have hl : ∀ i, i < 4 → (p :: l).lookup (k.seqOffset % 64 + i) = l.lookup (k.seqOffset % 64 + i) := by
    intro i hi
    have hp : (k.seqOffset % 64 + i == p.1) = false := by
      rw [beq_eq_false_iff_ne]
      omega
    rw [List.lookup_cons, hp]
  simp only [RecordKind.finalWord, hl 0 (by omega), hl 1 (by omega), hl 2 (by omega), hl 3 (by omega)]

theorem command_finalWord (n : Fin 6) (command : Byte) (seq : U32) :
    (RecordKind.surface n).finalWord (commandBytes n command seq) = some seq := by
  rw [commandBytes_eq, finalWord_cons_outside ((command_place n).2 _ (surface_mem_recordsEndingIn n)), arm_finalWord]

theorem command_other_not_armed (n : Fin 6) (command : Byte) (seq : U32) {j : RecordKind}
    (hj : j ∈ recordsEndingIn ((RecordKind.surface n).seqOffset / 64)) (hne : j ≠ .surface n) :
    j.finalWord (commandBytes n command seq) = none := by
  rw [commandBytes_eq, finalWord_cons_outside ((command_place n).2 j hj), other_not_armed _ _ _ hj hne]

theorem command_live_not_covered (n : Fin 6) (command : Byte) (seq : U32) {w : LiveWord}
    (hw : w ∈ liveWordsIn ((RecordKind.surface n).seqOffset / 64)) : w.coveredBy (commandBytes n command seq) = false := by
  have hp := (command_place n).1 w hw
  have hl := live_not_covered (.surface n) [] seq hw
  rw [LiveWord.coveredBy] at hl ⊢
  rw [commandBytes_eq, List.any_cons, hl, Bool.or_false]
  simpa using hp

theorem commandBytes_lt {n : Fin 6} {command : Byte} {seq : U32} {b : Nat × Byte} (h : b ∈ commandBytes n command seq) :
    b.1 < 64 := by
  rcases List.mem_cons.mp h with rfl | h
  · have := n.isLt
    simp only [RecordKind.offset]
    omega
  · exact armBytes_lt (k := .surface n) (fields := []) h

theorem commandBytes_pairwise (n : Fin 6) (command : Byte) (seq : U32) :
    (commandBytes n command seq).Pairwise fun p q => p.1 < q.1 := by
  refine List.Pairwise.cons (fun q hq => ?_) (enumFrom_pairwise _ _)
  have hb := enumFrom_bounds hq
  have := n.isLt
  simp only [RecordKind.seqOffset, RecordKind.offset, RecordKind.size] at hb ⊢
  omega

/-- The plan unit's part of a surface command: its bytes are merged, and the record is submitted if its sequence is new. -/
theorem planWrite_command (n : Fin 6) (command : Byte) (seq : U32) (s : State) :
    planWrite ((RecordKind.surface n).seqOffset / 64 * 64) (commandBytes n command seq) s =
      submitIfArmed (commandBytes n command seq)
        (s.onPu fun p =>
          { p with shadow := p.shadow.writeAll (64 * ((RecordKind.surface n).seqOffset / 64)) (commandBytes n command seq) })
        (.surface n) := by
  have hline : (RecordKind.surface n).seqOffset / 64 * 64 / 64 = (RecordKind.surface n).seqOffset / 64 := by omega
  have hlive : (liveWordsIn ((RecordKind.surface n).seqOffset / 64)).filter
      (LiveWord.coveredBy (commandBytes n command seq)) = [] := by
    rw [List.filter_eq_nil_iff]
    intro w hw
    rw [command_live_not_covered n command seq hw]
    exact Bool.false_ne_true
  simp only [planWrite, hline, hlive, List.foldl_nil]
  refine foldl_one _ _ _ _ (allRecords_nodup.filter _) (surface_mem_recordsEndingIn n) fun j hj hne t => ?_
  simp only [submitIfArmed, command_other_not_armed n command seq hj hne]

theorem submitIfArmed_of_new {k : RecordKind} {bytes : List (Nat × Byte)} {seq : U32} {s : State}
    (hw : k.finalWord bytes = some seq) (hn : seq ≠ (s.entry k).lastSeen) : submitIfArmed bytes s k = submit k seq s := by
  simp only [submitIfArmed, hw]
  exact if_neg hn

/-- OPEN or RELEASE that the port takes and whose sequence is new. -/
theorem hostArrive_command {n : Fin 6} {seq : U32} {s : State} (h : s.arms (.surface n) seq) (command : Byte) :
    hostArrive (commandTx n command seq s) s =
      submit (.surface n) seq (s.recordWritten (.surface n) (commandBytes n command seq)) := by
  obtain ⟨ht, hn⟩ := h
  have hlt := seqOffset_lt (.surface n)
  have hb := enabledBytes_lineData (fun p hp => commandBytes_lt (n := n) (command := command) (seq := seq) hp)
    (commandBytes_pairwise n command seq)
  have ha := arm_line s (RecordKind.surface n).seqOffset hlt
  have hl : (BitVec.ofNat 25 ((s.planBase + (RecordKind.surface n).seqOffset) / 64)).toNat =
      (s.planBase + (RecordKind.surface n).seqOffset) / 64 := by
    have := planBase_aligned s.pu.sel
    simp only [State.planBase] at *
    omega
  rw [hostArrive_of_taking ht]
  simp only [commandTx, takeTx, takeWrite, hb, ha]
  rw [classify_record s (show (RecordKind.surface n).seqOffset / 64 * 64 < 0x1000 by omega)]
  simp only
  rw [planWrite_command, hl]
  exact submitIfArmed_of_new (command_finalWord n command seq) (by rwa [← State.recordWritten, State.recordWritten_entry])

/-- An arm command that the port takes and whose sequence is new. -/
theorem armRecord_of_arms {k : RecordKind} {seq : U32} {s : State} (h : s.arms k seq) (fields : List Byte) :
    armRecord k fields seq s = submit k seq (s.recordWritten k (armBytes k fields seq)) := by
  obtain ⟨ht, hn⟩ := h
  rw [armRecord_of_taking ht]
  exact submitIfArmed_of_new (arm_finalWord k fields seq) (by rwa [← State.recordWritten, State.recordWritten_entry])

/-! ### The snapshot the commands hand over -/

theorem byteAt_snapshot_command (n : Fin 6) (command : Byte) (seq : U32) (s : State) :
    byteAt ((s.recordWritten (.surface n) (commandBytes n command seq)).snapshot (.surface n)) 17 = command.toNat :=
  byteAt_snapshot_written n s (commandBytes_pairwise n command seq) (by omega) List.mem_cons_self

/-- The field bytes before the fence word are among those that an arm of a surface record writes. -/
theorem mem_armBytes_surface (n : Fin 6) {fields : List Byte} (seq : U32) {i : Nat} {b : Byte} (hi : i < 24)
    (hb : fields[i]? = some b) : ((RecordKind.surface n).offset % 64 + i, b) ∈ armBytes (.surface n) fields seq := by
  have hm : (i, b) ∈ enumFrom 0 (fields.take 28) :=
    (mem_enumFrom ..).mpr ⟨i, by rw [List.getElem?_take_of_lt (by omega), hb], by simp⟩
  have hl : (RecordKind.surface n).liveAt i = false := by
    simp only [RecordKind.liveAt, Bool.and_eq_false_iff, decide_eq_false_iff_not]
    omega
  exact List.mem_append_left _ (List.mem_map.mpr ⟨(i, b), List.mem_filter.mpr ⟨hm, by simp [hl]⟩, rfl⟩)

theorem withCommand_getElem? {fields : List Byte} (h : fieldsOk 32 fields = true) (command : Byte) {i : Nat}
    (hi : i < 28) : (withCommand command fields)[i]? = some (if i = 17 then command else fields.getD i 0) := by
  have hf : fields.length = 28 := by
    simp only [fieldsOk, beq_iff_eq] at h
    omega
  have hp : padTo 28 fields = fields := by
    simp [padTo, zeros, hf, List.take_of_length_le]
  rw [withCommand, hp, List.getElem?_set]
  split
  · subst_vars
    simp [hf]
  · rename_i hne
    rw [if_neg (Ne.symm hne)]
    simp [List.getD_eq_getElem?_getD, List.getElem?_eq_getElem (show i < fields.length by omega)]

theorem byteAt_snapshot_configure (n : Fin 6) {fields : List Byte} (h : fieldsOk 32 fields = true) (seq : U32) (s : State)
    {i : Nat} (hi : i < 24) :
    byteAt ((s.recordWritten (.surface n) (armBytes (.surface n) (withCommand 0 fields) seq)).snapshot (.surface n)) i =
      if i = 17 then 0 else byteAt fields i := by
  rw [byteAt_snapshot_written n s (armBytes_pairwise ..) (by omega)
    (mem_armBytes_surface n seq hi (withCommand_getElem? h 0 (by omega)))]
  split <;> rfl

theorem surfaceConfigAt_congr {b d : List Byte} (hb : 17 ≤ b.length) (hd : 17 ≤ d.length)
    (h : ∀ i, i < 17 → byteAt b i = byteAt d i) : surfaceConfigAt b = surfaceConfigAt d := by
  rw [← surfaceConfigAt_take b, ← surfaceConfigAt_take d]
  congr 1
  refine List.ext_getElem (by simp; omega) fun i hi _ => ?_
  have hi : i < 17 := by
    rw [List.length_take] at hi
    omega
  have e := h i hi
  simp only [byteAt, List.getD_eq_getElem?_getD, List.getElem?_eq_getElem (show i < b.length by omega),
    List.getElem?_eq_getElem (show i < d.length by omega), Option.getD_some] at e
  simpa using BitVec.eq_of_toNat_eq e

theorem surfaceConfigAt_snapshot_configure (n : Fin 6) {fields : List Byte} (h : fieldsOk 32 fields = true) (seq : U32)
    (s : State) :
    surfaceConfigAt
      ((s.recordWritten (.surface n) (armBytes (.surface n) (withCommand 0 fields) seq)).snapshot (.surface n)) =
      surfaceConfigAt fields := by
  have hf : fields.length + 4 = 32 := by simpa [fieldsOk] using h
  refine surfaceConfigAt_congr ?_ (by omega) fun i hi => ?_
  · simp [State.snapshot, RecordKind.size]
  · rw [byteAt_snapshot_configure n h seq s (by omega), if_neg (by omega)]

theorem configureSurface_congr {b d : List Byte} (h : surfaceConfigAt b = surfaceConfigAt d) (n : Fin 6) (s : State) :
    configureSurface n b s = configureSurface n d s := by
  simp only [configureSurface, h]

/-! ### What a surface command runs to -/

theorem runsTo_imp {c : Instr} {s : State} {P Q : State → Prop} (h : runsTo c s P) (hi : ∀ u, P u → Q u) :
    runsTo c s Q := by
  obtain ⟨u, he, hp⟩ := h
  exact ⟨u, he, hi u hp⟩

/-- A submitted record runs to what its owner's judgement leaves, with the outcome entered (R172). -/
theorem runsTo_of_submit {c : Instr} {k : RecordKind} {seq : U32} {s t r : State} {o : Outcome} {P : State → Prop}
    (hx : exec c s = .next (submit k seq t)) (hj : judge k (t.snapshot k) (t.onPu (Pu.noteArm k seq)) = (o, r))
    (hp : P (r.onPu (Pu.enter k o))) : runsTo c s P :=
  ⟨_, hx.trans (congrArg (fun x : Outcome × State => Host.Outcome.next (drain (x.2.onPu (Pu.enter k x.1)))) hj), hp⟩

/-- The table's entry after an arm whose judgement touches the surface tracker alone. -/
theorem judged_of_onSt (k : RecordKind) (seq : U32) (o : Outcome) (f : St → St) (t : State) :
    (((t.onPu (Pu.noteArm k seq)).onSt f).onPu (Pu.enter k o)).judged k seq o := by
  constructor <;> simp [State.entry, Pu.enter, Pu.noteArm]

/-- A surface record submitted after its line write: the judgement sees the surface tracker and the plan area as they were,
and what it does to the tracker is all that happens there. -/
theorem runsTo_of_judgeSurface {c : Instr} {n : Fin 6} {seq : U32} {s : State} {bytes : List (Nat × Byte)} {o : Outcome}
    {f : St → St} (hx : exec c s = .next (submit (.surface n) seq (s.recordWritten (.surface n) bytes)))
    (hj : ∀ t : State, t.st = s.st → t.planBase = s.planBase →
      judgeSurface n ((s.recordWritten (.surface n) bytes).snapshot (.surface n)) t = (o, t.onSt f)) :
    runsTo c s fun u => u.judged (.surface n) seq o ∧ u.st = f s.st :=
  have hst : (s.recordWritten (.surface n) bytes).st = s.st := State.recordWritten_st ..
  have hplan : (s.recordWritten (.surface n) bytes).planBase = s.planBase := State.recordWritten_planBase ..
  runsTo_of_submit hx (hj _ hst hplan) ⟨judged_of_onSt .., congrArg f hst⟩

theorem runsTo_open {n : Fin 6} {seq : U32} {s : State} {o : Outcome} {f : St → St} (h : s.arms (.surface n) seq)
    (hj : ∀ t : State, t.st = s.st → openSurface n t = (o, t.onSt f)) :
    runsTo (.surfaceOpen n seq) s fun u => u.judged (.surface n) seq o ∧ u.st = f s.st :=
  runsTo_of_judgeSurface (congrArg _ (hostArrive_command h 1)) fun t ht _ => by
    rw [judgeSurface, byteAt_snapshot_command]
    exact hj t ht

theorem runsTo_release {n : Fin 6} {seq : U32} {s : State} {o : Outcome} {f : St → St} (h : s.arms (.surface n) seq)
    (hj : ∀ t : State, t.st = s.st → releaseSurface n t = (o, t.onSt f)) :
    runsTo (.surfaceRelease n seq) s fun u => u.judged (.surface n) seq o ∧ u.st = f s.st :=
  runsTo_of_judgeSurface (congrArg _ (hostArrive_command h 2)) fun t ht _ => by
    rw [judgeSurface, byteAt_snapshot_command]
    exact hj t ht

theorem runsTo_configure {n : Fin 6} {fields : List Byte} {seq : U32} {s : State} {o : Outcome} {f : St → St}
    (h : s.arms (.surface n) seq) (hf : fieldsOk 32 fields = true)
    (hj : ∀ t : State, t.st = s.st → t.planBase = s.planBase → configureSurface n fields t = (o, t.onSt f)) :
    runsTo (.surfaceConfigure n fields seq) s fun u => u.judged (.surface n) seq o ∧ u.st = f s.st :=
  runsTo_of_judgeSurface (congrArg _ (armRecord_of_arms h _)) fun t ht hp => by
    rw [judgeSurface, byteAt_snapshot_configure n hf seq s (by omega), if_pos rfl]
    exact (configureSurface_congr (surfaceConfigAt_snapshot_configure n hf seq s) n t).trans (hj t ht hp)

/-! ### The obligation -/

theorem surfaceOpen_effect {n : Fin 6} {seq : U32} {s : State} (h : s.arms (.surface n) seq)
    (ho : (s.st.surface n).ownedBy .host = true) (hf : (s.st.surface n).state = .free) (hb : s.st.barred = false) :
    runsTo (.surfaceOpen n seq) s fun u => u.judged (.surface n) seq .taken ∧
      u.st = s.st.onSurface n fun f => { f with
        state := .opened, bands := List.replicate f.bands.length ⟨false, false, false, false⟩, fence := 0 } := by
  refine runsTo_open h fun t ht => ?_
  simp only [openSurface_of_host (ht ▸ ho) (ht ▸ hf) (ht ▸ hb), Surface.clear_eq]

theorem surfaceRelease_of_held {n : Fin 6} {seq : U32} {s : State} (h : s.arms (.surface n) seq)
    (hf : (s.st.surface n).state = .held) :
    runsTo (.surfaceRelease n seq) s fun u => u.judged (.surface n) seq .taken ∧
      u.st.surfaces = (s.st.setState .free n).surfaces ∧ u.st.queue = s.st.queue ∧ u.st.current = s.st.current ∧
      u.st.previous = s.st.previous.bind (Frame.without n) := by
  refine runsTo_imp (runsTo_release h fun t ht => releaseSurface_of_held (ht ▸ hf)) fun u ⟨hj, hu⟩ => ⟨hj, ?_⟩
  rw [hu, St.noteFrames_eq]
  exact ⟨rfl, rfl, rfl, rfl⟩

/-- Settles O29: the fields and checks one by one, then each command by the surface's owner and state. -/
theorem surfaceCommands : Obligations.SurfaceCommands := by
  refine ⟨surfaceConfigAt_eq_some_iff, SurfaceConfig.ok_iff, fun n b s h => judgeSurface_above h n s,
    fun n seq s h => ⟨?openTether, ?openState, ?openTaken, ?releaseFree, ?releaseShown, ?releaseOpened, ?releaseReady,
      ?releaseHeld, ?configure⟩⟩
  case openTether => exact fun ho => runsTo_open (f := id) h fun t ht => openSurface_of_tether (ht ▸ ho)
  case openState => exact fun ho hf => runsTo_open (f := id) h fun t ht => openSurface_of_state (ht ▸ ho) (ht ▸ hf)
  case openTaken => exact surfaceOpen_effect h
  case releaseFree => exact fun hf => runsTo_release (f := id) h fun t ht => releaseSurface_of_free (ht ▸ hf)
  case releaseShown => exact fun hf => runsTo_release (f := id) h fun t ht => releaseSurface_of_shown (ht ▸ hf)
  case releaseOpened => exact fun hf => runsTo_release h fun t ht => releaseSurface_of_opened (ht ▸ hf)
  case releaseReady => exact fun hf => runsTo_release h fun t ht => releaseSurface_of_ready (ht ▸ hf)
  case releaseHeld => exact surfaceRelease_of_held h
  case configure =>
    refine fun fields hw => ⟨fun hc => ?field, fun c hc hk => ⟨fun hf => ?state, fun hf => ?taken⟩⟩
    case field => exact runsTo_configure (f := id) h hw fun t _ hp => configureSurface_of_field (hp ▸ hc)
    case state =>
      exact runsTo_configure (f := id) h hw fun t ht hp => configureSurface_of_state hc (hp ▸ hk) (ht ▸ hf)
    case taken => exact runsTo_configure h hw fun t ht hp => configureSurface_of_free hc (hp ▸ hk) (ht ▸ hf)

end Sys2Proof.Machine
end

section
/-!
PROOFS. A rule's condition and the rules that act on a record (R60 to R62): each condition by what it compares, the rules
up to the first final one, and the presence by the last rule that names one.
-/
namespace Sys2Proof.Machine

/-! ### Conditions (R61) -/

/-- The byte of a record that a rule's condition looks at. -/
def Rule.masked (r : Rule) (rcd : SensorRec) : Byte := rcd.payload.getD r.offset 0 &&& r.mask

theorem Rule.holds_of_none {r : Rule} (h : r.cond = .none) (rcd : SensorRec) : r.holds rcd = true := by
  simp only [Rule.holds, h]

theorem Rule.holds_above_iff {r : Rule} (h : r.cond = .above) (rcd : SensorRec) :
    r.holds rcd = true ↔ r.offset < rcd.length ∧ r.value.toNat < (r.masked rcd).toNat := by
  simp only [Rule.holds, h, Rule.masked, Bool.and_eq_true, decide_eq_true_eq, BitVec.lt_def]

theorem Rule.holds_below_iff {r : Rule} (h : r.cond = .below) (rcd : SensorRec) :
    r.holds rcd = true ↔ r.offset < rcd.length ∧ (r.masked rcd).toNat < r.value.toNat := by
  simp only [Rule.holds, h, Rule.masked, Bool.and_eq_true, decide_eq_true_eq, BitVec.lt_def]

theorem Rule.holds_equal_iff {r : Rule} (h : r.cond = .equal) (rcd : SensorRec) :
    r.holds rcd = true ↔ r.offset < rcd.length ∧ (r.masked rcd).toNat = r.value.toNat := by
  simp only [Rule.holds, h, Rule.masked, Bool.and_eq_true, decide_eq_true_eq, beq_iff_eq, BitVec.toNat_inj]

/-! ### The rules that act (R60) -/

theorem matching_cons_of_not_applies {rcd : SensorRec} {r : Rule} (h : r.applies rcd = false) (rest : List Rule) :
    matching rcd (r :: rest) = matching rcd rest := by
  simp [matching, h]

theorem matching_cons_of_final {rcd : SensorRec} {r : Rule} (h : r.applies rcd = true) (hf : r.final = true)
    (rest : List Rule) : matching rcd (r :: rest) = [r] := by
  simp [matching, h, hf]

theorem matching_cons_of_not_final {rcd : SensorRec} {r : Rule} (h : r.applies rcd = true) (hf : r.final = false)
    (rest : List Rule) : matching rcd (r :: rest) = r :: matching rcd rest := by
  simp [matching, h, hf]

/-- Of rules none of which ends the list all that match act, before those that act of the rest. -/
theorem matching_append (rcd : SensorRec) {pre : List Rule} (rest : List Rule)
    (h : ∀ r ∈ pre, r.applies rcd = true → r.final = false) :
    matching rcd (pre ++ rest) = pre.filter (Rule.applies rcd) ++ matching rcd rest := by
  induction pre with
  | nil => rfl
  | cons r pre ih =>
    have ih := ih fun x hx => h x (List.mem_cons_of_mem _ hx)
    rw [List.cons_append]
    cases ha : r.applies rcd with
    | false => rw [matching_cons_of_not_applies ha, ih, List.filter_cons_of_neg (by simp [ha])]
    | true =>
      rw [matching_cons_of_not_final ha (h r List.mem_cons_self ha), ih, List.filter_cons_of_pos ha, List.cons_append]

/-! ### The presence reported (R62) -/

theorem presenceOf_concat_none {r : Rule} (h : r.presence = .none) (l : List Rule) :
    presenceOf (l ++ [r]) = presenceOf l := by
  simp [presenceOf, h]

theorem presenceOf_concat_on {r : Rule} (h : r.presence = .on) (l : List Rule) : presenceOf (l ++ [r]) = some true := by
  simp [presenceOf, h]

theorem presenceOf_concat_off {r : Rule} (h : r.presence = .off) (l : List Rule) :
    presenceOf (l ++ [r]) = some false := by
  simp [presenceOf, h]

/-- Rules that name no presence change nothing of what those before them report. -/
theorem presenceOf_append_none (l : List Rule) {post : List Rule} (h : ∀ x ∈ post, x.presence = .none) :
    presenceOf (l ++ post) = presenceOf l := by
  induction post generalizing l with
  | nil => rw [List.append_nil]
  | cons x post ih =>
    rw [List.append_cons, ih _ fun y hy => h y (List.mem_cons_of_mem _ hy), presenceOf_concat_none (h x List.mem_cons_self)]

/-! ### The obligation -/

/-- Settles O46: each condition by its kind, the acting rules by the run before the first final one, the presence by the
rules after the last that names one. -/
theorem ruleConditions : Obligations.RuleConditions := by
  refine ⟨fun r rcd => ⟨?none, ?above, ?below, ?equal⟩, fun rcd rules => ⟨?all, ?upToFinal⟩,
    fun rules => ⟨presenceOf_append_none [], ?last⟩⟩
  case none => exact fun h => r.holds_of_none h rcd
  case above => exact fun h => r.holds_above_iff h rcd
  case below => exact fun h => r.holds_below_iff h rcd
  case equal => exact fun h => r.holds_equal_iff h rcd
  case all =>
    intro h
    have e := matching_append rcd [] h
    rwa [List.append_nil, matching, List.append_nil] at e
  case upToFinal =>
    rintro pre r post rfl h ha hf
    rw [matching_append rcd _ h, matching_cons_of_final ha hf]
    rfl
  case last =>
    rintro pre r post rfl h
    rw [List.append_cons, presenceOf_append_none _ h]
    exact ⟨fun hr => presenceOf_concat_on hr pre, fun hr => presenceOf_concat_off hr pre⟩

end Sys2Proof.Machine
end

section
/-!
PROOFS. Index writes of the rings (R65, R86, R174): what a refused index leaves, what a live word's write comes to by
what its owner does with the value, and the judgement of the sensor rings and the message ring.
-/
namespace Sys2Proof.Machine

/-! ### A refused index (R65, R86, R166) -/

theorem getLast?_newest_concat {α : Type} {n : Nat} (h : 0 < n) (l : List α) (x : α) :
    (newest n (l ++ [x])).getLast? = some x := by
  rw [newest, List.getLast?_drop, if_neg (by simp; omega), List.getLast?_concat]

/-- A capture leaves the requests and the service, and is the newest one. -/
theorem capture_da (k : CaptureKind) (a : Nat) (c : ReqClass) (s : State) :
    (capture k a c s).da.requests = s.da.requests ∧ (capture k a c s).da.service = s.da.service ∧
    (capture k a c s).da.captureTotal = s.da.captureTotal + 1 ∧
    (capture k a c s).da.captures.getLast? = some ⟨k, BitVec.ofNat 32 a, c, s.tb.now⟩ :=
  ⟨rfl, rfl, rfl, getLast?_newest_concat (by omega) _ _⟩

theorem badIndex_pending (a : Nat) (c : ReqClass) (s : State) : (badIndex a c s).pendingEvent .badIndex = true := by
  rw [State.pendingEvent, badIndex, raise_pending, decide_eq_true rfl, Bool.true_or]

/-! ### What a live word's write comes to -/

/-- The write is done, and the index it names is refused: nothing else changes but that BAD_INDEX is captured and raised. -/
def State.refusesIndex (s : State) (w : LiveWord) (v : U32) (enables : BitVec 4) (t : State) : Prop :=
  s.mergesWord w v enables t ∧ t = { s.writtenAs t with da := t.da, eu := t.eu } ∧ t.pendingEvent .badIndex = true ∧
  t.da.captureTotal = s.da.captureTotal + 1 ∧
  t.da.captures.getLast? = some ⟨.badIndex, BitVec.ofNat 32 (s.planBase + w.offset), .host, s.tb.now⟩

/-- The write is done, and it changes no byte of the shadow and makes no capture. -/
def State.idlesOn (s : State) (w : LiveWord) (v : U32) (enables : BitVec 4) (t : State) : Prop :=
  s.mergesWord w v enables t ∧ t = s.writtenAs t ∧ t.pu.shadow = s.pu.shadow ∧ t.da.captures = s.da.captures

/-- What a write does for itself is told from the shadow and the DRAM's requests. -/
theorem State.mergesWord_congr {s t u : State} {w : LiveWord} {v : U32} {enables : BitVec 4}
    (h : s.mergesWord w v enables u) (hpu : t.pu.shadow = u.pu.shadow) (hr : t.da.requests = u.da.requests)
    (hs : t.da.service = u.da.service) : s.mergesWord w v enables t := by
  simpa only [State.mergesWord, Da.all, hpu, hr, hs] using h

theorem State.writtenAs_congr (s : State) {t u : State} (hpu : t.pu.shadow = u.pu.shadow)
    (hr : t.da.requests = u.da.requests) (hs : t.da.service = u.da.service) : s.writtenAs t = s.writtenAs u := by
  simp only [State.writtenAs, hpu, hr, hs]

theorem State.captures_of_writtenAs {s t : State} (h : t = s.writtenAs t) : t.da.captures = s.da.captures := by
  rw [h]
  rfl

/-- A write that enables no byte of its word. -/
theorem liveWrite_idles {s : State} (h : s.taking) (w : LiveWord) (v : U32) {enables : BitVec 4} (h0 : enables = 0) :
    s.idlesOn w v enables (liveWrite w v enables s) := by
  obtain ⟨u, hm, hu, hshadow, he⟩ := liveWrite_of_taking h w v enables
  rw [he, if_pos h0]
  exact ⟨hm, hu, hshadow h0, State.captures_of_writtenAs hu⟩

/-- A write whose owner refuses the index. -/
theorem liveWrite_refuses {s : State} (h : s.taking) {w : LiveWord} {v : U32} {enables : BitVec 4} (hne : enables ≠ 0)
    (hact : ∀ u, liveAct w (s.liveValue w v enables) (s.writtenAs u) =
      badIndex (s.planBase + w.offset) .host (s.writtenAs u)) :
    s.refusesIndex w v enables (liveWrite w v enables s) := by
  obtain ⟨u, hm, hu, -, he⟩ := liveWrite_of_taking h w v enables
  rw [hu] at hm
  obtain ⟨hr, hs, htotal, hlast⟩ := capture_da .badIndex (s.planBase + w.offset) .host (s.writtenAs u)
  rw [he, if_neg hne, hu, hact]
  exact ⟨s.mergesWord_congr hm rfl hr hs, rfl, badIndex_pending _ _ _, htotal, hlast⟩

/-- A write whose owner puts the index elsewhere than in the DRAM arbiter and the plan unit. -/
theorem liveWrite_puts {s : State} (h : s.taking) {w : LiveWord} {v : U32} {enables : BitVec 4} (hne : enables ≠ 0)
    (put : State → State) (hda : ∀ u, (put u).da = u.da) (hpu : ∀ u, (put u).pu = u.pu)
    (hact : ∀ u, liveAct w (s.liveValue w v enables) (s.writtenAs u) = put (s.writtenAs u)) :
    s.mergesWord w v enables (liveWrite w v enables s) ∧
    liveWrite w v enables s = put (s.writtenAs (liveWrite w v enables s)) ∧
    (liveWrite w v enables s).da.captures = s.da.captures := by
  obtain ⟨u, hm, hu, -, he⟩ := liveWrite_of_taking h w v enables
  have hda := hda (s.writtenAs u)
  have hpu := hpu (s.writtenAs u)
  rw [hu] at hm
  rw [he, if_neg hne, hu, hact]
  refine ⟨s.mergesWord_congr hm (by rw [hpu]) (by rw [hda]) (by rw [hda]), ?_, by rw [hda]; rfl⟩
  rw [s.writtenAs_congr (t := put _) (u := u) (by rw [hpu]; rfl) (by rw [hda]; rfl) (by rw [hda]; rfl)]

/-! ### Sensor rings (R65) -/

theorem sensorConsume_of_valid {n : Fin 8} {v : U32} {s : State}
    (h : (v.truncate 16 - (vget s.sh.rings n).consume).toNat ≤
      ((vget s.sh.rings n).produce - (vget s.sh.rings n).consume).toNat) :
    sensorConsume n v s = { s with sh := { s.sh with
      rings := vset s.sh.rings n { vget s.sh.rings n with consume := v.truncate 16 } } } := if_pos h

theorem sensorConsume_of_beyond {n : Fin 8} {v : U32} {s : State}
    (h : ((vget s.sh.rings n).produce - (vget s.sh.rings n).consume).toNat <
      (v.truncate 16 - (vget s.sh.rings n).consume).toNat) :
    sensorConsume n v s = badIndex (s.planBase + (LiveWord.sensorConsume n).offset) .host s := if_neg (Nat.not_le.mpr h)

/-! ### The message ring (R86) -/

theorem messageConsume_of_valid {v : U32} {s : State}
    (h : (v.truncate 16 - s.tc.ring.consume).toNat ≤ (s.tc.ring.produce - s.tc.ring.consume).toNat) :
    messageConsume v s = { s with tc := { s.tc with ring := { s.tc.ring with consume := v.truncate 16 } } } := if_pos h

theorem messageConsume_of_beyond {v : U32} {s : State}
    (h : (s.tc.ring.produce - s.tc.ring.consume).toNat < (v.truncate 16 - s.tc.ring.consume).toNat) :
    messageConsume v s = badIndex (s.planBase + LiveWord.messageConsume.offset) .host s := if_neg (Nat.not_le.mpr h)

/-! ### The obligation -/

theorem exec_sensorRingConsumeWrite (q : Fin 8) (v : U32) (enables : BitVec 4) (s : State) :
    exec (.sensorRingConsumeWrite q v enables) s = .next (liveWrite (.sensorConsume q) v enables s) := rfl

theorem exec_messageRingConsumeWrite (v : U32) (enables : BitVec 4) (s : State) :
    exec (.messageRingConsumeWrite v enables) s = .next (liveWrite .messageConsume v enables s) := rfl

/-- Settles O37: for each ring the write that enables no byte, then the value by whether it lies beyond produce. -/
theorem consumeWrites : Obligations.ConsumeWrites := by
  intro v enables s ht
  refine ⟨fun q => ⟨fun h0 => ?sensorIdle, fun hne hk => ?sensorPut, fun hne hk => ?sensorRefused⟩,
    fun h0 => ?messageIdle, fun hne hk => ?messagePut, fun hne hk => ?messageRefused⟩
  case sensorIdle => exact ⟨_, exec_sensorRingConsumeWrite q v enables s, liveWrite_idles ht _ v h0⟩
  case sensorPut =>
    exact ⟨_, exec_sensorRingConsumeWrite q v enables s,
      liveWrite_puts ht hne
        (fun u => { u with sh := { s.sh with rings := vset s.sh.rings q { vget s.sh.rings q with
          consume := (s.liveValue (.sensorConsume q) v enables).truncate 16 } } })
        (fun _ => rfl) (fun _ => rfl) fun u => sensorConsume_of_valid (s := s.writtenAs u) hk⟩
  case sensorRefused =>
    exact ⟨_, exec_sensorRingConsumeWrite q v enables s,
      liveWrite_refuses ht hne fun u => sensorConsume_of_beyond (s := s.writtenAs u) hk⟩
  case messageIdle => exact ⟨_, exec_messageRingConsumeWrite v enables s, liveWrite_idles ht _ v h0⟩
  case messagePut =>
    exact ⟨_, exec_messageRingConsumeWrite v enables s,
      liveWrite_puts ht hne
        (fun u => { u with tc := { s.tc with ring := { s.tc.ring with
          consume := (s.liveValue .messageConsume v enables).truncate 16 } } })
        (fun _ => rfl) (fun _ => rfl) fun u => messageConsume_of_valid (s := s.writtenAs u) hk⟩
  case messageRefused =>
    exact ⟨_, exec_messageRingConsumeWrite v enables s,
      liveWrite_refuses ht hne fun u => messageConsume_of_beyond (s := s.writtenAs u) hk⟩

end Sys2Proof.Machine
end

section
/-!
PROOFS. The event unit (R180 to R182): what a raise does to the flags and the counts, when the attention line is driven
high, what an event record's arm hands over of its fields, and how it is judged.
-/
namespace Sys2Proof.Machine

/-! ### Raises (R180) -/

/-- A saturating count with its last value spelled as a number. -/
theorem sat16_eq (c : U16) : sat16 c = if c.toNat = 65535 then 65535 else c + 1 := by
  unfold sat16
  split
  case isTrue h => rw [h]; rfl
  case isFalse h => exact (if_neg fun hlast => h (BitVec.eq_of_toNat_eq hlast)).symm

/-- A raise sets its kind's flag and leaves the others as they are. -/
theorem Eu.raise_getLsbD (seen : Bool) (k : EventKind) (e : Eu) (n : Fin 28) :
    (e.raise seen k).pendingSet.getLsbD n.val = (e.pendingSet.getLsbD n.val || decide (n = k.num)) := by
  have hplace : decide (k.num.val = n.val) = decide (n = k.num) :=
    decide_eq_decide.mpr ⟨fun h => Fin.ext h.symm, fun h => h ▸ rfl⟩
  simp only [Eu.raise, EventKind.bit, BitVec.getLsbD_or, BitVec.getLsbD_twoPow, hplace, k.num.isLt, decide_true,
    Bool.true_and]

/-- A raise that the core does not see counts nothing. -/
theorem Eu.raise_counts_of_unseen (k : EventKind) (e : Eu) : (e.raise false k).counts = e.counts := rfl

theorem Eu.raise_counts_of_seen (k : EventKind) (e : Eu) (n : Fin 28) :
    vget (e.raise true k).counts n = if n = k.num then sat16 (vget e.counts n) else vget e.counts n := by
  rw [Eu.raise, if_pos rfl]
  split
  case isTrue h => rw [h, vget_vmod_same]
  case isFalse h => rw [vget_vmod_ne _ _ (Ne.symm h)]

/-- A raise counts its kind while the core domain is on, and no other kind. -/
theorem raise_counts (k : EventKind) (s : State) (n : Fin 28) :
    vget (raise k s).eu.counts n =
      if n = k.num then
        if s.coreOn = false then vget s.eu.counts n
        else if (vget s.eu.counts n).toNat = 65535 then 65535 else vget s.eu.counts n + 1
      else vget s.eu.counts n := by
  rw [raise, State.onEu_eu]
  cases s.coreOn with
  | false => rw [Eu.raise_counts_of_unseen, if_pos rfl, ite_self]
  | true => rw [Eu.raise_counts_of_seen, sat16_eq, if_neg Bool.true_eq_false.mp]

/-- Of the state a raise reads the event unit and whether the core domain is on. -/
theorem raise_eu_congr {s t : State} (k : EventKind) (hcore : t.coreOn = s.coreOn) (heu : t.eu = s.eu) :
    (raise k t).eu = (raise k s).eu := by
  simp only [raise_eq, hcore, heu]

/-- An assertion edge is one raise of THERMAL in the power state it finds. -/
theorem alertAsserts_eu (s : State) : (alertAsserts s).eu = (raise .thermal s).eu := by
  refine raise_eu_congr .thermal ?_ rfl
  simp only [State.coreOn, State.onPwc_pwc]
  split <;> rfl

theorem exec_thermAlertAssertion {s : State} (h : s.alertAsserted = false) :
    exec .thermAlertAssertion s =
      .next (alertAsserts (s.onPins fun p => { p with thermAlert := s.pwc.settings.activeHigh })) :=
  congrArg Host.Outcome.next (if_neg (by simp [h]))

/-! ### The attention line (R182) -/

theorem and_getLsbD_iff {w : Nat} (a b : BitVec w) (i : Nat) :
    (a &&& b).getLsbD i = true ↔ a.getLsbD i = true ∧ b.getLsbD i = true := by
  rw [BitVec.getLsbD_and, Bool.and_eq_true]

theorem and_ne_zero_iff {w : Nat} (a b : BitVec w) :
    a &&& b ≠ 0 ↔ ∃ i, a.getLsbD i = true ∧ b.getLsbD i = true := by
  constructor
  · refine fun h => Classical.byContradiction fun hnone => h (BitVec.eq_of_getLsbD_eq fun i _ => ?_)
    have hi : ¬ (a &&& b).getLsbD i = true := fun hi => hnone ⟨i, (and_getLsbD_iff a b i).mp hi⟩
    exact (Bool.eq_false_iff.mpr hi).trans BitVec.getLsbD_zero.symm
  · rintro ⟨i, hab⟩ h
    have hi : (a &&& b).getLsbD i = true := (and_getLsbD_iff a b i).mpr hab
    rw [h] at hi
    exact Bool.false_ne_true (BitVec.getLsbD_zero.symm.trans hi)

theorem Eu.attn_iff (e : Eu) :
    e.attn = true ↔ (∃ i, e.pendingSet.getLsbD i = true ∧ e.enableSet.getLsbD i = true) ∧ e.gap = none := by
  rw [Eu.attn, Bool.and_eq_true, bne_iff_ne, and_ne_zero_iff, Option.isNone_iff_eq_none]

theorem State.attn_of_coreOn {s : State} (h : s.coreOn = true) : s.attn = some s.eu.attn := if_pos h

/-- The line is low while a gap runs. -/
theorem Eu.attn_of_gap {e : Eu} {n : Nat} (h : e.gap = some n) : e.attn = false := by
  rw [Eu.attn, h, Option.isNone_some, Bool.and_false]

/-- The port takes nothing while the core domain is off. -/
theorem State.coreOn_of_taking {s : State} (h : s.taking) : s.coreOn = true := by
  obtain ⟨hopen, -⟩ := h
  rw [State.portOpen, State.coreLive, Bool.and_eq_true, Bool.and_eq_true] at hopen
  exact hopen.1.1

/-! ### The snapshot an arm hands over (R171, R172) -/

/-- A record that an arm writes whole lies in the line of its final word. -/
theorem record_in_line {k : RecordKind} (hk : k.size ≠ 128) :
    k.offset = 64 * (k.seqOffset / 64) + k.offset % 64 := by
  obtain ⟨-, hfit⟩ := record_fits k
  have := hfit hk
  have hseq : k.seqOffset = k.offset + k.size - 4 := rfl
  omega

/-- An arm writes each field byte that is no live word's. -/
theorem mem_armBytes {k : RecordKind} (hk : k.size ≠ 128) {fields : List Byte} (seq : U32) {i : Nat} {b : Byte}
    (hi : i < k.size - 4) (hlive : k.liveAt i = false) (hb : fields[i]? = some b) :
    (k.offset % 64 + i, b) ∈ armBytes k fields seq := by
  have hm : (i, b) ∈ enumFrom 0 (fields.take (k.size - 4)) :=
    (mem_enumFrom ..).mpr ⟨i, by rw [List.getElem?_take_of_lt hi, hb], (Nat.zero_add i).symm⟩
  rw [armBytes, if_neg hk]
  exact List.mem_append_left _ (List.mem_map.mpr ⟨(i, b), List.mem_filter.mpr ⟨hm, by rw [hlive]; rfl⟩, rfl⟩)

/-- The fields of an arm stand at the start of the snapshot that its owner is given. -/
theorem snapshot_arm_take {k : RecordKind} (hk : k.size ≠ 128) {fields : List Byte} (seq : U32) (s : State)
    (hlen : fields.length ≤ k.size - 4) (hlive : ∀ i, i < fields.length → k.liveAt i = false) :
    ((s.recordWritten k (armBytes k fields seq)).snapshot k).take fields.length = fields := by
  refine List.ext_getElem ?_ fun i _ hi => ?_
  · rw [State.snapshot, List.length_take, Mem.bytes_length]
    omega
  · have hread := State.recordWritten_read k s (armBytes_pairwise k fields seq)
      (mem_armBytes hk seq (by omega) (hlive i hi) (List.getElem?_eq_getElem hi))
    rw [← Nat.add_assoc, ← record_in_line hk] at hread
    simpa [State.snapshot, Mem.bytes] using hread

/-! ### The event record's fields (R186) -/

theorem numAt_toBytes (n : Nat) {v : Nat} (pre post : List Byte) (h : v < 256 ^ n) :
    numAt (pre ++ (toBytes n v ++ post)) pre.length n = v := by
  rw [numAt, bytesAt, List.drop_left, List.take_left' (toBytes_length n v), ofBytes_toBytes, Nat.mod_eq_of_lt h]

theorem eventFields_enable (enable ack : U32) (eos : Byte) : numAt (eventFields enable ack eos) 0 4 = enable.toNat := by
  rw [eventFields, List.append_assoc]
  exact numAt_toBytes 4 [] _ enable.isLt

theorem eventFields_ack (enable ack : U32) (eos : Byte) : numAt (eventFields enable ack eos) 4 4 = ack.toNat := by
  rw [eventFields, List.append_assoc]
  exact numAt_toBytes 4 (toBytes 4 enable.toNat) _ ack.isLt

theorem eventFields_eos (enable ack : U32) (eos : Byte) : byteAt (eventFields enable ack eos) 8 = eos.toNat := rfl

/-! ### The judgement of an event record (R181) -/

/-- An event record's fields stand in its first 9 bytes. -/
theorem judgeEvent_take (b : List Byte) (s : State) : judgeEvent (b.take 9) s = judgeEvent b s := by
  simp only [judgeEvent, flagAt, byteAt_take (show 8 < 9 by omega), numAt_take (show 0 + 4 ≤ 9 by omega),
    numAt_take (show 4 + 4 ≤ 9 by omega)]

/-- End-of-service is neither yes nor no. -/
theorem judgeEvent_of_eos {b : List Byte} (h : 1 < byteAt b 8) (s : State) : judgeEvent b s = (.refusedField, s) := by
  have hflag : flagAt b 8 = none := by rw [flagAt_eq]; exact List.getElem?_eq_none h
  simp only [judgeEvent, hflag]

theorem flagAt_eventFields (enable ack : U32) (eos : Bool) :
    flagAt (eventFields enable ack (flagByte eos)) 8 = some eos := by
  rw [flagAt_eq, eventFields_eos]
  cases eos <;> rfl

/-- A flag beyond kind 27. -/
theorem judgeEvent_of_beyond {enable ack : U32} (h : 2 ^ 28 ≤ enable.toNat ∨ 2 ^ 28 ≤ ack.toNat) (eos : Bool)
    (s : State) : judgeEvent (eventFields enable ack (flagByte eos)) s = (.refusedField, s) := by
  simp only [judgeEvent, flagAt_eventFields, eventFields_enable, eventFields_ack, if_pos h]

theorem judgeEvent_of_within {enable ack : U32} (he : enable.toNat < 2 ^ 28) (ha : ack.toNat < 2 ^ 28) (eos : Bool)
    (s : State) : judgeEvent (eventFields enable ack (flagByte eos)) s =
      (.taken, s.onEu (Eu.serve (enable.truncate 28) (ack.truncate 28) eos)) := by
  have hno : ¬ (2 ^ 28 ≤ enable.toNat ∨ 2 ^ 28 ≤ ack.toNat) := by omega
  simp only [judgeEvent, flagAt_eventFields, eventFields_enable, eventFields_ack, if_neg hno, BitVec.ofNat_toNat]

/-! ### What an event record's arm runs to -/

@[simp] theorem State.recordWritten_eu (k : RecordKind) (bytes : List (Nat × Byte)) (s : State) :
    (s.recordWritten k bytes).eu = s.eu := rfl

@[simp] theorem State.recordWritten_pwc (k : RecordKind) (bytes : List (Nat × Byte)) (s : State) :
    (s.recordWritten k bytes).pwc = s.pwc := rfl

theorem exec_eventRecordArm (enable ack seq : U32) (s : State) : exec (.eventRecordArm enable ack seq) s =
    .next (armRecord .event (eventFields enable ack (flagByte false)) seq s) := rfl

theorem exec_endOfService (enable ack seq : U32) (s : State) : exec (.endOfService enable ack seq) s =
    .next (armRecord .event (eventFields enable ack (flagByte true)) seq s) := rfl

/-- The table's entry after an arm whose judgement touches the event unit alone. -/
theorem judged_of_onEu (k : RecordKind) (seq : U32) (o : Outcome) (f : Eu → Eu) (t : State) :
    (((t.onPu (Pu.noteArm k seq)).onEu f).onPu (Pu.enter k o)).judged k seq o := by
  constructor <;> simp [State.entry, Pu.enter, Pu.noteArm]

/-- The event unit judges the snapshot of an arm by the arm's fields. -/
theorem judge_event_snapshot (enable ack : U32) (eos : Byte) (seq : U32) (s t : State) :
    judge .event ((s.recordWritten .event (armBytes .event (eventFields enable ack eos) seq)).snapshot .event) t =
      judgeEvent (eventFields enable ack eos) t := by
  have hlen : (eventFields enable ack eos).length = 9 := rfl
  have hfields := snapshot_arm_take (k := .event) (fields := eventFields enable ack eos) (by decide) seq s
    (by rw [hlen]; decide) fun _ _ => rfl
  rw [judge, ← judgeEvent_take, ← hlen, hfields]

/-- What the judgement of an event record's arm does to the event unit is all that happens there, and the core domain
stays on. -/
theorem runsTo_of_judgeEvent {c : Instr} {enable ack seq : U32} {eos : Byte} {s : State} {o : Outcome} {f : Eu → Eu}
    (hx : exec c s = .next (armRecord .event (eventFields enable ack eos) seq s)) (h : s.arms .event seq)
    (hj : ∀ t : State, judgeEvent (eventFields enable ack eos) t = (o, t.onEu f)) :
    runsTo c s fun u => u.judged .event seq o ∧ u.eu = f s.eu ∧ u.coreOn = true := by
  rw [armRecord_of_arms h] at hx
  exact runsTo_of_submit hx ((judge_event_snapshot ..).trans (hj _))
    ⟨judged_of_onEu .., rfl, State.coreOn_of_taking (s := s) h.1⟩

/-- An arm whose judgement leaves the state refuses, and leaves the event unit. -/
theorem runsTo_eventRefused {c : Instr} {enable ack seq : U32} {eos : Bool} {s : State}
    (hx : exec c s = .next (armRecord .event (eventFields enable ack (flagByte eos)) seq s)) (h : s.arms .event seq)
    (hb : 2 ^ 28 ≤ enable.toNat ∨ 2 ^ 28 ≤ ack.toNat) :
    runsTo c s fun u => u.judged .event seq .refusedField ∧ u.eu = s.eu :=
  runsTo_imp (runsTo_of_judgeEvent (f := id) hx h (judgeEvent_of_beyond hb eos)) fun _ ⟨hjudged, heu, _⟩ =>
    ⟨hjudged, heu⟩

/-- A taken arm serves the event unit, and the attention line shows what the unit then holds. -/
theorem runsTo_eventTaken {c : Instr} {enable ack seq : U32} {eos : Bool} {s : State}
    (hx : exec c s = .next (armRecord .event (eventFields enable ack (flagByte eos)) seq s)) (h : s.arms .event seq)
    (he : enable.toNat < 2 ^ 28) (ha : ack.toNat < 2 ^ 28) :
    runsTo c s fun u => u.judged .event seq .taken ∧
      u.eu = s.eu.serve (enable.truncate 28) (ack.truncate 28) eos ∧
      u.attn = some (s.eu.serve (enable.truncate 28) (ack.truncate 28) eos).attn :=
  runsTo_imp (runsTo_of_judgeEvent hx h (judgeEvent_of_within he ha eos)) fun _ ⟨hjudged, heu, hcore⟩ =>
    ⟨hjudged, heu, by rw [State.attn_of_coreOn hcore, heu]⟩

/-! ### The obligation -/

/-- Settles O36: an arm by whether its sets stay within kind 27, then the raise by its flags and counts, and the
assertion of THERM_ALERT as one raise. -/
theorem eventArms : Obligations.EventArms := by
  refine ⟨fun enable ack seq s h => ⟨fun hb => ⟨?armRefused, ?serviceRefused⟩,
    fun he ha => ⟨?armTaken, ?serviceTaken⟩⟩, fun b s hb => judgeEvent_of_eos hb s,
    fun k s => ⟨rfl, raise_enable k s, raise_gap k s, fun n => ⟨?flags, raise_counts k s n⟩⟩,
    fun s hs => ⟨_, exec_thermAlertAssertion hs, alertAsserts_eu _⟩⟩
  case flags => exact s.eu.raise_getLsbD s.coreOn k n
  case armRefused => exact runsTo_eventRefused (exec_eventRecordArm enable ack seq s) h hb
  case serviceRefused => exact runsTo_eventRefused (exec_endOfService enable ack seq s) h hb
  case armTaken =>
    refine runsTo_imp (runsTo_eventTaken (exec_eventRecordArm enable ack seq s) h he ha) ?_
    rintro u ⟨hjudged, heu, hattn⟩
    refine ⟨hjudged, heu, ?_⟩
    rw [hattn, Option.some_inj, Eu.attn_iff]
    exact ⟨Option.some_ne_none _, Iff.rfl⟩
  case serviceTaken =>
    refine runsTo_imp (runsTo_eventTaken (exec_endOfService enable ack seq s) h he ha) ?_
    rintro u ⟨hjudged, heu, hattn⟩
    exact ⟨hjudged, heu, hattn.trans (congrArg some (Eu.attn_of_gap rfl))⟩

end Sys2Proof.Machine
end

section
/-!
PROOFS. Frames and surfaces (R2, R10): what each operation of the surface tracker does to the agreement of frames and
surfaces, to the queue's length and to a tracker at rest.
-/
namespace Sys2Proof.Machine

/-! ### Surfaces after an update -/

theorem St.surface_onSurface (n m : Fin 6) (f : Surface → Surface) (t : St) :
    (t.onSurface n f).surface m = if m = n then f (t.surface m) else t.surface m := by
  by_cases h : m = n
  · subst h
    simp [St.surface, St.onSurface]
  · rw [if_neg h]
    exact vget_vmod_ne _ _ (Ne.symm h)

@[simp] theorem St.onSurface_keeps (n : Fin 6) (f : Surface → Surface) (t : St) :
    (t.onSurface n f).queue = t.queue ∧ (t.onSurface n f).current = t.current ∧
    (t.onSurface n f).previous = t.previous ∧ (t.onSurface n f).tether = t.tether ∧
    (t.onSurface n f).barred = t.barred ∧ (t.onSurface n f).nextIdent = t.nextIdent ∧
    (t.onSurface n f).dropped = t.dropped ∧ (t.onSurface n f).change = t.change ∧
    (t.onSurface n f).rejectCause = t.rejectCause ∧ (t.onSurface n f).rejectTag = t.rejectTag := by
  simp [St.onSurface]

/-- A fold of surface updates: every surface of the list is updated, as often as it stands there. -/
theorem St.foldl_onSurface_keeps (f : Surface → Surface) (l : List (Fin 6)) (t : St) :
    let u := l.foldl (fun t n => t.onSurface n f) t
    u.queue = t.queue ∧ u.current = t.current ∧ u.previous = t.previous ∧ u.tether = t.tether ∧ u.barred = t.barred ∧
    u.nextIdent = t.nextIdent ∧ u.dropped = t.dropped ∧ u.change = t.change ∧ u.rejectCause = t.rejectCause ∧
    u.rejectTag = t.rejectTag := by
  induction l generalizing t with
  | nil => simp
  | cons n r ih => simpa using ih (t.onSurface n f)

/-- A fold of an update that done twice is done once. -/
theorem St.surface_foldl_onSurface {f : Surface → Surface} (hf : ∀ x, f (f x) = f x) (l : List (Fin 6)) (t : St)
    (m : Fin 6) :
    (l.foldl (fun t n => t.onSurface n f) t).surface m = if m ∈ l then f (t.surface m) else t.surface m := by
  induction l generalizing t with
  | nil => simp
  | cons n r ih =>
    rw [List.foldl_cons, ih, St.surface_onSurface]
    by_cases h : m = n <;> by_cases hr : m ∈ r <;> simp [h, hr, hf]

theorem St.surface_setStates (x : SurfaceState) (l : List (Fin 6)) (t : St) (m : Fin 6) :
    (t.setStates x l).surface m = if m ∈ l then { t.surface m with state := x } else t.surface m :=
  St.surface_foldl_onSurface (f := fun f => { f with state := x }) (fun _ => rfl) l t m

@[simp] theorem St.setStates_keeps (x : SurfaceState) (l : List (Fin 6)) (t : St) :
    (t.setStates x l).queue = t.queue ∧ (t.setStates x l).current = t.current ∧
    (t.setStates x l).previous = t.previous ∧ (t.setStates x l).tether = t.tether ∧
    (t.setStates x l).barred = t.barred ∧ (t.setStates x l).nextIdent = t.nextIdent ∧
    (t.setStates x l).dropped = t.dropped ∧ (t.setStates x l).change = t.change ∧
    (t.setStates x l).rejectCause = t.rejectCause ∧ (t.setStates x l).rejectTag = t.rejectTag :=
  St.foldl_onSurface_keeps (fun f => { f with state := x }) l t

theorem St.surface_clearMarks (l : List (Fin 6)) (t : St) (m : Fin 6) :
    (t.clearMarks l).surface m = if m ∈ l then (t.surface m).clearMarks else t.surface m :=
  St.surface_foldl_onSurface (fun x => by simp [Surface.clearMarks]) l t m

@[simp] theorem St.clearMarks_keeps (l : List (Fin 6)) (t : St) :
    (t.clearMarks l).queue = t.queue ∧ (t.clearMarks l).current = t.current ∧
    (t.clearMarks l).previous = t.previous ∧ (t.clearMarks l).tether = t.tether ∧
    (t.clearMarks l).barred = t.barred ∧ (t.clearMarks l).nextIdent = t.nextIdent ∧
    (t.clearMarks l).dropped = t.dropped ∧ (t.clearMarks l).change = t.change ∧
    (t.clearMarks l).rejectCause = t.rejectCause ∧ (t.clearMarks l).rejectTag = t.rejectTag :=
  St.foldl_onSurface_keeps Surface.clearMarks l t

/-! ### What the tracker keeps -/

/-- The tracker's part of a part at rest (R22). -/
def St.atRest (t : St) : Prop :=
  (∀ n, (t.surface n).state = .free) ∧ t.queue = [] ∧ t.current = none ∧ t.previous = none ∧ t.tether = none ∧
  t.barred = true

/-- From one tracker state to another: the agreement of frames and surfaces, the bound of the queue, and the rest are
kept. -/
structure St.Sound (t u : St) : Prop where
  agree : t.framesAgree → u.framesAgree
  queue : t.queue.length ≤ 3 → u.queue.length ≤ 3
  rest : t.atRest → u.atRest

theorem St.atRest.framesAgree {t : St} (h : t.atRest) : t.framesAgree := by
  obtain ⟨free, queue, current, previous, tether, -⟩ := h
  simp [St.framesAgree, St.allNamed, free, queue, current, previous, tether, namedBy]

theorem St.Sound.refl (t : St) : t.Sound t := ⟨id, id, id⟩

theorem St.Sound.trans {t u v : St} (h : t.Sound u) (k : u.Sound v) : t.Sound v :=
  ⟨k.agree ∘ h.agree, k.queue ∘ h.queue, k.rest ∘ h.rest⟩

/-- What the agreement speaks of is the same in both. -/
structure St.SameFrames (t u : St) : Prop where
  queue : u.queue = t.queue
  current : namedBy u.current = namedBy t.current
  previous : namedBy u.previous = namedBy t.previous
  none : (t.current = none → u.current = none) ∧ (t.previous = none → u.previous = none)
  tether : u.tether = t.tether
  barred : u.barred = t.barred
  state : ∀ n, (u.surface n).state = (t.surface n).state
  config : ∀ n, (u.surface n).config = (t.surface n).config

theorem Surface.ownedBy_congr {f g : Surface} (h : f.config = g.config) (o : Owner) : f.ownedBy o = g.ownedBy o := by
  simp only [Surface.ownedBy, h]

theorem St.SameFrames.sound {t u : St} (h : t.SameFrames u) : t.Sound u where
  agree ha := by
    obtain ⟨named, queued, current, held, tether⟩ := ha
    simp only [St.framesAgree, St.allNamed, h.queue, h.current, h.previous, h.tether, h.state]
    refine ⟨named, queued, current, held, fun f hf => ⟨fun n hn => ?_, (tether f hf).2⟩⟩
    rw [Surface.ownedBy_congr (h.config n)]
    exact (tether f hf).1 n hn
  queue hq := by rwa [h.queue]
  rest hr := by
    obtain ⟨free, queue, current, previous, tether, barred⟩ := hr
    exact ⟨fun n => by rw [h.state, free], by rw [h.queue, queue], h.none.1 current, h.none.2 previous,
      by rw [h.tether, tether], by rw [h.barred, barred]⟩

theorem St.Sound.noteFrames {t u : St} (h : t.Sound u) : t.Sound (St.noteFrames t u) := by
  have same : u.SameFrames (St.noteFrames t u) := by
    rw [St.noteFrames_eq]
    exact ⟨rfl, rfl, rfl, ⟨id, id⟩, rfl, rfl, fun _ => rfl, fun _ => rfl⟩
  exact h.trans same.sound

/-- An update of one surface's bands and fence value. -/
theorem St.Sound.onBands (n : Fin 6) (b : Surface → List Band) (v : Surface → U32) (t : St) :
    t.Sound (t.onSurface n fun f => { f with bands := b f, fence := v f }) := by
  refine St.SameFrames.sound ⟨by simp, by simp, by simp, by simp, by simp, by simp, fun m => ?_, fun m => ?_⟩
  all_goals
    rw [St.surface_onSurface]
    split <;> rfl

theorem St.Sound.clearMarks (l : List (Fin 6)) (t : St) : t.Sound (t.clearMarks l) := by
  refine St.SameFrames.sound ⟨by simp, by simp, by simp, by simp, by simp, by simp, fun m => ?_, fun m => ?_⟩
  all_goals
    rw [St.surface_clearMarks]
    split <;> rfl

/-! ### Surfaces named and not -/

theorem St.framesAgree.unnamed {t : St} (h : t.framesAgree) {n : Fin 6} (hq : (t.surface n).state ≠ .queued)
    (hc : (t.surface n).state ≠ .current) (hh : (t.surface n).state ≠ .held) : n ∉ t.allNamed := by
  obtain ⟨-, queued, current, held, -⟩ := h
  simp only [St.allNamed, List.mem_append, not_or, ← queued, ← current, ← held]
  exact ⟨⟨hq, hc⟩, hh⟩

/-- Surfaces that no frame names change between FREE, OPEN and READY; the agreement needs only what the open tether frame
then has. -/
theorem St.framesAgree.reopen {t u : St} (h : t.framesAgree) (hq : u.queue = t.queue)
    (hc : u.current = t.current) (hp : u.previous = t.previous)
    (hs : ∀ n, (u.surface n).state = (t.surface n).state ∨
      (n ∉ t.allNamed ∧ ((u.surface n).state = .free ∨ (u.surface n).state = .opened ∨ (u.surface n).state = .ready)))
    (ht : ∀ f, u.tether = some f →
      (∀ n, n ∈ f.kept → (u.surface n).state = .opened ∧ (u.surface n).ownedBy .tether = true) ∧
      f.right ≠ some f.left) : u.framesAgree := by
  obtain ⟨named, queued, current, held, -⟩ := h
  have key (n : Fin 6) : (u.surface n).state = (t.surface n).state ∨ ((n ∉ t.queue.flatMap Entry.named ∧
      n ∉ namedBy t.current ∧ n ∉ namedBy t.previous) ∧ (u.surface n).state ≠ .queued ∧
      (u.surface n).state ≠ .current ∧ (u.surface n).state ≠ .held) := by
    rcases hs n with e | ⟨hn, e⟩
    · exact .inl e
    · refine .inr ⟨by simpa [St.allNamed, not_or, and_assoc] using hn, ?_⟩
      rcases e with e | e | e <;> simp [e]
  simp only [St.framesAgree, St.allNamed, hq, hc, hp]
  refine ⟨named, fun n => ?_, fun n => ?_, fun n => ?_, ht⟩
  · rcases key n with e | ⟨⟨a, -, -⟩, b, -, -⟩
    · rw [e]; exact queued n
    · exact ⟨fun x => absurd x b, fun x => absurd x a⟩
  · rcases key n with e | ⟨⟨-, a, -⟩, -, b, -⟩
    · rw [e]; exact current n
    · exact ⟨fun x => absurd x b, fun x => absurd x a⟩
  · rcases key n with e | ⟨⟨-, -, a⟩, -, -, b⟩
    · rw [e]; exact held n
    · exact ⟨fun x => absurd x b, fun x => absurd x a⟩

/-- The open tether frame keeps what it has while its surfaces keep their state and configuration. -/
theorem St.framesAgree.tetherStays {t u : St} (h : t.framesAgree) (ht : u.tether = t.tether)
    (hs : ∀ n, (t.surface n).state = .opened → (t.surface n).ownedBy .tether = true → u.surface n = t.surface n) :
    ∀ f, u.tether = some f →
      (∀ n, n ∈ f.kept → (u.surface n).state = .opened ∧ (u.surface n).ownedBy .tether = true) ∧
      f.right ≠ some f.left := by
  obtain ⟨-, -, -, -, tether⟩ := h
  intro f hf
  obtain ⟨kept, differ⟩ := tether f (ht ▸ hf)
  refine ⟨fun n hn => ?_, differ⟩
  obtain ⟨ho, hw⟩ := kept n hn
  rw [hs n ho hw]
  exact ⟨ho, hw⟩

theorem St.framesAgree.kept_opened {t : St} (h : t.framesAgree) {f : TetherFrame} (hf : t.tether = some f) {n : Fin 6}
    (hn : n ∈ f.kept) : (t.surface n).state = .opened := ((h.2.2.2.2 f hf).1 n hn).1

theorem St.framesAgree.not_mem_of_unshown {t : St} (h : t.framesAgree) {n : Fin 6}
    (hs : (t.surface n).state = .free ∨ (t.surface n).state = .opened ∨ (t.surface n).state = .ready) :
    n ∉ t.allNamed := by
  rcases hs with e | e | e <;> exact h.unnamed (by simp [e]) (by simp [e]) (by simp [e])

/-! ### Record commands -/

theorem configureSurface_sound (n : Fin 6) (b : List Byte) (s : State) :
    s.st.Sound (configureSurface n b s).2.st := by
  simp only [configureSurface]
  repeat' split
  all_goals try exact .refl _
  next c hc hk hf =>
    have free : (s.st.surface n).state = .free := by simpa using hf
    have same (m : Fin 6) : ((s.st.onSurface n fun f => { f with config := some c, bands := c.emptyBands, fence := 0 }).surface m).state =
        (s.st.surface m).state := by
      rw [St.surface_onSurface]; split <;> rfl
    refine ⟨fun h => h.reopen (by simp) (by simp) (by simp) (fun m => .inl (same m)) (h.tetherStays (by simp) fun m ho _ => ?_),
      by simp, fun hr => ⟨fun m => (same m).trans (hr.1 m), by simpa using hr.2⟩⟩
    have hne : m ≠ n := fun e => by simp [e, free] at ho
    simp [St.surface_onSurface, hne]

theorem openSurface_sound (n : Fin 6) (s : State) : s.st.Sound (openSurface n s).2.st := by
  simp only [openSurface]
  repeat' split
  all_goals try exact .refl _
  next hw hf =>
    obtain ⟨⟨-, free⟩, barred⟩ : (_ ∧ (s.st.surface n).state = .free) ∧ s.st.barred = false := by simpa using hf
    refine ⟨fun h => h.reopen (by simp) (by simp) (by simp) (fun m => ?_) (h.tetherStays (by simp) fun m ho _ => ?_),
      by simp, fun hr => ?_⟩
    · by_cases e : m = n
      · exact .inr ⟨h.not_mem_of_unshown (.inl (e ▸ free)), by simp [St.surface_onSurface, e]⟩
      · exact .inl (by simp [St.surface_onSurface, e])
    · have hne : m ≠ n := fun e => by simp [e, free] at ho
      simp [St.surface_onSurface, hne]
    · obtain ⟨-, -, -, -, -, hb⟩ := hr
      simp [barred] at hb

theorem Frame.named_without {n : Fin 6} {f : Machine.Frame} :
    namedBy (f.without n) = f.named.filter (· ≠ n) := by
  obtain ⟨tag, left, right, target, pose, source, repeats, substituted, bandLate⟩ := f
  cases left with
  | none => cases right with
    | none => simp [Frame.without, namedBy, Frame.named]
    | some r => by_cases hr : r = n <;> simp [Frame.without, namedBy, Frame.named, hr]
  | some l => cases right with
    | none => by_cases hl : l = n <;> simp [Frame.without, namedBy, Frame.named, hl]
    | some r => by_cases hl : l = n <;> by_cases hr : r = n <;> simp [Frame.without, namedBy, Frame.named, hl, hr]

theorem namedBy_without (n : Fin 6) (f : Option Machine.Frame) :
    namedBy (f.bind (Frame.without n)) = (namedBy f).filter (· ≠ n) := by
  cases f with
  | none => rfl
  | some f => exact Frame.named_without

/-- A HELD surface is released out of the previous frame (R4). -/
theorem St.framesAgree.releaseHeld {t u : St} {n : Fin 6} (h : t.framesAgree) (hn : (t.surface n).state = .held)
    (hq : u.queue = t.queue) (hc : u.current = t.current) (ht : u.tether = t.tether)
    (hp : namedBy u.previous = (namedBy t.previous).filter (· ≠ n))
    (hs : ∀ m, u.surface m = if m = n then { t.surface m with state := .free } else t.surface m) : u.framesAgree := by
  have tether := h.tetherStays (u := u) ht fun m ho _ => by
    have hne : m ≠ n := fun e => by simp [e, hn] at ho
    rw [hs, if_neg hne]
  obtain ⟨named, queued, current, held, -⟩ := h
  refine ⟨?_, fun m => ?_, fun m => ?_, fun m => ?_, tether⟩
  · simp only [St.allNamed, hq, hc, hp]
    exact named.sublist (List.Sublist.append_left List.filter_sublist _)
  all_goals
    rw [hs]
    by_cases e : m = n
    · subst e
      first
        | rw [hq, ← queued]; simp [hn]
        | rw [hc, ← current]; simp [hn]
        | rw [hp]; simp
    · rw [if_neg e]
      first
        | rw [hq]; exact queued m
        | rw [hc]; exact current m
        | rw [hp, held]; simp [e]

theorem TetherFrame.mem_kept_release {n m : Fin 6} {f : TetherFrame} (h : m ∈ (f.release n).kept) :
    m ∈ f.kept ∧ m ≠ n := by
  simp only [TetherFrame.kept, TetherFrame.release, List.mem_append] at h ⊢
  rcases h with h | h
  · by_cases hl : f.leftReleased = true <;> by_cases e : f.left = n <;> simp_all
  · by_cases hr : f.rightReleased = true <;> by_cases e : f.right = some n <;> simp_all

theorem releaseSurface_sound (n : Fin 6) (s : State) : s.st.Sound (releaseSurface n s).2.st := by
  have freed (m : Fin 6) : (s.st.setState .free n).surface m =
      if m = n then { s.st.surface m with state := .free } else s.st.surface m := St.surface_onSurface ..
  have other {m : Fin 6} (e : m ≠ n) : (s.st.setState .free n).surface m = s.st.surface m := by rw [freed, if_neg e]
  have here : ((s.st.setState .free n).surface n).state = .free := by rw [freed, if_pos rfl]
  have moves (h : n ∉ s.st.allNamed) (m : Fin 6) :
      ((s.st.setState .free n).surface m).state = (s.st.surface m).state ∨ (m ∉ s.st.allNamed ∧
        (((s.st.setState .free n).surface m).state = .free ∨ ((s.st.setState .free n).surface m).state = .opened ∨
          ((s.st.setState .free n).surface m).state = .ready)) := by
    by_cases e : m = n
    · subst e; exact .inr ⟨h, .inl here⟩
    · exact .inl (by rw [other e])
  cases hs : (s.st.surface n).state with
  | free => rw [releaseSurface_of_free hs]; exact .refl _
  | queued => rw [releaseSurface_of_shown (.inl hs)]; exact .refl _
  | current => rw [releaseSurface_of_shown (.inr hs)]; exact .refl _
  | opened =>
    rw [releaseSurface_of_opened hs]
    refine ⟨fun h => h.reopen rfl rfl rfl (moves (h.not_mem_of_unshown (.inr (.inl hs)))) fun f hf => ?_, id,
      fun hr => absurd (hr.1 n) (by simp [hs])⟩
    obtain ⟨g, hg, rfl⟩ : ∃ g, s.st.tether = some g ∧ g.release n = f := by simpa using hf
    obtain ⟨-, -, -, -, tether⟩ := h
    refine ⟨fun m hm => ?_, (tether g hg).2⟩
    obtain ⟨hk, hne⟩ := TetherFrame.mem_kept_release hm
    have same : ((s.onSt fun t => { (t.setState .free n) with tether := t.tether.map (TetherFrame.release n) }).st.surface m)
        = s.st.surface m := other hne
    rw [same]
    exact (tether g hg).1 m hk
  | ready =>
    rw [releaseSurface_of_ready hs]
    refine ⟨fun h => h.reopen rfl rfl rfl (moves (h.not_mem_of_unshown (.inr (.inr hs))))
      (h.tetherStays rfl fun m ho _ => other fun e => ?_), id, fun hr => absurd (hr.1 n) (by simp [hs])⟩
    simp [e, hs] at ho
  | held =>
    rw [releaseSurface_of_held hs]
    refine St.Sound.noteFrames ⟨fun h => h.releaseHeld hs rfl rfl rfl (namedBy_without n _) freed, id,
      fun hr => absurd (hr.1 n) (by simp [hs])⟩

/-! ### Queueing (R9, R20) -/

/-- A surface an entry may name as it joins the queue: OPEN or READY, and none that an open tether frame still has. -/
def St.Queueable (t : St) (n : Fin 6) : Prop :=
  ((t.surface n).state = .opened ∨ (t.surface n).state = .ready) ∧ ∀ f, t.tether = some f → n ∉ f.kept

/-- The agreement from the surfaces that the queue, the current frame and the previous frame name, those surfaces and the
open tether frame. -/
theorem St.framesAgree_of {u : St} {q c p : List (Fin 6)} {σ : Fin 6 → Surface} {τ : Option TetherFrame}
    (hq : u.queue.flatMap Entry.named = q) (hc : namedBy u.current = c) (hp : namedBy u.previous = p)
    (hσ : ∀ m, u.surface m = σ m) (hτ : u.tether = τ) (named : (q ++ c ++ p).Nodup)
    (hs : ∀ m, ((σ m).state = .queued ↔ m ∈ q) ∧ ((σ m).state = .current ↔ m ∈ c) ∧ ((σ m).state = .held ↔ m ∈ p))
    (tether : ∀ f, τ = some f →
      (∀ n, n ∈ f.kept → (σ n).state = .opened ∧ (σ n).ownedBy .tether = true) ∧ f.right ≠ some f.left) :
    u.framesAgree := by
  simp only [St.framesAgree, St.allNamed, hq, hc, hp, hσ, hτ]
  exact ⟨named, fun m => (hs m).1, fun m => (hs m).2.1, fun m => (hs m).2.2, tether⟩

theorem Entry.named_nodup {e : Entry} (h : e.right ≠ some e.left) : e.named.Nodup := by
  cases hr : e.right with
  | none => simp [Entry.named, hr]
  | some r => simpa [Entry.named, hr] using fun x : e.left = r => h (hr.trans (congrArg some x.symm))

theorem St.Sound.enqueue {e : Entry} {t : St} (hd : e.right ≠ some e.left) (hq : ∀ n ∈ e.named, t.Queueable n)
    (room : ¬ 3 ≤ t.queue.length) : t.Sound { (t.setStates .queued e.named) with queue := t.queue ++ [e] } := by
  refine ⟨fun h => ?_, fun _ => ?_, fun hr => ?_⟩
  · have distinct := Entry.named_nodup hd
    have unnamed : ∀ n ∈ e.named, n ∉ t.allNamed := fun n hn => h.not_mem_of_unshown (.inr ((hq n hn).1))
    obtain ⟨named, queued, current, held, tether⟩ := h
    simp only [St.allNamed, List.mem_append, not_or] at unnamed named
    refine St.framesAgree_of (List.flatMap_append.trans (congrArg _ (List.flatMap_singleton ..))) (c := namedBy t.current)
      (p := namedBy t.previous) (τ := t.tether) (by simp) (by simp) (St.surface_setStates _ _ _) (by simp) ?_
      (fun m => ?_) fun f hf => ⟨fun m hm => ?_, (tether f hf).2⟩
    · grind [List.nodup_append]
    · grind
    · rw [if_neg fun x => (hq m x).2 f hf hm]
      exact (tether f hf).1 m hm
  · simp only [List.length_append, List.length_singleton]
    omega
  · have := (hq e.left (by simp [Entry.named])).1
    simp [hr.1] at this

theorem presentAt_distinct {b : List Byte} {e : Entry} (h : presentAt b = some e) : e.right ≠ some e.left := by
  simp only [presentAt, Option.bind_eq_bind, Option.bind_eq_some_iff] at h
  obtain ⟨left, -, right, -, t, -, p, -, h⟩ := h
  split at h
  · cases h
  · next hd => cases h; exact hd

theorem Surface.queueable_of_presentable {t : St} (ha : t.framesAgree) {n : Fin 6}
    (h : (t.surface n).presentable = true) : t.Queueable n := by
  simp only [Surface.presentable] at h
  split at h
  · cases h
  next c hc =>
    cases ho : c.owner <;> simp only [ho, Bool.or_eq_true, beq_iff_eq] at h
    · refine ⟨h, fun f hf hk => ?_⟩
      have := ((ha.2.2.2.2 f hf).1 n hk).2
      simp [Surface.ownedBy, hc, ho] at this
    · exact ⟨.inr h, fun f hf hk => by simp [ha.kept_opened hf hk] at h⟩

theorem enqueue_st (e : Entry) (s : State) :
    (enqueue e s).st = St.noteFrames s.st { (s.st.setStates .queued e.named) with queue := s.st.queue ++ [e] } := rfl

/-- Where the agreement is not given nothing has to be kept of it. -/
theorem St.Sound.of_agree {t u : St} (h : t.framesAgree → t.Sound u) (hq : t.queue.length ≤ 3 → u.queue.length ≤ 3)
    (hr : t.atRest → u.atRest) : t.Sound u := ⟨fun ha => (h ha).agree ha, hq, hr⟩

theorem judgePresent_sound (b : List Byte) (s : State) : s.st.Sound (judgePresent b s).2.st := by
  simp only [judgePresent]
  repeat' split
  all_goals try exact .refl _
  next e he hp _ hroom =>
    obtain ⟨hp, hb⟩ : (∀ n ∈ e.named, (s.st.surface n).presentable = true) ∧ s.st.barred = false := by simpa using hp
    rw [enqueue_st]
    refine .of_agree (fun ha => .noteFrames (.enqueue (presentAt_distinct he)
      (fun n hn => Surface.queueable_of_presentable ha (hp n hn)) hroom)) (fun _ => ?_) fun hr => ?_
    · rw [St.noteFrames_eq]
      simp only [List.length_append, List.length_singleton]
      omega
    · simp [hr.2.2.2.2.2] at hb

/-! ### Tether frames (R17 to R21) -/

theorem raise_st (k : EventKind) (s : State) : (raise k s).st = s.st := by simp

/-- A reject note leaves what the agreement speaks of. -/
theorem rejectTether_sound (c : RejectCause) (tag : U32) (s : State) : s.st.Sound (rejectTether c tag s).st := by
  refine St.SameFrames.sound ?_
  rw [rejectTether, raise_st]
  exact ⟨rfl, rfl, rfl, ⟨id, id⟩, rfl, rfl, fun _ => rfl, fun _ => rfl⟩

theorem TetherFrame.mem_kept {f : TetherFrame} {n : Fin 6} (h : n ∈ f.kept) : n = f.left ∨ f.right = some n := by
  simp only [TetherFrame.kept, List.mem_append] at h
  rcases h with h | h
  · split at h <;> simp_all
  · split at h <;> simp_all

/-- The open tether frame goes, and its surfaces that are still OPEN go FREE or READY. -/
theorem St.Sound.closeTether {x : SurfaceState} (hx : x = .free ∨ x = .ready) {f : TetherFrame} {t : St}
    {l : List (Fin 6)} (hf : t.tether = some f) (hl : ∀ n ∈ l, n ∈ f.kept) :
    t.Sound { (t.setStates x l) with tether := none } := by
  refine ⟨fun h => ?_, by simp, fun hr => by simp [hr.2.2.2.2.1] at hf⟩
  refine h.reopen (by simp) (by simp) (by simp) (fun m => ?_) (by simp)
  have put : ({ (t.setStates x l) with tether := none } : St).surface m =
      if m ∈ l then { t.surface m with state := x } else t.surface m := St.surface_setStates ..
  rw [put]
  by_cases e : m ∈ l
  · rw [if_pos e]
    refine .inr ⟨h.not_mem_of_unshown (.inr (.inl (h.kept_opened hf (hl m e)))), ?_⟩
    rcases hx with rfl | rfl <;> simp
  · rw [if_neg e]
    exact .inl rfl

theorem St.dropTether_sound (t : St) : t.Sound t.dropTether := by
  unfold St.dropTether
  split
  · exact .refl _
  · next f hf => exact .closeTether (.inl rfl) hf fun _ h => h

theorem St.dropTether_tether (t : St) : t.dropTether.tether = none := by
  unfold St.dropTether
  split
  · assumption
  · rfl

theorem beginSurfaces_distinct {f : FrameBegin} {left : Fin 6} {right : Option (Fin 6)}
    (h : beginSurfaces f = some (left, right)) : right ≠ some left := by
  simp only [beginSurfaces, Option.bind_eq_bind, Option.bind_eq_some_iff] at h
  obtain ⟨l, -, r, -, h⟩ := h
  split at h
  · cases h
  · next hd => cases h; exact hd

theorem Surface.openable_iff (f : Surface) : f.openable = true ↔ f.ownedBy .tether = true ∧ f.state = .free := by
  simp [Surface.openable]

/-- An accepted FRAME_BEGIN opens FREE tether surfaces as the open tether frame (R18). -/
theorem acceptFrame_sound {f : FrameBegin} {left : Fin 6} {right : Option (Fin 6)} {s : State}
    (hd : right ≠ some left) (ho : ∀ n ∈ left :: right.toList, (s.st.surface n).openable = true) (hb : s.st.barred = false) : s.st.Sound (acceptFrame f left right s).st := by
  have opened (m : Fin 6) : (acceptFrame f left right s).st.surface m =
      if m ∈ left :: right.toList then { (s.st.surface m).clear with state := .opened } else s.st.surface m :=
    St.surface_foldl_onSurface (f := fun x => { x.clear with state := .opened }) (by simp [Surface.clear]) _ s.st m
  have keeps := St.foldl_onSurface_keeps (fun x => { x.clear with state := .opened }) (left :: right.toList) s.st
  obtain ⟨hq, hc, hp, -⟩ := keeps
  refine ⟨fun h => ?_, fun hl => by rwa [← hq] at hl, fun hr => by simp [hr.2.2.2.2.2] at hb⟩
  refine h.reopen hq hc hp (fun m => ?_) fun g hg => ?_
  · rw [opened]
    split
    · next hm =>
      exact .inr ⟨h.not_mem_of_unshown (.inl ((Surface.openable_iff _).mp (ho m hm)).2), .inr (.inl rfl)⟩
    · exact .inl rfl
  · cases hg
    refine ⟨fun m hm => ?_, hd⟩
    have hn : m ∈ left :: right.toList := by
      rcases TetherFrame.mem_kept hm with rfl | hr
      · exact List.mem_cons_self
      · exact List.mem_cons_of_mem _ (by simpa using hr)
    rw [opened, if_pos hn]
    exact ⟨rfl, ((Surface.openable_iff _).mp (ho m hn)).1⟩

/-- What a taken FRAME_BEGIN finds: the open tether frame given up. -/
def tetherCleared (f : FrameBegin) (s : State) : State :=
  if s.st.tether.isSome then rejectTether .abandoned f.tag (s.onSt St.dropTether) else s

theorem tetherBegin_eq (f : FrameBegin) (s : State) : tetherBegin f s =
    match beginSurfaces f with
    | none => rejectTether .state f.tag (tetherCleared f s)
    | some (left, right) =>
      if (left :: right.toList).all (fun n => ((tetherCleared f s).st.surface n).openable) &&
          (tetherCleared f s).st.eyesOk left right && !(tetherCleared f s).st.barred then
        acceptFrame f left right (tetherCleared f s)
      else rejectTether .state f.tag (tetherCleared f s) := rfl

theorem tetherCleared_sound (f : FrameBegin) (s : State) : s.st.Sound (tetherCleared f s).st := by
  unfold tetherCleared
  split
  · exact (St.dropTether_sound _).trans (rejectTether_sound _ _ (s.onSt St.dropTether))
  · exact .refl _

theorem tetherBegin_sound (f : FrameBegin) (s : State) : s.st.Sound (tetherBegin f s).st := by
  refine (tetherCleared_sound f s).trans ?_
  rw [tetherBegin_eq]
  generalize tetherCleared f s = u
  split
  · exact rejectTether_sound ..
  · next left right hb =>
    split
    · next h =>
      obtain ⟨⟨ho, -⟩, hbar⟩ : ((∀ n ∈ left :: right.toList, (u.st.surface n).openable = true) ∧
          u.st.eyesOk left right = true) ∧ u.st.barred = false := by
        simpa only [Bool.and_eq_true, List.all_eq_true, Bool.not_eq_true'] using h
      exact acceptFrame_sound (beginSurfaces_distinct hb) ho hbar
    · exact rejectTether_sound ..

theorem St.setStates_tether (x : SurfaceState) (l : List (Fin 6)) (y : Option TetherFrame) (t : St) :
    St.setStates x l { t with tether := y } = { (t.setStates x l) with tether := y } := by
  simp only [St.setStates]
  induction l generalizing t with
  | nil => rfl
  | cons n r ih => exact ih (t.setState x n)

/-- The surfaces of a closed tether frame join the queue as its entry (R20). -/
theorem tetherEnqueue_sound {f : TetherFrame} {s : State} (hf : s.st.tether = some f)
    (kept : f.kept = f.left :: f.right.toList) (room : ¬ 3 ≤ s.st.queue.length) :
    s.st.Sound (enqueue f.entry (s.onSt fun t => { t with tether := none })).st := by
  have closed : s.st.Sound { s.st with tether := none } := .closeTether (.inl rfl) hf (l := []) (by simp)
  rw [enqueue_st]
  refine .of_agree (fun ha => closed.trans (.noteFrames (.enqueue (ha.2.2.2.2 f hf).2 (fun n hn => ?_) room)))
    (fun _ => ?_) fun hr => by simp [hr.2.2.2.2.1] at hf
  · exact ⟨.inl (ha.kept_opened hf (kept ▸ hn)), nofun⟩
  · rw [St.noteFrames_eq]
    simp only [List.length_append, List.length_singleton, State.onSt_st]
    omega

theorem tetherEnd_sound (tag : U32) (s : State) : s.st.Sound (tetherEnd tag s).st := by
  unfold tetherEnd
  split
  · exact rejectTether_sound ..
  next f hf =>
    dsimp only
    split
    · exact rejectTether_sound ..
    split
    · exact (St.dropTether_sound _).trans (rejectTether_sound _ _ (s.onSt St.dropTether))
    next hrel =>
      obtain ⟨hl, hr⟩ : f.leftReleased = false ∧ f.rightReleased = false := by simpa using hrel
      have kept : f.kept = f.left :: f.right.toList := by simp [TetherFrame.kept, hl, hr]
      have ready : s.st.Sound ((s.onSt fun t => { t with tether := none }).onSt
          (St.setStates .ready (f.left :: f.right.toList))).st := by
        simp only [State.onSt_st, St.setStates_tether]
        exact .closeTether (.inr rfl) hf fun n hn => kept ▸ hn
      split
      · exact ready
      split
      · exact ready.trans (rejectTether_sound ..)
      split
      · exact ready.trans (rejectTether_sound ..)
      · next room => exact tetherEnqueue_sound hf kept room

theorem tetherLost_sound (s : State) : s.st.Sound (tetherLost s).st := by
  unfold tetherLost
  split
  · exact .refl _
  · exact (St.dropTether_sound _).trans (rejectTether_sound _ _ (s.onSt St.dropTether))

theorem depositBands_sound (n : Fin 6) (row : Nat) (s : State) : s.st.Sound (depositBands n row s).st := by
  simp only [depositBands]
  repeat' split
  all_goals first
    | exact .refl _
    | exact .onBands n _ _ _

theorem advanceDeposit_sound (n : Fin 6) (ident row : Nat) (s : State) :
    s.st.Sound (advanceDeposit n ident row s).st := by
  unfold advanceDeposit
  split
  · exact depositBands_sound n row (s.onTc _)
  · exact .refl _

/-! ### Completion and band starts (R5 to R8) -/

theorem fenceWrite_sound (n : Fin 6) (v : U32) (s : State) : s.st.Sound (fenceWrite n v s).st := by
  simp only [fenceWrite]
  repeat' split
  all_goals first
    | exact .refl _
    | exact .onBands n _ _ _

theorem observedWrite_sound (n : Fin 6) (addr : Nat) (s : State) : s.st.Sound (observedWrite n addr s).st := by
  simp only [observedWrite]
  split
  · exact .refl _
  split
  · exact .refl _
  split
  · exact .refl _
  have bands (b : Surface → List Band) (t : St) : t.Sound (t.onSurface n fun f => { f with bands := b f }) :=
    .onBands n b _ t
  split
  · rw [raise_st]
    exact (bands _ _).trans (bands _ _)
  · exact bands _ _

theorem askBand_sound (panel : Side) (n : Fin 6) (k : Nat) (s : State) : s.st.Sound (askBand panel n k s).2.st := by
  have bands (b : Surface → List Band) (t : St) : t.Sound (t.onSurface n fun f => { f with bands := b f }) :=
    .onBands n b _ t
  simp only [askBand]
  split
  · exact .refl _
  split
  · exact bands _ _
  have marks (x : Machine.Frame → U16) (t : St) :
      t.Sound { t with current := t.current.map fun fr => { fr with substituted := x fr, bandLate := true } } :=
    St.SameFrames.sound ⟨rfl, by cases t.current <;> simp [namedBy, Frame.named], rfl, ⟨fun h => by simp [h], id⟩, rfl, rfl, fun _ => rfl, fun _ => rfl⟩
  have asked (f : State → State) (hf : ∀ u, (f u).st = u.st) (c : Bool) (u : State) : (u.when c f).st = u.st := by
    cases c <;> simp [hf]
  rw [asked _ (raise_st _)]
  exact .noteFrames ((bands _ _).trans (marks _ _))

/-! ### Boundaries (R12 to R16) and the flush (R22) -/

theorem choosePresent_split {boundary : Stamp} {set : TimingSet} {q d rest : List Entry} {e : Entry}
    (h : choosePresent boundary set q = (d, some e, rest)) : q = d ++ e :: rest := by
  unfold choosePresent at h
  cases hp : set.policy with
  | fifo =>
    rw [hp] at h
    cases q with
    | nil => simp at h
    | cons x r =>
      dsimp only at h
      split at h
      · cases h; rfl
      · simp at h
  | latest =>
    rw [hp] at h
    simp only [Prod.mk.injEq] at h
    obtain ⟨rfl, hl, rfl⟩ := h
    have split := List.prefix_iff_eq_append.mp (List.takeWhile_prefix (Entry.eligible boundary set) (l := q))
    obtain ⟨before, ends⟩ := List.getLast?_eq_some_iff.mp hl
    generalize q.takeWhile (Entry.eligible boundary set) = run at *
    calc q = run ++ q.drop run.length := split.symm
      _ = (run.dropLast ++ [e]) ++ q.drop run.length := by rw [ends, List.dropLast_concat]
      _ = _ := List.append_assoc ..

theorem St.surface_advance (d : List Entry) (e : Entry) (rest : List Entry) (t : St) (m : Fin 6) :
    let x := (((t.dropEntries d).advance e rest).surface m)
    x.config = (t.surface m).config ∧ x.state =
      if m ∈ e.named then .current else if m ∈ namedBy t.current then .held
      else if m ∈ namedBy t.previous then .free else if m ∈ d.flatMap Entry.named then .free
      else (t.surface m).state := by
  have put (x : SurfaceState) (l : List (Fin 6)) (u : St) : vget (u.setStates x l).surfaces m =
      if m ∈ l then { vget u.surfaces m with state := x } else vget u.surfaces m := St.surface_setStates x l u m
  have clear (l : List (Fin 6)) (u : St) : vget (u.clearMarks l).surfaces m =
      if m ∈ l then (vget u.surfaces m).clearMarks else vget u.surfaces m := St.surface_clearMarks l u m
  simp only [St.surface, St.advance, St.dropEntries, put, clear, St.setStates_keeps]
  repeat' split
  all_goals simp [Surface.clearMarks]

theorem St.Sound.advance {d rest : List Entry} {e : Entry} {t : St} (hq : t.queue = d ++ e :: rest) :
    t.Sound ((t.dropEntries d).advance e rest) := by
  have keeps : ((t.dropEntries d).advance e rest).queue = rest ∧
      ((t.dropEntries d).advance e rest).current = some e.toFrame ∧
      ((t.dropEntries d).advance e rest).previous = t.current ∧
      ((t.dropEntries d).advance e rest).tether = t.tether := by simp [St.advance, St.dropEntries]
  obtain ⟨hq', hc, hp, ht⟩ := keeps
  refine ⟨fun h => ?_, fun hl => ?_, fun hr => by simp [hr.2.1] at hq⟩
  · obtain ⟨named, queued, current, held, tether⟩ := h
    simp only [St.allNamed, hq, List.flatMap_append, List.flatMap_cons] at named queued
    have taken : namedBy (some e.toFrame) = e.named := rfl
    have states := fun m => (St.surface_advance d e rest t m).2
    have configs := fun m => (St.surface_advance d e rest t m).1
    refine ⟨?_, fun m => ?_, fun m => ?_, fun m => ?_, fun f hf => ⟨fun m hm => ?_, ?_⟩⟩
    · simp only [St.allNamed, hq', hc, hp, taken]
      grind [List.nodup_append]
    · rw [states, hq']
      grind
    · rw [states, hc, taken]
      grind
    · rw [states, hp]
      grind
    all_goals rw [ht] at hf
    · obtain ⟨ho, hw⟩ := (tether f hf).1 m hm
      rw [Surface.ownedBy_congr (configs m), states]
      refine ⟨?_, hw⟩
      grind
    · exact (tether f hf).2
  · rw [hq', hq] at *
    simp at hl
    omega

theorem St.Sound.repeated {f : Machine.Frame} {t : St} (h : t.current = some f) : t.Sound (t.repeated f) := by
  have same : (t.clearMarks f.named).SameFrames (t.repeated f) :=
    ⟨rfl, by simp [St.repeated, namedBy, h, Frame.named], rfl, ⟨by simp [h], id⟩, rfl, rfl, fun _ => rfl, fun _ => rfl⟩
  exact (St.Sound.clearMarks _ _).trans same.sound

theorem boundaryDecision_sound (boundary : Stamp) (s : State) : s.st.Sound (boundaryDecision boundary s).st := by
  have asked (f : State → State) (hf : ∀ u, (f u).st = u.st) (c : Bool) (u : State) : (u.when c f).st = u.st := by
    cases c <;> simp [hf]
  unfold boundaryDecision
  split
  · next d e rest h =>
    simp only [raise_st, pulse_st, asked _ (raise_st _)]
    exact .noteFrames (.advance (choosePresent_split h))
  · split
    · next f hf =>
      rw [raise_st]
      exact .noteFrames (.repeated hf)
    · exact .refl _

theorem presentationFlush_sound (s : State) :
    s.st.Sound (presentationFlush s).st ∧ (presentationFlush s).st.atRest := by
  have free (m : Fin 6) : ((s.st.setStates .free (List.finRange 6)).surface m).state = .free := by
    rw [St.surface_setStates, if_pos (List.mem_finRange m)]
  have rest : (presentationFlush s).st.atRest := by
    simp only [presentationFlush, State.stChange, State.onSt_st]
    rw [St.noteFrames_eq]
    exact ⟨free, rfl, rfl, rfl, rfl, rfl⟩
  exact ⟨⟨fun _ => rest.framesAgree, fun _ => by simp [rest.2.1], fun _ => rest⟩, rest⟩

end Sys2Proof.Machine
end

section
/-!
PROOFS. What the commands of the scan-out, the sensors, the tether and the audio unit do to the rest of the part: they
leave most of it, keep the lists within their sizes, frames and surfaces in agreement, and a part at rest in standby.
-/
namespace Sys2Proof.Machine

/-! ### The DRAM's errors and captures -/

@[simp] theorem Da.kick_errors (d : Da) :
    d.kick.flaws = d.flaws ∧ d.kick.captures = d.captures ∧ d.kick.scrubs = d.scrubs ∧ d.kick.mode = d.mode := by
  rw [Da.kick_eq]
  simp

@[simp] theorem Da.join_errors (r : Request) (d : Da) :
    (d.join r).flaws = d.flaws ∧ (d.join r).captures = d.captures ∧ (d.join r).scrubs = d.scrubs ∧
    (d.join r).mode = d.mode := by
  simp [Da.join]

@[simp] theorem requestWrites_errors (a : Agent) (w : List (Nat × List (Nat × Byte))) (s : State) :
    (requestWrites a w s).da.flaws = s.da.flaws ∧ (requestWrites a w s).da.captures = s.da.captures ∧
    (requestWrites a w s).da.scrubs = s.da.scrubs := by
  induction w generalizing s with
  | nil => exact ⟨rfl, rfl, rfl⟩
  | cons p r ih => simp [requestWrites, ih]

@[simp] theorem requestReads_errors (a : Agent) (w : List Nat) (s : State) :
    (requestReads a w s).da.flaws = s.da.flaws ∧ (requestReads a w s).da.captures = s.da.captures ∧
    (requestReads a w s).da.scrubs = s.da.scrubs := by
  induction w generalizing s with
  | nil => exact ⟨rfl, rfl, rfl⟩
  | cons p r ih => simp [requestReads, ih]

@[simp] theorem depositWrites_errors (j : Nat) (w : List (Nat × List (Nat × Byte))) (s : State) :
    (depositWrites j w s).da.flaws = s.da.flaws ∧ (depositWrites j w s).da.captures = s.da.captures ∧
    (depositWrites j w s).da.scrubs = s.da.scrubs := by
  induction w generalizing s with
  | nil => exact ⟨rfl, rfl, rfl⟩
  | cons p r ih => simp [depositWrites, ih]

@[simp] theorem issueEntry_errors (i : U16) (g : Nat) (first : Bool) (w : List (Nat × List (Nat × Byte))) (s : State) :
    (issueEntry i g first w s).da.flaws = s.da.flaws ∧ (issueEntry i g first w s).da.captures = s.da.captures ∧
    (issueEntry i g first w s).da.scrubs = s.da.scrubs := by
  induction w generalizing s first with
  | nil => exact ⟨rfl, rfl, rfl⟩
  | cons p r ih => simp [issueEntry, ih]

@[simp] theorem beginReads_errors (e a l : Nat) (s : State) :
    (beginReads e a l s).da.flaws = s.da.flaws ∧ (beginReads e a l s).da.captures = s.da.captures ∧
    (beginReads e a l s).da.scrubs = s.da.scrubs := by
  simp [beginReads]

@[simp] theorem beginSend_errors (p : List Byte) (e : Nat) (s : State) : (beginSend p e s).da = s.da := rfl

@[simp] theorem sendChoice_errors (c : Choice) (s : State) :
    (sendChoice c s).da.flaws = s.da.flaws ∧ (sendChoice c s).da.captures = s.da.captures ∧
    (sendChoice c s).da.scrubs = s.da.scrubs := by
  simp only [sendChoice]
  repeat' split
  all_goals simp

@[simp] theorem laneKick_errors (s : State) :
    (laneKick s).da.flaws = s.da.flaws ∧ (laneKick s).da.captures = s.da.captures ∧
    (laneKick s).da.scrubs = s.da.scrubs := by
  simp only [laneKick]
  repeat' split
  all_goals simp

@[simp] theorem laneFreed_errors (s : State) :
    (laneFreed s).da.flaws = s.da.flaws ∧ (laneFreed s).da.captures = s.da.captures ∧
    (laneFreed s).da.scrubs = s.da.scrubs := by
  simp [laneFreed]

@[simp] theorem uplinkJoin_errors (c : Content) (s : State) :
    (uplinkJoin c s).da.flaws = s.da.flaws ∧ (uplinkJoin c s).da.captures = s.da.captures ∧
    (uplinkJoin c s).da.scrubs = s.da.scrubs := by
  simp only [uplinkJoin]
  repeat' split
  all_goals simp

/-! ### The uplink's bounds -/

/-- From one state to another the uplink's lists keep their bounds, and identities given are not given again. -/
structure State.UplinkSound (s t : State) : Prop where
  ids : s.nextId ≤ t.nextId
  pairs : s.tc.pairs.length ≤ 8 → t.tc.pairs.length ≤ 8
  queue : s.tc.queue.length ≤ 32 → t.tc.queue.length ≤ 32
  history : s.tc.historyBounded s.nextId → t.tc.historyBounded t.nextId

theorem State.UplinkSound.trans {s t u : State} (h : s.UplinkSound t) (k : t.UplinkSound u) : s.UplinkSound u :=
  ⟨Nat.le_trans h.ids k.ids, k.pairs ∘ h.pairs, k.queue ∘ h.queue, k.history ∘ h.history⟩

theorem State.UplinkSound.of_same {s t : State} (hid : s.nextId ≤ t.nextId) (hp : t.tc.pairs = s.tc.pairs)
    (hq : t.tc.queue = s.tc.queue) (hh : t.tc.history = s.tc.history) (hl : t.tc.lane = s.tc.lane) : s.UplinkSound t :=
  ⟨hid, by simp [hp], by simp [hq], fun hb => hb.shrinksOnly hid (by simp [hq]) (by simp [hh]) hl⟩

theorem State.UplinkSound.of_tc {s t : State} (hid : s.nextId ≤ t.nextId) (h : t.tc = s.tc) : s.UplinkSound t :=
  .of_same hid (by rw [h]) (by rw [h]) (by rw [h]) (by rw [h])

theorem sendChoice_lists (c : Choice) (s : State) :
    s.nextId ≤ (sendChoice c s).nextId ∧ (sendChoice c s).tc.pairs = s.tc.pairs ∧
    (sendChoice c s).tc.queue.length ≤ s.tc.queue.length := by
  have reads (e a l : Nat) : s.nextId ≤ (beginReads e a l s).nextId ∧ (beginReads e a l s).tc.pairs = s.tc.pairs ∧
      (beginReads e a l s).tc.queue.length ≤ s.tc.queue.length := by
    obtain ⟨hn, ht⟩ := beginReads_tc e a l s
    simp [hn, ht]
  cases c with
  | ack => exact ⟨Nat.le_succ _, rfl, Nat.le_refl _⟩
  | echo p => exact ⟨Nat.le_succ _, rfl, Nat.le_refl _⟩
  | keepalive => exact ⟨Nat.le_succ _, rfl, Nat.le_refl _⟩
  | again cls e =>
    simp only [sendChoice]
    split
    · exact reads ..
    · exact ⟨Nat.le_refl _, rfl, Nat.le_refl _⟩
  | first e =>
    simp only [sendChoice]
    split
    · exact reads ..
    all_goals exact ⟨Nat.le_refl _, rfl, List.length_filter_le ..⟩

theorem laneKick_uplink (s : State) : s.UplinkSound (laneKick s) := by
  have lists : s.nextId ≤ (laneKick s).nextId ∧ (laneKick s).tc.pairs = s.tc.pairs ∧
      (laneKick s).tc.queue.length ≤ s.tc.queue.length := by
    unfold laneKick
    repeat' split
    · exact sendChoice_lists ..
    all_goals exact ⟨Nat.le_refl _, rfl, Nat.le_refl _⟩
  obtain ⟨hid, hp, hq⟩ := lists
  exact ⟨hid, by simp [hp], Nat.le_trans hq, laneKick_historyBounded⟩

theorem laneFreed_uplink (s : State) : s.UplinkSound (laneFreed s) := by
  have kick := laneKick_uplink (s.onTc fun t => { t with lane := .free, idle := if t.link = .up then some 2000 else t.idle })
  exact ⟨kick.ids, kick.pairs, kick.queue, laneFreed_historyBounded⟩

theorem uplinkJoin_uplink (c : Content) (s : State) : s.UplinkSound (uplinkJoin c s) := by
  have lists : s.nextId ≤ (uplinkJoin c s).nextId ∧ (s.tc.pairs.length ≤ 8 → (uplinkJoin c s).tc.pairs.length ≤ 8) ∧
      (s.tc.queue.length ≤ 32 → (uplinkJoin c s).tc.queue.length ≤ 32) := by
    simp only [uplinkJoin]
    repeat' split
    · exact ⟨Nat.le_refl _, id, id⟩
    · exact ⟨Nat.le_refl _, id, id⟩
    · simp
    next room =>
      have kick := laneKick_uplink (s.fresh.2.onTc
        fun t => { t with queue := t.queue ++ [UplinkEntry.mk s.nextId c] })
      refine ⟨Nat.le_trans (Nat.le_succ _) kick.ids, kick.pairs, fun _ => kick.queue ?_⟩
      simp only [State.onTc_tc, State.fresh_snd, List.length_append, List.length_singleton]
      omega
  obtain ⟨hid, hp, hq⟩ := lists
  exact ⟨hid, hp, hq, uplinkJoin_historyBounded⟩

/-! ### Standby -/

/-- What the standby invariant looks at besides the surface tracker. -/
@[simp] def State.calm (s : State) : PowerState × PowerStep × ScanState × HoldReason :=
  (s.pwc.state, s.pwc.step, s.so.state, s.hmp.hold)

theorem State.atRest_iff (s : State) :
    s.atRest ↔ s.st.atRest ∧ s.so.state = .stopped ∧ s.hmp.hold = .standby := by
  simp only [State.atRest, St.atRest, and_assoc]

/-- The part is at rest, or the power controller waits for the scan-out to come to rest. -/
def Pwc.slumber (p : Pwc) : Bool := p.resting || p.step == .enterScan

theorem Pwc.slumber_eq_false_iff (p : Pwc) : p.slumber = false ↔ p.state ≠ .standby ∧ p.state ≠ .waking ∧
    p.step ≠ .enterDrain ∧ p.step ≠ .enterRefresh ∧ p.step ≠ .enterScan := by
  simp only [Pwc.slumber, Pwc.resting, Bool.or_eq_false_iff, beq_eq_false_iff_ne, and_assoc]

/-- From one state to another the standby invariant is kept, STANDBY is not entered, and no slumber begins. -/
structure State.PowerSound (s t : State) : Prop where
  standby : s.standbySound → t.standbySound
  awake : s.pwc.state ≠ .standby → t.pwc.state ≠ .standby
  busy : s.pwc.slumber = false → t.pwc.slumber = false

theorem State.PowerSound.trans {s t u : State} (h : s.PowerSound t) (k : t.PowerSound u) : s.PowerSound u :=
  ⟨k.standby ∘ h.standby, k.awake ∘ h.awake, k.busy ∘ h.busy⟩

theorem State.PowerSound.of_calm {s t : State} (h : t.calm = s.calm) (st : s.st.Sound t.st) : s.PowerSound t := by
  simp only [State.calm, Prod.mk.injEq] at h
  obtain ⟨hs, hp, ho, hh⟩ := h
  refine ⟨fun ⟨rest, steps⟩ => ⟨fun hr => ?_, by rwa [hs, hp]⟩, by rw [hs]; exact id, ?_⟩
  · rw [State.atRest_iff, ho, hh]
    obtain ⟨x, y⟩ := (State.atRest_iff s).mp (rest (by simpa only [Pwc.resting, hs, hp] using hr))
    exact ⟨st.rest x, y⟩
  · rw [Pwc.slumber, Pwc.slumber, Pwc.resting, Pwc.resting, hs, hp]
    exact id

/-! ### What the event commands leave -/

/-- What the commands of the scan-out, the sensors, the tether and the audio unit leave as it is. -/
@[simp] def State.lasting (s : State) : (List Instr × Pins × Mem × (List (Nat × Flaw) × List Capture × List Nat) × Rm) ×
    (Mem × Fin 4 × U16) × (Stamp × Option Adjust × U32 × Stamp) × (List ReadSlot × Option HostTx × List HostTx) ×
    (PowerSettings × PerRail × Bool) × Nat × BitVec 28 :=
  ((s.pending, s.pins, s.mem, (s.da.flaws, s.da.captures, s.da.scrubs), s.rm), (s.pu.shadow, s.pu.sel, s.pu.softResets),
    (s.tb.now, s.tb.holding, s.tb.taken, s.tb.snapshot), (s.hmp.reads, s.hmp.held, s.hmp.atPins),
    (s.pwc.settings, s.pwc.enables, s.pwc.hostReset), s.generation, s.eu.enableSet)

/-- From one state to another as the event commands change it. -/
structure State.Event (s t : State) : Prop where
  lasting : t.lasting = s.lasting
  st : s.st.Sound t.st
  reports : s.so.reports.length ≤ 8 → t.so.reports.length ≤ 8
  uplink : s.UplinkSound t
  power : s.PowerSound t

theorem State.Event.trans {s t u : State} (h : s.Event t) (k : t.Event u) : s.Event u :=
  ⟨k.lasting.trans h.lasting, h.st.trans k.st, k.reports ∘ h.reports, h.uplink.trans k.uplink, h.power.trans k.power⟩

/-- A step after those so far. -/
theorem State.Event.after {s t u : State} (k : t.Event u) (h : s.Event t) : s.Event u := h.trans k

theorem State.Event.ite {c : Prop} [Decidable c] {s t u : State} (h : c → s.Event t) (k : ¬ c → s.Event u) :
    s.Event (if c then t else u) := by
  split
  next hc => exact h hc
  next hc => exact k hc

/-- A change that the power state, the scan-out's state and the port's hold do not see. -/
theorem State.Event.of_calm {s t : State} (lasting : t.lasting = s.lasting) (calm : t.calm = s.calm)
    (st : s.st.Sound t.st) (reports : s.so.reports.length ≤ 8 → t.so.reports.length ≤ 8) (uplink : s.UplinkSound t) :
    s.Event t := ⟨lasting, st, reports, uplink, .of_calm calm st⟩

/-- What an event command may change without anything here seeing it. -/
@[simp] def State.steady (s : State) := (s.lasting, s.calm, s.st, s.so.reports, s.tc)

theorem State.Event.of_steady {s t : State} (h : t.steady = s.steady) (hid : s.nextId ≤ t.nextId) : s.Event t := by
  simp only [State.steady, Prod.mk.injEq] at h
  obtain ⟨lasting, calm, st, reports, tc⟩ := h
  exact .of_calm lasting calm (st ▸ .refl _) (by rw [reports]; exact id) (.of_tc hid tc)

theorem State.Event.refl (s : State) : s.Event s := .of_steady rfl (Nat.le_refl _)

/-- A change of the surface tracker. -/
theorem State.Event.of_st {s t : State} (st : s.st.Sound t.st) (lasting : t.lasting = s.lasting) (calm : t.calm = s.calm)
    (reports : t.so.reports = s.so.reports) (tc : t.tc = s.tc) (hid : t.nextId = s.nextId) : s.Event t :=
  .of_calm lasting calm st (by rw [reports]; exact id) (.of_tc (Nat.le_of_eq hid.symm) tc)

/-- A change of the tether controller. -/
theorem State.Event.of_uplink {s t : State} (uplink : s.UplinkSound t) (lasting : t.lasting = s.lasting)
    (calm : t.calm = s.calm) (st : t.st = s.st) (reports : t.so.reports = s.so.reports) : s.Event t :=
  .of_calm lasting calm (st ▸ .refl _) (by rw [reports]; exact id) uplink

/-! ### Shared operations -/

/-! ### What a raise leaves -/

@[simp] theorem raise_enableSet (k : EventKind) (s : State) : (raise k s).eu.enableSet = s.eu.enableSet := rfl

@[simp] theorem uplinkJoin_enableSet (c : Content) (s : State) : (uplinkJoin c s).eu.enableSet = s.eu.enableSet := by
  simp only [uplinkJoin]
  repeat' split
  all_goals simp

@[simp] theorem rejectTether_enableSet (c : RejectCause) (tag : U32) (s : State) : (rejectTether c tag s).eu.enableSet = s.eu.enableSet := by
  simp [rejectTether]

@[simp] theorem tetherLost_enableSet (s : State) : (tetherLost s).eu.enableSet = s.eu.enableSet := by
  simp only [tetherLost]
  repeat' split
  all_goals simp

@[simp] theorem tetherBegin_enableSet (f : FrameBegin) (s : State) : (tetherBegin f s).eu.enableSet = s.eu.enableSet := by
  simp only [tetherBegin]
  repeat' split
  all_goals simp

@[simp] theorem tetherEnd_enableSet (tag : U32) (s : State) : (tetherEnd tag s).eu.enableSet = s.eu.enableSet := by
  simp only [tetherEnd]
  repeat' split
  all_goals simp

@[simp] theorem boundaryDecision_enableSet (b : Stamp) (s : State) : (boundaryDecision b s).eu.enableSet = s.eu.enableSet := by
  simp only [boundaryDecision, State.when]
  repeat' split
  all_goals simp

@[simp] theorem askBand_enableSet (p : Side) (n : Fin 6) (k : Nat) (s : State) : ((askBand p n k s).2).eu.enableSet = s.eu.enableSet := by
  simp only [askBand, State.when]
  repeat' split
  all_goals simp

/-! ### Operations that change little -/

theorem request_event (a : Agent) (l : Nat) (op : ReqOp) (s : State) : s.Event (request a l op s) :=
  .of_steady (by simp) (by simp)

theorem requestWrites_event (a : Agent) (w : List (Nat × List (Nat × Byte))) (s : State) :
    s.Event (requestWrites a w s) := .of_steady (by simp) (by simp)

theorem requestReads_event (a : Agent) (l : List Nat) (s : State) : s.Event (requestReads a l s) :=
  .of_steady (by simp) (by simp)

theorem depositWrites_event (j : Nat) (w : List (Nat × List (Nat × Byte))) (s : State) :
    s.Event (depositWrites j w s) := .of_steady (by simp) (by simp)

theorem issueEntry_event (i : U16) (g : Nat) (first : Bool) (w : List (Nat × List (Nat × Byte))) (s : State) :
    s.Event (issueEntry i g first w s) := .of_steady (by simp) (by simp)

theorem raise_event (k : EventKind) (s : State) : s.Event (raise k s) :=
  .of_steady (by simp) (by simp)

theorem pulse_event (p : Fin 26) (s : State) : s.Event (pulse p s) := .of_steady rfl (Nat.le_refl _)

theorem emit_event (o : Output) (s : State) : s.Event (s.emit o) := .of_steady rfl (Nat.le_refl _)

theorem fresh_event (s : State) : s.Event s.fresh.2 := .of_steady rfl (Nat.le_succ _)

theorem onAu_event (f : Au → Au) (s : State) : s.Event (s.onAu f) := .of_steady rfl (Nat.le_refl _)

theorem onRing_event (n : Fin 3) (f : AudioRing → AudioRing) (s : State) : s.Event (s.onRing n f) :=
  .of_steady rfl (Nat.le_refl _)

theorem onSh_event (f : Sh → Sh) (s : State) : s.Event (s.onSh f) := .of_steady rfl (Nat.le_refl _)

theorem onChannel_event (n : Fin 4) (f : Channel → Channel) (s : State) : s.Event (s.onChannel n f) :=
  .of_steady rfl (Nat.le_refl _)

theorem onTm_event (f : Tm → Tm) (s : State) : s.Event (s.onTm f) := .of_steady rfl (Nat.le_refl _)

theorem onPu_event {f : Pu → Pu} {s : State} (hs : (f s.pu).shadow = s.pu.shadow) (hl : (f s.pu).sel = s.pu.sel)
    (hr : (f s.pu).softResets = s.pu.softResets) : s.Event (s.onPu f) := .of_steady (by simp [hs, hl, hr]) (by simp)

theorem onSo_event {f : So → So} {s : State} (hs : (f s.so).state = s.so.state)
    (hr : (f s.so).reports = s.so.reports) : s.Event (s.onSo f) := .of_steady (by simp [hs, hr]) (by simp)

theorem onTc_event {f : Tc → Tc} {s : State} (hp : (f s.tc).pairs = s.tc.pairs) (hq : (f s.tc).queue = s.tc.queue)
    (hh : (f s.tc).history = s.tc.history) (hl : (f s.tc).lane = s.tc.lane) : s.Event (s.onTc f) :=
  .of_uplink (.of_same (Nat.le_refl _) hp hq hh hl) rfl rfl rfl rfl

theorem foldl_event {α : Type} {f : State → α → State} (h : ∀ (s : State) a, s.Event (f s a)) (l : List α) (s : State) :
    s.Event (l.foldl f s) := by
  induction l generalizing s with
  | nil => exact .refl s
  | cons a r ih => exact (h s a).trans (ih _)

theorem when_event {c : Bool} {f : State → State} {s : State} (h : s.Event (f s)) : s.Event (s.when c f) := by
  cases c
  · exact .refl s
  · exact h

/-! ### The uplink and the lane -/

/-- The uplink's lists lose entries or change them under the same identities; the lane stays, or reads nothing of use. -/
theorem State.UplinkSound.of_ids {s t : State} (hid : s.nextId ≤ t.nextId) (hp : t.tc.pairs = s.tc.pairs)
    (hq : (t.tc.queue.map UplinkEntry.id).Sublist (s.tc.queue.map UplinkEntry.id))
    (hh : ∀ c, ((vget t.tc.history c).map HistEntry.id).Sublist ((vget s.tc.history c).map HistEntry.id))
    (hl : t.tc.lane = s.tc.lane ∨ ∀ e r l d x, t.tc.lane ≠ .reading e r l d x false) : s.UplinkSound t := by
  have queue : ∀ q ∈ t.tc.queue, ∃ p ∈ s.tc.queue, p.id = q.id := fun q h => by
    simpa using hq.subset (List.mem_map_of_mem h)
  have lengths : ∀ c, (vget t.tc.history c).length ≤ (vget s.tc.history c).length := fun c => by
    simpa using (hh c).length_le
  refine ⟨hid, by rw [hp]; exact id, fun h => ?_, fun hb => hb.shrinks hid queue lengths (fun c e h => ?_)
    fun entry read left lines damaged hr => ?_⟩
  · have := hq.length_le
    simp only [List.length_map] at this
    omega
  · simpa using (hh c).subset (List.mem_map_of_mem h)
  · rcases hl with hl | hl
    · obtain ⟨-, -, -, lane⟩ := hb
      obtain ⟨hlt, room⟩ := lane entry read left lines damaged (hl ▸ hr)
      refine ⟨Nat.lt_of_lt_of_le hlt hid, room.imp (Nat.lt_of_le_of_lt (Tc.historyFill_le lengths)) fun h q hq' => ?_⟩
      obtain ⟨p, hp, e⟩ := queue q hq'
      exact e ▸ h p hp
    · exact (hl entry read left lines damaged hr).elim

theorem onTc_ids {f : Tc → Tc} {s : State} (hp : (f s.tc).pairs = s.tc.pairs)
    (hq : ((f s.tc).queue.map UplinkEntry.id).Sublist (s.tc.queue.map UplinkEntry.id))
    (hh : ∀ c, ((vget (f s.tc).history c).map HistEntry.id).Sublist ((vget s.tc.history c).map HistEntry.id))
    (hl : (f s.tc).lane = s.tc.lane ∨ ∀ e r l d x, (f s.tc).lane ≠ .reading e r l d x false) : s.Event (s.onTc f) :=
  .of_uplink (.of_ids (Nat.le_refl _) hp hq hh hl) rfl rfl rfl rfl

theorem laneKick_event (s : State) : s.Event (laneKick s) :=
  .of_uplink (laneKick_uplink s) (by simp) (by simp) (by simp) (by simp)

theorem laneFreed_event (s : State) : s.Event (laneFreed s) :=
  .of_uplink (laneFreed_uplink s) (by simp) (by simp) (by simp) (by simp)

theorem uplinkJoin_event (c : Content) (s : State) : s.Event (uplinkJoin c s) :=
  .of_uplink (uplinkJoin_uplink c s) (by simp) (by simp) (by simp) (by simp)

theorem UplinkEntry.addRecord_id (r : SensorRec) (e : UplinkEntry) : (e.addRecord r).id = e.id := by
  unfold UplinkEntry.addRecord
  split <;> rfl

theorem uplinkSensor_event (r : SensorRec) (s : State) : s.Event (uplinkSensor r s) := by
  unfold uplinkSensor
  split
  · refine onTc_ids rfl ?_ (fun _ => .refl _) (.inl rfl)
    rewrite [updateFirst_ids fun e => UplinkEntry.addRecord_id r e]
    exact .refl _
  · exact uplinkJoin_event ..

theorem finishSlot_event (n : Fin 3) (o : Outcome) (s : State) : s.Event (finishSlot n o s) :=
  (onTc_event rfl rfl rfl rfl).trans ((onPu_event rfl rfl rfl).trans (raise_event ..))

theorem finishSlots_event (l : List (Fin 3)) (o : Outcome) (s : State) : s.Event (finishSlots l o s) :=
  foldl_event (fun s n => finishSlot_event n o s) l s

theorem setLink_event (l : LinkState) (s : State) : s.Event (setLink l s) := onTc_event rfl rfl rfl rfl

theorem startTraining_event (s : State) : s.Event (startTraining s) :=
  (onTc_event rfl rfl rfl rfl).trans (setLink_event ..)

theorem trainingLost_event (s : State) : s.Event (trainingLost s) :=
  (onTc_event rfl rfl rfl rfl).trans (setLink_event ..)

theorem Lane.cut_reading (l : Lane) (e r n : Nat) (d : List (Nat × List Byte)) (x : Bool) :
    l.cut ≠ .reading e r n d x false := by
  cases l <;> simp [Lane.cut]

theorem enterRecovery_event (s : State) : s.Event (enterRecovery s) :=
  (onTc_ids rfl (.refl _) (fun _ => .refl _) (.inr (Lane.cut_reading _))).trans
    ((setLink_event ..).trans (raise_event ..))

theorem onSt_event {f : St → St} {s : State} (h : s.st.Sound (f s.st)) : s.Event (s.onSt f) :=
  .of_st h rfl rfl rfl rfl rfl

theorem rejectTether_event (c : RejectCause) (tag : U32) (s : State) : s.Event (rejectTether c tag s) :=
  .of_st (rejectTether_sound c tag s) (by simp) (by simp) (by simp) (by simp) (by simp)

theorem tetherLost_event (s : State) : s.Event (tetherLost s) :=
  .of_st (tetherLost_sound s) (by simp) (by simp) (by simp) (by simp) (by simp)

/-- A FRAME_BEGIN touches the frontiers alone of the tether controller's state. -/
theorem tetherBegin_tc (f : FrameBegin) (s : State) :
    (tetherBegin f s).tc = { s.tc with frontiers := (tetherBegin f s).tc.frontiers } := by
  simp only [tetherBegin]
  repeat' split
  all_goals simp [acceptFrame]

theorem tetherBegin_event (f : FrameBegin) (s : State) : s.Event (tetherBegin f s) := by
  have tc := tetherBegin_tc f s
  exact .of_calm (by simp) (by simp) (tetherBegin_sound f s) (by simp)
    (.of_same (by simp) (by rw [tc]) (by rw [tc]) (by rw [tc]) (by rw [tc]))

theorem tetherEnd_event (tag : U32) (s : State) : s.Event (tetherEnd tag s) :=
  .of_st (tetherEnd_sound tag s) (by simp) (by simp) (by simp) (by simp) (by simp)

theorem depositBands_event (n : Fin 6) (row : Nat) (s : State) : s.Event (depositBands n row s) := by
  obtain ⟨-, tc, -⟩ := depositBands_at n row s n
  exact .of_st (depositBands_sound n row s) (by simp) (by simp) (by simp) tc (by simp)

theorem advanceDeposit_event (n : Fin 6) (ident row : Nat) (s : State) : s.Event (advanceDeposit n ident row s) := by
  unfold advanceDeposit
  split
  · exact (onTc_event rfl rfl rfl rfl).trans (depositBands_event ..)
  · exact .refl _

theorem enterDown_event (s : State) : s.Event (enterDown s) := by
  refine .trans ?_ ((setLink_event ..).trans ((finishSlots_event ..).trans ((tetherLost_event _).trans (raise_event ..))))
  exact onTc_ids rfl (List.nil_sublist _) (fun c => by simp) (.inr (Lane.cut_reading _))

theorem trainingDone_event (s : State) : s.Event (trainingDone s) :=
  (onTc_event rfl rfl rfl rfl).trans ((setLink_event ..).trans ((raise_event ..).trans (laneKick_event _)))

theorem markResend_ids (zero : Bool) (h : List HistEntry) : (markResend zero h).map HistEntry.id = h.map HistEntry.id := by
  simp [markResend]

/-- Noting a change of the history counts it and leaves what changed. -/
theorem Tc.noteHist_eq (old new : Tc) : Tc.noteHist old new = { new with histChange := (Tc.noteHist old new).histChange } := by
  unfold Tc.noteHist
  split <;> rfl

theorem Tc.markAll_history (zero : Bool) (t : Tc) (c : Fin 3) :
    ((vget (t.markAll zero).history c).map HistEntry.id).Sublist ((vget t.history c).map HistEntry.id) := by
  rw [Tc.markAll, Tc.noteHist_eq]
  simp [markResend_ids]

theorem Tc.markAll_keeps (zero : Bool) (t : Tc) :
    (t.markAll zero).pairs = t.pairs ∧ (t.markAll zero).queue = t.queue ∧ (t.markAll zero).lane = t.lane := by
  rw [Tc.markAll, Tc.noteHist_eq]
  simp

theorem recoveryDone_event (s : State) : s.Event (recoveryDone s) := by
  obtain ⟨hp, hq, hl⟩ := Tc.markAll_keeps true s.tc
  refine .trans ?_ ((setLink_event ..).trans ((raise_event ..).trans (laneKick_event _)))
  exact onTc_ids hp (hq ▸ .refl _) (Tc.markAll_history true s.tc) (.inl hl)

theorem ackExpired_event (c : Fin 3) (s : State) : s.Event (ackExpired c s) := by
  unfold ackExpired
  split
  · exact onTc_event rfl rfl rfl rfl
  split
  · refine (onTc_ids ?_ ?_ (fun d => ?_) (.inl ?_)).trans (laneKick_event _)
    all_goals rewrite [Tc.noteHist_eq]
    · rfl
    · exact .refl _
    · by_cases h : c = d
      · subst h
        simp [markResend_ids]
      · simp [vget_vmod_ne _ _ h]
    · rfl
  · exact enterRecovery_event s

theorem sendDone_event (packet : List Byte) (entry : Nat) (s : State) : s.Event (sendDone packet entry s) := by
  simp only [sendDone]
  refine (emit_event (.uplink packet) s).trans (.trans ?_ (laneFreed_event _))
  split
  · exact onTc_event rfl rfl rfl rfl
  · exact .refl _

theorem finishSlots_lists (l : List (Fin 3)) (o : Outcome) (s : State) :
    (finishSlots l o s).nextId = s.nextId ∧ (finishSlots l o s).tc.pairs = s.tc.pairs ∧
    (finishSlots l o s).tc.queue = s.tc.queue := by
  obtain ⟨hid, tc⟩ := finishSlots_tc l o s
  exact ⟨hid, by rw [tc], by rw [tc]⟩

theorem applyAck_lists (c : Fin 3) (f : AckField) (s : State) :
    (applyAck c f s).nextId = s.nextId ∧ (applyAck c f s).tc.pairs = s.tc.pairs ∧
    (applyAck c f s).tc.queue = s.tc.queue := by
  simp only [applyAck]
  repeat' split
  all_goals simp [finishSlots_lists, Tc.startAck]

theorem applyAck_lasting (c : Fin 3) (f : AckField) (s : State) : (applyAck c f s).lasting = s.lasting := by
  simp only [applyAck]
  repeat' split
  all_goals first
    | rfl
    | exact (finishSlots_event ..).lasting

theorem applyAck_event (c : Fin 3) (f : AckField) (s : State) : s.Event (applyAck c f s) := by
  obtain ⟨hid, hp, hq⟩ := applyAck_lists c f s
  exact .of_uplink ⟨Nat.le_of_eq hid.symm, by rw [hp]; exact id, by rw [hq]; exact id, applyAck_historyBounded⟩
    (applyAck_lasting c f s) (by simp) (by simp) (by simp)

/-! ### Message reads -/

theorem loseSlot_event (id : Nat) (n : Fin 3) (belonged : Bool) (s : State) : s.Event (loseSlot id n belonged s) := by
  unfold loseSlot
  split
  · refine .trans (onTc_ids rfl (.refl _) (fun d => ?_) (.inl rfl)) (finishSlot_event ..)
    by_cases h : 2 = d
    · subst h
      simp [updateFirst_ids]
    · simp [vget_vmod_ne _ _ h]
  · exact .refl _

theorem loseSlot_lists (id : Nat) (n : Fin 3) (belonged : Bool) (s : State) :
    (loseSlot id n belonged s).nextId = s.nextId ∧ (loseSlot id n belonged s).tc.pairs = s.tc.pairs ∧
    (loseSlot id n belonged s).tc.queue = s.tc.queue := by
  simp only [loseSlot]
  split
  · exact ⟨rfl, rfl, rfl⟩
  · exact ⟨rfl, rfl, rfl⟩

theorem sendMessage_lists (entry : Nat) (lines : List (Nat × List Byte)) (damaged : Bool) (s : State) :
    s.nextId ≤ (sendMessage entry lines damaged s).nextId ∧
    (s.tc.pairs.length ≤ 8 → (sendMessage entry lines damaged s).tc.pairs.length ≤ 8) ∧
    (s.tc.queue.length ≤ 32 → (sendMessage entry lines damaged s).tc.queue.length ≤ 32) ∧
    (sendMessage entry lines damaged s).lasting = s.lasting := by
  unfold sendMessage
  split
  · have h := laneFreed_event s
    exact ⟨h.uplink.ids, h.uplink.pairs, h.uplink.queue, h.lasting⟩
  · next n addr length sent _ =>
    cases sent with
    | some e =>
      dsimp only
      obtain ⟨hid, hp, hq⟩ := loseSlot_lists entry n (damaged && e.belongs) (beginSend
        (uplinkPacket 0x33 true damaged e.seq (gather lines addr length)) entry (s.onTc (Tc.sentAgain 2 entry)))
      refine ⟨Nat.le_of_eq hid.symm, by rw [hp]; exact id, by rw [hq]; exact id, (loseSlot_event ..).lasting.trans rfl⟩
    | none =>
      dsimp only
      obtain ⟨hid, hp, hq⟩ := loseSlot_lists entry n damaged (beginSend
        (uplinkPacket 0x33 false damaged (vget s.tc.nextSeq 2) (gather lines addr length)) entry
        (s.onTc (Tc.intoHistory 2 ⟨entry, .message n addr length⟩ true)))
      refine ⟨Nat.le_of_eq hid.symm, by rw [hp]; exact id, fun h => ?_, (loseSlot_event ..).lasting.trans rfl⟩
      rw [hq]
      exact Nat.le_trans (List.length_filter_le ..) h

theorem messageReadDone_event (read line : Nat) (data : List Byte) (bad : Bool) (s : State) :
    s.Event (messageReadDone read line data bad s) := by
  simp only [messageReadDone]
  split
  next entry r left lines damaged cancelled hlane =>
    split
    · exact .refl _
    split
    · refine .of_uplink ⟨Nat.le_refl _, id, id, fun hb => ?_⟩ rfl rfl rfl rfl
      refine hb.shrinks (Nat.le_refl _) (fun q h => ⟨q, h, rfl⟩) (fun _ => Nat.le_refl _) (fun c e h => ⟨e, h, rfl⟩)
        fun e r' l d x hl => ?_
      cases hl
      exact hb.2.2.2 _ _ _ _ _ hlane
    split
    · exact laneFreed_event s
    · next hc =>
      obtain ⟨hid, hp, hq, hl⟩ := sendMessage_lists entry (lines ++ [(line, data)]) (damaged || bad) s
      refine .of_uplink ⟨hid, hp, hq, fun hb => ?_⟩ hl (by simp) (by simp) (by simp)
      obtain ⟨hlt, room⟩ := hb.2.2.2 _ _ _ _ _ (by simpa [hc] using hlane)
      exact sendMessage_historyBounded hb hlt room
  · exact .refl _

/-! ### The standby restriction, deposits and the message ring -/

theorem restrictionBegin_event (s : State) : s.Event (restrictionBegin s) := onTc_event rfl rfl rfl rfl

theorem restrictionEnd_event (s : State) : s.Event (restrictionEnd s) := by
  obtain ⟨hp, hq, hl⟩ := Tc.markAll_keeps false s.tc
  refine .trans ?_ (laneKick_event _)
  exact onTc_ids hp (hq ▸ .refl _) (Tc.markAll_history false s.tc) (.inl hl)

theorem sliceWriteDone_event (job : Nat) (s : State) : s.Event (sliceWriteDone job s) := by
  simp only [sliceWriteDone]
  refine .trans ?_ (foldl_event (fun s (j : SliceJob) => advanceDeposit_event j.surface j.ident j.lastRow s) _ _)
  exact onTc_event rfl rfl rfl rfl

theorem audioWriteDone_event (job : Nat) (s : State) : s.Event (audioWriteDone job s) := by
  simp only [audioWriteDone]
  refine .trans ?_ (onAu_event _ _)
  exact onTc_event rfl rfl rfl rfl

theorem depositWriteDone_event (job : Nat) (s : State) : s.Event (depositWriteDone job s) :=
  (sliceWriteDone_event job s).trans (audioWriteDone_event job _)

theorem acceptSlice_event (n : Fin 6) (c : SurfaceConfig) (ident : Nat) (p : Slice) (s : State) :
    s.Event (acceptSlice n c ident p s) := by
  simp only [acceptSlice]
  refine (fresh_event s).trans (.trans ?_ (depositWrites_event ..))
  split
  · exact onTc_event rfl rfl rfl rfl
  · exact .refl _

theorem takeSlice_event (p : Slice) (s : State) : s.Event (takeSlice p s) := by
  unfold takeSlice
  repeat' split
  all_goals first
    | exact onTc_event rfl rfl rfl rfl
    | exact acceptSlice_event ..

theorem offerMessage_event (bytes : List Byte) (s : State) : s.Event (offerMessage bytes s).2 := by
  simp only [offerMessage]
  split
  · dsimp only
    exact onTc_event rfl rfl rfl rfl
  split
  · dsimp only
    exact onTc_event rfl rfl rfl rfl
  split
  · dsimp only
    exact onTc_event rfl rfl rfl rfl
  split
  · dsimp only
    exact onTc_event rfl rfl rfl rfl
  · dsimp only
    refine .trans ?_ (issueEntry_event ..)
    exact onTc_event rfl rfl rfl rfl

theorem entryWriteDone_event (index : U16) (gen : Nat) (s : State) : s.Event (entryWriteDone index gen s) := by
  simp only [entryWriteDone]
  split
  · exact .refl _
  · refine .trans ?_ (when_event (raise_event ..))
    exact onTc_event rfl rfl rfl rfl

end Sys2Proof.Machine
end

section
/-!
PROOFS. What the audio unit and the sensors do, as the event relation has it.
-/
namespace Sys2Proof.Machine

/-! ### Audio -/

theorem placeAudio_event (frames : List U32) (s : State) : s.Event (placeAudio frames s) := by
  have placed (writes : List (Nat × List (Nat × Byte))) (t : AudioRing → AudioRing) (f : Tc → Tc)
      (hf : ∀ t, (f t).pairs = t.pairs ∧ (f t).queue = t.queue ∧ (f t).history = t.history ∧ (f t).lane = t.lane) (s : State) :
      s.Event (depositWrites s.nextId writes ((s.fresh.2.onRing 0 t).onTc f)) := by
    refine (fresh_event s).trans ((onRing_event 0 t _).trans (.trans ?_ (depositWrites_event ..)))
    exact onTc_event (hf _).1 (hf _).2.1 (hf _).2.2.1 (hf _).2.2.2
  simp only [placeAudio]
  repeat' split
  · exact .refl _
  · exact placed _ _ _ (by simp) s
  · exact (onRing_event ..).trans (raise_event ..)
  · exact (placed _ _ _ (by simp) s).trans ((onRing_event ..).trans (raise_event ..))

theorem takeFrames_event (ring : Fin 3) (n : Nat) (corr : Correction) (s : State) : s.Event (takeFrames ring n corr s) :=
  (fresh_event s).trans ((onAu_event _ _).trans ((onRing_event ..).trans (requestReads_event ..)))

theorem settleRing_event (ring : Fin 3) (s : State) : s.Event (settleRing ring s) :=
  (onAu_event _ _).trans (onRing_event ..)

theorem fetchDone_event (period line : Nat) (data : List Byte) (bad : Bool) (s : State) :
    s.Event (fetchDone period line data bad s) := by
  simp only [fetchDone]
  split
  · exact .refl _
  · refine .trans ?_ (settleRing_event _ _)
    split
    · exact (onAu_event _ _).trans (onRing_event ..)
    · exact onAu_event ..

theorem underrun_event (ring : Fin 3) (s : State) : s.Event (underrun ring s) :=
  (onRing_event ..).trans (raise_event ..)

theorem driftStep_event (s : State) : s.Event (driftStep s) := by
  unfold driftStep
  exact onAu_event ..

theorem choosePlaying_event (ring : Fin 3) (s : State) : s.Event (choosePlaying ring s) := by
  have drift (s : State) : s.Event (if ring = 0 then driftStep s else s) :=
    .ite (fun _ => driftStep_event s) fun _ => .refl s
  unfold choosePlaying
  refine .ite (fun _ => ?_) fun _ => .ite (fun _ => ?_) fun _ => ?_
  · exact .after (underrun_event ..) ((onRing_event ..).trans (onAu_event _ _))
  · exact .after (underrun_event ..) (.after (drift _) (takeFrames_event ..))
  · exact .after (drift _) (.after (onAu_event _ _) (takeFrames_event ..))

theorem chooseFrames_event (ring : Fin 3) (s : State) : s.Event (chooseFrames ring s) := by
  simp only [chooseFrames]
  repeat' split
  · exact .refl _
  · exact (onRing_event ..).trans (choosePlaying_event ..)
  · exact .refl _
  · exact choosePlaying_event ..

theorem audioMix_event (s : State) : s.Event (audioMix s) :=
  (onRing_event ..).trans ((onRing_event ..).trans ((onAu_event _ _).trans
    ((settleRing_event ..).trans (settleRing_event ..))))

theorem micBlock_event (pdm : List U64) (s : State) : s.Event (micBlock pdm s) := by
  simp only [micBlock]
  split
  · refine .trans ?_ (uplinkJoin_event ..)
    repeat' split
    · exact .refl _
    · exact (onRing_event ..).trans (raise_event ..)
    · exact (fresh_event s).trans ((onAu_event _ _).trans ((onRing_event ..).trans (requestWrites_event ..)))
  · repeat' split
    · exact .refl _
    · exact (onRing_event ..).trans (raise_event ..)
    · exact (fresh_event s).trans ((onAu_event _ _).trans ((onRing_event ..).trans (requestWrites_event ..)))

theorem captureDone_event (block : Nat) (s : State) : s.Event (captureDone block s) :=
  (onAu_event _ s).trans (onRing_event ..)

theorem audioBoundary_event (pdm : Option (List U64)) (s : State) : s.Event (audioBoundary pdm s) := by
  have mixed : s.Event (audioMix (pulse 17 (s.onAu fun a => { a with timer := some 1000 }))) :=
    .after (audioMix_event _) (.after (pulse_event ..) (onAu_event _ s))
  simp only [audioBoundary, audioBoundaryRest]
  refine .after (chooseFrames_event 1 _) (.after (chooseFrames_event 0 _) ?_)
  split
  · exact .after (micBlock_event ..) mixed
  · exact mixed

theorem audioStart_event (s : State) : s.Event (audioStart s) :=
  (onAu_event _ s).trans ((onRing_event ..).trans ((onRing_event ..).trans (audioBoundary_event ..)))

theorem audioHalt_event (s : State) : s.Event (audioHalt s) :=
  (onAu_event _ s).trans ((settleRing_event ..).trans (settleRing_event ..))

/-! ### Sensors -/

theorem becomeDue_event (n : Fin 4) (s : State) : s.Event (becomeDue n s) := by
  simp only [becomeDue]
  repeat' split
  · exact .refl _
  · exact (onChannel_event ..).trans (pulse_event ..)
  · exact onChannel_event ..

theorem enterRunning_event (n : Fin 4) (s : State) : s.Event (enterRunning n s) := by
  simp only [enterRunning]
  split
  · exact (onChannel_event ..).trans (becomeDue_event ..)
  · exact onChannel_event ..

theorem giveBus_event (s : State) : s.Event (giveBus s) := by
  simp only [giveBus]
  repeat' split
  · exact .refl _
  · exact (onSh_event _ s).trans (emit_event ..)
  · exact .refl _

theorem offerRing_event (r : SensorRec) (s : State) (n : Fin 8) : s.Event (offerRing r s n) := by
  simp only [offerRing]
  repeat' split
  · exact .refl _
  · exact (onSh_event _ s).trans (raise_event ..)
  · exact (onSh_event _ s).trans (requestWrites_event ..)

theorem updateSlot_event (r : SensorRec) (s : State) (n : Fin 4) : s.Event (updateSlot r s n) := onSh_event _ s

theorem routeRecord_event (r : SensorRec) (s : State) : s.Event (routeRecord r s).2 := by
  have slots (u : State) (l : List (Fin 4)) : u.Event (l.foldl (updateSlot r) u) := foldl_event (updateSlot_event r) l u
  have rings (u : State) (l : List (Fin 8)) : u.Event (l.foldl (offerRing r) u) := foldl_event (offerRing_event r) l u
  simp only [routeRecord]
  split
  · exact onChannel_event ..
  · have routed : s.Event (((List.finRange 4).filter fun n => (matching r (vlist s.sh.rules)).any (·.slot == some n)).foldl
        (updateSlot r) (if s.sh.hold then s else ((List.finRange 8).filter fun n =>
          (matching r (vlist s.sh.rules)).any (·.ring == some n)).foldl (offerRing r) s)) := by
      refine .after (slots _ _) ?_
      split
      · exact .refl _
      · exact rings _ _
    exact .ite (fun _ => .after (uplinkSensor_event ..) routed) fun _ => routed

theorem transferDone_event (t : Transfer) (din : List Byte) (s : State) : s.Event (transferDone t din s).2 := by
  simp only [transferDone]
  split
  · exact (onSh_event _ s).trans ((onChannel_event ..).trans (when_event (raise_event ..)))
  · exact (onSh_event _ s).trans ((onChannel_event ..).trans (routeRecord_event ..))

theorem holdBegin_event (s : State) : s.Event (holdBegin s) := onSh_event _ s

theorem holdEnd_event (s : State) : s.Event (holdEnd s) := by
  refine (onSh_event _ s).trans (foldl_event (fun s n => ?_) _ _)
  dsimp only
  split
  · exact enterRunning_event ..
  · exact .refl _

end Sys2Proof.Machine
end

section
/-!
PROOFS. What the scan-out, the strobe and the trigger matrix do, as the event relation has it.
-/
namespace Sys2Proof.Machine

/-! ### The strobe -/

/-- A change of the scan-out that keeps its state and the length of its report list within bounds. -/
theorem onSo_reports_event {f : So → So} {s : State} (hs : (f s.so).state = s.so.state)
    (hr : s.so.reports.length ≤ 8 → (f s.so).reports.length ≤ 8) : s.Event (s.onSo f) :=
  .of_calm rfl (by simp [hs]) (.refl _) hr (.of_tc (Nat.le_refl _) rfl)

theorem So.cut_keeps (o : So) : o.cut.state = o.state ∧ (o.reports.length ≤ 8 → o.cut.reports.length ≤ 8) := by
  unfold So.cut
  repeat' split
  · exact ⟨rfl, id⟩
  next r hr _ =>
    obtain ⟨l, hl⟩ := List.getLast?_eq_some_iff.mp hr
    simp [hl]
  · exact ⟨rfl, id⟩

theorem cutCheck_event (s : State) : s.Event (cutCheck s) :=
  .ite (fun _ => onSo_reports_event (So.cut_keeps _).1 (So.cut_keeps _).2) fun _ => .refl s

theorem killEvent_event (s : State) : s.Event (killEvent s) :=
  .after (cutCheck_event _) (onSo_event rfl rfl)

theorem strobeLights_event (f : Machine.Frame) (s : State) : s.Event (strobeLights f s) := by
  have lit : s.Event (s.onSo fun o =>
      { o with light := some (o.applied.strobeWidth * s.pwc.factor / 8), lastPhoton := some s.tb.now,
               reports := newest 8 (o.reports ++ [photonReport f s]), change := o.change + 1 }) :=
    onSo_reports_event rfl fun _ => newest_length_le ..
  exact .ite (fun _ => .after (uplinkJoin_event ..) lit) fun _ => lit

theorem strobeDecision_event (s : State) : s.Event (strobeDecision s) := by
  unfold strobeDecision
  split
  · exact .refl s
  · refine .ite (fun _ => .refl s) fun _ => .ite (fun _ => ?_) fun _ => strobeLights_event ..
    exact .after (raise_event ..) (onSo_event rfl rfl)

theorem strobeBegins_event (s : State) : s.Event (strobeBegins s) :=
  .after (strobeDecision_event _) (.after (pulse_event ..) (onSo_event rfl rfl))

/-! ### Timing sets and the standby stop point -/

theorem applySet_event (t : TimingSet) (s : State) : s.Event (applySet t s) := by
  refine .after (raise_event ..) (onSo_event ?_ ?_)
  all_goals split <;> rfl

theorem takePending_event (t : TimingSet) (s : State) : s.Event (takePending t s) :=
  .after (onPu_event rfl rfl rfl) (.after (applySet_event ..) (onSo_event rfl rfl))

theorem reload_event (s : State) : s.Event (reload s) := by
  unfold reload
  split
  · exact .refl s
  · exact takePending_event ..
  · exact onSo_event rfl rfl

/-- The engine goes STOPPED, which suits a part at rest. -/
theorem stop_event (s : State) : s.Event (s.onSo So.stop) where
  lasting := rfl
  st := .refl _
  reports := id
  uplink := .of_tc (Nat.le_refl _) rfl
  power := by
    refine ⟨fun ⟨rest, steps⟩ => ⟨fun hr => ?_, steps⟩, id, id⟩
    have := (State.atRest_iff s).mp (rest hr)
    exact (State.atRest_iff _).mpr ⟨this.1, rfl, this.2.2⟩

@[simp] theorem audioHalt_enableSet (s : State) : (audioHalt s).eu.enableSet = s.eu.enableSet :=
  congrArg (fun l => l.2.2.2.2.2.2) (audioHalt_event s).lasting

@[simp] theorem presentationFlush_enableSet (s : State) : (presentationFlush s).eu.enableSet = s.eu.enableSet := by
  simp [presentationFlush]

/-- Standby steps 2 to 4 bring the part to rest, given that the engine has stopped. -/
theorem standbySteps_event {s : State} (asked : s.pwc.step = .enterScan) (stopped : s.so.state = .stopped) :
    s.Event (standbySteps s) := by
  obtain ⟨sound, rest⟩ := presentationFlush_sound s
  have inner : (presentationFlush s).Event (restrictionBegin (holdBegin (audioHalt (presentationFlush s)))) :=
    .after (restrictionBegin_event _) (.after (holdBegin_event _) (audioHalt_event _))
  have lasting : (standbySteps s).lasting = s.lasting := by
    have flushed : (presentationFlush s).lasting = s.lasting := by simp
    exact (show (standbySteps s).lasting = _ from rfl).trans (inner.lasting.trans flushed)
  have st : (standbySteps s).st = (presentationFlush s).st := by simp [standbySteps]
  have pwc : (standbySteps s).pwc = { s.pwc with step := .enterDrain } := by simp [standbySteps]
  refine ⟨lasting, by rwa [st], by simp, ?_, ?_⟩
  · have flushed : s.UplinkSound (presentationFlush s) := .of_tc (by simp) (by simp)
    exact (flushed.trans inner.uplink).trans (.of_tc (Nat.le_refl _) rfl)
  · refine ⟨fun ⟨_, steps⟩ => ⟨fun _ => ?_, fun _ => ?_⟩, fun h => ?_, fun h => ?_⟩
    · exact (State.atRest_iff _).mpr ⟨by rwa [st], by simpa using stopped, rfl⟩
    · simpa [pwc] using steps (.inl asked)
    · simpa [pwc] using h
    · simp [Pwc.slumber, asked] at h

theorem stopAndAnswer_event (s : State) : s.Event (stopAndAnswer s) := by
  refine .ite (fun asked => ?_) fun _ => stop_event s
  simp only [Bool.and_eq_true, beq_iff_eq] at asked
  exact .after (standbySteps_event asked.2 rfl) (stop_event s)

theorem stopPoint_event (s : State) : s.Event (stopPoint s) := by
  unfold stopPoint
  refine .after (stopAndAnswer_event _) ?_
  split
  · exact takePending_event ..
  · exact .refl s

theorem requestStop_event (s : State) : s.Event (requestStop s) := by
  unfold requestStop
  split
  · exact onSo_event rfl rfl
  · exact .after (stopAndAnswer_event _) (onSo_event rfl rfl)

/-! ### Frame boundaries -/

/-- The engine may run: it does already, or the power state allows it. -/
def State.mayRun (s : State) : Prop := s.so.state ≠ .stopped ∨ s.mayStart = true

/-- The standby invariant lets no part at rest run its engine. -/
theorem State.standbySound.awake {s : State} (h : s.standbySound) (run : s.mayRun) : s.pwc.resting = false := by
  obtain ⟨rest, steps⟩ := h
  refine Classical.byContradiction fun resting => ?_
  have resting : s.pwc.resting = true := by simpa using resting
  rcases run with run | run
  · exact run ((State.atRest_iff s).mp (rest resting)).2.1
  · have state : s.pwc.state = .active ∨ s.pwc.state = .dimmed := by simpa [State.mayStart] using run
    simp only [Pwc.resting, Bool.or_eq_true, beq_iff_eq] at resting
    rcases resting with ((h | h) | h) | h
    · simp [h] at state
    · simp [h] at state
    · have := steps (.inr (.inl h))
      simp [this] at state
    · have := steps (.inr (.inr h))
      simp [this] at state

theorem State.mayRun.of_calm {s t : State} (run : s.mayRun) (h : t.calm = s.calm) : t.mayRun := by
  simp only [State.calm, Prod.mk.injEq] at h
  obtain ⟨hs, -, ho, -⟩ := h
  simpa only [State.mayRun, State.mayStart, hs, ho] using run

/-- An engine that may run changes its state. -/
theorem onSo_run_event {f : So → So} {s : State} (run : s.mayRun) (hr : (f s.so).reports = s.so.reports) :
    s.Event (s.onSo f) where
  lasting := rfl
  st := .refl _
  reports := by simp [hr]
  uplink := .of_tc (Nat.le_refl _) rfl
  power := by
    refine ⟨fun h => ⟨fun resting => ?_, h.2⟩, id, id⟩
    have := h.awake run
    exact absurd (show s.pwc.resting = true from resting) (by simp [this])

theorem boundaryDecision_event (b : Stamp) (s : State) : s.Event (boundaryDecision b s) :=
  .of_st (boundaryDecision_sound b s) (by simp) (by simp) (by simp) (by simp) (by simp)

theorem beginBands_event (s : State) : s.Event (beginBands s) := by
  have started : s.Event ((s.emit (.panelStart .left s.so.applied.level)).emit (.panelStart .right s.so.applied.level)) :=
    .after (emit_event ..) (emit_event ..)
  unfold beginBands
  dsimp only
  split
  · exact .after (onSo_event rfl rfl) started
  · exact .after (emit_event ..) (.after (emit_event ..) (.after (onSo_event rfl rfl) started))

@[simp] theorem So.nextFrame_keeps (o : So) : o.nextFrame.state = o.state ∧ o.nextFrame.reports = o.reports ∧
    o.nextFrame.stopRequested = o.stopRequested ∧ o.nextFrame.applied = o.applied := by
  unfold So.nextFrame
  split <;> simp

@[simp] theorem applySet_calm (t : TimingSet) (s : State) : (applySet t s).so.state = s.so.state := by
  unfold applySet
  simp only [raise_keeps, State.onSo_so]
  split <;> rfl

theorem reload_calm (s : State) : (reload s).calm = s.calm := by
  have state : (reload s).so.state = s.so.state := by
    unfold reload
    split <;> simp [takePending]
  simp [state]

theorem frameBoundary_event {s : State} (byTrigger : Bool) (run : s.mayRun) : s.Event (frameBoundary byTrigger s) := by
  have reloaded : s.Event (reload (s.onSo fun o => { o.nextFrame with lastBoundary := s.tb.now })) :=
    .after (reload_event _) (onSo_event (So.nextFrame_keeps _).1 (So.nextFrame_keeps _).2.1)
  have run' : (reload (s.onSo fun o => { o.nextFrame with lastBoundary := s.tb.now })).mayRun :=
    run.of_calm ((reload_calm _).trans (by simp))
  refine .ite (fun _ => ?_) fun _ => ?_
  · exact .after (stopAndAnswer_event _) (.after (pulse_event ..) reloaded)
  · exact .after (beginBands_event _) (.after (boundaryDecision_event ..) (.after (pulse_event ..)
      (.after (onSo_run_event run' rfl) reloaded)))

theorem boundaryMoment_event {s : State} (byTrigger : Bool) (run : s.mayRun) : s.Event (boundaryMoment byTrigger s) :=
  .ite (fun _ => stopPoint_event s) fun _ => frameBoundary_event byTrigger run

theorem acceptTrigger_event {s : State} (run : s.mayRun) : s.Event (acceptTrigger s) :=
  .after (boundaryMoment_event true (run.of_calm rfl)) (onSo_event rfl rfl)

theorem So.levelReady.running {o : So} (h : o.levelReady = true) : o.state ≠ .stopped := by
  simp only [So.levelReady, So.afterDark, Bool.and_eq_true, Bool.or_eq_true, beq_iff_eq] at h
  rcases h with ⟨-, h | ⟨⟨h, -⟩, -⟩⟩ <;> simp [h]

theorem frameStartEvent_event (s : State) : s.Event (frameStartEvent s) := by
  refine .ite (fun _ => .refl s) fun _ => ?_
  split
  · exact .refl s
  next h => exact acceptTrigger_event (.inl (by simp [h]))
  next h =>
    refine .ite (fun _ => acceptTrigger_event (.inl (by simp [h]))) fun _ => onSo_event rfl rfl

theorem syncLost_event {s : State} (run : s.mayRun) : s.Event (syncLost s) := by
  refine .ite (fun _ => stopPoint_event s) fun _ => ?_
  exact .after (frameBoundary_event false (run.of_calm (by simp))) (.after (raise_event ..) (onSo_event rfl rfl))

theorem startScan_event {s : State} (run : s.mayRun) : s.Event (startScan s) := by
  refine .ite (fun _ => .refl s) fun _ => ?_
  split
  · exact frameBoundary_event false run
  · exact onSo_run_event run rfl

theorem takeSet_event (t : TimingSet) (s : State) : s.Event (takeSet t s) := by
  have applied := applySet_event t s
  have calm : (applySet t s).calm = s.calm := by simp
  refine .ite (fun waiting => ?_) fun _ => .ite (fun may => ?_) fun _ => applied
  · have run : s.mayRun := .inl (by simp [beq_iff_eq.mp waiting])
    refine .ite (fun _ => ?_) fun _ => .ite (fun _ => ?_) fun _ => applied
    · exact .after (stop_event _) applied
    · exact .after (frameBoundary_event false (run.of_calm calm)) applied
  · exact .after (startScan_event (.inr may)) applied

/-! ### Bands and phases -/

theorem endWindows_event (w : BandJob → Bool) (s : State) : s.Event (endWindows w s) :=
  .of_steady (by simp [endWindows]) (by simp)

theorem scanEnds_event (s : State) : s.Event (scanEnds s) :=
  .after (pulse_event ..) (.after (onSo_event rfl rfl) (endWindows_event ..))

theorem strobeEnds_event (s : State) : s.Event (strobeEnds s) := .after (pulse_event ..) (onSo_event rfl rfl)

theorem askBand_event (p : Side) (n : Fin 6) (k : Nat) (s : State) : s.Event (askBand p n k s).2 :=
  .of_st (askBand_sound p n k s) (by simp) (by simp) (by simp) (by simp) (by simp)

theorem readBand_event (p : Side) (k : Nat) (a : BandAnswer) (s : State) : s.Event (readBand p k a s) := by
  unfold readBand
  split
  · exact emit_event ..
  · exact .after (requestReads_event ..) (.after (onSo_event rfl rfl) (fresh_event s))

theorem startBandFor_event (p : Side) (n : Fin 6) (k : Nat) (s : State) : s.Event (startBandFor p n k s) :=
  .after (readBand_event ..) (askBand_event p n k s)

theorem bandStarts_event (c : Schedule) (s : State) : s.Event (bandStarts c s) := by
  have first : s.Event (startBandFor c.panel c.surface c.next ((endWindows (fun j => c.serves j.panel) s).onSo fun o =>
      { o with schedules := updateFirst (·.panel == c.panel) (fun x => { x with next := x.next + 1 }) o.schedules })) :=
    .after (startBandFor_event ..) (.after (onSo_event rfl rfl) (endWindows_event ..))
  exact .ite (fun _ => .after (startBandFor_event ..) first) fun _ => first

theorem bandFinished_event (j : BandJob) (s : State) : s.Event (bandFinished j s) := by
  have counted : s.Event ((s.onSo fun o => { o with jobs := o.jobs.filter (·.id != j.id) }).onSo fun o =>
      if j.failed then { o with failedBands := o.failedBands + 1 }
      else if j.late then { o with underruns := o.underruns + 1 }
      else o) := by
    refine .after (onSo_event ?_ ?_) (onSo_event rfl rfl)
    all_goals
      repeat' split
      all_goals rfl
  exact .ite (fun _ => counted) fun _ => .after (emit_event ..) counted

theorem bandReadDone_event (job line : Nat) (data : List Byte) (bad : Bool) (s : State) :
    s.Event (bandReadDone job line data bad s) := by
  unfold bandReadDone
  split
  · exact .refl s
  · exact .ite (fun _ => .after (bandFinished_event ..) (onSo_event rfl rfl)) fun _ => onSo_event rfl rfl

/-! ### The trigger matrix -/

theorem onBeacon_event (n : Fin 2) (f : Beacon → Beacon) (s : State) : s.Event (s.onBeacon n f) := onTm_event _ s

theorem beaconEvent_event (n : Fin 2) (s : State) : s.Event (beaconEvent n s) :=
  .ite (fun _ => .refl s) fun _ => onBeacon_event ..

theorem channelEvent_event (n : Fin 4) (s : State) : s.Event (channelEvent n s) :=
  .ite (fun _ => becomeDue_event n s) fun _ => .refl s

theorem deliver_event (n : Fin 8) (s : State) : s.Event (deliver n s) := by
  unfold deliver
  split
  · exact frameStartEvent_event s
  · exact killEvent_event s
  · exact channelEvent_event ..
  · exact channelEvent_event ..
  · exact channelEvent_event ..
  · exact channelEvent_event ..
  · exact beaconEvent_event ..
  · exact beaconEvent_event ..

theorem deliverPulse_event (p : Fin 26) (s : State) : s.Event (deliverPulse p s) := by
  refine .after (foldl_event (fun s n => ?_) _ _) (onTm_event _ s)
  exact .ite (fun _ => deliver_event n s) fun _ => .refl s

theorem seeChange_event (n : Fin 8) (s : State) : s.Event (seeChange n s) :=
  .ite (fun _ => .after (deliver_event ..) (onTm_event _ s)) fun _ => onTm_event _ s

theorem drainOnce_event {s t : State} (h : drainOnce s = some t) : s.Event t := by
  unfold drainOnce at h
  split at h
  · obtain rfl := Option.some.inj h
    exact .after (deliverPulse_event ..) (onTm_event _ s)
  split at h
  · obtain rfl := Option.some.inj h
    exact seeChange_event ..
  split at h
  next ready =>
    obtain rfl := Option.some.inj h
    rw [Bool.and_eq_true] at ready
    exact acceptTrigger_event (.inl (So.levelReady.running ready.2))
  split at h
  · obtain rfl := Option.some.inj h
    exact becomeDue_event ..
  split at h
  · obtain rfl := Option.some.inj h
    exact onBeacon_event ..
  split at h
  · obtain rfl := Option.some.inj h
    exact giveBus_event s
  · cases h

theorem drainUpTo_event (n : Nat) (s : State) : s.Event (drainUpTo n s) := by
  induction n generalizing s with
  | zero => exact .refl s
  | succ n ih =>
    unfold drainUpTo
    split
    next t h => exact (drainOnce_event h).trans (ih t)
    · exact .refl s

theorem drain_event (s : State) : s.Event (drain s) :=
  .ite (fun _ => .after (cutCheck_event _) (drainUpTo_event 64 s)) fun _ => .refl s

end Sys2Proof.Machine
end

section
/-!
PROOFS. What the power controller's events and the downlink's packets do, and the frame of the event commands.
-/
namespace Sys2Proof.Machine

/-! ### The power states that events change -/

/-- A change of the power controller that keeps state and step, the rails and the settings. -/
theorem onPwc_event {f : Pwc → Pwc} {s : State} (hs : (f s.pwc).state = s.pwc.state) (hp : (f s.pwc).step = s.pwc.step)
    (hl : ((f s.pwc).settings, (f s.pwc).enables, (f s.pwc).hostReset) =
      (s.pwc.settings, s.pwc.enables, s.pwc.hostReset)) : s.Event (s.onPwc f) := by
  simp only [Prod.mk.injEq] at hl
  obtain ⟨h, h', h''⟩ := hl
  exact .of_steady (by simp [hs, hp, h, h', h'']) (by simp)

/-- Between ACTIVE and DIMMED the standby invariant sees nothing. -/
theorem State.PowerSound.of_awake {s t : State} (here : s.pwc.awake = true) (there : t.pwc.awake = true)
    (step : t.pwc.step = s.pwc.step ∨ t.pwc.step = .none) : s.PowerSound t := by
  have states {p : Pwc} (h : p.awake = true) : p.state = .active ∨ p.state = .dimmed := by
    simpa [Pwc.awake] using h
  have awake := states here
  have stays := states there
  refine ⟨fun ⟨_, steps⟩ => ?_, fun _ => ?_, fun h => ?_⟩
  · have idle : ¬ (s.pwc.step = .enterScan ∨ s.pwc.step = .enterDrain ∨ s.pwc.step = .enterRefresh) := fun h => by
      have := steps h
      simp [this] at awake
    have idle' : ¬ (t.pwc.step = .enterScan ∨ t.pwc.step = .enterDrain ∨ t.pwc.step = .enterRefresh) := by
      rcases step with e | e
      · rwa [e]
      · simp [e]
    refine ⟨fun resting => ?_, fun h => (idle' h).elim⟩
    simp only [Pwc.resting, Bool.or_eq_true, beq_iff_eq] at resting
    rcases resting with ((h | h) | h) | h
    · simp [h] at stays
    · simp [h] at stays
    · exact (idle' (.inr (.inl h))).elim
    · exact (idle' (.inr (.inr h))).elim
  · rcases stays with h | h <;> simp [h]
  · rw [Pwc.slumber_eq_false_iff] at h ⊢
    have steps : t.pwc.step ≠ .enterDrain ∧ t.pwc.step ≠ .enterRefresh ∧ t.pwc.step ≠ .enterScan := by
      rcases step with e | e
      · rw [e]
        exact h.2.2
      · simp [e]
    exact ⟨by rcases stays with h | h <;> simp [h], by rcases stays with h | h <;> simp [h], steps⟩

theorem setPower_so (p : PowerState) (s : State) :
    (setPower p s).so.state = s.so.state ∧ (s.so.reports.length ≤ 8 → (setPower p s).so.reports.length ≤ 8) := by
  unfold setPower
  dsimp only
  split
  · have cut := So.cut_keeps { s.so with powerCut := true }
    exact ⟨cut.1, cut.2⟩
  · exact ⟨rfl, id⟩

theorem setPower_pwc (p : PowerState) (s : State) : (setPower p s).pwc = { s.pwc with state := p } := by
  unfold setPower
  dsimp only
  split <;> rfl

@[simp] theorem setPower_enableSet (p : PowerState) (s : State) : (setPower p s).eu.enableSet = s.eu.enableSet := by
  simp

/-- A change of the power state and of what follows it in the power controller, between ACTIVE and DIMMED. -/
theorem setPower_event {p : PowerState} {f : Pwc → Pwc} {s : State} (here : s.pwc.awake = true)
    (there : (f { s.pwc with state := p }).awake = true)
    (step : (f { s.pwc with state := p }).step = s.pwc.step ∨ (f { s.pwc with state := p }).step = .none)
    (hl : ((f { s.pwc with state := p }).settings, (f { s.pwc with state := p }).enables,
      (f { s.pwc with state := p }).hostReset) = (s.pwc.settings, s.pwc.enables, s.pwc.hostReset)) :
    s.Event ((setPower p s).onPwc f) := by
  simp only [Prod.mk.injEq] at hl
  obtain ⟨h, h', h''⟩ := hl
  have pwc : ((setPower p s).onPwc f).pwc = f { s.pwc with state := p } := by simp [setPower_pwc]
  refine ⟨?_, ?_, (setPower_so p s).2, .of_tc (by simp) (by simp), .of_awake here (by rw [pwc]; exact there) (by rw [pwc]; exact step)⟩
  · simp [setPower_pwc, h, h', h'']
  · simp [St.Sound.refl]

theorem enterActive_event {s : State} (awake : s.pwc.awake = true) : s.Event (enterActive s) :=
  .after (raise_event ..) (.after (onPwc_event rfl rfl rfl) (setPower_event awake rfl (.inr rfl) rfl))

theorem enterDimmed_event {s : State} (c : DimCause) (awake : s.pwc.awake = true) : s.Event (enterDimmed c s) :=
  .after (raise_event ..) (.after (onPwc_event rfl rfl rfl) (setPower_event awake rfl (.inl rfl) rfl))

theorem beginWaking_event {s : State} (c : WakeCause) (asleep : s.pwc.state = .standby) : s.Event (beginWaking c s) where
  lasting := rfl
  st := .refl _
  reports := id
  uplink := .of_tc (Nat.le_refl _) rfl
  power := by
    refine ⟨fun ⟨rest, _⟩ => ⟨fun _ => ?_, fun h => ?_⟩, fun h => (h asleep).elim, fun h => ?_⟩
    · have resting : s.pwc.resting = true := by simp [Pwc.resting, asleep]
      exact rest resting
    · simp [beginWaking] at h
    · simp [Pwc.slumber, Pwc.resting, asleep] at h

theorem wakeCause_event (c : WakeCause) (s : State) : s.Event (wakeCause c s) := by
  unfold wakeCause
  split
  next h => exact beginWaking_event c h
  · exact onPwc_event rfl rfl rfl
  · exact .refl s

theorem presenceReport_event (v : Bool) (s : State) : s.Event (presenceReport v s) := by
  have raised : s.Event (raise .presenceChange (s.onPwc fun p => { p with presence := v })) :=
    .after (raise_event ..) (onPwc_event rfl rfl rfl)
  refine .ite (fun _ => .refl s) fun _ => ?_
  dsimp only
  split
  next h => exact .ite (fun _ => .after (enterDimmed_event _ (by simpa [Pwc.awake] using Or.inl h)) raised) fun _ => raised
  next h => exact .ite (fun _ => .after (enterActive_event (by simpa [Pwc.awake] using Or.inr h)) raised) fun _ => raised
  · exact .ite (fun _ => .after (wakeCause_event ..) raised) fun _ => raised
  · exact .ite (fun _ => .after (wakeCause_event ..) raised) fun _ => raised
  · exact raised

/-! ### Downlink packets -/

theorem takeSeq_event (seq : U16) (s : State) : s.Event (takeSeq seq s) := onTc_event rfl rfl rfl rfl

theorem dropOlder_event (s : State) : s.Event (dropOlder s) := onTc_event rfl rfl rfl rfl

theorem dropNewer_event (s : State) : s.Event (dropNewer s) := onTc_event rfl rfl rfl rfl

theorem bySequence_event {owner : State → State} (h : ∀ s : State, s.Event (owner s)) (seq : U16) (s : State) :
    s.Event (bySequence seq owner s) := by
  unfold bySequence
  split
  · exact .after (h _) (takeSeq_event ..)
  · exact dropOlder_event s
  · exact dropNewer_event s

theorem receiveMessage_event (seq : U16) (bytes : List Byte) (s : State) : s.Event (receiveMessage seq bytes s) := by
  unfold receiveMessage
  split
  · exact .ite (fun _ => .after (takeSeq_event ..) (offerMessage_event ..)) fun _ => offerMessage_event ..
  · exact dropOlder_event s
  · exact dropNewer_event s

theorem takeAudio_event (frames : List U32) (s : State) : s.Event (takeAudio frames s) :=
  .ite (fun _ => onTc_event rfl rfl rfl rfl) fun _ => placeAudio_event ..

theorem takeTime_event (console : U64) (s : State) : s.Event (takeTime console s) := by
  refine .after (pulse_event ..) (.of_uplink ⟨Nat.le_refl _, fun _ => newest_length_le .., id, fun h => ?_⟩ rfl rfl rfl rfl)
  exact h.shrinksOnly (Nat.le_refl _) (fun q hq => hq) (fun c => .refl _) rfl

theorem takeWake_event (s : State) : s.Event (takeWake s) :=
  .ite (fun _ => .after (wakeCause_event ..) (raise_event ..)) fun _ => raise_event ..

theorem handlePacket_event (p : Packet) (s : State) : s.Event (handlePacket p s) := by
  cases p with
  | badCrc => exact .refl s
  | badFormat => exact .refl s
  | keepalive => exact .refl s
  | ack a b c => exact .after (applyAck_event ..) (.after (applyAck_event ..) (applyAck_event ..))
  | frameBegin seq f => exact bySequence_event (tetherBegin_event f) seq s
  | slice p => exact takeSlice_event p s
  | frameEnd seq tag => exact bySequence_event (tetherEnd_event tag) seq s
  | audio frames => exact takeAudio_event frames s
  | message seq bytes => exact receiveMessage_event seq bytes s
  | time console => exact takeTime_event console s
  | wake seq => exact bySequence_event takeWake_event seq s

theorem receivePacket_event (p : Packet) (s : State) : s.Event (receivePacket p s) := by
  unfold receivePacket
  split
  · exact onTc_event rfl rfl rfl rfl
  · exact onTc_event rfl rfl rfl rfl
  · exact .after (laneKick_event _) (.after (handlePacket_event ..) (onTc_event rfl rfl rfl rfl))

theorem arrive_event (need : Nat) (p : Packet) (s : State) : s.Event (arrive need p s) := by
  refine .ite (fun _ => .after (drain_event _) ?_) fun _ => .refl s
  exact .ite (fun _ => onTc_event rfl rfl rfl rfl) fun _ => receivePacket_event ..

theorem resumeDownlink_event (s : State) : s.Event (resumeDownlink s) := by
  unfold resumeDownlink
  split
  · exact .ite (fun _ => .after (receivePacket_event ..) (onTc_event rfl rfl rfl rfl)) fun _ => .refl s
  · exact .refl s

theorem onEu_event {f : Eu → Eu} {s : State} (h : (f s.eu).enableSet = s.eu.enableSet) : s.Event (s.onEu f) :=
  .of_steady (by simp [h]) (by simp)

/-! ### The event commands -/

theorem transferAndReport_event (t : Transfer) (din : List Byte) (s : State) : s.Event (transferAndReport t din s) := by
  have done := transferDone_event t din s
  unfold transferAndReport
  dsimp only
  split
  · exact .after (presenceReport_event ..) done
  · exact done

theorem intervalExpired_event (n : Fin 4) (s : State) : s.Event (intervalExpired n s) :=
  .after (becomeDue_event ..) (onChannel_event ..)

/-- The state with its pins replaced, from which an event command's own changes start. -/
def State.withPins (p : Pins) (s : State) : State := s.onPins fun _ => p

/-- A command does nothing that the event relation does not see, after it may have changed the input pins. -/
def State.EventFrom (s t : State) (pins : Bool) : Prop :=
  ∃ p : Pins, (s.withPins p).Event t ∧ (pins = false → p = s.pins)

theorem State.Event.from {s t : State} (h : s.Event t) (pins : Bool) : s.EventFrom t pins := ⟨s.pins, h, fun _ => rfl⟩

theorem State.EventFrom.of_pins {f : Pins → Pins} {s t : State} (h : (s.onPins f).Event t) : s.EventFrom t true :=
  ⟨f s.pins, h, by simp⟩

/-- A command that acts only when its moment has come. -/
theorem State.EventFrom.ite {c : Prop} [Decidable c] {s t : State} {pins : Bool} (h : c → s.EventFrom t pins) :
    s.EventFrom (if c then t else s) pins := by
  split
  next hc => exact h hc
  · exact (State.Event.refl s).from pins

theorem State.EventFrom.unless {c : Prop} [Decidable c] {s t : State} {pins : Bool} (h : s.EventFrom t pins) :
    s.EventFrom (if c then s else t) pins := by
  split
  · exact (State.Event.refl s).from pins
  · exact h

theorem drdyRises_event (ch : Fin 4) (s : State) : s.EventFrom (drdyRises ch s) true :=
  .of_pins (.ite (fun _ => becomeDue_event ..) fun _ => .refl _)

theorem cableRises_event (s : State) : s.EventFrom (cableRises s) true :=
  .of_pins (.ite (fun _ => startTraining_event _) fun _ => .refl _)

theorem cableFalls_event (s : State) : s.EventFrom (cableFalls s) true := by
  unfold cableFalls
  refine .of_pins (f := fun p => { p with cable := false }) ?_
  dsimp only
  split
  · exact onTc_event rfl rfl rfl rfl
  · exact trainingLost_event _
  · exact .after (drain_event _) (enterDown_event _)
  · exact enterDown_event _

theorem So.afterDark.running {o : So} (h : o.afterDark = true) : o.state ≠ .stopped := by
  simp only [So.afterDark, Bool.and_eq_true, beq_iff_eq] at h
  simp [h.1.1]

theorem State.EventFrom.drain {s t : State} {pins : Bool} (h : s.EventFrom t pins) :
    s.EventFrom (Machine.drain t) pins := by
  obtain ⟨p, e, hp⟩ := h
  exact ⟨p, .after (drain_event _) e, hp⟩

/-- An event command changes pins, where it is a row of a pin, and beyond that as the event relation allows. -/
theorem exec_event (c : Instr) (s t : State) (hc : eventCommand c = true) (h : exec c s = .next t) :
    s.EventFrom t (pinCommand c) := by
  have drained {u : State} (h : s.Event u) : s.EventFrom (Machine.drain u) false :=
    (State.Event.after (drain_event _) h).from _
  cases c
  all_goals cases hc
  all_goals obtain rfl := Host.Outcome.next.inj h
  case scanEnd => exact .ite fun _ => drained (scanEnds_event s)
  case strobeBegin => exact .ite fun _ => drained (strobeBegins_event s)
  case lightWindowEnd => exact .ite fun _ => (onSo_event rfl rfl).from _
  case strobeEnd => exact .ite fun _ => drained (strobeEnds_event s)
  case minimumDarkEnd => exact .ite fun _ => drained (onSo_event rfl rfl)
  case framePeriodExpiry =>
    refine .ite fun ready => drained (boundaryMoment_event false (.inl (So.afterDark.running ?_)))
    exact (Bool.and_eq_true _ _ ▸ ready).1
  case syncLossExpiry =>
    refine .ite fun ready => drained (syncLost_event (.inl (So.afterDark.running ?_)))
    exact (Bool.and_eq_true _ _ ▸ ready).1
  case bandStart p =>
    split
    · exact (bandStarts_event _ s).from _
    · exact (State.Event.refl s).from _
  case syncInChange => exact .of_pins (drain_event _)
  case sbDrdyRise ch => exact .unless (drdyRises_event ch s).drain
  case sensorIntervalExpiry ch => exact .ite fun _ => drained (intervalExpired_event ch s)
  case sensorTransferComplete din =>
    split
    · exact .ite fun _ => drained (transferAndReport_event _ din s)
    · exact (State.Event.refl s).from _
  case cablePresentRise => exact .unless (cableRises_event s)
  case cablePresentFall => exact .ite fun _ => cableFalls_event s
  case retryTimerExpiry => exact .ite fun _ => (startTraining_event s).from _
  case trainingComplete => exact .ite fun _ => drained (trainingDone_event s)
  case trainingTimerExpiry => exact .ite fun _ => (trainingLost_event s).from _
  case receiveTimerExpiry => exact .ite fun _ => drained (enterRecovery_event s)
  case recoveryComplete => exact .ite fun _ => drained (recoveryDone_event s)
  case recoveryTimerExpiry => exact .ite fun _ => (enterDown_event s).from _
  case idleTimerExpiry => exact .ite fun _ => (State.Event.after (laneKick_event _) (onTc_event rfl rfl rfl rfl)).from _
  case downlinkPause raw => exact .ite fun _ => (arrive_event ..).from _
  case downlinkInvalidPacket raw => exact .ite fun _ => (arrive_event ..).from _
  case keepalive => exact (arrive_event ..).from _
  case ack => exact (arrive_event ..).from _
  case frameBegin => exact (arrive_event ..).from _
  case slice => exact (arrive_event ..).from _
  case frameEnd => exact (arrive_event ..).from _
  case audio => exact (arrive_event ..).from _
  case message => exact (arrive_event ..).from _
  case time => exact (arrive_event ..).from _
  case wake => exact (arrive_event ..).from _
  case uplinkTransmissionComplete =>
    split
    · exact .ite fun _ => (sendDone_event ..).from _
    · exact (State.Event.refl s).from _
  case ackTimerExpiry cls => exact .ite fun _ => drained (ackExpired_event cls s)
  case audioPeriodBoundary pdm => exact .ite fun _ => drained (audioBoundary_event (some pdm) s)
  case pwmPeriodBoundary => exact .ite fun _ => (onAu_event _ s).from _
  case beaconDelayExpiry n => exact .ite fun _ => drained (onBeacon_event ..)
  case beaconWidthExpiry n => exact .ite fun _ => drained (onBeacon_event ..)
  case syncOutFollowEnd n => exact .ite fun _ => (onTm_event _ s).from _
  case attnGapEnd => exact .ite fun _ => (onEu_event rfl).from _

/-- Settles O56, from the event relation. -/
theorem eventCommandsFrame : Obligations.EventCommandsFrame := by
  intro c s t hc h
  obtain ⟨p, event, -⟩ := exec_event c s t hc h
  have lasting := event.lasting
  simp only [State.lasting, Prod.mk.injEq] at lasting
  simp only [lasting, State.withPins, State.onPins, and_self]

end Sys2Proof.Machine
end

section
/-!
PROOFS. What every step keeps: the operations of the port, the plan unit, the power controller and the DRAM's completions
keep the canonical form, the lists within their sizes, frames and surfaces in agreement and the standby invariant.
-/
namespace Sys2Proof.Machine

/-! ### The relation -/

/-- The standby invariant, with `awake` outside of STANDBY: a transaction is taken only there. -/
def State.restful (awake : Bool) (s : State) : Prop := s.standbySound ∧ (awake = true → s.pwc.state ≠ .standby)

/-- A part that does not rest satisfies the invariant, if it waits for the scan-out only on its way to STANDBY. -/
theorem State.restful_of_awake {b : Bool} {s : State} (resting : s.pwc.resting = false)
    (steps : s.pwc.step = .enterScan → s.pwc.state = .enteringStandby) : s.restful b := by
  have parts := resting
  simp only [Pwc.resting, Bool.or_eq_false_iff, beq_eq_false_iff_ne] at parts
  obtain ⟨⟨⟨standby, -⟩, drain⟩, refresh⟩ := parts
  refine ⟨⟨fun h => by simp [resting] at h, ?_⟩, fun _ => standby⟩
  rintro (h | h | h)
  · exact steps h
  · exact (drain h).elim
  · exact (refresh h).elim

/-- From one state to another the invariants of every step are kept. -/
structure State.Keeps (awake : Bool) (s t : State) : Prop where
  canonical : s.canonical → t.canonical
  bounded : s.bounded → t.bounded
  agree : s.st.framesAgree → t.st.framesAgree
  restful : s.restful awake → t.restful awake

theorem State.Keeps.trans {b : Bool} {s t u : State} (h : s.Keeps b t) (k : t.Keeps b u) : s.Keeps b u :=
  ⟨k.canonical ∘ h.canonical, k.bounded ∘ h.bounded, k.agree ∘ h.agree, k.restful ∘ h.restful⟩

/-- A step after those so far. -/
theorem State.Keeps.after {b : Bool} {s t u : State} (k : t.Keeps b u) (h : s.Keeps b t) : s.Keeps b u := h.trans k

theorem State.Keeps.ite {b : Bool} {c : Prop} [Decidable c] {s t u : State} (h : c → s.Keeps b t) (k : ¬ c → s.Keeps b u) :
    s.Keeps b (if c then t else u) := by
  split
  next hc => exact h hc
  next hc => exact k hc

theorem State.Event.keeps {b : Bool} {s t : State} (h : s.Event t) : s.Keeps b t := by
  have lasting := h.lasting
  simp only [State.lasting, Prod.mk.injEq] at lasting
  obtain ⟨⟨-, -, mem, ⟨-, captures, scrubs⟩, -⟩, ⟨shadow, -⟩, -⟩ := lasting
  refine ⟨?_, ?_, h.st.agree, ?_⟩
  · rw [State.canonical, State.canonical, mem, shadow]
    exact id
  · rintro ⟨hq, hr, hp, hu, hh, hs, hc⟩
    exact ⟨h.st.queue hq, h.reports hr, h.uplink.pairs hp, h.uplink.queue hu, h.uplink.history hh,
      by rwa [scrubs], by rwa [captures]⟩
  · exact fun ⟨sound, awake⟩ => ⟨h.power.standby sound, fun hb => h.power.awake (awake hb)⟩

/-- What the invariants of every step look at. -/
@[simp] def State.looked (s : State) :=
  (s.mem, s.pu.shadow, s.calm, s.st, s.so.reports, s.tc, s.da.scrubs, s.da.captures)

theorem State.Keeps.of_looked {b : Bool} {s t : State} (h : t.looked = s.looked) (hid : s.nextId ≤ t.nextId) :
    s.Keeps b t := by
  simp only [State.looked, State.calm, Prod.mk.injEq] at h
  obtain ⟨mem, shadow, ⟨state, step, so, hold⟩, st, reports, tc, scrubs, captures⟩ := h
  have calm : t.calm = s.calm := by simp [state, step, so, hold]
  have power : s.PowerSound t := .of_calm calm (st ▸ .refl _)
  have uplink : s.UplinkSound t := .of_tc hid tc
  refine ⟨?_, ?_, by rw [st]; exact id, ?_⟩
  · rw [State.canonical, State.canonical, mem, shadow]
    exact id
  · rintro ⟨hq, hr, hp, hu, hh, hs, hc⟩
    exact ⟨by rwa [st], by rwa [reports], uplink.pairs hp, uplink.queue hu, uplink.history hh, by rwa [scrubs],
      by rwa [captures]⟩
  · exact fun ⟨sound, awake⟩ => ⟨power.standby sound, fun hb => power.awake (awake hb)⟩

theorem State.Keeps.refl {b : Bool} (s : State) : s.Keeps b s := .of_looked rfl (Nat.le_refl _)

theorem foldl_kept {α : Type} {b : Bool} {f : State → α → State} (h : ∀ (s : State) a, s.Keeps b (f s a))
    (l : List α) (s : State) : s.Keeps b (l.foldl f s) := by
  induction l generalizing s with
  | nil => exact .refl s
  | cons a r ih => exact (h s a).trans (ih _)

/-- A change of the surface tracker. -/
theorem State.Keeps.of_st {b : Bool} {s t : State} (sound : s.st.Sound t.st)
    (h : t.looked = { s with st := t.st }.looked) (hid : t.nextId = s.nextId) : s.Keeps b t := by
  have tracked : s.Keeps b (s.onSt fun _ => t.st) := (onSt_event sound).keeps
  exact tracked.trans (.of_looked (s := s.onSt fun _ => t.st) h (Nat.le_of_eq hid.symm))

/-! ### Changes of one block -/

theorem onRm_kept {b : Bool} (f : Rm → Rm) (s : State) : s.Keeps b (s.onRm f) := .of_looked rfl (Nat.le_refl _)

theorem onEu_kept {b : Bool} (f : Eu → Eu) (s : State) : s.Keeps b (s.onEu f) := .of_looked rfl (Nat.le_refl _)

/-- A change of the plan unit that keeps the shadow canonical. -/
theorem onPu_kept {b : Bool} {f : Pu → Pu} {s : State}
    (h : Memory.wf s.pu.shadow = true → Memory.wf (f s.pu).shadow = true) : s.Keeps b (s.onPu f) where
  canonical := And.imp_right h
  bounded := id
  agree := id
  restful := id

/-- A change of the port that keeps its hold. -/
theorem onHmp_kept {b : Bool} {f : Hmp → Hmp} {s : State} (h : (f s.hmp).hold = s.hmp.hold) :
    s.Keeps b (s.onHmp f) := .of_looked (by simp [h]) (Nat.le_refl _)

/-- A change of the power controller that keeps state and step. -/
theorem onPwc_kept {b : Bool} {f : Pwc → Pwc} {s : State} (hs : (f s.pwc).state = s.pwc.state)
    (hp : (f s.pwc).step = s.pwc.step) : s.Keeps b (s.onPwc f) := .of_looked (by simp [hs, hp]) (Nat.le_refl _)

/-- A change of the DRAM that keeps its scrubs and captures. -/
theorem onDa_kept {b : Bool} {f : Da → Da} {s : State} (hs : (f s.da).scrubs = s.da.scrubs)
    (hc : (f s.da).captures = s.da.captures) : s.Keeps b (s.onDa f) := .of_looked (by simp [hs, hc]) (Nat.le_refl _)

theorem onTb_kept {b : Bool} (f : Tb → Tb) (s : State) : s.Keeps b (s.onTb f) := .of_looked rfl (Nat.le_refl _)

theorem onPins_kept {b : Bool} (f : Pins → Pins) (s : State) : s.Keeps b (s.onPins f) := .of_looked rfl (Nat.le_refl _)

theorem capture_kept {b : Bool} (k : CaptureKind) (a : Nat) (c : ReqClass) (s : State) :
    s.Keeps b (capture k a c s) where
  canonical := id
  bounded := by
    rintro ⟨hq, hr, hp, hu, hh, hs, -⟩
    exact ⟨hq, hr, hp, hu, hh, hs, newest_length_le ..⟩
  agree := id
  restful := id

theorem memoryError_kept {b : Bool} (k : CaptureKind) (l : Nat) (c : ReqClass) (s : State) :
    s.Keeps b (memoryError k l c s) := .after (raise_event ..).keeps (capture_kept ..)

theorem badIndex_kept {b : Bool} (a : Nat) (c : ReqClass) (s : State) :
    s.Keeps b (badIndex a c s) := .after (raise_event ..).keeps (capture_kept ..)

end Sys2Proof.Machine
end

section
/-!
PROOFS. What a host transaction does to the invariants of every step: the owners' judgements, live words, soft reset and
the power requests, and the port that takes transactions.
-/
namespace Sys2Proof.Machine

/-! ### The power controller -/

theorem alertAsserts_kept {b : Bool} (s : State) : s.Keeps b (alertAsserts s) := by
  refine .after (raise_event ..).keeps (onPwc_kept ?_ ?_)
  all_goals split <;> rfl

theorem overrideEnds_kept {b : Bool} (s : State) : s.Keeps b (overrideEnds s) :=
  .ite (fun _ => .after (raise_event ..).keeps (onPwc_kept rfl rfl)) fun _ => .refl s

theorem alertDeasserts_kept {b : Bool} (s : State) : s.Keeps b (alertDeasserts s) :=
  .after (overrideEnds_kept _) (onPwc_kept rfl rfl)

theorem takeSettings_kept {b : Bool} (p : PowerSettings) (s : State) : s.Keeps b (takeSettings p s) := by
  have set : s.Keeps b (s.onPwc fun x => { x with settings := p }) := onPwc_kept rfl rfl
  exact .ite (fun _ => .after (alertAsserts_kept _) set) fun _ =>
    .ite (fun _ => .after (alertDeasserts_kept _) set) fun _ => set

/-- The power state and what follows it in the power controller change, to a state and step that do not rest. -/
theorem setPower_kept {b : Bool} {p : PowerState} {f : Pwc → Pwc} {s : State}
    (resting : (f { s.pwc with state := p }).resting = false)
    (steps : (f { s.pwc with state := p }).step = .enterScan →
      (f { s.pwc with state := p }).state = .enteringStandby) : s.Keeps b ((setPower p s).onPwc f) := by
  have pwc : ((setPower p s).onPwc f).pwc = f { s.pwc with state := p } := by simp [setPower_pwc]
  refine ⟨?_, ?_, by simp, fun _ => State.restful_of_awake (by rwa [pwc]) (by rwa [pwc])⟩
  · simp only [State.canonical, State.onPwc_mem, State.onPwc_pu, setPower_keeps]
    exact id
  · rintro ⟨hq, hr, hp, hu, hh, hs, hc⟩
    exact ⟨by simpa using hq, (setPower_so p s).2 hr, by simpa using hp, by simpa using hu, by simpa using hh,
      by simpa using hs, by simpa using hc⟩

theorem beginStandby_kept {b : Bool} (s : State) : s.Keeps b (beginStandby s) :=
  .after (requestStop_event _).keeps (setPower_kept rfl fun _ => rfl)

/-! ### The core domain's reset values -/

theorem St.reset_framesAgree (ident : Nat) : { St.reset with nextIdent := ident }.framesAgree := by
  have rest : { St.reset with nextIdent := ident, barred := true }.atRest :=
    ⟨fun n => by simp [St.surface, St.reset, Surface.reset], rfl, rfl, rfl, rfl, rfl⟩
  exact rest.framesAgree

theorem Tc.reset_historyBounded (n : Nat) : Tc.reset.historyBounded n := by
  refine ⟨by decide, by simp [Tc.reset], by simp [Tc.reset], ?_⟩
  intro _ _ _ _ _ h
  cases h

theorem defaultImage_wf (p : PowerSettings) (seq : U32) : Memory.wf (defaultImage p seq) = true := by
  have written (l : List (Nat × List Byte)) (m : Mem) (h : Memory.wf m = true) :
      Memory.wf (l.foldl (fun m e => m.writeAll e.1 (enumFrom 0 e.2)) m) = true := by
    induction l generalizing m with
    | nil => exact h
    | cons e r ih => exact ih _ (Memory.wf_writeAll h ..)
  exact written _ _ rfl

theorem clearCore_canonical (s : State) : (clearCore s).canonical := ⟨rfl, rfl⟩

theorem clearCore_bounded (s : State) : (clearCore s).bounded := by
  refine ⟨?_, ?_, ?_, ?_, Tc.reset_historyBounded _, ?_, ?_⟩
  all_goals exact Nat.zero_le _

theorem clearCore_agree (s : State) : (clearCore s).st.framesAgree := St.reset_framesAgree _

/-! ### Stopping -/

/-- The core domain loses everything, and the power controller goes OFF. -/
theorem enterOff_kept {b : Bool} (s : State) : s.Keeps b (enterOff s) := by
  refine .after (raise_event ..).keeps (.after ?_ (overrideEnds_kept s))
  exact ⟨fun _ => clearCore_canonical (overrideEnds s), fun _ => clearCore_bounded (overrideEnds s),
    fun _ => clearCore_agree (overrideEnds s), fun _ => State.restful_of_awake rfl fun h => by cases h⟩

theorem stopRails_kept {b : Bool} (l : List Rail) (s : State) : s.Keeps b (stopRails l s) := by
  induction l with
  | nil => exact enterOff_kept s
  | cons r rest ih =>
    refine .ite (fun _ => ⟨id, id, id, fun ⟨sound, awake⟩ => ⟨⟨fun h => ?_, ?_⟩, awake⟩⟩)
      fun _ => ih
    · have resting : s.pwc.resting = true := by
        simp only [Pwc.resting, Pwc.disable, State.onPwc, Bool.or_eq_true, beq_iff_eq, reduceCtorEq, or_false] at h ⊢
        exact .inl (.inl h)
      exact sound.1 resting
    · rintro (h | h | h) <;> cases h

theorem beginStopping_kept {b : Bool} (c : StopCause) (s : State) : s.Keeps b (beginStopping c s) :=
  .after (stopRails_kept ..) (.after (onHmp_kept rfl) (setPower_kept rfl (by simp)))

theorem actOnRequest_kept {b : Bool} {s : State} (r : PowerRequest) : s.Keeps b (actOnRequest r s) := by
  cases r with
  | none => exact .refl s
  | active => exact .ite (fun h => (enterActive_event (by simp [Pwc.awake, h])).keeps) fun _ => .refl s
  | dimmed =>
    unfold actOnRequest
    dsimp only
    split
    next h => exact (enterDimmed_event _ (by simp [Pwc.awake, h])).keeps
    · exact onPwc_kept rfl rfl
    · exact .refl s
  | standby => exact .ite (fun _ => beginStandby_kept s) fun _ => .refl s
  | off => exact .ite (fun _ => beginStopping_kept ..) fun _ => .refl s

/-! ### The owners' judgements -/

theorem judgePower_kept {b : Bool} (bytes : List Byte) (s : State) : s.Keeps b (judgePower bytes s).2 := by
  unfold judgePower
  split
  · split
    · exact .after (actOnRequest_kept _) (takeSettings_kept _ s)
    · exact .after (actOnRequest_kept _) (takeSettings_kept _ s)
    · exact .refl s
  · exact .refl s

theorem takeSet_kept {b : Bool} (t : TimingSet) (s : State) : s.Keeps b (takeSet t s) := (takeSet_event t s).keeps

theorem refuseTiming_event (o : Outcome) (s : State) : s.Event (refuseTiming o s).2 :=
  .ite (fun _ => .after (onPu_event rfl rfl rfl) (onSo_event rfl rfl)) fun _ => .refl s

theorem judgeTiming_event (bytes : List Byte) (s : State) : s.Event (judgeTiming bytes s).2 := by
  unfold judgeTiming
  split
  · exact refuseTiming_event ..
  · dsimp only
    split
    · exact refuseTiming_event ..
    split
    · dsimp only
      have overtaken : s.Event (if s.so.pendingSet.isSome then s.onPu (Pu.overtake .timing) else s) :=
        .ite (fun _ => onPu_event rfl rfl rfl) fun _ => .refl s
      exact overtaken.trans (onSo_event rfl rfl)
    · exact takeSet_event ..

/-- A command of a surface record changes the surface tracker and raises events. -/
theorem judgeSurface_looked (n : Fin 6) (bytes : List Byte) (s : State) :
    (judgeSurface n bytes s).2.looked = { s with st := (judgeSurface n bytes s).2.st }.looked ∧
    (judgeSurface n bytes s).2.nextId = s.nextId := by
  simp only [judgeSurface, configureSurface, openSurface, releaseSurface]
  repeat' split
  all_goals exact ⟨rfl, rfl⟩

theorem judgeSurface_sound (n : Fin 6) (bytes : List Byte) (s : State) : s.st.Sound (judgeSurface n bytes s).2.st := by
  unfold judgeSurface
  split
  · exact configureSurface_sound ..
  · exact openSurface_sound ..
  · exact releaseSurface_sound ..
  · exact .refl _

theorem judgeSurface_kept {b : Bool} (n : Fin 6) (bytes : List Byte) (s : State) :
    s.Keeps b (judgeSurface n bytes s).2 :=
  .of_st (judgeSurface_sound n bytes s) (judgeSurface_looked n bytes s).1 (judgeSurface_looked n bytes s).2

theorem judgePresent_kept {b : Bool} (bytes : List Byte) (s : State) : s.Keeps b (judgePresent bytes s).2 := by
  refine .of_st (judgePresent_sound bytes s) ?_ ?_
  all_goals
    unfold judgePresent
    repeat' split
    all_goals simp

theorem judgeChannel_event (n : Fin 4) (bytes : List Byte) (s : State) : s.Event (judgeChannel n bytes s).2 := by
  unfold judgeChannel
  split
  · exact .refl s
  · exact .ite (fun _ => onChannel_event ..) fun _ => .ite (fun _ => .after (onChannel_event ..) (onChannel_event ..))
      fun _ => .after (enterRunning_event ..) (onChannel_event ..)

theorem judgeRule_event (n : Fin 16) (bytes : List Byte) (s : State) : s.Event (judgeRule n bytes s).2 := by
  unfold judgeRule
  split
  · exact .refl s
  · dsimp only
    exact onSh_event ..

theorem judgeSensorRing_event (n : Fin 8) (bytes : List Byte) (s : State) : s.Event (judgeSensorRing n bytes s).2 := by
  simp only [judgeSensorRing]
  repeat' split
  all_goals dsimp only
  all_goals first
    | exact .refl s
    | exact onSh_event ..

theorem judgeAudioRing_event (n : Fin 3) (bytes : List Byte) (s : State) : s.Event (judgeAudioRing n bytes s).2 := by
  simp only [judgeAudioRing]
  repeat' split
  all_goals dsimp only
  all_goals first
    | exact .refl s
    | exact onAu_event ..

theorem judgeAudioOut_event (bytes : List Byte) (s : State) : s.Event (judgeAudioOut bytes s).2 := by
  simp only [judgeAudioOut]
  repeat' split
  all_goals dsimp only
  all_goals first
    | exact .refl s
    | exact onAu_event ..

theorem judgeMessageRing_event (bytes : List Byte) (s : State) : s.Event (judgeMessageRing bytes s).2 := by
  simp only [judgeMessageRing]
  repeat' split
  all_goals dsimp only
  all_goals first
    | exact .refl s
    | exact onTc_event rfl rfl rfl rfl

theorem judgeMessageSlot_event (n : Fin 3) (bytes : List Byte) (s : State) : s.Event (judgeMessageSlot n bytes s).2 := by
  simp only [judgeMessageSlot]
  split
  · exact .refl s
  split
  · exact .refl s
  split
  · dsimp only
    exact onTc_event rfl rfl rfl rfl
  split
  · dsimp only
    exact onTc_event rfl rfl rfl rfl
  · dsimp only
    exact .after (uplinkJoin_event ..) (onTc_event rfl rfl rfl rfl)

theorem judgeTrigger_event (bytes : List Byte) (s : State) : s.Event (judgeTrigger bytes s).2 := by
  simp only [judgeTrigger]
  split
  · dsimp only
    exact onTm_event ..
  · exact .refl s

theorem judgeBeacon_event (n : Fin 2) (bytes : List Byte) (s : State) : s.Event (judgeBeacon n bytes s).2 := by
  simp only [judgeBeacon]
  repeat' split
  all_goals dsimp only
  all_goals first
    | exact .refl s
    | exact onBeacon_event ..

theorem judgeTime_kept {b : Bool} (bytes : List Byte) (s : State) : s.Keeps b (judgeTime bytes s).2 := by
  simp only [judgeTime]
  repeat' split
  all_goals dsimp only
  all_goals first
    | exact .refl s
    | exact onTb_kept ..

theorem judgeEvent_kept {b : Bool} (bytes : List Byte) (s : State) : s.Keeps b (judgeEvent bytes s).2 := by
  simp only [judgeEvent]
  repeat' split
  all_goals dsimp only
  all_goals first
    | exact .refl s
    | exact onEu_kept ..

theorem judgeRegion_kept {b : Bool} (n : Fin 32) (bytes : List Byte) (s : State) :
    s.Keeps b (judgeRegion n bytes s).2 := by
  simp only [judgeRegion]
  split
  · exact .refl s
  · dsimp only
    exact onRm_kept ..

/-! ### Soft reset -/

theorem issueImage_kept {b : Bool} (s : State) : s.Keeps b (issueImage s) :=
  .after (requestWrites_event ..).keeps (onPu_kept id)

theorem planInitialize_kept {b : Bool} (seq : U32) (s : State) : s.Keeps b (planInitialize seq s) :=
  .after (issueImage_kept _) (onPu_kept fun _ => defaultImage_wf ..)

theorem Tc.softReset_historyBounded {t : Tc} {n : Nat} (h : t.historyBounded n) : t.softReset.historyBounded n := by
  have ids (c : Fin 3) : (vget t.softReset.history c).map HistEntry.id = (vget t.history c).map HistEntry.id := by
    simp [Tc.softReset]
  have lengths (c : Fin 3) : (vget t.softReset.history c).length = (vget t.history c).length := by
    simpa using congrArg List.length (ids c)
  refine h.shrinks (Nat.le_refl n) (by simp [Tc.softReset, Tc.reset]) (fun c => Nat.le_of_eq (lengths c)) (fun c e he => ?_)
    fun entry read left lines damaged hl => ?_
  · have same := List.mem_map_of_mem (f := HistEntry.id) he
    rw [ids c] at same
    simpa using same
  · exact ⟨(h.2.2.2 entry read left lines damaged hl).1, .inr (by simp [Tc.softReset, Tc.reset])⟩

/-- A soft reset outside of a transition: the part is not at rest before it, and so need not be after it. -/
theorem softReset_kept {seq : U32} {s : State} (h : s.pwc.inTransition = false) : s.Keeps true (softReset seq s) := by
  refine .after (planInitialize_kept ..) (.after (onPu_kept id) ?_)
  refine ⟨id, ?_, fun _ => St.reset_framesAgree _, fun ⟨⟨_, steps⟩, awake⟩ => ?_⟩
  · rintro ⟨-, -, -, -, hh, hs, hc⟩
    exact ⟨Nat.zero_le _, Nat.zero_le _, Nat.zero_le _, Nat.zero_le _, Tc.softReset_historyBounded hh, hs, hc⟩
  · simp only [Pwc.inTransition, Bool.or_eq_false_iff, beq_eq_false_iff_ne] at h
    obtain ⟨⟨⟨-, entering⟩, waking⟩, -⟩ := h
    have idle : ¬ (s.pwc.step = .enterScan ∨ s.pwc.step = .enterDrain ∨ s.pwc.step = .enterRefresh) :=
      fun h => entering (steps h)
    refine State.restful_of_awake ?_ fun h => (idle (.inl h)).elim
    simpa [Pwc.resting, awake rfl, waking] using not_or.mp (not_or.mp idle).2

theorem judgePart_kept (bytes : List Byte) (s : State) : s.Keeps true (judgePart bytes s).2 := by
  unfold judgePart
  split
  · exact .refl s
  · exact .refl s
  · split
    · exact .refl s
    next h => exact softReset_kept (by simpa using h)

/-! ### Arms and live words -/

theorem judge_kept (k : RecordKind) (bytes : List Byte) (s : State) : s.Keeps true (judge k bytes s).2 := by
  cases k with
  | region n => exact judgeRegion_kept n bytes s
  | surface n => exact judgeSurface_kept n bytes s
  | timing => exact (judgeTiming_event bytes s).keeps
  | present _ => exact judgePresent_kept bytes s
  | channel n => exact (judgeChannel_event n bytes s).keeps
  | rule n => exact (judgeRule_event n bytes s).keeps
  | sensorRing n => exact (judgeSensorRing_event n bytes s).keeps
  | audioRing n => exact (judgeAudioRing_event n bytes s).keeps
  | audioOut => exact (judgeAudioOut_event bytes s).keeps
  | messageRing => exact (judgeMessageRing_event bytes s).keeps
  | messageSlot n => exact (judgeMessageSlot_event n bytes s).keeps
  | trigger => exact (judgeTrigger_event bytes s).keeps
  | beacon n => exact (judgeBeacon_event n bytes s).keeps
  | time => exact judgeTime_kept bytes s
  | power => exact judgePower_kept bytes s
  | event => exact judgeEvent_kept bytes s
  | part => exact judgePart_kept bytes s

theorem submit_kept (k : RecordKind) (seq : U32) (s : State) : s.Keeps true (submit k seq s) :=
  .after (drain_event _).keeps (.after (onPu_kept id) (.after (judge_kept ..) (onPu_kept id)))

theorem submitIfArmed_kept (bytes : List (Nat × Byte)) (s : State) (k : RecordKind) :
    s.Keeps true (submitIfArmed bytes s k) := by
  unfold submitIfArmed
  split
  · exact .ite (fun _ => .refl s) fun _ => submit_kept ..
  · exact .refl s

theorem liveAct_kept {b : Bool} (w : LiveWord) (v : U32) (s : State) : s.Keeps b (liveAct w v s) := by
  cases w with
  | fence n => exact .of_st (fenceWrite_sound n v s) (by simp [liveAct]) (by simp [liveAct])
  | sensorConsume n => exact .ite (fun _ => (onSh_event _ s).keeps) fun _ => badIndex_kept ..
  | ring1Produce => exact .ite (fun _ => (onRing_event ..).keeps) fun _ => badIndex_kept ..
  | ring2Consume => exact .ite (fun _ => (onRing_event ..).keeps) fun _ => badIndex_kept ..
  | messageConsume => exact .ite (fun _ => (onTc_event rfl rfl rfl rfl).keeps) fun _ => badIndex_kept ..

theorem planWrite_kept (offset : Nat) (bytes : List (Nat × Byte)) (s : State) :
    s.Keeps true (planWrite offset bytes s) :=
  .after (foldl_kept (submitIfArmed_kept bytes) _ _)
    (.after (foldl_kept (fun s w => liveAct_kept w _ s) _ _) (onPu_kept fun h => Memory.wf_writeAll h ..))

/-! ### Transactions -/

theorem passWrite_kept {b : Bool} (line : Nat) (bytes : List (Nat × Byte)) (s : State) :
    s.Keeps b (passWrite line bytes s) :=
  .ite (fun _ => .after (memoryError_kept ..) (onRm_kept ..)) fun _ => (request_event ..).keeps

theorem countDrop_kept {b : Bool} (n : Fin 32) (s : State) : s.Keeps b (countDrop n s) := onRm_kept ..

theorem giveAnswers_kept {b : Bool} (s : State) : s.Keeps b (giveAnswers s) := .of_looked rfl (Nat.le_refl _)

theorem answerNow_kept {b : Bool} (line : List Byte) (s : State) : s.Keeps b (answerNow line s) :=
  .after (giveAnswers_kept _) (.after (onHmp_kept rfl) (fresh_event s).keeps)

theorem answerRead_kept {b : Bool} (id : Nat) (line : List Byte) (s : State) : s.Keeps b (answerRead id line s) :=
  .after (giveAnswers_kept _) (onHmp_kept rfl)

theorem passRead_kept {b : Bool} (line : Nat) (s : State) : s.Keeps b (passRead line s) :=
  .ite (fun _ => answerNow_kept ..) fun _ =>
    .after (request_event ..).keeps (.after (onHmp_kept rfl) (fresh_event s).keeps)

theorem takeWrite_kept (line : Nat) (bytes : List (Nat × Byte)) (s : State) :
    s.Keeps true (takeWrite line bytes s) := by
  have requested : s.Keeps true (request .hostWrite line (.write bytes) s) := (request_event ..).keeps
  unfold takeWrite
  split
  · exact .after (planWrite_kept ..) requested
  · exact requested
  · exact onRm_kept ..
  next n _ =>
    have observed (u : State) : u.Keeps true (observedWrite n (64 * line) u) :=
      .of_st (observedWrite_sound n _ u) (by simp) (by simp)
    exact .ite (fun _ => passWrite_kept ..) fun _ => .after (observed _) (passWrite_kept ..)
  · exact .after (drain_event _).keeps (.after (passWrite_kept ..) (pulse_event ..).keeps)
  · exact countDrop_kept ..
  · exact .after (memoryError_kept ..) (countDrop_kept ..)
  · exact passWrite_kept ..

theorem readStatus_kept {b : Bool} (page : Nat) (s : State) : s.Keeps b (readStatus page s) :=
  .after (answerNow_kept ..) (.ite (fun _ => .of_looked rfl (Nat.le_refl _)) fun _ => .refl s)

theorem takeRead_kept {b : Bool} (line : Nat) (s : State) : s.Keeps b (takeRead line s) := by
  unfold takeRead
  split
  · exact readStatus_kept ..
  · exact answerNow_kept ..
  · exact passRead_kept ..

theorem takeTx_kept (tx : HostTx) (s : State) : s.Keeps true (takeTx tx s) := by
  cases tx with
  | read line => exact takeRead_kept ..
  | write line data enables => exact takeWrite_kept ..

/-- Where the port does not hold, the part is not at rest, so that the invariant of STANDBY is that of the other states. -/
theorem State.Keeps.asleep {s t : State} (h : s.Keeps true t) (open_ : s.hmp.hold ≠ .standby) : s.Keeps false t := by
  refine ⟨h.canonical, h.bounded, h.agree, fun ⟨sound, _⟩ => ?_⟩
  have awake : s.pwc.state ≠ .standby := fun e =>
    open_ ((State.atRest_iff s).mp (sound.1 (by simp [Pwc.resting, e]))).2.2
  exact ⟨(h.restful ⟨sound, fun _ => awake⟩).1, by simp⟩

theorem holdTx_kept {b : Bool} (tx : HostTx) (s : State) : s.Keeps b (holdTx tx s) := by
  have held : s.Keeps b (s.onHmp fun h => { h with held := some tx }) := onHmp_kept rfl
  exact .ite (fun _ => .after (wakeCause_event ..).keeps held) fun _ => held

theorem pumpUpTo_kept (n : Nat) (s : State) : s.Keeps false (pumpUpTo n s) := by
  induction n generalizing s with
  | zero => exact .refl s
  | succ n ih =>
    unfold pumpUpTo
    split
    · exact .refl s
    · refine .ite (fun _ => .ite (fun _ => .refl s) fun _ => .after (holdTx_kept ..) (onHmp_kept rfl)) fun held => ?_
      refine .ite (fun _ => .refl s) fun _ => .after (ih _) (.after ((takeTx_kept ..).asleep ?_) (onHmp_kept rfl))
      have free := Classical.not_not.mp held
      simp [free]

theorem pump_kept (s : State) : s.Keeps false (pump s) := pumpUpTo_kept ..

theorem hostArrive_kept (tx : HostTx) (s : State) : s.Keeps false (hostArrive tx s) :=
  .ite (fun _ => .after (pump_kept _) (onHmp_kept rfl)) fun _ => .refl s

/-- The hold ends where the part does not rest. -/
theorem endHold_kept {s : State} (awake : s.standbySound → s.pwc.resting = false) : s.Keeps false (endHold s) := by
  refine .after (pump_kept _) ⟨id, id, id, fun ⟨sound, _⟩ => ⟨⟨fun h => ?_, sound.2⟩, by simp⟩⟩
  have resting : s.pwc.resting = true := h
  simp [awake sound] at resting

end Sys2Proof.Machine
end

section
/-!
PROOFS. The commands of the power controller, of time and of the DRAM's completions, and from them what every step keeps.
-/
namespace Sys2Proof.Machine

/-! ### Starting and waking -/

theorem State.mayRun_of_active {s : State} (h : s.pwc.state = .active) : s.mayRun := .inr (by simp [State.mayStart, h])

theorem enterActive_kept {b : Bool} (s : State) : s.Keeps b (enterActive s) :=
  .after (raise_event ..).keeps (.after (onPwc_kept rfl rfl) (setPower_kept rfl (by simp)))

theorem enterActive_pwc (s : State) : (enterActive s).pwc.state = .active ∧ (enterActive s).pwc.step = .none := by
  simp [enterActive, Pwc.onAwake, setPower_pwc]

theorem activeAfterStart_kept {b : Bool} (s : State) : s.Keeps b (activeAfterStart s) := by
  have run := State.mayRun_of_active (enterActive_pwc (s.onPwc fun p => { p with hostReset := false })).1
  exact .after (audioStart_event _).keeps (.after (startScan_event run).keeps
    (.after (enterActive_kept _) (onPwc_kept rfl rfl)))

/-- Presentation is allowed again where the part does not rest. -/
theorem unbar_kept {b : Bool} {s : State} (awake : s.pwc.resting = false) :
    s.Keeps b (s.onSt fun t => { t with barred := false }) := by
  refine ⟨id, id, id, fun ⟨sound, standby⟩ => ⟨⟨fun h => ?_, sound.2⟩, standby⟩⟩
  have resting : s.pwc.resting = true := h
  simp [awake] at resting

/-- Where no slumber begins, the port's hold may end. -/
theorem State.Event.endHold_kept {s t : State} (h : s.Event t) (awake : s.pwc.slumber = false) :
    t.Keeps false (endHold t) := by
  have busy := h.power.busy awake
  rw [Pwc.slumber, Bool.or_eq_false_iff] at busy
  exact Machine.endHold_kept fun _ => busy.1

theorem activeAfterWaking_kept (s : State) : s.Keeps false (activeAfterWaking s) := by
  obtain ⟨state, step⟩ := enterActive_pwc s
  have busy : (enterActive s).pwc.slumber = false := by simp [Pwc.slumber_eq_false_iff, state, step]
  have awake : (enterActive s).pwc.resting = false := by simp [Pwc.resting, state, step]
  have run : ((enterActive s).onSt fun t => { t with barred := false }).mayRun := State.mayRun_of_active state
  have restarted : ((enterActive s).onSt fun t => { t with barred := false }).Event (drain (beaconsResume (audioStart
      (restrictionEnd (holdEnd (startScan ((enterActive s).onSt fun t => { t with barred := false }))))))) :=
    .after (drain_event _) (.after (onTm_event _ _) (.after (audioStart_event _) (.after (restrictionEnd_event _)
      (.after (holdEnd_event _) (startScan_event run)))))
  exact .after (restarted.endHold_kept busy) (.after restarted.keeps (.after (unbar_kept awake) (enterActive_kept s)))

/-- The power controller moves to a step of bringing rails up, which is not one of standby's. -/
theorem onPwc_step_kept {b : Bool} {f : Pwc → Pwc} {s : State} (hs : (f s.pwc).state = s.pwc.state)
    (drain : (f s.pwc).step ≠ .enterDrain) (refresh : (f s.pwc).step ≠ .enterRefresh)
    (scan : (f s.pwc).step ≠ .enterScan) : s.Keeps b (s.onPwc f) := by
  refine ⟨id, id, id, fun ⟨⟨rest, _⟩, awake⟩ => ⟨⟨fun h => ?_, ?_⟩, fun hb => by simpa [hs] using awake hb⟩⟩
  · have resting : s.pwc.resting = true := by
      simp only [State.onPwc_pwc, Pwc.resting, hs, Bool.or_eq_true, beq_iff_eq, drain, refresh, or_false] at h ⊢
      exact .inl (.inl h)
    exact rest resting
  · rintro (h | h | h)
    · exact (scan h).elim
    · exact (drain h).elim
    · exact (refresh h).elim

theorem startPlan_kept {b : Bool} (s : State) : s.Keeps b (startPlan s) :=
  .after (planInitialize_kept ..) (onPwc_step_kept rfl (by simp) (by simp) (by simp))

theorem bringRails_kept (wake : Bool) (l : List Rail) (s : State) : s.Keeps false (bringRails wake l s) := by
  induction l generalizing s with
  | nil => exact .ite (fun _ => activeAfterWaking_kept s) fun _ => startPlan_kept s
  | cons r rest ih =>
    have enabled : s.Keeps false (s.onPwc (Pwc.enable r)) := onPwc_kept rfl rfl
    refine .ite (fun _ => .after (ih _) (.after (onPwc_kept rfl rfl) enabled)) fun _ => .after ?_ enabled
    refine onPwc_step_kept rfl ?_ ?_ ?_
    all_goals cases wake <;> simp

theorem coreReset_kept {sel : Fin 4} {s : State} (awake : s.pwc.resting = false)
    (step : s.pwc.step = .enterScan → s.pwc.state = .enteringStandby) : s.Keeps false (coreReset sel s) := by
  refine .ite (fun _ => .after (startTraining_event _).keeps ?_) fun _ => ?_
  all_goals
    refine ⟨fun _ => ⟨rfl, by exact defaultImage_wf s.pwc.settings 0⟩, fun _ => ?_, fun _ => St.reset_framesAgree _, fun _ => ?_⟩
    · exact ⟨Nat.zero_le _, Nat.zero_le _, Nat.zero_le _, Nat.zero_le _, Tc.reset_historyBounded _, Nat.zero_le _,
        Nat.zero_le _⟩
    · exact State.restful_of_awake awake step

theorem coreSettled_kept {sel : Fin 4} {s : State} (state : s.pwc.state = .starting) (step : s.pwc.step = .startCore) :
    s.Keeps false (coreSettled sel s) :=
  .after (bringRails_kept ..) (coreReset_kept (by simp [Pwc.resting, state, step]) (by simp [step]))

theorem powerGoodRises_kept (r : Rail) (s : State) : s.Keeps false (powerGoodRises r s) := by
  have pins : s.Keeps false (s.onPins fun p => { p with pg := p.pg.set r true }) := onPins_kept ..
  unfold powerGoodRises
  dsimp only
  split
  · exact .ite (fun _ => .after (bringRails_kept ..) (.after (onPwc_kept rfl rfl) pins)) fun _ => pins
  · exact .ite (fun _ => .after (bringRails_kept ..) (.after (onPwc_kept rfl rfl) pins)) fun _ => pins
  · exact pins

theorem railFault_kept {b : Bool} (r : Rail) (s : State) : s.Keeps b (railFault r s) :=
  .ite (fun _ => .refl s) fun _ => .after (beginStopping_kept ..) (onPwc_kept rfl rfl)

theorem powerGoodFalls_kept {b : Bool} (r : Rail) (s : State) : s.Keeps b (powerGoodFalls r s) := by
  have pins : s.Keeps b (s.onPins fun p => { p with pg := p.pg.set r false }) := onPins_kept ..
  unfold powerGoodFalls
  dsimp only
  split
  · exact .ite (fun _ => .after (stopRails_kept ..) (.after (onPwc_kept rfl rfl) pins)) fun _ => pins
  · exact .ite (fun _ => .after (railFault_kept ..) pins) fun _ => pins

theorem railTimerExpired_kept {b : Bool} (s : State) : s.Keeps b (railTimerExpired s) := by
  unfold railTimerExpired
  split
  · exact railFault_kept ..
  · exact railFault_kept ..
  · exact .refl s

theorem railOffExpired_kept {b : Bool} (s : State) : s.Keeps b (railOffExpired s) := by
  unfold railOffExpired
  split
  · exact .after (stopRails_kept ..) (onPwc_kept rfl rfl)
  · exact .refl s

theorem immediateStop_kept {b : Bool} (c : StopCause) (s : State) : s.Keeps b (immediateStop c s) :=
  .ite (fun _ => .refl s) fun _ => .after (enterOff_kept _) (onPwc_kept rfl rfl)

theorem startCause_kept {b : Bool} (c : WakeCause) (s : State) : s.Keeps b (startCause c s) :=
  .ite (fun _ => ⟨id, id, id, fun _ => State.restful_of_awake rfl (by simp)⟩) fun _ => .refl s

theorem buttonPressed_kept {b : Bool} (s : State) : s.Keeps b (buttonPressed s) := by
  have pressed : s.Keeps b (s.onPwc fun p => { p with pressed := true, debounce := none }) := onPwc_kept rfl rfl
  unfold buttonPressed
  dsimp only
  split
  · exact .after (startCause_kept ..) pressed
  · exact .after (raise_event ..).keeps (.after (onPwc_kept rfl rfl) pressed)
  · exact .after (raise_event ..).keeps (.after (onPwc_kept rfl rfl) pressed)
  · exact .after (wakeCause_event ..).keeps pressed
  · exact .after (wakeCause_event ..).keeps pressed
  · exact pressed

theorem mainFalls_kept {b : Bool} (s : State) : s.Keeps b (mainFalls s) := by
  have pins : s.Keeps b (s.onPins fun p => { p with mainOk := false }) := onPins_kept ..
  exact .ite (fun _ => pins) fun _ => .after (immediateStop_kept ..) (.after (onPwc_kept rfl rfl) pins)

theorem mainRises_kept {b : Bool} (s : State) : s.Keeps b (mainRises s) := by
  have pins : s.Keeps b (s.onPins fun p => { p with mainOk := true }) := onPins_kept ..
  exact .ite (fun _ => .after (startCause_kept ..) pins) fun _ => pins

theorem thermalExpired_kept {b : Bool} (s : State) : s.Keeps b (thermalExpired s) :=
  .after (raise_event ..).keeps (onPwc_kept rfl rfl)

/-! ### Standby -/

theorem drainDone_kept {b : Bool} {s : State} (step : s.pwc.step = .enterDrain) : s.Keeps b (drainDone s) := by
  refine .after (onDa_kept rfl rfl) ⟨id, id, id, fun ⟨⟨rest, steps⟩, awake⟩ => ⟨⟨fun _ => ?_, fun _ => ?_⟩, awake⟩⟩
  · exact rest (by simp [Pwc.resting, step])
  · exact steps (.inr (.inl step))

theorem refreshEntered_kept (s : State) : s.Keeps false (refreshEntered s) := by
  have refreshed : s.Keeps false (s.onDa fun d => { d with mode := .selfRefresh }) := onDa_kept rfl rfl
  refine .ite (fun step => ?_) fun _ => refreshed
  have entered (u : State) (step : u.pwc.step = .enterRefresh) :
      u.Keeps false (u.onPwc fun p => { (p.disable .panel).disable .audio with state := .standby, step := .none }) :=
    ⟨id, id, id, fun ⟨⟨rest, _⟩, _⟩ => ⟨⟨fun _ => rest (by simp [Pwc.resting, step]), by simp⟩, by simp⟩⟩
  have frozen := refreshed.trans (onTb_kept (fun t => { t with refresh := false, fresh := false }) _)
  have entered := (frozen.trans (entered _ step)).trans (raise_event .powerChange _).keeps
  have slept := entered.trans (onTm_event (fun t =>
    { t with beacons := vmap Beacon.goIdle t.beacons, beaconsOff := true }) _).keeps
  dsimp only
  split
  · exact .after (beginWaking_event _ rfl).keeps slept
  · exact slept

theorem refreshLeft_kept (s : State) : s.Keeps false (refreshLeft s) := by
  have left : s.Keeps false (s.onDa fun d => { d with mode := .normal }.kick) := onDa_kept (by simp) (by simp)
  exact .ite (fun _ => .after (bringRails_kept ..) left) fun _ => left

/-! ### Time -/

theorem Tc.tick_historyBounded {t : Tc} {n : Nat} (h : t.historyBounded n) : t.tick.historyBounded n := by
  refine h.shrinks (Nat.le_refl n) (fun q hq => ⟨q, hq, rfl⟩) (fun _ => Nat.le_refl _) (fun c e he => ⟨e, he, rfl⟩)
    fun entry read left lines damaged hl => h.2.2.2 entry read left lines damaged ?_
  simp only [Tc.tick] at hl
  cases hlane : t.lane with
  | free => simp [hlane, Lane.tick] at hl
  | reading => simpa [hlane, Lane.tick] using hl
  | sending => simp [hlane, Lane.tick] at hl

theorem tickCore_kept {b : Bool} (s : State) : s.Keeps b (tickCore s) := by
  refine ⟨id, ?_, id, fun ⟨⟨rest, steps⟩, awake⟩ => ⟨⟨fun h => ?_, steps⟩, awake⟩⟩
  · rintro ⟨hq, hr, hp, hu, hh, hs, hc⟩
    exact ⟨hq, hr, hp, hu, Tc.tick_historyBounded hh, hs, hc⟩
  · exact rest h

theorem microsecond_kept {b : Bool} (lows : PinLows) (s : State) : s.Keeps b (microsecond lows s) := by
  have passed : s.Keeps b (((s.onPins (seeLows lows)).onTb (Tb.tick s.coreLive)).onPwc (Pwc.tick lows.button)) :=
    .after (onPwc_kept rfl rfl) (.after (onTb_kept ..) (onPins_kept ..))
  exact .ite (fun _ => .after (tickCore_kept _) passed) fun _ => passed

theorem crossingDone_kept {b : Bool} (a : Adjust) (s : State) : s.Keeps b (crossingDone a s) := by
  have taken : s.Keeps b (s.onTb fun t => { t with now := a.apply t.now, holding := none, taken := t.taken + 1 }) :=
    onTb_kept ..
  refine .ite (fun _ => .after ?_ taken) fun _ => taken
  exact .after (raise_event ..).keeps (.after (onPu_kept id) (onTb_kept ..))

theorem powerOn_kept {b : Bool} (s : State) : s.Keeps b (powerOn s) := by
  refine ⟨fun _ => ⟨rfl, rfl⟩, fun _ => ?_, fun _ => St.reset_framesAgree _, fun _ => ?_⟩
  · exact ⟨Nat.zero_le _, Nat.zero_le _, Nat.zero_le _, Nat.zero_le _, Tc.reset_historyBounded _, Nat.zero_le _,
      Nat.zero_le _⟩
  · exact State.restful_of_awake rfl (by simp [powerOn, State.reset, Pwc.reset])

/-! ### Completions -/

theorem planDone_kept (s : State) : s.Keeps false (planDone s) := by
  have released : s.Keeps false (if s.hmp.hold = .standby then s else endHold s) := by
    refine .ite (fun _ => .refl s) fun hold => endHold_kept fun sound => ?_
    refine Classical.byContradiction fun resting => ?_
    exact hold ((State.atRest_iff s).mp (sound.1 (by simpa using resting))).2.2
  exact .ite (fun _ => .after (activeAfterStart_kept _) released) fun _ => released

theorem imageWriteDone_kept (s : State) : s.Keeps false (imageWriteDone s) := by
  have counted : s.Keeps false (s.onPu fun p => { p with initLeft := p.initLeft - 1 }) := onPu_kept id
  exact .ite (fun _ => .after (planDone_kept _) counted) fun _ => counted

theorem ringWriteDone_event (n : Fin 8) (i : U16) (g : Nat) (s : State) : s.Event (ringWriteDone n i g s) :=
  .ite (fun _ => .refl s) fun _ => onSh_event ..

theorem agentDone_kept (r : Request) (v : Served) (s : State) : s.Keeps false (agentDone r v s) := by
  unfold agentDone
  split
  · exact answerRead_kept ..
  · exact .refl s
  · exact imageWriteDone_kept s
  · exact (bandReadDone_event ..).keeps
  · exact (fetchDone_event ..).keeps
  · exact (captureDone_event ..).keeps
  · exact (State.Event.after (resumeDownlink_event _) (depositWriteDone_event ..)).keeps
  · exact (State.Event.after (resumeDownlink_event _) (entryWriteDone_event ..)).keeps
  · exact (messageReadDone_event ..).keeps
  · exact (ringWriteDone_event ..).keeps
  · exact .refl s

theorem Da.queueScrub_keeps (line : Nat) (d : Da) : (d.queueScrub line).captures = d.captures ∧
    (d.scrubs.length ≤ 8 → (d.queueScrub line).scrubs.length ≤ 8) := by
  unfold Da.queueScrub
  split
  · exact ⟨rfl, id⟩
  split
  next room =>
    refine ⟨by simp, fun _ => ?_⟩
    simp only [Da.join_errors, List.length_append, List.length_singleton]
    omega
  · exact ⟨rfl, id⟩

/-- A change of memory and DRAM that keeps their form. -/
theorem State.Keeps.of_memory {b : Bool} {s : State} {m : Mem} {d : Da} (wf : Memory.wf s.mem = true → Memory.wf m = true)
    (scrubs : s.da.scrubs.length ≤ 8 → d.scrubs.length ≤ 8) (captures : d.captures = s.da.captures) :
    s.Keeps b { s with mem := m, da := d } := by
  refine ⟨And.imp_left wf, ?_, id, id⟩
  rintro ⟨hq, hr, hp, hu, hh, hs, hc⟩
  exact ⟨hq, hr, hp, hu, hh, scrubs hs, by rwa [captures]⟩

theorem access_kept {b : Bool} (r : Request) (s : State) : s.Keeps b (access r s).2 := by
  unfold access
  split
  · refine .of_memory id ?_ ?_
    all_goals
      dsimp only
      split
    · exact id
    · exact fun h => (Da.queueScrub_keeps ..).2 h
    · rfl
    · exact (Da.queueScrub_keeps ..).1
  · exact .refl s
  · exact .of_memory (fun h => Memory.wf_writeAll (Memory.wf_writeAll h ..) ..) id rfl
  · exact .of_memory id (fun h => Nat.le_trans (List.length_filter_le ..) h) rfl

theorem finishService_kept (r : Request) (ecc : EccReport) (s : State) : s.Keeps false (finishService r ecc s) := by
  have reported : s.Keeps false (reportErrors r ecc s) := .ite (fun _ => .refl s) fun _ => onDa_kept rfl rfl
  have served := State.Keeps.after (access_kept r (reportErrors r ecc s)) reported
  refine .after (drain_event _).keeps (.after (pump_kept _) (.after (onDa_kept (by simp) (by simp))
    (.after (agentDone_kept ..) (.after (onDa_kept rfl rfl) ?_))))
  exact .ite (fun _ => .after (memoryError_kept ..) served) fun _ => served

end Sys2Proof.Machine
end

section
/-!
PROOFS. The invariants of every step, and what the step, power-on reset and the DRAM's completions answer.
-/
namespace Sys2Proof.Machine

/-! ### The DRAM's completion commands -/

/-- The DRAM completion commands (R160). -/
def completionCommand : Instr → Bool
  | .planInitializationComplete _ => true
  | .hostReadComplete _ => true
  | .hostWriteComplete _ => true
  | .scrubComplete _ => true
  | .bandReadComplete _ => true
  | .sensorRingWriteComplete _ => true
  | .depositWriteComplete _ => true
  | .messageEntryWriteComplete _ => true
  | .messageReadComplete _ => true
  | .audioFetchComplete _ => true
  | .captureWriteComplete _ => true
  | _ => false

/-- A completion command completes the request in service if it is one of its own. -/
theorem exec_completion {c : Instr} (hc : completionCommand c = true) (s : State) :
    exec c s = completeService (fun s r => completes s c r.agent) (reportOf c) s := by
  have same {f g : State → Request → Bool} {e : EccReport} (h : ∀ r, f s r = g s r) :
      completeService f e s = completeService g e s := by
    unfold completeService
    simp only [h]
  cases c
  all_goals cases hc
  all_goals
    simp only [exec, execPlanInitializationComplete, execHostReadComplete, execHostWriteComplete, execScrubComplete,
      execBandReadComplete, execSensorRingWriteComplete, execDepositWriteComplete, execMessageEntryWriteComplete,
      execMessageReadComplete, execAudioFetchComplete, execCaptureWriteComplete]
    refine same fun r => ?_
    obtain ⟨agent, line, op⟩ := r
    cases agent <;> rfl

theorem completionCommand_of_completes {s : State} {c : Instr} {a : Agent} (h : completes s c a = true) :
    completionCommand c = true := by
  cases c <;> cases a <;> first | rfl | cases h

/-- Every other command answers a next state. -/
theorem exec_next {c : Instr} (hc : completionCommand c = false) (s : State) : ∃ t, exec c s = .next t := by
  cases c
  all_goals first
    | exact ⟨_, rfl⟩
    | cases hc

theorem completeService_cases (mine : State → Request → Bool) (ecc : EccReport) (s : State) :
    completeService mine ecc s = .next s ∨
    ∃ r, s.da.service = some r ∧ mine s r = true ∧
      (lineLimit ≤ r.line ∧ completeService mine ecc s = .fault .noSuchLine ∨
        r.line < lineLimit ∧ completeService mine ecc s = .next (finishService r ecc s)) := by
  unfold completeService
  cases hs : s.da.service with
  | none => exact .inl rfl
  | some r =>
    by_cases hm : mine s r = true
    · by_cases hl : lineLimit ≤ r.line
      · exact .inr ⟨r, rfl, hm, .inl ⟨hl, by simp [hm, hl]⟩⟩
      · exact .inr ⟨r, rfl, hm, .inr ⟨Nat.lt_of_not_le hl, by simp [hm, hl]⟩⟩
    · simp [hm]

/-- Settles O1, by definition of the step. -/
theorem stepRunsTheFrontCommand : Obligations.StepRunsTheFrontCommand := fun _ _ _ => rfl

/-- Settles O21, from what a completion command is. -/
theorem servicesComplete : Obligations.ServicesComplete := by
  intro c r s service mine line
  rw [exec_completion (completionCommand_of_completes mine)]
  simp [completeService, service, mine, line]

/-- Settles O2: only a completion command can fault, and only over the line in service. -/
theorem onlyAnAbsentLineFaults : Obligations.OnlyAnAbsentLineFaults := by
  intro c s
  cases hc : completionCommand c with
  | false =>
    obtain ⟨t, ht⟩ := exec_next hc s
    simp [ht]
  | true =>
    rw [exec_completion hc]
    rcases completeService_cases (fun s r => completes s c r.agent) (reportOf c) s with h | ⟨r, hs, hm, h | h⟩
    · simp [h]
    · obtain ⟨limit, fault⟩ := h
      rw [fault]
      refine ⟨by simp, fun f hf => ?_, fun inside => absurd (inside r hs) (Nat.not_lt.mpr limit)⟩
      cases hf
      exact ⟨rfl, r, hs, hm, limit⟩
    · simp [h.2]

/-- Settles O4, by evaluation. -/
theorem powerOnResetValues : Obligations.PowerOnResetValues := fun s => ⟨powerOn s, rfl,
  rfl, rfl, rfl, rfl, rfl, rfl, rfl, rfl, rfl, rfl, rfl, rfl, rfl, rfl, rfl, rfl, rfl, rfl, rfl, rfl, rfl, rfl⟩

/-- Settles O60, by evaluation and from the reset values. -/
theorem resetIsSound : Obligations.ResetIsSound := by
  have kept := powerOn_kept (b := false) State.reset
  have standby : State.reset.restful false := State.restful_of_awake rfl (by simp [State.reset, Pwc.reset])
  refine ⟨⟨rfl, rfl⟩, ?_, St.reset_framesAgree _, standby.1, rfl, rfl, rfl, fun s h => ?_⟩
  · exact ⟨Nat.zero_le _, Nat.zero_le _, Nat.zero_le _, Nat.zero_le _, Tc.reset_historyBounded _, Nat.zero_le _,
      Nat.zero_le _⟩
  · simp [step, h]

/-! ### What every command keeps -/

/-- A command that acts only when its moment has come, and is followed by the deliveries of the trigger matrix. -/
theorem State.Keeps.drain {b : Bool} {s t : State} (h : s.Keeps b t) : s.Keeps b (Machine.drain t) :=
  .after (drain_event _).keeps h

theorem State.EventFrom.keeps {b : Bool} {s t : State} {pins : Bool} (h : s.EventFrom t pins) : s.Keeps b t := by
  obtain ⟨p, event, -⟩ := h
  exact .after event.keeps (onPins_kept (fun _ => p) s)

theorem exec_completion_kept {c : Instr} (hc : completionCommand c = true) {s t : State} (h : exec c s = .next t) :
    s.Keeps false t := by
  rw [exec_completion hc] at h
  rcases completeService_cases (fun s r => completes s c r.agent) (reportOf c) s with k | ⟨r, -, -, k | k⟩
  · obtain rfl := Host.Outcome.next.inj (k.symm.trans h)
    exact .refl s
  · cases k.2.symm.trans h
  · obtain rfl := Host.Outcome.next.inj (k.2.symm.trans h)
    exact finishService_kept ..

/-- Every command keeps the invariants of every step. -/
theorem exec_kept (c : Instr) (s t : State) (h : exec c s = .next t) : s.Keeps false t := by
  cases hevent : eventCommand c with
  | true => exact (exec_event c s t hevent h).keeps
  | false =>
  cases hcompletion : completionCommand c with
  | true => exact exec_completion_kept hcompletion h
  | false =>
  have stay {p : Prop} [Decidable p] {u : State} (k : p → s.Keeps false u) : s.Keeps false (if p then u else s) :=
    .ite k fun _ => .refl s
  cases c
  all_goals first
    | exact Bool.noConfusion (show true = false from hevent)
    | exact Bool.noConfusion (show true = false from hcompletion)
    | skip
  all_goals
    replace h := Host.Outcome.next.inj h
    subst h
  case powerOnReset => exact powerOn_kept s
  case coreSupplySettled sel => exact stay fun now => (coreSettled_kept now.1 now.2).drain
  case railPowerGoodRise r => exact .ite (fun _ => .refl s) fun _ => (powerGoodRises_kept r s).drain
  case railBringUpTimerExpiry => exact stay fun _ => (railTimerExpired_kept s).drain
  case railPowerGoodFall r => exact stay fun _ => (powerGoodFalls_kept r s).drain
  case railOffTimerExpiry => exact stay fun _ => (railOffExpired_kept s).drain
  case buttonPress => exact stay fun _ => (buttonPressed_kept s).drain
  case buttonRelease => exact stay fun _ => onPwc_kept rfl rfl
  case buttonOverrideExpiry => exact stay fun _ => (immediateStop_kept _ s).drain
  case thermAlertAssertion => exact .ite (fun _ => .refl s) fun _ => .after (alertAsserts_kept _) (onPins_kept ..)
  case thermAlertDeassertion => exact stay fun _ => (State.Keeps.after (alertDeasserts_kept _) (onPins_kept ..)).drain
  case thermalTimerExpiry => exact stay fun _ => (thermalExpired_kept s).drain
  case thermCritAssertion => exact .after (immediateStop_kept ..) (onPins_kept ..)
  case mainOkFall => exact stay fun _ => mainFalls_kept s
  case mainOkRise => exact .ite (fun _ => .refl s) fun _ => mainRises_kept s
  case dramDrainComplete => exact stay fun now => drainDone_kept now.1
  case selfRefreshEntered => exact stay fun _ => (refreshEntered_kept s).drain
  case selfRefreshExitComplete => exact stay fun _ => (refreshLeft_kept s).drain
  case freshRead => exact stay fun _ => hostArrive_kept ..
  case heldTransaction => exact .ite (fun _ => .refl s) fun _ => hostArrive_kept ..
  case microsecondStep lows => exact microsecond_kept lows s
  case deviceTimeWrap lows => exact stay fun _ => microsecond_kept lows s
  case timeCrossingComplete =>
    split
    · exact stay fun _ => crossingDone_kept ..
    · exact .refl s
  all_goals exact hostArrive_kept ..

theorem step_kept {s t : State} (h : step s = .next t) : s.Keeps false t := by
  unfold step at h
  split at h
  · obtain rfl := Host.Outcome.next.inj h
    exact .refl s
  · have popped (rest : List Instr) : s.Keeps false { s with pending := rest } := .of_looked rfl (Nat.le_refl _)
    exact (popped _).trans (exec_kept _ _ _ h)

/-- Settles O57, from what every command keeps. -/
theorem memoryAndListsStayWellFormed : Obligations.MemoryAndListsStayWellFormed := fun _ _ h =>
  ⟨(step_kept h).canonical, (step_kept h).bounded⟩

/-- Settles O58, from what every command keeps. -/
theorem framesAndSurfacesAgree : Obligations.FramesAndSurfacesAgree := fun _ _ h => (step_kept h).agree

/-- Settles O59, from what every command keeps. -/
theorem standbyIsAtRest : Obligations.StandbyIsAtRest := fun _ _ h sound =>
  ((step_kept h).restful ⟨sound, by simp⟩).1

/-! ### A write whose bytes lie outside of its line -/

/-- A request to write byte 64 of line 0 is in service; its byte is the first one of line 1. -/
def straddling : State :=
  { State.reset with da := { Da.reset with service := some ⟨.hostWrite, 0, .write [(64, 1)]⟩ } }

/-- Refutes O55: in a state whose request in service enables a byte beyond its line, the completion changes memory outside
of that line. -/
theorem not_queuePinsTimeAndMemory : ¬ Obligations.QueuePinsTimeAndMemory := by
  intro h
  have served : exec (.hostWriteComplete []) straddling =
      .next (finishService ⟨.hostWrite, 0, .write [(64, 1)]⟩ [] straddling) :=
    servicesComplete _ _ _ rfl rfl (by decide)
  have byte : (finishService ⟨.hostWrite, 0, .write [(64, 1)]⟩ [] straddling).mem.read 64 = 1 := by decide
  have changed := (h _ _ _ served).2.2.2 64 (by rw [byte]; decide)
  rcases changed with ⟨lost, -⟩ | ⟨r, bytes, service, -, -, line⟩
  · rw [lost] at byte
    cases byte
  · cases service
    cases line

end Sys2Proof.Machine
end

section
/-!
PROOFS. What the trigger matrix delivers (R126 to R128), and what delivery leaves alone.
-/
namespace Sys2Proof.Machine

/-! ### One record's entry of the outcome table -/

theorem RecordKind.index_injective {k j : RecordKind} (h : k.index = j.index) : k = j := by
  have distinct : ∀ k ∈ allRecords, ∀ j ∈ allRecords, k.index = j.index → k = j := by decide +kernel
  exact distinct k (mem_allRecords k) j (mem_allRecords j) h

theorem Pu.enter_table_ne {k j : RecordKind} (h : j ≠ k) (o : Outcome) (p : Pu) :
    vget (p.enter k o).table j.index = vget p.table j.index :=
  vget_vmod_ne _ _ fun same => h (RecordKind.index_injective same).symm

/-! ### What delivery leaves -/

/-- What delivery leaves in every state: of the power controller all but its step. -/
@[simp] def State.undelivered (s : State) :=
  ((s.pending, s.pins, s.mem, s.rm, s.da, s.tb), (s.pu.shadow, s.pu.sel, s.generation, s.nextId, s.free, s.tc.link),
    { s.pwc with step := .none })

/-- What delivery leaves too, unless the power controller waits for the scan-out. -/
@[simp] def State.unasked (s : State) := (s.pwc, s.hmp, s.tc, s.au)

/-- A record's entry from then on: the sequence stands, and an outcome once given is followed by others alone. -/
def OutcomeEntry.Stays (e f : OutcomeEntry) : Prop := f.lastSeen = e.lastSeen ∧ (e.outcome ≠ .none → f.outcome ≠ .none)

theorem OutcomeEntry.Stays.of_eq {e f : OutcomeEntry} (h : f = e) : e.Stays f := by
  rw [h]
  exact ⟨rfl, id⟩

theorem OutcomeEntry.Stays.trans {e f g : OutcomeEntry} (h : e.Stays f) (k : f.Stays g) : e.Stays g :=
  ⟨k.1.trans h.1, k.2 ∘ h.2⟩

/-- From one state to another as the deliveries of the trigger matrix change it. -/
structure State.Delivers (s t : State) : Prop where
  always : t.undelivered = s.undelivered
  unasked : s.pwc.step ≠ .enterScan → t.unasked = s.unasked
  events : ∀ k, s.pendingEvent k = true → t.pendingEvent k = true
  entries : ∀ k, k ≠ .timing → t.entry k = s.entry k
  timing : (s.entry .timing).Stays (t.entry .timing)

theorem State.Delivers.refl (s : State) : s.Delivers s := ⟨rfl, fun _ => rfl, fun _ => id, fun _ _ => rfl, .of_eq rfl⟩

theorem State.Delivers.trans {s t u : State} (h : s.Delivers t) (k : t.Delivers u) : s.Delivers u := by
  refine ⟨k.always.trans h.always, fun step => ?_, fun e => k.events e ∘ h.events e,
    fun r other => (k.entries r other).trans (h.entries r other), h.timing.trans k.timing⟩
  have first := h.unasked step
  have pwc : t.pwc = s.pwc := congrArg (·.1) first
  exact (k.unasked (by rwa [pwc])).trans first

/-- A step after those so far. -/
theorem State.Delivers.after {s t u : State} (k : t.Delivers u) (h : s.Delivers t) : s.Delivers u := h.trans k

theorem State.Delivers.ite {c : Prop} [Decidable c] {s t u : State} (h : c → s.Delivers t) (k : ¬ c → s.Delivers u) :
    s.Delivers (if c then t else u) := by
  split
  next hc => exact h hc
  next hc => exact k hc

/-- A change that raises no event and leaves what delivery leaves. -/
theorem State.Delivers.of_same {s t : State} (always : t.undelivered = s.undelivered) (unasked : t.unasked = s.unasked)
    (events : t.eu = s.eu) (entries : t.pu.table = s.pu.table) : s.Delivers t :=
  ⟨always, fun _ => unasked, fun k h => by rwa [State.pendingEvent, events], fun _ _ => by rw [State.entry, entries]; rfl,
    .of_eq (by rw [State.entry, entries]; rfl)⟩

theorem raise_pendingEvent_of (k j : EventKind) (s : State) (h : s.pendingEvent j = true) :
    (raise k s).pendingEvent j = true := by
  rw [State.pendingEvent, raise_pending, ← State.pendingEvent, h, Bool.or_true]

theorem raise_delivers (k : EventKind) (s : State) : s.Delivers (raise k s) :=
  ⟨by simp, fun _ => by simp, fun j h => raise_pendingEvent_of k j s h, fun _ _ => by simp [State.entry],
    .of_eq (by simp [State.entry])⟩

theorem onSo_delivers (f : So → So) (s : State) : s.Delivers (s.onSo f) := .of_same rfl rfl rfl rfl

theorem onTm_delivers (f : Tm → Tm) (s : State) : s.Delivers (s.onTm f) := .of_same rfl rfl rfl rfl

theorem onSh_delivers (f : Sh → Sh) (s : State) : s.Delivers (s.onSh f) := .of_same rfl rfl rfl rfl

theorem onChannel_delivers (n : Fin 4) (f : Channel → Channel) (s : State) : s.Delivers (s.onChannel n f) :=
  .of_same rfl rfl rfl rfl

theorem pulse_delivers (p : Fin 26) (s : State) : s.Delivers (pulse p s) := .of_same rfl rfl rfl rfl

theorem emit_delivers (o : Output) (s : State) : s.Delivers (s.emit o) := .of_same rfl rfl rfl rfl

theorem cutCheck_delivers (s : State) : s.Delivers (cutCheck s) :=
  .ite (fun _ => onSo_delivers ..) fun _ => .refl s

theorem killEvent_delivers (s : State) : s.Delivers (killEvent s) := .after (cutCheck_delivers _) (onSo_delivers ..)

theorem takePending_delivers (t : TimingSet) (s : State) : s.Delivers (takePending t s) := by
  have finished (u : State) : u.Delivers (u.onPu (Pu.finish .timing .taken)) :=
    ⟨rfl, fun _ => rfl, fun _ => id, fun _ other => Pu.enter_table_ne other ..,
      by constructor <;> simp [State.entry, Pu.finish, Pu.enter]⟩
  exact .after (finished _) (.after (raise_delivers ..) (.after (onSo_delivers ..) (onSo_delivers ..)))

theorem reload_delivers (s : State) : s.Delivers (reload s) := by
  unfold reload
  split
  · exact .refl s
  · exact takePending_delivers ..
  · exact onSo_delivers ..

@[simp] theorem restrictionBegin_link (s : State) : (restrictionBegin s).tc.link = s.tc.link := rfl

theorem standbySteps_delivers {s : State} (h : s.pwc.step = .enterScan) : s.Delivers (standbySteps s) := by
  refine ⟨?_, fun k => absurd h k, fun k => ?_, fun k _ => by simp [State.entry, standbySteps],
    .of_eq (by simp [State.entry, standbySteps])⟩
  · have pwc : (standbySteps s).pwc = { s.pwc with step := .enterDrain } := by simp [standbySteps]
    have link : (standbySteps s).tc.link = s.tc.link := by simp [standbySteps]
    simp [pwc, link]
  · have eu : (standbySteps s).eu = s.eu := by simp
    rw [State.pendingEvent, State.pendingEvent, eu]
    exact id

theorem stopAndAnswer_delivers (s : State) : s.Delivers (stopAndAnswer s) := by
  refine .ite (fun asked => ?_) fun _ => onSo_delivers ..
  rw [Bool.and_eq_true, beq_iff_eq] at asked
  exact .after (standbySteps_delivers asked.2) (onSo_delivers ..)

theorem stopPoint_delivers (s : State) : s.Delivers (stopPoint s) := by
  unfold stopPoint
  refine .after (stopAndAnswer_delivers _) ?_
  split
  · exact takePending_delivers ..
  · exact .refl s

theorem stChange_delivers (f : St → St) (s : State) : s.Delivers (s.stChange f) := .of_same rfl rfl rfl rfl

theorem boundaryDecision_delivers (b : Stamp) (s : State) : s.Delivers (boundaryDecision b s) := by
  have asked (c : Bool) (k : EventKind) (u : State) : u.Delivers (u.when c (raise k)) := by
    cases c
    · exact .refl u
    · exact raise_delivers k u
  unfold boundaryDecision
  split
  · exact .after (raise_delivers ..) (.after (pulse_delivers ..) (.after (asked ..) (stChange_delivers ..)))
  split
  · exact .after (raise_delivers ..) (stChange_delivers ..)
  · exact .refl s

theorem beginBands_delivers (s : State) : s.Delivers (beginBands s) := by
  have started : s.Delivers ((s.emit (.panelStart .left s.so.applied.level)).emit (.panelStart .right s.so.applied.level)) :=
    .after (emit_delivers ..) (emit_delivers ..)
  unfold beginBands
  dsimp only
  split
  · exact .after (onSo_delivers ..) started
  · exact .after (emit_delivers ..) (.after (emit_delivers ..) (.after (onSo_delivers ..) started))

theorem frameBoundary_delivers (byTrigger : Bool) (s : State) : s.Delivers (frameBoundary byTrigger s) := by
  have reloaded : s.Delivers (reload (s.onSo fun o => { o.nextFrame with lastBoundary := s.tb.now })) :=
    .after (reload_delivers _) (onSo_delivers ..)
  refine .ite (fun _ => ?_) fun _ => ?_
  · exact .after (stopAndAnswer_delivers _) (.after (pulse_delivers ..) reloaded)
  · exact .after (beginBands_delivers _) (.after (boundaryDecision_delivers ..) (.after (pulse_delivers ..)
      (.after (onSo_delivers ..) reloaded)))

theorem boundaryMoment_delivers (byTrigger : Bool) (s : State) : s.Delivers (boundaryMoment byTrigger s) :=
  .ite (fun _ => stopPoint_delivers s) fun _ => frameBoundary_delivers byTrigger s

theorem acceptTrigger_delivers (s : State) : s.Delivers (acceptTrigger s) :=
  .after (boundaryMoment_delivers true _) (onSo_delivers ..)

theorem frameStartEvent_delivers (s : State) : s.Delivers (frameStartEvent s) := by
  refine .ite (fun _ => .refl s) fun _ => ?_
  split
  · exact .refl s
  · exact acceptTrigger_delivers s
  · exact .ite (fun _ => acceptTrigger_delivers s) fun _ => onSo_delivers ..

theorem becomeDue_delivers (n : Fin 4) (s : State) : s.Delivers (becomeDue n s) := by
  simp only [becomeDue]
  split
  · exact .refl s
  split
  · exact .after (pulse_delivers ..) (onChannel_delivers ..)
  · exact onChannel_delivers ..

theorem beaconEvent_delivers (n : Fin 2) (s : State) : s.Delivers (beaconEvent n s) :=
  .ite (fun _ => .refl s) fun _ => onTm_delivers ..

theorem channelEvent_delivers (n : Fin 4) (s : State) : s.Delivers (channelEvent n s) :=
  .ite (fun _ => becomeDue_delivers n s) fun _ => .refl s

theorem deliver_delivers (n : Fin 8) (s : State) : s.Delivers (deliver n s) := by
  unfold deliver
  split
  · exact frameStartEvent_delivers s
  · exact killEvent_delivers s
  · exact channelEvent_delivers ..
  · exact channelEvent_delivers ..
  · exact channelEvent_delivers ..
  · exact channelEvent_delivers ..
  · exact beaconEvent_delivers ..
  · exact beaconEvent_delivers ..

theorem foldl_delivers {α : Type} {f : State → α → State} (h : ∀ (s : State) a, s.Delivers (f s a)) (l : List α)
    (s : State) : s.Delivers (l.foldl f s) := by
  induction l generalizing s with
  | nil => exact .refl s
  | cons a r ih => exact (h s a).trans (ih _)

theorem deliverPulse_delivers (p : Fin 26) (s : State) : s.Delivers (deliverPulse p s) :=
  .after (foldl_delivers (fun s n => .ite (fun _ => deliver_delivers n s) fun _ => .refl s) _ _) (onTm_delivers ..)

theorem seeChange_delivers (n : Fin 8) (s : State) : s.Delivers (seeChange n s) :=
  .ite (fun _ => .after (deliver_delivers ..) (onTm_delivers ..)) fun _ => onTm_delivers ..

theorem giveBus_delivers (s : State) : s.Delivers (giveBus s) := by
  simp only [giveBus]
  repeat' split
  · exact .refl s
  · exact .after (emit_delivers ..) (onSh_delivers ..)
  · exact .refl s

theorem drainOnce_delivers {s t : State} (h : drainOnce s = some t) : s.Delivers t := by
  unfold drainOnce at h
  split at h
  · obtain rfl := Option.some.inj h
    exact .after (deliverPulse_delivers ..) (onTm_delivers ..)
  split at h
  · obtain rfl := Option.some.inj h
    exact seeChange_delivers ..
  split at h
  · obtain rfl := Option.some.inj h
    exact acceptTrigger_delivers s
  split at h
  · obtain rfl := Option.some.inj h
    exact becomeDue_delivers ..
  split at h
  · obtain rfl := Option.some.inj h
    exact onTm_delivers ..
  split at h
  · obtain rfl := Option.some.inj h
    exact giveBus_delivers s
  · cases h

theorem drainUpTo_delivers (n : Nat) (s : State) : s.Delivers (drainUpTo n s) := by
  induction n generalizing s with
  | zero => exact .refl s
  | succ n ih =>
    unfold drainUpTo
    split
    next t h => exact (drainOnce_delivers h).trans (ih t)
    · exact .refl s

theorem drain_delivers (s : State) : s.Delivers (drain s) :=
  .ite (fun _ => .after (cutCheck_delivers _) (drainUpTo_delivers 64 s)) fun _ => .refl s

theorem State.Delivers.stays {s t : State} (h : s.Delivers t) (k : RecordKind) : (s.entry k).Stays (t.entry k) := by
  by_cases timing : k = .timing
  · subst timing
    exact h.timing
  · exact .of_eq (h.entries k timing)

end Sys2Proof.Machine
end

section
/-!
PROOFS. The order of the deliveries and what each event does (R126 to R128, R130, R131).
-/
namespace Sys2Proof.Machine

/-! ### The consumers' selections -/

@[simp] theorem pulse_consumers (p : Fin 26) (s : State) : (pulse p s).tm.consumers = s.tm.consumers := rfl

@[simp] theorem frameBoundary_consumers (b : Bool) (s : State) :
    (frameBoundary b s).tm.consumers = s.tm.consumers := by
  have decided (b : Stamp) (s : State) : (boundaryDecision b s).tm.consumers = s.tm.consumers := by
    simp only [boundaryDecision, State.when]
    repeat' split
    all_goals simp
  simp only [frameBoundary]
  split <;> simp [decided]

@[simp] theorem acceptTrigger_consumers (s : State) : (acceptTrigger s).tm.consumers = s.tm.consumers := by
  simp only [acceptTrigger, boundaryMoment]
  split <;> simp

@[simp] theorem becomeDue_consumers (n : Fin 4) (s : State) : (becomeDue n s).tm.consumers = s.tm.consumers := by
  simp only [becomeDue]
  repeat' split
  all_goals simp

/-- An event changes no consumer's selection. -/
theorem deliver_consumers (n : Fin 8) (s : State) : (deliver n s).tm.consumers = s.tm.consumers := by
  have start (s : State) : (frameStartEvent s).tm.consumers = s.tm.consumers := by
    unfold frameStartEvent
    repeat' split
    all_goals simp
  have channel (m : Fin 4) (s : State) : (channelEvent m s).tm.consumers = s.tm.consumers := by
    unfold channelEvent
    split <;> simp
  have beacon (m : Fin 2) (s : State) : (beaconEvent m s).tm.consumers = s.tm.consumers := by
    unfold beaconEvent
    split <;> rfl
  unfold deliver
  split
  all_goals simp [start, channel, beacon]

/-- A pulse gives its events to the consumers that select it, whatever the events before them did. -/
theorem deliverPulse_eq (p : Fin 26) (s : State) : deliverPulse p s =
    ((List.finRange 8).filter fun n => (s.consumer n).source = p ∧ (s.consumer n).mode ≠ .level).foldl
      (fun u n => deliver n u) (s.onTm fun t =>
        { t with outs := vmap (fun o => if o.source = p then { o with follow := some 2 } else o) t.outs }) := by
  have events (l : List (Fin 8)) (u : State) (h : u.tm.consumers = s.tm.consumers) :
      l.foldl (fun u n => if (u.consumer n).source = p ∧ (u.consumer n).mode ≠ .level then deliver n u else u) u =
      (l.filter fun n => (s.consumer n).source = p ∧ (s.consumer n).mode ≠ .level).foldl (fun u n => deliver n u) u := by
    induction l generalizing u with
    | nil => rfl
    | cons n r ih =>
      have same : u.consumer n = s.consumer n := by rw [State.consumer, h, State.consumer]
      by_cases c : (s.consumer n).source = p ∧ (s.consumer n).mode ≠ .level
      · rw [List.foldl_cons, same, if_pos c, ih _ ((deliver_consumers n u).trans h), List.filter_cons_of_pos (by simpa using c),
          List.foldl_cons]
      · rw [List.foldl_cons, same, if_neg c, ih _ h, List.filter_cons_of_neg (by simpa using c)]
  exact events _ _ rfl

/-! ### The order -/

theorem State.changed_eq_none {s : State} (h : ∀ n, s.consumerLevel (s.consumer n) = (s.consumer n).seen) :
    s.changed = none := by
  simp [State.changed, h]

theorem State.exists_changed {s : State} (h : ∃ n, s.consumerLevel (s.consumer n) ≠ (s.consumer n).seen) :
    ∃ n, s.consumerLevel (s.consumer n) ≠ (s.consumer n).seen ∧ s.changed = some n := by
  obtain ⟨n, hn⟩ := h
  cases hc : s.changed with
  | none =>
    simp only [State.changed, List.find?_eq_none] at hc
    exact absurd (hc n (List.mem_append_right _ (List.mem_finRange n))) (by simpa using hn)
  | some m => exact ⟨m, by simpa using List.find?_some hc, rfl⟩

theorem find?_finRange_eq {k : Nat} {p : Fin k → Bool} {n : Fin k} (hn : p n = true) (h : ∀ m, m ≠ n → p m = false) :
    (List.finRange k).find? p = some n := by
  cases hf : (List.finRange k).find? p with
  | none => simp [List.find?_eq_none.mp hf n (List.mem_finRange n)] at hn
  | some m =>
    refine Classical.byContradiction fun ne => ?_
    have found := List.find?_some hf
    rw [h m fun e => ne (by rw [e])] at found
    cases found

theorem levelActive_iff (s : State) (n : Fin 8) : s.levelActive n = true ↔
    (s.consumer n).mode = .level ∧ s.consumerLevel (s.consumer n) = true := by
  simp [State.levelActive]

theorem levelActive_eq_false {s : State} {n : Fin 8}
    (h : ¬ ((s.consumer n).mode = .level ∧ s.consumerLevel (s.consumer n) = true)) : s.levelActive n = false := by
  simpa using (not_congr (levelActive_iff s n)).mpr h

/-- No level has changed and no pulse waits: the blocks that an active level sets off come next. -/
structure State.Still (s : State) : Prop where
  pulses : s.tm.pulses = []
  seen : ∀ n, s.consumerLevel (s.consumer n) = (s.consumer n).seen

theorem drainOnce_start {s : State} (h : s.Still) (active : s.levelActive 0 = true) (ready : s.so.levelReady = true) :
    drainOnce s = some (acceptTrigger s) := by
  simp [drainOnce, h.pulses, State.changed_eq_none h.seen, active, ready]

theorem drainOnce_channel {s : State} {n : Fin 4} (h : s.Still) (idle : s.levelActive 0 = false)
    (first : (List.finRange 4).find? s.levelChannel = some n) : drainOnce s = some (becomeDue n s) := by
  simp [drainOnce, h.pulses, State.changed_eq_none h.seen, idle, first]

theorem drainOnce_beacon {s : State} {n : Fin 2} (h : s.Still) (idle : s.levelActive 0 = false)
    (channels : ∀ m, s.levelChannel m = false) (first : (List.finRange 2).find? s.levelBeacon = some n) :
    drainOnce s = some (s.onBeacon n Beacon.start) := by
  have none_ : (List.finRange 4).find? s.levelChannel = none := List.find?_eq_none.mpr (by simp [channels])
  simp [drainOnce, h.pulses, State.changed_eq_none h.seen, idle, none_, first]

/-! ### The frame boundary that a trigger makes -/

theorem boundaryDecision_so (b : Stamp) (s : State) : (boundaryDecision b s).so = s.so := by simp

/-- A boundary with no pending set, while the applied set has scan enable, begins SCAN. -/
theorem frameBoundary_so {b : Bool} {s : State} (pending : s.so.pendingSet = none)
    (enable : s.so.applied.scanEnable = true) : (frameBoundary b s).so =
      { (So.beginScan b { s.so.nextFrame with lastBoundary := s.tb.now }) with
        schedules := (frameBoundary b s).so.schedules } := by
  have kept : s.so.nextFrame.pendingSet = none := by
    unfold So.nextFrame
    split <;> exact pending
  have reloaded : reload (s.onSo fun o => { o.nextFrame with lastBoundary := s.tb.now }) =
      s.onSo fun o => { o.nextFrame with lastBoundary := s.tb.now } := by
    simp [reload, kept]
  have bands (u : State) : (beginBands u).so = { u.so with schedules := (beginBands u).so.schedules } := by
    unfold beginBands
    dsimp only
    split <;> rfl
  rw [frameBoundary, reloaded, if_neg (by simp [enable])]
  rw [bands]
  simp

theorem So.nextFrame_eq (o : So) : o.nextFrame =
    { o with frameNumber := if o.frameNumber = 0xFFFFFFFF then 0xFFFFFFFF else o.frameNumber + 1
             limitPassed := if o.frameNumber = 0xFFFFFFFF then true else o.limitPassed } := by
  unfold So.nextFrame
  split
  next limit => simp [← limit]
  · rfl

theorem acceptTrigger_so {s : State} (sync : s.so.applied.sync = .triggered) (stop : s.so.stopRequested = false)
    (pending : s.so.pendingSet = none) (enable : s.so.applied.scanEnable = true) :
    let o := (acceptTrigger s).so
    o.state = .running ∧ o.phase = .scan ∧ o.phaseTimer = some s.so.applied.scan ∧
    o.syncTimer = some s.so.applied.lossLimit ∧ o.periodTimer = none ∧ o.sinceBoundary = 0 ∧
    o.lastBoundary = s.tb.now ∧ o.coasting = false ∧ o.byTrigger = true ∧
    o.measured = (if s.so.byTrigger then some s.so.sinceBoundary else s.so.measured) ∧
    o.frameNumber = (if s.so.frameNumber = 0xFFFFFFFF then 0xFFFFFFFF else s.so.frameNumber + 1) := by
  have moment : acceptTrigger s = frameBoundary true (s.onSo So.trigger) := by
    simp [acceptTrigger, boundaryMoment, So.trigger, stop]
  rw [moment, frameBoundary_so (by simpa [So.trigger] using pending) (by simpa [So.trigger] using enable)]
  simp only [State.onSo_so, State.onSo_tb, So.beginScan, So.nextFrame_eq, So.trigger]
  simp [sync]

/-! ### One delivery is all -/

theorem drain_of_quiet {s : State} (h : s.quiet) : drain s = s := by
  obtain ⟨none_, cut⟩ := h
  have still : drainUpTo 64 s = s := by simp [drainUpTo, none_]
  simp [drain, still, cut]

theorem drain_of_drainOnce {s t : State} (live : s.coreLive = true) (once : drainOnce s = some t) (h : t.quiet) :
    drain s = t := by
  obtain ⟨none_, cut⟩ := h
  have still : drainUpTo 64 s = t := by simp [drainUpTo, once, none_]
  rw [drain, if_pos live, still, cut]

/-! ### The events -/

/-- A consumer has seen the level that it now has. -/
def State.sees (n : Fin 8) (s : State) : State :=
  s.onTm fun t => { t with consumers := vset t.consumers n { s.consumer n with seen := s.consumerLevel (s.consumer n) } }

theorem seeChange_eq (n : Fin 8) (s : State) : seeChange n s =
    match (s.consumer n).mode with
    | .rising => if s.consumerLevel (s.consumer n) then deliver n (s.sees n) else s.sees n
    | .falling => if s.consumerLevel (s.consumer n) then s.sees n else deliver n (s.sees n)
    | .both => deliver n (s.sees n)
    | .level => s.sees n := by
  have fires : seeChange n s = if (s.consumer n).mode.fires (s.consumerLevel (s.consumer n)) then deliver n (s.sees n)
      else s.sees n := rfl
  rw [fires]
  generalize s.consumerLevel (s.consumer n) = now
  cases (s.consumer n).mode <;> cases now <;> rfl

theorem deliver_start (s : State) : deliver 0 s = frameStartEvent s := rfl

theorem frameStartEvent_ignored {s : State} (h : s.so.applied.sync = .free ∨ s.so.state = .stopped) :
    frameStartEvent s = s := by
  unfold frameStartEvent
  rcases h with h | h
  · rw [if_pos h]
  · simp [h]

theorem frameStartEvent_early {s : State} (sync : s.so.applied.sync = .triggered) (state : s.so.state = .running)
    (dark : s.so.afterDark = false) : frameStartEvent s = s.onSo fun o => { o with early := o.early + 1 } := by
  simp [frameStartEvent, sync, state, dark]

theorem frameStartEvent_accepted {s : State} (sync : s.so.applied.sync = .triggered)
    (waits : s.so.state = .waiting ∨ s.so.afterDark = true) : frameStartEvent s = acceptTrigger s := by
  rcases waits with state | dark
  · simp [frameStartEvent, sync, state]
  · have state : s.so.state = .running := by
      simp only [So.afterDark, Bool.and_eq_true, beq_iff_eq] at dark
      exact dark.1.1
    simp [frameStartEvent, sync, state, dark]

theorem killEvent_so (s : State) : (killEvent s).so.edgeKill = true ∧ (killEvent s).lit = false := by
  have cut (o : So) : o.cut.edgeKill = o.edgeKill := by
    unfold So.cut
    repeat' split
    all_goals rfl
  have kill : (killEvent s).so.edgeKill = true := by
    unfold killEvent cutCheck
    split
    · exact cut _
    · rfl
  exact ⟨kill, by simp [State.lit, State.killed, kill]⟩

theorem killEvent_dark {s : State} (h : s.so.light = none) :
    killEvent s = s.onSo fun o => { o with edgeKill := true } := by
  simp [killEvent, cutCheck, h]

theorem killEvent_reports {s : State} {old : List Photon} {r : Photon} (lit : s.so.light ≠ none)
    (h : s.so.reports = old ++ [r]) : (killEvent s).so.reports = old ++ [{ r with cut := true }] := by
  have light : s.so.light.isSome = true := Option.isSome_iff_ne_none.mpr lit
  simp only [killEvent, cutCheck, State.killed, State.onSo_so, light, Bool.true_and, Bool.true_or, if_true, So.cut, h,
    List.getLast?_concat]
  split
  next hc => simp [← hc]
  next => simp

theorem becomeDue_of_free {n : Fin 4} {s : State} (state : (s.channel n).state = .running)
    (holder : (s.channel n).holder = none) : becomeDue n s =
      pulse ⟨9 + n.val, by omega⟩ (s.onChannel n fun c => { c with holder := some ⟨s.tb.now, s.so.frameNumber, 0⟩ }) := by
  simp [becomeDue, state, holder]

theorem becomeDue_of_held {n : Fin 4} {s : State} {h : Held} (state : (s.channel n).state = .running)
    (holder : (s.channel n).holder = some h) : becomeDue n s = s.onChannel n fun c =>
      { c with holder := some { h with overrun := sat8 h.overrun }, overruns := c.overruns + 1 } := by
  simp [becomeDue, state, holder]

theorem becomeDue_of_not_running {n : Fin 4} {s : State} (state : (s.channel n).state ≠ .running) : becomeDue n s = s := by
  simp [becomeDue, state]

/-- An event of consumer CHn. -/
theorem deliver_channel (n : Fin 4) (s : State) : deliver ⟨2 + n.val, by omega⟩ s = channelEvent n s := by
  match n with
  | 0 | 1 | 2 | 3 => rfl

/-- An event of consumer BEACONn. -/
theorem deliver_beacon (n : Fin 2) (s : State) : deliver ⟨6 + n.val, by omega⟩ s = beaconEvent n s := by
  match n with
  | 0 | 1 => rfl

@[simp] theorem State.channel_onChannel (n : Fin 4) (f : Channel → Channel) (s : State) :
    (s.onChannel n f).channel n = f (s.channel n) := by
  simp [State.onChannel, State.channel]

theorem channel_event_effect (n : Fin 4) (s : State) :
    let u := deliver ⟨2 + n.val, by omega⟩ s
    let c := s.channel n
    (c.config.mode ≠ .matrix ∨ c.state ≠ .running → u = s) ∧
    (c.config.mode = .matrix → c.state = .running → c.holder = none →
      u.channel n = { c with holder := some ⟨s.tb.now, s.so.frameNumber, 0⟩ } ∧
      u.tm.pulses = s.tm.pulses ++ [⟨9 + n.val, by omega⟩]) ∧
    (∀ h, c.config.mode = .matrix → c.state = .running → c.holder = some h →
      u.channel n = { c with holder := some { h with overrun := if h.overrun = 255 then 255 else h.overrun + 1 },
                             overruns := c.overruns + 1 }) := by
  dsimp only
  rw [deliver_channel]
  refine ⟨fun h => ?_, fun mode state holder => ?_, fun h mode state holder => ?_⟩
  · unfold channelEvent
    split
    next matrix => exact becomeDue_of_not_running (h.resolve_left (Classical.not_not.mpr matrix))
    · rfl
  · rw [channelEvent, if_pos mode, becomeDue_of_free state holder]
    exact ⟨State.channel_onChannel .., rfl⟩
  · rw [channelEvent, if_pos mode, becomeDue_of_held state holder, State.channel_onChannel]
    have sat : sat8 h.overrun = if h.overrun = 255 then 255 else h.overrun + 1 := by
      by_cases e : h.overrun = 255#8 <;> simp [sat8, e]
    rw [sat]

theorem beacon_event_effect (n : Fin 2) (s : State) :
    let u := deliver ⟨6 + n.val, by omega⟩ s
    let b := vget s.tm.beacons n
    let started : Beacon :=
      if b.delay = 0 then { b with state := .pulse, timer := some b.width, pulses := b.pulses + 1 }
      else { b with state := .delay, timer := some b.delay }
    let put (x : Beacon) : State := { s with tm := { s.tm with beacons := vset s.tm.beacons n x } }
    (s.tm.beaconsOff = true → u = s) ∧
    (s.tm.beaconsOff = false → b.state = .idle ∨ b.restart = true → u = put started) ∧
    (s.tm.beaconsOff = false → b.state ≠ .idle → b.restart = false →
      u = put { b with ignored := b.ignored + 1 }) := by
  dsimp only
  rw [deliver_beacon]
  have on (off : s.tm.beaconsOff = false) : beaconEvent n s =
      { s with tm := { s.tm with beacons := vset s.tm.beacons n (vget s.tm.beacons n).event } } := by
    simp [beaconEvent, off, State.onBeacon, State.onTm, vmod]
  refine ⟨fun off => by simp [beaconEvent, off], fun off h => ?_, fun off state restart => ?_⟩
  · have start : (vget s.tm.beacons n).event = (vget s.tm.beacons n).start := by
      unfold Beacon.event
      split
      · rfl
      next other => rw [if_pos (h.resolve_left other)]
    rw [on off, start]
    rfl
  · have ignored : (vget s.tm.beacons n).event =
        { vget s.tm.beacons n with ignored := (vget s.tm.beacons n).ignored + 1 } := by
      unfold Beacon.event
      split
      next idle => exact absurd idle state
      · rw [if_neg (by simp [restart])]
    rw [on off, ignored]

/-- Settles O3, from the order of the deliveries and what each event does. -/
theorem deliveryFrame : Obligations.DeliveryFrame := by
  intro s
  have level {n : Fin 8} : s.levelActive n = true ↔ (s.consumer n).mode = .level ∧ s.consumerLevel (s.consumer n) = true :=
    levelActive_iff s n
  have same := (drain_delivers s).always
  have lasting := (drain_event s).lasting
  simp only [State.undelivered, Prod.mk.injEq, Pwc.mk.injEq] at same
  obtain ⟨⟨pending, pins, mem, rm, da, tb⟩, ⟨shadow, sel, generation, -, -, link⟩, state, -, -, -, -, -, settings, -⟩ := same
  refine ⟨fun t => drain_of_drainOnce, fun p rest h => by simp [drainOnce, h, State.onTm], fun p => deliverPulse_eq p s,
    fun pulses h => ?_, fun n => seeChange_eq n s, fun ⟨pulses, seen⟩ active sync waits => ?_,
    fun n ⟨pulses, seen⟩ others active state mode holder bus => ?_,
    fun n ⟨pulses, seen⟩ others active idle on => ?_, frameStartEvent_ignored,
    frameStartEvent_early, frameStartEvent_accepted, fun sync _ stop pend enable => acceptTrigger_so sync stop pend enable,
    (killEvent_so s).1, (killEvent_so s).2, killEvent_dark, fun old r => killEvent_reports,
    fun n => channel_event_effect n s, fun n => beacon_event_effect n s, pending, pins, mem, rm, da, shadow, sel, tb,
    generation, state, settings, link, drain_of_quiet⟩
  · obtain ⟨n, differs, changed⟩ := State.exists_changed h
    exact ⟨n, differs, by simp [drainOnce, pulses, changed]⟩
  · refine drainOnce_start ⟨pulses, seen⟩ (level.mpr active) ?_
    simpa [So.levelReady, sync] using waits
  · have silent (m : Fin 8) (h : m.val ≠ 2 + n.val) : s.levelActive m = false := levelActive_eq_false (others m h)
    refine drainOnce_channel ⟨pulses, seen⟩ (silent 0 (by simp; omega)) (find?_finRange_eq ?_ fun m hm => ?_)
    · have free : (s.sh.bus.any fun t => t.channel == n) = false := by
        cases hb : s.sh.bus with
        | none => rfl
        | some x => simpa using bus x hb
      simp [State.levelChannel, level.mpr active, state, mode, holder, free]
    · simp [State.levelChannel, silent ⟨2 + m.val, by omega⟩ (by simp; omega)]
  · have silent (m : Fin 8) (h : m.val ≠ 6 + n.val) : s.levelActive m = false := levelActive_eq_false (others m h)
    refine drainOnce_beacon ⟨pulses, seen⟩ (silent 0 (by simp; omega)) (fun m => ?_) (find?_finRange_eq ?_ fun m hm => ?_)
    · simp [State.levelChannel, silent ⟨2 + m.val, by omega⟩ (by simp; omega)]
    · simp [State.levelBeacon, level.mpr active, idle, on]
    · simp [State.levelBeacon, silent ⟨6 + m.val, by omega⟩ (by simp; omega)]

end Sys2Proof.Machine
end

section
/-!
PROOFS. The resets and the power controller's commands (chapter 7).
-/
namespace Sys2Proof.Machine

/-! ### Where nothing is delivered -/

theorem drain_of_not_live {s : State} (h : s.coreLive = false) : drain s = s := by simp [drain, h]

theorem drain_of_off {s : State} (h : s.pwc.state = .off) : drain s = s :=
  drain_of_not_live (by simp [State.coreLive, h])

/-- After a core reset no source changes and no block waits. -/
theorem quiet_of_reset {s : State} (tm : s.tm = Tm.reset) (so : s.so = So.reset) (sh : s.sh = Sh.reset) : s.quiet := by
  have consumer (n : Fin 8) : s.consumer n = ⟨0, false, .rising, false⟩ := by simp [State.consumer, tm, Tm.reset]
  have seen (n : Fin 8) : s.consumerLevel (s.consumer n) = (s.consumer n).seen := by rw [consumer]; rfl
  have level (n : Fin 8) : s.levelActive n = false := by simp [State.levelActive, consumer]
  have changed := State.changed_eq_none seen
  have channels : (List.finRange 4).find? s.levelChannel = none :=
    List.find?_eq_none.mpr (by simp [State.levelChannel, level])
  have beacons : (List.finRange 2).find? s.levelBeacon = none :=
    List.find?_eq_none.mpr (by simp [State.levelBeacon, level])
  have bus : s.sh.waiting = none := by
    rw [sh]
    rfl
  have pulses : s.tm.pulses = [] := by rw [tm]; rfl
  have light : s.so.light = none := by rw [so]; rfl
  refine ⟨?_, by simp [cutCheck, light]⟩
  simp [drainOnce, pulses, changed, level, channels, beacons, bus]

/-! ### Rails -/

@[simp] theorem PerRail.get_set_same (p : PerRail) (r : Rail) (v : Bool) : (p.set r v).get r = v := by cases r <;> rfl

theorem PerRail.get_set_ne {r m : Rail} (h : m ≠ r) (p : PerRail) (v : Bool) : (p.set r v).get m = p.get m := by
  cases r <;> cases m <;> first | rfl | exact absurd rfl h

/-- STOPPING goes on at the first rail whose enable is asserted. -/
theorem stopRails_append {passed after : List Rail} {n : Rail} {s : State}
    (off : ∀ m ∈ passed, s.pwc.enables.get m = false) (on : s.pwc.enables.get n = true) :
    stopRails (passed ++ n :: after) s =
      s.onPwc fun p => { p.disable n with step := .stopRail n after, railTimer := some 10000 } := by
  induction passed with
  | nil => simp [stopRails, on]
  | cons m rest ih =>
    have here := off m (List.mem_cons_self ..)
    simp [stopRails, here, ih fun x hx => off x (List.mem_cons_of_mem _ hx)]

/-- With no enable asserted, STOPPING ends in OFF. -/
theorem stopRails_of_off {l : List Rail} {s : State} (off : ∀ m ∈ l, s.pwc.enables.get m = false) :
    stopRails l s = enterOff s := by
  induction l with
  | nil => rfl
  | cons m rest ih =>
    have here := off m (List.mem_cons_self ..)
    simp [stopRails, here, ih fun x hx => off x (List.mem_cons_of_mem _ hx)]

theorem raise_pendingEvent (k : EventKind) (s : State) : (raise k s).pendingEvent k = true := by
  rw [State.pendingEvent, raise_pending]
  simp

theorem overrideEnds_pwc (s : State) : (overrideEnds s).pwc = { s.pwc with overrideOn := false } := by
  unfold overrideEnds
  split
  · simp
  next h =>
    have off : s.pwc.overrideOn = false := by simpa using h
    rw [← off]

theorem enterOff_pwc (s : State) : (enterOff s).pwc =
    { s.pwc with state := .off, step := .none, enables := PerRail.none, watched := PerRail.none, railTimer := none,
                 hostReset := true, dimCause := .none, keptWake := none, overrideTimer := none, thermalTimer := none,
                 overrideOn := false } := by
  simp [enterOff, clearCore, overrideEnds_pwc]

theorem enterOff_effect (s : State) : (enterOff s).mem = [] ∧ (enterOff s).pendingEvent .powerChange = true ∧
    (enterOff s).tb.now = s.tb.now := by
  refine ⟨rfl, raise_pendingEvent .., ?_⟩
  simp [enterOff, clearCore]

/-! ### Start causes (R134) -/

theorem startCause_of_ready {c : WakeCause} {s : State} (h : (s.pins.mainOk && !s.pins.thermCrit) = true) :
    startCause c s = s.onPwc fun p =>
      { p with state := .starting, step := .startCore, lastWake := c, mainLoss := false, failedRail := none } := if_pos h

theorem startCause_of_not_ready {c : WakeCause} {s : State} (h : ¬ (s.pins.mainOk && !s.pins.thermCrit) = true) :
    startCause c s = s := if_neg h

/-- Settles O6, by cases on whether the part may start. -/
theorem startCauses : Obligations.StartCauses := by
  intro s off
  refine ⟨fun pressed due_ => ?_, fun main => ?_⟩
  · have ready : s.pwc.debounced false = true := by simp [Pwc.debounced, due, due_, pressed]
    have press : buttonPressed s = startCause .button (s.onPwc fun p => { p with pressed := true, debounce := none }) := by
      simp [buttonPressed, off]
    have run : exec .buttonPress s = .next (drain (buttonPressed s)) := by simp [exec, execButtonPress, ready]
    by_cases may : (s.pins.mainOk && !s.pins.thermCrit) = true
    · rw [startCause_of_ready (by exact may)] at press
      refine ⟨_, run, ?_⟩
      rw [press, drain_of_not_live (by simp [State.coreLive]), if_pos may]
      simp
    · rw [startCause_of_not_ready (by exact may)] at press
      refine ⟨_, run, ?_⟩
      rw [press, drain_of_off (by exact off), if_neg may]
      simp
  · refine ⟨mainRises s, by simp [exec, execMainOkRise, main], ?_⟩
    by_cases returns : s.pwc.mainLoss = true ∧ s.pwc.settings.restart = true
    · obtain ⟨loss, restart⟩ := returns
      have rises : mainRises s = startCause .mainReturn (s.onPins fun p => { p with mainOk := true }) := by
        simp [mainRises, off, loss, restart]
      cases crit : s.pins.thermCrit with
      | true =>
        rw [startCause_of_not_ready (by simp [crit])] at rises
        simp [rises]
      | false =>
        rw [startCause_of_ready (by simp [crit])] at rises
        simp [rises, loss, restart]
    · have rises : mainRises s = s.onPins fun p => { p with mainOk := true } := by
        simp [mainRises, off, returns]
      have stays : ¬ (s.pwc.mainLoss && s.pwc.settings.restart && !s.pins.thermCrit) = true := by
        simp only [Bool.and_eq_true]
        exact fun h => returns h.1
      rw [rises, if_neg stays]
      simp

/-! ### Rail faults and stopping (R136, R143) -/

/-- What a rail fault leaves for STOPPING to work on. -/
def State.stopping (c : StopCause) (s : State) : State :=
  ((setPower .stopping s).onPwc fun p =>
    { p with lastStop := c, dimCause := .none, thermalTimer := none, hostReset := true, railTimer := none,
             keptWake := none, step := .none }).onHmp fun h => { h with held := none, atPins := [] }

theorem beginStopping_eq (c : StopCause) (s : State) :
    beginStopping c s = stopRails [.host, .panel, .audio, .sensor] (s.stopping c) := rfl

theorem State.stopping_pwc (c : StopCause) (s : State) : (s.stopping c).pwc =
    { s.pwc with state := .stopping, lastStop := c, dimCause := .none, thermalTimer := none, hostReset := true,
                 railTimer := none, keptWake := none, step := .none } := by
  simp [State.stopping, setPower_pwc]

/-- The first rail of a list, whose enable is asserted, of those that have one. -/
theorem exists_first_enabled {p : PerRail} {r : Rail} (h : p.get r = true) : ∃ passed n after,
    [Rail.host, .panel, .audio, .sensor] = passed ++ n :: after ∧ (∀ m ∈ passed, p.get m = false) ∧ p.get n = true := by
  have mem : r ∈ [Rail.host, .panel, .audio, .sensor] := by cases r <;> simp
  obtain ⟨n, found⟩ := Option.isSome_iff_exists.mp (List.find?_isSome.mpr ⟨r, mem, h⟩)
  obtain ⟨on, passed, after, split, off⟩ := List.find?_eq_some_iff_append.mp found
  exact ⟨passed, n, after, split, fun m hm => by simpa using off m hm, on⟩

theorem PerRail.disable_get (n : Rail) (p : Pwc) :
    (p.disable n).enables.get n = false ∧ ∀ m, m ≠ n → (p.disable n).enables.get m = p.enables.get m :=
  ⟨PerRail.get_set_same .., fun _ h => PerRail.get_set_ne h ..⟩

/-- Settles O8, from the first rail that is on. -/
theorem railFaultStops : Obligations.RailFaultStops := by
  intro r s notStopping notOff on stops
  have fault (u : State) (pwc : u.pwc = s.pwc) : stops (railFault r u) ∧ (railFault r u).pins = u.pins := by
    let v := (u.onPwc fun p => { p with failedRail := some r }).stopping .powerFault
    have eq : railFault r u = stopRails [.host, .panel, .audio, .sensor] v := by
      simp [railFault, pwc, notStopping, notOff, beginStopping_eq, v]
    have vpwc : v.pwc = { s.pwc with
        failedRail := some r, state := .stopping, lastStop := .powerFault, dimCause := .none, thermalTimer := none,
        hostReset := true, railTimer := none, keptWake := none, step := .none } := by
      simp [v, State.stopping_pwc, pwc]
    have enables : v.pwc.enables = s.pwc.enables := by rw [vpwc]
    have stage {passed n after} (h : [Rail.host, .panel, .audio, .sensor] = passed ++ n :: after)
        (off : ∀ m ∈ passed, s.pwc.enables.get m = false) (on : s.pwc.enables.get n = true) : railFault r u =
        v.onPwc fun p => { p.disable n with step := .stopRail n after, railTimer := some 10000 } := by
      rw [eq, h, stopRails_append (by rwa [enables]) (by rwa [enables])]
    obtain ⟨passed, n, after, split, off, first⟩ := exists_first_enabled on
    have here := stage split off first
    refine ⟨⟨by simp [here, vpwc, Pwc.disable], by simp [here, vpwc, Pwc.disable], by simp [here, vpwc, Pwc.disable],
      by simp [here, vpwc, Pwc.disable], by simp [here, v, State.stopping], fun passed n after split off first => ?_⟩,
      by simp [here, v, State.stopping]⟩
    rw [stage split off first]
    refine ⟨rfl, rfl, (PerRail.disable_get n v.pwc).1, fun m hm => ?_⟩
    exact ((PerRail.disable_get n v.pwc).2 m hm).trans (by rw [enables])
  refine ⟨fun ⟨rest, step⟩ timer =>
      ⟨railTimerExpired s, by simp [exec, execRailBringUpTimerExpiry, due, timer], ?_⟩,
    fun good watched step => ⟨powerGoodFalls r s, by simp [exec, execRailPowerGoodFall, good], ?_⟩⟩
  · rcases step with step | step
    · simpa only [railTimerExpired, step] using (fault s rfl).1
    · simpa only [railTimerExpired, step] using (fault s rfl).1
  · have falls : powerGoodFalls r s = railFault r (s.onPins fun p => { p with pg := p.pg.set r false }) := by
      unfold powerGoodFalls
      dsimp only
      split
      next c rest h => exact absurd h (step c rest)
      next => exact if_pos watched
    obtain ⟨stopped, pins⟩ := fault (s.onPins fun p => { p with pg := p.pg.set r false }) rfl
    rw [falls]
    exact ⟨stopped, by simp [pins]⟩

/-- Settles O9, from the rest of the rails. -/
theorem railsGoDownInOrder : Obligations.RailsGoDownInOrder := by
  intro r rest s step c hc
  obtain ⟨u, run, pwc, kept⟩ : ∃ u : State, exec c s = .next (drain (stopRails rest u)) ∧
      u.pwc = { s.pwc with railTimer := none } ∧ True := by
    rcases hc with ⟨rfl, timer⟩ | ⟨rfl, good⟩
    · exact ⟨s.onPwc fun p => { p with railTimer := none },
        by simp [exec, execRailOffTimerExpiry, due, timer, railOffExpired, step], rfl, trivial⟩
    · exact ⟨(s.onPins fun p => { p with pg := p.pg.set r false }).onPwc fun p => { p with railTimer := none },
        by simp [exec, execRailPowerGoodFall, good, powerGoodFalls, step], rfl, trivial⟩
  refine ⟨fun passed n after split off on => ⟨_, run, ?_⟩, fun off => ⟨stopRails rest u, ?_, ?_⟩⟩
  · rw [split, stopRails_append (by simpa [pwc] using off) (by simpa [pwc] using on)]
    exact ⟨(PerRail.disable_get n u.pwc).1, rfl, rfl, by simp [pwc, Pwc.disable]⟩
  · have ends : stopRails rest u = enterOff u := stopRails_of_off (by simpa [pwc] using off)
    rw [run, ends, drain_of_off (by simp [enterOff_pwc])]
  · have ends : stopRails rest u = enterOff u := stopRails_of_off (by simpa [pwc] using off)
    obtain ⟨mem, event, -⟩ := enterOff_effect u
    rw [ends]
    exact ⟨by simp [enterOff_pwc], by simp [enterOff_pwc, PerRail.none], mem, event, by simp [enterOff_pwc, pwc]⟩

/-! ### Immediate stops (R144) -/

theorem immediateStop_of_on {c : StopCause} {s : State} (on : s.pwc.state ≠ .off) :
    immediateStop c s = enterOff (s.onPwc fun p => { p with lastStop := c }) := by
  simp [immediateStop, on]

/-- Settles O10, from the entry to OFF. -/
theorem immediateStops : Obligations.ImmediateStops := by
  intro s stopped
  have ends (u : State) (c : StopCause) (now : u.tb.now = s.tb.now) :
      stopped (enterOff (u.onPwc fun p => { p with lastStop := c })) c := by
    obtain ⟨mem, event, time⟩ := enterOff_effect (u.onPwc fun p => { p with lastStop := c })
    refine ⟨?_, ?_, ?_, ?_, mem, event, ?_, ?_, time.trans now⟩
    all_goals simp [enterOff_pwc, PerRail.none]
  refine ⟨fun on => ⟨fun timer => ?_, ?_, fun main => ?_⟩, fun off => ⟨fun main => ?_, ?_⟩⟩
  · have run : exec .buttonOverrideExpiry s = .next (enterOff (s.onPwc fun p => { p with lastStop := .buttonOverride })) := by
      have still := drain_of_off (s := enterOff (s.onPwc fun p => { p with lastStop := .buttonOverride }))
        (by simp [enterOff_pwc])
      simp [exec, execButtonOverrideExpiry, due, timer, immediateStop_of_on on, still]
    exact ⟨_, run, ends s .buttonOverride rfl, by simp [enterOff_pwc]⟩
  · have run : exec .thermCritAssertion s = .next (enterOff ((s.onPins fun p => { p with thermCrit := true }).onPwc
        fun p => { p with lastStop := .thermalCritical })) :=
      congrArg Host.Outcome.next (immediateStop_of_on (s := s.onPins fun p => { p with thermCrit := true }) on)
    exact ⟨_, run, ends (s.onPins fun p => { p with thermCrit := true }) .thermalCritical rfl, by simp [enterOff_pwc]⟩
  · have run : exec .mainOkFall s = .next (enterOff (((s.onPins fun p => { p with mainOk := false }).onPwc fun p =>
        { p with mainLoss := true }).onPwc fun p => { p with lastStop := .mainLost })) := by
      have falls := immediateStop_of_on (c := .mainLost) (s := (s.onPins fun p => { p with mainOk := false }).onPwc fun p =>
        { p with mainLoss := true }) on
      simp [exec, execMainOkFall, main, mainFalls, on, falls]
    exact ⟨_, run, ends ((s.onPins fun p => { p with mainOk := false }).onPwc fun p => { p with mainLoss := true })
      .mainLost rfl, by simp [enterOff_pwc]⟩
  · simp [exec, execMainOkFall, main, mainFalls, off, State.onPins]
  · simp [exec, execThermCritAssertion, immediateStop, off, State.onPins]

/-! ### The button and the thermal input (R146 to R149) -/

/-- Settles O11, by the state in which the press comes. -/
theorem buttonEffects : Obligations.ButtonEffects := by
  intro s
  have run (pressed : s.pwc.pressed = false) (due_ : s.pwc.debounce = some 0) :
      exec .buttonPress s = .next (drain (buttonPressed s)) := by
    simp [exec, execButtonPress, Pwc.debounced, due, pressed, due_]
  refine ⟨fun pressed due_ state => ⟨buttonPressed s, run pressed due_, ?_⟩,
    fun pressed due_ state => ⟨buttonPressed s, run pressed due_, ?_⟩, fun pressed due_ state => ?_,
    fun pressed due_ state => ?_, fun pressed due_ => ?_, fun h => ?_, fun h => ?_⟩
  · have press : buttonPressed s = raise .button ((s.onPwc fun p => { p with pressed := true, debounce := none }).onPwc
        fun p => { p with overrideTimer := some 4000000 }) := by
      rcases state with state | state <;> simp [buttonPressed, state]
    exact ⟨by simp [press], by rw [press]; exact raise_pendingEvent ..⟩
  · simp [buttonPressed, state, wakeCause, beginWaking]
  · rw [run pressed due_]
    cases kept : s.pwc.keptWake <;> simp [buttonPressed, state, wakeCause, kept, State.onPwc]
  · rw [run pressed due_]
    rcases state with state | state | state <;> simp [buttonPressed, state, State.onPwc]
  · simp [exec, execButtonRelease, Pwc.debounced, due, pressed, due_, State.onPwc]
  · have early : s.pwc.debounced false = false := by
      rcases h with h | h
      · simp [Pwc.debounced, h]
      · simp [Pwc.debounced, due, h]
    simp [exec, execButtonPress, early]
  · have early : s.pwc.debounced true = false := by
      rcases h with h | h
      · simp [Pwc.debounced, h]
      · simp [Pwc.debounced, due, h]
    simp [exec, execButtonRelease, early]

theorem alertAsserts_pwc (s : State) : (alertAsserts s).pwc =
    if (s.pwc.state = .active ∨ s.pwc.state = .dimmed) ∧ s.pwc.overrideOn = false then
      { s.pwc with thermalTimer := some 2000000 } else s.pwc := by
  have counts : (s.pwc.awake && !s.pwc.overrideOn) = true ↔
      (s.pwc.state = .active ∨ s.pwc.state = .dimmed) ∧ s.pwc.overrideOn = false := by simp [Pwc.awake]
  have pwc : (alertAsserts s).pwc = if s.pwc.awake && !s.pwc.overrideOn then
      { s.pwc with thermalTimer := some 2000000 } else s.pwc := rfl
  by_cases h : (s.pwc.awake && !s.pwc.overrideOn) = true
  · rw [pwc, if_pos h, if_pos (counts.mp h)]
  · rw [pwc, if_neg h, if_neg ((not_congr counts).mp h)]

/-- Settles O12, from the edges of the thermal input and the end of its timer. -/
theorem thermalOverride : Obligations.ThermalOverride := by
  intro s
  refine ⟨fun quiet => ?_, fun timer => ?_, fun asserted => ?_⟩
  · refine ⟨alertAsserts (s.onPins fun p => { p with thermAlert := s.pwc.settings.activeHigh }),
      by simp [exec, execThermAlertAssertion, quiet], ?_, raise_pendingEvent .., ?_⟩
    · have settings : (alertAsserts (s.onPins fun p => { p with thermAlert := s.pwc.settings.activeHigh })).pwc.settings =
          s.pwc.settings := by
        rw [alertAsserts_pwc]
        split <;> rfl
      rw [State.alertAsserted, settings]
      simp [alertAsserts]
    · rw [alertAsserts_pwc]
      rfl
  · refine ⟨thermalExpired s, by simp [exec, execThermalTimerExpiry, due, timer], ?_⟩
    exact ⟨by simp [thermalExpired], by simp [thermalExpired], raise_pendingEvent .., by simp [thermalExpired, Pwc.factor]⟩
  · refine ⟨alertDeasserts (s.onPins fun p => { p with thermAlert := !s.pwc.settings.activeHigh }),
      by simp [exec, execThermAlertDeassertion, asserted], ?_, ?_, ?_, ?_, fun on => ?_⟩
    · simp [State.alertAsserted, alertDeasserts, overrideEnds_pwc]
    · simp [alertDeasserts, overrideEnds_pwc]
    · simp [alertDeasserts, overrideEnds_pwc]
    · simp [alertDeasserts, overrideEnds_pwc, Pwc.factor]
    · simp only [alertDeasserts, overrideEnds, State.onPwc_pwc, State.onPins_pwc, on, if_true]
      exact raise_pendingEvent ..

/-! ### Standby (R140, R145) -/

/-- STANDBY as it is entered at the end of step 5. -/
def State.slept (s : State) : State :=
  beaconsStop (raise .powerChange (((s.onDa fun d => { d with mode := .selfRefresh }).onTb fun t =>
    { t with refresh := false, fresh := false }).onPwc fun p =>
      { (p.disable .panel).disable .audio with state := .standby, step := .none }))

theorem refreshEntered_of_step {s : State} (step : s.pwc.step = .enterRefresh) : refreshEntered s =
    (s.pwc.keptWake.map (beginWaking · s.slept)).getD s.slept := by
  have entered : refreshEntered s = match s.slept.pwc.keptWake with
      | some c => beginWaking c s.slept
      | none => s.slept := if_pos step
  have kept : s.slept.pwc.keptWake = s.pwc.keptWake := rfl
  rw [entered, kept]
  cases s.pwc.keptWake <;> rfl

/-- Settles O13, from the steps of standby entry and exit. -/
theorem standbyAndWake : Obligations.StandbyAndWake := by
  intro s
  refine ⟨fun step empty => ?_, fun mode step kept => ?_, fun w mode step kept => ?_, fun mode step good => ?_⟩
  · simp [exec, execDramDrainComplete, step, empty, drainDone, State.onPwc, State.onDa]
  · refine ⟨refreshEntered s, by simp [exec, execSelfRefreshEntered, mode], ?_⟩
    have entered : refreshEntered s = s.slept := by simp [refreshEntered_of_step step, kept]
    rw [entered]
    refine ⟨rfl, rfl, rfl, rfl, rfl, raise_pendingEvent .., fun n => ?_⟩
    simp [State.slept, beaconsStop, Beacon.goIdle]
  · refine ⟨refreshEntered s, by simp [exec, execSelfRefreshEntered, mode], ?_⟩
    have entered : refreshEntered s = beginWaking w s.slept := by simp [refreshEntered_of_step step, kept]
    rw [entered]
    exact ⟨rfl, rfl, rfl, rfl, raise_pendingEvent ..⟩
  · refine ⟨refreshLeft s, by simp [exec, execSelfRefreshExitComplete, mode], ?_⟩
    simp [refreshLeft, step, bringRails, Pwc.enable, PerRail.set, PerRail.get, good]

end Sys2Proof.Machine
end

section
/-!
PROOFS. Core reset and bringing the rails up (R135, R136, R145).
-/
namespace Sys2Proof.Machine

/-! ### Bringing rails up -/

/-- Rails whose power-good is high are enabled and watched one after another. -/
def Pwc.bringUp (l : List Rail) (p : Pwc) : Pwc := l.foldl (fun p r => (p.enable r).watch r) p

@[simp] theorem Pwc.bringUp_settings (l : List Rail) (p : Pwc) : (p.bringUp l).settings = p.settings := by
  induction l generalizing p with
  | nil => rfl
  | cons r rest ih => exact ih _

@[simp] theorem Pwc.bringUp_presence (l : List Rail) (p : Pwc) : (p.bringUp l).presence = p.presence := by
  induction l generalizing p with
  | nil => rfl
  | cons r rest ih => exact ih _

theorem Pwc.bringUp_enables {m : Rail} (p : Pwc) (h : p.enables.get m = true) (l : List Rail) :
    (p.bringUp l).enables.get m = true := by
  induction l generalizing p with
  | nil => exact h
  | cons r rest ih =>
    refine ih _ ?_
    by_cases same : m = r
    · rw [same]
      exact PerRail.get_set_same ..
    · exact (PerRail.get_set_ne same ..).trans h

theorem Pwc.bringUp_enables_head (r : Rail) (rest : List Rail) (p : Pwc) :
    (p.bringUp (r :: rest)).enables.get r = true :=
  Pwc.bringUp_enables ((p.enable r).watch r) (PerRail.get_set_same ..) rest

/-- Of the rails to bring up, either there is a first one whose power-good is low, or none is. -/
theorem exists_first_low (pg : PerRail) (l : List Rail) :
    (∃ passed n after, l = passed ++ n :: after ∧ (∀ m ∈ passed, pg.get m = true) ∧ pg.get n = false) ∨
    ∀ m ∈ l, pg.get m = true := by
  cases found : l.find? fun m => !pg.get m with
  | none => exact .inr fun m hm => by simpa using List.find?_eq_none.mp found m hm
  | some n =>
    obtain ⟨low, passed, after, split, high⟩ := List.find?_eq_some_iff_append.mp found
    exact .inl ⟨passed, n, after, split, fun m hm => by simpa using high m hm, by simpa using low⟩

theorem bringRails_cons_of_high {wake : Bool} {m : Rail} {s : State} (high : s.pins.pg.get m = true) (rest : List Rail) :
    bringRails wake (m :: rest) s = bringRails wake rest ((s.onPwc (Pwc.enable m)).onPwc (Pwc.watch m)) := if_pos high

/-- The rails before the first whose power-good is low come up, and it is waited for. -/
theorem bringRails_append {wake : Bool} {passed after : List Rail} {n : Rail} {s : State}
    (high : ∀ m ∈ passed, s.pins.pg.get m = true) (low : s.pins.pg.get n = false) :
    bringRails wake (passed ++ n :: after) s = s.onPwc fun p => { (p.bringUp passed).enable n with
      step := if wake then .wakeRail n after else .startRail n after, railTimer := some 10000 } := by
  induction passed generalizing s with
  | nil => exact if_neg (Bool.eq_false_iff.mp low)
  | cons m rest ih =>
    rw [List.cons_append, bringRails_cons_of_high (high m (List.mem_cons_self ..))]
    exact ih (s := (s.onPwc (Pwc.enable m)).onPwc (Pwc.watch m)) (fun x hx => high x (List.mem_cons_of_mem _ hx)) low

/-- With every power-good high, what follows the rails follows at once. -/
theorem bringRails_of_high {wake : Bool} {l : List Rail} {s : State} (high : ∀ m ∈ l, s.pins.pg.get m = true) :
    bringRails wake l s = (if wake then activeAfterWaking else startPlan) (s.onPwc (Pwc.bringUp l)) := by
  induction l generalizing s with
  | nil => cases wake <;> rfl
  | cons m rest ih =>
    rw [bringRails_cons_of_high (high m (List.mem_cons_self ..))]
    exact ih (s := (s.onPwc (Pwc.enable m)).onPwc (Pwc.watch m)) fun x hx => high x (List.mem_cons_of_mem _ hx)

/-! ### Core reset (R74, R135) -/

/-- What core reset makes of a state, block by block. -/
theorem coreReset_eq (sel : Fin 4) (s : State) : coreReset sel s =
    { s with
      mem := [], hmp := { Hmp.reset with hold := .starting }, rm := Rm.reset, da := Da.reset,
      pu := { Pu.reset with sel, shadow := defaultImage s.pwc.settings 0 }, st := St.reset, so := So.reset, sh := Sh.reset,
      tc := if s.pins.cable then
          { Tc.reset with since := s.tb.now, link := .training, training := some 100000, attempts := 1 }
        else { Tc.reset with since := s.tb.now },
      au := Au.reset, tm := Tm.reset, eu := { Eu.reset with pendingSet := s.eu.pendingSet &&& alwaysOnKinds },
      tb := { s.tb with snapshot := ⟨0, 0⟩, fresh := false, refresh := true }, generation := s.generation + 1 } := by
  cases cable : s.pins.cable <;> simp [coreReset, clearCore, cable] <;> rfl

/-- The image's writes are the only requests plan initialization adds. -/
theorem requestWrites_agent {a : Agent} {w : List (Nat × List (Nat × Byte))} {s : State} {r : Request}
    (h : r ∈ (requestWrites a w s).da.all) : r.agent = a ∨ r ∈ s.da.all := by
  induction w generalizing s with
  | nil => exact .inr h
  | cons p rest ih =>
    obtain made | before := ih h
    · exact .inl made
    · rw [request_da] at before
      have joined := Da.mem_all_of_chooseUpTo _ _ before
      have listed : r ∈ s.da.all ∨ r = ⟨a, p.1, .write p.2⟩ := by
        simpa [Da.all, Da.join, or_assoc, or_comm, or_left_comm] using joined
      exact listed.elim .inr fun same => .inl (by rw [same])

theorem requestWrites_da (a : Agent) (w : List (Nat × List (Nat × Byte))) (s : State) : (requestWrites a w s).da =
    { s.da with requests := (requestWrites a w s).da.requests, service := (requestWrites a w s).da.service } := by
  induction w generalizing s with
  | nil => rfl
  | cons p rest ih =>
    have first := Da.kick_eq (s.da.join ⟨a, p.1, .write p.2⟩)
    rw [← request_da] at first
    have later := ih (request a p.1 (.write p.2) s)
    rw [first] at later
    exact later

/-- Line writes change DA's requests and nothing else. -/
theorem requestWrites_requests (a : Agent) (w : List (Nat × List (Nat × Byte))) (s : State) : requestWrites a w s =
    { s with da := { s.da with
      requests := (requestWrites a w s).da.requests, service := (requestWrites a w s).da.service } } :=
  (requestWrites_eq a w s).trans (by rw [← requestWrites_da])

theorem exists_issueImage (s : State) :
    ∃ w, issueImage s = requestWrites .planInit w (s.onPu fun p => { p with initLeft := 64 }) := ⟨_, rfl⟩

/-- Plan initialization in STARTING makes the image's writes. -/
theorem exists_startPlan (s : State) : ∃ w, startPlan s = requestWrites .planInit w { s with
    pwc := { s.pwc with step := .startPlan, railTimer := none },
    pu := { s.pu with shadow := defaultImage s.pwc.settings 0, initLeft := 64 } } := exists_issueImage _

/-- Plan initialization changes the power step, the shadow, and DA's requests. -/
theorem startPlan_eq (s : State) : startPlan s = { s with
    pwc := { s.pwc with step := .startPlan, railTimer := none },
    pu := { s.pu with shadow := defaultImage s.pwc.settings 0, initLeft := 64 },
    da := { s.da with requests := (startPlan s).da.requests, service := (startPlan s).da.service } } := by
  obtain ⟨w, made⟩ := exists_startPlan s
  rw [made]
  exact requestWrites_requests ..

theorem startPlan_agent {s : State} {r : Request} (h : r ∈ (startPlan s).da.all) :
    r.agent = .planInit ∨ r ∈ s.da.all := by
  obtain ⟨w, made⟩ := exists_startPlan s
  rw [made] at h
  have made := requestWrites_agent h
  exact made

/-- How far the rails come up when the core supply has settled. -/
theorem coreSettled_eq (sel : Fin 4) (s : State) :
    (∃ passed n after, [Rail.sensor, .audio, .panel, .host] = passed ++ n :: after ∧ s.pins.pg.get n = false ∧
      coreSettled sel s = (coreReset sel s).onPwc fun p => { (p.bringUp passed).enable n with
        step := .startRail n after, railTimer := some 10000 }) ∨
    (∀ r, s.pins.pg.get r = true) ∧
      coreSettled sel s = startPlan ((coreReset sel s).onPwc (Pwc.bringUp [.sensor, .audio, .panel, .host])) := by
  have pins : (coreReset sel s).pins = s.pins := by rw [coreReset_eq]
  rcases exists_first_low s.pins.pg [.sensor, .audio, .panel, .host] with ⟨passed, n, after, split, high, low⟩ | high
  · refine .inl ⟨passed, n, after, split, low, ?_⟩
    rw [coreSettled, split]
    exact bringRails_append (by rwa [pins]) (by rwa [pins])
  · refine .inr ⟨fun r => high r (by cases r <;> simp), ?_⟩
    exact bringRails_of_high (by rwa [pins])

/-- What comes up after core reset leaves the reset values but in the power controller, the plan unit and DA. -/
theorem coreSettled_reset (sel : Fin 4) (s : State) : coreSettled sel s = { coreReset sel s with
    pwc := (coreSettled sel s).pwc,
    pu := { (coreReset sel s).pu with initLeft := (coreSettled sel s).pu.initLeft },
    da := { Da.reset with requests := (coreSettled sel s).da.requests, service := (coreSettled sel s).da.service } } := by
  have da : (coreReset sel s).da = Da.reset := by rw [coreReset_eq]
  have shadow : (coreReset sel s).pu.shadow = defaultImage s.pwc.settings 0 := by rw [coreReset_eq]
  have settings : (coreReset sel s).pwc.settings = s.pwc.settings := by rw [coreReset_eq]
  obtain ⟨passed, n, after, -, -, eq⟩ | ⟨-, eq⟩ := coreSettled_eq sel s
  · rw [eq, ← da]
    rfl
  · rw [eq, ← da]
    refine (startPlan_eq _).trans ?_
    have image : defaultImage (((coreReset sel s).onPwc (Pwc.bringUp [.sensor, .audio, .panel, .host])).pwc.settings) 0 =
        (coreReset sel s).pu.shadow := by rw [shadow, State.onPwc_pwc, Pwc.bringUp_settings, settings]
    have left := congrArg (·.pu.initLeft) (startPlan_eq ((coreReset sel s).onPwc (Pwc.bringUp [.sensor, .audio, .panel, .host])))
    have pwc := congrArg (·.pwc) (startPlan_eq ((coreReset sel s).onPwc (Pwc.bringUp [.sensor, .audio, .panel, .host])))
    dsimp only at left pwc
    rw [image, left, pwc]
    rfl

/-- Settles O5, by whether a rail is waited for or plan initialization begins at once. -/
theorem coreResetEffect : Obligations.CoreResetEffect := by
  intro sel s state step
  have reset := coreSettled_reset sel s
  have pwcReset : (coreReset sel s).pwc = s.pwc := by rw [coreReset_eq]
  have daReset : (coreReset sel s).da = Da.reset := by rw [coreReset_eq]
  have still : drain (coreSettled sel s) = coreSettled sel s := by
    refine drain_of_quiet (quiet_of_reset ?_ ?_ ?_) <;> rw [reset, coreReset_eq]
  have run : exec (.coreSupplySettled sel) s = .next (coreSettled sel s) := by
    simp [exec, execCoreSupplySettled, state, step, still]
  have requests : (∀ r ∈ (coreSettled sel s).da.all, r.agent = .planInit) ∧
      ((∃ r, s.pins.pg.get r = false) → (coreSettled sel s).da.all = []) := by
    obtain ⟨passed, n, after, -, -, eq⟩ | ⟨high, eq⟩ := coreSettled_eq sel s
    · have none : (coreSettled sel s).da.all = [] := by
        rw [eq, State.onPwc_da, daReset]
        rfl
      exact ⟨fun r h => by simp [none] at h, fun _ => none⟩
    · refine ⟨fun r h => ?_, fun ⟨r, low⟩ => absurd (high r) (by simp [low])⟩
      rw [eq] at h
      refine (startPlan_agent h).resolve_right fun before => ?_
      rw [State.onPwc_da, daReset] at before
      cases before
  have power : (coreSettled sel s).pwc.settings = s.pwc.settings ∧ (coreSettled sel s).pwc.presence = s.pwc.presence ∧
      (coreSettled sel s).pwc.enables.sensor = true := by
    obtain ⟨passed, n, after, split, -, eq⟩ | ⟨-, eq⟩ := coreSettled_eq sel s
    · have sensor : (((s.pwc.bringUp passed).enable n).enables).get .sensor = true := by
        cases passed with
        | nil =>
          obtain ⟨rfl, -⟩ := List.cons.inj split
          exact PerRail.get_set_same (s.pwc.bringUp []).enables .sensor true
        | cons m rest =>
          obtain ⟨rfl, -⟩ := List.cons.inj split
          have up := Pwc.bringUp_enables_head .sensor rest s.pwc
          by_cases same : Rail.sensor = n
          · rw [← same]
            exact PerRail.get_set_same (s.pwc.bringUp (.sensor :: rest)).enables .sensor true
          · exact (PerRail.get_set_ne same ..).trans up
      rw [eq, State.onPwc_pwc, pwcReset]
      exact ⟨Pwc.bringUp_settings .., Pwc.bringUp_presence .., sensor⟩
    · rw [eq, startPlan_eq, State.onPwc_pwc, pwcReset]
      exact ⟨Pwc.bringUp_settings .., Pwc.bringUp_presence .., Pwc.bringUp_enables_head .sensor _ s.pwc⟩
  obtain ⟨settings, presence, sensor⟩ := power
  refine ⟨coreSettled sel s, run, ?_, ?_, ?_, ?_, ?_, ?_, ?_, ?_, ?_, ?_, requests.1, requests.2, ?_, ?_, settings, presence,
    sensor, ?_, ?_, fun low => ?_⟩
  case refine_15 =>
    have waits : coreSettled sel s = _ := bringRails_append (wake := false) (passed := []) (n := .sensor)
      (after := [.audio, .panel, .host]) (s := coreReset sel s) (by simp) (by rw [coreReset_eq]; exact low)
    rw [waits]
    exact ⟨rfl, rfl⟩
  all_goals rw [reset, coreReset_eq]

end Sys2Proof.Machine
end

section
/-!
PROOFS. What an arm command hands to a record's owner (R171, R172).
-/
namespace Sys2Proof.Machine

/-! ### Fields out of the first bytes of a record -/

theorem bytesAt_take {m off n : Nat} (h : off + n ≤ m) (l : List Byte) : bytesAt (l.take m) off n = bytesAt l off n := by
  rw [bytesAt, bytesAt, List.drop_take, List.take_take, Nat.min_eq_left (by omega)]

theorem getD_take {m i : Nat} (h : i < m) (l : List Byte) (d : Byte) : (l.take m).getD i d = l.getD i d := by
  simp [List.getD_eq_getElem?_getD, List.getElem?_take_of_lt h]

/-! ### The record handed over -/

/-- The state in which an arm's owner judges: the line is requested and merged, the sequence noted. -/
def State.handed (k : RecordKind) (fields : List Byte) (seq : U32) (s : State) : State :=
  (s.recordWritten k (armBytes k fields seq)).onPu (Pu.noteArm k seq)

theorem State.handed_eq (k : RecordKind) (fields : List Byte) (seq : U32) (s : State) : s.handed k fields seq =
    { s with da := (s.handed k fields seq).da, pu := (s.handed k fields seq).pu } := by
  have written : (s.recordWritten k (armBytes k fields seq)) =
      { s with da := (s.recordWritten k (armBytes k fields seq)).da,
               pu := (s.recordWritten k (armBytes k fields seq)).pu } := by
    rw [State.recordWritten, request_eq]
    rfl
  rw [State.handed, written]
  rfl

section
variable (k : RecordKind) (fields : List Byte) (seq : U32) (s : State)

@[simp] theorem State.handed_keeps : (s.handed k fields seq).pins = s.pins ∧ (s.handed k fields seq).mem = s.mem ∧
    (s.handed k fields seq).hmp = s.hmp ∧ (s.handed k fields seq).rm = s.rm ∧ (s.handed k fields seq).st = s.st ∧
    (s.handed k fields seq).so = s.so ∧ (s.handed k fields seq).sh = s.sh ∧ (s.handed k fields seq).tc = s.tc ∧
    (s.handed k fields seq).au = s.au ∧ (s.handed k fields seq).tb = s.tb ∧ (s.handed k fields seq).tm = s.tm ∧
    (s.handed k fields seq).pwc = s.pwc ∧ (s.handed k fields seq).eu = s.eu ∧
    (s.handed k fields seq).generation = s.generation ∧ (s.handed k fields seq).nextId = s.nextId ∧
    (s.handed k fields seq).planBase = s.planBase := by
  rw [State.handed_eq]
  exact ⟨rfl, rfl, rfl, rfl, rfl, rfl, rfl, rfl, rfl, rfl, rfl, rfl, rfl, rfl, rfl,
    (s.recordWritten_planBase k (armBytes k fields seq))⟩

@[simp] theorem State.handed_lastSeen : ((s.handed k fields seq).entry k).lastSeen = seq := by
  simp [State.handed, State.entry, Pu.noteArm]

theorem State.handed_entry_ne {j : RecordKind} (h : j ≠ k) : (s.handed k fields seq).entry j = s.entry j := by
  have written := s.recordWritten_entry k j (armBytes k fields seq)
  have other : k.index ≠ j.index := fun same => h (RecordKind.index_injective same).symm
  exact (vget_vmod_ne _ _ other).trans written

/-- An arm leaves the count of overtaken arms to the owner. -/
@[simp] theorem State.handed_overtaken : ((s.handed k fields seq).entry k).overtaken = (s.entry k).overtaken := by
  have written := s.recordWritten_entry k k (armBytes k fields seq)
  rw [← written]
  simp [State.handed, State.entry, Pu.noteArm]

end

/-- The outcome stands in the table beside the sequence of the arm. -/
theorem judged_enter {k : RecordKind} {seq : U32} {t : State} (h : (t.entry k).lastSeen = seq) (o : Outcome) :
    (t.onPu (Pu.enter k o)).judged k seq o := by
  rw [State.entry] at h
  constructor <;> simp [State.entry, Pu.enter, h]

/-- A record's first bytes, none of them a live word's, are the fields that its arm writes. -/
theorem snapshot_arm {k : RecordKind} (hk : k.size ≠ 128) {n : Nat} {fields : List Byte} (seq : U32) (s : State)
    (size : n ≤ k.size - 4) (live : ∀ i, i < n → k.liveAt i = false) (length : n ≤ fields.length) :
    ((s.recordWritten k (armBytes k fields seq)).snapshot k).take n = fields.take n := by
  refine List.ext_getElem ?_ fun i hi _ => ?_
  · rw [State.snapshot, List.length_take, List.length_take, Mem.bytes_length]
    omega
  · have small : i < n := Nat.lt_of_lt_of_le hi (List.length_take_le ..)
    have read := State.recordWritten_read k s (armBytes_pairwise k fields seq)
      (mem_armBytes hk seq (by omega) (live i small) (List.getElem?_eq_getElem (by omega)))
    rw [← Nat.add_assoc, ← record_in_line hk] at read
    simpa [State.snapshot, Mem.bytes] using read

/-- What an arm command runs to, by what the owner answers. -/
theorem runsTo_arm {c : Instr} {k : RecordKind} {fields : List Byte} {seq : U32} {s r : State} {o : Outcome}
    {P : State → Prop} (run : exec c s = .next (armRecord k fields seq s)) (arms : s.arms k seq)
    (judged : judge k ((s.recordWritten k (armBytes k fields seq)).snapshot k) (s.handed k fields seq) = (o, r))
    (holds : P (r.onPu (Pu.enter k o))) : runsTo c s P := by
  rw [armRecord_of_arms arms] at run
  exact runsTo_of_submit run judged holds

end Sys2Proof.Machine
end

section
/-!
PROOFS. The power record (R137, R138).
-/
namespace Sys2Proof.Machine

/-! ### The settings of a record (R137, R184, R186) -/

theorem settingsAt_eq_some_iff (b : List Byte) (p : PowerSettings) : settingsAt b = some p ↔
    p.software = byteAt b 1 ∧ 1 ≤ p.software ∧ p.software ≤ 8 ∧ p.override = byteAt b 2 ∧ 1 ≤ p.override ∧
    p.override ≤ 8 ∧ [false, true][byteAt b 3]? = some p.autoDim ∧ [false, true][byteAt b 4]? = some p.wakePresence ∧
    [false, true][byteAt b 5]? = some p.wakeTether ∧ [false, true][byteAt b 6]? = some p.restart ∧
    [false, true][byteAt b 7]? = some p.activeHigh := by
  simp only [settingsAt, flagAt_eq, bind, Option.bind_eq_some_iff, Option.ite_none_right_eq_some, Option.some.injEq]
  constructor
  · rintro ⟨dim, hdim, presence, hpresence, tether, htether, restart, hrestart, high, hhigh, ⟨lo, hi, olo, ohi⟩, rfl⟩
    exact ⟨rfl, lo, hi, rfl, olo, ohi, hdim, hpresence, htether, hrestart, hhigh⟩
  · rintro ⟨software, lo, hi, override, olo, ohi, dim, presence, tether, restart, high⟩
    rw [software] at lo hi
    rw [override] at olo ohi
    refine ⟨_, dim, _, presence, _, tether, _, restart, _, high, ⟨lo, hi, olo, ohi⟩, ?_⟩
    rw [← software, ← override]

theorem settingsAt_take (b : List Byte) : settingsAt (b.take 8) = settingsAt b := by
  simp [settingsAt, flagAt, byteAt_take]

/-- The request code does not count among the settings. -/
theorem settingsAt_cons (code : Byte) (settings : List Byte) : settingsAt (code :: settings) = settingsAt (0 :: settings) := by
  simp [settingsAt, flagAt, byteAt]

theorem judgePower_take (b : List Byte) (s : State) : judgePower (b.take 8) s = judgePower b s := by
  rw [judgePower, judgePower, settingsAt_take, codeAt, codeAt, byteAt_take (by omega)]

/-! ### The judgement -/

theorem judgePower_of_field {b : List Byte} {s : State} (h : settingsAt b = none) : judgePower b s = (.refusedField, s) := by
  rw [judgePower, h]
  cases codeAt powerRequests b 0 <;> rfl

theorem judgePower_of_code {b : List Byte} {s : State} (h : 4 < byteAt b 0) : judgePower b s = (.refusedField, s) := by
  have none : codeAt powerRequests b 0 = none := List.getElem?_eq_none h
  rw [judgePower, none]

theorem judgePower_of_awake {b : List Byte} {s : State} {r : PowerRequest} {p : PowerSettings}
    (code : powerRequests[byteAt b 0]? = some r) (settings : settingsAt b = some p) (awake : s.pwc.awake = true) :
    judgePower b s = (.taken, actOnRequest r (takeSettings p s)) := by
  have named : codeAt powerRequests b 0 = some r := code
  rw [judgePower, named, settings]
  cases state : s.pwc.state <;> simp_all [Pwc.awake]

theorem judgePower_of_transition {b : List Byte} {s : State} {r : PowerRequest} {p : PowerSettings}
    (code : powerRequests[byteAt b 0]? = some r) (settings : settingsAt b = some p)
    (busy : s.pwc.state ∈ [PowerState.starting, .enteringStandby, .waking, .stopping]) :
    judgePower b s = (.refusedBusy, s) := by
  have named : codeAt powerRequests b 0 = some r := code
  rw [judgePower, named, settings]
  cases state : s.pwc.state <;> simp_all

/-! ### The settings are taken -/

theorem alertDeasserts_pwc (s : State) :
    (alertDeasserts s).pwc = { s.pwc with thermalTimer := none, overrideOn := false } := by
  simp [alertDeasserts, overrideEnds_pwc]

/-- New settings stand, and a change of polarity touches the override and its timer alone. -/
theorem takeSettings_pwc (p : PowerSettings) (s : State) : (takeSettings p s).pwc = { s.pwc with
    settings := p, thermalTimer := (takeSettings p s).pwc.thermalTimer, overrideOn := (takeSettings p s).pwc.overrideOn } := by
  unfold takeSettings
  dsimp only
  split
  · rw [alertAsserts_pwc]
    split <;> rfl
  split
  · rw [alertDeasserts_pwc]
    rfl
  · rfl

@[simp] theorem alertDeasserts_pu (s : State) : (alertDeasserts s).pu = s.pu := by
  simp [alertDeasserts]

@[simp] theorem takeSettings_pu (p : PowerSettings) (s : State) : (takeSettings p s).pu = s.pu := by
  unfold takeSettings
  dsimp only
  split
  · rfl
  split
  · simp
  · rfl

/-! ### The request is acted on (R138) -/

@[simp] theorem Pwc.onAwake_request (alert : Bool) (p : Pwc) : (p.onAwake alert).settings = p.settings ∧
    (p.onAwake alert).state = p.state ∧ (p.onAwake alert).dimCause = p.dimCause := ⟨rfl, rfl, rfl⟩

theorem enterActive_request (s : State) : (enterActive s).pwc.settings = s.pwc.settings ∧
    (enterActive s).pwc.state = .active ∧ (enterActive s).pwc.dimCause = .none := by
  simp [enterActive, setPower_pwc]

theorem enterDimmed_request (c : DimCause) (s : State) : (enterDimmed c s).pwc.settings = s.pwc.settings ∧
    (enterDimmed c s).pwc.state = .dimmed ∧ (enterDimmed c s).pwc.dimCause = c := by
  simp [enterDimmed, setPower_pwc]

theorem requestStop_delivers (s : State) : s.Delivers (requestStop s) := by
  unfold requestStop
  split
  · exact onSo_delivers ..
  · exact .after (stopAndAnswer_delivers _) (onSo_delivers ..)

/-- Of the power controller delivery changes the step alone. -/
theorem State.Delivers.pwc {s t : State} (h : s.Delivers t) : { t.pwc with step := .none } = { s.pwc with step := .none } :=
  congrArg (·.2.2) h.always

theorem beginStandby_pwc (s : State) : { (beginStandby s).pwc with step := .none } =
    { s.pwc with state := .enteringStandby, dimCause := .none, thermalTimer := none, step := .none, keptWake := none } := by
  refine (requestStop_delivers _).pwc.trans ?_
  rw [State.onPwc_pwc, setPower_pwc]

/-- STOPPING begins with the HOST rail where that is on. -/
theorem beginStopping_of_host {s : State} (on : s.pwc.enables.host = true) (c : StopCause) : beginStopping c s =
    (s.stopping c).onPwc fun p => { p.disable .host with
      step := .stopRail .host [.panel, .audio, .sensor], railTimer := some 10000 } := by
  rw [beginStopping_eq]
  refine stopRails_append (passed := []) (by simp) ?_
  rw [State.stopping_pwc]
  exact on

/-- A power record arm that is taken: the state that the request makes, but for what is delivered after it. -/
theorem powerTaken {c : Instr} {code : Byte} {settings : List Byte} {seq : U32} {s : State} {r : PowerRequest}
    {p : PowerSettings} (run : exec c s = .next (armPower code settings seq s)) (length : settings.length = 7)
    (arms : s.arms .power seq) (named : powerRequests[code.toNat]? = some r) (fields : settingsAt (0 :: settings) = some p)
    (awake : s.pwc.awake = true) :
    let v := actOnRequest r (takeSettings p (s.handed .power (code :: settings) seq))
    ∃ t, exec c s = .next t ∧ { t.pwc with step := .none } = { v.pwc with step := .none } ∧
      (t.entry .power).outcome = .taken := by
  intro v
  have whole : settings.take 7 = settings := List.take_of_length_le (by omega)
  rw [armPower, whole] at run
  have first := snapshot_arm (k := .power) (n := 8) (fields := code :: settings) (by decide) seq s (by decide)
    (fun _ _ => rfl) (by simp [length])
  have answer : judge .power ((s.recordWritten .power (armBytes .power (code :: settings) seq)).snapshot .power)
      (s.handed .power (code :: settings) seq) = (.taken, v) := by
    rw [judge, ← judgePower_take, first, judgePower_take]
    exact judgePower_of_awake named ((settingsAt_cons ..).trans fields) (by simpa using awake)
  obtain ⟨u, next, pwc, outcome⟩ := runsTo_arm (P := fun u => u.pwc = v.pwc ∧ (u.entry .power).outcome = .taken) run arms
    answer ⟨rfl, by simp [State.entry, Pu.enter]⟩
  have delivered := drain_delivers u
  exact ⟨drain u, next, by rw [delivered.pwc, pwc], by rw [delivered.entries .power (by decide), outcome]⟩

/-- A power record arm that is refused leaves the power controller and the event unit. -/
theorem powerRefused {c : Instr} {code : Byte} {settings : List Byte} {seq : U32} {s : State} {o : Outcome}
    (run : exec c s = .next (armPower code settings seq s)) (length : settings.length = 7) (arms : s.arms .power seq)
    (answer : ∀ t : State, t.pwc = s.pwc → judgePower (code :: settings) t = (o, t)) :
    runsTo c s fun u => u.judged .power seq o ∧ u.pwc = s.pwc ∧ u.eu = s.eu := by
  have whole : settings.take 7 = settings := List.take_of_length_le (by omega)
  rw [armPower, whole] at run
  have first := snapshot_arm (k := .power) (n := 8) (fields := code :: settings) (by decide) seq s (by decide)
    (fun _ _ => rfl) (by simp [length])
  refine runsTo_arm (r := s.handed .power (code :: settings) seq) (o := o) run arms ?_
    ⟨judged_enter (by simp) o, by simp, by simp⟩
  rw [judge, ← judgePower_take, first, judgePower_take]
  exact answer _ (by simp)

/-- The commands of the power record with the code and the request of each. -/
def powerCommands (settings : List Byte) (seq : U32) : List (Instr × Byte × PowerRequest) :=
  [(.powerRequestNone settings seq, 0, .none), (.powerRequestActive settings seq, 1, .active),
   (.powerRequestDimmed settings seq, 2, .dimmed), (.powerRequestStandby settings seq, 3, .standby),
   (.powerRequestOff settings seq, 4, .off)]

theorem exec_powerCommand {settings : List Byte} {seq : U32} {c : Instr × Byte × PowerRequest}
    (h : c ∈ powerCommands settings seq) (s : State) :
    exec c.1 s = .next (armPower c.2.1 settings seq s) ∧ powerRequests[c.2.1.toNat]? = some c.2.2 := by
  simp only [powerCommands, List.mem_cons, List.not_mem_nil, or_false] at h
  rcases h with rfl | rfl | rfl | rfl | rfl <;> exact ⟨rfl, rfl⟩

theorem Pwc.awake_iff (p : Pwc) : p.awake = true ↔ p.state = .active ∨ p.state = .dimmed := by simp [Pwc.awake]

theorem actOnRequest_active {s : State} (awake : s.pwc.awake = true) :
    (actOnRequest .active s).pwc.settings = s.pwc.settings ∧ (actOnRequest .active s).pwc.state = .active ∧
    (s.pwc.state = .dimmed → (actOnRequest .active s).pwc.dimCause = .none) := by
  obtain ⟨settings, state, cause⟩ := enterActive_request s
  rcases (Pwc.awake_iff _).mp awake with active | dimmed
  · simp [actOnRequest, active]
  · simp [actOnRequest, dimmed, settings, state, cause]

theorem actOnRequest_dimmed {s : State} (awake : s.pwc.awake = true) :
    (actOnRequest .dimmed s).pwc.settings = s.pwc.settings ∧ (actOnRequest .dimmed s).pwc.state = .dimmed ∧
    (actOnRequest .dimmed s).pwc.dimCause = .request := by
  rcases (Pwc.awake_iff _).mp awake with active | dimmed
  · simpa [actOnRequest, active] using enterDimmed_request .request s
  · simp [actOnRequest, dimmed]

theorem actOnRequest_standby {s : State} (awake : s.pwc.awake = true) :
    (actOnRequest .standby s).pwc.settings = s.pwc.settings ∧ (actOnRequest .standby s).pwc.state = .enteringStandby ∧
    (actOnRequest .standby s).pwc.dimCause = .none ∧ (actOnRequest .standby s).pwc.thermalTimer = none := by
  have begun := beginStandby_pwc s
  rw [show actOnRequest .standby s = beginStandby s from if_pos awake]
  exact ⟨congrArg (·.settings) begun, congrArg (·.state) begun, congrArg (·.dimCause) begun,
    congrArg (·.thermalTimer) begun⟩

theorem actOnRequest_off {s : State} (awake : s.pwc.awake = true) (host : s.pwc.enables.host = true) :
    (actOnRequest .off s).pwc.settings = s.pwc.settings ∧ (actOnRequest .off s).pwc.state = .stopping ∧
    (actOnRequest .off s).pwc.lastStop = .request ∧ (actOnRequest .off s).pwc.hostReset = true ∧
    (actOnRequest .off s).pwc.railTimer = some 10000 := by
  rw [show actOnRequest .off s = beginStopping .request s from if_pos awake, beginStopping_of_host host, State.onPwc_pwc,
    State.stopping_pwc]
  exact ⟨rfl, rfl, rfl, rfl, rfl⟩

theorem powerRequest_refused {settings : List Byte} {seq : U32} {s : State} {o : Outcome} (length : settings.length = 7)
    (arms : s.arms .power seq)
    (answer : ∀ (code : Byte) (r : PowerRequest) (t : State), powerRequests[code.toNat]? = some r → t.pwc = s.pwc →
      judgePower (code :: settings) t = (o, t)) :
    ∀ c ∈ (powerCommands settings seq).map (·.1), runsTo c s fun u =>
      u.judged .power seq o ∧ u.pwc = s.pwc ∧ u.eu = s.eu := by
  intro c hc
  obtain ⟨command, listed, rfl⟩ := List.mem_map.mp hc
  obtain ⟨run, named⟩ := exec_powerCommand listed s
  exact powerRefused run length arms fun t pwc => answer _ _ t named pwc

/-- Settles O14, from the judgement of the record and what each request does. -/
theorem powerRequests_judged : Obligations.PowerRequests := by
  refine ⟨settingsAt_eq_some_iff, fun settings seq s taking length new => ?_, fun b s code => judgePower_of_code code⟩
  have arms : s.arms .power seq := ⟨taking, new⟩
  refine ⟨fun p fields awake => ?_, fun none => ?_, fun p fields busy => ?_⟩
  · have taken (code : Byte) := takeSettings_pwc p (s.handed .power (code :: settings) seq)
    have kept (code : Byte) : (takeSettings p (s.handed .power (code :: settings) seq)).pwc.settings = p ∧
        (takeSettings p (s.handed .power (code :: settings) seq)).pwc.state = s.pwc.state ∧
        (takeSettings p (s.handed .power (code :: settings) seq)).pwc.enables = s.pwc.enables := by
      rw [taken]
      simp
    have still (code : Byte) : (takeSettings p (s.handed .power (code :: settings) seq)).pwc.awake = true := by
      rw [Pwc.awake, (kept code).2.1]
      exact awake
    have result {c : Instr} (code : Byte) {r : PowerRequest} (run : exec c s = .next (armPower code settings seq s))
        (named : powerRequests[code.toNat]? = some r) (P : Pwc → Prop) (unstepped : ∀ x : Pwc, P { x with step := .none } ↔ P x)
        (acts : P (actOnRequest r (takeSettings p (s.handed .power (code :: settings) seq))).pwc) :
        ∃ t, exec c s = .next t ∧ P t.pwc ∧ (t.entry .power).outcome = .taken := by
      obtain ⟨t, next, pwc, outcome⟩ := powerTaken run length arms named fields awake
      exact ⟨t, next, (unstepped _).mp (by rw [pwc]; exact (unstepped _).mpr acts), outcome⟩
    refine ⟨?_, ?_, ?_, ?_, fun host => ?_⟩
    · obtain ⟨t, run, ⟨set, state⟩, outcome⟩ := result (c := .powerRequestNone settings seq) 0 rfl rfl
        (fun x => x.settings = p ∧ x.state = s.pwc.state) (fun _ => .rfl) ⟨(kept 0).1, (kept 0).2.1⟩
      exact ⟨t, run, set, state, outcome⟩
    · obtain ⟨set, state, cause⟩ := actOnRequest_active (still 1)
      obtain ⟨t, run, ⟨set, state, cause⟩, outcome⟩ := result (c := .powerRequestActive settings seq) 1 rfl rfl
        (fun x => x.settings = p ∧ x.state = .active ∧ (s.pwc.state = .dimmed → x.dimCause = .none)) (fun _ => .rfl)
        ⟨set.trans (kept 1).1, state, fun dimmed => cause ((kept 1).2.1.trans dimmed)⟩
      exact ⟨t, run, set, state, outcome, cause⟩
    · obtain ⟨set, state, cause⟩ := actOnRequest_dimmed (still 2)
      obtain ⟨t, run, ⟨set, state, cause⟩, outcome⟩ := result (c := .powerRequestDimmed settings seq) 2 rfl rfl
        (fun x => x.settings = p ∧ x.state = .dimmed ∧ x.dimCause = .request) (fun _ => .rfl)
        ⟨set.trans (kept 2).1, state, cause⟩
      exact ⟨t, run, set, state, cause, outcome⟩
    · obtain ⟨set, state, cause, timer⟩ := actOnRequest_standby (still 3)
      obtain ⟨t, run, ⟨set, state, cause, timer⟩, outcome⟩ := result (c := .powerRequestStandby settings seq) 3 rfl rfl
        (fun x => x.settings = p ∧ x.state = .enteringStandby ∧ x.dimCause = .none ∧ x.thermalTimer = none)
        (fun _ => .rfl) ⟨set.trans (kept 3).1, state, cause, timer⟩
      exact ⟨t, run, set, state, cause, timer, outcome⟩
    · obtain ⟨set, state, stop, reset, -⟩ := actOnRequest_off (still 4) (by rw [(kept 4).2.2]; exact host)
      obtain ⟨t, run, ⟨set, state, stop, reset⟩, outcome⟩ := result (c := .powerRequestOff settings seq) 4 rfl rfl
        (fun x => x.settings = p ∧ x.state = .stopping ∧ x.lastStop = .request ∧ x.hostReset = true) (fun _ => .rfl)
        ⟨set.trans (kept 4).1, state, stop, reset⟩
      exact ⟨t, run, set, state, stop, reset, outcome⟩
  · exact powerRequest_refused length arms fun code r t _ _ => judgePower_of_field ((settingsAt_cons ..).trans none)
  · exact powerRequest_refused length arms fun code r t named pwc =>
      judgePower_of_transition named ((settingsAt_cons ..).trans fields) (by rwa [pwc])

/-! ### A held request for OFF (R141, R145, R153) -/

/-- WAKING, before the last rail is up, with a power record arm held at the port that asks for OFF. -/
def wakingIntoOff : State :=
  { State.reset with
    pwc := { Pwc.reset with state := .waking, step := .wakeRail .panel [], enables := ⟨true, true, true, true⟩ },
    hmp := { Hmp.reset with hold := .standby, held := some (armTx .power [4, 8, 4, 0, 1, 1, 0, 0] 1 State.reset) } }

theorem exec_railPowerGoodRise {r : Rail} {s : State} (low : s.pins.pg.get r = false) :
    exec (.railPowerGoodRise r) s = .next (drain (powerGoodRises r s)) :=
  congrArg Host.Outcome.next (if_neg (Bool.eq_false_iff.mp low))

theorem drain_railTimer (s : State) : (drain s).pwc.railTimer = s.pwc.railTimer :=
  congrArg (·.railTimer) (drain_delivers s).pwc

/-- Refutes O7: with the last rail up, WAKING reaches ACTIVE and the port takes the held arm, which asks for OFF; STOPPING
has then begun and its rail timer runs, while the statement has no rail timer run once the rails are up. -/
theorem not_railsComeUpInOrder : ¬ Obligations.RailsComeUpInOrder := by
  intro h
  obtain ⟨-, -, rises⟩ := h wakingIntoOff
  obtain ⟨u, run, -, -, -, all⟩ := rises .panel [] true rfl rfl
  have stopped : (powerGoodRises .panel wakingIntoOff).pwc.railTimer = some 10000 := by decide +kernel
  have same : drain (powerGoodRises .panel wakingIntoOff) = drain u := 
    Host.Outcome.next.inj ((exec_railPowerGoodRise rfl).symm.trans run)
  have none : u.pwc.railTimer = none := (all (by simp)).2.1
  have timer := congrArg (fun t : State => t.pwc.railTimer) same
  simp only [drain_railTimer, stopped, none] at timer
  cases timer

end Sys2Proof.Machine
end

section
/-!
PROOFS. Host reads and held transactions (chapter 8).
-/
namespace Sys2Proof.Machine

/-! ### The class of an address (R154, R157) -/

theorem find?_finRange_first {k : Nat} {p : Fin k → Bool} {n : Fin k} (here : p n = true) (before : ∀ m, m < n → p m = false) :
    (List.finRange k).find? p = some n := by
  refine List.find?_eq_some_iff_getElem.mpr ⟨here, n.val, by simp, by simp, fun j hj => ?_⟩
  simpa using before ⟨j, by omega⟩ hj

theorem classify_of_plan {a : Nat} {s : State} (h : s.planBase ≤ a ∧ a < s.planBase + 0x4000) : classify a s =
    if a - s.planBase < 0x1000 then .record (a - s.planBase)
    else if a - s.planBase < 0x2000 then .planPlain
    else .status ((a - s.planBase - 0x2000) / 64) := if_pos h

theorem classify_of_uncovered {a : Nat} {s : State} (h : ¬ (s.planBase ≤ a ∧ a < s.planBase + 0x4000))
    (none : ∀ n, (vget s.rm.regions n).covers a = false) : classify a s = .plain := by
  have found : ((List.finRange 32).find? fun n => (vget s.rm.regions n).covers a) = .none :=
    List.find?_eq_none.mpr fun n _ => by simp [none n]
  rw [classify, if_neg h, found]

theorem classify_of_covered {a : Nat} {s : State} {n : Fin 32} (h : ¬ (s.planBase ≤ a ∧ a < s.planBase + 0x4000))
    (here : (vget s.rm.regions n).covers a = true) (first : ∀ m, m < n → (vget s.rm.regions m).covers a = false) :
    classify a s = entryClass n (vget s.rm.regions n) := by
  rw [classify, if_neg h, find?_finRange_first here first]

theorem Region.covers_iff (a : Nat) (r : Region) :
    r.covers a = true ↔ r.valid = true ∧ r.base.toNat ≤ a ∧ a < r.base.toNat + 4096 * r.size.toNat := by
  simp [Region.covers, and_assoc]

theorem entryClass_frame {n : Fin 32} {r : Region} (kind : r.kind = 0) {k : Fin 6} (bound : r.binding.toNat = k.val) :
    entryClass n r = .frame k := by
  simp [entryClass, kind, bound]

theorem entryClass_fresh {n : Fin 32} {r : Region} (kind : r.kind = 1) {k : Fin 4} (bound : r.binding.toNat = k.val) :
    entryClass n r = .fresh n k := by
  simp [entryClass, kind, bound]

theorem entryClass_touch {n : Fin 32} {r : Region} (kind : r.kind = 2) {k : Fin 4} (bound : r.binding.toNat = k.val) :
    entryClass n r = .touch k := by
  simp [entryClass, kind, bound]

theorem entryClass_guard {n : Fin 32} {r : Region} (kind : r.kind = 3) : entryClass n r = .guarded n := by
  simp [entryClass, kind]

/-! ### Reads (R152, R155) -/

/-- A read that is no status page's and no fresh line's passes. -/
theorem takeRead_of_passed {line : Nat} {s : State} (status : ∀ p, classify (64 * line) s ≠ .status p)
    (fresh : ∀ e n, classify (64 * line) s ≠ .fresh e n) : takeRead line s = passRead line s := by
  unfold takeRead
  split
  next p h => exact absurd h (status p)
  next e n h => exact absurd h (fresh e n)
  next => rfl

theorem exec_hostRead {line : HostLine} {s : State} (taking : s.taking) :
    exec (.hostRead line) s = .next (takeRead line.toNat s) :=
  congrArg Host.Outcome.next (hostArrive_of_taking taking _)

/-- Settles O15, by the class of the address and by whether the line is populated. -/
theorem hostReads : Obligations.HostReads := by
  refine ⟨fun a s => ⟨?_, fun inPlan low => ?_, fun inPlan low high => ?_, fun inPlan low => ?_, fun out none => ?_,
    fun out n here first => ?_⟩, fun line s taking status fresh => ⟨fun populated => ?_, fun beyond none => ?_⟩⟩
  · simp only [State.planBase]
    generalize s.pu.sel = sel
    revert sel
    decide
  · rw [classify_of_plan inPlan, if_pos low]
  · rw [classify_of_plan inPlan, if_neg (by omega), if_pos high]
  · rw [classify_of_plan inPlan, if_neg (by omega), if_neg (by omega)]
  · exact classify_of_uncovered out fun n => Bool.eq_false_iff.mpr fun h => none n ((Region.covers_iff ..).mp h)
  · have entry := classify_of_covered out ((Region.covers_iff ..).mpr here) fun m hm =>
      Bool.eq_false_iff.mpr fun h => first m hm ((Region.covers_iff ..).mp h)
    rw [entry]
    exact ⟨fun k kind bound => entryClass_frame kind bound, fun k kind bound => entryClass_fresh kind bound,
      fun k kind bound => entryClass_touch kind bound, entryClass_guard⟩
  · have passed : passRead line.toNat s = request (.hostRead s.nextId) line.toNat .read
        (({ s with nextId := s.nextId + 1 } : State).onHmp fun h =>
          { h with reads := h.reads ++ [(⟨s.nextId, none⟩ : ReadSlot)] }) :=
      if_neg (by simp only [dramLimit]; omega)
    refine ⟨_, exec_hostRead taking, ?_⟩
    rw [takeRead_of_passed status fresh, passed]
    exact ⟨by simp, mem_request _ _ _ _ (by simp), by simp, by simp⟩
  · have passed : passRead line.toNat s = answerNow (List.replicate 64 0xFF) s := if_pos beyond
    refine ⟨_, exec_hostRead taking, ?_⟩
    rw [takeRead_of_passed status fresh, passed, answerNow_of_none none]
    exact ⟨rfl, rfl, rfl⟩

/-! ### Held transactions (R141, R142, R153) -/

theorem holdTx_waiting (tx : HostTx) (s : State) : holdTx tx s =
    if s.hmp.hold = .standby then wakeCause .hostAccess (s.onHmp fun h => { h with held := some tx })
    else s.onHmp fun h => { h with held := some tx } := rfl

/-- The first transaction to arrive while the port holds is held. -/
theorem hostArrive_of_holding {s : State} (port : s.portOpen = true) (hold : s.hmp.hold ≠ .none) (held : s.hmp.held = none)
    (pins : s.hmp.atPins = []) (tx : HostTx) : hostArrive tx s = holdTx tx s := by
  have waits : hostArrive tx s = holdTx tx ((s.onHmp fun h => { h with atPins := h.atPins ++ [tx] }).onHmp fun h =>
      { h with atPins := [] }) := by
    simp [hostArrive, port, pump, pumpUpTo, pins, hold, held]
  have same : ((s.onHmp fun h => { h with atPins := h.atPins ++ [tx] }).onHmp fun h => { h with atPins := [] }) = s := by
    change { s with hmp := { s.hmp with atPins := [] } } = s
    rw [← pins]
  rw [waits, same]

/-- Settles O19, by why the port holds. -/
theorem heldTransactions : Obligations.HeldTransactions := by
  intro tx s port hold held pins
  have run : exec (.heldTransaction tx) s = .next (holdTx tx s) := by
    rw [← hostArrive_of_holding port hold held pins]
    exact congrArg Host.Outcome.next (if_neg hold)
  refine ⟨holdTx tx s, run, ?_⟩
  rw [holdTx_waiting]
  by_cases standby : s.hmp.hold = .standby
  · rw [if_pos standby]
    refine ⟨?_, ?_, ?_, ?_, ?_, fun _ asleep => ?_, fun _ entering kept => ?_, fun other => absurd standby other⟩
    · simp
    · simp
    · unfold wakeCause
      split <;> simp [beginWaking]
    · simp
    · simp
    · simp [wakeCause, asleep, beginWaking]
    · simp [wakeCause, entering, kept]
  · rw [if_neg standby]
    exact ⟨rfl, rfl, rfl, rfl, rfl, fun h => absurd h standby, fun h => absurd h standby, fun _ => rfl⟩

end Sys2Proof.Machine
end

section
/-!
PROOFS. The DRAM arbiter's choice (R161, R162).
-/
namespace Sys2Proof.Machine

/-! ### The least of a list -/

theorem le_foldl_min_iff (c a : Nat) (l : List Nat) : c ≤ l.foldl min a ↔ c ≤ a ∧ ∀ x ∈ l, c ≤ x := by
  induction l generalizing a with
  | nil => simp
  | cons x rest ih => simp [ih, Nat.le_min, and_assoc]

theorem foldl_min_mem (a : Nat) (l : List Nat) : l.foldl min a = a ∨ l.foldl min a ∈ l := by
  induction l generalizing a with
  | nil => exact .inl rfl
  | cons x rest ih =>
    rcases ih (min a x) with least | inside
    · have choice : min a x = a ∨ min a x = x := by omega
      rcases choice with first | second
      · exact .inl (least.trans first)
      · exact .inr (List.mem_cons.mpr (.inl (least.trans second)))
    · exact .inr (List.mem_cons_of_mem _ inside)

/-! ### Ranks -/

theorem ReqClass.rank_lt (c : ReqClass) : c.rank < 5 := by cases c <;> decide

theorem le_lineRank_iff (c : Nat) (reqs : List Request) (line : Nat) :
    c ≤ lineRank reqs line ↔ c ≤ 5 ∧ ∀ q ∈ reqs, q.line = line → c ≤ q.agent.cls.rank := by
  rw [lineRank, le_foldl_min_iff, List.forall_mem_map]
  simp

theorem le_bestRank_iff (c : Nat) (reqs : List Request) :
    c ≤ bestRank reqs ↔ c ≤ 5 ∧ ∀ q ∈ reqs, c ≤ q.agent.cls.rank := by
  rw [bestRank, le_foldl_min_iff, List.forall_mem_map]

theorem bestRank_le_lineRank (reqs : List Request) (line : Nat) : bestRank reqs ≤ lineRank reqs line := by
  obtain ⟨bound, each⟩ := (le_bestRank_iff (bestRank reqs) reqs).mp (Nat.le_refl _)
  exact (le_lineRank_iff ..).mpr ⟨bound, fun q hq _ => each q hq⟩

theorem lineRank_le {reqs : List Request} {q : Request} (h : q ∈ reqs) : lineRank reqs q.line ≤ q.agent.cls.rank :=
  ((le_lineRank_iff _ reqs q.line).mp (Nat.le_refl _)).2 q h rfl

/-- Where a request waits, the best rank is that of some line. -/
theorem exists_best {reqs : List Request} (h : reqs ≠ []) : ∃ q ∈ reqs, lineRank reqs q.line = bestRank reqs := by
  have attained : ∃ q ∈ reqs, q.agent.cls.rank = bestRank reqs := by
    rcases foldl_min_mem 5 (reqs.map (·.agent.cls.rank)) with five | inside
    · obtain ⟨r, hr⟩ := List.exists_mem_of_ne_nil reqs h
      have small := ((le_bestRank_iff (bestRank reqs) reqs).mp (Nat.le_refl _)).2 r hr
      rw [bestRank, five] at small
      exact absurd (ReqClass.rank_lt _) (Nat.not_lt.mpr small)
    · simpa [bestRank] using inside
  obtain ⟨q, hq, rank⟩ := attained
  exact ⟨q, hq, Nat.le_antisymm (rank ▸ lineRank_le hq) (bestRank_le_lineRank ..)⟩

/-- The effective rank of a ready request: the best of the requests made from it on to its line. -/
theorem lineRank_of_ready {pre post : List Request} {r : Request} (ready : ∀ q ∈ pre, q.line ≠ r.line) :
    ((r :: post).filter (·.line == r.line)).foldl (fun m q => min m q.agent.cls.rank) 5 =
      lineRank (pre ++ r :: post) r.line := by
  have none : pre.filter (·.line == r.line) = [] := List.filter_eq_nil_iff.mpr fun q hq => by simpa using ready q hq
  rw [lineRank, List.filter_append, none, List.nil_append, List.foldl_map]

/-- Settles O20, from the first request whose line has the best rank. -/
theorem arbiterChoice : Obligations.ArbiterChoice := by
  intro reqs
  refine ⟨⟨fun none => ?_, fun empty => by rw [empty]; rfl⟩, fun r chosen => ?_⟩
  · refine Classical.byContradiction fun some => ?_
    obtain ⟨q, hq, best⟩ := exists_best some
    simpa [best] using List.find?_eq_none.mp none q hq
  · obtain ⟨best, pre, post, split, worse⟩ := List.find?_eq_some_iff_append.mp chosen
    have best : lineRank reqs r.line = bestRank reqs := by simpa using best
    have worse : ∀ q ∈ pre, lineRank reqs q.line ≠ bestRank reqs := fun q hq => by simpa using worse q hq
    have ready : ∀ q ∈ pre, q.line ≠ r.line := fun q hq same => worse q hq (same ▸ best)
    refine ⟨pre, post, split, ready, fun pre' q post' split' ready' => ?_⟩
    have rank := lineRank_of_ready (post := post) ready
    have rank' := lineRank_of_ready (post := post') ready'
    rw [← split, best] at rank
    rw [← split'] at rank'
    dsimp only
    rw [rank, rank']
    refine ⟨bestRank_le_lineRank .., fun same => ?_⟩
    refine Classical.byContradiction fun shorter => ?_
    have inside : q ∈ pre := by
      have here : reqs[pre'.length]? = some q := by rw [split']; simp
      rw [split, List.getElem?_append_left (by omega)] at here
      exact List.mem_of_getElem? here
    exact worse q inside same

end Sys2Proof.Machine
end

section
/-!
PROOFS. The fresh line (R67, R159, R187).
-/
namespace Sys2Proof.Machine

/-! ### Bytes of joined strings -/

theorem bytesAt_left {a b : List Byte} {off n : Nat} (h : off + n ≤ a.length) : bytesAt (a ++ b) off n = bytesAt a off n := by
  rw [bytesAt, bytesAt, List.drop_append_of_le_length (by omega), List.take_append_of_le_length]
  rw [List.length_drop]
  omega

theorem bytesAt_last {a b : List Byte} {off n : Nat} (before : a.length = off) (here : b.length = n) :
    bytesAt (a ++ b) off n = b := by
  rw [bytesAt, List.drop_left' before, List.take_of_length_le (by omega)]

theorem getD_left {a b : List Byte} {i : Nat} (h : i < a.length) : (a ++ b).getD i 0 = a.getD i 0 := by
  rw [List.getD_eq_getElem?_getD, List.getD_eq_getElem?_getD, List.getElem?_append_left h]

theorem getD_last {a : List Byte} {b : Byte} {i : Nat} (before : a.length = i) : (a ++ [b]).getD i 0 = b := by
  rw [← before]
  simp

/-! ### The line's parts -/

/-- The flags of a fresh line: FAULT_CLEARED of its record, if it has one, else EMPTY, and what is missing of the times. -/
def freshFlags (record : Option Bool) (fresh noLast noNext : Bool) : Byte :=
  let extra : Byte := (if fresh then 0 else 0x02) ||| (if noLast then 0x08 else 0) ||| (if noNext then 0x10 else 0)
  match record with
  | some cleared => flagByte cleared ||| extra
  | none => extra ||| 0x04

theorem freshFlags_bits (record : Option Bool) (fresh noLast noNext : Bool) :
    let flags := freshFlags record fresh noLast noNext
    flags.getLsbD 0 = record.getD false ∧ flags.getLsbD 1 = (!fresh) ∧ flags.getLsbD 2 = record.isNone ∧
    flags.getLsbD 3 = noLast ∧ flags.getLsbD 4 = noNext ∧ flags.toNat < 2 ^ 5 := by
  revert fresh noLast noNext
  cases record with
  | none => decide
  | some cleared => cases cleared <;> decide

/-- The record of a slot as its fresh line gives it. -/
def freshHead (record : Option SensorRec) (flags : Byte) : List Byte :=
  match record with
  | some r => [BitVec.ofNat 8 r.channel.val, flags] ++ toBytes 2 r.seq.toNat ++ stampBytes r.stamp ++
      [BitVec.ofNat 8 r.length, r.overrun] ++ toBytes 4 r.frame.toNat ++ padTo 16 r.payload
  | none => [0, flags] ++ zeros 30

/-- The flags that a slot's fresh line has now. -/
def State.freshFlags (n : Fin 4) (s : State) : Byte :=
  Machine.freshFlags ((vget s.sh.slots n).record.map (·.faultCleared)) s.tb.fresh
    (inEpoch s.tb.snapshot.epoch s.so.lastPhoton).isNone (inEpoch s.tb.snapshot.epoch s.so.nextPhoton).isNone

theorem freshLine_eq (n : Fin 4) (s : State) : freshLine n s =
    freshHead (vget s.sh.slots n).record (s.freshFlags n) ++ toBytes 5 s.tb.snapshot.time.toNat ++
    [s.tb.snapshot.epoch] ++ timeBytes (inEpoch s.tb.snapshot.epoch s.so.lastPhoton) ++
    timeBytes (inEpoch s.tb.snapshot.epoch s.so.nextPhoton) ++ toBytes 4 s.so.frameNumber.toNat ++
    toBytes 4 (vget s.sh.slots n).updates.toNat ++ zeros 8 := by
  rw [State.freshFlags]
  cases h : (vget s.sh.slots n).record <;> simp [freshLine, freshHead, h, freshFlags, SensorRec.bytes]

@[simp] theorem freshHead_length (record : Option SensorRec) (flags : Byte) : (freshHead record flags).length = 32 := by
  cases record <;> simp [freshHead, stampBytes]

@[simp] theorem timeBytes_length (t : Option Stamp) : (timeBytes t).length = 5 := by
  cases t <;> simp [timeBytes]

@[simp] theorem stampBytes_length (t : Stamp) : (stampBytes t).length = 6 := by simp [stampBytes]

/-- The bytes of the record's part of a fresh line. -/
theorem freshLine_head (n : Fin 4) (s : State) :
    (∀ off k, off + k ≤ 32 → bytesAt (freshLine n s) off k =
      bytesAt (freshHead (vget s.sh.slots n).record (s.freshFlags n)) off k) ∧
    ∀ i, i < 32 → (freshLine n s).getD i 0 = (freshHead (vget s.sh.slots n).record (s.freshFlags n)).getD i 0 := by
  rw [freshLine_eq]
  refine ⟨fun off k h => ?_, fun i h => ?_⟩
  · repeat rw [bytesAt_left (by simp; omega)]
  · repeat rw [getD_left (by simp; omega)]

/-- The fields of a fresh line after its record. -/
theorem freshLine_tail (n : Fin 4) (s : State) :
    bytesAt (freshLine n s) 32 5 = toBytes 5 s.tb.snapshot.time.toNat ∧
    (freshLine n s).getD 37 0 = s.tb.snapshot.epoch ∧
    bytesAt (freshLine n s) 38 5 = timeBytes (inEpoch s.tb.snapshot.epoch s.so.lastPhoton) ∧
    bytesAt (freshLine n s) 43 5 = timeBytes (inEpoch s.tb.snapshot.epoch s.so.nextPhoton) ∧
    bytesAt (freshLine n s) 48 4 = toBytes 4 s.so.frameNumber.toNat ∧
    bytesAt (freshLine n s) 52 4 = toBytes 4 (vget s.sh.slots n).updates.toNat ∧
    bytesAt (freshLine n s) 56 8 = zeros 8 := by
  rw [freshLine_eq]
  refine ⟨?_, ?_, ?_, ?_, ?_, ?_, ?_⟩
  · iterate 6 rw [bytesAt_left (by simp)]
    exact bytesAt_last (by simp) (by simp)
  · iterate 5 rw [getD_left (by simp)]
    exact getD_last (by simp)
  · iterate 4 rw [bytesAt_left (by simp)]
    exact bytesAt_last (by simp) (by simp)
  · iterate 3 rw [bytesAt_left (by simp)]
    exact bytesAt_last (by simp) (by simp)
  · iterate 2 rw [bytesAt_left (by simp)]
    exact bytesAt_last (by simp) (by simp)
  · rw [bytesAt_left (by simp)]
    exact bytesAt_last (by simp) (by simp)
  · exact bytesAt_last (by simp) (by simp)

/-- The fields of the record that a fresh line holds. -/
theorem freshHead_fields (r : SensorRec) (flags : Byte) :
    let l := freshHead (some r) flags
    l.getD 0 0 = BitVec.ofNat 8 r.channel.val ∧ l.getD 1 0 = flags ∧ bytesAt l 2 2 = toBytes 2 r.seq.toNat ∧
    bytesAt l 4 5 = toBytes 5 r.stamp.time.toNat ∧ l.getD 9 0 = r.stamp.epoch ∧
    l.getD 10 0 = BitVec.ofNat 8 r.length ∧ l.getD 11 0 = r.overrun ∧ bytesAt l 12 4 = toBytes 4 r.frame.toNat ∧
    bytesAt l 16 16 = padTo 16 r.payload := by
  have whole : freshHead (some r) flags = [BitVec.ofNat 8 r.channel.val] ++ [flags] ++ toBytes 2 r.seq.toNat ++
      toBytes 5 r.stamp.time.toNat ++ [r.stamp.epoch] ++ [BitVec.ofNat 8 r.length] ++ [r.overrun] ++
      toBytes 4 r.frame.toNat ++ padTo 16 r.payload := by simp [freshHead, stampBytes]
  rw [whole]
  refine ⟨rfl, rfl, ?_, ?_, ?_, ?_, ?_, ?_, ?_⟩
  · iterate 6 rw [bytesAt_left (by simp)]
    exact bytesAt_last (by simp) (by simp)
  · iterate 5 rw [bytesAt_left (by simp)]
    exact bytesAt_last (by simp) (by simp)
  · iterate 4 rw [getD_left (by simp)]
    exact getD_last (by simp)
  · iterate 3 rw [getD_left (by simp)]
    exact getD_last (by simp)
  · iterate 2 rw [getD_left (by simp)]
    exact getD_last (by simp)
  · rw [bytesAt_left (by simp)]
    exact bytesAt_last (by simp) (by simp)
  · exact bytesAt_last (by simp) (by simp)

/-! ### Times of the line's epoch -/

theorem inEpoch_of_same {epoch : Byte} {t : Option Stamp} {x : Stamp} (h : t = some x) (same : x.epoch = epoch) :
    inEpoch epoch t = some x := by
  simp [inEpoch, h, same]

theorem inEpoch_of_other {epoch : Byte} {t : Option Stamp} (h : ∀ x, t = some x → x.epoch ≠ epoch) :
    inEpoch epoch t = none := by
  cases t with
  | none => rfl
  | some x => simp [inEpoch, h x rfl]

/-- The next expected photon time of a running engine (R47). -/
theorem So.nextPhoton_of_running {o : So} (running : o.state = .running) :
    let lead := o.applied.scan + o.applied.settle
    let period := if o.applied.sync = .triggered ∧ o.coasting = false then o.measured.getD o.applied.period
      else o.applied.period
    o.nextPhoton = some ⟨o.lastBoundary.time + BitVec.ofNat 40 (if o.phase = .scan ∨ o.phase = .settle then lead
      else period + lead), o.lastBoundary.epoch⟩ := by
  cases sync : o.applied.sync <;> cases coasting : o.coasting <;> cases measured : o.measured <;>
    simp [So.nextPhoton, running, sync, coasting, measured]

theorem exec_freshRead {line : HostLine} {e : Fin 32} {n : Fin 4} {s : State} (taking : s.taking)
    (here : classify (64 * line.toNat) s = .fresh e n) :
    exec (.freshRead line) s = .next (answerNow (freshLine n s) s) := by
  have fresh : (classify (64 * line.toNat) s).isFresh = true := by rw [here]; rfl
  have take : takeRead line.toNat s = answerNow (freshLine n s) s := by rw [takeRead, here]
  rw [← take]
  exact congrArg Host.Outcome.next ((if_pos fresh).trans (hostArrive_of_taking taking _))

/-- Settles O17, from the parts of the line and the bits of its flags. -/
theorem freshReads : Obligations.FreshReads := by
  intro n s
  obtain ⟨bytes, each⟩ := freshLine_head n s
  obtain ⟨time, epoch, last, next, frame, updates, pad⟩ := freshLine_tail n s
  have flags : (freshLine n s).getD 1 0 = s.freshFlags n := by
    rw [each 1 (by omega)]
    cases (vget s.sh.slots n).record <;> rfl
  obtain ⟨cleared, stale, empty, noLast, noNext, small⟩ := freshFlags_bits
    ((vget s.sh.slots n).record.map (·.faultCleared)) s.tb.fresh (inEpoch s.tb.snapshot.epoch s.so.lastPhoton).isNone
    (inEpoch s.tb.snapshot.epoch s.so.nextPhoton).isNone
  rw [← State.freshFlags] at cleared stale empty noLast noNext small
  dsimp only
  rw [flags]
  refine ⟨fun line e taking none here => ?_, ?_, ?_, stale, time, epoch, frame, updates, pad, fun t photon same => ?_,
    fun other => ?_, fun t photon same => ?_, fun other => ?_, fun i hi => ?_, fun still => if_pos still,
    So.nextPhoton_of_running, fun r record => ?_, fun none => ?_⟩
  · rw [exec_freshRead taking here, answerNow_of_none none]
  · rw [freshLine_eq]
    simp
  · rw [empty, Option.isNone_map]
  · rw [noLast, last, inEpoch_of_same photon same]
    exact ⟨rfl, rfl⟩
  · rw [noLast, last, inEpoch_of_other other]
    exact ⟨rfl, rfl⟩
  · rw [noNext, next, inEpoch_of_same photon same]
    exact ⟨rfl, rfl⟩
  · rw [noNext, next, inEpoch_of_other other]
    exact ⟨rfl, rfl⟩
  · exact Nat.testBit_lt_two_pow (Nat.lt_of_lt_of_le small (Nat.pow_le_pow_right (by omega) hi))
  · obtain ⟨channel, -, seq, at_, age, length, overrun, number, payload⟩ := freshHead_fields r (s.freshFlags n)
    rw [record] at bytes each
    rw [each 0 (by omega), each 9 (by omega), each 10 (by omega), each 11 (by omega), bytes 2 2 (by omega),
      bytes 4 5 (by omega), bytes 12 4 (by omega), bytes 16 16 (by omega), cleared, record]
    exact ⟨channel, rfl, seq, at_, age, length, overrun, number, payload⟩
  · rw [none] at bytes each
    rw [each 0 (by omega), bytes 2 30 (by omega), cleared, none]
    exact ⟨rfl, rfl, rfl⟩

end Sys2Proof.Machine
end

section
/-!
PROOFS. How the parts of a status page line are laid out (R188).
-/
namespace Sys2Proof.Machine

/-! ### Strings that show their fields -/

/-- A string of `n` bytes shows the fields, all of them within it. -/
def Lays (n : Nat) (l : List Byte) (ps : List Place) : Prop := Shows l ps ∧ l.length = n ∧ Within n ps

theorem Lays.append {n m : Nat} {a b : List Byte} {ps qs : List Place} (h : Lays n a ps) (k : Lays m b qs) :
    Lays (n + m) (a ++ b) (ps ++ shift n qs) := by
  obtain ⟨shows₁, rfl, within₁⟩ := h
  obtain ⟨shows₂, rfl, within₂⟩ := k
  refine ⟨shows₁.append shows₂ within₁, List.length_append, fun p hp => ?_⟩
  rcases List.mem_append.mp hp with left | right
  · exact Nat.le_trans (within₁ p left) (Nat.le_add_right ..)
  · obtain ⟨q, hq, rfl⟩ := List.mem_map.mp right
    have := within₂ q hq
    simp only
    omega

/-- Fewer fields may be named where the others are zero. -/
theorem Lays.named {n : Nat} {l : List Byte} {ps qs : List Place} (h : Lays n l ps) (sub : ∀ q ∈ qs, q ∈ ps)
    (rest : ∀ p ∈ ps, p ∈ qs ∨ ∀ b ∈ p.2, b = 0) : Lays n l qs := by
  obtain ⟨shows, length, within⟩ := h
  have zeros (zs : List Place) (z : ∀ p ∈ zs, ∀ b ∈ p.2, b = 0) (shows : Shows l (zs ++ qs)) : Shows l qs := by
    induction zs with
    | nil => exact shows
    | cons a r ih => exact ih (fun p hp => z p (List.mem_cons_of_mem _ hp)) (shows.drop_zero (z a (List.mem_cons_self ..)))
  refine ⟨zeros (ps.filter fun p => p.2.all (· == 0)) (fun p hp => ?_) (shows.congr fun p => ?_), length,
    fun q hq => within q (sub q hq)⟩
  · simpa using (List.mem_filter.mp hp).2
  · rw [List.mem_append, List.mem_filter]
    refine ⟨fun h => ?_, fun h => h.elim And.left (sub p)⟩
    rcases rest p h with named | zero
    · exact .inr named
    · exact .inl ⟨h, by simpa using zero⟩

theorem lays_zeros (n : Nat) : Lays n (zeros n) [] := ⟨shows_zeros n, zeros_length n, by simp [Within]⟩

/-- A string as the first bytes of a status page line. -/
theorem Lays.line {n : Nat} {l : List Byte} {ps : List Place} (h : Lays n l ps) (fits : n ≤ 56) :
    Shows (padTo 56 l) ps ∧ Within 56 ps := by
  obtain ⟨shows, rfl, within⟩ := h
  have inside : Within 56 ps := fun p hp => Nat.le_trans (within p hp) fits
  exact ⟨shows.padTo within 56 inside, inside⟩

/-- A string padded with zeros. -/
theorem Lays.padded {n m : Nat} {l : List Byte} {ps : List Place} (h : Lays n l ps) (fits : n ≤ m) :
    Lays m (padTo m l) ps := by
  obtain ⟨shows, rfl, within⟩ := h
  have inside : Within m ps := fun p hp => Nat.le_trans (within p hp) fits
  exact ⟨shows.padTo within m inside, padTo_length .., inside⟩

/-! ### Fields in order -/

section
variable (off : Nat) (r : List Field)

@[simp] theorem fieldPlaces_nil : fieldPlaces off [] = [] := rfl

@[simp] theorem fieldPlaces_b1 (v : Byte) : fieldPlaces off (.b1 v :: r) = (off, [v]) :: fieldPlaces (off + 1) r := by
  simp [fieldPlaces, roundUp, Field.align, Field.bytes, Nat.mod_one]

@[simp] theorem fieldPlaces_b2 (v : Nat) : fieldPlaces off (.b2 v :: r) =
    (roundUp 2 off, toBytes 2 v) :: fieldPlaces (roundUp 2 off + 2) r := by
  simp [fieldPlaces, Field.align, Field.bytes]

@[simp] theorem fieldPlaces_b4 (v : Nat) : fieldPlaces off (.b4 v :: r) =
    (roundUp 4 off, toBytes 4 v) :: fieldPlaces (roundUp 4 off + 4) r := by
  simp [fieldPlaces, Field.align, Field.bytes]

@[simp] theorem fieldPlaces_b8 (v : Nat) : fieldPlaces off (.b8 v :: r) =
    (roundUp 8 off, toBytes 8 v) :: fieldPlaces (roundUp 8 off + 8) r := by
  simp [fieldPlaces, Field.align, Field.bytes]

@[simp] theorem fieldPlaces_time (t : Stamp) : fieldPlaces off (.time t :: r) =
    (roundUp 2 off, stampBytes t) :: fieldPlaces (roundUp 2 off + 6) r := by
  simp [fieldPlaces, Field.align, Field.bytes]

end

/-- The bytes that fields laid out in order take up. -/
def fieldsEnd : Nat → List Field → Nat
  | off, [] => off
  | off, f :: r => fieldsEnd (roundUp f.align off + f.bytes.length) r

theorem foldl_placeField_length (fs : List Field) (l : List Byte) :
    (fs.foldl placeField l).length = fieldsEnd l.length fs := by
  induction fs generalizing l with
  | nil => rfl
  | cons f r ih => rw [List.foldl_cons, ih, placeField_length, fieldsEnd]

theorem lays_layout (fs : List Field) : Lays (fieldsEnd 0 fs) (layout fs) (fieldPlaces 0 fs) := by
  have length : (layout fs).length = fieldsEnd 0 fs := foldl_placeField_length fs []
  exact ⟨shows_layout fs, length, length ▸ layout_within fs⟩

/-! ### Tables -/

theorem vlist_eq_map {α : Type} {n : Nat} (v : Vector α n) : vlist v = (List.finRange n).map (vget v) := by
  refine List.ext_getElem (by simp [vlist]) fun i _ _ => ?_
  simp [vlist, vget]

/-- The entries of a list that has no more than the group holds. -/
theorem lays_flatMap {α : Type} (k size : Nat) {l : List α} {bytes : α → List Byte} {places : α → List Place}
    (length : l.length = k) (each : ∀ e ∈ l, Lays size (bytes e) (places e)) :
    Lays (k * size) (l.flatMap bytes) (entryPlaces k size 0 l places) := by
  obtain ⟨shows, -⟩ := shows_flatMap size bytes places l fun e he => by
    obtain ⟨shows, length, within⟩ := each e he
    exact ⟨shows, length, within⟩
  refine ⟨shows.congr fun p => ?_, ?_, entryPlaces_within k size 0 l places fun e he => (each e he).2.2⟩
  · rw [mem_entryPlaces, List.drop_zero, List.take_of_length_le (Nat.le_of_eq length)]
  · rw [List.length_flatMap, List.map_congr_left fun e he => (each e he).2.1, List.map_const', List.sum_replicate_nat,
      length]

/-! ### Lines of fields -/

section
variable (off : Nat) (r : List Field)

@[simp] theorem fieldsEnd_nil : fieldsEnd off [] = off := rfl

@[simp] theorem fieldsEnd_b1 (v : Byte) : fieldsEnd off (.b1 v :: r) = fieldsEnd (off + 1) r := by
  simp [fieldsEnd, roundUp, Field.align, Field.bytes, Nat.mod_one]

@[simp] theorem fieldsEnd_b2 (v : Nat) : fieldsEnd off (.b2 v :: r) = fieldsEnd (roundUp 2 off + 2) r := by
  simp [fieldsEnd, Field.align, Field.bytes]

@[simp] theorem fieldsEnd_b4 (v : Nat) : fieldsEnd off (.b4 v :: r) = fieldsEnd (roundUp 4 off + 4) r := by
  simp [fieldsEnd, Field.align, Field.bytes]

@[simp] theorem fieldsEnd_b8 (v : Nat) : fieldsEnd off (.b8 v :: r) = fieldsEnd (roundUp 8 off + 8) r := by
  simp [fieldsEnd, Field.align, Field.bytes]

@[simp] theorem fieldsEnd_time (t : Stamp) : fieldsEnd off (.time t :: r) = fieldsEnd (roundUp 2 off + 6) r := by
  simp [fieldsEnd, Field.align, Field.bytes]

end

theorem layout_line {fs : List Field} {ps : List Place} (fits : fieldsEnd 0 fs ≤ 56)
    (sub : ∀ p ∈ ps, p ∈ fieldPlaces 0 fs) (rest : ∀ p ∈ fieldPlaces 0 fs, p ∈ ps ∨ ∀ b ∈ p.2, b = 0) :
    Shows (padTo 56 (layout fs)) ps ∧ Within 56 ps := ((lays_layout fs).named sub rest).line fits

theorem layout_line_all {fs : List Field} {ps : List Place} (fits : fieldsEnd 0 fs ≤ 56) (places : fieldPlaces 0 fs = ps) :
    Shows (padTo 56 (layout fs)) ps ∧ Within 56 ps := by
  subst places
  exact (lays_layout fs).line fits

theorem lays_of_layout {n : Nat} {l : List Byte} {fs : List Field} {ps : List Place} (bytes : l = layout fs)
    (length : fieldsEnd 0 fs = n) (sub : ∀ p ∈ ps, p ∈ fieldPlaces 0 fs)
    (rest : ∀ p ∈ fieldPlaces 0 fs, p ∈ ps ∨ ∀ b ∈ p.2, b = 0) : Lays n l ps := by
  subst bytes length
  exact (lays_layout fs).named sub rest

@[simp] theorem toBytes_zero (n : Nat) : toBytes n 0 = zeros n := by
  induction n with
  | zero => rfl
  | succ n ih => simpa [toBytes, zeros, List.replicate_succ] using ih

@[simp] theorem stampBytes_zero : stampBytes Stamp.zero = zeros 6 := by
  simp [stampBytes, Stamp.zero, zeros]

@[simp] theorem mem_zeros (n : Nat) (b : Byte) : b ∈ zeros n ↔ n ≠ 0 ∧ b = 0 := by simp [zeros]

/-! ### Optional fields -/

/-- The fields `qs` are those of `ps` but for some that are zero. -/
def Names (ps qs : List Place) : Prop := (∀ q ∈ qs, q ∈ ps) ∧ ∀ p ∈ ps, p ∈ qs ∨ ∀ b ∈ p.2, b = 0

theorem Names.refl (ps : List Place) : Names ps ps := ⟨fun _ => id, fun _ => .inl⟩

theorem Names.cons {ps qs : List Place} (p : Place) (h : Names ps qs) : Names (p :: ps) (p :: qs) := by
  obtain ⟨sub, rest⟩ := h
  refine ⟨fun q hq => ?_, fun q hq => ?_⟩
  · exact (List.mem_cons.mp hq).elim (fun same => List.mem_cons.mpr (.inl same)) fun other => List.mem_cons_of_mem _ (sub q other)
  · exact (List.mem_cons.mp hq).elim (fun same => .inl (List.mem_cons.mpr (.inl same))) fun other =>
      (rest q other).imp_left (List.mem_cons_of_mem _)

theorem Names.zero {ps qs : List Place} {p : Place} (zero : ∀ b ∈ p.2, b = 0) (h : Names ps qs) : Names (p :: ps) qs :=
  ⟨fun q hq => List.mem_cons_of_mem _ (h.1 q hq), fun q hq => (List.mem_cons.mp hq).elim (fun same => .inr (same ▸ zero)) (h.2 q)⟩

/-- A value that may be none: its flag, and the value, which is zero where it is none. -/
theorem Names.opt {α : Type} {ps qs : List Place} (flag off : Nat) (v : Option α) {f : α → List Byte} {d : α}
    (zero : ∀ b ∈ f d, b = 0) (h : Names ps qs) :
    Names ((flag, [flagByte v.isSome]) :: (off, f (v.getD d)) :: ps) (optPlaces flag off (v.map f) ++ qs) := by
  cases v with
  | none => exact .cons _ (.zero zero h)
  | some x => exact .cons _ (.cons _ h)

theorem Names.congr {ps qs rs : List Place} (h : Names ps qs) (e : ∀ p, p ∈ qs ↔ p ∈ rs) : Names ps rs :=
  ⟨fun q hq => h.1 q ((e q).mpr hq), fun p hp => (h.2 p hp).imp_left (e p).mp⟩

theorem Names.lays {n : Nat} {fs : List Field} {ps : List Place} (h : Names (fieldPlaces 0 fs) ps)
    (length : fieldsEnd 0 fs = n) : Lays n (layout fs) ps := lays_of_layout rfl length h.1 h.2

theorem Names.line {fs : List Field} {ps : List Place} (h : Names (fieldPlaces 0 fs) ps) (fits : fieldsEnd 0 fs ≤ 56) :
    Shows (padTo 56 (layout fs)) ps ∧ Within 56 ps := layout_line fits h.1 h.2

/-! ### Lines by number -/

/-- A line's 56 bytes show the fields. -/
def LineShows (l : List Byte) (ps : List Place) : Prop := Shows (padTo 56 l) ps ∧ Within 56 ps

theorem LineShows.congr {l : List Byte} {ps qs : List Place} (h : LineShows l ps) (e : ∀ p, p ∈ ps ↔ p ∈ qs) :
    LineShows l qs := ⟨h.1.congr e, fun p hp => h.2 p ((e p).mpr hp)⟩

theorem LineShows.ite {c : Prop} [Decidable c] {a b : List Byte} {ps qs : List Place} (h : c → LineShows a ps)
    (k : ¬ c → LineShows b qs) : LineShows (if c then a else b) (if c then ps else qs) := by
  split
  next hc => exact h hc
  next hc => exact k hc

theorem LineShows.of_pos {c : Prop} [Decidable c] {a b : List Byte} {ps : List Place} (hc : c) (h : LineShows a ps) :
    LineShows (if c then a else b) ps := by rwa [if_pos hc]

theorem LineShows.of_neg {c : Prop} [Decidable c] {a b : List Byte} {ps : List Place} (hc : ¬ c) (h : LineShows b ps) :
    LineShows (if c then a else b) ps := by rwa [if_neg hc]

end Sys2Proof.Machine
end

section
/-!
PROOFS. The status page lines of the part, the outcomes, the events, the regions, the memory and the captures (R188).
-/
namespace Sys2Proof.Machine

/-! ### Entries -/

theorem outcomeEntry_lays (e : OutcomeEntry) : Lays 8 (outcomeEntryBytes e) (outcomePlaces e) := by
  refine lays_of_layout (fs := [.b4 e.lastSeen.toNat, .b1 (codeOf outcomes e.outcome), .b2 e.overtaken.toNat]) ?_ ?_ ?_ ?_
  · simp [outcomeEntryBytes, layout, placeField, alignTo, zeros]
  all_goals simp [outcomePlaces, byteField, roundUp]

theorem region_lays (r : Region) : Lays 16 (regionBytes r) (regionPlaces r) := by
  refine lays_of_layout (fs := [flagField r.valid, .b1 r.kind, .b1 r.binding, .b4 r.base.toNat, .b4 r.size.toNat,
    .b4 r.drops.toNat]) ?_ ?_ ?_ ?_
  · simp [regionBytes, layout, placeField, alignTo, zeros, flagField]
  all_goals simp [regionPlaces, bytePlaces, flagField, roundUp]

theorem capture_lays (c : Capture) : Lays 16 (captureBytes c) (capturePlaces c) := by
  refine lays_of_layout (fs := [.b1 (codeOf captureKinds c.kind), .b1 (codeOf agentCodes c.agent), .b4 c.addr.toNat,
    .time c.stamp, .b2 0]) ?_ ?_ ?_ ?_
  · simp [captureBytes, layout, placeField, alignTo, zeros, stampBytes, toBytes]
  all_goals simp [capturePlaces, bytePlaces, roundUp]

theorem lays_entry {α : Type} {size : Nat} {bytes : α → List Byte} {places : α → List Place}
    (each : ∀ e, Lays size (bytes e) (places e)) (l : List α) :
    ∀ e ∈ l, Shows (bytes e) (places e) ∧ (bytes e).length = size ∧ Within size (places e) := fun e _ => each e

theorem eventCounts_lays (e : Eu) : Lays 56 (layout ((vlist e.counts).map fun c => .b2 c.toNat))
    (entryPlaces 28 2 0 (vlist e.counts) fun c => [(0, toBytes 2 c.toNat)]) := by
  have even (l : List U16) (b : List Byte) (h : b.length % 2 = 0) :
      (l.map fun c => Field.b2 c.toNat).foldl placeField b = b ++ l.flatMap fun c => toBytes 2 c.toNat := by
    induction l generalizing b with
    | nil => simp
    | cons c r ih =>
      have placed : placeField b (.b2 c.toNat) = b ++ toBytes 2 c.toNat := by simp [placeField, alignTo, h, zeros]
      rw [List.map_cons, List.foldl_cons, placed, ih _ (by simpa using h)]
      simp
  rw [layout, even _ _ rfl, List.nil_append]
  exact lays_flatMap 28 2 (by simp [vlist]) fun c _ => ⟨shows_bytes _, toBytes_length .., by simp [Within]⟩

theorem memoryLine_shows (s : State) : LineShows (memoryLine s) (statusMapLow 29 s) := by
  cases hs : s.da.service <;>
  exact layout_line_all (by simp [hs, classCodes, numField, flagField, roundUp])
    (by simp [statusMapLow, hs, classCodes, numField, flagField, roundUp, byteField, flagPlace])

/-- Lines 0 to 32. -/
theorem statusLow_shows {n : Nat} (low : n ≤ 32) (s : State) : LineShows (statusFields n s) (statusMapLow n s) := by
  refine .ite (fun _ => layout_line_all (by simp [numField, roundUp]) (by simp [numField, roundUp, byteField]))
    fun _ => .ite (fun _ => shows_listLine 6 8 _ _ _ _ _ _ (by omega) (lays_entry outcomeEntry_lays _))
    fun _ => .ite (fun _ => layout_line_all (by simp [flagField, roundUp]) (by simp [flagField, roundUp, flagPlace]))
    fun _ => .ite (fun _ => (eventCounts_lays s.eu).line (Nat.le_refl _))
    fun _ => .ite (fun _ => shows_listLine 3 16 _ _ _ _ _ _ (by omega) (lays_entry region_lays _))
    fun _ => .ite (fun _ => memoryLine_shows s)
    fun _ => .of_pos low (shows_listLine 3 16 _ _ _ _ _ _ (by omega) (lays_entry capture_lays _))

end Sys2Proof.Machine
end

section
/-!
PROOFS. The status page lines of the surfaces, the frames, the scan-out and the sensors (R188).
-/
namespace Sys2Proof.Machine

/-! ### Surfaces and frames -/

theorem surfaceLine_shows (n : Fin 6) (s : State) : LineShows (surfaceLine n s) (surfacePlaces n s) := by
  have rows (owned : Bool) (v : Option Nat) : (if owned = true then v.map (toBytes 2) else none) =
      (if owned = true then v else none).map (toBytes 2) := by cases owned <;> rfl
  unfold surfaceLine surfacePlaces
  dsimp only
  rw [rows, rows]
  generalize (if (s.st.surface n).ownedBy .tether = true then (vget s.tc.frontiers n).issue else none) = issue
  generalize (if (s.st.surface n).ownedBy .tether = true then (vget s.tc.frontiers n).deposit else none) = deposit
  have bands {ps qs : List Place} (off : Nat) (v : Option Nat) (h : Names ps qs) :
      Names ((off, [flagByte v.isSome]) :: (off + 1, [BitVec.ofNat 8 (v.getD 0)]) :: ps)
        (optPlaces off (off + 1) (v.map fun k => [BitVec.ofNat 8 k]) ++ qs) :=
    .opt (f := fun k => [BitVec.ofNat 8 k]) off (off + 1) v (by simp) h
  cases config : (s.st.surface n).config <;>
  refine Names.line ?_ (by simp [optField, flagField, codeField, numField, roundUp]) <;>
  simp only [optField, flagField, codeField, numField, List.cons_append, List.nil_append, List.append_assoc,
    fieldPlaces_b1, fieldPlaces_b2, fieldPlaces_b4, fieldPlaces_nil, roundUp, byteField, flagPlace]
  · refine Names.congr (.cons _ (.cons _ (.zero (by simp) (.zero (by simp) (.cons _ (.cons _ (bands 10 _ (.cons _ (.cons _
      (.opt 16 18 issue (by simp) (.opt 20 22 deposit (by simp) (.refl _)))))))))))) fun p => ?_
    simp only [List.mem_cons, List.mem_append, List.append_nil]
    grind
  · refine Names.congr (.cons _ (.cons _ (.cons _ (.cons _ (.cons _ (.cons _ (bands 10 _ (.cons _ (.cons _
      (.opt 16 18 issue (by simp) (.opt 20 22 deposit (by simp) (.refl _)))))))))))) fun p => ?_
    simp only [List.mem_cons, List.mem_append, List.append_nil]
    grind

theorem framePlaces_shift (off : Nat) (tag : U32) (left right : Option (Fin 6)) (source : Owner) (target : Option Stamp)
    (pose : Option U32) (repeats substituted : U16) :
    framePlaces off tag left right source target pose repeats substituted =
      shift off (framePlaces 0 tag left right source target pose repeats substituted) := by
  cases target <;> cases pose <;> simp [framePlaces, shift, byteField, optPlaces, flagPlace]

theorem frame_lays (tag : U32) (left right : Option (Fin 6)) (source : Owner) (target : Option Stamp)
    (pose : Option U32) (repeats substituted : U16) :
    Lays 24 (frameBytes tag left right source target pose repeats substituted)
      (framePlaces 0 tag left right source target pose repeats substituted) := by
  refine lays_of_layout (fs := [.b4 tag.toNat, .b1 (slotByte left), .b1 (slotByte right), .b1 (codeOf owners source),
    flagField target.isSome, .time (target.getD Stamp.zero), flagField pose.isSome, .b4 (pose.getD 0).toNat,
    .b2 repeats.toNat, .b2 substituted.toNat]) ?_ ?_ ?_ ?_
  · simp [frameBytes, layout, placeField, alignTo, flagField, zeros]
  · simp [flagField, roundUp]
  all_goals cases target <;> cases pose <;> simp [framePlaces, flagField, roundUp, byteField, optPlaces, flagPlace]

theorem entry_lays (e : Option Entry) : Lays 24 (entryBytes e) (queuePlaces 0 e) := by
  cases e
  · exact lays_zeros 24
  · exact frame_lays ..

theorem current_lays (f : Option Frame) : Lays 24 (currentBytes f) (shownPlaces 0 f) := by
  cases f
  · exact lays_zeros 24
  · exact frame_lays ..

theorem queuePlaces_shift (off : Nat) (e : Option Entry) : queuePlaces off e = shift off (queuePlaces 0 e) := by
  cases e
  · rfl
  · exact framePlaces_shift ..

theorem shownPlaces_shift (off : Nat) (f : Option Frame) : shownPlaces off f = shift off (shownPlaces 0 f) := by
  cases f
  · rfl
  · exact framePlaces_shift ..

theorem lays_bytes (b : List Byte) : Lays b.length b [(0, b)] := ⟨shows_bytes b, rfl, by simp [Within]⟩

theorem lays_byteList (l : List Byte) : Lays l.length l (bytePlaces 0 l) := by
  induction l with
  | nil => exact lays_zeros 0
  | cons b r ih =>
    have whole := (lays_bytes [b]).append ih
    have places : bytePlaces 0 (b :: r) = [(0, [b])] ++ shift 1 (bytePlaces 0 r) := by
      refine List.ext_getElem (by simp [bytePlaces, shift, Nat.add_comm]) fun i _ _ => ?_
      cases i <;> simp [bytePlaces, shift, Nat.add_comm]
    rw [places, List.length_cons, Nat.add_comm]
    exact whole

theorem queueLine_shows (t : St) : LineShows (queueLine t)
    (byteField 0 (BitVec.ofNat 8 t.queue.length) :: queuePlaces 4 t.queue[0]? ++ queuePlaces 28 t.queue[1]? ++
      [(52, toBytes 2 t.change.toNat)]) := by
  have head : Lays 4 (padTo 4 [BitVec.ofNat 8 t.queue.length]) [byteField 0 (BitVec.ofNat 8 t.queue.length)] :=
    (lays_bytes [BitVec.ofNat 8 t.queue.length]).append (lays_zeros 3)
  have whole := ((head.append (entry_lays t.queue[0]?)).append (entry_lays t.queue[1]?)).append
    (lays_bytes (toBytes 2 t.change.toNat))
  rw [queuePlaces_shift 4, queuePlaces_shift 28]
  exact whole.line (by simp)

/-- The tracker's fields after the queue entry, 24 bytes on. -/
theorem trackerRest_lays (t : St) : Lays 21 (layout (optField .b4 (t.tether.map fun f => f.tag.toNat) ++
    [codeField rejectCauses t.rejectCause, .b4 t.rejectTag.toNat, .b4 t.dropped.toNat, flagField t.barred]))
    (optPlaces 0 4 (t.tether.map fun f => toBytes 4 f.tag.toNat) ++ [byteField 8 (codeOf rejectCauses t.rejectCause),
      (12, toBytes 4 t.rejectTag.toNat), (16, toBytes 4 t.dropped.toNat), flagPlace 20 t.barred]) := by
  have tags : (t.tether.map fun f => toBytes 4 f.tag.toNat) = (t.tether.map fun f => f.tag.toNat).map (toBytes 4) := by
    rw [Option.map_map]
    rfl
  rw [tags]
  generalize (t.tether.map fun f => f.tag.toNat) = tag
  refine Names.lays ?_ (by simp [optField, flagField, codeField, roundUp])
  simp only [optField, flagField, codeField, List.cons_append, List.nil_append, fieldPlaces_b1, fieldPlaces_b4,
    fieldPlaces_nil, roundUp]
  exact .opt 0 4 tag (by simp) (.refl _)

theorem trackerLine_shows (t : St) : LineShows (trackerLine t)
    (queuePlaces 0 t.queue[2]? ++ optPlaces 24 28 (t.tether.map fun f => toBytes 4 f.tag.toNat) ++
      [byteField 32 (codeOf rejectCauses t.rejectCause), (36, toBytes 4 t.rejectTag.toNat),
       (40, toBytes 4 t.dropped.toNat), flagPlace 44 t.barred, (48, toBytes 2 t.change.toNat)]) := by
  have first := (entry_lays t.queue[2]?).append (trackerRest_lays t)
  have whole := (first.padded (m := 48) (by omega)).append (lays_bytes (toBytes 2 t.change.toNat))
  refine LineShows.congr (whole.line (by simp)) fun p => ?_
  cases t.tether <;> simp [shift, optPlaces, byteField, flagPlace]

theorem framesLine_shows (t : St) : LineShows (framesLine t)
    (bytePlaces 0 [flagByte t.current.isSome, flagByte (t.current.any (·.bandLate)), flagByte t.previous.isSome,
      flagByte (t.previous.any (·.bandLate))] ++ shownPlaces 4 t.current ++ shownPlaces 28 t.previous ++
      [(52, toBytes 2 t.change.toNat)]) := by
  have head : Lays 4 [flagByte t.current.isSome, flagByte (t.current.any (·.bandLate)), flagByte t.previous.isSome,
      flagByte (t.previous.any (·.bandLate))] (bytePlaces 0 [flagByte t.current.isSome,
      flagByte (t.current.any (·.bandLate)), flagByte t.previous.isSome, flagByte (t.previous.any (·.bandLate))]) :=
    lays_byteList _
  have whole := ((head.append (current_lays t.current)).append (current_lays t.previous)).append
    (lays_bytes (toBytes 2 t.change.toNat))
  rw [shownPlaces_shift 4, shownPlaces_shift 28]
  exact whole.line (by simp)

/-! ### Scan-out -/

theorem scanLine_shows (s : State) : LineShows (scanLine s) (scanPlaces s) := by
  refine Names.line ?_ (by simp [optField, optTime, flagField, codeField, numField, roundUp])
  simp only [optField, optTime, flagField, codeField, numField, scanPlaces, bytePlaces, List.cons_append, List.nil_append,
    List.append_assoc, fieldPlaces_b1, fieldPlaces_b4, fieldPlaces_time, fieldPlaces_nil, roundUp,
    byteField, List.mapIdx_cons, List.mapIdx_nil]
  iterate 6 refine .cons _ ?_
  refine .opt 14 16 _ (by simp) ?_
  iterate 4 refine .cons _ ?_
  exact .opt 27 28 _ (by simp) (.opt 34 36 _ (by simp) (.refl _))

theorem timingPlaces_shift (off : Nat) (t : TimingSet) : timingPlaces off t = shift off (timingPlaces 0 t) := by
  simp [timingPlaces, shift, bytePlaces, Nat.add_assoc]

theorem timing_lays (t : TimingSet) : Lays 36 (timingBytes t) (timingPlaces 0 t) := by
  refine lays_of_layout (fs := [flagField t.scanEnable, .b1 (codeOf syncModes t.sync), .b1 (codeOf policies t.policy),
    .b1 (BitVec.ofNat 8 t.reloadSkip), flagField t.photonUplink, .b1 (codeOf strobeSelects t.lineLeft),
    .b1 (codeOf strobeSelects t.lineRight), .b1 (BitVec.ofNat 8 t.level), .b4 t.period, .b4 t.scan, .b4 t.settle,
    .b4 t.strobeWidth, .b4 t.lossLimit, .b2 t.panelWidth, .b2 t.panelHeight, .b1 t.fallback.red, .b1 t.fallback.green,
    .b1 t.fallback.blue, .b1 0]) ?_ ?_ ?_ ?_
  · simp [timingBytes, layout, placeField, alignTo, flagField, zeros]
  all_goals simp [timingPlaces, flagField, roundUp, bytePlaces]

theorem pendingLine_shows (s : State) : LineShows (pendingLine s.so) (statusMapMiddle 44 s) := by
  cases pending : s.so.pendingSet with
  | none => 
    have empty : LineShows [] [] := (lays_zeros 0).line (by omega)
    simpa [pendingLine, statusMapMiddle, pending] using empty
  | some x =>
    obtain ⟨t, skip⟩ := x
    have head : Lays 4 [1, BitVec.ofNat 8 skip, 0, 0] [flagPlace 0 true, byteField 1 (BitVec.ofNat 8 skip)] :=
      lays_of_layout (fs := [.b1 1, .b1 (BitVec.ofNat 8 skip), .b1 0, .b1 0]) (by simp [layout, placeField]) (by simp)
        (by simp [flagPlace, byteField, flagByte]) (by simp [flagPlace, byteField, flagByte])
    have whole := (head.append (timing_lays t)).line (by omega)
    rw [← timingPlaces_shift] at whole
    simpa [LineShows, pendingLine, statusMapMiddle, pending] using whole

theorem photon_lays (r : Photon) : Lays 24 (r.bytes r.cut) (photonPlaces r) := by
  refine lays_of_layout (fs := [.b4 r.frame.toNat, .b4 r.tag.toNat, .b4 (r.pose.getD 0).toNat, .time r.stamp,
    .b2 r.repeats.toNat, .b2 r.substituted.toNat, flagField r.pose.isSome, flagField r.cut]) ?_ ?_ ?_ ?_
  · simp [Photon.bytes, layout, placeField, alignTo, flagField, zeros]
  all_goals simp [photonPlaces, flagField, roundUp, flagPlace]

/-! ### Sensors -/

theorem channelLine_shows (n : Fin 4) (s : State) : LineShows (channelLine n s) (channelPlaces n s) := by
  cases holder : (s.channel n).holder <;>
  exact layout_line (by simp [flagField, codeField, holder, roundUp])
    (by simp [channelPlaces, flagField, codeField, roundUp, flagPlace, byteField, holder])
    (by simp [channelPlaces, flagField, codeField, roundUp, flagPlace, byteField, holder])

theorem sensorRing_lays (r : SensorRing) : Lays 24 (sensorRingBytes r) (sensorRingPlaces r) := by
  refine lays_of_layout (fs := [flagField r.enabled, .b4 r.base, .b2 r.capacity, .b2 r.issued.toNat, .b2 r.produce.toNat,
    .b2 r.consume.toNat, .b4 r.drops.toNat, .b4 0]) ?_ ?_ ?_ ?_
  · simp [sensorRingBytes, layout, placeField, alignTo, flagField, zeros]
  all_goals simp [sensorRingPlaces, flagField, roundUp, flagPlace]

theorem slot_lays (x : FreshSlot) : Lays 14 (slotBytes x) (slotPlaces x) := by
  cases record : x.record with
  | none =>
    refine lays_of_layout (fs := [.b4 x.updates.toNat, .b4 0, .b4 0, .b2 0]) ?_ ?_ ?_ ?_
    · simp [slotBytes, record, layout, placeField, alignTo, zeros]
    all_goals simp [slotPlaces, record, roundUp]
  | some r =>
    refine lays_of_layout (fs := [.b4 x.updates.toNat, .b1 1, .b1 (BitVec.ofNat 8 r.channel.val), .b2 r.seq.toNat,
      .time r.stamp]) ?_ ?_ ?_ ?_
    · simp [slotBytes, record, layout, placeField, alignTo, zeros]
    all_goals simp [slotPlaces, record, roundUp, flagPlace, flagByte, byteField]

theorem busLine_shows (s : State) : LineShows (layout [.b1 (match s.sh.bus with
      | some t => BitVec.ofNat 8 t.channel.val
      | none => 0xFF), flagField s.sh.hold]) (statusMapMiddle 53 s) := by
  cases bus : s.sh.bus <;>
  exact layout_line_all (by simp [flagField]) (by simp [statusMapMiddle, bus, flagField, flagPlace, byteField])

/-- Lines 33 to 58. -/
theorem statusMiddle_shows {n : Nat} (low : 32 < n) (high : n ≤ 58) (s : State) :
    LineShows (statusFields n s) (statusMapMiddle n s) := by
  unfold statusFields
  refine .of_neg (by omega) (.of_neg (by omega) (.of_neg (by omega) (.of_neg (by omega) (.of_neg (by omega)
    (.of_neg (by omega) (.of_neg (by omega) ?_))))))
  refine .ite (fun _ => surfaceLine_shows _ s) fun _ => .ite (fun _ => queueLine_shows s.st)
    fun _ => .ite (fun _ => trackerLine_shows s.st) fun _ => .ite (fun _ => framesLine_shows s.st)
    fun _ => .ite (fun _ => scanLine_shows s) fun _ => .ite (fun _ => (timing_lays s.so.applied).line (by omega))
    fun _ => .ite (fun _ => pendingLine_shows s)
    fun _ => .ite (fun _ => shows_listLine 2 24 _ _ _ _ _ _ (by omega) (lays_entry photon_lays _))
    fun _ => .ite (fun _ => channelLine_shows _ s) fun _ => .ite (fun _ => busLine_shows s)
    fun _ => .ite (fun _ => ?_) fun _ => .of_pos (by omega) ?_
  · rw [List.flatten_eq_flatMap, List.flatMap_map]
    exact shows_group 56 2 24 _ _ _ _ (by omega) (lays_entry sensorRing_lays _)
  · rw [List.flatten_eq_flatMap, List.flatMap_map]
    exact (lays_flatMap 4 14 (by simp [vlist]) fun x _ => slot_lays x).line (by omega)

end Sys2Proof.Machine
end

section
/-!
PROOFS. The status page lines of the tether, the audio unit, the timebase, the triggers and the power controller (R188).
-/
namespace Sys2Proof.Machine

/-! ### Tether -/

theorem linkLine_shows (t : Tc) : LineShows (linkLine t)
    [byteField 0 (codeOf linkStates t.link), flagPlace 1 t.upFromRecovery, flagPlace 2 t.paused.isSome,
     flagPlace 3 t.restricted, (4, stampBytes t.since), (12, toBytes 4 t.attempts.toNat),
     (16, toBytes 4 t.recoveries.toNat)] :=
  layout_line_all (by simp [flagField, codeField, roundUp]) (by simp [flagField, codeField, roundUp, byteField, flagPlace])

theorem downlinkLine_shows (s : State) : LineShows (downlinkLine s) (statusMapHigh 60 s) := by
  have taken : (s.tc.lastTaken.map fun v => toBytes 2 v.toNat) = (s.tc.lastTaken.map (·.toNat)).map (toBytes 2) := by
    rw [Option.map_map]
    rfl
  refine Names.line ?_ (by simp [optField, flagField, roundUp])
  simp only [statusMapHigh, if_neg (show ¬ (60 = 59) by omega), if_true, taken, optField, flagField, List.cons_append,
    List.nil_append, fieldPlaces_b1, fieldPlaces_b2, fieldPlaces_b4, fieldPlaces_nil, roundUp]
  exact .cons _ (.opt 2 4 _ (by simp) (.refl _))

theorem messageRingLine_shows (s : State) : LineShows (messageRingLine s.tc.ring) (statusMapHigh 61 s) :=
  layout_line_all (by simp [flagField, roundUp]) (by simp [statusMapHigh, flagField, roundUp, flagPlace])

theorem uplinkLine_shows (t : Tc) : LineShows (uplinkLine t) (uplinkPlaces t) := by
  have records : t.openRecords = (t.queue.find? UplinkEntry.isOpen).map fun e =>
      match e.content with
      | .sensor records _ => records.length
      | _ => 0 := rfl
  unfold uplinkLine uplinkPlaces
  simp only [vlist_eq_map, List.finRange_succ, List.finRange_zero, List.map_cons, List.map_nil, records]
  cases batch : t.queue.find? UplinkEntry.isOpen with
  | none =>
    refine Names.line ?_ (by simp [flagField, numField, roundUp])
    simp only [flagField, numField, roundUp, bytePlaces, List.cons_append, List.nil_append,
      fieldPlaces_b1, fieldPlaces_b2, fieldPlaces_b4, fieldPlaces_nil, List.mapIdx_cons, List.mapIdx_nil]
    exact .cons _ (.cons _ (.cons _ (.cons _ (.zero (by simp) (.refl _)))))
  | some e =>
    obtain ⟨id, content⟩ := e
    cases content <;>
    refine Names.line ?_ (by simp [flagField, numField, roundUp]) <;>
    simp only [flagField, numField, roundUp, bytePlaces, byteField, List.cons_append, List.nil_append,
      fieldPlaces_b1, fieldPlaces_b2, fieldPlaces_b4, fieldPlaces_nil, List.mapIdx_cons, List.mapIdx_nil]
    case sensor => exact .refl _
    all_goals exact .cons _ (.cons _ (.cons _ (.cons _ (.zero (by simp) (.refl _)))))

theorem history_lays (x : Byte × HistEntry) : Lays 8
    ([x.1, BitVec.ofNat 8 x.2.sends] ++ toBytes 2 x.2.seq.toNat ++ [flagByte x.2.resend, flagByte x.2.belongs, 0, 0])
    (historyPlaces x) := by
  refine lays_of_layout (fs := [.b1 x.1, .b1 (BitVec.ofNat 8 x.2.sends), .b2 x.2.seq.toNat, flagField x.2.resend,
    flagField x.2.belongs, .b2 0]) ?_ ?_ ?_ ?_
  · simp [layout, placeField, alignTo, flagField, zeros, toBytes]
  all_goals simp [historyPlaces, flagField, roundUp, flagPlace, byteField]

theorem histEntries_eq (t : Tc) : t.histEntries = t.classedHistory.map fun x =>
    [x.1, BitVec.ofNat 8 x.2.sends] ++ toBytes 2 x.2.seq.toNat ++ [flagByte x.2.resend, flagByte x.2.belongs, 0, 0] := by
  have each (c : Fin 3) (number : Byte) (h : BitVec.ofNat 8 (c.val + 1) = number) : histBytes c = fun e =>
      [number, BitVec.ofNat 8 e.sends] ++ toBytes 2 e.seq.toNat ++ [flagByte e.resend, flagByte e.belongs, 0, 0] := by
    rw [← h]
    rfl
  simp [Tc.histEntries, Tc.classedHistory, List.finRange_succ, Function.comp_def, each 0 1 rfl, each 1 2 rfl, each 2 3 rfl]

theorem historyFill_eq (t : Tc) : t.historyFill =
    (vget t.history 0).length + (vget t.history 1).length + (vget t.history 2).length := by
  simp [Tc.historyFill, vlist_eq_map, List.finRange_succ, Nat.add_assoc]

theorem counts_lays {n : Nat} (v : Vector U32 n) : Lays (n * 4) ((vlist v).flatMap fun c => toBytes 4 c.toNat)
    (entryPlaces n 4 0 (vlist v) fun c => [(0, toBytes 4 c.toNat)]) :=
  lays_flatMap n 4 (by simp [vlist]) fun c _ => lays_bytes (toBytes 4 c.toNat)

/-- Places of entries further on. -/
theorem entryPlaces_shift {α : Type} (d k size first : Nat) (l : List α) (places : α → List Place) :
    shift d (entryPlaces k size first l places) = entryPlaces k size first l fun e => shift d (places e) := by
  simp only [entryPlaces, shift, List.map_flatMap]
  refine congrArg (List.flatMap · _) (funext fun i => ?_)
  split
  · simp [Nat.add_left_comm]
  · rfl

theorem uplinkCountLine_shows (t : Tc) : LineShows (uplinkCountLine t)
    (entryPlaces 4 4 0 (vlist t.fullDrops) (fun c => [(0, toBytes 4 c.toNat)]) ++
      entryPlaces 4 4 0 (vlist t.unlinked) (fun c => [(16, toBytes 4 c.toNat)]) ++
      entryPlaces 3 4 0 (vlist t.resent) (fun c => [(32, toBytes 4 c.toNat)])) := by
  have whole := ((counts_lays t.fullDrops).append (counts_lays t.unlinked)).append (counts_lays t.resent)
  rw [entryPlaces_shift, entryPlaces_shift] at whole
  rw [uplinkCountLine, List.flatten_eq_flatMap, List.flatMap_map, List.flatMap_append, List.flatMap_append]
  exact whole.line (by omega)

theorem pair_lays (p : TimePair) : Lays 16 (pairBytes p) (pairPlaces p) := by
  refine lays_of_layout (fs := [.b8 p.console.toNat, .time p.stamp, .b2 0]) ?_ ?_ ?_ ?_
  · simp [pairBytes, layout, placeField, alignTo, zeros, toBytes]
  all_goals simp [pairPlaces, roundUp]

/-! ### Audio -/

theorem audioRingLine_shows (n : Fin 3) (a : Au) : LineShows (audioRingLine n a) (ringPlaces n a) := by
  have number : n = 0 ∨ n = 1 ∨ n = 2 := by omega
  unfold audioRingLine ringPlaces
  rcases number with rfl | rfl | rfl <;>
  exact layout_line (by simp [flagField, codeField, roundUp])
    (by simp [flagField, codeField, roundUp, flagPlace, byteField])
    (by simp [flagField, codeField, roundUp, flagPlace, byteField])

theorem audioLine_shows (s : State) : LineShows (audioLine s) (audioPlaces s) :=
  layout_line_all (by simp [flagField, codeField, numField, roundUp])
    (by simp [audioPlaces, bytePlaces, flagField, codeField, numField, roundUp, flagPlace])

/-! ### Timebase, triggers and power -/

theorem timeLine_shows (s : State) : LineShows (timeLine s.tb) (statusMapHigh 74 s) := by
  cases holding : s.tb.holding <;>
  exact layout_line (by simp [holding, flagField, codeField, roundUp])
    (by simp [statusMapHigh, holding, flagField, codeField, roundUp, flagPlace, byteField])
    (by simp [statusMapHigh, holding, flagField, codeField, roundUp, flagPlace, byteField])

theorem foldl_placeField_b1 (bytes l : List Byte) : (bytes.map Field.b1).foldl placeField l = l ++ bytes := by
  induction bytes generalizing l with
  | nil => simp
  | cons b r ih =>
    rw [List.map_cons, List.foldl_cons, ih]
    simp [placeField]

theorem bytePlaces_shift (d off : Nat) (l : List Byte) : shift d (bytePlaces off l) = bytePlaces (d + off) l := by
  refine List.ext_getElem (by simp [shift, bytePlaces]) fun i _ _ => ?_
  simp [shift, bytePlaces, Nat.add_assoc]

theorem triggerLine_shows (s : State) : LineShows (triggerLine s) (triggerPlaces s) := by
  let consumer (c : Consumer) : List Byte :=
    [BitVec.ofNat 8 c.source.val, flagByte c.invert, codeOf edgeModes c.mode, flagByte (s.consumerLevel c)]
  let out (o : SyncOut) : List Byte := [BitVec.ofNat 8 o.source.val, codeOf syncSelects o.select, s.syncDrive o]
  have consumers : Lays 32 ((vlist s.tm.consumers).flatMap consumer)
      (entryPlaces 8 4 0 (vlist s.tm.consumers) fun c => bytePlaces 0 (consumer c)) :=
    lays_flatMap 8 4 (by simp [vlist]) fun c _ => lays_byteList (consumer c)
  have outs : Lays 8 ((vlist s.tm.outs).flatMap fun o => out o ++ [0])
      (entryPlaces 2 4 0 (vlist s.tm.outs) fun o => bytePlaces 0 (out o)) :=
    lays_flatMap 2 4 (by simp [vlist]) fun o _ => by
      have padded := (lays_byteList (out o)).append (lays_zeros 1)
      rw [shift, List.map_nil, List.append_nil] at padded
      exact padded
  have whole := (consumers.append outs).append (lays_bytes (toBytes 4 s.levelSet))
  rw [entryPlaces_shift] at whole
  simp only [bytePlaces_shift] at whole
  have fields : triggerLine s = layout (((vlist s.tm.consumers).flatMap consumer ++
      (vlist s.tm.outs).flatMap fun o => out o ++ [0]).map .b1 ++ [.b4 s.levelSet]) := by
    simp only [List.map_append, List.map_flatMap]
    rfl
  have line : triggerLine s = ((vlist s.tm.consumers).flatMap consumer ++
      (vlist s.tm.outs).flatMap fun o => out o ++ [0]) ++ toBytes 4 s.levelSet := by
    have length := (consumers.append outs).2.1
    rw [fields, layout, List.foldl_append, foldl_placeField_b1, List.nil_append]
    simp only [List.foldl_cons, List.foldl_nil, placeField, alignTo, length]
    simp [zeros]
  rw [line]
  exact whole.line (by simp)

theorem beacon_lays (b : Beacon) : Lays 24 (beaconBytes b) (beaconPlaces b) := by
  refine Lays.padded (n := 20) (lays_of_layout rfl ?_ ?_ ?_) (by omega)
  all_goals simp [beaconPlaces, flagField, codeField, roundUp, flagPlace, byteField]

theorem powerLine_shows (s : State) : LineShows (powerLine s) (powerPlaces s) :=
  layout_line_all (by simp [flagField, codeField, numField, railFlags, rails])
    (by simp [powerPlaces, bytePlaces, flagField, codeField, numField, railFlags, rails, PerRail.get])

/-- Lines 59 to 77. -/
theorem statusHigh_shows {n : Nat} (low : 58 < n) (high : n ≤ 77) (s : State) :
    LineShows (statusFields n s) (statusMapHigh n s) := by
  unfold statusFields
  refine .of_neg (by omega) (.of_neg (by omega) (.of_neg (by omega) (.of_neg (by omega) (.of_neg (by omega)
    (.of_neg (by omega) (.of_neg (by omega) (.of_neg (by omega) (.of_neg (by omega) (.of_neg (by omega) (.of_neg (by omega)
    (.of_neg (by omega) (.of_neg (by omega) (.of_neg (by omega) (.of_neg (by omega) (.of_neg (by omega) (.of_neg (by omega)
    (.of_neg (by omega) (.of_neg (by omega) ?_))))))))))))))))))
  refine .ite (fun _ => linkLine_shows s.tc) fun _ => .ite (fun _ => downlinkLine_shows s)
    fun _ => .ite (fun _ => messageRingLine_shows s) fun _ => .ite (fun _ => uplinkLine_shows s.tc)
    fun _ => .ite (fun _ => ?_) fun _ => .ite (fun _ => uplinkCountLine_shows s.tc)
    fun _ => .ite (fun _ => shows_listLine 3 16 _ _ _ _ _ _ (by omega) (lays_entry pair_lays _))
    fun _ => .ite (fun _ => audioRingLine_shows _ s.au) fun _ => .ite (fun _ => audioLine_shows s)
    fun _ => .ite (fun _ => timeLine_shows s) fun _ => .ite (fun _ => triggerLine_shows s)
    fun _ => .ite (fun _ => ?_) fun _ => .of_pos (by omega) (powerLine_shows s)
  · rw [histEntries_eq, historyFill_eq, groupOf, ← List.map_drop, ← List.map_take]
    exact shows_listLine 6 8 _ _ _ _ _ _ (by omega) (lays_entry history_lays _)
  · rw [List.flatten_eq_flatMap, List.flatMap_map]
    exact (lays_flatMap 2 24 (by simp [vlist]) fun x _ => beacon_lays x).line (by omega)

/-! ### The page -/

theorem statusFields_beyond {n : Nat} (h : 78 ≤ n) (s : State) : statusFields n s = [] := by
  unfold statusFields
  repeat rw [if_neg (by omega)]

/-- Line `n` shows the fields of its map. -/
theorem statusFields_show (n : Nat) (s : State) : LineShows (statusFields n s) (statusMap n s) := by
  unfold statusMap
  split
  next low => exact statusLow_shows low s
  split
  next low high => exact statusMiddle_shows (by omega) high s
  split
  next low high => exact statusHigh_shows (by omega) high s
  next low high =>
    rw [statusFields_beyond (by omega)]
    exact (lays_zeros 0).line (by omega)

theorem classify_page (page : Fin 128) (s : State) :
    classify (64 * (s.pageLine page).toNat) s = .status page.val := by
  have aligned := planBase_aligned s.pu.sel
  have bound := planBase_le s.pu.sel
  have address : 64 * (s.pageLine page).toNat = s.planBase + 0x2000 + 64 * page.val := by
    rw [State.pageLine, BitVec.toNat_ofNat, State.planBase]
    omega
  rw [address, classify_of_plan (by omega), if_neg (by omega), if_neg (by omega)]
  congr 1
  omega

/-- Settles O16, from what each line shows. -/
theorem statusPageReads : Obligations.StatusPageReads := by
  intro page s
  have length : (padTo 56 (statusFields page.val s)).length = 56 := padTo_length ..
  obtain ⟨fields, zero⟩ := statusLine_shows (statusFields_show page.val s).1 (statusFields_show page.val s).2
  refine ⟨fun taking none => ?_, ?_, ?_, fields, zero, fun beyond => ?_⟩
  · have run : exec (.statusPageRead page) s = .next (takeRead (s.pageLine page).toNat s) :=
      congrArg Host.Outcome.next (hostArrive_of_taking taking _)
    rw [run, takeRead, classify_page]
    by_cases line : page.val = 73
    · simp only [readStatus, line, if_true]
      rw [answerNow_of_none (by exact none)]
    · simp only [readStatus, if_neg line]
      rw [answerNow_of_none none]
  · simp [statusLine, compositionStamp]
  · rw [statusLine, List.drop_left' length]
    simp [compositionStamp, stampBytes, flagByte]
  · rw [statusLine, List.take_left' length, statusFields_beyond beyond]
    rfl

end Sys2Proof.Machine
end

section
/-!
PROOFS. Region, beacon, trigger and time records (R120, R127, R129, R157).
-/
namespace Sys2Proof.Machine

/-! ### What an arm's owner is handed -/

/-- An owner that looks at a record's first bytes judges the fields of its arm. -/
theorem judge_snapshot {k : RecordKind} (hk : k.size ≠ 128) {n : Nat} {fields : List Byte} (seq : U32) (s t : State)
    (size : n ≤ k.size - 4) (live : ∀ i, i < n → k.liveAt i = false) (length : n ≤ fields.length)
    (first : ∀ b t, judge k (b.take n) t = judge k b t) :
    judge k ((s.recordWritten k (armBytes k fields seq)).snapshot k) t = judge k fields t := by
  rw [← first, snapshot_arm hk seq s size live length, first]

/-- An arm whose owner looks at the record's first bytes and answers `o`. -/
theorem runsTo_fields {c : Instr} {k : RecordKind} {fields : List Byte} {seq : U32} {s r : State} {o : Outcome}
    {P : State → Prop} {n : Nat} (first : ∀ b t, judge k (b.take n) t = judge k b t)
    (run : exec c s = .next (armRecord k fields seq s)) (arms : s.arms k seq) (hk : k.size ≠ 128)
    (size : n ≤ k.size - 4) (live : ∀ i, i < n → k.liveAt i = false) (length : n ≤ fields.length)
    (judged : judge k fields (s.handed k fields seq) = (o, r)) (holds : P (r.onPu (Pu.enter k o))) : runsTo c s P :=
  runsTo_arm run arms ((judge_snapshot hk seq s _ size live length first).trans judged) holds

theorem length_of_fieldsOk {size : Nat} {fields : List Byte} (h : fieldsOk size fields = true) :
    fields.length = size - 4 := by
  simp only [fieldsOk, beq_iff_eq] at h
  omega

/-! ### Regions (R157) -/

theorem regionAt_eq_some_iff (b : List Byte) (r : Region) : regionAt b = some r ↔
    [false, true][byteAt b 0]? = some r.valid ∧ r.kind = b.getD 1 0 ∧
    r.binding = (if byteAt b 1 = 3 then 0 else b.getD 2 0) ∧ r.base = BitVec.ofNat 32 (numAt b 4 4) ∧
    r.size = BitVec.ofNat 32 (numAt b 8 4) ∧ r.drops = 0 ∧
    (r.valid = true →
      (byteAt b 1 = 0 ∧ byteAt b 2 < 6 ∨ (byteAt b 1 = 1 ∨ byteAt b 1 = 2) ∧ byteAt b 2 < 4 ∨ byteAt b 1 = 3) ∧
      numAt b 4 4 % 4096 = 0 ∧ 1 ≤ numAt b 8 4 ∧ numAt b 8 4 ≤ 262144 ∧
      numAt b 4 4 + 4096 * numAt b 8 4 ≤ 0x80000000) := by
  have bound : (byteAt b 1 = 0 ∧ byteAt b 2 < 6 ∨ byteAt b 1 = 1 ∧ byteAt b 2 < 4 ∨ byteAt b 1 = 2 ∧ byteAt b 2 < 4 ∨
      byteAt b 1 = 3) ↔
      (byteAt b 1 = 0 ∧ byteAt b 2 < 6 ∨ (byteAt b 1 = 1 ∨ byteAt b 1 = 2) ∧ byteAt b 2 < 4 ∨ byteAt b 1 = 3) := by
    omega
  obtain ⟨valid, kind, binding, base, size, drops⟩ := r
  simp only [regionAt, flagAt_eq, bind, Option.bind_eq_some_iff, Option.ite_none_left_eq_some, Option.some.injEq,
    Region.mk.injEq, Decidable.not_and_not_right, bound]
  constructor
  · rintro ⟨v, flag, checked, rfl, rfl, rfl, rfl, rfl, rfl⟩
    exact ⟨flag, rfl, rfl, rfl, rfl, rfl, checked⟩
  · rintro ⟨flag, rfl, rfl, rfl, rfl, rfl, checked⟩
    exact ⟨_, flag, checked, rfl, rfl, rfl, rfl, rfl, rfl⟩

theorem judgeRegion_take (n : Fin 32) (b : List Byte) (s : State) :
    judgeRegion n (b.take 12) s = judgeRegion n b s := by
  simp [judgeRegion, regionAt, flagAt, byteAt_take, numAt_take]

theorem judgeRegion_of_field {b : List Byte} (h : regionAt b = none) (n : Fin 32) (s : State) :
    judgeRegion n b s = (.refusedField, s) := by
  simp [judgeRegion, h]

/-- The matcher takes an entry, whose drops stay; an entry that stands there already is no change. -/
def Rm.takes (n : Fin 32) (r : Region) (m : Rm) : Rm :=
  let old := vget m.regions n
  let new := { r with drops := old.drops }
  if old = new then m else { m with regions := vset m.regions n new, change := m.change + 1 }

theorem judgeRegion_of_region {b : List Byte} {r : Region} (h : regionAt b = some r) (n : Fin 32) (s : State) :
    ∃ t, judgeRegion n b s = (.taken, t) ∧ t.pu = s.pu ∧
      t.rm.regions = vset s.rm.regions n { r with drops := (vget s.rm.regions n).drops } ∧
      t.rm.statusDrops = s.rm.statusDrops ∧ t.rm.rangeDrops = s.rm.rangeDrops := by
  have run : judgeRegion n b s = (.taken, s.onRm (Rm.takes n r)) := by rw [judgeRegion, h]; rfl
  refine ⟨_, run, rfl, ?_⟩
  rw [State.onRm_rm, Rm.takes]
  split
  case isTrue same => exact ⟨by rw [← same, vset_vget], rfl, rfl⟩
  case isFalse => exact ⟨rfl, rfl, rfl⟩

/-! ### Beacon generators (R129) -/

theorem judgeBeacon_take (n : Fin 2) (b : List Byte) (s : State) :
    judgeBeacon n (b.take 6) s = judgeBeacon n b s := by
  simp [judgeBeacon, flagAt, codeAt, byteAt_take, numAt_take]

theorem judgeBeacon_of_field {b : List Byte}
    (h : numAt b 2 2 = 0 ∨ [false, true][byteAt b 4]? = none ∨ codeAt beaconSelects b 5 = none) (n : Fin 2) (s : State) :
    judgeBeacon n b s = (.refusedField, s) := by
  rw [← flagAt_eq] at h
  rw [judgeBeacon]
  split
  next restart select _ _ => rw [if_pos (by simp_all)]
  next => rfl

theorem judgeBeacon_of_fields {b : List Byte} {restart : Bool} {select : BeaconSelect} (width : numAt b 2 2 ≠ 0)
    (flag : [false, true][byteAt b 4]? = some restart) (line : codeAt beaconSelects b 5 = some select) (n : Fin 2)
    (s : State) : judgeBeacon n b s = (.taken, s.onBeacon n fun x =>
      { x.goIdle with delay := numAt b 0 2, width := numAt b 2 2, restart, select }) := by
  rw [← flagAt_eq] at flag
  simp [judgeBeacon, flag, line, width]

/-! ### The trigger record (R127, R128) -/

theorem consumerAt_eq_some_iff (b : List Byte) (n : Fin 8) (c : Consumer) : consumerAt b n = some c ↔
    byteAt b (4 * n.val) = c.source.val ∧ [false, true][byteAt b (4 * n.val + 1)]? = some c.invert ∧
    [EdgeMode.rising, .falling, .both, .level][byteAt b (4 * n.val + 2)]? = some c.mode ∧ c.seen = false := by
  obtain ⟨source, invert, mode, seen⟩ := c
  simp only [consumerAt, flagAt_eq, codeAt, edgeModes, bind, Option.bind_eq_some_iff, finAt_eq_some_iff,
    Option.some.injEq, Consumer.mk.injEq]
  constructor
  · rintro ⟨_, hs, _, hi, _, hm, rfl, rfl, rfl, rfl⟩
    exact ⟨hs, hi, hm, rfl⟩
  · rintro ⟨hs, hi, hm, rfl⟩
    exact ⟨_, hs, _, hi, _, hm, rfl, rfl, rfl, rfl⟩

theorem syncOutAt_eq_some_iff (b : List Byte) (n : Fin 2) (o : SyncOut) : syncOutAt b n = some o ↔
    byteAt b (32 + 4 * n.val) = o.source.val ∧
    [SyncSelect.low, .high, .follow, .followInverted, .released][byteAt b (33 + 4 * n.val)]? = some o.select ∧
    o.follow = none := by
  obtain ⟨source, select, follow⟩ := o
  have place : 32 + 4 * n.val + 1 = 33 + 4 * n.val := by omega
  simp only [syncOutAt, place, codeAt, syncSelects, bind, Option.bind_eq_some_iff, finAt_eq_some_iff,
    Option.some.injEq, SyncOut.mk.injEq]
  constructor
  · rintro ⟨_, hs, _, hm, rfl, rfl, rfl⟩
    exact ⟨hs, hm, rfl⟩
  · rintro ⟨hs, hm, rfl⟩
    exact ⟨_, hs, _, hm, rfl, rfl, rfl⟩

/-- The fields of the trigger record stand before its arm sequence. -/
theorem byteAt_trigger_snapshot (seq : U32) (s : State) {i : Nat} (h : i < 124) :
    byteAt ((s.recordWritten .trigger (armBytes .trigger [] seq)).snapshot .trigger) i =
      byteAt (s.pu.shadow.bytes 0xA00 124) i := by
  have untouched := Mem.read_writeAll_ne s.pu.shadow (64 * (RecordKind.trigger.seqOffset / 64)) (0xA00 + i)
    (armBytes .trigger [] seq) fun p hp => by
      have place := enumFrom_bounds (off := 60) hp
      have line : RecordKind.trigger.seqOffset / 64 = 41 := rfl
      omega
  rw [State.snapshot, byteAt_bytes _ _ (show i < RecordKind.trigger.size from by simp [RecordKind.size]; omega),
    byteAt_bytes _ _ h]
  simp only [State.recordWritten, State.onPu_pu, request_keeps]
  exact congrArg BitVec.toNat untouched

theorem consumerAt_trigger_snapshot (seq : U32) (s : State) (n : Fin 8) :
    consumerAt ((s.recordWritten .trigger (armBytes .trigger [] seq)).snapshot .trigger) n =
      consumerAt (s.pu.shadow.bytes 0xA00 124) n := by
  have := n.isLt
  simp only [consumerAt, finAt, flagAt, codeAt, byteAt_trigger_snapshot seq s (show 4 * n.val < 124 by omega),
    byteAt_trigger_snapshot seq s (show 4 * n.val + 1 < 124 by omega),
    byteAt_trigger_snapshot seq s (show 4 * n.val + 2 < 124 by omega)]

theorem syncOutAt_trigger_snapshot (seq : U32) (s : State) (n : Fin 2) :
    syncOutAt ((s.recordWritten .trigger (armBytes .trigger [] seq)).snapshot .trigger) n =
      syncOutAt (s.pu.shadow.bytes 0xA00 124) n := by
  have := n.isLt
  simp only [syncOutAt, finAt, codeAt, byteAt_trigger_snapshot seq s (show 32 + 4 * n.val < 124 by omega),
    byteAt_trigger_snapshot seq s (show 32 + 4 * n.val + 1 < 124 by omega)]

/-- A table in which each place of a list without repeats is changed in turn holds each change once. -/
theorem vget_foldl_vmod {α : Type} {m : Nat} (f : Fin m → α → α) (l : List (Fin m)) (nodup : l.Nodup)
    (v : Vector α m) (i : Fin m) :
    vget (l.foldl (fun v n => vmod v n (f n)) v) i = if i ∈ l then f i (vget v i) else vget v i := by
  induction l generalizing v with
  | nil => simp
  | cons n rest ih =>
    obtain ⟨fresh, rest_nodup⟩ := List.nodup_cons.mp nodup
    rw [List.foldl_cons, ih rest_nodup]
    by_cases same : i = n
    · subst same
      simp [fresh]
    · simp [same, vget_vmod_ne v (f n) (Ne.symm same)]

/-- What a trigger record arm makes of consumer `n`, and of output `n`. -/
def State.rewired (s : State) (b : List Byte) (n : Fin 8) (old : Consumer) : Consumer :=
  match consumerAt b n with
  | some c => s.reselect old c
  | none => old

def SyncOut.rewired (b : List Byte) (n : Fin 2) (old : SyncOut) : SyncOut :=
  match syncOutAt b n with
  | some o => old.reselect o
  | none => old

theorem vmod_id {α : Type} {m : Nat} (v : Vector α m) (n : Fin m) : vmod v n (fun x => x) = v := vset_vget v n

/-- The matrix takes a trigger record. -/
def State.rewire (s : State) (b : List Byte) : State := s.onTm fun t =>
  { t with consumers := (List.finRange 8).foldl (fun v n => vmod v n (s.rewired b n)) t.consumers,
           outs := (List.finRange 2).foldl (fun v n => vmod v n (SyncOut.rewired b n)) t.outs }

theorem judgeTrigger_eq {b : List Byte} (inputs : ∀ n, consumerAt b n ≠ none) (outputs : ∀ n, syncOutAt b n ≠ none)
    (s : State) : judgeTrigger b s = (.taken, s.rewire b) := by
  have valid : ((List.finRange 8).all (fun n => (consumerAt b n).isSome) &&
      (List.finRange 2).all (fun n => (syncOutAt b n).isSome)) = true := by
    simp only [Bool.and_eq_true, List.all_eq_true, Option.isSome_iff_ne_none]
    exact ⟨fun n _ => inputs n, fun n _ => outputs n⟩
  rw [judgeTrigger, if_pos valid]
  have both {consumers consumers'} {outs outs'} (h : consumers = consumers') (k : outs = outs') :
      (Outcome.taken, s.onTm fun t => { t with consumers, outs }) =
        (Outcome.taken, s.onTm fun t => { t with consumers := consumers', outs := outs' }) := by
    rw [h, k]
  refine both ?_ ?_
  · refine congrArg (fun f => List.foldl f _ _) (funext fun v => funext fun n => ?_)
    unfold State.rewired
    cases consumerAt b n with
    | none => exact (vmod_id v n).symm
    | some c => rfl
  · refine congrArg (fun f => List.foldl f _ _) (funext fun v => funext fun n => ?_)
    unfold SyncOut.rewired
    cases syncOutAt b n with
    | none => exact (vmod_id v n).symm
    | some o => rfl

theorem judgeTrigger_of_field {b : List Byte}
    (h : (∃ n, consumerAt b n = none) ∨ (∃ n, syncOutAt b n = none)) (s : State) :
    judgeTrigger b s = (.refusedField, s) := by
  rw [judgeTrigger, if_neg]
  simp only [Bool.and_eq_true, List.all_eq_true, List.mem_finRange, true_implies, Option.isSome_iff_ne_none]
  rintro ⟨consumers, outs⟩
  rcases h with ⟨n, h⟩ | ⟨n, h⟩
  · exact consumers n h
  · exact outs n h

theorem judgeTrigger_of_fields {b : List Byte} (inputs : ∀ n, consumerAt b n ≠ none) (outputs : ∀ n, syncOutAt b n ≠ none)
    (s : State) : ∃ t, judgeTrigger b s = (.taken, t) ∧ t.pu = s.pu ∧ t.tm.beacons = s.tm.beacons ∧
      t.tm.pulses = s.tm.pulses ∧ (∀ n, t.consumer n = s.rewired b n (s.consumer n)) ∧
      ∀ n, vget t.tm.outs n = SyncOut.rewired b n (vget s.tm.outs n) := by
  refine ⟨_, judgeTrigger_eq inputs outputs s, rfl, rfl, rfl, fun n => ?_, fun n => ?_⟩
  · have each := vget_foldl_vmod (s.rewired b) (List.finRange 8) (List.nodup_finRange 8) s.tm.consumers n
    rwa [if_pos (List.mem_finRange n)] at each
  · have each := vget_foldl_vmod (SyncOut.rewired b) (List.finRange 2) (List.nodup_finRange 2) s.tm.outs n
    rwa [if_pos (List.mem_finRange n)] at each

/-! ### The time record (R120) -/

theorem judgeTime_take (b : List Byte) (s : State) : judgeTime (b.take 16) s = judgeTime b s := by
  simp [judgeTime, codeAt, byteAt_take, numAt_take]

theorem judgeTime_of_busy {s : State} (h : s.tb.holding ≠ none) (b : List Byte) : judgeTime b s = (.refusedBusy, s) := by
  rw [judgeTime, if_pos (Option.isSome_iff_ne_none.mpr h)]

/-- The values a time record may name: a time, or a step that fits one (R120). -/
def AdjustMode.inRange (value : U64) (m : AdjustMode) : Prop :=
  (m = .set → value.toNat < 2 ^ 40) ∧ (m = .add → value.toInt.natAbs < 2 ^ 39)

theorem judgeTime_of_field {s : State} (free : s.tb.holding = none) {b : List Byte}
    (h : ∀ m, codeAt adjustModes b 0 = some m → ¬ m.inRange (BitVec.ofNat 64 (numAt b 8 8))) :
    judgeTime b s = (.refusedField, s) := by
  rw [judgeTime, if_neg (by simp [free])]
  split
  next => rfl
  next m code =>
    rw [if_neg]
    intro fits
    refine h m code ?_
    generalize BitVec.ofNat 64 (numAt b 8 8) = value at fits ⊢
    cases m <;> simp [AdjustMode.inRange] at fits ⊢ <;> omega

theorem judgeTime_of_fields {s : State} (free : s.tb.holding = none) {b : List Byte} {m : AdjustMode}
    (code : codeAt adjustModes b 0 = some m) (fits : m.inRange (BitVec.ofNat 64 (numAt b 8 8))) :
    judgeTime b s = (.pending, s.onTb fun t =>
      { t with holding := some { mode := m, value := BitVec.ofNat 64 (numAt b 8 8), gen := s.generation, age := 0 } }) := by
  rw [judgeTime, if_neg (by simp [free]), code]
  dsimp only
  rw [if_pos]
  generalize BitVec.ofNat 64 (numAt b 8 8) = value at fits ⊢
  cases m <;> simp [AdjustMode.inRange] at fits ⊢ <;> omega

/-! ### The arms -/

section
variable {fields : List Byte} {seq : U32} {s r : State} {o : Outcome} {P : State → Prop}

theorem runsTo_region {n : Fin 32} (ok : fieldsOk 32 fields = true) (arms : s.arms (.region n) seq)
    (judged : judgeRegion n fields (s.handed (.region n) fields seq) = (o, r))
    (holds : P (r.onPu (Pu.enter (.region n) o))) : runsTo (.regionRecordArm n fields seq) s P :=
  runsTo_fields (k := .region n) (judgeRegion_take n) rfl arms (show 32 ≠ 128 by decide) (show 12 ≤ 28 by decide)
    (fun _ _ => rfl) (by rw [length_of_fieldsOk ok]; decide) judged holds

theorem runsTo_beacon {n : Fin 2} (ok : fieldsOk 32 fields = true) (arms : s.arms (.beacon n) seq)
    (judged : judgeBeacon n fields (s.handed (.beacon n) fields seq) = (o, r))
    (holds : P (r.onPu (Pu.enter (.beacon n) o))) : runsTo (.beaconRecordArm n fields seq) s P :=
  runsTo_fields (k := .beacon n) (judgeBeacon_take n) rfl arms (show 32 ≠ 128 by decide) (show 6 ≤ 28 by decide)
    (fun _ _ => rfl) (by rw [length_of_fieldsOk ok]; decide) judged holds

theorem runsTo_time (ok : fieldsOk 32 fields = true) (arms : s.arms .time seq)
    (judged : judgeTime fields (s.handed .time fields seq) = (o, r))
    (holds : P (r.onPu (Pu.enter .time o))) : runsTo (.timeRecordArm fields seq) s P :=
  runsTo_fields (k := .time) judgeTime_take rfl arms (by decide) (by decide) (fun _ _ => rfl)
    (by rw [length_of_fieldsOk ok]; decide) judged holds

end

/-- The table's entry where a judgement leaves the plan unit alone. -/
theorem judged_handed {k : RecordKind} {fields : List Byte} {seq : U32} {s r : State}
    (same : r.pu = (s.handed k fields seq).pu) (o : Outcome) : (r.onPu (Pu.enter k o)).judged k seq o := by
  refine judged_enter ?_ o
  rw [State.entry, same]
  exact State.handed_lastSeen ..

end Sys2Proof.Machine
end

section
/-!
PROOFS. What the arms of region, beacon, trigger and time records run to (R120, R127, R129, R157).
-/
namespace Sys2Proof.Machine

theorem regionArm {fields : List Byte} {seq : U32} {s : State} (ok : fieldsOk 32 fields = true) (n : Fin 32)
    (arms : s.arms (.region n) seq) :
    (regionAt fields = none → runsTo (.regionRecordArm n fields seq) s fun u =>
      u.judged (.region n) seq .refusedField ∧ u.rm = s.rm) ∧
    ∀ r, regionAt fields = some r → runsTo (.regionRecordArm n fields seq) s fun u =>
      u.judged (.region n) seq .taken ∧
        u.rm.regions = vset s.rm.regions n { r with drops := (vget s.rm.regions n).drops } ∧
        u.rm.statusDrops = s.rm.statusDrops ∧ u.rm.rangeDrops = s.rm.rangeDrops := by
  constructor
  · intro field
    exact runsTo_region ok arms (judgeRegion_of_field field n _) ⟨judged_handed rfl _, by simp⟩
  · intro r field
    obtain ⟨t, judged, same, regions, drops⟩ := judgeRegion_of_region field n (s.handed (.region n) fields seq)
    refine runsTo_region ok arms judged ⟨judged_handed same _, ?_⟩
    simpa using And.intro regions drops

theorem beaconArm {fields : List Byte} {seq : U32} {s : State} (ok : fieldsOk 32 fields = true) (n : Fin 2)
    (arms : s.arms (.beacon n) seq) :
    (numAt fields 2 2 = 0 ∨ [false, true][byteAt fields 4]? = none ∨ codeAt beaconSelects fields 5 = none →
      runsTo (.beaconRecordArm n fields seq) s fun u => u.judged (.beacon n) seq .refusedField ∧ u.tm = s.tm) ∧
    ∀ restart select, numAt fields 2 2 ≠ 0 → [false, true][byteAt fields 4]? = some restart →
      codeAt beaconSelects fields 5 = some select →
      runsTo (.beaconRecordArm n fields seq) s fun u => u.judged (.beacon n) seq .taken ∧
        u.tm = { s.tm with beacons := vset s.tm.beacons n { vget s.tm.beacons n with
          delay := numAt fields 0 2, width := numAt fields 2 2, restart, select, state := .idle, timer := none } } := by
  constructor
  · intro field
    exact runsTo_beacon ok arms (judgeBeacon_of_field field n _) ⟨judged_handed rfl _, by simp⟩
  · intro restart select width flag line
    refine runsTo_beacon ok arms (judgeBeacon_of_fields width flag line n _)
      ⟨judged_handed (State.onTm_pu ..) _, ?_⟩
    rw [State.onPu_tm, State.onBeacon, State.onTm_tm, (State.handed_keeps ..).2.2.2.2.2.2.2.2.2.2.1]
    rfl

theorem State.handed_consumerLevel (k : RecordKind) (fields : List Byte) (seq : U32) (s : State) (c : Consumer) :
    (s.handed k fields seq).consumerLevel c = s.consumerLevel c := by
  rw [State.handed_eq]
  rfl

theorem State.reselect_same {old new : Consumer} (h : old.source = new.source ∧ old.invert = new.invert) (s : State) :
    s.reselect old new = { new with seen := old.seen } := if_pos h

theorem State.reselect_changed {old new : Consumer} (h : ¬ (old.source = new.source ∧ old.invert = new.invert))
    (s : State) : s.reselect old new = { new with seen := s.consumerLevel new } := if_neg h

theorem SyncOut.reselect_eq {old new : SyncOut} (fresh : new.follow = none) :
    old.reselect new = { new with follow := if old.source = new.source then old.follow else none } := by
  unfold SyncOut.reselect
  split
  · rfl
  · rw [← fresh]

theorem triggerArm {seq : U32} {s : State} (arms : s.arms .trigger seq) :
    let b := s.pu.shadow.bytes 0xA00 124
    let run (P : State → Prop) : Prop := runsTo (.triggerRecordArm seq) s P
    ((∃ n, consumerAt b n = none) ∨ (∃ n, syncOutAt b n = none) →
      run fun u => u.judged .trigger seq .refusedField ∧ u.tm = s.tm) ∧
    ((∀ n, consumerAt b n ≠ none) → (∀ n, syncOutAt b n ≠ none) →
      run fun u => u.judged .trigger seq .taken ∧ u.tm.beacons = s.tm.beacons ∧ u.tm.pulses = s.tm.pulses ∧
        (∀ n c, consumerAt b n = some c →
          let same : Prop := (s.consumer n).source = c.source ∧ (s.consumer n).invert = c.invert
          (same → u.consumer n = { c with seen := (s.consumer n).seen }) ∧
          (¬ same → u.consumer n = { c with seen := s.consumerLevel c })) ∧
        (∀ n o, syncOutAt b n = some o →
          let old := vget s.tm.outs n
          vget u.tm.outs n = { o with follow := if old.source = o.source then old.follow else none })) := by
  intro b run
  have inputs (n : Fin 8) := consumerAt_trigger_snapshot seq s n
  have outputs (n : Fin 2) := syncOutAt_trigger_snapshot seq s n
  constructor
  · intro field
    refine runsTo_arm (fields := []) (o := .refusedField) rfl arms (judgeTrigger_of_field ?_ _)
      ⟨judged_handed rfl _, by simp⟩
    simpa only [inputs, outputs] using field
  · intro consumers outs
    obtain ⟨t, judged, same, beacons, pulses, seen, driven⟩ := judgeTrigger_of_fields
      (fun n none => consumers n ((inputs n).symm.trans none)) (fun n none => outs n ((outputs n).symm.trans none)) (s.handed .trigger [] seq)
    refine runsTo_arm (fields := []) (o := .taken) rfl arms judged
      ⟨judged_handed same _, by simpa using beacons, by simpa using pulses, fun n c field => ?_, fun n o field => ?_⟩
    · have new : t.consumer n = (s.handed .trigger [] seq).reselect (s.consumer n) c := by
        rw [seen n, State.rewired, inputs n, field]
        simp [State.consumer]
      exact ⟨fun h => new.trans (State.reselect_same h _),
        fun h => new.trans ((State.reselect_changed h _).trans (by rw [State.handed_consumerLevel]))⟩
    · have new : vget t.tm.outs n = (vget s.tm.outs n).reselect o := by
        rw [driven n, SyncOut.rewired, outputs n, field]
        simp
      exact new.trans (SyncOut.reselect_eq ((syncOutAt_eq_some_iff _ _ _).mp field).2.2)

theorem timeArm {fields : List Byte} {seq : U32} {s : State} (ok : fieldsOk 32 fields = true) (arms : s.arms .time seq) :
    let value : U64 := BitVec.ofNat 64 (numAt fields 8 8)
    let run (o : Outcome) (tb : Tb) : Prop :=
      runsTo (.timeRecordArm fields seq) s fun u => u.judged .time seq o ∧ u.tb = tb
    (s.tb.holding ≠ none → run .refusedBusy s.tb) ∧
    (s.tb.holding = none →
      (codeAt adjustModes fields 0 = none → run .refusedField s.tb) ∧
      (∀ m, codeAt adjustModes fields 0 = some m →
        (¬ m.inRange value → run .refusedField s.tb) ∧
        (m.inRange value → run .pending
          { s.tb with holding := some { mode := m, value, gen := s.generation, age := 0 } }))) := by
  intro value run
  have held : (s.handed .time fields seq).tb.holding = s.tb.holding := by simp
  refine ⟨fun busy => ?_, fun free => ⟨fun code => ?_, fun m code => ⟨fun beyond => ?_, fun fits => ?_⟩⟩⟩
  · exact runsTo_time ok arms (judgeTime_of_busy (by rwa [held]) _) ⟨judged_handed rfl _, by simp⟩
  · exact runsTo_time ok arms (judgeTime_of_field (held.trans free) (by simp [code])) ⟨judged_handed rfl _, by simp⟩
  · refine runsTo_time ok arms (judgeTime_of_field (held.trans free) fun m' code' => ?_) ⟨judged_handed rfl _, by simp⟩
    obtain rfl := Option.some.inj (code.symm.trans code')
    exact beyond
  · exact runsTo_time ok arms (judgeTime_of_fields (held.trans free) code fits) ⟨judged_handed (State.onTb_pu ..) _, by simp [value]⟩

/-- Settles O35, by what each owner makes of the bytes it is handed. -/
theorem regionTriggerAndTimeArms : Obligations.RegionTriggerAndTimeArms :=
  ⟨regionAt_eq_some_iff, consumerAt_eq_some_iff, syncOutAt_eq_some_iff, fun _ _ _ ok =>
    ⟨fun n arms => regionArm ok n arms, fun n arms => beaconArm ok n arms, triggerArm, timeArm ok⟩⟩

end Sys2Proof.Machine
end

section
/-!
PROOFS. Present slots (R9, R10): the fields, the checks in their order, and the entry that joins the queue.
-/
namespace Sys2Proof.Machine

/-! ### The fields of a slot (R184, R186) -/

theorem presentAt_eq_some_iff (b : List Byte) (e : Entry) : presentAt b = some e ↔
    e.tag = BitVec.ofNat 32 (numAt b 0 4) ∧ byteAt b 4 = e.left.val ∧
    (byteAt b 5 = 0xFF ∧ e.right = none ∨ ∃ r, byteAt b 5 = r.val ∧ e.right = some r) ∧ e.right ≠ some e.left ∧
    (byteAt b 6 = 0 ∧ e.target = none ∨
      byteAt b 6 = 1 ∧ e.target = some ⟨BitVec.ofNat 40 (numAt b 8 5), b.getD 13 0⟩) ∧
    (byteAt b 7 = 0 ∧ e.pose = none ∨ byteAt b 7 = 1 ∧ e.pose = some (BitVec.ofNat 32 (numAt b 16 4))) ∧
    e.source = .host := by
  obtain ⟨tag, left, right, target, pose, source⟩ := e
  have flag {α : Type} (i : Nat) (x : α) (y : Option α) :
      (∃ f, flagAt b i = some f ∧ (if f = true then some x else none) = y) ↔
        byteAt b i = 0 ∧ y = none ∨ byteAt b i = 1 ∧ y = some x := by
    rw [flagAt_eq]
    match byteAt b i with
    | 0 => simp [eq_comm]
    | 1 => simp [eq_comm]
    | n + 2 => simp
  rw [← slotAt_eq_some_iff (show 6 ≤ 255 by decide) b 5 right, ← finAt_eq_some_iff]
  simp only [← flag, presentAt, bind, Option.bind_eq_some_iff, Option.ite_none_left_eq_some, Option.some.injEq, Entry.mk.injEq, stampAt]
  constructor
  · rintro ⟨_, hl, _, hr, _, ht, _, hp, distinct, rfl, rfl, rfl, rfl, rfl, rfl⟩
    exact ⟨rfl, hl, hr, distinct, ⟨_, ht, rfl⟩, ⟨_, hp, rfl⟩, rfl⟩
  · rintro ⟨rfl, hl, hr, distinct, ⟨_, ht, rfl⟩, ⟨_, hp, rfl⟩, rfl⟩
    exact ⟨_, hl, _, hr, _, ht, _, hp, distinct, rfl, rfl, rfl, rfl, rfl, rfl⟩

theorem presentAt_take (b : List Byte) : presentAt (b.take 20) = presentAt b := by
  simp [presentAt, finAt, slotAt, flagAt, stampAt, byteAt_take, numAt_take]

theorem judgePresent_take (b : List Byte) (s : State) : judgePresent (b.take 20) s = judgePresent b s := by
  rw [judgePresent, judgePresent, presentAt_take]

/-! ### The checks (R9) -/

theorem St.eyeOf_eq_some_iff (t : St) (n : Fin 6) (x : Eye) :
    t.eyeOf n = some x ↔ ∃ c, (t.surface n).config = some c ∧ c.eye = x := by
  simp [St.eyeOf]

theorem St.eyesOk_iff (left : Fin 6) (right : Option (Fin 6)) (t : St) : t.eyesOk left right = true ↔
    (∃ r, right = some r ∧ (∃ c, (t.surface left).config = some c ∧ c.eye = .left) ∧
      ∃ c, (t.surface r).config = some c ∧ c.eye = .right) ∨
    (right = none ∧ ∃ c, (t.surface left).config = some c ∧ c.eye = .both) := by
  simp only [← St.eyeOf_eq_some_iff]
  cases right <;> simp [St.eyesOk]

theorem St.fitsPanel_iff (n : Fin 6) (set : TimingSet) (t : St) : t.fitsPanel set n = true ↔
    ∃ c, (t.surface n).config = some c ∧ c.width = set.panelWidth ∧ c.height = set.panelHeight := by
  unfold St.fitsPanel
  split
  next c config => simp [config]
  next config => simp [config]

theorem Surface.presentable_iff (f : Surface) : f.presentable = true ↔
    ∃ c, f.config = some c ∧ (f.state = .ready ∨ (c.owner = .host ∧ f.state = .opened)) := by
  unfold Surface.presentable
  cases config : f.config with
  | none => simp
  | some c =>
    cases owner : c.owner with
    | host => simp [owner, or_comm]
    | tether => simp [owner]

/-! ### The judgement -/

section
variable {b : List Byte} {s : State} {e : Entry}

theorem judgePresent_of_field (fields : presentAt b = none) : judgePresent b s = (.refusedField, s) := by
  rw [judgePresent, fields]

theorem judgePresent_of_state (fields : presentAt b = some e)
    (h : ¬ ((∀ m ∈ e.named, (s.st.surface m).presentable = true) ∧ s.st.barred = false)) :
    judgePresent b s = (.refusedState, s) := by
  rw [judgePresent, fields]
  refine if_pos ?_
  rw [Bool.or_eq_true, Bool.not_eq_true', ← Bool.not_eq_true, List.all_eq_true]
  refine Classical.byContradiction fun neither => ?_
  rw [not_or, Classical.not_not, Bool.not_eq_true] at neither
  exact h neither

theorem judgePresent_of_ready (fields : presentAt b = some e)
    (ready : (∀ m ∈ e.named, (s.st.surface m).presentable = true) ∧ s.st.barred = false) :
    judgePresent b s =
      if !s.st.eyesOk e.left e.right || !(e.named.all (s.st.fitsPanel s.so.applied)) then (.refusedField, s)
      else if 3 ≤ s.st.queue.length then (.refusedFull, s)
      else (.taken, enqueue e s) := by
  rw [judgePresent, fields]
  refine if_neg ?_
  rw [Bool.or_eq_true, Bool.not_eq_true', ← Bool.not_eq_true, List.all_eq_true, not_or, Classical.not_not, Bool.not_eq_true]
  exact ready

/-- The eyes and the panel size are as the frame needs them. -/
theorem fits_iff : (!s.st.eyesOk e.left e.right || !(e.named.all (s.st.fitsPanel s.so.applied))) = false ↔
    s.st.eyesOk e.left e.right = true ∧ ∀ m ∈ e.named, s.st.fitsPanel s.so.applied m = true := by
  rw [Bool.or_eq_false_iff, Bool.not_eq_false', Bool.not_eq_false', List.all_eq_true]

end

/-- An entry joins the queue's tail, and its surfaces become QUEUED. -/
theorem enqueue_joins (e : Entry) (s : State) : (enqueue e s).st.queue = s.st.queue ++ [e] ∧
    (enqueue e s).st.current = s.st.current ∧ (enqueue e s).st.previous = s.st.previous ∧
    ∀ m, (enqueue e s).st.surface m =
      { s.st.surface m with state := if m ∈ e.named then .queued else (s.st.surface m).state } := by
  have st : (enqueue e s).st =
      St.noteFrames s.st { (s.st.setStates .queued e.named) with queue := s.st.queue ++ [e] } := rfl
  rw [St.noteFrames_eq] at st
  refine ⟨by rw [st], by rw [st]; simp, by rw [st]; simp, fun m => ?_⟩
  rw [st]
  refine (St.surface_setStates .queued e.named s.st m).trans ?_
  split <;> rfl

theorem presentArm {n : Fin 4} {fields : List Byte} {seq : U32} {s : State} (arms : s.arms (.present n) seq)
    (ok : fieldsOk 32 fields = true) :
    let keeps (o : Outcome) : Prop :=
      runsTo (.presentSlotArm n fields seq) s fun u => u.judged (.present n) seq o ∧ u.st = s.st
    (presentAt fields = none → keeps .refusedField) ∧
    (∀ e, presentAt fields = some e →
      let ready : Prop := (∀ m ∈ e.named, (s.st.surface m).presentable = true) ∧ s.st.barred = false
      let fits : Prop := s.st.eyesOk e.left e.right = true ∧ ∀ m ∈ e.named, s.st.fitsPanel s.so.applied m = true
      (¬ ready → keeps .refusedState) ∧ (ready → ¬ fits → keeps .refusedField) ∧
      (ready → fits → 3 ≤ s.st.queue.length → keeps .refusedFull) ∧
      (ready → fits → s.st.queue.length < 3 →
        runsTo (.presentSlotArm n fields seq) s fun u => u.judged (.present n) seq .taken ∧
          u.st.queue = s.st.queue ++ [e] ∧ u.st.current = s.st.current ∧ u.st.previous = s.st.previous ∧
          ∀ m, u.st.surface m =
            { s.st.surface m with state := if m ∈ e.named then .queued else (s.st.surface m).state })) := by
  intro keeps
  have st : (s.handed (.present n) fields seq).st = s.st := by simp
  have so : (s.handed (.present n) fields seq).so = s.so := by simp
  have run {o : Outcome} {r : State} {P : State → Prop}
      (judged : judgePresent fields (s.handed (.present n) fields seq) = (o, r))
      (holds : P (r.onPu (Pu.enter (.present n) o))) : runsTo (.presentSlotArm n fields seq) s P :=
    runsTo_fields (k := .present n) judgePresent_take rfl arms (show 32 ≠ 128 by decide) (show 20 ≤ 28 by decide)
      (fun _ _ => rfl) (by rw [length_of_fieldsOk ok]; decide) judged holds
  have kept {o : Outcome} (judged : judgePresent fields (s.handed (.present n) fields seq) =
      (o, s.handed (.present n) fields seq)) : keeps o := run judged ⟨judged_handed rfl _, by simp⟩
  refine ⟨fun field => kept (judgePresent_of_field field), fun e field => ?_⟩
  intro ready fits
  have whenReady (h : ready) := judgePresent_of_ready (s := s.handed (.present n) fields seq) field (by rwa [st])
  rw [st, so] at whenReady
  refine ⟨fun h => kept (judgePresent_of_state field (by rwa [st])), fun h unfit => kept ?_, fun h fit full => kept ?_,
    fun h fit room => ?_⟩
  · rw [whenReady h, if_pos]
    rw [← Bool.not_eq_false, fits_iff]
    exact unfit
  · rw [whenReady h, if_neg (Bool.eq_false_iff.mp (fits_iff.mpr fit)), if_pos full]
  · have joined := enqueue_joins e (s.handed (.present n) fields seq)
    rw [st] at joined
    have pu : (enqueue e (s.handed (.present n) fields seq)).pu = (s.handed (.present n) fields seq).pu := by simp
    refine run ((whenReady h).trans ((if_neg (Bool.eq_false_iff.mp (fits_iff.mpr fit))).trans (if_neg (by omega))))
      ⟨judged_handed pu _, ?_⟩
    simpa only [State.onPu_st] using joined

/-- Settles O30, by the order of the checks. -/
theorem presentSlots : Obligations.PresentSlots :=
  ⟨presentAt_eq_some_iff, St.eyesOk_iff, fun n set t => ⟨St.fitsPanel_iff n set t, Surface.presentable_iff _⟩,
    fun _ _ _ _ => presentArm⟩

end Sys2Proof.Machine
end

section
/-!
PROOFS. Timing set arms (R24, R25, R27).
-/
namespace Sys2Proof.Machine

/-! ### The fields of a timing set (R24, R184, R186) -/

theorem timingAt_eq_some_iff (b : List Byte) (t : TimingSet) :
    let selects : List StrobeSelect := [.off, .pulse, .inverted, .released]
    timingAt b = some t ↔
      [false, true][byteAt b 0]? = some t.scanEnable ∧ [SyncMode.free, .triggered][byteAt b 1]? = some t.sync ∧
      [Policy.fifo, .latest][byteAt b 2]? = some t.policy ∧ t.reloadSkip = byteAt b 3 ∧ t.reloadSkip ≤ 7 ∧
      [false, true][byteAt b 4]? = some t.photonUplink ∧ selects[byteAt b 5]? = some t.lineLeft ∧
      selects[byteAt b 6]? = some t.lineRight ∧ t.level = byteAt b 7 ∧ 1 ≤ t.level ∧ t.level ≤ 63 ∧
      t.period = numAt b 8 4 ∧ 5000 ≤ t.period ∧ t.period ≤ 20000 ∧ t.scan = numAt b 12 4 ∧ 1000 ≤ t.scan ∧
      t.settle = numAt b 16 4 ∧ t.settle ≤ 2000 ∧ t.strobeWidth = numAt b 20 4 ∧ 50 ≤ t.strobeWidth ∧
      t.strobeWidth ≤ 4000 ∧ t.scan + t.settle + t.strobeWidth + 100 ≤ t.period ∧ t.lossLimit = numAt b 24 4 ∧
      (t.sync = .triggered → t.period ≤ t.lossLimit ∧ t.lossLimit ≤ 1000000) ∧
      t.panelWidth = numAt b 28 2 ∧ 16 ≤ t.panelWidth ∧ t.panelWidth ≤ 2560 ∧
      t.panelHeight = numAt b 30 2 ∧ 16 ≤ t.panelHeight ∧ t.panelHeight ≤ 2560 ∧
      t.fallback = ⟨b.getD 32 0, b.getD 33 0, b.getD 34 0⟩ := by
  intro selects
  obtain ⟨scanEnable, sync, policy, reloadSkip, photonUplink, lineLeft, lineRight, level, period, scan, settle,
    strobeWidth, lossLimit, panelWidth, panelHeight, fallback⟩ := t
  have mode (p : Prop) : (sync = .free ∨ p) ↔ (sync = .triggered → p) := by cases sync <;> simp
  simp only [timingAt, flagAt_eq, bind, Option.bind_eq_some_iff, Option.ite_none_right_eq_some, Option.some.injEq,
    TimingSet.mk.injEq]
  constructor
  · rintro ⟨_, h0, _, h1, _, h2, _, h4, _, h5, _, h6, checks, rfl, rfl, rfl, rfl, rfl, rfl, rfl, rfl, rfl, rfl, rfl,
      rfl, rfl, rfl, rfl, rfl⟩
    rw [mode] at checks
    obtain ⟨skip, lo, hi, plo, phi, slo, settles, wlo, whi, xlo, xhi, ylo, yhi, fits, loss⟩ := checks
    exact ⟨h0, h1, h2, rfl, skip, h4, h5, h6, rfl, lo, hi, rfl, plo, phi, rfl, slo, rfl, settles, rfl, wlo, whi, fits,
      rfl, loss, rfl, xlo, xhi, rfl, ylo, yhi, rfl⟩
  · rintro ⟨h0, h1, h2, rfl, skip, h4, h5, h6, rfl, lo, hi, rfl, plo, phi, rfl, slo, rfl, settles, rfl, wlo, whi, fits,
      rfl, loss, rfl, xlo, xhi, rfl, ylo, yhi, rfl⟩
    rw [← mode] at loss
    exact ⟨_, h0, _, h1, _, h2, _, h4, _, h5, _, h6,
      ⟨skip, lo, hi, plo, phi, slo, settles, wlo, whi, xlo, xhi, ylo, yhi, fits, loss⟩, rfl, rfl, rfl, rfl, rfl, rfl,
      rfl, rfl, rfl, rfl, rfl, rfl, rfl, rfl, rfl, rfl⟩

theorem timingAt_take (b : List Byte) : timingAt (b.take 35) = timingAt b := by
  simp only [timingAt, flagAt, codeAt, byteAt_take (show 0 < 35 by omega), byteAt_take (show 1 < 35 by omega),
    byteAt_take (show 2 < 35 by omega), byteAt_take (show 3 < 35 by omega), byteAt_take (show 4 < 35 by omega),
    byteAt_take (show 5 < 35 by omega), byteAt_take (show 6 < 35 by omega), byteAt_take (show 7 < 35 by omega),
    numAt_take (show 8 + 4 ≤ 35 by omega), numAt_take (show 12 + 4 ≤ 35 by omega),
    numAt_take (show 16 + 4 ≤ 35 by omega), numAt_take (show 20 + 4 ≤ 35 by omega),
    numAt_take (show 24 + 4 ≤ 35 by omega), numAt_take (show 28 + 2 ≤ 35 by omega),
    numAt_take (show 30 + 2 ≤ 35 by omega), getD_take (show 32 < 35 by omega), getD_take (show 33 < 35 by omega),
    getD_take (show 34 < 35 by omega)]

theorem judgeTiming_take (b : List Byte) (s : State) : judgeTiming (b.take 35) s = judgeTiming b s := by
  rw [judgeTiming, judgeTiming, timingAt_take]

theorem St.holdsFrame_iff (t : St) : t.holdsFrame = true ↔ t.queue ≠ [] ∨ t.current ≠ none ∨ t.previous ≠ none := by
  simp [St.holdsFrame, Option.isSome_iff_ne_none, or_assoc]

/-! ### The boundary without a pending set (R31) -/

/-- A boundary with no pending set and scan enable yes: SCAN begins, with the surface tracker's decision. -/
theorem frameBoundary_of_scan {b : Bool} {s : State} (pending : s.so.pendingSet = none)
    (enable : s.so.applied.scanEnable = true) : frameBoundary b s = beginBands (boundaryDecision s.tb.now
      (pulse 2 (s.onSo fun o => So.beginScan b { o.nextFrame with lastBoundary := s.tb.now }))) := by
  have kept : s.so.nextFrame.pendingSet = none := by
    unfold So.nextFrame
    split <;> exact pending
  have reloaded : reload (s.onSo fun o => { o.nextFrame with lastBoundary := s.tb.now }) =
      s.onSo fun o => { o.nextFrame with lastBoundary := s.tb.now } := by
    simp [reload, kept]
  rw [frameBoundary, reloaded, if_neg (by simp [enable])]
  rfl

theorem frameBoundary_pu {b : Bool} {s : State} (pending : s.so.pendingSet = none)
    (enable : s.so.applied.scanEnable = true) : (frameBoundary b s).pu = s.pu := by
  rw [frameBoundary_of_scan pending enable]
  simp

/-! ### The set is applied (R25, R26) -/

theorem applySet_so (t : TimingSet) (s : State) : (applySet t s).so.applied = t ∧ (applySet t s).so.state = s.so.state ∧
    (applySet t s).so.pendingSet = s.so.pendingSet := by
  simp only [applySet, raise_keeps, State.onSo_so]
  split <;> exact ⟨rfl, rfl, rfl⟩

theorem applySet_pendingEvent (t : TimingSet) (s : State) : (applySet t s).pendingEvent .timingTaken = true :=
  raise_pendingEvent ..

theorem mayStart_applySet (t : TimingSet) (s : State) : (applySet t s).mayStart = s.mayStart := by
  simp [State.mayStart]

/-- A boundary shows the set that stands, with the engine RUNNING. -/
theorem frameBoundary_applied {b : Bool} {s : State} (pending : s.so.pendingSet = none)
    (enable : s.so.applied.scanEnable = true) :
    (frameBoundary b s).so.applied = s.so.applied ∧ (frameBoundary b s).so.state = .running := by
  rw [frameBoundary_so pending enable]
  refine ⟨?_, rfl⟩
  simp only [So.beginScan, So.nextFrame]
  split <;> rfl

/-- What a set that is taken at once makes of the engine. -/
structure State.ShowsSet (t : TimingSet) (s u : State) : Prop where
  applied : u.so.applied = t
  raised : u.pendingEvent .timingTaken = true
  pu : u.pu = s.pu

theorem applySet_shows (t : TimingSet) (s : State) : s.ShowsSet t (applySet t s) :=
  ⟨(applySet_so t s).1, applySet_pendingEvent t s, by simp⟩

theorem State.ShowsSet.onSo {t : TimingSet} {s u : State} (h : s.ShowsSet t u) {f : So → So}
    (same : (f u.so).applied = u.so.applied) : s.ShowsSet t (u.onSo f) :=
  ⟨same.trans h.applied, h.raised, h.pu⟩

theorem State.ShowsSet.boundary {t : TimingSet} {s u : State} (h : s.ShowsSet t u) (pending : u.so.pendingSet = none)
    (enable : t.scanEnable = true) (b : Bool) : s.ShowsSet t (frameBoundary b u) := by
  rw [← h.applied] at enable
  exact ⟨(frameBoundary_applied pending enable).1.trans h.applied, (frameBoundary_delivers b u).events _ h.raised,
    (frameBoundary_pu pending enable).trans h.pu⟩

theorem takeSet_shows {t : TimingSet} {s : State} (idle : s.so.state ≠ .running) (pending : s.so.pendingSet = none) :
    s.ShowsSet t (takeSet t s) ∧ (t.scanEnable = false → (takeSet t s).so.state = .stopped) ∧
    (t.scanEnable = true → s.so.state = .waiting ∨ s.mayStart = true →
      (takeSet t s).so.state = if t.sync = .free then .running else .waiting) := by
  obtain ⟨applied, same, none⟩ := applySet_so t s
  have shows := applySet_shows t s
  have free := none.trans pending
  cases enable : t.scanEnable with
  | false =>
    cases state : s.so.state with
    | running => exact absurd state idle
    | waiting =>
      have taken : takeSet t s = (applySet t s).onSo So.stop := by simp [takeSet, state, enable]
      rw [taken]
      exact ⟨shows.onSo rfl, fun _ => rfl, nofun⟩
    | stopped =>
      have taken : takeSet t s = applySet t s := by simp [takeSet, state, startScan, applied, enable]
      rw [taken]
      exact ⟨shows, fun _ => same.trans state, nofun⟩
  | true =>
    have enabled : (applySet t s).so.applied.scanEnable = true := by rw [applied, enable]
    have begins : s.ShowsSet t (frameBoundary false (applySet t s)) ∧
        (frameBoundary false (applySet t s)).so.state = .running :=
      ⟨shows.boundary free enable false, (frameBoundary_applied free enabled).2⟩
    cases state : s.so.state with
    | running => exact absurd state idle
    | waiting =>
      have taken : takeSet t s = if t.sync = .free then frameBoundary false (applySet t s) else applySet t s := by
        simp [takeSet, state, enable]
      rw [taken]
      split
      · exact ⟨begins.1, nofun, fun _ _ => begins.2⟩
      · exact ⟨shows, nofun, fun _ _ => same.trans state⟩
    | stopped =>
      have taken : takeSet t s = if s.mayStart then startScan (applySet t s) else applySet t s := by
        simp [takeSet, state, mayStart_applySet]
      rw [taken]
      cases start : s.mayStart with
      | false => exact ⟨shows, nofun, fun _ h => by simp at h⟩
      | true =>
        rw [if_pos rfl, startScan, if_neg (by simp [enabled]), applied]
        cases t.sync with
        | free => exact ⟨begins.1, nofun, fun _ _ => begins.2⟩
        | triggered => exact ⟨shows.onSo rfl, nofun, fun _ _ => rfl⟩

/-! ### The judgement -/

theorem refuseTiming_fst (o : Outcome) (s : State) : (refuseTiming o s).1 = o := rfl

/-- A refused arm discards a pending set, counting it among the overtaken ones (R27). -/
theorem refuseTiming_effect (o : Outcome) (s : State) :
    let u := (refuseTiming o s).2
    u.so = { s.so with pendingSet := none } ∧ (u.entry .timing).lastSeen = (s.entry .timing).lastSeen ∧
    (u.entry .timing).overtaken =
      if s.so.pendingSet.isSome then sat16 (s.entry .timing).overtaken else (s.entry .timing).overtaken := by
  dsimp only [refuseTiming]
  cases pending : s.so.pendingSet with
  | none =>
    have same : s.so = { s.so with pendingSet := none } := by rw [← pending]
    exact ⟨same, rfl, rfl⟩
  | some p => refine ⟨rfl, ?_, ?_⟩ <;> simp [State.entry, Pu.overtake]

theorem overtake_effect (t : TimingSet) (s : State) :
    let u := (if s.so.pendingSet.isSome then s.onPu (Pu.overtake .timing) else s).onSo fun o =>
      { o with pendingSet := some (t, t.reloadSkip) }
    u.so = { s.so with pendingSet := some (t, t.reloadSkip) } ∧
    (u.entry .timing).lastSeen = (s.entry .timing).lastSeen ∧
    (u.entry .timing).overtaken =
      if s.so.pendingSet.isSome then sat16 (s.entry .timing).overtaken else (s.entry .timing).overtaken := by
  dsimp only
  split
  · refine ⟨rfl, ?_, ?_⟩ <;> simp [State.entry, Pu.overtake]
  · exact ⟨rfl, rfl, rfl⟩

section
variable {b : List Byte} {s : State} {t : TimingSet}

/-- A new panel size while a frame runs or is held. -/
def State.bars (s : State) (t : TimingSet) : Prop :=
  (t.panelWidth ≠ s.so.applied.panelWidth ∨ t.panelHeight ≠ s.so.applied.panelHeight) ∧
    (s.so.state = .running ∨ s.st.holdsFrame = true)

theorem judgeTiming_of_field (field : timingAt b = none) : judgeTiming b s = refuseTiming .refusedField s := by
  rw [judgeTiming, field]

theorem judgeTiming_of_barred (field : timingAt b = some t) (barred : s.bars t) :
    judgeTiming b s = refuseTiming .refusedState s := by
  rw [judgeTiming, field]
  exact if_pos barred

theorem judgeTiming_of_running (field : timingAt b = some t) (free : ¬ s.bars t) (running : s.so.state = .running) :
    judgeTiming b s = (.pending, (if s.so.pendingSet.isSome then s.onPu (Pu.overtake .timing) else s).onSo fun o =>
      { o with pendingSet := some (t, t.reloadSkip) }) := by
  rw [judgeTiming, field]
  exact (if_neg free).trans (if_pos running)

theorem judgeTiming_of_idle (field : timingAt b = some t) (free : ¬ s.bars t) (idle : s.so.state ≠ .running) :
    judgeTiming b s = (.taken, takeSet t s) := by
  rw [judgeTiming, field]
  exact (if_neg free).trans (if_neg idle)

end

theorem enter_overtaken (o : Outcome) (k : RecordKind) (s : State) :
    ((s.onPu (Pu.enter k o)).entry k).overtaken = (s.entry k).overtaken := by
  simp [State.entry, Pu.enter]

theorem timingArm {fields : List Byte} {seq : U32} {s : State} (arms : s.arms .timing seq)
    (ok : fieldsOk 64 fields = true) :
    let run (P : State → Prop) : Prop := runsTo (.timingSetArm fields seq) s P
    let old := (s.entry .timing).overtaken
    let after := if s.so.pendingSet.isSome then sat16 old else old
    (timingAt fields = none → run fun u => u.judged .timing seq .refusedField ∧
      u.so = { s.so with pendingSet := none } ∧ (u.entry .timing).overtaken = after) ∧
    (∀ t, timingAt fields = some t →
      (s.bars t → run fun u => u.judged .timing seq .refusedState ∧
        u.so = { s.so with pendingSet := none } ∧ (u.entry .timing).overtaken = after) ∧
      (¬ s.bars t → s.so.state = .running → run fun u => u.judged .timing seq .pending ∧
        u.so = { s.so with pendingSet := some (t, t.reloadSkip) } ∧ (u.entry .timing).overtaken = after) ∧
      (¬ s.bars t → s.so.state ≠ .running → s.so.pendingSet = none → run fun u => u.judged .timing seq .taken ∧
        u.so.applied = t ∧ u.pendingEvent .timingTaken = true ∧
        (t.scanEnable = false → u.so.state = .stopped) ∧
        (t.scanEnable = true → s.so.state = .waiting ∨ s.mayStart = true →
          u.so.state = if t.sync = .free then .running else .waiting))) := by
  intro run old after
  have so : (s.handed .timing fields seq).so = s.so := by simp
  have bars (t : TimingSet) : (s.handed .timing fields seq).bars t ↔ s.bars t := by simp [State.bars]
  have start : (s.handed .timing fields seq).mayStart = s.mayStart := by simp [State.mayStart]
  have runs {o : Outcome} {r : State} {P : State → Prop} (judged : judgeTiming fields (s.handed .timing fields seq) = (o, r))
      (holds : P (r.onPu (Pu.enter .timing o))) : run P :=
    runsTo_fields (k := .timing) judgeTiming_take rfl arms (by decide) (by decide)
      (fun _ _ => rfl) (by rw [length_of_fieldsOk ok]; decide) judged holds
  have refused {o : Outcome} (judged : judgeTiming fields (s.handed .timing fields seq) =
      refuseTiming o (s.handed .timing fields seq)) : run fun u => u.judged .timing seq o ∧
        u.so = { s.so with pendingSet := none } ∧ (u.entry .timing).overtaken = after := by
    obtain ⟨set, seen, overtaken⟩ := refuseTiming_effect o (s.handed .timing fields seq)
    rw [so] at set
    rw [so, State.handed_overtaken] at overtaken
    exact runs judged ⟨judged_enter (seen.trans (State.handed_lastSeen ..)) o, set, (enter_overtaken ..).trans overtaken⟩
  refine ⟨fun field => refused (judgeTiming_of_field field), fun t field => ⟨fun barred => ?_, fun open' running => ?_,
    fun open' idle none => ?_⟩⟩
  · exact refused (judgeTiming_of_barred field ((bars t).mpr barred))
  · obtain ⟨set, seen, overtaken⟩ := overtake_effect t (s.handed .timing fields seq)
    rw [so] at set
    rw [so, State.handed_overtaken] at overtaken
    exact runs (judgeTiming_of_running field (fun h => open' ((bars t).mp h)) (by rwa [so]))
      ⟨judged_enter (seen.trans (State.handed_lastSeen ..)) _, set, (enter_overtaken ..).trans overtaken⟩
  · obtain ⟨shows, stops, starts⟩ := takeSet_shows (t := t) (s := s.handed .timing fields seq) (by rwa [so]) (by rwa [so])
    rw [so, start] at starts
    exact runs (judgeTiming_of_idle field (fun h => open' ((bars t).mp h)) (by rwa [so]))
      ⟨judged_handed shows.pu _, shows.applied, shows.raised, stops, starts⟩

/-- Settles O31, by the engine's state and the checks in their order. -/
theorem timingArms : Obligations.TimingArms :=
  ⟨timingAt_eq_some_iff, St.holdsFrame_iff, fun _ _ _ => timingArm⟩

end Sys2Proof.Machine
end

section
/-!
PROOFS. Sensor channel, routing rule and sensor ring arms (R50, R51, R52, R57, R59, R63).
-/
namespace Sys2Proof.Machine

/-! ### The fields (R184, R186) -/

theorem channelConfigAt_eq_some_iff (b : List Byte) (c : ChannelConfig) : channelConfigAt b = some c ↔
    [false, true][byteAt b 0]? = some c.enable ∧
    [ChannelMode.dataReady, .interval, .matrix][byteAt b 1]? = some c.mode ∧
    c.cmdCount = byteAt b 2 ∧ c.cmdCount ≤ 4 ∧ c.readLen = byteAt b 3 ∧ 1 ≤ c.readLen ∧ c.readLen ≤ 16 ∧
    c.faultLimit = byteAt b 4 ∧ 1 ≤ c.faultLimit ∧ c.faultLimit ≤ 15 ∧ [false, true][byteAt b 5]? = some c.keep ∧
    c.interval = numAt b 8 4 ∧ (c.mode = .interval → 250 ≤ c.interval ∧ c.interval ≤ 1000000) ∧
    c.cmdBytes = bytesAt b 12 4 := by
  obtain ⟨enable, mode, interval, cmdCount, cmdBytes, readLen, faultLimit, keep⟩ := c
  simp only [channelConfigAt, flagAt_eq, codeAt, channelModes, bind, Option.bind_eq_some_iff,
    Option.ite_none_right_eq_some, Option.some.injEq, ChannelConfig.mk.injEq, ne_eq, ← Decidable.imp_iff_not_or]
  constructor
  · rintro ⟨_, h0, _, h1, _, h5, ⟨count, rlo, rhi, flo, fhi, timed⟩, rfl, rfl, rfl, rfl, rfl, rfl, rfl, rfl⟩
    exact ⟨h0, h1, rfl, count, rfl, rlo, rhi, rfl, flo, fhi, h5, rfl, timed, rfl⟩
  · rintro ⟨h0, h1, rfl, count, rfl, rlo, rhi, rfl, flo, fhi, h5, rfl, timed, rfl⟩
    exact ⟨_, h0, _, h1, _, h5, ⟨count, rlo, rhi, flo, fhi, timed⟩, rfl, rfl, rfl, rfl, rfl, rfl, rfl, rfl⟩

theorem ruleAt_eq_some_iff (b : List Byte) (r : Rule) : ruleAt b = some r ↔
    [false, true][byteAt b 0]? = some r.enable ∧ r.channels = BitVec.ofNat 4 (byteAt b 1) ∧
    [Condition.none, .above, .below, .equal][byteAt b 2]? = some r.cond ∧ r.offset = byteAt b 3 ∧ r.offset ≤ 15 ∧
    r.mask = b.getD 4 0 ∧ r.value = b.getD 5 0 ∧
    (byteAt b 6 = 0xFF ∧ r.ring = none ∨ ∃ q, byteAt b 6 = q.val ∧ r.ring = some q) ∧
    (byteAt b 7 = 0xFF ∧ r.slot = none ∨ ∃ q, byteAt b 7 = q.val ∧ r.slot = some q) ∧
    [false, true][byteAt b 8]? = some r.uplink ∧ [PresenceAction.none, .on, .off][byteAt b 9]? = some r.presence ∧
    [false, true][byteAt b 10]? = some r.final := by
  obtain ⟨enable, channels, cond, offset, mask, value, ring, slot, uplink, presence, final⟩ := r
  rw [← slotAt_eq_some_iff (show 8 ≤ 255 by decide) b 6 ring, ← slotAt_eq_some_iff (show 4 ≤ 255 by decide) b 7 slot]
  simp only [ruleAt, flagAt_eq, codeAt, conditions, presenceActions, bind, Option.bind_eq_some_iff,
    Option.ite_none_left_eq_some, Option.some.injEq, Rule.mk.injEq, Nat.not_lt]
  constructor
  · rintro ⟨_, h0, _, h2, _, h6, _, h7, _, h8, _, h9, _, h10, fits, rfl, rfl, rfl, rfl, rfl, rfl, rfl, rfl, rfl, rfl, rfl⟩
    exact ⟨h0, rfl, h2, rfl, fits, rfl, rfl, h6, h7, h8, h9, h10⟩
  · rintro ⟨h0, rfl, h2, rfl, fits, rfl, rfl, h6, h7, h8, h9, h10⟩
    exact ⟨_, h0, _, h2, _, h6, _, h7, _, h8, _, h9, _, h10, fits, rfl, rfl, rfl, rfl, rfl, rfl, rfl, rfl, rfl, rfl, rfl⟩

theorem channelConfigAt_take (b : List Byte) : channelConfigAt (b.take 16) = channelConfigAt b := by
  simp [channelConfigAt, flagAt, codeAt, byteAt_take, numAt_take, bytesAt_take]

theorem judgeChannel_take (n : Fin 4) (b : List Byte) (s : State) :
    judgeChannel n (b.take 16) s = judgeChannel n b s := by
  rw [judgeChannel, judgeChannel, channelConfigAt_take]

theorem ruleAt_take (b : List Byte) : ruleAt (b.take 11) = ruleAt b := by
  simp only [ruleAt, flagAt, codeAt, slotAt, byteAt_take (show 0 < 11 by omega), byteAt_take (show 1 < 11 by omega),
    byteAt_take (show 2 < 11 by omega), byteAt_take (show 3 < 11 by omega), byteAt_take (show 6 < 11 by omega),
    byteAt_take (show 7 < 11 by omega), byteAt_take (show 8 < 11 by omega), byteAt_take (show 9 < 11 by omega),
    byteAt_take (show 10 < 11 by omega), getD_take (show 4 < 11 by omega), getD_take (show 5 < 11 by omega)]

theorem judgeRule_take (n : Fin 16) (b : List Byte) (s : State) : judgeRule n (b.take 11) s = judgeRule n b s := by
  rw [judgeRule, judgeRule, ruleAt_take]

theorem judgeSensorRing_take (n : Fin 8) (b : List Byte) (s : State) :
    judgeSensorRing n (b.take 12) s = judgeSensorRing n b s := by
  simp [judgeSensorRing, flagAt, byteAt_take, numAt_take]

/-! ### Channels (R50 to R53, R57) -/

/-- A channel as its arm leaves it: `high` says that the data-ready input is high. -/
def Channel.armed (cfg : ChannelConfig) (hold high : Bool) (now : Stamp) (frame : U32) (old : Channel) : Channel :=
  let kept := hold && !cfg.keep
  let runs := cfg.enable && !kept
  { old with config := cfg, state := if runs then .running else .idle, resume := cfg.enable && kept,
             consecutive := 0, faultCleared := old.faultCleared || old.state == .fault,
             holder := if runs && (cfg.mode == .dataReady && high) then some ⟨now, frame, 0⟩ else none,
             timer := if runs && cfg.mode == .interval then some cfg.interval else none }

/-- The hub with one channel changed. -/
structure State.ChannelSet (n : Fin 4) (c : Channel) (s u : State) : Prop where
  channel : u.channel n = c
  others : ∀ m, m ≠ n → u.channel m = s.channel m
  bus : u.sh.bus = s.sh.bus
  hold : u.sh.hold = s.sh.hold
  pu : u.pu = s.pu

theorem State.onChannel_set (n : Fin 4) (f : Channel → Channel) (s : State) :
    s.ChannelSet n (f (s.channel n)) (s.onChannel n f) :=
  ⟨vget_vmod_same .., fun _ other => vget_vmod_ne _ _ other.symm, rfl, rfl, rfl⟩

theorem State.ChannelSet.congr {n : Fin 4} {c d : Channel} {s u : State} (h : s.ChannelSet n c u) (same : c = d) :
    s.ChannelSet n d u := same ▸ h

theorem State.ChannelSet.trans {n : Fin 4} {c d : Channel} {s t u : State} (h : s.ChannelSet n c t)
    (k : t.ChannelSet n d u) : s.ChannelSet n d u :=
  ⟨k.channel, fun m other => (k.others m other).trans (h.others m other), k.bus.trans h.bus, k.hold.trans h.hold,
    k.pu.trans h.pu⟩

/-- A RUNNING channel without a capture takes one as it becomes due. -/
theorem becomeDue_captures {n : Fin 4} {s : State} (running : (s.channel n).state = .running)
    (empty : (s.channel n).holder = none) :
    s.ChannelSet n { s.channel n with holder := some ⟨s.tb.now, s.so.frameNumber, 0⟩ } (becomeDue n s) := by
  have due : becomeDue n s = pulse ⟨9 + n.val, by omega⟩
      (s.onChannel n fun c => { c with holder := some ⟨s.tb.now, s.so.frameNumber, 0⟩ }) := by
    rw [becomeDue, if_neg (Classical.not_not.mpr running), empty]
  have set := s.onChannel_set n fun c => { c with holder := some ⟨s.tb.now, s.so.frameNumber, 0⟩ }
  rw [due]
  exact ⟨set.channel, set.others, rfl, rfl, rfl⟩

/-- A channel that enters RUNNING, before a data-ready input makes it due. -/
def Channel.start (c : Channel) : Channel :=
  { c with state := .running, resume := false,
           timer := if c.config.mode = .interval then some c.config.interval else none }

theorem enterRunning_eq (n : Fin 4) (s : State) : enterRunning n s =
    if (s.channel n).config.mode = .dataReady ∧ s.pins.drdy.getLsbD n.val = true
    then becomeDue n (s.onChannel n Channel.start) else s.onChannel n Channel.start := by
  have mode : ((s.onChannel n Channel.start).channel n).config.mode = (s.channel n).config.mode := by
    rw [(s.onChannel_set n Channel.start).channel, Channel.start]
  rw [← mode]
  rfl

theorem enterRunning_set {n : Fin 4} {s : State} (empty : (s.channel n).holder = none) :
    let c := s.channel n
    let high := c.config.mode == .dataReady && s.pins.drdy.getLsbD n.val
    s.ChannelSet n { c with
      state := .running, resume := false,
      holder := if high then some ⟨s.tb.now, s.so.frameNumber, 0⟩ else none,
      timer := if c.config.mode == .interval then some c.config.interval else none } (enterRunning n s) := by
  intro c high
  have started := s.onChannel_set n Channel.start
  have running := congrArg Channel.state started.channel
  have vacant := (congrArg Channel.holder started.channel).trans empty
  rw [enterRunning_eq]
  by_cases due : (s.channel n).config.mode = .dataReady ∧ s.pins.drdy.getLsbD n.val = true
  · rw [if_pos due]
    refine (started.trans (becomeDue_captures running vacant)).congr ?_
    rw [started.channel]
    simp [c, high, Channel.start, due.1, due.2]
  · have low : high = false := by simpa [high, c] using due
    rw [if_neg due, low]
    refine started.congr ?_
    simp [c, empty, Channel.start]

theorem judgeChannel_of_field {b : List Byte} (h : channelConfigAt b = none) (n : Fin 4) (s : State) :
    judgeChannel n b s = (.refusedField, s) := by
  rw [judgeChannel, h]

theorem judgeChannel_of_config {b : List Byte} {cfg : ChannelConfig} (h : channelConfigAt b = some cfg) (n : Fin 4)
    (s : State) : ∃ t, judgeChannel n b s = (.taken, t) ∧ s.ChannelSet n
      ((s.channel n).armed cfg s.sh.hold (s.pins.drdy.getLsbD n.val) s.tb.now s.so.frameNumber) t := by
  have quiet := s.onChannel_set n fun c =>
    { c.quiet with config := cfg, consecutive := 0, faultCleared := c.faultCleared || c.state == .fault,
                   state := .idle, resume := false }
  refine ⟨(judgeChannel n b s).2, by rw [judgeChannel, h], ?_⟩
  rw [judgeChannel, h]
  dsimp only
  cases enable : cfg.enable with
  | false => exact quiet.congr (by simp [Channel.armed, Channel.quiet, enable])
  | true =>
    rw [if_neg (by simp)]
    cases kept : s.sh.hold && !cfg.keep with
    | true =>
      rw [if_pos (by rw [quiet.hold]; exact kept)]
      refine (quiet.trans (State.onChannel_set ..)).congr ?_
      rw [quiet.channel]
      simp [Channel.armed, Channel.quiet, enable, kept]
    | false =>
      rw [if_neg (by rw [quiet.hold]; simp [kept])]
      refine (quiet.trans (enterRunning_set (by rw [quiet.channel]; rfl))).congr ?_
      rw [quiet.channel]
      simp [Channel.armed, Channel.quiet, enable, kept]

/-! ### Routing rules (R59) -/

theorem judgeRule_of_field {b : List Byte} (h : ruleAt b = none) (n : Fin 16) (s : State) :
    judgeRule n b s = (.refusedField, s) := by
  rw [judgeRule, h]

theorem judgeRule_of_rule {b : List Byte} {r : Rule} (h : ruleAt b = some r) (n : Fin 16) (s : State) :
    judgeRule n b s = (.taken, s.onSh fun h => { h with rules := vset h.rules n r }) := by
  rw [judgeRule, h]

/-! ### Sensor rings (R63) -/

/-- A ring of `size` bytes clear of the plan area lies in the populated memory. -/
def State.holds (s : State) (base size : Nat) : Prop :=
  base + size ≤ 0x40000000 ∧ (base + size ≤ s.planBase ∨ s.planBase + 0x4000 ≤ base)

section
variable {b : List Byte} {n : Fin 8} {s : State}

/-- The checks of a sensor ring's extent. -/
def State.sensorRingOk (s : State) (b : List Byte) : Prop :=
  numAt b 8 4 ∈ sensorCapacities ∧ numAt b 4 4 % 64 = 0 ∧ s.holds (numAt b 4 4) (32 * numAt b 8 4)

theorem sensorRing_refused_iff : ((!sensorCapacities.contains (numAt b 8 4)) = true ∨ numAt b 4 4 % 64 ≠ 0 ∨
    0x40000000 < numAt b 4 4 + 32 * numAt b 8 4 ∨ meetsPlan s.planBase (numAt b 4 4) (32 * numAt b 8 4) = true) ↔
    ¬ s.sensorRingOk b := by
  rw [State.sensorRingOk, State.holds, ← meetsPlan_eq_false_iff, ← List.contains_iff_mem]
  simp only [Bool.not_eq_true', Classical.not_and_iff_not_or_not, ne_eq, Nat.not_le, Bool.not_eq_true, Bool.not_eq_false]

theorem judgeSensorRing_of_none (h : [false, true][byteAt b 0]? = none) : judgeSensorRing n b s = (.refusedField, s) := by
  rw [← flagAt_eq] at h
  rw [judgeSensorRing, h]

theorem judgeSensorRing_of_off (h : [false, true][byteAt b 0]? = some false) :
    judgeSensorRing n b s = (.taken, s.onSensorRing n fun r => { r with enabled := false }) := by
  rw [← flagAt_eq] at h
  rw [judgeSensorRing, h]

theorem judgeSensorRing_of_bad (h : [false, true][byteAt b 0]? = some true) (bad : ¬ s.sensorRingOk b) :
    judgeSensorRing n b s = (.refusedField, s) := by
  rw [← flagAt_eq] at h
  rw [judgeSensorRing, h]
  exact if_pos (sensorRing_refused_iff.mpr bad)

theorem judgeSensorRing_of_ok (h : [false, true][byteAt b 0]? = some true) (ok : s.sensorRingOk b) :
    judgeSensorRing n b s =
      if (vget s.sh.rings n).enabled then (.refusedState, s)
      else if (vget s.sh.rings n).issued ≠ (vget s.sh.rings n).produce then (.refusedBusy, s)
      else (.taken, s.onSensorRing n fun r => { r with
        enabled := true, base := numAt b 4 4, capacity := numAt b 8 4, issued := r.consume, produce := r.consume,
        done := [] }) := by
  rw [← flagAt_eq] at h
  rw [judgeSensorRing, h]
  exact if_neg fun refused => sensorRing_refused_iff.mp refused ok

end

end Sys2Proof.Machine
end

section
/-!
PROOFS. What the arms of sensor channels, routing rules and sensor rings run to (R50, R51, R57, R59, R63).
-/
namespace Sys2Proof.Machine

theorem channelArm {fields : List Byte} {seq : U32} {s : State} (n : Fin 4) (arms : s.arms (.channel n) seq)
    (ok : fieldsOk 64 fields = true) :
    (channelConfigAt fields = none → runsTo (.sensorChannelArm n fields seq) s fun u =>
      u.judged (.channel n) seq .refusedField ∧ u.sh = s.sh) ∧
    ∀ cfg, channelConfigAt fields = some cfg → runsTo (.sensorChannelArm n fields seq) s fun u =>
      u.judged (.channel n) seq .taken ∧
      u.channel n = (s.channel n).armed cfg s.sh.hold (s.pins.drdy.getLsbD n.val) s.tb.now s.so.frameNumber ∧
      (∀ m, m ≠ n → u.channel m = s.channel m) ∧ u.sh.bus = s.sh.bus := by
  have run {o : Outcome} {r : State} {P : State → Prop}
      (judged : judgeChannel n fields (s.handed (.channel n) fields seq) = (o, r))
      (holds : P (r.onPu (Pu.enter (.channel n) o))) : runsTo (.sensorChannelArm n fields seq) s P :=
    runsTo_fields (k := .channel n) (judgeChannel_take n) rfl arms (show 64 ≠ 128 by decide) (show 16 ≤ 60 by decide)
      (fun _ _ => rfl) (by rw [length_of_fieldsOk ok]; decide) judged holds
  have sh : (s.handed (.channel n) fields seq).sh = s.sh := by simp
  have channel (m : Fin 4) : (s.handed (.channel n) fields seq).channel m = s.channel m := by
    rw [State.channel, sh, State.channel]
  constructor
  · exact fun field => run (judgeChannel_of_field field n _) ⟨judged_handed rfl _, by simp⟩
  · intro cfg field
    obtain ⟨t, judged, set⟩ := judgeChannel_of_config field n (s.handed (.channel n) fields seq)
    refine run judged ⟨judged_handed set.pu _, ?_, fun m other => ?_, ?_⟩
    · refine set.channel.trans ?_
      simp [channel]
    · exact (set.others m other).trans (channel m)
    · exact set.bus.trans (by rw [sh])

theorem ruleArm {fields : List Byte} {seq : U32} {s : State} (n : Fin 16) (arms : s.arms (.rule n) seq)
    (ok : fieldsOk 16 fields = true) :
    (ruleAt fields = none → runsTo (.routingRuleArm n fields seq) s fun u =>
      u.judged (.rule n) seq .refusedField ∧ u.sh = s.sh) ∧
    ∀ r, ruleAt fields = some r → runsTo (.routingRuleArm n fields seq) s fun u =>
      u.judged (.rule n) seq .taken ∧ u.sh = { s.sh with rules := vset s.sh.rules n r } := by
  have run {o : Outcome} {r : State} {P : State → Prop}
      (judged : judgeRule n fields (s.handed (.rule n) fields seq) = (o, r))
      (holds : P (r.onPu (Pu.enter (.rule n) o))) : runsTo (.routingRuleArm n fields seq) s P :=
    runsTo_fields (k := .rule n) (judgeRule_take n) rfl arms (show 16 ≠ 128 by decide) (show 11 ≤ 12 by decide)
      (fun _ _ => rfl) (by rw [length_of_fieldsOk ok]; decide) judged holds
  constructor
  · exact fun field => run (judgeRule_of_field field n _) ⟨judged_handed rfl _, by simp⟩
  · exact fun r field => run (judgeRule_of_rule field n _) ⟨judged_handed (State.onSh_pu ..) _, by simp⟩

theorem sensorRingArm {fields : List Byte} {seq : U32} {s : State} (n : Fin 8) (arms : s.arms (.sensorRing n) seq)
    (ok : fieldsOk 32 fields = true) :
    let old := vget s.sh.rings n
    let enable := [false, true][byteAt fields 0]?
    let run (P : State → Prop) : Prop := runsTo (.sensorRingArm n fields seq) s P
    let keeps (o : Outcome) : Prop := run fun u => u.judged (.sensorRing n) seq o ∧ u.sh = s.sh
    let put (r : SensorRing) : Prop := run fun u => u.judged (.sensorRing n) seq .taken ∧
      u.sh = { s.sh with rings := vset s.sh.rings n r }
    (enable = none → keeps .refusedField) ∧
    (enable = some false → put { old with enabled := false }) ∧
    (enable = some true →
      (¬ s.sensorRingOk fields → keeps .refusedField) ∧
      (s.sensorRingOk fields → old.enabled = true → keeps .refusedState) ∧
      (s.sensorRingOk fields → old.enabled = false → old.issued ≠ old.produce → keeps .refusedBusy) ∧
      (s.sensorRingOk fields → old.enabled = false → old.issued = old.produce →
        put { old with enabled := true, base := numAt fields 4 4, capacity := numAt fields 8 4, issued := old.consume,
                       produce := old.consume, done := [] })) := by
  intro old enable run keeps put
  have runs {o : Outcome} {r : State} {P : State → Prop}
      (judged : judgeSensorRing n fields (s.handed (.sensorRing n) fields seq) = (o, r))
      (holds : P (r.onPu (Pu.enter (.sensorRing n) o))) : run P :=
    runsTo_fields (k := .sensorRing n) (judgeSensorRing_take n) rfl arms (show 32 ≠ 128 by decide)
      (show 12 ≤ 28 by decide) (fun i hi => by simp [RecordKind.liveAt]; omega)
      (by rw [length_of_fieldsOk ok]; decide) judged holds
  have kept {o : Outcome} (judged : judgeSensorRing n fields (s.handed (.sensorRing n) fields seq) =
      (o, s.handed (.sensorRing n) fields seq)) : keeps o := runs judged ⟨judged_handed rfl _, by simp⟩
  have puts {f : SensorRing → SensorRing} (judged : judgeSensorRing n fields (s.handed (.sensorRing n) fields seq) =
      (.taken, (s.handed (.sensorRing n) fields seq).onSensorRing n f)) : put (f old) :=
    runs judged ⟨judged_handed (State.onSh_pu ..) _, by simp [State.onSensorRing, vmod, old]⟩
  have sh : (s.handed (.sensorRing n) fields seq).sh = s.sh := by simp
  have fits : (s.handed (.sensorRing n) fields seq).sensorRingOk fields ↔ s.sensorRingOk fields := by
    simp [State.sensorRingOk, State.holds]
  refine ⟨fun h => kept (judgeSensorRing_of_none h), fun h => puts (judgeSensorRing_of_off h), fun h =>
    ⟨fun bad => kept (judgeSensorRing_of_bad h ((not_congr fits).mpr bad)), fun good on => kept ?_, fun good off busy => kept ?_,
      fun good off idle => puts (f := fun r => { r with
        enabled := true, base := numAt fields 4 4, capacity := numAt fields 8 4, issued := r.consume,
        produce := r.consume, done := [] }) ?_⟩⟩
  all_goals rw [judgeSensorRing_of_ok h (fits.mpr good), sh]
  · exact if_pos on
  · exact (if_neg (by rw [off]; decide)).trans (if_pos busy)
  · exact (if_neg (by rw [off]; decide)).trans (if_neg (Classical.not_not.mpr idle))

/-- Settles O32, by what each owner makes of the bytes it is handed. -/
theorem sensorArms : Obligations.SensorArms := by
  refine ⟨channelConfigAt_eq_some_iff, ruleAt_eq_some_iff, fun fields seq s => ⟨fun n arms ok => ?_, fun n arms ok =>
    ruleArm n arms ok, fun n arms ok => sensorRingArm n arms ok⟩⟩
  have arm := channelArm n arms ok
  refine ⟨arm.1, fun cfg field => runsTo_imp (arm.2 cfg field) fun u ⟨judged, channel, others, bus⟩ =>
    ⟨judged, channel.trans ?_, others, bus⟩⟩
  simp [Channel.armed]

end Sys2Proof.Machine
end

section
/-!
PROOFS. Audio ring and audio output arms (R103, R104, R111).
-/
namespace Sys2Proof.Machine

/-! ### The checks of a ring record (R103) -/

theorem flagAt_isNone_iff (b : List Byte) (off : Nat) : (flagAt b off).isNone = true ↔ ¬ byteAt b off ≤ 1 := by
  rw [flagAt_eq, Option.isNone_iff_eq_none, List.getElem?_eq_none_iff]
  exact Nat.not_le.symm

section
variable {b : List Byte} {n : Fin 3} {s : State}

/-- The checks before the enable byte is looked at. -/
def audioPlain (n : Fin 3) (b : List Byte) : Prop := numAt b 2 2 ≤ 256 ∧ (n = 2 → byteAt b 1 ≤ 1)

/-- The checks of an enabled ring's extent and threshold. -/
def State.audioRingOk (s : State) (n : Fin 3) (b : List Byte) : Prop :=
  numAt b 8 4 ∈ audioCapacities ∧ numAt b 4 4 % 64 = 0 ∧ numAt b 4 4 + numAt b 8 4 * frameSize n ≤ 0x40000000 ∧
  (numAt b 4 4 + numAt b 8 4 * frameSize n ≤ s.planBase ∨ s.planBase + 0x4000 ≤ numAt b 4 4) ∧
  (n ≠ 2 → 48 ≤ numAt b 12 4 ∧ numAt b 12 4 ≤ numAt b 8 4)

/-- The uplink byte, which is ring 2's alone. -/
def audioUplink (n : Fin 3) (b : List Byte) : Byte := if n = 2 then b.getD 1 0 else 0

theorem audioPlain_refused_iff :
    (256 < numAt b 2 2 ∨ (n = 2 ∧ (flagAt b 1).isNone = true)) ↔ ¬ audioPlain n b := by
  rw [flagAt_isNone_iff, audioPlain, Classical.not_and_iff_not_or_not, Classical.not_imp, Nat.not_le]
  simp only [Nat.not_le]

theorem audioRing_refused_iff : ((!audioCapacities.contains (numAt b 8 4)) = true ∨ numAt b 4 4 % 64 ≠ 0 ∨
    0x40000000 < numAt b 4 4 + numAt b 8 4 * frameSize n ∨
    meetsPlan s.planBase (numAt b 4 4) (numAt b 8 4 * frameSize n) = true ∨
    (n ≠ 2 ∧ (numAt b 12 4 < 48 ∨ numAt b 8 4 < numAt b 12 4))) ↔ ¬ s.audioRingOk n b := by
  rw [State.audioRingOk, ← meetsPlan_eq_false_iff, ← List.contains_iff_mem]
  simp only [Bool.not_eq_true', Classical.not_and_iff_not_or_not, ne_eq, Nat.not_le, Bool.not_eq_true, Bool.not_eq_false, Classical.not_imp]

theorem flagAt_take {m off : Nat} (h : off < m) (l : List Byte) : flagAt (l.take m) off = flagAt l off := by
  rw [flagAt, flagAt, byteAt_take h]

theorem judgeAudioRing_take : judgeAudioRing n (b.take 16) s = judgeAudioRing n b s := by
  simp only [judgeAudioRing, flagAt_take (show 0 < 16 by omega), flagAt_take (show 1 < 16 by omega),
    numAt_take (show 2 + 2 ≤ 16 by omega), numAt_take (show 4 + 4 ≤ 16 by omega), numAt_take (show 8 + 4 ≤ 16 by omega),
    numAt_take (show 12 + 4 ≤ 16 by omega), getD_take (show 1 < 16 by omega)]

/-! ### The judgement -/

theorem judgeAudioRing_of_field (h : ¬ audioPlain n b ∨ [false, true][byteAt b 0]? = none) :
    judgeAudioRing n b s = (.refusedField, s) := by
  rw [← flagAt_eq] at h
  rw [judgeAudioRing]
  by_cases plain : audioPlain n b
  · rw [if_neg (fun refused => audioPlain_refused_iff.mp refused plain), h.resolve_left (Classical.not_not.mpr plain)]
  · exact if_pos (audioPlain_refused_iff.mpr plain)

/-- A disabled ring stops, and drift correction starts over with ring 0. -/
theorem judgeAudioRing_of_off (plain : audioPlain n b) (h : [false, true][byteAt b 0]? = some false) :
    ∃ f, judgeAudioRing n b s = (.taken, s.onAu f) ∧
      (f s.au).rings = vset s.au.rings n { vget s.au.rings n with enabled := false, play := .stopped } ∧
      (f s.au).fetches = s.au.fetches ∧ (f s.au).output = s.au.output := by
  rw [← flagAt_eq] at h
  refine ⟨fun a => { (if (vget s.au.rings n).enabled then a.dropDrift n else a) with
    rings := vmod a.rings n fun r => { r with enabled := false, play := .stopped } }, ?_, rfl, ?_, ?_⟩
  · rw [judgeAudioRing, if_neg (fun refused => audioPlain_refused_iff.mp refused plain), h]
  · dsimp only [Au.dropDrift]
    split
    · split <;> rfl
    · rfl
  · dsimp only [Au.dropDrift]
    split
    · split <;> rfl
    · rfl

theorem judgeAudioRing_of_bad (plain : audioPlain n b) (h : [false, true][byteAt b 0]? = some true)
    (bad : ¬ s.audioRingOk n b) : judgeAudioRing n b s = (.refusedField, s) := by
  rw [← flagAt_eq] at h
  rw [judgeAudioRing, if_neg (fun refused => audioPlain_refused_iff.mp refused plain), h]
  exact if_pos (audioRing_refused_iff.mpr bad)

theorem judgeAudioRing_of_ok (plain : audioPlain n b) (h : [false, true][byteAt b 0]? = some true)
    (ok : s.audioRingOk n b) : judgeAudioRing n b s =
      if (vget s.au.rings n).enabled then
        if numAt b 4 4 = (vget s.au.rings n).base ∧ numAt b 8 4 = (vget s.au.rings n).capacity then
          (.taken, s.onRing n fun r =>
            { r with threshold := numAt b 12 4, gain := numAt b 2 2, uplink := audioUplink n b })
        else (.refusedState, s)
      else if (vget s.au.rings n).inFlight n then (.refusedBusy, s)
      else (.taken, s.onRing n (AudioRing.enable n s.au.running (numAt b 4 4) (numAt b 8 4) (numAt b 12 4) (numAt b 2 2)
        (audioUplink n b))) := by
  rw [← flagAt_eq] at h
  rw [judgeAudioRing, if_neg (fun refused => audioPlain_refused_iff.mp refused plain), h]
  exact if_neg fun refused => audioRing_refused_iff.mp refused ok

end

/-! ### The arm of a ring -/

theorem audioRingArm {fields : List Byte} {seq : U32} {s : State} (ok : fieldsOk 32 fields = true) (n : Fin 3)
    (arms : s.arms (.audioRing n) seq) :
    let base := numAt fields 4 4
    let capacity := numAt fields 8 4
    let threshold := numAt fields 12 4
    let gain := numAt fields 2 2
    let uplink := audioUplink n fields
    let old := vget s.au.rings n
    let enable := [false, true][byteAt fields 0]?
    let run (P : State → Prop) : Prop := runsTo (.audioRingArm n fields seq) s P
    let keeps (o : Outcome) : Prop := run fun u => u.judged (.audioRing n) seq o ∧ u.au = s.au
    let put (r : AudioRing) : Prop := run fun u => u.judged (.audioRing n) seq .taken ∧
      u.au.rings = vset s.au.rings n r ∧ u.au.fetches = s.au.fetches ∧ u.au.output = s.au.output
    (¬ audioPlain n fields ∨ enable = none → keeps .refusedField) ∧
    (audioPlain n fields → enable = some false → put { old with enabled := false, play := .stopped }) ∧
    (audioPlain n fields → enable = some true →
      (¬ s.audioRingOk n fields → keeps .refusedField) ∧
      (s.audioRingOk n fields → old.enabled = true →
        (base = old.base ∧ capacity = old.capacity → put { old with threshold, gain, uplink }) ∧
        (¬ (base = old.base ∧ capacity = old.capacity) → keeps .refusedState)) ∧
      (s.audioRingOk n fields → old.enabled = false → old.inFlight n = true → keeps .refusedBusy) ∧
      (s.audioRingOk n fields → old.enabled = false → old.inFlight n = false →
        put (AudioRing.enable n s.au.running base capacity threshold gain uplink old))) := by
  intro base capacity threshold gain uplink old enable run keeps put
  have runs {o : Outcome} {r : State} {P : State → Prop}
      (judged : judgeAudioRing n fields (s.handed (.audioRing n) fields seq) = (o, r))
      (holds : P (r.onPu (Pu.enter (.audioRing n) o))) : run P :=
    runsTo_fields (k := .audioRing n) (fun _ _ => judgeAudioRing_take) rfl arms (show 32 ≠ 128 by decide)
      (show 16 ≤ 28 by decide) (fun i hi => by simp [RecordKind.liveAt]; omega)
      (by rw [length_of_fieldsOk ok]; decide) judged holds
  have au : (s.handed (.audioRing n) fields seq).au = s.au := by simp
  have kept {o : Outcome} (judged : judgeAudioRing n fields (s.handed (.audioRing n) fields seq) =
      (o, s.handed (.audioRing n) fields seq)) : keeps o := runs judged ⟨judged_handed rfl _, by simp⟩
  have puts {f : AudioRing → AudioRing} (judged : judgeAudioRing n fields (s.handed (.audioRing n) fields seq) =
      (.taken, (s.handed (.audioRing n) fields seq).onRing n f)) : put (f old) :=
    runs judged ⟨judged_handed (State.onAu_pu ..) _, by simp [State.onRing, vmod, old]⟩
  have fits : (s.handed (.audioRing n) fields seq).audioRingOk n fields ↔ s.audioRingOk n fields := by
    simp [State.audioRingOk]
  refine ⟨fun h => kept (judgeAudioRing_of_field h), fun plain h => ?_, fun plain h =>
    ⟨fun bad => kept (judgeAudioRing_of_bad plain h ((not_congr fits).mpr bad)), fun good on => ⟨fun same => puts (f := fun r =>
        { r with threshold := threshold, gain := gain, uplink := uplink }) ?_, fun other => kept ?_⟩,
      fun good off busy => kept ?_, fun good off idle => puts ?_⟩⟩
  · obtain ⟨f, judged, stops⟩ := judgeAudioRing_of_off (s := s.handed (.audioRing n) fields seq) plain h
    rw [au] at stops
    exact runs judged ⟨judged_handed (State.onAu_pu ..) _, by simpa using stops⟩
  all_goals rw [judgeAudioRing_of_ok plain h (fits.mpr good), au]
  · exact (if_pos on).trans (if_pos same)
  · exact (if_pos on).trans (if_neg other)
  · exact (if_neg (by rw [off]; decide)).trans (if_pos busy)
  · exact (if_neg (by rw [off]; decide)).trans (if_neg (by rw [idle]; decide))

/-! ### The audio output (R111) -/

theorem judgeAudioOut_take (b : List Byte) (s : State) : judgeAudioOut (b.take 8) s = judgeAudioOut b s := by
  simp only [judgeAudioOut, flagAt, codeAt, byteAt_take (show 2 < 8 by omega), byteAt_take (show 3 < 8 by omega),
    byteAt_take (show 6 < 8 by omega), byteAt_take (show 7 < 8 by omega), numAt_take (show 0 + 2 ≤ 8 by omega),
    numAt_take (show 4 + 2 ≤ 8 by omega)]

section
variable {b : List Byte} {s : State}

theorem judgeAudioOut_of_field (h : 256 < numAt b 0 2 ∨ BitVec.ofNat 16 (numAt b 4 2) = 0 ∨ flagAt b 2 = none ∨
    flagAt b 3 = none ∨ codeAt speakerSelects b 6 = none ∨ codeAt speakerSelects b 7 = none) :
    judgeAudioOut b s = (.refusedField, s) := by
  rw [judgeAudioOut]
  split
  next mute dither left right =>
    simp only [mute, dither, left, right, reduceCtorEq, or_false] at h
    exact if_pos h
  next => rfl

theorem judgeAudioOut_of_fields {mute dither : Bool} {left right : SpeakerSelect} (volume : numAt b 0 2 ≤ 256)
    (taps : BitVec.ofNat 16 (numAt b 4 2) ≠ 0) (hm : flagAt b 2 = some mute) (hd : flagAt b 3 = some dither)
    (hl : codeAt speakerSelects b 6 = some left) (hr : codeAt speakerSelects b 7 = some right) :
    judgeAudioOut b s = (.taken, s.onAu fun a => { a with
      output := { volume := numAt b 0 2, mute, dither, taps := BitVec.ofNat 16 (numAt b 4 2), left, right }, lfsr := 1 }) := by
  rw [judgeAudioOut, hm, hd, hl, hr]
  exact if_neg (not_or.mpr ⟨Nat.not_lt.mpr volume, taps⟩)

end

theorem audioOutArm {fields : List Byte} {seq : U32} {s : State} (ok : fieldsOk 32 fields = true)
    (arms : s.arms .audioOut seq) :
    let taps : U16 := BitVec.ofNat 16 (numAt fields 4 2)
    let run (P : State → Prop) : Prop := runsTo (.audioOutputArm fields seq) s P
    (256 < numAt fields 0 2 ∨ taps = 0 ∨ flagAt fields 2 = none ∨ flagAt fields 3 = none ∨
        codeAt speakerSelects fields 6 = none ∨ codeAt speakerSelects fields 7 = none →
      run fun u => u.judged .audioOut seq .refusedField ∧ u.au = s.au) ∧
    (∀ mute dither left right, numAt fields 0 2 ≤ 256 → taps ≠ 0 → flagAt fields 2 = some mute →
      flagAt fields 3 = some dither → codeAt speakerSelects fields 6 = some left →
      codeAt speakerSelects fields 7 = some right →
      run fun u => u.judged .audioOut seq .taken ∧
        u.au = { s.au with output := { volume := numAt fields 0 2, mute, dither, taps, left, right }, lfsr := 1 }) := by
  intro taps run
  have runs {o : Outcome} {r : State} {P : State → Prop}
      (judged : judgeAudioOut fields (s.handed .audioOut fields seq) = (o, r))
      (holds : P (r.onPu (Pu.enter .audioOut o))) : run P :=
    runsTo_fields (k := .audioOut) judgeAudioOut_take rfl arms (by decide) (by decide)
      (fun _ _ => rfl) (by rw [length_of_fieldsOk ok]; decide) judged holds
  constructor
  · exact fun h => runs (judgeAudioOut_of_field h) ⟨judged_handed rfl _, by simp⟩
  · intro mute dither left right volume nonzero hm hd hl hr
    exact runs (judgeAudioOut_of_fields volume nonzero hm hd hl hr)
      ⟨judged_handed (State.onAu_pu ..) _, by simp [taps]⟩

/-- A ring that is enabled, by whether it is captured or played. -/
theorem AudioRing.enable_eq (n : Fin 3) (running : Bool) (base capacity threshold gain : Nat) (uplink : Byte)
    (r : AudioRing) :
    let new := { r with enabled := true, base, capacity, threshold, gain, uplink }
    (n = 2 → AudioRing.enable n running base capacity threshold gain uplink r =
      { new with issued := r.consume, produce := r.consume }) ∧
    (n ≠ 2 → AudioRing.enable n running base capacity threshold gain uplink r =
      { new with issued := 0, produce := 0, taken := 0, consume := 0, play := if running then .priming else .stopped }) :=
  ⟨fun h => if_pos h, fun h => if_neg h⟩

/-- Settles O33, by what each owner makes of the bytes it is handed. -/
theorem audioArms : Obligations.AudioArms := by
  refine fun fields seq s ok => ⟨fun n arms => ?_, fun arms => ?_⟩
  · obtain ⟨field, off, on⟩ := audioRingArm ok n arms
    refine ⟨field, off, fun plain h => ?_⟩
    obtain ⟨bad, enabled, busy, idle⟩ := on plain h
    refine ⟨bad, enabled, busy, fun good off still => ⟨fun two => ?_, fun other => ?_⟩⟩
    · rw [← (AudioRing.enable_eq n s.au.running _ _ _ _ _ _).1 two]
      exact idle good off still
    · rw [← (AudioRing.enable_eq n s.au.running _ _ _ _ _ _).2 other]
      exact idle good off still
  · simp only [← flagAt_eq]
    exact audioOutArm ok arms

end Sys2Proof.Machine
end

section
/-!
PROOFS. Message ring and message slot arms (R84, R97).
-/
namespace Sys2Proof.Machine

/-! ### The message ring (R84) -/

section
variable {b : List Byte} {s : State}

/-- The entry counts of a message ring. -/
def messageCounts : List Nat := [4, 8, 16, 32, 64, 128, 256]

/-- The checks of a message ring's extent. -/
def State.messageRingOk (s : State) (b : List Byte) : Prop :=
  numAt b 8 4 ∈ messageCounts ∧ numAt b 4 4 % 1024 = 0 ∧ s.holds (numAt b 4 4) (1024 * numAt b 8 4)

theorem messageRing_refused_iff : ((!messageCounts.contains (numAt b 8 4)) = true ∨ numAt b 4 4 % 1024 ≠ 0 ∨
    0x40000000 < numAt b 4 4 + 1024 * numAt b 8 4 ∨ meetsPlan s.planBase (numAt b 4 4) (1024 * numAt b 8 4) = true) ↔
    ¬ s.messageRingOk b := by
  rw [State.messageRingOk, State.holds, ← meetsPlan_eq_false_iff, ← List.contains_iff_mem]
  simp only [Bool.not_eq_true', Classical.not_and_iff_not_or_not, ne_eq, Nat.not_le, Bool.not_eq_true, Bool.not_eq_false]

theorem judgeMessageRing_take : judgeMessageRing (b.take 12) s = judgeMessageRing b s := by
  simp only [judgeMessageRing, flagAt_take (show 0 < 12 by omega), numAt_take (show 4 + 4 ≤ 12 by omega),
    numAt_take (show 8 + 4 ≤ 12 by omega)]

theorem judgeMessageRing_of_none (h : [false, true][byteAt b 0]? = none) : judgeMessageRing b s = (.refusedField, s) := by
  rw [← flagAt_eq] at h
  rw [judgeMessageRing, h]

theorem judgeMessageRing_of_off (h : [false, true][byteAt b 0]? = some false) :
    judgeMessageRing b s = (.taken, s.onTc fun t => { t with ring := { t.ring with enabled := false } }) := by
  rw [← flagAt_eq] at h
  rw [judgeMessageRing, h]

theorem judgeMessageRing_of_bad (h : [false, true][byteAt b 0]? = some true) (bad : ¬ s.messageRingOk b) :
    judgeMessageRing b s = (.refusedField, s) := by
  rw [← flagAt_eq] at h
  rw [judgeMessageRing, h]
  exact if_pos (messageRing_refused_iff.mpr bad)

theorem judgeMessageRing_of_ok (h : [false, true][byteAt b 0]? = some true) (ok : s.messageRingOk b) :
    judgeMessageRing b s =
      if s.tc.ring.enabled then (.refusedState, s)
      else if s.tc.ring.issued ≠ s.tc.ring.produce then (.refusedBusy, s)
      else (.taken, s.onTc fun t => { t with ring := { t.ring with
        enabled := true, base := numAt b 4 4, count := numAt b 8 4, issued := t.ring.consume, produce := t.ring.consume,
        jobs := [] } }) := by
  rw [← flagAt_eq] at h
  rw [judgeMessageRing, h]
  exact if_neg fun refused => messageRing_refused_iff.mp refused ok

end

theorem messageRingArm {fields : List Byte} {seq : U32} {s : State} (ok : fieldsOk 32 fields = true)
    (arms : s.arms .messageRing seq) :
    let old := s.tc.ring
    let enable := [false, true][byteAt fields 0]?
    let run (P : State → Prop) : Prop := runsTo (.messageRingArm fields seq) s P
    let keeps (o : Outcome) : Prop := run fun u => u.judged .messageRing seq o ∧ u.tc = s.tc
    let put (r : MessageRing) : Prop := run fun u => u.judged .messageRing seq .taken ∧ u.tc = { s.tc with ring := r }
    (enable = none → keeps .refusedField) ∧
    (enable = some false → put { old with enabled := false }) ∧
    (enable = some true →
      (¬ s.messageRingOk fields → keeps .refusedField) ∧
      (s.messageRingOk fields → old.enabled = true → keeps .refusedState) ∧
      (s.messageRingOk fields → old.enabled = false → old.issued ≠ old.produce → keeps .refusedBusy) ∧
      (s.messageRingOk fields → old.enabled = false → old.issued = old.produce →
        put { old with enabled := true, base := numAt fields 4 4, count := numAt fields 8 4, issued := old.consume,
                       produce := old.consume, jobs := [] })) := by
  intro old enable run keeps put
  have runs {o : Outcome} {r : State} {P : State → Prop}
      (judged : judgeMessageRing fields (s.handed .messageRing fields seq) = (o, r))
      (holds : P (r.onPu (Pu.enter .messageRing o))) : run P :=
    runsTo_fields (k := .messageRing) (fun _ _ => judgeMessageRing_take) rfl arms (by decide) (show 12 ≤ 28 by decide)
      (fun i hi => by simp [RecordKind.liveAt]; omega) (by rw [length_of_fieldsOk ok]; decide) judged holds
  have tc : (s.handed .messageRing fields seq).tc = s.tc := by simp
  have kept {o : Outcome} (judged : judgeMessageRing fields (s.handed .messageRing fields seq) =
      (o, s.handed .messageRing fields seq)) : keeps o := runs judged ⟨judged_handed rfl _, by simp⟩
  have puts {f : MessageRing → MessageRing} (judged : judgeMessageRing fields (s.handed .messageRing fields seq) =
      (.taken, (s.handed .messageRing fields seq).onTc fun t => { t with ring := f t.ring })) : put (f old) :=
    runs judged ⟨judged_handed (State.onTc_pu ..) _, by simp [old]⟩
  have fits : (s.handed .messageRing fields seq).messageRingOk fields ↔ s.messageRingOk fields := by
    simp [State.messageRingOk, State.holds]
  refine ⟨fun h => kept (judgeMessageRing_of_none h), fun h => puts (f := fun r => { r with enabled := false })
    (judgeMessageRing_of_off h), fun h => ⟨fun bad => kept (judgeMessageRing_of_bad h ((not_congr fits).mpr bad)),
      fun good on => kept ?_, fun good off busy => kept ?_, fun good off idle => puts (f := fun r => { r with
        enabled := true, base := numAt fields 4 4, count := numAt fields 8 4, issued := r.consume,
        produce := r.consume, jobs := [] }) ?_⟩⟩
  all_goals rw [judgeMessageRing_of_ok h (fits.mpr good), tc]
  · exact if_pos on
  · exact (if_neg (by rw [off]; decide)).trans (if_pos busy)
  · exact (if_neg (by rw [off]; decide)).trans (if_neg (Classical.not_not.mpr idle))

/-! ### The message slots (R97, R98) -/

/-- Whatever the lane sends, the slots in progress stay. -/
@[simp] theorem sendChoice_inProgress (c : Choice) (s : State) : (sendChoice c s).tc.inProgress = s.tc.inProgress := by
  unfold sendChoice
  split
  · rfl
  · rfl
  · rfl
  · split
    · simp [beginReads]
    · rfl
  · split
    · simp [beginReads]
    · rfl
    · rfl
    · rfl

@[simp] theorem laneKick_inProgress (s : State) : (laneKick s).tc.inProgress = s.tc.inProgress := by
  unfold laneKick
  split
  · split
    · exact sendChoice_inProgress ..
    · rfl
  · rfl

theorem laneKick_of_busy {s : State} (h : s.tc.lane ≠ .free) : laneKick s = s := if_neg fun both => h both.2

/-- The link takes entries for the uplink queue. -/
def LinkState.linked (l : LinkState) : Prop := l = .up ∨ l = .recovery

/-- An entry joins the queue while the link stands and the queue has room. -/
theorem uplinkJoin_of_room {content : Content} {s : State} (linked : s.tc.link.linked) (room : s.tc.queue.length < 32) :
    uplinkJoin content s = laneKick ((s.fresh.2).onTc fun t => { t with queue := t.queue ++ [⟨s.nextId, content⟩] }) := by
  rcases linked with link | link
  all_goals
    rw [uplinkJoin, link]
    exact if_neg (Nat.not_le.mpr room)

section
variable {b : List Byte} {s : State} {n : Fin 3}

theorem judgeMessageSlot_take : judgeMessageSlot n (b.take 8) s = judgeMessageSlot n b s := by
  simp only [judgeMessageSlot, numAt_take (show 0 + 4 ≤ 8 by omega), numAt_take (show 4 + 4 ≤ 8 by omega)]

/-- The checks of a message's extent. -/
def messageOk (b : List Byte) : Prop :=
  1 ≤ numAt b 4 4 ∧ numAt b 4 4 ≤ 1020 ∧ numAt b 0 4 + numAt b 4 4 ≤ 0x40000000

theorem judgeMessageSlot_of_busy (busy : vget s.tc.inProgress n = true) :
    judgeMessageSlot n b s = (.refusedBusy, s) := if_pos busy

theorem judgeMessageSlot_of_bad (free : vget s.tc.inProgress n = false) (bad : ¬ messageOk b) :
    judgeMessageSlot n b s = (.refusedField, s) := by
  rw [messageOk] at bad
  exact (if_neg (by rw [free]; decide)).trans (if_pos (by omega))

theorem judgeMessageSlot_of_ok (free : vget s.tc.inProgress n = false) (ok : messageOk b) :
    judgeMessageSlot n b s =
      if s.tc.link = .down ∨ s.tc.link = .training then
        (.refusedState, s.onTc fun t => { t with unlinked := vmod t.unlinked 2 (· + 1) })
      else if 32 ≤ s.tc.queue.length then
        (.refusedFull, s.onTc fun t => { t with fullDrops := vmod t.fullDrops 2 (· + 1) })
      else (.pending, uplinkJoin (.message n (numAt b 0 4) (numAt b 4 4))
        (s.onTc fun t => { t with inProgress := vset t.inProgress n true })) := by
  rw [messageOk] at ok
  exact (if_neg (by rw [free]; decide)).trans (if_neg (by omega))

end

theorem LinkState.linked_iff (l : LinkState) : l.linked ↔ ¬ (l = .down ∨ l = .training) := by
  cases l <;> simp [LinkState.linked]

theorem messageSlotArm {fields : List Byte} {seq : U32} {s : State} (ok : fieldsOk 32 fields = true) (n : Fin 3)
    (arms : s.arms (.messageSlot n) seq) :
    let run (o : Outcome) (P : State → Prop) : Prop :=
      runsTo (.messageSlotArm n fields seq) s fun u => u.judged (.messageSlot n) seq o ∧ P u
    (vget s.tc.inProgress n = true → run .refusedBusy fun u => u.tc = s.tc) ∧
    (vget s.tc.inProgress n = false →
      (¬ messageOk fields → run .refusedField fun u => u.tc = s.tc) ∧
      (messageOk fields → ¬ s.tc.link.linked → run .refusedState fun u =>
        u.tc = { s.tc with unlinked := vset s.tc.unlinked 2 (vget s.tc.unlinked 2 + 1) }) ∧
      (messageOk fields → s.tc.link.linked → 32 ≤ s.tc.queue.length → run .refusedFull fun u =>
        u.tc = { s.tc with fullDrops := vset s.tc.fullDrops 2 (vget s.tc.fullDrops 2 + 1) }) ∧
      (messageOk fields → s.tc.link.linked → s.tc.queue.length < 32 → run .pending fun u =>
        vget u.tc.inProgress n = true ∧
        (s.tc.lane ≠ .free → u.tc = { s.tc with
          inProgress := vset s.tc.inProgress n true,
          queue := s.tc.queue ++ [⟨s.nextId, .message n (numAt fields 0 4) (numAt fields 4 4)⟩] }))) := by
  intro run
  have runs {o : Outcome} {r : State} {P : State → Prop}
      (judged : judgeMessageSlot n fields (s.handed (.messageSlot n) fields seq) = (o, r))
      (same : r.pu = (s.handed (.messageSlot n) fields seq).pu) (holds : P (r.onPu (Pu.enter (.messageSlot n) o))) :
      run o P :=
    runsTo_fields (k := .messageSlot n) (fun _ _ => judgeMessageSlot_take) rfl arms (show 32 ≠ 128 by decide)
      (show 8 ≤ 28 by decide) (fun _ _ => rfl) (by rw [length_of_fieldsOk ok]; decide) judged
      ⟨judged_handed same _, holds⟩
  have tc : (s.handed (.messageSlot n) fields seq).tc = s.tc := by simp
  have id : (s.handed (.messageSlot n) fields seq).nextId = s.nextId := by simp
  refine ⟨fun busy => runs (judgeMessageSlot_of_busy (by rwa [tc])) rfl tc, fun free => ?_⟩
  have whenOk (good : messageOk fields) :=
    judgeMessageSlot_of_ok (n := n) (s := s.handed (.messageSlot n) fields seq) (by rwa [tc]) good
  refine ⟨fun bad => runs (judgeMessageSlot_of_bad (by rwa [tc]) bad) rfl tc, fun good unlinked => ?_,
    fun good linked full => ?_, fun good linked room => ?_⟩
  · refine runs ((whenOk good).trans (if_pos ?_)) (State.onTc_pu ..) (by simp [vmod])
    rw [tc]
    exact Classical.not_not.mp fun h => unlinked ((LinkState.linked_iff _).mpr h)
  · have up : ¬ (s.tc.link = .down ∨ s.tc.link = .training) := (LinkState.linked_iff _).mp linked
    exact runs ((whenOk good).trans ((if_neg (by rwa [tc])).trans (if_pos (by rwa [tc])))) (State.onTc_pu ..)
      (by simp [vmod])
  · have up : ¬ (s.tc.link = .down ∨ s.tc.link = .training) := (LinkState.linked_iff _).mp linked
    have joined := uplinkJoin_of_room (content := .message n (numAt fields 0 4) (numAt fields 4 4))
      (s := (s.handed (.messageSlot n) fields seq).onTc fun t => { t with inProgress := vset t.inProgress n true })
      (by simpa using linked) (by simpa using room)
    refine runs ((whenOk good).trans ((if_neg (by rwa [tc])).trans (if_neg (by rw [tc]; omega)))) ?_ ⟨?_, fun busy => ?_⟩
    · rw [joined]
      simp
    · rw [joined]
      simp
    · rw [joined, State.onPu_tc, laneKick_of_busy (by simpa using busy)]
      simp

/-- Settles O34, by what each owner makes of the bytes it is handed. -/
theorem messageArms : Obligations.MessageArms :=
  fun _ _ _ ok => ⟨messageRingArm ok, messageSlotArm ok⟩

end Sys2Proof.Machine
end

section
/-!
PROOFS. The part record (R175, R176).
-/
namespace Sys2Proof.Machine

/-! ### The judgement -/

theorem judgePart_take (b : List Byte) (s : State) : judgePart (b.take 1) s = judgePart b s := by
  rw [judgePart, judgePart, flagAt_take (by omega)]

theorem judgePart_of_no {b : List Byte} (h : flagAt b 0 = some false) (s : State) : judgePart b s = (.taken, s) := by
  rw [judgePart, h]

theorem judgePart_of_transition {b : List Byte} (h : flagAt b 0 = some true) {s : State}
    (busy : s.pwc.inTransition = true) : judgePart b s = (.refusedBusy, s) := by
  rw [judgePart, h]
  exact if_pos busy

theorem judgePart_of_yes {b : List Byte} (h : flagAt b 0 = some true) {s : State}
    (free : s.pwc.inTransition = false) : judgePart b s = (.taken, softReset (s.entry .part).lastSeen s) := by
  rw [judgePart, h]
  exact if_neg (by rw [free]; decide)

/-! ### The 64 image lines (R175) -/

/-- The image's line writes. -/
def State.imageLines (s : State) : List (Nat × List (Nat × Byte)) :=
  (List.range 64).map fun i => (s.planBase / 64 + i, enumFrom 0 (s.pu.shadow.bytes (64 * i) 64))

theorem issueImage_eq (s : State) :
    issueImage s = requestWrites .planInit s.imageLines (s.onPu fun p => { p with initLeft := 64 }) := rfl

theorem mem_issueImage_of_mem {s : State} {r : Request} (h : r ∈ s.da.all) (hr : r.op ≠ .write []) :
    r ∈ (issueImage s).da.all := by
  rw [issueImage_eq]
  exact mem_requestWrites_of_mem _ (s := s.onPu _) h hr

theorem mem_issueImage {s : State} {i : Nat} (h : i < 64) :
    ⟨.planInit, s.planBase / 64 + i, .write (enumFrom 0 (s.pu.shadow.bytes (64 * i) 64))⟩ ∈ (issueImage s).da.all := by
  rw [issueImage_eq]
  refine mem_requestWrites (p := (s.planBase / 64 + i, enumFrom 0 (s.pu.shadow.bytes (64 * i) 64)))
    (List.mem_map.mpr ⟨i, List.mem_range.mpr h, rfl⟩) fun empty => ?_
  have length := congrArg List.length empty
  simp at length

theorem issueImage_da (s : State) : (issueImage s).da =
    { s.da with requests := (issueImage s).da.requests, service := (issueImage s).da.service } := by
  obtain ⟨w, made⟩ := exists_issueImage s
  rw [made, requestWrites_requests, State.onPu_da]

theorem issueImage_pu (s : State) : (issueImage s).pu = { s.pu with initLeft := 64 } := by
  obtain ⟨w, made⟩ := exists_issueImage s
  exact (congrArg State.pu made).trans (requestWrites_keeps ..).2.2.2.2.2.1

/-! ### The soft reset (R176) -/

/-- The part as a soft reset leaves it, before its image is written. -/
def State.softened (seq : U32) (s : State) : State := { s with
  hmp := { s.hmp with hold := .softReset }, rm := Rm.reset, st := { St.reset with nextIdent := s.st.nextIdent },
  so := So.reset, sh := Sh.reset, tc := s.tc.softReset, au := s.au.softReset, tm := Tm.reset,
  eu := s.eu.coreReset, generation := s.generation + 1,
  pu := { s.pu with table := resetTable seq, softResets := s.pu.softResets + 1, change := 0,
                    shadow := defaultImage s.pwc.settings seq } }

theorem softReset_eq (seq : U32) (s : State) : softReset seq s = issueImage (s.softened seq) := rfl

theorem softReset_entry_ne {k : RecordKind} (h : k ≠ .part) (seq : U32) (s : State) :
    (softReset seq s).entry k = ⟨0, .none, 0⟩ := by
  rw [State.entry, softReset_eq, issueImage_pu]
  exact (vget_vset_ne _ _ fun same => h (RecordKind.index_injective same).symm).trans (vget_replicate ..)

theorem softReset_entry_part (seq : U32) (s : State) : ((softReset seq s).entry .part).lastSeen = seq := by
  rw [State.entry, softReset_eq, issueImage_pu]
  exact congrArg OutcomeEntry.lastSeen (vget_vset_same ..)

theorem handed_da (k : RecordKind) (fields : List Byte) (seq : U32) (s : State) : (s.handed k fields seq).da =
    { s.da with requests := (s.handed k fields seq).da.requests, service := (s.handed k fields seq).da.service } := by
  have made : (s.handed k fields seq).da =
      (request .hostWrite ((s.planBase + k.seqOffset) / 64) (.write (armBytes k fields seq)) s).da := rfl
  have one : request .hostWrite ((s.planBase + k.seqOffset) / 64) (.write (armBytes k fields seq)) s =
      requestWrites .hostWrite [((s.planBase + k.seqOffset) / 64, armBytes k fields seq)] s := rfl
  rw [made, one, requestWrites_requests]

theorem mem_handed_of_mem {k : RecordKind} {fields : List Byte} {seq : U32} {s : State} {r : Request}
    (h : r ∈ s.da.all) (hr : r.op ≠ .write []) : r ∈ (s.handed k fields seq).da.all := mem_request_of_mem h hr

theorem handed_pu (k : RecordKind) (fields : List Byte) (seq : U32) (s : State) :
    (s.handed k fields seq).pu.softResets = s.pu.softResets := by
  have made : (s.handed k fields seq).pu.softResets =
      (request .hostWrite ((s.planBase + k.seqOffset) / 64) (.write (armBytes k fields seq)) s).pu.softResets := rfl
  rw [made, (request_keeps ..).2.2.2.2.2.1]

theorem runsTo_part {c : Instr} {fields : List Byte} {seq : U32} {s r : State} {o : Outcome} {P : State → Prop}
    (run : exec c s = .next (armRecord .part fields seq s)) (length : 1 ≤ fields.length) (arms : s.arms .part seq)
    (judged : judgePart fields (s.handed .part fields seq) = (o, r)) (holds : P (r.onPu (Pu.enter .part o))) :
    runsTo c s P :=
  runsTo_fields (k := .part) judgePart_take run arms (by decide) (by decide) (fun _ _ => rfl) length judged holds

/-- Settles O28: soft reset no leaves all but the outcome, yes in a transition is refused, and yes else resets the core. -/
theorem softResetEffect : Obligations.SoftResetEffect := by
  intro seq s arms untouched
  have quiet {o : Outcome} {fields : List Byte} :
      untouched ((s.handed .part fields seq).onPu (Pu.enter .part o)) := by simp [untouched]
  have pwc : (s.handed .part [1] seq).pwc = s.pwc := by simp
  refine ⟨?_, fun busy => ?_, fun free => ?_⟩
  · exact runsTo_part (fields := [0]) rfl (by simp) arms (judgePart_of_no rfl _) ⟨judged_handed rfl _, quiet⟩
  · exact runsTo_part (fields := [1]) rfl (by simp) arms (judgePart_of_transition rfl (by rwa [pwc]))
      ⟨judged_handed rfl _, quiet⟩
  · have judged := judgePart_of_yes (b := [1]) rfl (s := s.handed .part [1] seq) (by rwa [pwc])
    rw [State.handed_lastSeen] at judged
    have shadow : ((s.handed .part [1] seq).softened seq).pu.shadow = defaultImage s.pwc.settings seq := by
      rw [← pwc]
      rfl
    have plan : ((s.handed .part [1] seq).softened seq).planBase = s.planBase :=
      (State.handed_keeps .part [1] seq s).2.2.2.2.2.2.2.2.2.2.2.2.2.2.2
    have da : ((s.handed .part [1] seq).softened seq).da = (s.handed .part [1] seq).da := rfl
    refine runsTo_part (fields := [1]) rfl (by simp) arms judged
      ⟨judged_enter (softReset_entry_part ..) _, fun k other => ?_, ?_⟩
    · rw [State.entry, State.onPu_pu, Pu.enter_table_ne other]
      exact softReset_entry_ne other ..
    · simp only [State.onPu_hmp, State.onPu_rm, State.onPu_st, State.onPu_so, State.onPu_sh, State.onPu_tm,
        State.onPu_au, State.onPu_tc, State.onPu_eu, State.onPu_generation, State.onPu_tb, State.onPu_pwc,
        State.onPu_mem, State.onPu_da, State.onPu_pu, softReset_eq, issueImage_keeps, issueImage_pu]
      refine ⟨congrArg (· + 1) (handed_pu ..), shadow, rfl, ?_, rfl, ?_, rfl, rfl, rfl, rfl, rfl, rfl, ?_, ?_, ?_, ?_, ?_,
        rfl, rfl, rfl, ?_, ?_, ?_, ?_, ?_, ?da, fun r old op => ?kept, fun i hi => ?lines⟩
      case da => rw [issueImage_da, da, handed_da]
      case kept => exact mem_issueImage_of_mem (da ▸ mem_handed_of_mem old op) op
      case lines =>
        have line := mem_issueImage (s := (s.handed .part [1] seq).softened seq) hi
        rwa [plan, shadow] at line
      all_goals simp [State.softened, Tc.softReset, Au.softReset, Eu.coreReset]

end Sys2Proof.Machine
end

section
/-!
PROOFS. What a record's judgement and a live word's owner carry over: the memory, the shadow, the requests that stand, and
the outcome table's entries (R170 to R174).
-/
namespace Sys2Proof.Machine

/-- From one state to another with what a write of the record area brought kept. -/
structure State.Carries (s t : State) : Prop where
  mem : t.mem = s.mem
  shadow : t.pu.shadow = s.pu.shadow
  requests : ∀ r ∈ s.da.all, r.op ≠ .write [] → r ∈ t.da.all
  stays : ∀ k, (s.entry k).Stays (t.entry k)

theorem State.Carries.refl (s : State) : s.Carries s := ⟨rfl, rfl, fun _ h _ => h, fun _ => .of_eq rfl⟩

theorem State.Carries.trans {s t u : State} (h : s.Carries t) (k : t.Carries u) : s.Carries u :=
  ⟨k.mem.trans h.mem, k.shadow.trans h.shadow, fun r old op => k.requests r (h.requests r old op) op,
    fun e => (h.stays e).trans (k.stays e)⟩

theorem State.Carries.after {s t u : State} (k : t.Carries u) (h : s.Carries t) : s.Carries u := h.trans k

theorem State.Carries.ite {c : Prop} [Decidable c] {s t u : State} (h : c → s.Carries t) (k : ¬ c → s.Carries u) :
    s.Carries (if c then t else u) := by
  split
  next hc => exact h hc
  next hc => exact k hc

/-- A change of the other units. -/
theorem State.Carries.of_same {s t : State} (mem : t.mem = s.mem) (pu : t.pu = s.pu)
    (requests : t.da.requests = s.da.requests) (service : t.da.service = s.da.service) : s.Carries t :=
  ⟨mem, by rw [pu], fun r h _ => by rwa [Da.all, requests, service], fun k => .of_eq (by rw [State.entry, pu]; rfl)⟩

theorem State.Delivers.carries {s t : State} (h : s.Delivers t) : s.Carries t :=
  have da : t.da = s.da := congrArg (·.1.2.2.2.2.1) h.always
  ⟨congrArg (·.1.2.2.1) h.always, congrArg (·.2.1.1) h.always, fun r old _ => by rwa [da], h.stays⟩

theorem State.Delivers.enables {s t : State} (h : s.Delivers t) : t.pwc.enables = s.pwc.enables :=
  (congrArg (fun p : Pwc => p.enables) h.pwc :)

/-! ### Requests and captures -/

theorem request_carries (a : Agent) (l : Nat) (op : ReqOp) (s : State) : s.Carries (request a l op s) :=
  ⟨by simp, by simp, fun _ old op => mem_request_of_mem old op, fun _ => .of_eq (by simp [State.entry])⟩

theorem requestReads_carries (a : Agent) (l : List Nat) (s : State) : s.Carries (requestReads a l s) :=
  ⟨by simp, by simp, fun _ old op => mem_requestReads_of_mem l old op, fun _ => .of_eq (by simp [State.entry])⟩

theorem badIndex_carries (a : Nat) (c : ReqClass) (s : State) : s.Carries (badIndex a c s) :=
  .of_same (by simp) (by simp) rfl rfl

/-! ### Live words (R174) -/

theorem liveAct_carries (w : LiveWord) (v : U32) (s : State) : s.Carries (liveAct w v s) := by
  cases w with
  | fence n => exact .of_same (by simp [liveAct]) (by simp [liveAct]) (by simp [liveAct]) (by simp [liveAct])
  | sensorConsume n => exact .ite (fun _ => .of_same rfl rfl rfl rfl) fun _ => badIndex_carries ..
  | ring1Produce => exact .ite (fun _ => .of_same rfl rfl rfl rfl) fun _ => badIndex_carries ..
  | ring2Consume => exact .ite (fun _ => .of_same rfl rfl rfl rfl) fun _ => badIndex_carries ..
  | messageConsume => exact .ite (fun _ => .of_same rfl rfl rfl rfl) fun _ => badIndex_carries ..

theorem liveAct_enables (w : LiveWord) (v : U32) (s : State) : (liveAct w v s).pwc = s.pwc := by
  cases w with
  | fence n => simp [liveAct]
  | sensorConsume n =>
    simp only [liveAct, sensorConsume]
    split <;> simp [State.onSensorRing]
  | ring1Produce =>
    simp only [liveAct, ring1Produce]
    split <;> simp [State.onRing]
  | ring2Consume =>
    simp only [liveAct, ring2Consume]
    split <;> simp [State.onRing]
  | messageConsume =>
    simp only [liveAct, messageConsume]
    split <;> simp

/-! ### The judgement of a record (R172) -/

theorem sendChoice_carries (c : Choice) (s : State) : s.Carries (sendChoice c s) := by
  have reads (e a l : Nat) : s.Carries (beginReads e a l s) :=
    .after (requestReads_carries ..) (.of_same rfl rfl rfl rfl)
  unfold sendChoice
  split
  · exact .of_same rfl rfl rfl rfl
  · exact .of_same rfl rfl rfl rfl
  · exact .of_same rfl rfl rfl rfl
  · split
    · exact reads ..
    · exact .of_same rfl rfl rfl rfl
  · split
    · exact reads ..
    · exact .of_same rfl rfl rfl rfl
    · exact .of_same rfl rfl rfl rfl
    · exact .of_same rfl rfl rfl rfl

theorem laneKick_carries (s : State) : s.Carries (laneKick s) := by
  refine .ite (fun _ => ?_) fun _ => .refl s
  split
  · exact sendChoice_carries ..
  · exact .refl s

theorem uplinkJoin_carries (c : Content) (s : State) : s.Carries (uplinkJoin c s) := by
  unfold uplinkJoin
  split
  · exact .of_same rfl rfl rfl rfl
  · exact .of_same rfl rfl rfl rfl
  · exact .ite (fun _ => .of_same rfl rfl rfl rfl) fun _ => .after (laneKick_carries _) (.of_same rfl rfl rfl rfl)

theorem judgeMessageSlot_carries (n : Fin 3) (b : List Byte) (s : State) : s.Carries (judgeMessageSlot n b s).2 := by
  simp only [judgeMessageSlot]
  repeat' split
  · exact .refl s
  · exact .refl s
  · exact .of_same rfl rfl rfl rfl
  · exact .of_same rfl rfl rfl rfl
  · exact .after (uplinkJoin_carries ..) (.of_same rfl rfl rfl rfl)

/-- A set that is taken leaves what delivery leaves. -/
theorem takeSet_delivers (t : TimingSet) (s : State) : s.Delivers (takeSet t s) := by
  have applied : s.Delivers (applySet t s) := .after (raise_delivers ..) (onSo_delivers ..)
  have starts (u : State) : u.Delivers (startScan u) := by
    refine .ite (fun _ => .refl u) fun _ => ?_
    split
    · exact frameBoundary_delivers ..
    · exact onSo_delivers ..
  simp only [takeSet]
  repeat' split
  · exact .after (onSo_delivers ..) applied
  · exact .after (frameBoundary_delivers ..) applied
  · exact applied
  · exact .after (starts _) applied
  · exact applied

theorem overtake_delivers (s : State) : s.Delivers (s.onPu (Pu.overtake .timing)) :=
  ⟨rfl, fun _ => rfl, fun _ => id, fun _ other => vget_vmod_ne _ _ fun same => other (RecordKind.index_injective same).symm,
    by constructor <;> simp [State.entry, Pu.overtake]⟩

theorem judgeTiming_delivers (b : List Byte) (s : State) : s.Delivers (judgeTiming b s).2 := by
  have refused (o : Outcome) : s.Delivers (refuseTiming o s).2 :=
    .ite (fun _ => .after (overtake_delivers _) (onSo_delivers ..)) fun _ => .refl s
  cases field : timingAt b with
  | none =>
    rw [judgeTiming_of_field field]
    exact refused _
  | some t =>
    by_cases barred : s.bars t
    · rw [judgeTiming_of_barred field barred]
      exact refused _
    by_cases running : s.so.state = .running
    · have overtaken : s.Delivers (if s.so.pendingSet.isSome then s.onPu (Pu.overtake .timing) else s) :=
        .ite (fun _ => overtake_delivers s) fun _ => .refl s
      rw [judgeTiming_of_running field barred running]
      dsimp only
      exact overtaken.trans (onSo_delivers ..)
    · rw [judgeTiming_of_idle field barred running]
      exact takeSet_delivers t s

theorem takeSettings_carries (p : PowerSettings) (s : State) : s.Carries (takeSettings p s) := by
  have ends (u : State) : u.Carries (alertDeasserts u) := by
    unfold alertDeasserts overrideEnds
    exact .ite (fun _ => .of_same rfl rfl rfl rfl) fun _ => .of_same rfl rfl rfl rfl
  simp only [takeSettings]
  repeat' split
  · exact .of_same rfl rfl rfl rfl
  · exact .after (ends _) (.of_same rfl rfl rfl rfl)
  · exact .of_same rfl rfl rfl rfl

theorem setPower_carries (p : PowerState) (s : State) : s.Carries (setPower p s) := by
  unfold setPower
  exact .ite (fun _ => .of_same rfl rfl rfl rfl) fun _ => .of_same rfl rfl rfl rfl

theorem beginStopping_carries {s : State} (on : s.pwc.enables.host = true) (c : StopCause) :
    s.Carries (beginStopping c s) := by
  have stopped : (setPower .stopping s).Carries (s.stopping c) := .of_same rfl rfl rfl rfl
  rw [beginStopping_of_host on]
  exact ((setPower_carries ..).trans stopped).trans (.of_same rfl rfl rfl rfl)

theorem actOnRequest_carries {s : State} (on : s.pwc.enables.host = true) (r : PowerRequest) :
    s.Carries (actOnRequest r s) := by
  have active : (setPower .active s).Carries (enterActive s) :=
    .of_same (by simp [enterActive]) (by simp [enterActive]) (by simp [enterActive]) (by simp [enterActive])
  have dimmed (c : DimCause) : (setPower .dimmed s).Carries (enterDimmed c s) :=
    .of_same (by simp [enterDimmed]) (by simp [enterDimmed]) (by simp [enterDimmed]) (by simp [enterDimmed])
  cases r with
  | none => exact .refl s
  | active => exact .ite (fun _ => .after active (setPower_carries ..)) fun _ => .refl s
  | dimmed =>
    unfold actOnRequest
    dsimp only
    split
    · exact .after (dimmed _) (setPower_carries ..)
    · exact .of_same rfl rfl rfl rfl
    · exact .refl s
  | standby =>
    have entering : (setPower .enteringStandby s).Carries ((setPower .enteringStandby s).onPwc fun p =>
        { p with dimCause := .none, thermalTimer := none, step := .enterScan, keptWake := none }) :=
      .of_same rfl rfl rfl rfl
    exact .ite (fun _ => .after (requestStop_delivers _).carries (.after entering (setPower_carries ..)))
      fun _ => .refl s
  | off => exact .ite (fun _ => beginStopping_carries on _) fun _ => .refl s

theorem judgePower_carries {s : State} (on : s.pwc.enables.host = true) (b : List Byte) :
    s.Carries (judgePower b s).2 := by
  have taken (r : PowerRequest) (p : PowerSettings) : s.Carries (actOnRequest r (takeSettings p s)) :=
    .after (actOnRequest_carries (by rw [takeSettings_pwc]; exact on) r) (takeSettings_carries p s)
  unfold judgePower
  repeat' split
  · exact taken ..
  · exact taken ..
  · exact .refl s
  · exact .refl s

/-- The other owners touch neither the memory, the plan unit, the requests nor the power controller. -/
def State.Quiet (s t : State) : Prop := t.mem = s.mem ∧ t.pu = s.pu ∧ t.da = s.da ∧ t.pwc = s.pwc

theorem State.Quiet.carries {s t : State} (h : s.Quiet t) : s.Carries t := by
  obtain ⟨mem, pu, da, -⟩ := h
  exact .of_same mem pu (by rw [da]) (by rw [da])

theorem State.Quiet.refl (s : State) : s.Quiet s := ⟨rfl, rfl, rfl, rfl⟩

theorem judgeSurface_quiet (n : Fin 6) (b : List Byte) (s : State) : s.Quiet (judgeSurface n b s).2 := by
  unfold judgeSurface
  split
  · unfold configureSurface
    repeat' split
    all_goals exact ⟨rfl, rfl, rfl, rfl⟩
  · simp only [openSurface]
    repeat' split
    all_goals exact ⟨rfl, rfl, rfl, rfl⟩
  · unfold releaseSurface
    split <;> exact ⟨rfl, rfl, rfl, rfl⟩
  · exact .refl s

theorem judgePresent_quiet (b : List Byte) (s : State) : s.Quiet (judgePresent b s).2 := by
  unfold judgePresent
  repeat' split
  all_goals exact ⟨rfl, rfl, rfl, rfl⟩

theorem becomeDue_quiet (n : Fin 4) (s : State) : s.Quiet (becomeDue n s) := by
  simp only [becomeDue]
  repeat' split
  all_goals exact ⟨rfl, rfl, rfl, rfl⟩

theorem judgeChannel_quiet (n : Fin 4) (b : List Byte) (s : State) : s.Quiet (judgeChannel n b s).2 := by
  unfold judgeChannel
  split
  · exact .refl s
  · dsimp only
    repeat' split
    · exact ⟨rfl, rfl, rfl, rfl⟩
    · exact ⟨rfl, rfl, rfl, rfl⟩
    · rw [enterRunning_eq]
      split
      · exact becomeDue_quiet ..
      · exact ⟨rfl, rfl, rfl, rfl⟩

theorem judgeRule_quiet (n : Fin 16) (b : List Byte) (s : State) : s.Quiet (judgeRule n b s).2 := by
  unfold judgeRule
  split <;> exact ⟨rfl, rfl, rfl, rfl⟩

theorem judgeSensorRing_quiet (n : Fin 8) (b : List Byte) (s : State) : s.Quiet (judgeSensorRing n b s).2 := by
  simp only [judgeSensorRing]
  repeat' split
  all_goals exact ⟨rfl, rfl, rfl, rfl⟩

theorem judgeAudioRing_quiet (n : Fin 3) (b : List Byte) (s : State) : s.Quiet (judgeAudioRing n b s).2 := by
  simp only [judgeAudioRing]
  repeat' split
  all_goals exact ⟨rfl, rfl, rfl, rfl⟩

theorem judgeAudioOut_quiet (b : List Byte) (s : State) : s.Quiet (judgeAudioOut b s).2 := by
  simp only [judgeAudioOut]
  repeat' split
  all_goals exact ⟨rfl, rfl, rfl, rfl⟩

theorem judgeMessageRing_quiet (b : List Byte) (s : State) : s.Quiet (judgeMessageRing b s).2 := by
  simp only [judgeMessageRing]
  repeat' split
  all_goals exact ⟨rfl, rfl, rfl, rfl⟩

theorem judgeTrigger_quiet (b : List Byte) (s : State) : s.Quiet (judgeTrigger b s).2 := by
  unfold judgeTrigger
  split <;> exact ⟨rfl, rfl, rfl, rfl⟩

theorem judgeBeacon_quiet (n : Fin 2) (b : List Byte) (s : State) : s.Quiet (judgeBeacon n b s).2 := by
  simp only [judgeBeacon]
  repeat' split
  all_goals exact ⟨rfl, rfl, rfl, rfl⟩

theorem judgeTime_quiet (b : List Byte) (s : State) : s.Quiet (judgeTime b s).2 := by
  simp only [judgeTime]
  repeat' split
  all_goals exact ⟨rfl, rfl, rfl, rfl⟩

theorem judgeEvent_quiet (b : List Byte) (s : State) : s.Quiet (judgeEvent b s).2 := by
  simp only [judgeEvent]
  repeat' split
  all_goals exact ⟨rfl, rfl, rfl, rfl⟩

theorem judgeRegion_quiet (n : Fin 32) (b : List Byte) (s : State) : s.Quiet (judgeRegion n b s).2 := by
  simp only [judgeRegion]
  split <;> exact ⟨rfl, rfl, rfl, rfl⟩

/-- A judgement carries what the write brought, but for soft reset, and for a power record where no rail is on. -/
theorem judge_carries {k : RecordKind} (notPart : k ≠ .part) (b : List Byte) {s : State}
    (on : k = .power → s.pwc.enables.host = true) : s.Carries (judge k b s).2 := by
  cases k with
  | part => exact absurd rfl notPart
  | power => exact judgePower_carries (on rfl) b
  | timing => exact (judgeTiming_delivers b s).carries
  | messageSlot n => exact judgeMessageSlot_carries n b s
  | region n => exact (judgeRegion_quiet n b s).carries
  | surface n => exact (judgeSurface_quiet n b s).carries
  | present _ => exact (judgePresent_quiet b s).carries
  | channel n => exact (judgeChannel_quiet n b s).carries
  | rule n => exact (judgeRule_quiet n b s).carries
  | sensorRing n => exact (judgeSensorRing_quiet n b s).carries
  | audioRing n => exact (judgeAudioRing_quiet n b s).carries
  | audioOut => exact (judgeAudioOut_quiet b s).carries
  | messageRing => exact (judgeMessageRing_quiet b s).carries
  | trigger => exact (judgeTrigger_quiet b s).carries
  | beacon n => exact (judgeBeacon_quiet n b s).carries
  | time => exact (judgeTime_quiet b s).carries
  | event => exact (judgeEvent_quiet b s).carries

/-- Of the owners the power controller alone changes the rails' enables. -/
theorem judge_enables {k : RecordKind} (notPart : k ≠ .part) (notPower : k ≠ .power) (b : List Byte) (s : State) :
    (judge k b s).2.pwc.enables = s.pwc.enables := by
  cases k with
  | part => exact absurd rfl notPart
  | power => exact absurd rfl notPower
  | timing => exact (judgeTiming_delivers b s).enables
  | messageSlot n =>
    have pwc : (judgeMessageSlot n b s).2.pwc = s.pwc := by
      simp only [judgeMessageSlot]
      repeat' split
      all_goals simp
    exact congrArg Pwc.enables pwc
  | region n => exact congrArg Pwc.enables (judgeRegion_quiet n b s).2.2.2
  | surface n => exact congrArg Pwc.enables (judgeSurface_quiet n b s).2.2.2
  | present _ => exact congrArg Pwc.enables (judgePresent_quiet b s).2.2.2
  | channel n => exact congrArg Pwc.enables (judgeChannel_quiet n b s).2.2.2
  | rule n => exact congrArg Pwc.enables (judgeRule_quiet n b s).2.2.2
  | sensorRing n => exact congrArg Pwc.enables (judgeSensorRing_quiet n b s).2.2.2
  | audioRing n => exact congrArg Pwc.enables (judgeAudioRing_quiet n b s).2.2.2
  | audioOut => exact congrArg Pwc.enables (judgeAudioOut_quiet b s).2.2.2
  | messageRing => exact congrArg Pwc.enables (judgeMessageRing_quiet b s).2.2.2
  | trigger => exact congrArg Pwc.enables (judgeTrigger_quiet b s).2.2.2
  | beacon n => exact congrArg Pwc.enables (judgeBeacon_quiet n b s).2.2.2
  | time => exact congrArg Pwc.enables (judgeTime_quiet b s).2.2.2
  | event => exact congrArg Pwc.enables (judgeEvent_quiet b s).2.2.2

end Sys2Proof.Machine
end

section
/-!
PROOFS. A write of the record area: the merge, the live words, the arms (R170, R171, R172).
-/
namespace Sys2Proof.Machine

/-! ### The merge (R170) -/

/-- A byte after a write of several: the one written there, or the old one. -/
theorem Mem.read_writeAll (m : Mem) (base : Nat) {l : List (Nat × Byte)} (distinct : (l.map (·.1)).Nodup) {i : Nat} :
    (m.writeAll base l).read (base + i) = (l.lookup i).getD (m.read (base + i)) := by
  cases found : l.lookup i with
  | none =>
    refine Mem.read_writeAll_ne _ _ _ _ fun p hp same => ?_
    have index : p.1 = i := by omega
    have absent := List.lookup_eq_none_iff.mp found p hp
    simp [index] at absent
  | some b =>
    obtain ⟨before, after, split, -⟩ := List.lookup_eq_some_iff.mp found
    exact Mem.read_writeAll_mem _ _ _ distinct (p := (i, b)) (by simp [split])

/-- A line write changes the bytes of its line that it brings. -/
theorem Mem.read_writeAll_line (m : Mem) (line : Nat) {l : List (Nat × Byte)} (distinct : (l.map (·.1)).Nodup)
    (inside : ∀ p ∈ l, p.1 < 64) (i : Nat) : (m.writeAll (64 * line) l).read i =
      if i / 64 = line then (l.lookup (i % 64)).getD (m.read i) else m.read i := by
  split
  next here =>
    have place : i = 64 * line + i % 64 := by omega
    rw [place, Mem.read_writeAll _ _ distinct, ← place]
  next elsewhere =>
    refine Mem.read_writeAll_ne _ _ _ _ fun p hp same => ?_
    have := inside p hp
    omega

theorem nodup_of_rising {l : List (Nat × Byte)} (h : l.Pairwise fun p q => p.1 < q.1) : (l.map (·.1)).Nodup := by
  rw [List.nodup_iff_pairwise_ne, List.pairwise_map]
  exact h.imp Nat.ne_of_lt

/-! ### One record (R172) -/

theorem judge_fst (k : RecordKind) (b : List Byte) (s : State) : (judge k b s).1 ≠ .none := by
  have surface (n : Fin 6) : (judgeSurface n b s).1 ≠ .none := by
    unfold judgeSurface configureSurface releaseSurface
    simp only [openSurface]
    repeat' split
    all_goals nofun
  cases k
  case surface n => exact surface n
  all_goals
    simp only [judge, judgeRegion, judgeTiming, refuseTiming, judgePresent, judgeChannel, judgeRule, judgeSensorRing,
      judgeAudioRing, judgeAudioOut, judgeMessageRing, judgeMessageSlot, judgeTrigger, judgeBeacon, judgeTime,
      judgePower, judgeEvent, judgePart]
    repeat' split
    all_goals nofun

/-- What the submission of record `k` with sequence `seq` does to the table, and what it carries. -/
structure State.Submits (k : RecordKind) (seq : U32) (s t : State) : Prop where
  mem : t.mem = s.mem
  shadow : t.pu.shadow = s.pu.shadow
  requests : ∀ r ∈ s.da.all, r.op ≠ .write [] → r ∈ t.da.all
  seen : (t.entry k).lastSeen = seq
  judged : (t.entry k).outcome ≠ .none
  others : ∀ j, j ≠ k → (s.entry j).Stays (t.entry j)
  enables : k ≠ .power → t.pwc.enables = s.pwc.enables

theorem noteArm_entry_ne {j k : RecordKind} (h : j ≠ k) (seq : U32) (s : State) :
    (s.onPu (Pu.noteArm k seq)).entry j = s.entry j :=
  vget_vmod_ne _ _ fun same => h (RecordKind.index_injective same).symm

theorem enter_entry (k : RecordKind) (o : Outcome) (s : State) :
    (s.onPu (Pu.enter k o)).entry k = { s.entry k with outcome := o } := by
  simp [State.entry, Pu.enter]

theorem submit_eq (k : RecordKind) (seq : U32) (s : State) :
    let noted := s.onPu (Pu.noteArm k seq)
    let answer := judge k (noted.snapshot k) noted
    submit k seq s = drain (answer.2.onPu (Pu.enter k answer.1)) := rfl

theorem submit_submits {k : RecordKind} (notPart : k ≠ .part) (seq : U32) {s : State}
    (on : k = .power → s.pwc.enables.host = true) : s.Submits k seq (submit k seq s) := by
  rw [submit_eq]
  have noted : ((s.onPu (Pu.noteArm k seq)).entry k).lastSeen = seq := by simp [State.entry, Pu.noteArm]
  have same (j : RecordKind) (h : j ≠ k) := noteArm_entry_ne h seq s
  have judges := judge_carries notPart ((s.onPu (Pu.noteArm k seq)).snapshot k) (s := s.onPu (Pu.noteArm k seq)) on
  have rails (h : k ≠ .power) := judge_enables notPart h ((s.onPu (Pu.noteArm k seq)).snapshot k)
    (s.onPu (Pu.noteArm k seq))
  have given := judge_fst k ((s.onPu (Pu.noteArm k seq)).snapshot k) (s.onPu (Pu.noteArm k seq))
  generalize judge k ((s.onPu (Pu.noteArm k seq)).snapshot k) (s.onPu (Pu.noteArm k seq)) = answer at *
  obtain ⟨o, r⟩ := answer
  have drains := drain_delivers (r.onPu (Pu.enter k o))
  have stays := drains.stays k
  rw [enter_entry] at stays
  refine ⟨drains.carries.mem.trans judges.mem, drains.carries.shadow.trans judges.shadow,
    fun q old op => drains.carries.requests q (judges.requests q old op) op,
    stays.1.trans ((judges.stays k).1.trans noted), stays.2 given, fun j h => ?_,
    fun h => drains.enables.trans (rails h)⟩
  have entered : (r.onPu (Pu.enter k o)).entry j = r.entry j := Pu.enter_table_ne h o r.pu
  have judgedAt := judges.stays j
  rw [same j h] at judgedAt
  exact (judgedAt.trans (.of_eq entered)).trans (drains.stays j)

/-! ### The records of a line (R171) -/

/-- A write arms a record with `v`: it brings the whole of the final word, and a new sequence. -/
def State.armedBy (s : State) (bytes : List (Nat × Byte)) (k : RecordKind) (v : U32) : Prop :=
  k.finalWord bytes = some v ∧ v ≠ (s.entry k).lastSeen

theorem State.armedBy_iff {s t : State} {k : RecordKind} (h : (s.entry k).Stays (t.entry k)) (bytes : List (Nat × Byte))
    (v : U32) : t.armedBy bytes k v ↔ s.armedBy bytes k v := by
  rw [State.armedBy, State.armedBy, h.1]

theorem submitIfArmed_of_armed {bytes : List (Nat × Byte)} {s : State} {k : RecordKind} {v : U32}
    (h : s.armedBy bytes k v) : submitIfArmed bytes s k = submit k v s := submitIfArmed_of_new h.1 h.2

theorem submitIfArmed_of_not {bytes : List (Nat × Byte)} {s : State} {k : RecordKind}
    (h : ∀ v, ¬ s.armedBy bytes k v) : submitIfArmed bytes s k = s := by
  unfold submitIfArmed
  split
  next v word =>
    have seen : v = (s.entry k).lastSeen := by
      refine Classical.byContradiction fun new => ?_
      exact h v ⟨word, new⟩
    exact if_pos seen
  next => rfl

/-- What the submissions of the armed records of a line do. -/
structure State.Submitted (bytes : List (Nat × Byte)) (l : List RecordKind) (s t : State) : Prop where
  mem : t.mem = s.mem
  shadow : t.pu.shadow = s.pu.shadow
  requests : ∀ r ∈ s.da.all, r.op ≠ .write [] → r ∈ t.da.all
  armed : ∀ k ∈ l, ∀ v, s.armedBy bytes k v → (t.entry k).lastSeen = v ∧ (t.entry k).outcome ≠ .none
  others : ∀ k, (k ∈ l → ∀ v, ¬ s.armedBy bytes k v) → (s.entry k).Stays (t.entry k)

theorem foldl_submitIfArmed (bytes : List (Nat × Byte)) (l : List RecordKind) (nodup : l.Nodup) (s : State)
    (notPart : .part ∈ l → ∀ v, ¬ s.armedBy bytes .part v)
    (on : .power ∈ l → (∃ v, s.armedBy bytes .power v) → s.pwc.enables.host = true) :
    s.Submitted bytes l (l.foldl (submitIfArmed bytes) s) := by
  induction l generalizing s with
  | nil => exact ⟨rfl, rfl, fun _ h _ => h, nofun, fun _ _ => .of_eq rfl⟩
  | cons k rest ih =>
    obtain ⟨absent, distinct⟩ := List.nodup_cons.mp nodup
    rw [List.foldl_cons]
    by_cases new : ∃ v, s.armedBy bytes k v
    · obtain ⟨v, armed⟩ := new
      rw [submitIfArmed_of_armed armed]
      have part : k ≠ .part := by
        rintro rfl
        exact notPart List.mem_cons_self v armed
      have one := submit_submits part v (s := s) fun power => on (power ▸ List.mem_cons_self) ⟨v, power ▸ armed⟩
      have other {j : RecordKind} (h : j ∈ rest) : j ≠ k := fun same => absent (same ▸ h)
      have same {j : RecordKind} (h : j ∈ rest) := State.armedBy_iff (one.others j (other h)) bytes
      have more := ih distinct (submit k v s) (fun h w => (not_congr (same h w)).mpr (notPart (List.mem_cons_of_mem _ h) w))
        fun h ⟨w, again⟩ => by
          rw [one.enables (other h).symm]
          exact on (List.mem_cons_of_mem _ h) ⟨w, (same h w).mp again⟩
      refine ⟨more.mem.trans one.mem, more.shadow.trans one.shadow,
        fun r old op => more.requests r (one.requests r old op) op, fun j here w again => ?_, fun j quiet => ?_⟩
      · rcases List.mem_cons.mp here with rfl | h
        · have stays := more.others j fun h => (absent h).elim
          obtain rfl := Option.some.inj (armed.1.symm.trans again.1)
          exact ⟨stays.1.trans one.seen, stays.2 one.judged⟩
        · exact more.armed j h w ((same h w).mpr again)
      · have differs : j ≠ k := by
          rintro rfl
          exact quiet List.mem_cons_self v armed
        exact (one.others j differs).trans
          (more.others j fun h w => (not_congr (same h w)).mpr (quiet (List.mem_cons_of_mem _ h) w))
    · have none : ∀ v, ¬ s.armedBy bytes k v := fun v h => new ⟨v, h⟩
      rw [submitIfArmed_of_not none]
      have more := ih distinct s (fun h => notPart (List.mem_cons_of_mem _ h)) fun h => on (List.mem_cons_of_mem _ h)
      refine ⟨more.mem, more.shadow, more.requests, fun j here w again => ?_,
        fun j quiet => more.others j fun h => quiet (List.mem_cons_of_mem _ h)⟩
      rcases List.mem_cons.mp here with rfl | h
      · exact (none w again).elim
      · exact more.armed j h w again

/-! ### The live words of a line (R174) -/

theorem foldl_liveAct (l : List LiveWord) (s : State) :
    let t := l.foldl (fun s w => liveAct w (BitVec.ofNat 32 (ofBytes (s.pu.shadow.bytes w.offset 4))) s) s
    s.Carries t ∧ t.pwc = s.pwc := by
  induction l generalizing s with
  | nil => exact ⟨.refl s, rfl⟩
  | cons w rest ih =>
    have one := liveAct_carries w (BitVec.ofNat 32 (ofBytes (s.pu.shadow.bytes w.offset 4))) s
    have rails := liveAct_enables w (BitVec.ofNat 32 (ofBytes (s.pu.shadow.bytes w.offset 4))) s
    obtain ⟨more, kept⟩ := ih (liveAct w (BitVec.ofNat 32 (ofBytes (s.pu.shadow.bytes w.offset 4))) s)
    exact ⟨one.trans more, kept.trans rails⟩

/-! ### The whole write (R170, R171) -/

/-- The records whose final word lies in a line. -/
theorem mem_recordsEndingIn_iff (k : RecordKind) (line : Nat) : k ∈ recordsEndingIn line ↔ k.seqOffset / 64 = line := by
  simp [recordsEndingIn, mem_allRecords]

theorem planWrite_submitted {off : Nat} {bytes : List (Nat × Byte)} {s : State}
    (notPart : RecordKind.part.seqOffset / 64 = off / 64 → ∀ v, ¬ s.armedBy bytes .part v)
    (on : RecordKind.power.seqOffset / 64 = off / 64 → (∃ v, s.armedBy bytes .power v) → s.pwc.enables.host = true) :
    (s.onPu fun p => { p with shadow := p.shadow.writeAll (64 * (off / 64)) bytes }).Submitted bytes
      (recordsEndingIn (off / 64)) (planWrite off bytes s) := by
  obtain ⟨carries, rails⟩ := foldl_liveAct ((liveWordsIn (off / 64)).filter (LiveWord.coveredBy bytes))
    (s.onPu fun p => { p with shadow := p.shadow.writeAll (64 * (off / 64)) bytes })
  have same (k : RecordKind) := State.armedBy_iff (carries.stays k) bytes
  have submitted := foldl_submitIfArmed bytes (recordsEndingIn (off / 64)) (allRecords_nodup.filter _)
    (((liveWordsIn (off / 64)).filter (LiveWord.coveredBy bytes)).foldl
      (fun s w => liveAct w (BitVec.ofNat 32 (ofBytes (s.pu.shadow.bytes w.offset 4))) s)
      (s.onPu fun p => { p with shadow := p.shadow.writeAll (64 * (off / 64)) bytes }))
    (fun h v => (not_congr (same .part v)).mpr (notPart ((mem_recordsEndingIn_iff ..).mp h) v))
    fun h ⟨v, armed⟩ => by
      rw [rails]
      exact on ((mem_recordsEndingIn_iff ..).mp h) ⟨v, (same .power v).mp armed⟩
  exact ⟨submitted.mem.trans carries.mem, submitted.shadow.trans carries.shadow,
    fun r old op => submitted.requests r (carries.requests r old op) op,
    fun k h v armed => submitted.armed k h v ((same k v).mpr armed),
    fun k h => (carries.stays k).trans (submitted.others k fun here v => (not_congr (same k v)).mpr (h here v))⟩

/-- A write that covers no live word and arms no record merges alone. -/
theorem planWrite_of_quiet {off : Nat} {bytes : List (Nat × Byte)} {s : State}
    (words : ∀ w ∈ liveWordsIn (off / 64), w.coveredBy bytes = false)
    (records : ∀ k ∈ recordsEndingIn (off / 64), ∀ v, ¬ s.armedBy bytes k v) :
    planWrite off bytes s = s.onPu fun p => { p with shadow := p.shadow.writeAll (64 * (off / 64)) bytes } := by
  have none : (liveWordsIn (off / 64)).filter (LiveWord.coveredBy bytes) = [] := by
    rw [List.filter_eq_nil_iff]
    intro w hw
    rw [words w hw]
    exact Bool.false_ne_true
  simp only [planWrite, none, List.foldl_nil]
  refine List.foldlRecOn (recordsEndingIn (off / 64)) (submitIfArmed bytes)
    (motive := fun t => t = s.onPu fun p => { p with shadow := p.shadow.writeAll (64 * (off / 64)) bytes }) rfl ?_
  rintro t rfl k hk
  exact submitIfArmed_of_not fun v armed => records k hk v armed

end Sys2Proof.Machine
end

section
/-!
PROOFS. Every arm is judged (R171 to R173).
-/
namespace Sys2Proof.Machine

/-- OPEN or RELEASE that the port takes. -/
theorem hostArrive_command_taking {s : State} (taking : s.taking) (n : Fin 6) (command : Byte) (seq : U32) :
    hostArrive (commandTx n command seq s) s = submitIfArmed (commandBytes n command seq)
      (s.recordWritten (.surface n) (commandBytes n command seq)) (.surface n) := by
  have hlt := seqOffset_lt (.surface n)
  have hb := enabledBytes_lineData (fun p hp => commandBytes_lt (n := n) (command := command) (seq := seq) hp)
    (commandBytes_pairwise n command seq)
  have ha := arm_line s (RecordKind.surface n).seqOffset hlt
  have hl : (BitVec.ofNat 25 ((s.planBase + (RecordKind.surface n).seqOffset) / 64)).toNat =
      (s.planBase + (RecordKind.surface n).seqOffset) / 64 := by
    have := planBase_aligned s.pu.sel
    simp only [State.planBase] at *
    omega
  rw [hostArrive_of_taking taking]
  simp only [commandTx, takeTx, takeWrite, hb, ha]
  rw [classify_record s (show (RecordKind.surface n).seqOffset / 64 * 64 < 0x1000 by omega)]
  simp only
  rw [planWrite_command, hl]
  rfl

/-- The line write of a record arm that the port takes: its bytes are merged, and the record is submitted if its sequence
is new (log 12). -/
theorem exec_arm {c : Instr} {k : RecordKind} {seq : U32} {s : State} (names : armsOf c = some (k, seq))
    (taking : s.taking) : exec c s = .next (submitIfArmed (armWrite c) (s.recordWritten k (armWrite c)) k) ∧
      k.finalWord (armWrite c) = some seq ∧ (armWrite c).Pairwise (fun p q => p.1 < q.1) ∧ ∀ p ∈ armWrite c, p.1 < 64 := by
  have byFields (k : RecordKind) (fields : List Byte) (seq : U32) (run : exec c s = .next (armRecord k fields seq s))
      (bytes : armWrite c = armBytes k fields seq) :
      exec c s = .next (submitIfArmed (armWrite c) (s.recordWritten k (armWrite c)) k) ∧
      k.finalWord (armWrite c) = some seq ∧ (armWrite c).Pairwise (fun p q => p.1 < q.1) ∧ ∀ p ∈ armWrite c, p.1 < 64 := by
    rw [bytes]
    exact ⟨run.trans (congrArg Host.Outcome.next (armRecord_of_taking taking k fields seq)), arm_finalWord ..,
      armBytes_pairwise .., fun p hp => armBytes_lt hp⟩
  have byCommand (n : Fin 6) (command : Byte) (seq : U32)
      (run : exec c s = .next (hostArrive (commandTx n command seq s) s)) (bytes : armWrite c = commandBytes n command seq) :
      exec c s = .next (submitIfArmed (armWrite c) (s.recordWritten (.surface n) (armWrite c)) (.surface n)) ∧
      (RecordKind.surface n).finalWord (armWrite c) = some seq ∧ (armWrite c).Pairwise (fun p q => p.1 < q.1) ∧
      ∀ p ∈ armWrite c, p.1 < 64 := by
    rw [bytes]
    exact ⟨run.trans (congrArg Host.Outcome.next (hostArrive_command_taking taking n command seq)), command_finalWord ..,
      commandBytes_pairwise .., fun p hp => commandBytes_lt hp⟩
  cases c <;> simp only [armsOf, Option.some.injEq, Prod.mk.injEq, reduceCtorEq] at names <;> obtain ⟨rfl, rfl⟩ := names
  case surfaceOpen n seq => exact byCommand n 1 seq rfl rfl
  case surfaceRelease n seq => exact byCommand n 2 seq rfl rfl
  all_goals exact byFields _ _ _ rfl rfl

/-! ### The part record -/

theorem mem_softReset_of_mem {seq : U32} {s : State} {r : Request} (h : r ∈ s.da.all) (hr : r.op ≠ .write []) :
    r ∈ (softReset seq s).da.all := by
  rw [softReset_eq]
  exact mem_issueImage_of_mem (s := s.softened seq) h hr

/-- The part record's judgement leaves the sequence of its own arm, and the requests that stand. -/
theorem judgePart_effect (b : List Byte) (s : State) :
    ((judgePart b s).2.entry .part).lastSeen = (s.entry .part).lastSeen ∧
    ∀ r ∈ s.da.all, r.op ≠ .write [] → r ∈ (judgePart b s).2.da.all := by
  have kept : (s.entry .part).lastSeen = (s.entry .part).lastSeen ∧ ∀ r ∈ s.da.all, r.op ≠ .write [] → r ∈ s.da.all :=
    ⟨rfl, fun _ h _ => h⟩
  unfold judgePart
  split
  · exact kept
  · exact kept
  split
  · exact kept
  · exact ⟨softReset_entry_part .., fun r h op => mem_softReset_of_mem h op⟩

theorem submit_part (seq : U32) (s : State) :
    ((submit .part seq s).entry .part).lastSeen = seq ∧ ((submit .part seq s).entry .part).outcome ≠ .none ∧
    ∀ r ∈ s.da.all, r.op ≠ .write [] → r ∈ (submit .part seq s).da.all := by
  rw [submit_eq]
  have noted : ((s.onPu (Pu.noteArm .part seq)).entry .part).lastSeen = seq := by simp [State.entry, Pu.noteArm]
  have effect := judgePart_effect ((s.onPu (Pu.noteArm .part seq)).snapshot .part) (s.onPu (Pu.noteArm .part seq))
  have given := judge_fst .part ((s.onPu (Pu.noteArm .part seq)).snapshot .part) (s.onPu (Pu.noteArm .part seq))
  have which : judge .part ((s.onPu (Pu.noteArm .part seq)).snapshot .part) (s.onPu (Pu.noteArm .part seq)) =
    judgePart ((s.onPu (Pu.noteArm .part seq)).snapshot .part) (s.onPu (Pu.noteArm .part seq)) := rfl
  rw [which] at given ⊢
  generalize judgePart ((s.onPu (Pu.noteArm .part seq)).snapshot .part) (s.onPu (Pu.noteArm .part seq)) = answer at *
  obtain ⟨o, r⟩ := answer
  have drains := drain_delivers (r.onPu (Pu.enter .part o))
  have stays := drains.stays .part
  rw [enter_entry] at stays
  exact ⟨stays.1.trans (effect.1.trans noted), stays.2 given,
    fun q old op => drains.carries.requests q (effect.2 q old op) op⟩

/-! ### The arms -/

/-- Settles O27: the line write stands and is merged; a new sequence brings the submission, an old one nothing. -/
theorem everyArmIsJudged : Obligations.EveryArmIsJudged := by
  intro c k seq s names taking bytes requested merged
  obtain ⟨run, word, rising, inside⟩ := exec_arm names taking
  have some' : bytes ≠ [] := by
    intro empty
    rw [show armWrite c = [] from empty] at word
    cases word
  have made : requested (s.recordWritten k bytes) :=
    mem_request .hostWrite _ _ s fun empty => some' (ReqOp.write.inj empty)
  have merges : merged (s.recordWritten k bytes) := by
    intro i
    have read := Mem.read_writeAll_line s.pu.shadow (k.seqOffset / 64) (nodup_of_rising rising) inside i
    simpa [State.recordWritten] using read
  have entry : (s.recordWritten k bytes).entry k = s.entry k := State.recordWritten_entry ..
  have kept {t : State} (requests : ∀ r ∈ (s.recordWritten k bytes).da.all, r.op ≠ .write [] → r ∈ t.da.all) :
      requested t := requests _ made fun empty => some' (ReqOp.write.inj empty)
  constructor
  · intro new on
    rw [submitIfArmed_of_new word (by rwa [entry])] at run
    by_cases part : k = .part
    · subst part
      obtain ⟨seen, judged, requests⟩ := submit_part seq (s.recordWritten .part bytes)
      exact ⟨_, run, seen, judged, kept requests, fun h => absurd rfl h⟩
    · have pwc : (s.recordWritten k bytes).pwc = s.pwc := by simp [State.recordWritten]
      have submits := submit_submits part seq (s := s.recordWritten k bytes) fun power => by rw [pwc]; exact on power
      refine ⟨_, run, submits.seen, submits.judged, kept submits.requests, fun _ i => ?_⟩
      rw [submits.shadow]
      exact merges i
  · intro old
    have quiet : submitIfArmed (armWrite c) (s.recordWritten k (armWrite c)) k = s.recordWritten k (armWrite c) :=
      submitIfArmed_of_not fun v armed => armed.2 (by rw [entry, ← old]; exact Option.some.inj (armed.1.symm.trans word))
    rw [quiet] at run
    refine ⟨_, run, ?_, made, merges, ?_⟩
    · rw [State.recordWritten, request_eq]
      rfl
    · simp [State.recordWritten]

end Sys2Proof.Machine
end

section
/-!
PROOFS. Host writes by class (R154 to R159, R170, R171).
-/
namespace Sys2Proof.Machine

/-! ### The enabled bytes of a line -/

theorem mem_enabledBytes {data : BitVec 512} {enables : BitVec 64} {i : Nat} {b : Byte} :
    (i, b) ∈ enabledBytes data enables ↔ i < 64 ∧ enables.getLsbD i = true ∧ b = data.extractLsb' (8 * i) 8 := by
  simp only [enabledBytes, List.mem_filterMap, List.mem_range, Option.ite_none_right_eq_some, Option.some.injEq,
    Prod.mk.injEq]
  constructor
  · rintro ⟨_, small, enabled, rfl, rfl⟩
    exact ⟨small, enabled, rfl⟩
  · rintro ⟨small, enabled, rfl⟩
    exact ⟨i, small, enabled, rfl, rfl⟩

theorem enabledBytes_rising (data : BitVec 512) (enables : BitVec 64) :
    (enabledBytes data enables).Pairwise fun p q => p.1 < q.1 := by
  refine List.Pairwise.filterMap _ (fun a a' lt b hb b' hb' => ?_) List.pairwise_lt_range
  rw [Option.ite_none_right_eq_some] at hb hb'
  obtain ⟨-, h⟩ := hb
  obtain ⟨-, h'⟩ := hb'
  rw [← Option.some.inj h, ← Option.some.inj h']
  exact lt

theorem enabledBytes_inside {data : BitVec 512} {enables : BitVec 64} {p : Nat × Byte}
    (h : p ∈ enabledBytes data enables) : p.1 < 64 := (mem_enabledBytes.mp h).1

theorem enabledBytes_lookup (data : BitVec 512) (enables : BitVec 64) {i : Nat} (h : i < 64) :
    (enabledBytes data enables).lookup i =
      if enables.getLsbD i = true then some (data.extractLsb' (8 * i) 8) else none := by
  cases found : (enabledBytes data enables).lookup i with
  | none =>
    rw [if_neg]
    intro enabled
    have absent := List.lookup_eq_none_iff.mp found _ (mem_enabledBytes.mpr ⟨h, enabled, rfl⟩)
    simp at absent
  | some b =>
    obtain ⟨before, after, split, -⟩ := List.lookup_eq_some_iff.mp found
    have here : (i, b) ∈ enabledBytes data enables := by simp [split]
    obtain ⟨-, enabled, value⟩ := mem_enabledBytes.mp here
    rw [if_pos enabled, value]

theorem enabledBytes_ne_nil {data : BitVec 512} {enables : BitVec 64} (h : enables ≠ 0) :
    enabledBytes data enables ≠ [] := by
  intro empty
  refine h (BitVec.eq_of_getLsbD_eq fun i hi => ?_)
  refine (Bool.eq_false_iff.mpr fun enabled => ?_).trans BitVec.getLsbD_zero.symm
  have here := (mem_enabledBytes (data := data)).mpr ⟨hi, enabled, rfl⟩
  rw [empty] at here
  cases here

/-- The merge of a line write into the shadow. -/
theorem read_enabledBytes (m : Mem) (line : Nat) (data : BitVec 512) (enables : BitVec 64) (i : Nat) :
    (m.writeAll (64 * line) (enabledBytes data enables)).read i =
      if i / 64 = line ∧ enables.getLsbD (i % 64) = true then data.extractLsb' (8 * (i % 64)) 8 else m.read i := by
  rw [Mem.read_writeAll_line _ _ (nodup_of_rising (enabledBytes_rising ..)) (fun _ => enabledBytes_inside),
    enabledBytes_lookup _ _ (by omega)]
  by_cases here : i / 64 = line <;> by_cases enabled : enables.getLsbD (i % 64) = true <;> simp [here, enabled]

/-! ### The write that the port takes -/

theorem exec_hostWrite {s : State} (taking : s.taking) (line : HostLine) (data : BitVec 512) (enables : BitVec 64) :
    exec (.hostWrite line data enables) s = .next (takeWrite line.toNat (enabledBytes data enables) s) :=
  congrArg Host.Outcome.next (hostArrive_of_taking taking (.write line data enables))

section
variable {line : Nat} {bytes : List (Nat × Byte)} {s : State}

theorem takeWrite_of_record {off : Nat} (h : classify (64 * line) s = .record off) :
    takeWrite line bytes s = planWrite off bytes (request .hostWrite line (.write bytes) s) := by
  rw [takeWrite, h]

theorem takeWrite_of_planPlain (h : classify (64 * line) s = .planPlain) :
    takeWrite line bytes s = request .hostWrite line (.write bytes) s := by
  rw [takeWrite, h]

theorem takeWrite_of_plain (h : classify (64 * line) s = .plain) : takeWrite line bytes s = passWrite line bytes s := by
  rw [takeWrite, h]

theorem takeWrite_of_status {p : Nat} (h : classify (64 * line) s = .status p) :
    takeWrite line bytes s = s.onRm fun m => { m with statusDrops := m.statusDrops + 1 } := by
  rw [takeWrite, h]

theorem takeWrite_of_fresh {e : Fin 32} {n : Fin 4} (h : classify (64 * line) s = .fresh e n) :
    takeWrite line bytes s = countDrop e s := by
  rw [takeWrite, h]

theorem takeWrite_of_guarded {e : Fin 32} (h : classify (64 * line) s = .guarded e) :
    takeWrite line bytes s = memoryError .droppedWrite line .host (countDrop e s) := by
  rw [takeWrite, h]

theorem takeWrite_of_touch {n : Fin 4} (h : classify (64 * line) s = .touch n) :
    takeWrite line bytes s = drain (passWrite line bytes (pulse ⟨20 + n.val, by omega⟩ s)) := by
  rw [takeWrite, h]

theorem takeWrite_of_frame {n : Fin 6} (h : classify (64 * line) s = .frame n) : takeWrite line bytes s =
    if 0x40000000 ≤ 64 * line then passWrite line bytes s
    else observedWrite n (64 * line) (passWrite line bytes s) := by
  rw [takeWrite, h]
  rfl

theorem passWrite_of_inside (h : 64 * line < 0x40000000) :
    passWrite line bytes s = request .hostWrite line (.write bytes) s := if_neg (Nat.not_le.mpr h)

theorem passWrite_of_outside (h : 0x40000000 ≤ 64 * line) : passWrite line bytes s =
    memoryError .outOfRange line .host (s.onRm fun m => { m with rangeDrops := m.rangeDrops + 1 }) := if_pos h

end

/-- The request of a write that enables a byte stands. -/
theorem request_stands (line : Nat) (data : BitVec 512) {enables : BitVec 64} (h : enables ≠ 0) (s : State) :
    ⟨.hostWrite, line, .write (enabledBytes data enables)⟩ ∈
      (request .hostWrite line (.write (enabledBytes data enables)) s).da.all :=
  mem_request .hostWrite line _ s fun empty => enabledBytes_ne_nil h (ReqOp.write.inj empty)

/-- An error of a write is captured as the newest, counted, and raised (R166). -/
theorem memoryError_effect (k : CaptureKind) (line : Nat) (c : ReqClass) (s : State) :
    let t := memoryError k line c s
    t.da.requests = s.da.requests ∧ t.da.captures.getLast? = some ⟨k, BitVec.ofNat 32 (64 * line), c, s.tb.now⟩ ∧
    t.da.captureTotal = s.da.captureTotal + 1 ∧ t.pendingEvent .memoryError = true := by
  obtain ⟨requests, -, total, last⟩ := capture_da k (64 * line) c s
  exact ⟨requests, last, total, raise_pendingEvent ..⟩

/-! ### The record area -/

section
variable {line : HostLine} {data : BitVec 512} {enables : BitVec 64} {s : State} {off : Nat}

/-- What every write of a record line brings: the request, and the merge into the shadow. -/
def State.Merges (line : Nat) (off : Nat) (data : BitVec 512) (enables : BitVec 64) (s t : State) : Prop :=
  t.mem = s.mem ∧ (enables ≠ 0 → ⟨.hostWrite, line, .write (enabledBytes data enables)⟩ ∈ t.da.all) ∧
  ∀ i, t.pu.shadow.read i =
    if i / 64 = off / 64 ∧ enables.getLsbD (i % 64) = true then data.extractLsb' (8 * (i % 64)) 8
    else s.pu.shadow.read i

/-- The line's request made and its bytes merged. -/
def State.lineMerged (line off : Nat) (bytes : List (Nat × Byte)) (s : State) : State :=
  (request .hostWrite line (.write bytes) s).onPu fun p =>
    { p with shadow := p.shadow.writeAll (64 * (off / 64)) bytes }

theorem State.lineMerged_entry (line off : Nat) (bytes : List (Nat × Byte)) (s : State) (k : RecordKind) :
    (s.lineMerged line off bytes).entry k = s.entry k := by
  simp [State.lineMerged, State.entry]

theorem State.lineMerged_merges (line off : Nat) (data : BitVec 512) (enables : BitVec 64) (s : State) :
    s.Merges line off data enables (s.lineMerged line off (enabledBytes data enables)) := by
  refine ⟨by simp [State.lineMerged], fun h => request_stands line data h s, fun i => ?_⟩
  rw [← read_enabledBytes]
  simp [State.lineMerged]

theorem hostWrite_record (taking : s.taking) (h : classify (64 * line.toNat) s = .record off) :
    let bytes := enabledBytes data enables
    let armed (k : RecordKind) (v : U32) : Prop := k.seqOffset / 64 = off / 64 ∧ s.armedBy bytes k v
    ((∀ v, ¬ armed .part v) → ((∃ v, armed .power v) → s.pwc.enables.host = true) →
      ∃ t, exec (.hostWrite line data enables) s = .next t ∧ s.Merges line.toNat off data enables t ∧
        (∀ k v, armed k v → (t.entry k).lastSeen = v ∧ (t.entry k).outcome ≠ .none) ∧
        (∀ k, (∀ v, ¬ armed k v) → (t.entry k).lastSeen = (s.entry k).lastSeen)) := by
  intro bytes armed notPart on
  have run := exec_hostWrite taking line data enables
  rw [takeWrite_of_record h] at run
  have same (k : RecordKind) : ∀ v, (request .hostWrite line.toNat (.write bytes) s).armedBy bytes k v ↔
      s.armedBy bytes k v := fun v => State.armedBy_iff (.of_eq (by simp [State.entry])) bytes v
  have again (k : RecordKind) : ∀ v, (s.lineMerged line.toNat off bytes).armedBy bytes k v ↔ s.armedBy bytes k v :=
    fun v => State.armedBy_iff (.of_eq (s.lineMerged_entry ..)) bytes v
  have submitted : (s.lineMerged line.toNat off bytes).Submitted bytes (recordsEndingIn (off / 64))
      (planWrite off bytes (request .hostWrite line.toNat (.write bytes) s)) :=
    planWrite_submitted (fun here v => (not_congr (same .part v)).mpr fun arms => notPart v ⟨here, arms⟩)
      fun here ⟨v, arms⟩ => by
        rw [(request_keeps ..).2.2.2.2.2.2.2.2.2.2.2.2.2.1]
        exact on ⟨v, here, (same .power v).mp arms⟩
  obtain ⟨mem, stands, shadow⟩ := s.lineMerged_merges line.toNat off data enables
  refine ⟨_, run, ⟨submitted.mem.trans mem, fun h => submitted.requests _ (stands h) fun empty =>
    enabledBytes_ne_nil h (ReqOp.write.inj empty), fun i => ?_⟩, fun k v arms => ?_, fun k quiet => ?_⟩
  · rw [submitted.shadow]
    exact shadow i
  · exact submitted.armed k ((mem_recordsEndingIn_iff ..).mpr arms.1) v ((again k v).mpr arms.2)
  · have stays := submitted.others k fun here v =>
      (not_congr (again k v)).mpr fun arms => quiet v ⟨(mem_recordsEndingIn_iff ..).mp here, arms⟩
    rw [stays.1, s.lineMerged_entry]

theorem hostWrite_record_quiet (taking : s.taking) (h : classify (64 * line.toNat) s = .record off)
    (records : ∀ k v, ¬ (k.seqOffset / 64 = off / 64 ∧ s.armedBy (enabledBytes data enables) k v))
    (words : ∀ w : LiveWord, ¬ (w.offset / 64 = off / 64 ∧ w.coveredBy (enabledBytes data enables) = true)) :
    ∃ t, exec (.hostWrite line data enables) s = .next t ∧ s.Merges line.toNat off data enables t ∧
      t = { s with da := t.da, pu := { s.pu with shadow := t.pu.shadow } } ∧ t.da.captures = s.da.captures := by
  have run := exec_hostWrite taking line data enables
  rw [takeWrite_of_record h, planWrite_of_quiet
    (fun w here => Bool.eq_false_iff.mpr fun covered => words w ⟨by simpa [liveWordsIn] using (List.mem_filter.mp here).2, covered⟩)
    (fun k here v arms => records k v ⟨(mem_recordsEndingIn_iff ..).mp here,
      (State.armedBy_iff (.of_eq (by simp [State.entry])) _ v).mp arms⟩)] at run
  refine ⟨_, run, s.lineMerged_merges line.toNat off data enables, ?_, by simp⟩
  rw [request_eq]
  rfl

end

/-! ### Frame lines (R5, R6) -/

section
variable {n : Fin 6} {addr : Nat} {s : State}

/-- A frame line that the surface's scoreboard looks at. -/
def State.touches (s : State) (n : Fin 6) (addr : Nat) (c : SurfaceConfig) : Prop :=
  (s.st.surface n).config = some c ∧ c.owner = .host ∧ (s.st.surface n).state ≠ .free ∧
  c.base ≤ addr ∧ (addr - c.base) / c.pitch < c.height ∧ (addr - c.base) % c.pitch < c.rowBytes

theorem observedWrite_of_aside (h : ∀ c, ¬ s.touches n addr c) : observedWrite n addr s = s := by
  rw [observedWrite]
  cases config : (s.st.surface n).config with
  | none => rfl
  | some c =>
    dsimp only
    by_cases outside : addr < c.base ∨ c.height ≤ (addr - c.base) / c.pitch ∨ c.rowBytes ≤ (addr - c.base) % c.pitch
    · exact if_pos outside
    · refine (if_neg outside).trans (if_pos ?_)
      refine Classical.byContradiction fun both => ?_
      rw [not_or] at both outside
      rw [not_or] at outside
      refine h c ⟨config, ?_, both.1, Nat.not_lt.mp outside.1, Nat.not_le.mp outside.2.1, Nat.not_le.mp outside.2.2⟩
      cases owner : c.owner
      · rfl
      · exact absurd owner both.2

theorem onBand_eq_set {l : List Band} {k : Nat} {b : Band} (h : l[k]? = some b) (f : Band → Band) :
    onBand k f l = l.set k (f b) := by
  obtain ⟨small, rfl⟩ := List.getElem?_eq_some_iff.mp h
  have : Inhabited Band := ⟨l[k]⟩
  rw [onBand, List.modify_eq_set, List.getElem?_eq_getElem small]
  rfl

theorem Band.finish_effect (b : Band) : b.finish.scanned = b.scanned ∧ b.finish.substituted = b.substituted ∧
    b.finish.complete = true ∧
    (b.finish.late = true ↔ b.late = true ∨ (b.complete = false ∧ b.scanned = true)) := by
  unfold Band.finish
  cases complete : b.complete <;> simp [complete]

/-- The band of an observed write: COMPLETE at its final line, and late where it was shown before. -/
def Band.observed (final shown : Bool) (b : Band) : Band :=
  let b := if final then b.finish else b
  if shown then { b with late := true } else b

theorem Band.observed_effect (final shown : Bool) (b : Band) :
    (b.observed final shown).scanned = b.scanned ∧ (b.observed final shown).substituted = b.substituted ∧
    ((b.observed final shown).complete = true ↔ b.complete = true ∨ final = true) ∧
    ((b.observed final shown).late = true ↔
      b.late = true ∨ shown = true ∨ (final = true ∧ b.complete = false ∧ b.scanned = true)) := by
  obtain ⟨scanned, substituted, complete, late⟩ := b.finish_effect
  unfold Band.observed
  cases final <;> cases shown <;> simp [scanned, substituted, complete, late]

theorem St.onSurface_twice (n : Fin 6) (f g : Surface → Surface) (t : St) :
    (t.onSurface n f).onSurface n g = { t with surfaces := vset t.surfaces n (g (f (t.surface n))) } := by
  rw [St.onSurface, St.onSurface]
  congr 1
  refine vector_ext fun i => ?_
  by_cases same : n = i
  · subst same
    simp [St.surface]
  · rw [vget_vmod_ne _ _ same, vget_vmod_ne _ _ same, vget_vset_ne _ _ same]

theorem observedWrite_of_touches {c : SurfaceConfig} (h : s.touches n addr c) {b : Band}
    (band : (s.st.surface n).bands[(addr - c.base) / c.pitch / c.bandRows]? = some b) :
    let k := (addr - c.base) / c.pitch / c.bandRows
    let final : Bool := c.mode == .ordered && addr == c.finalLine k
    let shown : Bool := (s.st.surface n).state == .current && b.scanned
    let t := observedWrite n addr s
    t.st = { s.st with
      surfaces := vset s.st.surfaces n
        { s.st.surface n with bands := (s.st.surface n).bands.set k (b.observed final shown) } } ∧
    (shown = true → t.pendingEvent .lateWrite = true) ∧ (shown = false → t.eu = s.eu) := by
  intro k final shown t
  obtain ⟨config, owner, used, low, row, column⟩ := h
  have scanned : ((s.st.surface n).bands.getD k Band.empty).scanned = b.scanned := by
    rw [List.getD_eq_getElem?_getD, band, Option.getD_some]
  have run : t = if (s.st.surface n).state = .current ∧ b.scanned = true then
      raise .lateWrite ((s.onSt (St.onSurface n fun f =>
        { f with bands := if final then onBand k Band.finish f.bands else f.bands })).onSt (St.onSurface n fun f =>
          { f with bands := onBand k (fun b => { b with late := true }) f.bands }))
      else s.onSt (St.onSurface n fun f =>
        { f with bands := if final then onBand k Band.finish f.bands else f.bands }) := by
    rw [← scanned]
    simp only [t, observedWrite, config]
    rw [if_neg (by omega), if_neg (by simp [used, owner])]
  have finished : (if final then onBand k Band.finish (s.st.surface n).bands else (s.st.surface n).bands) =
      (s.st.surface n).bands.set k (if final then b.finish else b) := by
    split
    · exact onBand_eq_set band _
    · obtain ⟨small, value⟩ := List.getElem?_eq_some_iff.mp band
      rw [← value, List.set_getElem_self]
  by_cases late : (s.st.surface n).state = .current ∧ b.scanned = true
  · have yes : shown = true := by simp [shown, late]
    rw [if_pos late] at run
    rw [run]
    refine ⟨?_, fun _ => raise_pendingEvent .., fun no => absurd (no.symm.trans yes) Bool.false_ne_true⟩
    have small : k < (s.st.surface n).bands.length := (List.getElem?_eq_some_iff.mp band).1
    rw [(raise_keeps ..).2.2.2.2.2.2.2.1, State.onSt_st, State.onSt_st, St.onSurface_twice, finished,
      onBand_eq_set (List.getElem?_set_self small), List.set_set, Band.observed, yes]
    rfl
  · have no : shown = false := by simpa [shown] using late
    rw [if_neg late] at run
    rw [run]
    refine ⟨?_, fun yes => absurd (no.symm.trans yes) Bool.false_ne_true, fun _ => rfl⟩
    rw [Band.observed, no, if_neg Bool.false_ne_true, ← finished]
    rfl

end

end Sys2Proof.Machine
end

section
/-!
PROOFS. What every host write does (R154 to R159).
-/
namespace Sys2Proof.Machine

/-- The drop of a write is counted at region entry `e`, and at no other counter (R156). -/
theorem countDrop_counts (e : Fin 32) (s : State) :
    let t := countDrop e s
    vget t.rm.regions e = { vget s.rm.regions e with drops := (vget s.rm.regions e).drops + 1 } ∧
    (∀ m, m ≠ e → vget t.rm.regions m = vget s.rm.regions m) ∧
    t.rm.statusDrops = s.rm.statusDrops ∧ t.rm.rangeDrops = s.rm.rangeDrops :=
  ⟨vget_vmod_same .., fun _ other => vget_vmod_ne _ _ other.symm, rfl, rfl⟩

/-- Settles O18, by the class of the line. -/
theorem hostWrites : Obligations.HostWrites := by
  intro line data enables s taking a bytes countedAt
  have run := exec_hostWrite taking line data enables
  have stands := fun h => request_stands line.toNat data (enables := enables) h s
  refine ⟨fun off h => ⟨hostWrite_record taking h, hostWrite_record_quiet taking h⟩, fun h inside => ?_,
    fun n h inside => ⟨fun aside => ?_, fun c b touches => ?_⟩, fun h outside => ?_, fun p h => ?_, fun e n h => ?_,
    fun e h => ?_, fun n h inside => ?_, fun n h outside => ?_⟩
  · have made : takeWrite line.toNat bytes s = request .hostWrite line.toNat (.write bytes) s := by
      rcases h with h | h
      · rw [takeWrite_of_plain h, passWrite_of_inside inside]
      · exact takeWrite_of_planPlain h
    rw [made] at run
    exact ⟨_, run, by simp, by simp, by simp, by simp, stands⟩
  · rw [takeWrite_of_frame h, if_neg (show ¬ 0x40000000 ≤ 64 * line.toNat from Nat.not_le.mpr inside),
      passWrite_of_inside inside, observedWrite_of_aside] at run
    · exact ⟨_, run, ⟨by simp, by simp, by simp, stands⟩, by simp, by simp⟩
    · simpa [State.touches] using aside
  · intro k band final shownLate
    have same : (request .hostWrite line.toNat (.write bytes) s).st = s.st := by simp
    have touched : (request .hostWrite line.toNat (.write bytes) s).touches n a c := by
      rw [State.touches, same]
      exact touches
    obtain ⟨st, late, quiet⟩ := observedWrite_of_touches touched (b := b) (by rw [same]; exact band)
    rw [takeWrite_of_frame h, if_neg (show ¬ 0x40000000 ≤ 64 * line.toNat from Nat.not_le.mpr inside),
      passWrite_of_inside inside] at run
    rw [same] at st late quiet
    obtain ⟨scanned, substituted, complete, lateness⟩ :=
      b.observed_effect (c.mode == .ordered && a == c.finalLine k) ((s.st.surface n).state == .current && b.scanned)
    have shown : ((s.st.surface n).state == .current && b.scanned) = true ↔ shownLate := by simp [shownLate]
    have ends : (c.mode == .ordered && a == c.finalLine k) = true ↔ final := by simp [final]
    rw [ends] at complete
    rw [ends, shown] at lateness
    refine ⟨_, _, run, ⟨by simp, by simp, by simp, by simpa using stands⟩, st, scanned, substituted, complete, ?_,
      fun h => late (shown.mpr h), fun h => (quiet (Bool.eq_false_iff.mpr fun yes => h (shown.mp yes))).trans (by simp)⟩
    exact lateness
  · have made : takeWrite line.toNat bytes s =
        memoryError .outOfRange line.toNat .host (s.onRm fun m => { m with rangeDrops := m.rangeDrops + 1 }) := by
      rcases h with h | ⟨n, h⟩
      · rw [takeWrite_of_plain h, passWrite_of_outside outside]
      · rw [takeWrite_of_frame h, if_pos (show 0x40000000 ≤ 64 * line.toNat from outside), passWrite_of_outside outside]
    rw [made] at run
    obtain ⟨requests, last, total, raised⟩ := memoryError_effect .outOfRange line.toNat .host
      (s.onRm fun m => { m with rangeDrops := m.rangeDrops + 1 })
    exact ⟨_, run, by simp, by simp, by simp, requests, last, total, raised⟩
  · rw [takeWrite_of_status h] at run
    exact run
  · rw [takeWrite_of_fresh h] at run
    exact ⟨_, run, rfl, rfl, rfl, countDrop_counts e s⟩
  · rw [takeWrite_of_guarded h] at run
    obtain ⟨requests, last, total, raised⟩ := memoryError_effect .droppedWrite line.toNat .host (countDrop e s)
    refine ⟨_, run, requests, by simp [countDrop], ?_, last, total, raised⟩
    simp only [countedAt, memoryError_keeps]
    exact countDrop_counts e s
  · rw [takeWrite_of_touch h, passWrite_of_inside inside] at run
    exact ⟨_, run, by simp, by simp, by simp, fun h => request_stands line.toNat data h _⟩
  · rw [takeWrite_of_touch h, passWrite_of_outside outside] at run
    obtain ⟨requests, last, total, raised⟩ := memoryError_effect .outOfRange line.toNat .host
      ((pulse ⟨20 + n.val, by omega⟩ s).onRm fun m => { m with rangeDrops := m.rangeDrops + 1 })
    exact ⟨_, run, by simp, by simp, requests, by simp, last, total, raised⟩

end Sys2Proof.Machine
end

section
/-!
PROOFS. Writes in the memory (R160, R163), and the errors that a line read finds (R164 to R166).
-/
namespace Sys2Proof.Machine

/-- Refutes O22: in a state whose request in service enables a byte beyond its line, the completion changes memory outside
of that line. -/
theorem not_writesReachTheMemory : ¬ Obligations.WritesReachTheMemory := by
  intro h
  have service : straddling.da.service = some ⟨.hostWrite, 0, .write [(64, 1)]⟩ := rfl
  obtain ⟨elsewhere, -⟩ := h (.hostWriteComplete []) _ straddling
    (finishService ⟨.hostWrite, 0, .write [(64, 1)]⟩ [] straddling) service rfl (.inr ⟨rfl, rfl⟩) rfl
  have kept := elsewhere 64 (by decide)
  have landed : (finishService ⟨.hostWrite, 0, .write [(64, 1)]⟩ [] straddling).mem.read 64 = 1 := by decide +kernel
  rw [landed] at kept
  exact absurd kept (by decide +kernel)

/-! ### The flaws of a line read (R164, R165) -/

theorem queueScrub_listed {line : Nat} {d : Da} (h : line ∈ d.scrubs) : d.queueScrub line = d := by
  simp [Da.queueScrub, h]

theorem queueScrub_room {line : Nat} {d : Da} (new : line ∉ d.scrubs) (room : d.scrubs.length < 8) :
    d.queueScrub line = { d with scrubs := d.scrubs ++ [line] }.join ⟨.scrub, line, .scrub⟩ := by
  simp [Da.queueScrub, new, room]

theorem queueScrub_full {line : Nat} {d : Da} (new : line ∉ d.scrubs) (full : 8 ≤ d.scrubs.length) :
    d.queueScrub line = { d with scrubMissed := d.scrubMissed + 1 } := by
  simp [Da.queueScrub, new, Nat.not_lt.mpr full]

theorem queueScrub_corrected (line : Nat) (d : Da) : (d.queueScrub line).corrected = d.corrected := by
  unfold Da.queueScrub
  repeat' split
  all_goals rfl

/-- The newest of a list that was not too long: the oldest leaves a full list. -/
theorem newest_concat {α : Type} {n : Nat} {l : List α} (pos : 0 < n) (h : l.length ≤ n) (x : α) :
    newest n (l ++ [x]) = (if l.length = n then l.drop 1 else l) ++ [x] := by
  rw [newest, List.length_append, List.length_singleton]
  split
  next full =>
    rw [full, Nat.add_sub_cancel_left]
    cases l with
    | nil =>
      rw [List.length_nil] at full
      omega
    | cons a r => simp
  next short =>
    rw [show l.length + 1 - n = 0 by omega]
    rfl

/-- Settles O25, by whether the line is listed for a scrub. -/
theorem errorsOfALineRead : Obligations.ErrorsOfALineRead := by
  intro line kind addr agent s found n t x
  let d : Da := { s.da with corrected := s.da.corrected + BitVec.ofNat 32 n }
  have da : t.da = if n = 0 then { s.da with corrected := s.da.corrected + BitVec.ofNat 32 n }
      else { s.da with corrected := s.da.corrected + BitVec.ofNat 32 n }.queueScrub line := rfl
  refine ⟨rfl, rfl, ?_, fun none => ?_, fun some new room => ?_, fun some listed => ?_, fun some new full => ?_, rfl, rfl,
    fun fits => newest_concat (by decide) fits _⟩
  · rw [da]
    split
    · rfl
    · exact queueScrub_corrected ..
  · rw [da, if_pos none]
  · rw [da, if_neg (by omega), queueScrub_room (d := d) new room]
    exact ⟨rfl, rfl⟩
  · rw [da, if_neg (by omega), queueScrub_listed (d := d) listed]
    exact ⟨rfl, rfl⟩
  · rw [da, if_neg (by omega), queueScrub_full (d := d) new full]
    exact ⟨rfl, rfl⟩

end Sys2Proof.Machine
end

section
/-!
PROOFS. Live words of the audio rings and of the fences (R7, R106, R107, R170, R174).
-/
namespace Sys2Proof.Machine

/-! ### The audio rings -/

theorem ring1Produce_of_valid {p : U32} {s : State}
    (h : ((vget s.au.rings 1).produce - (vget s.au.rings 1).consume).toNat ≤ (p - (vget s.au.rings 1).consume).toNat ∧
      (p - (vget s.au.rings 1).consume).toNat ≤ (vget s.au.rings 1).capacity) :
    ring1Produce p s =
      { s with au := { s.au with rings := vset s.au.rings 1 { vget s.au.rings 1 with produce := p } } } := if_pos h

theorem ring1Produce_of_beyond {p : U32} {s : State}
    (h : ¬ (((vget s.au.rings 1).produce - (vget s.au.rings 1).consume).toNat ≤
        (p - (vget s.au.rings 1).consume).toNat ∧
      (p - (vget s.au.rings 1).consume).toNat ≤ (vget s.au.rings 1).capacity)) :
    ring1Produce p s = badIndex (s.planBase + LiveWord.ring1Produce.offset) .host s := if_neg h

theorem ring2Consume_of_valid {c : U32} {s : State}
    (h : (c - (vget s.au.rings 2).consume).toNat ≤
      ((vget s.au.rings 2).produce - (vget s.au.rings 2).consume).toNat) :
    ring2Consume c s =
      { s with au := { s.au with rings := vset s.au.rings 2 { vget s.au.rings 2 with consume := c } } } := if_pos h

theorem ring2Consume_of_beyond {c : U32} {s : State}
    (h : ¬ (c - (vget s.au.rings 2).consume).toNat ≤
      ((vget s.au.rings 2).produce - (vget s.au.rings 2).consume).toNat) :
    ring2Consume c s = badIndex (s.planBase + LiveWord.ring2Consume.offset) .host s := if_neg h

theorem exec_audioRing1ProduceWrite (v : U32) (enables : BitVec 4) (s : State) :
    exec (.audioRing1ProduceWrite v enables) s = .next (liveWrite .ring1Produce v enables s) := rfl

theorem exec_audioRing2ConsumeWrite (v : U32) (enables : BitVec 4) (s : State) :
    exec (.audioRing2ConsumeWrite v enables) s = .next (liveWrite .ring2Consume v enables s) := rfl

/-- Settles O38: for each ring the write that enables no byte, then the value by whether it is valid. -/
theorem audioIndexWrites : Obligations.AudioIndexWrites := by
  intro v enables s taking refused idle put p r1 valid1 k r2 valid2
  refine ⟨fun none => ⟨⟨_, exec_audioRing1ProduceWrite v enables s, liveWrite_idles taking _ v none⟩,
      ⟨_, exec_audioRing2ConsumeWrite v enables s, liveWrite_idles taking _ v none⟩⟩,
    fun some => ⟨fun valid => ?_, fun beyond => ?_, fun valid => ?_, fun beyond => ?_⟩⟩
  · exact ⟨_, exec_audioRing1ProduceWrite v enables s,
      liveWrite_puts taking some
        (fun u => { u with au := { s.au with rings := vset s.au.rings 1 { r1 with produce := p } } })
        (fun _ => rfl) (fun _ => rfl) fun u => ring1Produce_of_valid (s := s.writtenAs u) valid⟩
  · exact ⟨_, exec_audioRing1ProduceWrite v enables s,
      liveWrite_refuses taking some fun u => ring1Produce_of_beyond (s := s.writtenAs u) beyond⟩
  · exact ⟨_, exec_audioRing2ConsumeWrite v enables s,
      liveWrite_puts taking some
        (fun u => { u with au := { s.au with rings := vset s.au.rings 2 { r2 with consume := k } } })
        (fun _ => rfl) (fun _ => rfl) fun u => ring2Consume_of_valid (s := s.writtenAs u) valid⟩
  · exact ⟨_, exec_audioRing2ConsumeWrite v enables s,
      liveWrite_refuses taking some fun u => ring2Consume_of_beyond (s := s.writtenAs u) beyond⟩

/-! ### The fences -/

/-- A fence value acts: it moves the fence of a surface of the host's that is in use and fenced (R7). -/
def Surface.Fences (f : Surface) (w : U32) : Prop :=
  f.state ≠ .free ∧ f.fence.toNat < w.toNat ∧ ∃ c, f.config = some c ∧ c.owner = .host ∧ c.mode = .fenced

/-- The surface with the fence at the value. -/
def Surface.fenced (f : Surface) (w : U32) : Surface :=
  { f with fence := w
           bands := finishBands (min w.toNat (f.config.map SurfaceConfig.bandCount |>.getD 0)) f.bands }

theorem fenceWrite_of_fences {n : Fin 6} {w : U32} {s : State} (h : (s.st.surface n).Fences w) :
    fenceWrite n w s =
      { s with st := { s.st with surfaces := vset s.st.surfaces n ((s.st.surface n).fenced w) } } := by
  obtain ⟨used, above, c, config, owner, mode⟩ := h
  have acts : c.owner = .host ∧ c.mode = .fenced ∧ (s.st.surface n).state ≠ .free ∧ (s.st.surface n).fence < w :=
    ⟨owner, mode, used, above⟩
  have moved : (s.st.surface n).fenced w = { s.st.surface n with
      fence := w, bands := finishBands (min w.toNat c.bandCount) (s.st.surface n).bands } := by
    simp [Surface.fenced, config]
  have made : fenceWrite n w s = s.onSt (St.onSurface n fun f =>
      { f with fence := w, bands := finishBands (min w.toNat c.bandCount) f.bands }) := by
    simp only [fenceWrite, config, if_pos acts]
  rw [made, moved]
  rfl

theorem fenceWrite_of_still {n : Fin 6} {w : U32} {s : State} (h : ¬ (s.st.surface n).Fences w) :
    fenceWrite n w s = s := by
  cases config : (s.st.surface n).config with
  | none => simp only [fenceWrite, config]
  | some c =>
    simp only [fenceWrite, config]
    exact if_neg fun ⟨owner, mode, used, above⟩ => h ⟨used, above, c, config, owner, mode⟩

theorem exec_fenceWordWrite (n : Fin 6) (v : U32) (enables : BitVec 4) (s : State) :
    exec (.fenceWordWrite n v enables) s = .next (liveWrite (.fence n) v enables s) := rfl

/-- A write whose owner lets the word stand. -/
theorem liveWrite_stands {s : State} (taking : s.taking) {w : LiveWord} {v : U32} {enables : BitVec 4}
    (h : enables ≠ 0 → ∀ u, liveAct w (s.liveValue w v enables) (s.writtenAs u) = s.writtenAs u) :
    s.mergesWord w v enables (liveWrite w v enables s) ∧
    liveWrite w v enables s = s.writtenAs (liveWrite w v enables s) ∧
    (liveWrite w v enables s).da.captures = s.da.captures := by
  by_cases none : enables = 0
  · obtain ⟨merges, same, -, captures⟩ := liveWrite_idles taking w v none
    exact ⟨merges, same, captures⟩
  · exact liveWrite_puts taking none id (fun _ => rfl) (fun _ => rfl) (h none)

theorem finishBands_length (k : Nat) (l : List Band) : (finishBands k l).length = l.length := by
  induction k generalizing l with
  | zero => rfl
  | succ k ih =>
    cases l with
    | nil => rfl
    | cons b r => simp [finishBands, ih]

theorem finishBands_bands (k : Nat) {l : List Band} {i : Nat} {b : Band} (h : l[i]? = some b) :
    (finishBands k l)[i]? = some (if i < k ∧ b.complete = false then
      { b with complete := true, late := b.late || b.scanned } else b) := by
  rw [finishBands_getElem?, h]
  by_cases below : i < k <;> cases complete : b.complete <;> simp [below, complete, Band.finish]

/-- Settles O39, by whether the value moves a fence. -/
theorem fenceWrites : Obligations.FenceWrites := by
  intro n v enables s taking f w acts
  refine ⟨fun still => ⟨_, exec_fenceWordWrite n v enables s, liveWrite_stands taking fun some u => ?_⟩, ?_⟩
  · exact fenceWrite_of_still (s := s.writtenAs u) fun moves => still ⟨some, moves⟩
  · rintro ⟨some, moves⟩
    obtain ⟨merges, made, captures⟩ := liveWrite_puts (w := .fence n) (v := v) taking some
      (fun u => { u with st := { s.st with surfaces := vset s.st.surfaces n (f.fenced w) } })
      (fun _ => rfl) (fun _ => rfl) fun u => fenceWrite_of_fences (s := s.writtenAs u) moves
    exact ⟨_, f.fenced w, exec_fenceWordWrite n v enables s, merges, made, captures, rfl, rfl, rfl,
      finishBands_length .., fun _ _ => finishBands_bands _⟩

end Sys2Proof.Machine
end

section
/-!
PROOFS. The sensor inputs, the beacon and follow timers (R52, R53, R125, R128, R130).
-/
namespace Sys2Proof.Machine

/-! ### Bits of an input -/

theorem getLsbD_raise {w : Nat} (x : BitVec w) (n : Fin w) (m : Nat) :
    (x ||| BitVec.twoPow w n.val).getLsbD m = if m = n.val then true else x.getLsbD m := by
  by_cases here : m = n.val
  · subst here
    simp [n.isLt]
  · simp [BitVec.getLsbD_twoPow, here, Ne.symm here]

theorem getLsbD_lower {w : Nat} (x : BitVec w) (n : Fin w) (m : Nat) :
    (x &&& ~~~BitVec.twoPow w n.val).getLsbD m = if m = n.val then false else x.getLsbD m := by
  by_cases here : m = n.val
  · subst here
    simp [n.isLt]
  · by_cases inside : m < w
    · simp [here, inside]
    · simp [here, BitVec.getLsbD_of_ge _ _ (Nat.le_of_not_lt inside)]

/-! ### Channels that become due (R53) -/

theorem sat8_eq (n : Byte) : sat8 n = if n = 255 then 255 else n + 1 := by
  by_cases full : n = 255#8 <;> simp [sat8, full]

/-- From `s` to `u` channel `n`, which stood as `c`, has become due. -/
def State.Dues (n : Fin 4) (c : Channel) (s u : State) : Prop :=
  (c.state ≠ .running → u.channel n = c ∧ u.tm.pulses = s.tm.pulses) ∧
  (c.state = .running → c.holder = none →
    u.channel n = { c with holder := some ⟨s.tb.now, s.so.frameNumber, 0⟩ } ∧
    u.tm.pulses = s.tm.pulses ++ [⟨9 + n.val, by omega⟩]) ∧
  (∀ h, c.state = .running → c.holder = some h →
    u.channel n = { c with holder := some { h with overrun := if h.overrun = 255 then 255 else h.overrun + 1 },
                           overruns := c.overruns + 1 } ∧
    u.tm.pulses = s.tm.pulses) ∧
  (∀ m, m ≠ n → u.channel m = s.channel m) ∧ u.sh.rings = s.sh.rings ∧ u.sh.slots = s.sh.slots

theorem State.channel_onChannel_ne {n m : Fin 4} (other : m ≠ n) (f : Channel → Channel) (s : State) :
    (s.onChannel n f).channel m = s.channel m := (s.onChannel_set n f).others m other

/-- Of the sensor hub at most the channel itself is changed. -/
theorem becomeDue_sh (n : Fin 4) (s : State) : ∃ f, (becomeDue n s).sh = (s.onChannel n f).sh := by
  by_cases running : (s.channel n).state = .running
  · cases holder : (s.channel n).holder with
    | none => exact ⟨fun c => { c with holder := some ⟨s.tb.now, s.so.frameNumber, 0⟩ }, by
        rw [becomeDue_of_free running holder]
        rfl⟩
    | some h => exact ⟨_, congrArg State.sh (becomeDue_of_held running holder)⟩
  · exact ⟨id, by simp [becomeDue_of_not_running running, State.onChannel, State.onSh, vmod]⟩

theorem becomeDue_dues (n : Fin 4) (s : State) : s.Dues n (s.channel n) (becomeDue n s) := by
  obtain ⟨f, hub⟩ := becomeDue_sh n s
  refine ⟨fun quiet => ?_, fun running empty => ?_, fun h running full => ?_, fun m other => ?_, ?_, ?_⟩
  · rw [becomeDue_of_not_running quiet]
    exact ⟨rfl, rfl⟩
  · rw [becomeDue_of_free running empty]
    exact ⟨s.channel_onChannel .., rfl⟩
  · rw [becomeDue_of_held running full, State.channel_onChannel, sat8_eq]
    exact ⟨rfl, rfl⟩
  · rw [State.channel, hub]
    exact s.channel_onChannel_ne other f
  all_goals
    rw [hub]
    rfl

/-- A channel that is changed beforehand. -/
theorem becomeDue_onChannel_dues (n : Fin 4) (f : Channel → Channel) (s : State) :
    s.Dues n (f (s.channel n)) (becomeDue n (s.onChannel n f)) := by
  obtain ⟨quiet, free, held, others, rings, slots⟩ := becomeDue_dues n (s.onChannel n f)
  rw [State.channel_onChannel] at quiet free held
  exact ⟨quiet, free, held, fun m other => (others m other).trans (s.channel_onChannel_ne other f), rings, slots⟩

theorem exec_sbDrdyRise {n : Fin 4} {s : State} (low : s.pins.drdy.getLsbD n.val = false) :
    exec (.sbDrdyRise n) s = .next (drain (drdyRises n s)) :=
  congrArg Host.Outcome.next (if_neg (Bool.eq_false_iff.mp low))

theorem exec_sensorIntervalExpiry {n : Fin 4} {s : State} (ends : (s.channel n).timer = some 0) :
    exec (.sensorIntervalExpiry n) s = .next (drain (intervalExpired n s)) :=
  congrArg Host.Outcome.next (if_pos (by simp [due, ends]))

theorem exec_beaconDelayExpiry {n : Fin 2} {s : State} (state : (vget s.tm.beacons n).state = .delay)
    (ends : (vget s.tm.beacons n).timer = some 0) :
    exec (.beaconDelayExpiry n) s = .next (drain (s.onBeacon n Beacon.enterPulse)) :=
  congrArg Host.Outcome.next (if_pos (by simp [State.beaconEnds, due, state, ends]))

theorem exec_beaconWidthExpiry {n : Fin 2} {s : State} (state : (vget s.tm.beacons n).state = .pulse)
    (ends : (vget s.tm.beacons n).timer = some 0) :
    exec (.beaconWidthExpiry n) s = .next (drain (s.onBeacon n Beacon.goIdle)) :=
  congrArg Host.Outcome.next (if_pos (by simp [State.beaconEnds, due, state, ends]))

/-- Settles O44, event by event. -/
theorem sensorAndBeaconEvents : Obligations.SensorAndBeaconEvents := by
  intro s becomesDue
  refine ⟨fun n low => ⟨_, exec_sbDrdyRise low, ?_⟩,
    fun n ends => ⟨_, exec_sensorIntervalExpiry ends,
      becomeDue_onChannel_dues n (fun c => { c with timer := some c.config.interval }) s⟩,
    fun pin level => ⟨_, rfl, rfl, ?_⟩,
    fun n => ⟨fun state ends => ⟨_, exec_beaconDelayExpiry state ends, rfl⟩,
      fun state ends => ⟨_, exec_beaconWidthExpiry state ends, rfl⟩⟩,
    fun n ends => congrArg Host.Outcome.next (if_pos (by simp [due, ends]))⟩
  · have pins : (drdyRises n s).pins.drdy = s.pins.drdy ||| BitVec.twoPow 4 n.val := by
      simp only [drdyRises]
      split <;> simp
    have bit := getLsbD_raise s.pins.drdy n
    refine ⟨by rw [pins, bit, if_pos rfl], fun m other => by rw [pins, bit, if_neg other], fun mode => ?_, fun mode => ?_⟩
    · have made : drdyRises n s = becomeDue n (s.onPins fun p => { p with drdy := p.drdy ||| BitVec.twoPow 4 n.val }) :=
        if_pos mode
      rw [made]
      exact becomeDue_dues n (s.onPins _)
    · have made : drdyRises n s = s.onPins fun p => { p with drdy := p.drdy ||| BitVec.twoPow 4 n.val } := if_neg mode
      rw [made]
      rfl
  · cases level with
    | false =>
      have bit := getLsbD_lower s.pins.sync pin
      exact ⟨(bit _).trans (if_pos rfl), fun m other => (bit m).trans (if_neg other)⟩
    | true =>
      have bit := getLsbD_raise s.pins.sync pin
      exact ⟨(bit _).trans (if_pos rfl), fun m other => (bit m).trans (if_neg other)⟩

end Sys2Proof.Machine
end

section
/-!
PROOFS. The passing of time, the end of a time crossing and of the attention gap (R119 to R123, R182).
-/
namespace Sys2Proof.Machine

/-- The outcome that a finished request's entry has. -/
theorem State.outcome_finish (k : RecordKind) (o : Outcome) (s : State) :
    ((s.onPu (Pu.finish k o)).entry k).outcome = o := by
  simp [State.entry, Pu.finish, Pu.enter]

/-! ### The microsecond step -/

/-- The always-on part of a microsecond step. -/
def State.stepped (lows : PinLows) (s : State) : State :=
  ((s.onPins (seeLows lows)).onTb (Tb.tick s.coreLive)).onPwc (Pwc.tick lows.button)

theorem microsecond_of_live {s : State} (live : s.coreLive = true) (lows : PinLows) :
    microsecond lows s = tickCore (s.stepped lows) := if_pos live

theorem microsecond_of_dead {s : State} (dead : s.coreLive = false) (lows : PinLows) :
    microsecond lows s = s.stepped lows := if_neg (Bool.eq_false_iff.mp dead)

/-- The timebase, the pins and the power controller step whether or not the core runs; the other units either tick with
the core or stay. -/
theorem microsecond_always (lows : PinLows) (s : State) :
    let t := microsecond lows s
    (t.tb, t.pins, t.pwc) = (s.tb.tick s.coreLive, seeLows lows s.pins, s.pwc.tick lows.button) ∧
    (t.mem, t.st, t.rm, t.pu, t.da, t.hmp, t.out) = (s.mem, s.st, s.rm, s.pu, s.da, s.hmp, s.out) := by
  cases live : s.coreLive with
  | false =>
    rw [microsecond_of_dead live, ← live]
    exact ⟨rfl, rfl⟩
  | true =>
    rw [microsecond_of_live live, ← live]
    exact ⟨rfl, rfl⟩

theorem Stamp.step_time (t : Stamp) : (Stamp.step t).time.toNat = (t.time.toNat + 1) % 2 ^ 40 := by
  simp [Stamp.step, BitVec.toNat_add]

theorem Stamp.step_epoch (t : Stamp) : (Stamp.step t).epoch = t.epoch + (if t.time = 0xFFFFFFFFFF then 1 else 0) := by
  simp only [Stamp.step]
  split <;> simp

theorem Tb.tick_running {t : Tb} (refresh : t.refresh = true) : t.tick true =
    { t with now := Stamp.step t.now, holding := t.holding.map fun a => { a with age := a.age + 1 }, snapshot := Stamp.step t.now,
             fresh := true } := if_pos (by simp [refresh])

theorem Tb.tick_frozen {live : Bool} {t : Tb} (frozen : live = false ∨ t.refresh = false) : t.tick live =
    { t with now := Stamp.step t.now, holding := t.holding.map fun a => { a with age := a.age + 1 } } :=
  if_neg (by rcases frozen with h | h <;> simp [h])

theorem Tb.tick_always (live : Bool) (t : Tb) :
    (t.tick live).now = Stamp.step t.now ∧ (t.tick live).taken = t.taken ∧
    (t.tick live).holding = t.holding.map fun a => { a with age := a.age + 1 } := by
  simp only [Tb.tick]
  split <;> exact ⟨rfl, rfl, rfl⟩

theorem So.tick_eq (o : So) : o.tick =
    { o with phaseTimer := tickTimer o.phaseTimer, darkTimer := tickTimer o.darkTimer,
             periodTimer := tickTimer o.periodTimer, syncTimer := tickTimer o.syncTimer, light := tickTimer o.light,
             sinceBoundary := o.sinceBoundary + (if o.state = .running then 1 else 0) } := by
  by_cases running : o.state = .running <;> simp [So.tick, running]

/-! ### The end of a crossing -/

theorem Adjust.apply_set {a : Adjust} (mode : a.mode = .set) (t : Stamp) : (a.apply t).time = a.value.truncate 40 := by
  simp [Adjust.apply, mode]

theorem Adjust.apply_add {a : Adjust} (mode : a.mode = .add) (t : Stamp) :
    (a.apply t).time.toNat = (t.time.toNat + a.value.toNat) % 2 ^ 40 := by
  simp [Adjust.apply, mode, BitVec.toNat_add]

/-- Device time with the adjust of a crossing that ends. -/
def State.crossed (a : Adjust) (s : State) : State :=
  s.onTb fun t => { t with now := a.apply t.now, holding := none, taken := t.taken + 1 }

theorem crossingDone_reports {a : Adjust} {s : State} (told : s.coreLive = true ∧ a.gen = s.generation) :
    crossingDone a s = reportAdjust (s.crossed a) := by
  refine if_pos ?_
  rw [Bool.and_eq_true, beq_iff_eq]
  exact told

theorem crossingDone_silent {a : Adjust} {s : State} (untold : ¬ (s.coreLive = true ∧ a.gen = s.generation)) :
    crossingDone a s = s.crossed a := by
  refine if_neg ?_
  rw [Bool.and_eq_true, beq_iff_eq]
  exact untold

/-- The report leaves the clock itself, and shows it unless the snapshot is frozen. -/
theorem reportAdjust_tb (s : State) : (reportAdjust s).tb = if s.tb.fresh then { s.tb with snapshot := s.tb.now } else s.tb :=
  rfl

theorem exec_timeCrossingComplete {a : Adjust} {s : State} (holding : s.tb.holding = some a) (aged : 20 ≤ a.age) :
    exec .timeCrossingComplete s = .next (crossingDone a s) := by
  refine congrArg Host.Outcome.next ?_
  rw [holding]
  exact if_pos aged

/-- A completed crossing sets device time, reported or not. -/
theorem crossingDone_tb (a : Adjust) (s : State) :
    let t := crossingDone a s
    t.tb.now = a.apply s.tb.now ∧ t.tb.holding = none ∧ t.tb.taken = s.tb.taken + 1 := by
  by_cases told : s.coreLive = true ∧ a.gen = s.generation
  · simp only [crossingDone_reports told, reportAdjust_tb]
    split <;> exact ⟨rfl, rfl, rfl⟩
  · simp only [crossingDone_silent told]
    exact ⟨rfl, rfl, rfl⟩

/-- Settles O54: the step in the running core and in one that does not run, then the crossing and the gap. -/
theorem timeSteps : Obligations.TimeSteps := by
  intro s down
  refine ⟨fun lows => ⟨microsecond lows s, rfl, ?_⟩, fun a holding aged => ⟨_, exec_timeCrossingComplete holding aged, ?_⟩,
    fun ends => congrArg Host.Outcome.next (if_pos (by simp [due, ends]))⟩
  · obtain ⟨always, others⟩ := microsecond_always lows s
    simp only [Prod.mk.injEq] at always others
    obtain ⟨tb, pins, pwc⟩ := always
    obtain ⟨mem, st, rm, pu, da, hmp, out⟩ := others
    obtain ⟨now, taken, held⟩ := Tb.tick_always s.coreLive s.tb
    refine ⟨by rw [tb, now, Stamp.step_time], by rw [tb, now, Stamp.step_epoch], by rw [tb, taken], by rw [tb, held],
      fun live refresh => ?_, fun frozen => ?_, pins, by rw [pwc]; rfl, fun zero => ?_, fun other same => ?_,
      fun away none => ?_, fun n away some => ?_, fun dead => ?_, fun live => ?_, mem, st, rm, pu, da, hmp, out,
      fun wraps => congrArg Host.Outcome.next (if_pos wraps)⟩
    · rw [tb, live, Tb.tick_running refresh]
      exact ⟨rfl, rfl⟩
    · rw [tb, Tb.tick_frozen frozen]
      exact ⟨rfl, rfl⟩
    · rw [pwc, Pwc.tick, zero]
      rfl
    · rw [pwc, Pwc.tick, same, bne_self_eq_false]
      cases count : s.pwc.debounce with
      | none => rfl
      | some n =>
        cases n with
        | zero => exact absurd count other
        | succ n => rfl
    · rw [pwc, Pwc.tick, none, bne_iff_ne.mpr away]
      rfl
    · rw [pwc, Pwc.tick, some, bne_iff_ne.mpr away]
      rfl
    · rw [microsecond_of_dead dead]
      exact ⟨rfl, rfl, rfl, rfl, rfl, rfl⟩
    · rw [microsecond_of_live live]
      refine ⟨s.so.tick_eq, rfl, fun n => vget_vmap .., rfl, fun c => vget_vmap .., fun packet entry left lane => ?_,
        fun idle => ?_, rfl, rfl, fun n => vget_vmap .., fun n => vget_vmap .., rfl⟩
      · exact congrArg Lane.tick lane
      · have stays : s.tc.lane.tick = s.tc.lane := by
          cases lane : s.tc.lane with
          | sending packet entry left => exact absurd lane (idle packet entry left)
          | _ => rfl
        exact stays
  · obtain ⟨now, held, taken⟩ := crossingDone_tb a s
    refine ⟨by rw [now]; rfl, held, taken, fun mode => by rw [now, Adjust.apply_set mode],
      fun mode => by rw [now, Adjust.apply_add mode], fun told => ?_, fun untold => ?_⟩
    · rw [crossingDone_reports told]
      refine ⟨State.outcome_finish .., raise_pendingEvent .., fun fresh => ?_, fun frozen => ?_⟩
      · rw [reportAdjust_tb, if_pos (show (s.crossed a).tb.fresh = true from fresh)]
        exact ⟨rfl, fresh⟩
      · rw [reportAdjust_tb, if_neg (show ¬ (s.crossed a).tb.fresh = true from Bool.eq_false_iff.mp frozen)]
        exact ⟨rfl, frozen⟩
    · rw [crossingDone_silent untold]
      exact ⟨rfl, rfl⟩

end Sys2Proof.Machine
end

section
/-!
PROOFS. Band starts (R8, R38 to R40).
-/
namespace Sys2Proof.Machine

/-! ### Marks on a band -/

/-- The tracker with band `k` of a surface put as `x`. -/
def St.marked (n : Fin 6) (k : Nat) (x : Band) (t : St) : St :=
  { t with surfaces := vset t.surfaces n { t.surface n with bands := (t.surface n).bands.set k x } }

theorem St.surface_marked_same (n : Fin 6) (k : Nat) (x : Band) (t : St) :
    (t.marked n k x).surface n = { t.surface n with bands := (t.surface n).bands.set k x } := vget_vset_same ..

theorem St.marked_config (n : Fin 6) (k : Nat) (x : Band) (t : St) (m : Fin 6) :
    ((t.marked n k x).surface m).config = (t.surface m).config := by
  by_cases same : m = n
  · subst same
    rw [St.surface_marked_same]
  · exact congrArg Surface.config (vget_vset_ne _ _ (Ne.symm same))

theorem St.marked_band {n : Fin 6} {k : Nat} {b : Band} {t : St} (h : (t.surface n).bands[k]? = some b) (x : Band) :
    ((t.marked n k x).surface n).bands[k]? = some x := by
  rw [St.surface_marked_same]
  exact List.getElem?_set_self (List.getElem?_eq_some_iff.mp h).1

theorem St.marked_marked (n : Fin 6) (k : Nat) (x y : Band) (t : St) :
    (t.marked n k x).marked n k y = t.marked n k y := by
  have once : vset (vset t.surfaces n { t.surface n with bands := (t.surface n).bands.set k x }) n
      { t.surface n with bands := (t.surface n).bands.set k y } =
      vset t.surfaces n { t.surface n with bands := (t.surface n).bands.set k y } := by
    refine vector_ext fun i => ?_
    by_cases same : n = i
    · subst same
      simp
    · rw [vget_vset_ne _ _ same, vget_vset_ne _ _ same, vget_vset_ne _ _ same]
  rw [St.marked, St.surface_marked_same, List.set_set]
  simp only [St.marked, once]

theorem St.onSurface_onBand {n : Fin 6} {k : Nat} {b : Band} {t : St} (h : (t.surface n).bands[k]? = some b)
    (f : Band → Band) :
    t.onSurface n (fun x => { x with bands := onBand k f x.bands }) = t.marked n k (f b) := by
  rw [St.marked, ← onBand_eq_set h]
  rfl

/-! ### The enquiry -/

/-- What a panel reads for a band: the current surface's rows, or the same rows of the previous frame's surface. -/
def State.bandSource (cfg : SurfaceConfig) (b : Band) (s : State) (p : Side) : Option SurfaceConfig :=
  if b.complete then some cfg
  else ((s.st.previous.bind (s.st.frameSurface p)).bind fun n => (s.st.surface n).config).map
    fun pc => { pc with bandRows := cfg.bandRows }

theorem St.frameSurface_congr {t u : St} (configs : ∀ m, (u.surface m).config = (t.surface m).config) :
    u.frameSurface = t.frameSurface := by
  have eyes : u.eyeOf = t.eyeOf := funext fun m => by rw [St.eyeOf, configs, St.eyeOf]
  have surfaces : u.surfaceFor = t.surfaceFor := by
    funext panel left right
    simp only [St.surfaceFor, eyes]
  funext panel f
  rw [St.frameSurface, surfaces, St.frameSurface]

theorem State.bandSource_congr {s t : State} {b d : Band} (cfg : SurfaceConfig)
    (configs : ∀ m, (t.st.surface m).config = (s.st.surface m).config) (previous : t.st.previous = s.st.previous)
    (complete : d.complete = b.complete) : t.bandSource cfg d = s.bandSource cfg b := by
  funext p
  simp only [State.bandSource, complete, previous, St.frameSurface_congr configs, configs]

section
variable {n : Fin 6} {k : Nat} {cfg : SurfaceConfig} {b : Band} {s : State}

/-- A COMPLETE band is read from its surface and marked SCANNED. -/
theorem askBand_of_complete (config : (s.st.surface n).config = some cfg) (band : (s.st.surface n).bands[k]? = some b)
    (complete : b.complete = true) (p : Side) :
    askBand p n k s = (.read cfg, s.onSt fun t => t.marked n k { b with scanned := true }) := by
  have here : (s.st.surface n).bands.getD k Band.empty = b := by rw [List.getD_eq_getElem?_getD, band]; rfl
  simp only [askBand, here, config, if_pos complete, State.onSt, St.onSurface_onBand band]

/-- A read where there is a surface to read from, and else the fallback colour. -/
def BandAnswer.of : Option SurfaceConfig → BandAnswer
  | some c => .read c
  | none => .fallback

/-- The tracker with an EMPTY band marked, and the current frame with it. -/
def St.lateMarked (n : Fin 6) (k : Nat) (b : Band) (t : St) : St :=
  { t.marked n k { b with scanned := true, substituted := true } with
    current := t.current.map fun fr =>
      { fr with substituted := if b.substituted then fr.substituted else sat16 fr.substituted, bandLate := true } }

/-- An EMPTY band's enquiry: the tracker is marked, and the event raised the first time in a scan. -/
theorem askBand_of_empty (config : (s.st.surface n).config = some cfg) (band : (s.st.surface n).bands[k]? = some b)
    (empty : b.complete = false) (p : Side) :
    askBand p n k s = (BandAnswer.of (s.bandSource cfg b p),
      (s.stChange (St.lateMarked n k b)).when (s.st.current.any fun fr => !fr.bandLate) (raise .bandLate)) := by
  have here : (s.st.surface n).bands.getD k Band.empty = b := by rw [List.getD_eq_getElem?_getD, band]; rfl
  have no : ¬ b.complete = true := by simp [empty]
  simp only [askBand, here, config, if_neg no, State.bandSource, State.stChange, State.onSt, St.onSurface_onBand band]
  cases (s.st.previous.bind (s.st.frameSurface p)).bind fun n => (s.st.surface n).config <;> rfl

theorem askBand_answer (config : (s.st.surface n).config = some cfg) (band : (s.st.surface n).bands[k]? = some b)
    (p : Side) : (askBand p n k s).1 = BandAnswer.of (s.bandSource cfg b p) := by
  cases complete : b.complete with
  | true =>
    rw [askBand_of_complete config band complete, State.bandSource, if_pos complete]
    rfl
  | false => rw [askBand_of_empty config band complete]

end

/-! ### The reads -/

/-- The job of a band's read for a panel. -/
def So.bandJob (k id : Nat) (o : So) (x : Side × SurfaceConfig) : BandJob :=
  { id, panel := x.1, band := k, config := x.2, firstRow := k * x.2.bandRows, rowCount := x.2.rowsOf k,
    width := o.applied.panelWidth,
    left := (bandLines x.2 o.applied.panelWidth (k * x.2.bandRows) (x.2.rowsOf k)).length, failed := false,
    late := false, lines := [] }

/-- The panels that read a band, each with the surface that it reads from. -/
def readers (source : Side → Option SurfaceConfig) (panels : List Side) : List (Side × SurfaceConfig) :=
  panels.filterMap fun p => (source p).map fun c => (p, c)

/-- From `s` to `t` the panels' parts of a band start have been done: each reads from its source, or gets the fallback
colour. -/
structure State.BandRead (k : Nat) (source : Side → Option SurfaceConfig) (panels : List Side) (s t : State) : Prop where
  so : t.so = { s.so with
    jobs := s.so.jobs ++ (readers source panels).mapIdx fun i x => s.so.bandJob k (s.nextId + i) x }
  nextId : t.nextId = s.nextId + (readers source panels).length
  requests : ∀ i x, (readers source panels)[i]? = some x →
    ∀ line ∈ bandLines x.2 s.so.applied.panelWidth (k * x.2.bandRows) (x.2.rowsOf k),
      ⟨.band (s.nextId + i), line, .read⟩ ∈ t.da.all
  stays : ∀ r ∈ s.da.all, r.op ≠ .write [] → r ∈ t.da.all
  out : t.out = s.out ++
    (panels.filter fun p => (source p).isNone).map fun p => .panelFallback p (some k) s.so.applied.fallback

theorem State.BandRead.append {k : Nat} {source : Side → Option SurfaceConfig} {l m : List Side} {s t u : State}
    (h : s.BandRead k source l t) (j : t.BandRead k source m u) : s.BandRead k source (l ++ m) u := by
  have applied : t.so.applied = s.so.applied := by rw [h.so]
  have split : readers source (l ++ m) = readers source l ++ readers source m := List.filterMap_append ..
  have job (i : Nat) (x : Side × SurfaceConfig) : t.so.bandJob k i x = s.so.bandJob k i x := by
    simp only [So.bandJob, applied]
  have shift : (fun i x => t.so.bandJob k (t.nextId + i) x) =
      fun i x => s.so.bandJob k (s.nextId + (i + (readers source l).length)) x := by
    funext i x
    rw [job, h.nextId, Nat.add_assoc, Nat.add_comm i]
  refine ⟨?_, ?_, fun i x at_ line here => ?_, fun r old op => j.stays r (h.stays r old op) op, ?_⟩
  · rw [j.so, shift, split, List.mapIdx_append, h.so, List.append_assoc]
  · rw [j.nextId, h.nextId, split, List.length_append, Nat.add_assoc]
  · rw [split] at at_
    by_cases first : i < (readers source l).length
    · rw [List.getElem?_append_left first] at at_
      exact j.stays _ (h.requests i x at_ line here) nofun
    · have past : (readers source l).length ≤ i := Nat.le_of_not_lt first
      rw [List.getElem?_append_right past] at at_
      have made := j.requests _ x at_ line (by rwa [applied])
      rwa [h.nextId, Nat.add_assoc, Nat.add_sub_cancel' past] at made
  · rw [j.out, h.out, applied, List.filter_append, List.map_append, List.append_assoc]

theorem readBand_reads (k : Nat) (source : Side → Option SurfaceConfig) (p : Side) (s : State) :
    s.BandRead k source [p] (readBand p k (BandAnswer.of (source p)) s) := by
  cases from_ : source p with
  | none =>
    have readers : readers source [p] = [] := by simp [readers, from_]
    refine ⟨?_, ?_, ?_, fun _ old _ => old, ?_⟩
    · rw [readers, List.mapIdx_nil, List.append_nil]
      rfl
    · rw [readers]
      rfl
    · rw [readers]
      nofun
    · simp [from_, BandAnswer.of, readBand]
  | some c =>
    have readers : readers source [p] = [(p, c)] := by simp [readers, from_]
    refine ⟨?_, ?_, fun i x at_ line here => ?_, fun r old op => mem_requestReads_of_mem _ old op, ?_⟩
    · rw [readers]
      simp [BandAnswer.of, readBand, State.fresh, So.bandJob]
    · rw [readers]
      simp [BandAnswer.of, readBand, State.fresh]
    · rw [readers] at at_
      obtain ⟨rfl, rfl⟩ : i = 0 ∧ (p, c) = x := by
        cases i with
        | zero => exact ⟨rfl, Option.some.inj at_⟩
        | succ i => cases at_
      exact mem_requestReads here
    · simp [from_, BandAnswer.of, readBand, State.fresh]

/-! ### One panel's part -/

section
variable {n : Fin 6} {k : Nat} {cfg : SurfaceConfig} {b : Band} {s : State}

theorem State.BandRead.of_same {source : Side → Option SurfaceConfig} {panels : List Side} {s t u : State}
    (h : t.BandRead k source panels u) (so : t.so = s.so) (nextId : t.nextId = s.nextId) (da : t.da = s.da)
    (out : t.out = s.out) : s.BandRead k source panels u := by
  obtain ⟨jobs, ids, requests, stays, sent⟩ := h
  rw [so] at jobs requests sent
  rw [nextId] at jobs ids requests
  rw [da] at stays
  rw [out] at sent
  exact ⟨jobs, ids, requests, stays, sent⟩

theorem startBandFor_reads (config : (s.st.surface n).config = some cfg) (band : (s.st.surface n).bands[k]? = some b)
    (p : Side) : s.BandRead k (s.bandSource cfg b) [p] (startBandFor p n k s) := by
  have made : startBandFor p n k s = readBand p k (BandAnswer.of (s.bandSource cfg b p)) (askBand p n k s).2 := by
    rw [← askBand_answer config band]
    rfl
  rw [made]
  exact (readBand_reads k (s.bandSource cfg b) p _).of_same (by simp) (by simp) (by simp) (by simp)

theorem startBandFor_st (p : Side) : (startBandFor p n k s).st = (askBand p n k s).2.st := by simp [startBandFor]

theorem startBandFor_eu (p : Side) : (startBandFor p n k s).eu = (askBand p n k s).2.eu := by simp [startBandFor]

theorem startBandFor_of_complete (config : (s.st.surface n).config = some cfg)
    (band : (s.st.surface n).bands[k]? = some b) (complete : b.complete = true) (p : Side) :
    (startBandFor p n k s).st = s.st.marked n k { b with scanned := true } ∧ (startBandFor p n k s).eu = s.eu := by
  rw [startBandFor_st, startBandFor_eu, askBand_of_complete config band complete]
  exact ⟨rfl, rfl⟩

/-- A change of the tracker's lists shows as it is made, the change count apart. -/
theorem State.stChange_shows (f : St → St) (s : State) :
    (s.stChange f).st.surfaces = (f s.st).surfaces ∧ (s.stChange f).st.current = (f s.st).current ∧
    (s.stChange f).st.queue = (f s.st).queue ∧ (s.stChange f).st.previous = (f s.st).previous := by
  simp only [State.stChange, State.onSt_st]
  rw [St.noteFrames_eq]
  exact ⟨rfl, rfl, rfl, rfl⟩

/-- An EMPTY band's start: what is marked, and the event. -/
structure State.BandLate (n : Fin 6) (k : Nat) (b : Band) (s t : State) : Prop where
  surfaces : t.st.surfaces = (s.st.marked n k { b with scanned := true, substituted := true }).surfaces
  current : t.st.current = s.st.current.map fun fr =>
    { fr with substituted := if b.substituted then fr.substituted else sat16 fr.substituted, bandLate := true }
  queue : t.st.queue = s.st.queue
  previous : t.st.previous = s.st.previous
  event : ∀ fr, s.st.current = some fr → fr.bandLate = false → t.pendingEvent .bandLate = true
  events : ∀ e, s.pendingEvent e = true → t.pendingEvent e = true

theorem startBandFor_of_empty (config : (s.st.surface n).config = some cfg)
    (band : (s.st.surface n).bands[k]? = some b) (empty : b.complete = false) (p : Side) :
    s.BandLate n k b (startBandFor p n k s) := by
  have st := startBandFor_st (n := n) (k := k) (s := s) p
  have eu := startBandFor_eu (n := n) (k := k) (s := s) p
  rw [askBand_of_empty config band empty] at st eu
  obtain ⟨surfaces, current, queue, previous⟩ := State.stChange_shows (St.lateMarked n k b) s
  cases first : s.st.current.any fun fr => !fr.bandLate with
  | false =>
    rw [first] at st eu
    refine ⟨by rw [st]; exact surfaces, by rw [st]; exact current, by rw [st]; exact queue, by rw [st]; exact previous,
      fun fr current fresh => ?_, fun e old => by rwa [State.pendingEvent, eu]⟩
    simp [current, fresh] at first
  | true =>
    rw [first] at st eu
    refine ⟨by rw [st]; exact surfaces, by rw [st]; exact current, by rw [st]; exact queue, by rw [st]; exact previous,
      fun fr current fresh => ?_, fun e old => ?_⟩
    · rw [State.pendingEvent, eu]
      exact raise_pendingEvent ..
    · rw [State.pendingEvent, eu]
      exact raise_pendingEvent_of _ _ _ old

end

/-- The schedule moves on, and the windows of the bands before end. -/
def bandTurns (c : Schedule) (s : State) : State :=
  (endWindows (fun j => c.serves j.panel) s).onSo fun o =>
    { o with schedules := updateFirst (·.panel == c.panel) (fun x => { x with next := x.next + 1 }) o.schedules }

theorem exec_bandStart {panel : Side} {c : Schedule} {s : State}
    (schedule : s.so.schedules.find? (·.panel == panel) = some c) (running : s.so.state = .running)
    (more : c.next < c.count) (due : bandTime s.so.applied.scan c.next c.count ≤ s.so.sinceBoundary) :
    exec (.bandStart panel) s = .next (if c.both
      then startBandFor .right c.surface c.next (startBandFor c.panel c.surface c.next (bandTurns c s))
      else startBandFor c.panel c.surface c.next (bandTurns c s)) := by
  have dueBand : s.so.dueBand panel = some c := by
    simp [So.dueBand, schedule, So.bandDue, running, more, due]
  refine congrArg Host.Outcome.next ?_
  rw [dueBand]
  rfl

/-- The panels that a schedule serves. -/
def Schedule.panels (c : Schedule) : List Side := c.panel :: (if c.both then [.right] else [])

/-- A band start once the schedule has moved on. -/
def bandParts (c : Schedule) (s : State) : State :=
  if c.both then startBandFor .right c.surface c.next (startBandFor c.panel c.surface c.next s)
  else startBandFor c.panel c.surface c.next s

section
variable {c : Schedule} {cfg : SurfaceConfig} {b : Band} {s : State}

/-- The second of two panels finds the band as the first one left it. -/
theorem bandParts_of_complete (config : (s.st.surface c.surface).config = some cfg)
    (band : (s.st.surface c.surface).bands[c.next]? = some b) (complete : b.complete = true) :
    s.BandRead c.next (s.bandSource cfg b) c.panels (bandParts c s) ∧
    (bandParts c s).st = s.st.marked c.surface c.next { b with scanned := true } ∧ (bandParts c s).eu = s.eu := by
  have first := startBandFor_reads config band c.panel
  obtain ⟨st, eu⟩ := startBandFor_of_complete config band complete c.panel
  cases both : c.both with
  | false =>
    rw [bandParts, Schedule.panels, both]
    exact ⟨first, st, eu⟩
  | true =>
    have config' : ((startBandFor c.panel c.surface c.next s).st.surface c.surface).config = some cfg := by
      rw [st, St.marked_config, config]
    have band' := St.marked_band band { b with scanned := true }
    rw [← st] at band'
    have same := State.bandSource_congr (s := s) (t := startBandFor c.panel c.surface c.next s) (b := b)
      (d := { b with scanned := true }) cfg (fun m => by rw [st, St.marked_config]) (by rw [st]; rfl) rfl
    have second := startBandFor_reads config' band' .right
    obtain ⟨st', eu'⟩ := startBandFor_of_complete config' band' complete .right
    rw [same] at second
    rw [bandParts, Schedule.panels, both]
    exact ⟨first.append second, by rw [if_pos rfl, st', st, St.marked_marked], eu'.trans eu⟩

theorem bandParts_of_empty (config : (s.st.surface c.surface).config = some cfg)
    (band : (s.st.surface c.surface).bands[c.next]? = some b) (empty : b.complete = false) :
    s.BandRead c.next (s.bandSource cfg b) c.panels (bandParts c s) ∧ s.BandLate c.surface c.next b (bandParts c s) := by
  have first := startBandFor_reads config band c.panel
  have late := startBandFor_of_empty config band empty c.panel
  cases both : c.both with
  | false =>
    rw [bandParts, Schedule.panels, both]
    exact ⟨first, late⟩
  | true =>
    have surface (m : Fin 6) : (startBandFor c.panel c.surface c.next s).st.surface m =
        (s.st.marked c.surface c.next { b with scanned := true, substituted := true }).surface m :=
      congrArg (vget · m) late.surfaces
    have config' : ((startBandFor c.panel c.surface c.next s).st.surface c.surface).config = some cfg := by
      rw [surface, St.marked_config, config]
    have band' := St.marked_band band { b with scanned := true, substituted := true }
    rw [← surface] at band'
    have same := State.bandSource_congr (s := s) (t := startBandFor c.panel c.surface c.next s) (b := b)
      (d := { b with scanned := true, substituted := true }) cfg (fun m => by rw [surface, St.marked_config])
      late.previous rfl
    have second := startBandFor_reads config' band' .right
    have again := startBandFor_of_empty config' band' empty .right
    rw [same] at second
    rw [bandParts, Schedule.panels, both]
    refine ⟨first.append second, again.surfaces.trans ?_, again.current.trans ?_, again.queue.trans late.queue,
      again.previous.trans late.previous, fun fr current fresh => again.events _ (late.event fr current fresh),
      fun e old => again.events e (late.events e old)⟩
    · have twice := St.marked_marked c.surface c.next { b with scanned := true, substituted := true }
        { b with scanned := true, substituted := true } s.st
      rw [← twice, St.marked, St.marked, surface, late.surfaces]
    · rw [late.current, Option.map_map]
      rfl

end

/-- Settles O43, for a COMPLETE band and an EMPTY one. -/
theorem bandStartsHold : Obligations.BandStarts := by
  intro panel c cfg b s schedule running more due config band f marked width colour serves panels source reads started
    ended
  obtain rfl : c.panel = panel := by simpa using List.find?_some schedule
  have run := exec_bandStart schedule running more due
  have read : (bandTurns c s).BandRead c.next source panels (bandParts c (bandTurns c s)) := by
    cases complete : b.complete with
    | true => exact (bandParts_of_complete (s := bandTurns c s) config band complete).1
    | false => exact (bandParts_of_empty (s := bandTurns c s) config band complete).1
  refine ⟨_, run, read.so, read.nextId, read.requests, read.out, fun complete => ?_, fun empty => ?_⟩
  · exact (bandParts_of_complete (s := bandTurns c s) config band complete).2
  · have late := (bandParts_of_empty (s := bandTurns c s) config band empty).2
    exact ⟨late.surfaces, late.current, late.event, late.queue, late.previous⟩

end Sys2Proof.Machine
end

section
/-!
PROOFS. The lane and its timers (R75, R92, R93, R96).
-/
namespace Sys2Proof.Machine

/-! ### What a choice of the lane arbiter changes -/

/-- The tether controller with what a choice of the lane arbiter changes taken from `u`. -/
def Tc.sentAs (t u : Tc) : Tc :=
  { t with ackRequest := u.ackRequest, echoRequest := u.echoRequest, keepRequest := u.keepRequest, queue := u.queue,
           history := u.history, histChange := u.histChange, nextSeq := u.nextSeq, lane := u.lane, resent := u.resent,
           idle := u.idle }

theorem beginReads_sent (e a l : Nat) (s : State) : (beginReads e a l s).tc = s.tc.sentAs (beginReads e a l s).tc ∧
    (beginReads e a l s).tc.lane ≠ .free ∧ (beginReads e a l s).tc.idle = none := by
  rw [(beginReads_tc e a l s).2]
  exact ⟨rfl, nofun, rfl⟩

/-- A choice takes the lane, which stops the idle timer. -/
theorem sendChoice_sent (c : Choice) (s : State) : (sendChoice c s).tc = s.tc.sentAs (sendChoice c s).tc ∧
    (sendChoice c s).tc.lane ≠ .free ∧ (sendChoice c s).tc.idle = none := by
  cases c with
  | ack => exact ⟨rfl, nofun, rfl⟩
  | echo p => exact ⟨rfl, nofun, rfl⟩
  | keepalive => exact ⟨rfl, nofun, rfl⟩
  | again cls e =>
    simp only [sendChoice]
    split
    · exact beginReads_sent ..
    · exact ⟨rfl, nofun, rfl⟩
  | first e =>
    simp only [sendChoice]
    split
    · exact beginReads_sent ..
    all_goals exact ⟨rfl, nofun, rfl⟩

theorem laneKick_of_choice {s : State} {c : Choice} (up : s.tc.link = .up) (free : s.tc.lane = .free)
    (choice : s.tc.choice = some c) : laneKick s = sendChoice c s := by
  rw [laneKick, if_pos ⟨up, free⟩, choice]

theorem laneKick_of_none {s : State} (choice : s.tc.choice = none) : laneKick s = s := by
  rw [laneKick, choice]
  split <;> rfl

theorem laneKick_sent (s : State) : (laneKick s).tc = s.tc.sentAs (laneKick s).tc := by
  unfold laneKick
  split
  · split
    · exact (sendChoice_sent ..).1
    · rfl
  · rfl

/-- What the lane arbiter leaves of the tether controller. -/
@[simp] theorem laneKick_leaves (s : State) :
    (laneKick s).tc.link = s.tc.link ∧ (laneKick s).tc.since = s.tc.since ∧
    (laneKick s).tc.upFromRecovery = s.tc.upFromRecovery ∧ (laneKick s).tc.retry = s.tc.retry ∧
    (laneKick s).tc.training = s.tc.training ∧ (laneKick s).tc.recovery = s.tc.recovery ∧
    (laneKick s).tc.receive = s.tc.receive ∧ (laneKick s).tc.paused = s.tc.paused ∧
    (laneKick s).tc.restricted = s.tc.restricted ∧ (laneKick s).tc.expected = s.tc.expected ∧
    (laneKick s).tc.lastTaken = s.tc.lastTaken ∧ (laneKick s).tc.duplicates = s.tc.duplicates ∧
    (laneKick s).tc.gaps = s.tc.gaps ∧ (laneKick s).tc.frontiers = s.tc.frontiers ∧
    (laneKick s).tc.slices = s.tc.slices ∧ (laneKick s).tc.audioJobs = s.tc.audioJobs ∧
    (laneKick s).tc.dropState = s.tc.dropState ∧ (laneKick s).tc.dropRange = s.tc.dropRange ∧
    (laneKick s).tc.dropFormat = s.tc.dropFormat ∧ (laneKick s).tc.dropStandby = s.tc.dropStandby ∧
    (laneKick s).tc.audioDrops = s.tc.audioDrops ∧ (laneKick s).tc.ring = s.tc.ring ∧
    (laneKick s).tc.pairs = s.tc.pairs ∧ (laneKick s).tc.pairChange = s.tc.pairChange ∧
    (laneKick s).tc.echoReplaced = s.tc.echoReplaced ∧ (laneKick s).tc.ackTimers = s.tc.ackTimers ∧
    (laneKick s).tc.recoveries = s.tc.recoveries := by
  rw [laneKick_sent]
  simp [Tc.sentAs]

theorem laneKick_idle {s : State} (h : s.tc.idle = none) : (laneKick s).tc.idle = none := by
  unfold laneKick
  split
  · split
    · exact (sendChoice_sent ..).2.2
    · exact h
  · exact h

/-! ### Transmissions and their completion -/

theorem uplinkPacket_length (kind : Byte) (resent damaged : Bool) (seq : U16) (payload : List Byte) :
    (uplinkPacket kind resent damaged seq payload).length = 12 + payload.length := by
  simp [uplinkPacket, toBytes_length]
  omega

theorem exec_idleTimerExpiry {s : State} (up : s.tc.link = .up) (ends : s.tc.idle = some 0) : exec .idleTimerExpiry s =
    .next (laneKick (s.onTc fun t => { t with keepRequest := true, idle := none })) :=
  congrArg Host.Outcome.next (if_pos ⟨up, by simp [due, ends]⟩)

theorem exec_uplinkTransmissionComplete {s : State} {packet : List Byte} {entry : Nat}
    (lane : s.tc.lane = .sending packet entry 0) :
    exec .uplinkTransmissionComplete s = .next (sendDone packet entry s) := by
  refine congrArg Host.Outcome.next ?_
  rw [lane]
  rfl

/-- The controller once a transmission has left the lane, before the next choice. -/
def Tc.sent (entry : Nat) (t : Tc) : Tc :=
  { (match t.oldestClass entry with
      | some c => t.startAck c
      | none => t) with lane := .free, idle := if t.link = .up then some 2000 else t.idle }

theorem sendDone_eq (packet : List Byte) (entry : Nat) (s : State) :
    sendDone packet entry s = laneKick ((s.emit (.uplink packet)).onTc (Tc.sent entry)) := by
  have put (t : Tc) (h : s.tc.sent entry = { t with lane := .free, idle := if t.link = .up then some 2000 else t.idle }) :
      laneFreed ((s.emit (.uplink packet)).onTc fun _ => t) =
        laneKick ((s.emit (.uplink packet)).onTc (Tc.sent entry)) :=
    congrArg (fun u => laneKick ((s.emit (.uplink packet)).onTc fun _ => u)) h.symm
  unfold sendDone
  dsimp only
  split
  next c owner =>
    refine put (s.tc.startAck c) ?_
    rw [Tc.sent, show s.tc.oldestClass entry = some c from owner]
    rfl
  next owner =>
    refine put s.tc ?_
    rw [Tc.sent, show s.tc.oldestClass entry = none from owner]

theorem Tc.sent_choice (entry : Nat) (t : Tc) : (t.sent entry).choice = t.choice := by
  unfold Tc.sent
  split <;> rfl

theorem Tc.sent_timer {entry : Nat} {t : Tc} {c : Fin 3} (owner : t.oldestClass entry = some c) :
    vget (t.sent entry).ackTimers c = if t.restricted then none else some 4000 := by
  simp [Tc.sent, owner, Tc.startAck]

theorem Tc.sent_lane {entry : Nat} {t : Tc} (up : t.link = .up) :
    (t.sent entry).lane = .free ∧ (t.sent entry).idle = some 2000 ∧ (t.sent entry).link = .up := by
  unfold Tc.sent
  split <;> exact ⟨rfl, if_pos up, up⟩

/-- The lane's next packet, or its idle timer, at the completion of one. -/
theorem sendDone_lane {s : State} (up : s.tc.link = .up) (packet : List Byte) (entry : Nat) :
    (s.tc.choice = none → (sendDone packet entry s).tc.lane = .free ∧ (sendDone packet entry s).tc.idle = some 2000) ∧
    (s.tc.choice ≠ none → (sendDone packet entry s).tc.lane ≠ .free ∧ (sendDone packet entry s).tc.idle = none) := by
  obtain ⟨lane, idle, link⟩ := Tc.sent_lane (entry := entry) up
  have choice := Tc.sent_choice entry s.tc
  refine ⟨fun none => ?_, fun some => ?_⟩
  · rw [sendDone_eq, laneKick_of_none (choice.trans none)]
    exact ⟨lane, idle⟩
  · obtain ⟨c, chosen⟩ := Option.ne_none_iff_exists'.mp some
    rw [sendDone_eq, laneKick_of_choice link lane (choice.trans chosen)]
    exact (sendChoice_sent ..).2

theorem exec_ackTimerExpiry {c : Fin 3} {s : State} (up : s.tc.link = .up) (ends : vget s.tc.ackTimers c = some 0) :
    exec (.ackTimerExpiry c) s = .next (drain (ackExpired c s)) :=
  congrArg Host.Outcome.next (if_pos ⟨up, by simp [due, ends]⟩)

theorem ackExpired_of_empty {c : Fin 3} {s : State} (empty : vget s.tc.history c = []) :
    ackExpired c s = s.onTc fun t => { t with ackTimers := vset t.ackTimers c none } := by
  rw [ackExpired, empty]

/-- The controller with a class's history marked for resend at its ack timer's expiry. -/
def Tc.ackMarked (c : Fin 3) (t : Tc) : Tc :=
  t.noteHist { t with ackTimers := vset t.ackTimers c none, history := vmod t.history c (markResend false) }

theorem ackExpired_of_few {c : Fin 3} {s : State} {e : HistEntry} {rest : List HistEntry}
    (history : vget s.tc.history c = e :: rest) (few : e.sends < 8) :
    ackExpired c s = laneKick (s.onTc (Tc.ackMarked c)) := by
  rw [ackExpired, history]
  exact if_pos few

theorem ackExpired_of_many {c : Fin 3} {s : State} {e : HistEntry} {rest : List HistEntry}
    (history : vget s.tc.history c = e :: rest) (many : 8 ≤ e.sends) : ackExpired c s = enterRecovery s := by
  rw [ackExpired, history]
  exact if_neg (Nat.not_lt.mpr many)

/-- An entry marked for resend, its send count kept. -/
def HistEntry.again (e : HistEntry) : HistEntry := { e with resend := true }

theorem Tc.ackMarked_eq (c : Fin 3) (t : Tc) : t.ackMarked c = { t with
    ackTimers := vset t.ackTimers c none, history := vset t.history c ((vget t.history c).map HistEntry.again),
    histChange := (t.ackMarked c).histChange } := by
  have marks : markResend false = List.map HistEntry.again := by
    funext h
    rfl
  rw [Tc.ackMarked, Tc.noteHist_eq, marks]
  rfl

/-- What the arbiter looks at for a class: the lane, the requests, the restriction, the history and the queue. -/
theorem Tc.reaches_congr {t u : Tc} {c : Fin 3} (lane : t.lane = u.lane) (ack : t.ackRequest = u.ackRequest)
    (echo : t.echoRequest = u.echoRequest) (keep : t.keepRequest = u.keepRequest) (restricted : t.restricted = u.restricted)
    (history : t.history = u.history) (queue : t.queue = u.queue) : t.reaches c ↔ u.reaches c := by
  simp only [Tc.reaches, Tc.historyFill, lane, ack, echo, keep, restricted, history, queue]

/-- A class's oldest entry that is sent again tells nothing of the lists that are not named. -/
theorem State.resends_congr {s t : State} {c : Fin 3} {e : HistEntry} {rest : List HistEntry} {u : State}
    (nextId : t.nextId = s.nextId) (resent : t.tc.resent = s.tc.resent) (h : t.resends c e rest u) :
    s.resends c e rest u := by
  simpa only [State.resends, nextId, resent] using h

/-- The arbiter's choice once a class has been marked for resend. -/
theorem ackMarked_kick {s : State} {c : Fin 3} {e : HistEntry} {rest : List HistEntry} (up : s.tc.link = .up)
    (history : vget s.tc.history c = e :: rest) :
    let u := laneKick (s.onTc (Tc.ackMarked c))
    let back : Tc := { s.tc with history := vset s.tc.history c ((e :: rest).map HistEntry.again) }
    u.tc.link = .up ∧ vget u.tc.ackTimers c = none ∧
    (s.tc.lane ≠ .free → vget u.tc.history c = (e :: rest).map HistEntry.again ∧ u.tc.lane = s.tc.lane) ∧
    (back.reaches c → s.resends c e.again (rest.map HistEntry.again) u ∧
      ∀ d, d ≠ c → vget u.tc.history d = vget s.tc.history d) ∧
    (¬ back.reaches c → vget u.tc.history c = (e :: rest).map HistEntry.again) := by
  intro u back
  have tc : (s.onTc (Tc.ackMarked c)).tc = s.tc.ackMarked c := rfl
  have marked : (s.tc.ackMarked c).history = vset s.tc.history c ((e :: rest).map HistEntry.again) := by
    rw [Tc.ackMarked_eq, history]
  have here : vget (s.onTc (Tc.ackMarked c)).tc.history c = (e :: rest).map HistEntry.again := by
    rw [tc, marked, vget_vset_same]
  have link : (s.onTc (Tc.ackMarked c)).tc.link = .up := by
    rw [tc, Tc.ackMarked_eq]
    exact up
  have lane : (s.onTc (Tc.ackMarked c)).tc.lane = s.tc.lane := by rw [tc, Tc.ackMarked_eq]
  have reaches : (s.onTc (Tc.ackMarked c)).tc.reaches c ↔ back.reaches c :=
    Tc.reaches_congr lane (by rw [tc, Tc.ackMarked_eq]) (by rw [tc, Tc.ackMarked_eq]) (by rw [tc, Tc.ackMarked_eq])
      (by rw [tc, Tc.ackMarked_eq]) marked (by rw [tc, Tc.ackMarked_eq])
  refine ⟨((laneKick_leaves _).1).trans link, ?_, fun busy => ?_, fun comes => ?_, fun passes => ?_⟩
  · have timers : u.tc.ackTimers = (s.tc.ackMarked c).ackTimers := by simp [u]
    rw [timers, Tc.ackMarked_eq, vget_vset_same]
  · have still : u = s.onTc (Tc.ackMarked c) := laneKick_of_busy (by rwa [lane])
    rw [still]
    exact ⟨here, lane⟩
  · obtain ⟨resends, others⟩ := laneKick_of_reaches link (reaches.mpr comes) here rfl
    have resent : (s.onTc (Tc.ackMarked c)).tc.resent = s.tc.resent := by rw [tc, Tc.ackMarked_eq]
    refine ⟨State.resends_congr (t := s.onTc (Tc.ackMarked c)) rfl resent resends,
      fun d other => (others d other).trans ?_⟩
    rw [tc, marked, vget_vset_ne _ _ (Ne.symm other)]
  · exact (laneKick_of_not_reaches (mt reaches.mp passes)).trans here

/-- Settles O48, moment by moment. -/
theorem uplinkMoments : Obligations.UplinkMoments := by
  intro s up
  refine ⟨fun ends => ⟨_, exec_idleTimerExpiry up ends, laneKick_idle rfl, ?_, fun busy => ?_, fun free ack echo => ?_⟩,
    fun packet entry lane => ⟨_, exec_uplinkTransmissionComplete lane, ?_, (sendDone_lane up packet entry).1,
      (sendDone_lane up packet entry).2, fun c owner => ?_⟩,
    fun c ends => ⟨fun empty => ⟨_, exec_ackTimerExpiry up ends, ?_⟩,
      fun e rest history few => ⟨_, exec_ackTimerExpiry up ends, ?_⟩,
      fun e rest history many => ⟨_, exec_ackTimerExpiry up ends, ?_⟩⟩⟩
  · simp [up]
  · rw [laneKick_of_busy (by exact busy)]
    rfl
  · have chosen : (s.onTc fun t => { t with keepRequest := true, idle := none }).tc.choice = some .keepalive := by
      simp [Tc.choice, ack, echo]
    rw [laneKick_of_choice (by exact up) (by exact free) chosen]
    exact ⟨rfl, by simp [sendChoice, State.fresh, beginSend, laneTime, uplinkPacket_length]⟩
  · rw [sendDone_eq]
    simp [State.emit]
  · have timers : (sendDone packet entry s).tc.ackTimers = (s.tc.sent entry).ackTimers := by
      rw [sendDone_eq]
      simp
    rw [timers]
    exact Tc.sent_timer owner
  · rw [ackExpired_of_empty empty]
    rfl
  · rw [ackExpired_of_few history few]
    exact ackMarked_kick up history
  · rw [ackExpired_of_many history many]
    exact ⟨rfl, rfl, rfl, raise_pendingEvent ..⟩

end Sys2Proof.Machine
end

section
/-!
PROOFS. The link's states (R73 to R77).
-/
namespace Sys2Proof.Machine

/-! ### The cable and training -/

theorem exec_cablePresentRise {s : State} (low : s.pins.cable = false) :
    exec .cablePresentRise s = .next (cableRises s) := congrArg Host.Outcome.next (if_neg (Bool.eq_false_iff.mp low))

theorem exec_cablePresentFall {s : State} (high : s.pins.cable = true) :
    exec .cablePresentFall s = .next (cableFalls s) := congrArg Host.Outcome.next (if_pos high)

/-- The part with the cable gone. -/
def State.unplugged (s : State) : State := s.onPins fun p => { p with cable := false }

theorem cableFalls_of_down {s : State} (link : s.tc.link = .down) :
    cableFalls s = s.unplugged.onTc fun t => { t with retry := none } := by
  simp only [cableFalls, State.onPins_tc, link, State.unplugged]

theorem cableFalls_of_training {s : State} (link : s.tc.link = .training) :
    cableFalls s = trainingLost s.unplugged := by
  simp only [cableFalls, State.onPins_tc, link, State.unplugged]

theorem cableFalls_of_up {s : State} (link : s.tc.link = .up) : cableFalls s = drain (enterDown s.unplugged) := by
  simp only [cableFalls, State.onPins_tc, link, State.unplugged]

theorem cableFalls_of_recovery {s : State} (link : s.tc.link = .recovery) :
    cableFalls s = enterDown s.unplugged := by
  simp only [cableFalls, State.onPins_tc, link, State.unplugged]

theorem trainingLost_tc (s : State) : (trainingLost s).tc =
    { s.tc with link := .down, since := s.tb.now, retry := if s.pins.cable then some 500000 else none, training := none } :=
  rfl

/-! ### DOWN -/

theorem finishSlots_leaves (l : List (Fin 3)) (o : Outcome) (s : State) :
    (finishSlots l o s).tc = { s.tc with inProgress := (finishSlots l o s).tc.inProgress } := (finishSlots_tc l o s).2

theorem enterDown_tc (s : State) : (enterDown s).tc =
    { (s.tc.leaveUp.startRetry s.pins.cable) with
      link := .down, since := s.tb.now, recovery := none, queue := [], history := Vector.replicate 3 [],
      histChange := (enterDown s).tc.histChange, ackRequest := false, echoRequest := none, keepRequest := false,
      inProgress := (enterDown s).tc.inProgress } := by
  have raised (k : EventKind) (u : State) : (raise k u).tc = u.tc := by simp
  have lost (u : State) : (tetherLost u).tc = u.tc := by simp
  rw [enterDown, raised, lost, finishSlots_leaves]
  rfl

theorem tetherLost_tether (s : State) : (tetherLost s).st.tether = none := by
  unfold tetherLost
  split
  next none => exact none
  next f open_ =>
    have dropped : s.st.dropTether.tether = none := by
      rw [St.dropTether, open_]
    exact dropped

/-- Leaving for DOWN loses the queue, the history and the requests, and the open tether frame with them (R77). -/
theorem enterDown_loses (s : State) :
    let t := enterDown s
    t.tc.link = .down ∧ t.tc.retry = (if s.pins.cable then some 500000 else none) ∧ t.tc.queue = [] ∧
    (∀ c, vget t.tc.history c = []) ∧ t.tc.ackRequest = false ∧ t.tc.echoRequest = none ∧
    t.tc.keepRequest = false ∧ (∀ c, vget t.tc.ackTimers c = none) ∧ t.tc.expected = s.tc.expected ∧
    t.tc.nextSeq = s.tc.nextSeq ∧ t.tc.ring = s.tc.ring ∧ t.tc.pairs = s.tc.pairs ∧ t.st.tether = none ∧
    t.pendingEvent .linkDown = true := by
  dsimp only
  refine ⟨?_, ?_, ?_, ?_, ?_, ?_, ?_, ?_, ?_, ?_, ?_, ?_, ?_, raise_pendingEvent ..⟩
  case refine_13 => exact tetherLost_tether _
  all_goals rw [enterDown_tc]
  case refine_4 => exact vget_replicate []
  case refine_8 => exact vget_replicate none
  all_goals rfl

/-! ### UP -/

/-- TRAINING's end, before the lane's choice. -/
def State.trained (s : State) : State :=
  raise .linkUp (setLink .up (s.onTc fun t =>
    { t.startUp with training := none, expected := 0, lastTaken := none, nextSeq := Vector.replicate 3 0,
                     ackRequest := false, upFromRecovery := false }))

theorem trainingDone_eq (s : State) : trainingDone s = laneKick s.trained := rfl

theorem State.trained_tc (s : State) : s.trained.tc =
    { s.tc with link := .up, since := s.tb.now, receive := some 8000, idle := some 2000, training := none, expected := 0,
                lastTaken := none, nextSeq := Vector.replicate 3 0, ackRequest := false, upFromRecovery := false } := rfl

theorem laneKick_pendingEvent (k : EventKind) (s : State) : (laneKick s).pendingEvent k = s.pendingEvent k := by
  have same : (laneKick s).eu = s.eu := by simp
  rw [State.pendingEvent, same, State.pendingEvent]

/-- Nothing is eligible where nothing is asked for, queued, or kept for a resend. -/
theorem Tc.choice_of_idle {t : Tc} (ack : t.ackRequest = false) (echo : t.echoRequest = none)
    (keep : t.keepRequest = false) (history : ∀ c, vget t.history c = []) (queue : t.queue = []) : t.choice = none := by
  have nothing (c : Fin 3) : t.classChoice c = none :=
    Tc.classChoice_eq_none_iff.mpr ⟨by simp [history], by simp [queue]⟩
  simp [Tc.choice, ack, echo, keep, nothing, queue]

/-- An entry marked for resend at the end of RECOVERY. -/
def HistEntry.afresh (e : HistEntry) : HistEntry := { e with resend := true, sends := 0 }

theorem Tc.markAll_eq (t : Tc) : t.markAll true =
    { t with history := vmap (List.map HistEntry.afresh) t.history, histChange := (t.markAll true).histChange } := by
  rw [Tc.markAll, Tc.noteHist_eq]
  rfl

/-- RECOVERY's end, before the lane's choice. -/
def State.recovered (s : State) : State :=
  raise .linkUp (setLink .up (s.onTc fun t => { (t.markAll true).startUp with recovery := none, upFromRecovery := true }))

theorem recoveryDone_eq (s : State) : recoveryDone s = laneKick s.recovered := rfl

theorem State.recovered_tc (s : State) : s.recovered.tc =
    { s.tc with link := .up, since := s.tb.now, receive := some 8000, idle := some 2000, recovery := none,
                upFromRecovery := true, history := vmap (List.map HistEntry.afresh) s.tc.history,
                histChange := (s.tc.markAll true).histChange } := by
  have same : s.recovered.tc =
    { (s.tc.markAll true).startUp with link := .up, since := s.tb.now, recovery := none, upFromRecovery := true } := rfl
  rw [same, Tc.markAll_eq]
  rfl

/-- The lane's choice at the end of RECOVERY. -/
theorem recoveryDone_lane (s : State) :
    let u := recoveryDone s
    let back : Tc := { s.tc with history := vmap (List.map HistEntry.afresh) s.tc.history }
    (s.tc.lane ≠ .free → ∀ c, vget u.tc.history c = (vget s.tc.history c).map HistEntry.afresh) ∧
    (∀ c e rest, vget s.tc.history c = e :: rest →
      (back.reaches c → s.resends c e.afresh (rest.map HistEntry.afresh) u) ∧
      (¬ back.reaches c → vget u.tc.history c = (e :: rest).map HistEntry.afresh)) := by
  intro u back
  have here (c : Fin 3) : vget s.recovered.tc.history c = (vget s.tc.history c).map HistEntry.afresh := by
    rw [State.recovered_tc, vget_vmap]
  have lane : s.recovered.tc.lane = s.tc.lane := by rw [State.recovered_tc]
  have reaches (c : Fin 3) : s.recovered.tc.reaches c ↔ back.reaches c := by
    rw [State.recovered_tc]
    exact Tc.reaches_congr rfl rfl rfl rfl rfl rfl rfl
  refine ⟨fun busy c => ?_, fun c e rest history => ⟨fun comes => ?_, fun passes => ?_⟩⟩
  · have still : u = s.recovered := laneKick_of_busy fun free => busy (lane.symm.trans free)
    rw [still, here]
  · have first := here c
    rw [history] at first
    have resent : s.recovered.tc.resent = s.tc.resent := by rw [State.recovered_tc]
    exact State.resends_congr (t := s.recovered) rfl resent
      (laneKick_of_reaches (by rw [State.recovered_tc]) ((reaches c).mpr comes) first rfl).1
  · rw [← history, ← here c]
    exact laneKick_of_not_reaches (mt (reaches c).mp passes)

/-- Settles O47, transition by transition. -/
theorem linkTransitions : Obligations.LinkTransitions := by
  intro s retry trains lost
  refine ⟨fun low => ⟨_, exec_cablePresentRise low, ?_, fun starts => ?_, fun stays => ?_⟩,
    fun high => ⟨fun link => ⟨_, exec_cablePresentFall high, ?_⟩, fun link => ⟨_, exec_cablePresentFall high, ?_⟩,
      fun link => ?_, fun link => ⟨_, exec_cablePresentFall high, ?_⟩⟩,
    fun link ends => ⟨_, congrArg Host.Outcome.next (if_pos ⟨link, by simp [due, ends]⟩), rfl, rfl, rfl, rfl, rfl⟩,
    fun link => ⟨_, congrArg Host.Outcome.next (if_pos link), ?_⟩,
    fun link ends => ⟨_, congrArg Host.Outcome.next (if_pos ⟨link, by simp [due, ends]⟩), rfl, rfl⟩,
    fun link ends => ⟨_, congrArg Host.Outcome.next (if_pos ⟨link, by simp [due, ends]⟩), rfl, rfl, rfl, rfl, rfl, rfl,
      fun c => vget_replicate none c, rfl, rfl, rfl, rfl, raise_pendingEvent ..⟩,
    fun link => ⟨_, congrArg Host.Outcome.next (if_pos link), ?_⟩,
    fun link ends => ⟨_, congrArg Host.Outcome.next (if_pos ⟨link, by simp [due, ends]⟩), enterDown_loses s⟩⟩
  · simp only [cableRises]
    split <;> rfl
  · rw [show cableRises s = startTraining (s.onPins fun p => { p with cable := true }) from if_pos starts]
    exact ⟨rfl, rfl, rfl, rfl, rfl⟩
  · rw [show cableRises s = s.onPins fun p => { p with cable := true } from if_neg stays]
    rfl
  · rw [cableFalls_of_down link]
    exact ⟨rfl, rfl⟩
  · rw [cableFalls_of_training link]
    exact ⟨rfl, rfl⟩
  · exact ⟨_, (exec_cablePresentFall high).trans (congrArg Host.Outcome.next (cableFalls_of_up link)), by simp [State.unplugged],
      enterDown_loses s.unplugged⟩
  · rw [cableFalls_of_recovery link]
    exact ⟨by simp [State.unplugged], enterDown_loses s.unplugged⟩
  · rw [trainingDone_eq]
    have linkUp : (laneKick s.trained).pendingEvent .linkUp = true := by
      rw [laneKick_pendingEvent]
      exact raise_pendingEvent ..
    refine ⟨?_, ?_, ?_, ?_, ?_, ?_, linkUp, fun queue history echo keep => ?_⟩
    case refine_7 =>
      have quiet : s.trained.tc.choice = none := by
        rw [State.trained_tc]
        exact Tc.choice_of_idle rfl echo keep history queue
      rw [laneKick_of_none quiet, State.trained_tc]
      exact ⟨rfl, fun c => vget_replicate 0 c, rfl⟩
    all_goals
      simp only [laneKick_leaves]
      rw [State.trained_tc]
  · rw [recoveryDone_eq]
    obtain ⟨busy, classes⟩ := recoveryDone_lane s
    have linkUp : (laneKick s.recovered).pendingEvent .linkUp = true := by
      rw [laneKick_pendingEvent]
      exact raise_pendingEvent ..
    refine ⟨?_, ?_, ?_, ?_, ?_, ?_, linkUp, busy, classes⟩
    all_goals
      simp only [laneKick_leaves]
      rw [State.recovered_tc]

end Sys2Proof.Machine
end

section
/-!
PROOFS. Downlink packets and their sequence (R75, R78, R79, R81, R88).
-/
namespace Sys2Proof.Machine

/-! ### A packet's arrival -/

theorem arrive_deaf {s : State} (h : s.tc.link ≠ .up ∨ s.tc.paused ≠ none) (need : Nat) (p : Packet) :
    arrive need p s = s := if_neg fun both => h.elim (· both.1) (· both.2)

theorem arrive_pauses {s : State} {need : Nat} (up : s.tc.link = .up) (runs : s.tc.paused = none)
    (full : s.depositRoom < need) (p : Packet) : arrive need p s = drain (pauseAt need p s) := by
  rw [arrive, if_pos ⟨up, runs⟩, if_pos full]

theorem arrive_hears {s : State} {need : Nat} (h : s.hears need) (p : Packet) :
    arrive need p s = drain (receivePacket p s) := by
  obtain ⟨up, runs, room⟩ := h
  rw [arrive, if_pos ⟨up, runs⟩, if_neg (Nat.not_lt.mpr room)]

theorem State.hears.less {s : State} {m n : Nat} (h : s.hears n) (le : m ≤ n) : s.hears m :=
  ⟨h.1, h.2.1, Nat.le_trans le h.2.2⟩

theorem execDownlinkPause_deaf {s : State} (h : s.tc.link ≠ .up ∨ s.tc.paused ≠ none) (raw : List Byte) :
    exec (.downlinkPause raw) s = .next s := by
  refine congrArg Host.Outcome.next ?_
  split
  · exact arrive_deaf h ..
  · rfl

theorem execDownlinkInvalidPacket_deaf {s : State} (h : s.tc.link ≠ .up ∨ s.tc.paused ≠ none) (raw : List Byte) :
    exec (.downlinkInvalidPacket raw) s = .next s := by
  refine congrArg Host.Outcome.next ?_
  split
  · exact arrive_deaf h ..
  · rfl

/-- The part with the receive timer started over. -/
def State.heard (s : State) : State := s.onTc fun t => { t with receive := some 8000 }

/-! ### The sequence (R79) -/

theorem seqOrder_older {expected seq : U16} (ahead : 1 ≤ (expected - seq).toNat)
    (near : (expected - seq).toNat ≤ 32768) : seqOrder expected seq = .older := by
  have other : seq ≠ expected := by
    rintro rfl
    simp at ahead
  rw [seqOrder, if_neg other, if_pos near]

theorem seqOrder_newer {expected seq : U16} (ahead : 1 ≤ (seq - expected).toNat)
    (near : (seq - expected).toNat ≤ 32767) : seqOrder expected seq = .newer := by
  have other : seq ≠ expected := by
    rintro rfl
    simp at ahead
  have far : ¬ (expected - seq).toNat ≤ 32768 := by bv_omega
  rw [seqOrder, if_neg other, if_neg far]

theorem seqOrder_next (seq : U16) : seqOrder seq seq = .next := if_pos rfl

/-- The sequenced packets: each with what its owner does where it is taken. -/
theorem handlePacket_sequenced {p : Packet} {seq : U16} {bytes : List Byte} {fb : FrameBegin} {tag : U32}
    (h : p ∈ [Packet.frameBegin seq fb, .frameEnd seq tag, .message seq bytes, .wake seq]) (s : State) :
    (seqOrder s.tc.expected seq = .older → handlePacket p s = dropOlder s) ∧
    (seqOrder s.tc.expected seq = .newer → handlePacket p s = dropNewer s) := by
  simp only [List.mem_cons, List.not_mem_nil, or_false] at h
  rcases h with rfl | rfl | rfl | rfl
  all_goals exact ⟨fun order => by simp only [handlePacket, bySequence, receiveMessage, order],
    fun order => by simp only [handlePacket, bySequence, receiveMessage, order]⟩

/-- A valid packet is handed over, and the lane arbiter chooses. -/
theorem receivePacket_valid {p : Packet} (crc : p ≠ .badCrc) (format : p ≠ .badFormat) (s : State) :
    receivePacket p s = laneKick (handlePacket p s.heard) := by
  unfold receivePacket
  split
  · exact absurd rfl crc
  · exact absurd rfl format
  · rfl

/-- An older packet is counted, and acknowledged again. -/
theorem receivePacket_older {p : Packet} {seq : U16} {bytes : List Byte} {fb : FrameBegin} {tag : U32} {s : State}
    (h : p ∈ [Packet.frameBegin seq fb, .frameEnd seq tag, .message seq bytes, .wake seq])
    (order : seqOrder s.tc.expected seq = .older) :
    let u := receivePacket p s
    u.tc.expected = s.tc.expected ∧ u.tc.duplicates = s.tc.duplicates + 1 ∧ u.tc.receive = some 8000 ∧
    u.st = s.st ∧ u.pwc = s.pwc ∧ (s.tc.lane ≠ .free → u.tc.ackRequest = (s.tc.ackRequest || s.tc.lastTaken.isSome)) := by
  have valid : p ≠ .badCrc ∧ p ≠ .badFormat := by
    constructor <;> rintro rfl <;> simp at h
  have made : receivePacket p s = laneKick (dropOlder s.heard) := by
    rw [receivePacket_valid valid.1 valid.2, (handlePacket_sequenced h s.heard).1 order]
  dsimp only
  rw [made]
  refine ⟨?_, ?_, ?_, ?_, ?_, fun busy => ?_⟩
  case refine_6 =>
    rw [laneKick_of_busy (show (dropOlder s.heard).tc.lane ≠ .free from busy)]
    rfl
  all_goals simp [dropOlder, State.heard]

/-- A newer packet is counted. -/
theorem receivePacket_newer {p : Packet} {seq : U16} {bytes : List Byte} {fb : FrameBegin} {tag : U32} {s : State}
    (h : p ∈ [Packet.frameBegin seq fb, .frameEnd seq tag, .message seq bytes, .wake seq])
    (order : seqOrder s.tc.expected seq = .newer) :
    let u := receivePacket p s
    u.tc.expected = s.tc.expected ∧ u.tc.gaps = s.tc.gaps + 1 ∧ u.tc.receive = some 8000 ∧
    u.st = s.st ∧ u.pwc = s.pwc ∧ (s.tc.lane ≠ .free → u.tc.ackRequest = s.tc.ackRequest) := by
  have valid : p ≠ .badCrc ∧ p ≠ .badFormat := by
    constructor <;> rintro rfl <;> simp at h
  have made : receivePacket p s = laneKick (dropNewer s.heard) := by
    rw [receivePacket_valid valid.1 valid.2, (handlePacket_sequenced h s.heard).2 order]
  dsimp only
  rw [made]
  refine ⟨?_, ?_, ?_, ?_, ?_, fun busy => ?_⟩
  case refine_6 =>
    rw [laneKick_of_busy (show (dropNewer s.heard).tc.lane ≠ .free from busy)]
    rfl
  all_goals simp [dropNewer, State.heard]

/-! ### Packets that are taken -/

/-- What an owner leaves of the sequence and the lane. -/
def Tc.SameTurn (t u : Tc) : Prop :=
  u.expected = t.expected ∧ u.lastTaken = t.lastTaken ∧ u.receive = t.receive ∧ u.ackRequest = t.ackRequest ∧
  u.lane = t.lane

theorem laneKick_turn (s : State) : (laneKick s).tc.expected = s.tc.expected ∧
    (laneKick s).tc.lastTaken = s.tc.lastTaken ∧ (laneKick s).tc.receive = s.tc.receive := by simp

/-- The next packet is taken. -/
theorem receivePacket_next {p : Packet} {seq : U16} {owner : State → State} {s : State} (crc : p ≠ .badCrc)
    (format : p ≠ .badFormat) (next : seq = s.tc.expected) (handled : ∀ t, handlePacket p t = bySequence seq owner t)
    (turn : ∀ t : State, t.tc.SameTurn (owner t).tc) :
    let u := receivePacket p s
    u = laneKick (owner (takeSeq seq s.heard)) ∧ u.tc.expected = seq + 1 ∧ u.tc.lastTaken = some seq ∧
    u.tc.receive = some 8000 ∧ (s.tc.lane ≠ .free → u.tc.ackRequest = true) := by
  have order : seqOrder s.heard.tc.expected seq = .next := by
    rw [next]
    exact seqOrder_next _
  have made : receivePacket p s = laneKick (owner (takeSeq seq s.heard)) := by
    rw [receivePacket_valid crc format, handled, bySequence, order]
  obtain ⟨expected, lastTaken, receive, ackRequest, lane⟩ := turn (takeSeq seq s.heard)
  obtain ⟨expected', lastTaken', receive'⟩ := laneKick_turn (owner (takeSeq seq s.heard))
  dsimp only
  rw [made]
  refine ⟨rfl, ?_, by rw [lastTaken', lastTaken]; rfl, by rw [receive', receive]; rfl, fun busy => ?_⟩
  · rw [expected', expected, next]
    rfl
  · rw [laneKick_of_busy (by rw [lane]; exact busy), ackRequest]
    rfl

theorem tetherBegin_turn (fb : FrameBegin) (t : State) : t.tc.SameTurn (tetherBegin fb t).tc := by
  rw [tetherBegin_tc]
  exact ⟨rfl, rfl, rfl, rfl, rfl⟩

theorem tetherEnd_turn (tag : U32) (t : State) : t.tc.SameTurn (tetherEnd tag t).tc := by
  rw [show (tetherEnd tag t).tc = t.tc by simp]
  exact ⟨rfl, rfl, rfl, rfl, rfl⟩

theorem takeWake_eq (s : State) :
    takeWake s = if s.pwc.settings.wakeTether then wakeCause .tetherWake (raise .tetherWake s) else raise .tetherWake s := by
  simp only [takeWake, raise_keeps]

theorem takeWake_turn (t : State) : t.tc.SameTurn (takeWake t).tc := by
  have tc : (takeWake t).tc = t.tc := by
    rw [takeWake_eq]
    split <;> simp
  rw [tc]
  exact ⟨rfl, rfl, rfl, rfl, rfl⟩

/-! ### The wake packet (R88) -/

theorem takeWake_pending (s : State) : (takeWake s).pendingEvent .tetherWake = true := by
  have eu : (takeWake s).eu = (raise .tetherWake s).eu := by
    rw [takeWake_eq]
    split <;> simp
  rw [State.pendingEvent, eu]
  exact raise_pendingEvent ..

/-- A WAKE that is taken offers its wake cause where the settings have it. -/
theorem takeWake_pwc (s : State) :
    (s.pwc.settings.wakeTether = true → s.pwc.state = .standby →
      (takeWake s).pwc.state = .waking ∧ (takeWake s).pwc.lastWake = .tetherWake) ∧
    (s.pwc.settings.wakeTether = true → s.pwc.state = .enteringStandby → s.pwc.keptWake = none →
      (takeWake s).pwc = { s.pwc with keptWake := some .tetherWake }) ∧
    (s.pwc.settings.wakeTether = false ∨ (s.pwc.state ≠ .standby ∧ s.pwc.state ≠ .enteringStandby) →
      (takeWake s).pwc = s.pwc) := by
  rw [takeWake_eq]
  refine ⟨fun wakes state => ?_, fun wakes state kept => ?_, fun quiet => ?_⟩
  · rw [if_pos wakes]
    simp [wakeCause, beginWaking, state]
  · rw [if_pos wakes]
    simp [wakeCause, state, kept]
  · by_cases wakes : s.pwc.settings.wakeTether = true
    · rw [if_pos wakes]
      obtain ⟨standby, entering⟩ := quiet.resolve_left (by simp [wakes])
      cases state : s.pwc.state <;> simp [wakeCause, state] <;> contradiction
    · rw [if_neg wakes]
      simp

/-- A command whose packet is older or newer than the next. -/
theorem sequenced_judged {c : Instr} {p : Packet} {seq : U16} {bytes : List Byte} {fb : FrameBegin} {tag : U32} {s : State}
    (h : p ∈ [Packet.frameBegin seq fb, .frameEnd seq tag, .message seq bytes, .wake seq])
    (run : exec c s = .next (drain (receivePacket p s))) :
    (1 ≤ (s.tc.expected - seq).toNat → (s.tc.expected - seq).toNat ≤ 32768 → runsTo c s fun u =>
      u.tc.expected = s.tc.expected ∧ u.tc.duplicates = s.tc.duplicates + 1 ∧ u.tc.receive = some 8000 ∧ u.st = s.st ∧
      u.pwc = s.pwc ∧ (s.tc.lane ≠ .free → u.tc.ackRequest = (s.tc.ackRequest || s.tc.lastTaken.isSome))) ∧
    (1 ≤ (seq - s.tc.expected).toNat → (seq - s.tc.expected).toNat ≤ 32767 → runsTo c s fun u =>
      u.tc.expected = s.tc.expected ∧ u.tc.gaps = s.tc.gaps + 1 ∧ u.tc.receive = some 8000 ∧ u.st = s.st ∧
      u.pwc = s.pwc ∧ (s.tc.lane ≠ .free → u.tc.ackRequest = s.tc.ackRequest)) :=
  ⟨fun ahead near => ⟨_, run, receivePacket_older h (seqOrder_older ahead near)⟩,
    fun ahead near => ⟨_, run, receivePacket_newer h (seqOrder_newer ahead near)⟩⟩

/-- A command whose packet is the next. -/
theorem sequenced_taken {c : Instr} {p : Packet} {seq : U16} {owner : State → State} {s : State} (crc : p ≠ .badCrc)
    (format : p ≠ .badFormat) (next : seq = s.tc.expected) (handled : ∀ t, handlePacket p t = bySequence seq owner t)
    (turn : ∀ t : State, t.tc.SameTurn (owner t).tc) (run : exec c s = .next (drain (receivePacket p s))) :
    runsTo c s fun u => u.tc.expected = seq + 1 ∧ u.tc.lastTaken = some seq ∧ u.tc.receive = some 8000 ∧
      (s.tc.lane ≠ .free → u.tc.ackRequest = true) :=
  ⟨_, run, (receivePacket_next crc format next handled turn).2⟩

/-- Settles O49, kind by kind. -/
theorem downlinkPackets : Obligations.DownlinkPackets := by
  intro raw bytes seq fb tag s tc busy
  refine ⟨fun deaf c kind => ?_, fun up runs full => ?_, fun hears => ⟨fun crc => ?_, fun format => ?_⟩, fun hears => ?_,
    fun fits hears c kind => ?_, fun hears next c kind => ?_, fun hears next => ?_⟩
  · simp only [List.mem_cons, List.not_mem_nil, or_false] at kind
    rcases kind with rfl | rfl | rfl | rfl | rfl | rfl | rfl
    · exact execDownlinkPause_deaf deaf raw
    · exact execDownlinkInvalidPacket_deaf deaf raw
    all_goals exact congrArg Host.Outcome.next (arrive_deaf deaf ..)
  · refine ⟨_, congrArg Host.Outcome.next ((if_pos (decide_eq_true full)).trans (arrive_pauses up runs full _)), rfl⟩
  · refine ⟨_, congrArg Host.Outcome.next ((if_pos (.inl crc)).trans (arrive_hears hears _)), ?_⟩
    rw [crc]
    rfl
  · refine ⟨_, congrArg Host.Outcome.next ((if_pos (.inr format)).trans (arrive_hears hears _)), ?_⟩
    rw [format]
    rfl
  · refine ⟨_, congrArg Host.Outcome.next (arrive_hears hears _), ?_⟩
    rw [receivePacket_valid (p := .keepalive) nofun nofun]
    refine ⟨?_, ?_, ?_, ?_, ?_, ?_, fun busy => laneKick_of_busy busy⟩
    all_goals simp [handlePacket, State.heard, tc]
  · have packets {p : Packet} (h : p ∈ [Packet.frameBegin seq fb, .frameEnd seq tag, .message seq bytes, .wake seq])
        (run : exec c s = .next (drain (receivePacket p s))) := sequenced_judged h run
    simp only [List.mem_cons, List.not_mem_nil, or_false] at kind
    have zero := hears.less (Nat.zero_le _)
    rcases kind with rfl | rfl | rfl | rfl
    · exact packets (p := .frameBegin seq fb) (by simp) (congrArg Host.Outcome.next (arrive_hears zero _))
    · exact packets (p := .frameEnd seq tag) (by simp) (congrArg Host.Outcome.next (arrive_hears zero _))
    · refine packets (p := .message seq bytes) (by simp) (congrArg Host.Outcome.next ?_)
      rw [messagePacket, if_neg (Nat.not_lt.mpr fits)]
      exact arrive_hears hears _
    · exact packets (p := .wake seq) (by simp) (congrArg Host.Outcome.next (arrive_hears zero _))
  · have taken {p : Packet} {owner : State → State} (crc : p ≠ .badCrc) (format : p ≠ .badFormat)
        (handled : ∀ t, handlePacket p t = bySequence seq owner t) (turn : ∀ t : State, t.tc.SameTurn (owner t).tc)
        (run : exec c s = .next (drain (receivePacket p s))) := sequenced_taken crc format next handled turn run
    simp only [List.mem_cons, List.not_mem_nil, or_false] at kind
    rcases kind with rfl | rfl | rfl
    · exact taken (p := .frameBegin seq fb) nofun nofun (fun _ => rfl) (tetherBegin_turn fb)
        (congrArg Host.Outcome.next (arrive_hears hears _))
    · exact taken (p := .frameEnd seq tag) nofun nofun (fun _ => rfl) (tetherEnd_turn tag)
        (congrArg Host.Outcome.next (arrive_hears hears _))
    · exact taken (p := .wake seq) nofun nofun (fun _ => rfl) takeWake_turn
        (congrArg Host.Outcome.next (arrive_hears hears _))
  · refine ⟨_, congrArg Host.Outcome.next (arrive_hears hears _), ?_⟩
    rw [(receivePacket_next (p := .wake seq) nofun nofun next (fun _ => rfl) takeWake_turn).1]
    have pwc (t : State) : (laneKick t).pwc = t.pwc := by simp
    dsimp only
    rw [laneKick_pendingEvent, pwc]
    exact ⟨takeWake_pending _, takeWake_pwc (takeSeq seq s.heard)⟩

end Sys2Proof.Machine
end

section
/-!
PROOFS. Tether frames (R17, R18, R20, R23).
-/
namespace Sys2Proof.Machine

/-! ### Rejections -/

/-- A tether frame has been rejected. -/
def State.RejectsTether (cause : RejectCause) (tag : U32) (u : State) : Prop :=
  u.st.rejectCause = cause ∧ u.st.rejectTag = tag ∧ u.pendingEvent .tetherFrameReject = true

theorem rejectTether_st (cause : RejectCause) (tag : U32) (s : State) :
    (rejectTether cause tag s).st = { s.st with rejectCause := cause, rejectTag := tag } := rfl

theorem rejectTether_rejects (cause : RejectCause) (tag : U32) (s : State) :
    (rejectTether cause tag s).RejectsTether cause tag := ⟨rfl, rfl, raise_pendingEvent ..⟩

theorem rejectTether_others (cause : RejectCause) (tag : U32) (s : State) :
    (rejectTether cause tag s).tc = s.tc ∧ (rejectTether cause tag s).tm = s.tm := by simp

theorem laneKick_st (s : State) : (laneKick s).st = s.st := by simp

theorem State.RejectsTether.kick {cause : RejectCause} {tag : U32} {s : State} (h : s.RejectsTether cause tag) :
    (laneKick s).RejectsTether cause tag := by
  rwa [State.RejectsTether, laneKick_st, laneKick_pendingEvent]

/-! ### The surfaces of an open frame -/

/-- The surfaces that an open tether frame still has. -/
def St.given (t : St) : List (Fin 6) := (t.tether.map TetherFrame.kept).getD []

/-- A surface once an open tether frame has been given up. -/
def St.freed (t : St) (n : Fin 6) : Surface :=
  if n ∈ t.given then { t.surface n with state := .free } else t.surface n

theorem St.dropTether_shows (t : St) :
    (∀ n, t.dropTether.surface n = t.freed n) ∧ t.dropTether.queue = t.queue ∧ t.dropTether.current = t.current ∧
    t.dropTether.previous = t.previous ∧ t.dropTether.barred = t.barred ∧ t.dropTether.nextIdent = t.nextIdent := by
  unfold St.dropTether
  split
  next closed =>
    exact ⟨fun n => by simp [St.freed, St.given, closed], rfl, rfl, rfl, rfl, rfl⟩
  next f opened =>
    obtain ⟨queue, current, previous, -, barred, ident, -⟩ := St.setStates_keeps .free f.kept t
    refine ⟨fun n => ?_, queue, current, previous, barred, ident⟩
    have given : t.given = f.kept := by simp [St.given, opened]
    rw [St.freed, given]
    exact St.surface_setStates ..

theorem St.freed_config (t : St) (n : Fin 6) : (t.freed n).config = (t.surface n).config := by
  unfold St.freed
  split <;> rfl

/-- A taken FRAME_BEGIN first gives up an open frame. -/
theorem tetherCleared_shows (fb : FrameBegin) (s : State) :
    let u := tetherCleared fb s
    (∀ n, u.st.surface n = s.st.freed n) ∧ u.st.tether = none ∧ u.st.queue = s.st.queue ∧
    u.st.current = s.st.current ∧ u.st.previous = s.st.previous ∧ u.st.barred = s.st.barred ∧
    u.st.nextIdent = s.st.nextIdent ∧ u.tc = s.tc ∧ u.tm = s.tm ∧
    (s.st.tether ≠ none → u.RejectsTether .abandoned fb.tag) ∧ (s.st.tether = none → u.st = s.st) := by
  obtain ⟨surfaces, queue, current, previous, barred, ident⟩ := s.st.dropTether_shows
  cases opened : s.st.tether with
  | none =>
    have same : tetherCleared fb s = s := if_neg (by simp [opened])
    dsimp only
    rw [same]
    exact ⟨fun n => by simp [St.freed, St.given, opened], opened, rfl, rfl, rfl, rfl, rfl, rfl, rfl, fun some => absurd rfl some,
      fun _ => rfl⟩
  | some f =>
    have made : tetherCleared fb s = rejectTether .abandoned fb.tag (s.onSt St.dropTether) := if_pos (by simp [opened])
    dsimp only
    rw [made]
    exact ⟨surfaces, s.st.dropTether_tether, queue, current, previous, barred, ident, by simp, by simp,
      fun _ => rejectTether_rejects .., nofun⟩

theorem St.eyesOk_congr {t u : St} (configs : ∀ m, (u.surface m).config = (t.surface m).config) (left : Fin 6)
    (right : Option (Fin 6)) : u.eyesOk left right = t.eyesOk left right := by
  have eyes : u.eyeOf = t.eyeOf := funext fun m => by rw [St.eyeOf, configs, St.eyeOf]
  simp only [St.eyesOk, eyes]

/-! ### FRAME_BEGIN (R17, R18) -/

/-- The names and the surfaces of a FRAME_BEGIN that is accepted. -/
def St.accepts (fb : FrameBegin) (left : Fin 6) (right : Option (Fin 6)) (t : St) : Prop :=
  beginSurfaces fb = some (left, right) ∧
  (∀ n ∈ left :: right.toList, (t.freed n).ownedBy .tether = true ∧ (t.freed n).state = .free) ∧
  t.eyesOk left right = true ∧ t.barred = false

theorem St.accepts_iff {fb : FrameBegin} {left : Fin 6} {right : Option (Fin 6)} (s : State)
    (names : beginSurfaces fb = some (left, right)) : s.st.accepts fb left right ↔
    ((left :: right.toList).all (fun n => ((tetherCleared fb s).st.surface n).openable) &&
      (tetherCleared fb s).st.eyesOk left right && !(tetherCleared fb s).st.barred) = true := by
  obtain ⟨surfaces, -, -, -, -, barred, -⟩ := tetherCleared_shows fb s
  have eyes := St.eyesOk_congr (t := s.st) (u := (tetherCleared fb s).st)
    (fun m => by rw [surfaces, St.freed_config]) left right
  rw [eyes, barred]
  simp only [St.accepts, names, true_and, surfaces, Surface.openable, Bool.and_eq_true, List.all_eq_true, beq_iff_eq,
    Bool.not_eq_true', and_assoc]

theorem tetherBegin_of_accepts {fb : FrameBegin} {left : Fin 6} {right : Option (Fin 6)} {s : State}
    (h : s.st.accepts fb left right) : tetherBegin fb s = acceptFrame fb left right (tetherCleared fb s) := by
  rw [tetherBegin_eq, h.1]
  exact if_pos ((St.accepts_iff s h.1).mp h)

theorem tetherBegin_of_refused {fb : FrameBegin} {s : State} (h : ∀ left right, ¬ s.st.accepts fb left right) :
    tetherBegin fb s = rejectTether .state fb.tag (tetherCleared fb s) := by
  rw [tetherBegin_eq]
  split
  · rfl
  next left right names => exact if_neg (mt (St.accepts_iff s names).mpr (h left right))

theorem vget_foldl_vset {α : Type} {k : Nat} (x : α) (l : List (Fin k)) {n : Fin k} (v : Vector α k)
    (h : n ∈ l ∨ vget v n = x) : vget (l.foldl (fun v n => vset v n x) v) n = x := by
  induction l generalizing v with
  | nil => exact h.resolve_left List.not_mem_nil
  | cons m r ih =>
    refine ih _ ?_
    by_cases here : m = n
    · exact .inr (by rw [here, vget_vset_same])
    · rw [vget_vset_ne _ _ here]
      exact h.imp_left fun named => (List.mem_cons.mp named).resolve_left (Ne.symm here)

/-- What an accepted FRAME_BEGIN makes of a tracker without an open frame. -/
theorem acceptFrame_shows (fb : FrameBegin) (left : Fin 6) (right : Option (Fin 6)) (s : State) :
    let u := acceptFrame fb left right s
    u.st.queue = s.st.queue ∧ u.st.current = s.st.current ∧ u.st.previous = s.st.previous ∧
    u.st.tether = some { tag := fb.tag, left, leftReleased := false, right, rightReleased := false,
                         target := fb.target, pose := fb.pose, present := fb.present, ident := s.st.nextIdent } ∧
    (∀ n, u.st.surface n =
      if n ∈ left :: right.toList then { (s.st.surface n).clear with state := .opened } else s.st.surface n) ∧
    (∀ n ∈ left :: right.toList, vget u.tc.frontiers n = ⟨none, none, some s.st.nextIdent⟩) ∧
    u.tm.pulses = s.tm.pulses ++ [14] ∧ u.st.rejectCause = s.st.rejectCause ∧ u.st.rejectTag = s.st.rejectTag ∧
    u.eu = s.eu := by
  obtain ⟨queue, current, previous, -, -, -, -, -, cause, tag⟩ :=
    St.foldl_onSurface_keeps (fun x => { x.clear with state := .opened }) (left :: right.toList) s.st
  refine ⟨queue, current, previous, rfl, fun n => ?_, fun n named => ?_, rfl, cause, tag, rfl⟩
  · exact St.surface_foldl_onSurface (f := fun x => { x.clear with state := .opened }) (by simp [Surface.clear]) _ s.st n
  · exact vget_foldl_vset _ _ _ (.inl named)

/-! ### FRAME_END (R20) -/

section
variable {s : State} {f : TetherFrame} {tag : U32}

theorem tetherEnd_of_none (closed : s.st.tether = none) : tetherEnd tag s = rejectTether .tag tag s := by
  rw [tetherEnd, closed]

theorem tetherEnd_of_other (opened : s.st.tether = some f) (other : f.tag ≠ tag) :
    tetherEnd tag s = rejectTether .tag tag s := by
  rw [tetherEnd, opened]
  exact if_pos other

theorem tetherEnd_of_released (opened : s.st.tether = some f) (same : f.tag = tag)
    (released : (f.leftReleased || f.rightReleased) = true) :
    tetherEnd tag s = rejectTether .state tag (s.onSt St.dropTether) := by
  rw [tetherEnd, opened]
  exact (if_neg (Classical.not_not.mpr same)).trans (if_pos released)

/-- The tracker with the open frame closed and its surfaces in a state. -/
def St.closed (x : SurfaceState) (f : TetherFrame) (t : St) : St :=
  { t with tether := none }.setStates x (f.left :: f.right.toList)

theorem tetherEnd_of_held (opened : s.st.tether = some f) (same : f.tag = tag)
    (released : (f.leftReleased || f.rightReleased) = false) : tetherEnd tag s =
      if !f.present then s.onSt (St.closed .ready f)
      else if !((f.left :: f.right.toList).all (s.st.fitsPanel s.so.applied)) || s.st.barred then
        rejectTether .state tag (s.onSt (St.closed .ready f))
      else if 3 ≤ s.st.queue.length then rejectTether .full tag (s.onSt (St.closed .ready f))
      else enqueue f.entry (s.onSt fun t => { t with tether := none }) := by
  rw [tetherEnd, opened]
  exact (if_neg (Classical.not_not.mpr same)).trans (if_neg (Bool.eq_false_iff.mp released))

/-- The open frame is closed, and the surfaces of the list are put in a state. -/
def St.Becomes (x : SurfaceState) (l : List (Fin 6)) (t u : St) : Prop :=
  u.tether = none ∧ u.current = t.current ∧ u.previous = t.previous ∧
  ∀ n, u.surface n = if n ∈ l then { t.surface n with state := x } else t.surface n

theorem St.closed_becomes (x : SurfaceState) (f : TetherFrame) (t : St) :
    t.Becomes x (f.left :: f.right.toList) (t.closed x f) ∧ (t.closed x f).queue = t.queue := by
  obtain ⟨queue, current, previous, tether, -⟩ :=
    St.setStates_keeps x (f.left :: f.right.toList) { t with tether := none }
  exact ⟨⟨tether, current, previous, St.surface_setStates x _ { t with tether := none }⟩, queue⟩

theorem St.dropTether_becomes {t : St} (opened : t.tether = some f) : t.Becomes .free f.kept t.dropTether := by
  obtain ⟨surfaces, -, current, previous, -⟩ := t.dropTether_shows
  have given : t.given = f.kept := by simp [St.given, opened]
  refine ⟨t.dropTether_tether, current, previous, fun n => ?_⟩
  rw [surfaces, St.freed, given]

theorem enqueue_becomes (f : TetherFrame) (s : State) :
    s.st.Becomes .queued (f.left :: f.right.toList) (enqueue f.entry (s.onSt fun t => { t with tether := none })).st := by
  obtain ⟨-, current, previous, surfaces⟩ := enqueue_joins f.entry (s.onSt fun t => { t with tether := none })
  refine ⟨?_, current, previous, fun n => (surfaces n).trans ?_⟩
  · have made : (enqueue f.entry (s.onSt fun t => { t with tether := none })).st = St.noteFrames { s.st with tether := none }
      { (St.setStates .queued f.entry.named { s.st with tether := none }) with queue := s.st.queue ++ [f.entry] } := rfl
    rw [made, St.noteFrames_eq]
    exact (St.setStates_keeps .queued f.entry.named { s.st with tether := none }).2.2.2.1
  · have names : f.entry.named = f.left :: f.right.toList := rfl
    rw [names]
    split <;> rfl

end

/-- A FRAME_BEGIN or FRAME_END that is the next is taken, and its owner acts. -/
theorem exec_frameBegin {seq : U16} {fb : FrameBegin} {s : State} (hears : s.hears 0) (next : seq = s.tc.expected) :
    exec (.frameBegin seq fb) s = .next (drain (laneKick (tetherBegin fb (takeSeq seq s.heard)))) := by
  rw [← (receivePacket_next (p := .frameBegin seq fb) nofun nofun next (fun _ => rfl) (tetherBegin_turn fb)).1]
  exact congrArg Host.Outcome.next (arrive_hears hears _)

theorem exec_frameEnd {seq : U16} {tag : U32} {s : State} (hears : s.hears 0) (next : seq = s.tc.expected) :
    exec (.frameEnd seq tag) s = .next (drain (laneKick (tetherEnd tag (takeSeq seq s.heard)))) := by
  rw [← (receivePacket_next (p := .frameEnd seq tag) nofun nofun next (fun _ => rfl) (tetherEnd_turn tag)).1]
  exact congrArg Host.Outcome.next (arrive_hears hears _)

/-- Settles O50: the FRAME_BEGIN that is accepted and the one that is not, and the FRAME_END by its checks. -/
theorem tetherFrames : Obligations.TetherFrames := by
  intro seq fb tag s hears next rejects begins ends given freed openable accepts kept
  have given_eq : given = s.st.given := by
    simp only [given, St.given]
    cases s.st.tether <;> rfl
  have freed_eq : freed = s.st.freed := by
    funext n
    simp only [freed, St.freed, given_eq]
  have accepts_iff (left : Fin 6) (right : Option (Fin 6)) : accepts left right ↔ s.st.accepts fb left right := by
    simp only [accepts, openable, freed_eq, St.accepts]
  have begun := exec_frameBegin (fb := fb) hears next
  have ended := exec_frameEnd (tag := tag) hears next
  obtain ⟨surfaces, tether, queue, current, previous, -, ident, tc, tm, abandoned, untouched⟩ :=
    tetherCleared_shows fb (takeSeq seq s.heard)
  have frontiers (u : State) : (laneKick u).tc.frontiers = u.tc.frontiers := by simp
  have pulses (u : State) : (laneKick u).tm = u.tm := by simp
  refine ⟨fun left right ok => ⟨_, begun, ?_⟩, fun refused => ⟨_, begun, ?_⟩, fun closed => ⟨_, ended, ?_⟩,
    fun f opened => ?_⟩
  · obtain ⟨queue', current', previous', tether', surfaces', frontiers', pulses', cause, rejectedTag, eu⟩ :=
      acceptFrame_shows fb left right (tetherCleared fb (takeSeq seq s.heard))
    rw [tetherBegin_of_accepts (s := takeSeq seq s.heard) ((accepts_iff left right).mp ok)]
    simp only [kept, rejects, laneKick_st, laneKick_pendingEvent, frontiers, pulses, freed_eq]
    refine ⟨⟨queue'.trans queue, current'.trans current, previous'.trans previous⟩, by rw [tether', ident]; rfl, fun n => ?_,
      fun n named => by rw [frontiers' n named, ident]; rfl, by rw [pulses', tm]; rfl, fun open_ => ?_, fun closed => ?_⟩
    · rw [surfaces', surfaces]
      rfl
    · obtain ⟨because, of, pending⟩ := abandoned open_
      rw [cause, rejectedTag, State.pendingEvent, eu]
      exact ⟨because, of, pending⟩
    · rw [cause, rejectedTag, untouched closed]
      exact ⟨rfl, rfl⟩
  · rw [tetherBegin_of_refused (s := takeSeq seq s.heard) fun left right => mt (accepts_iff left right).mpr (refused left right)]
    have rejected := (rejectTether_rejects .state fb.tag (tetherCleared fb (takeSeq seq s.heard))).kick
    refine ⟨?_, rejected, ?_, ?_, ?_, ?_⟩
    · simp only [kept, laneKick_st]
      exact ⟨queue, current, previous⟩
    · rw [laneKick_st]
      exact tether
    · intro n
      rw [laneKick_st, freed_eq]
      exact surfaces n
    · rw [frontiers]
      have same := congrArg Tc.frontiers ((rejectTether_others .state fb.tag _).1.trans tc)
      exact same
    · rw [pulses]
      exact congrArg Tm.pulses ((rejectTether_others ..).2.trans tm)
  · rw [tetherEnd_of_none (s := takeSeq seq s.heard) closed]
    refine ⟨(rejectTether_rejects ..).kick, ?_, ?_⟩
    all_goals
      rw [laneKick_st]
      rfl
  · intro names released become able
    have opened' : (takeSeq seq s.heard).st.tether = some f := opened
    have rejected (cause : RejectCause) (u : State) := (rejectTether_rejects cause tag u).kick
    have becomes {x : SurfaceState} {l : List (Fin 6)} {u : State} (h : s.st.Becomes x l u.st) :
        become x l (laneKick u) := by
      simp only [become, laneKick_st]
      exact h
    obtain ⟨ready, readyQueue⟩ := St.closed_becomes .ready f s.st
    have unfit : able ↔ (!((f.left :: f.right.toList).all (s.st.fitsPanel s.so.applied)) || s.st.barred) = false := by
      simp only [able, names, Bool.or_eq_false_iff, Bool.not_eq_false', List.all_eq_true]
    have fits : able ↔ (!((f.left :: f.right.toList).all
        ((takeSeq seq s.heard).st.fitsPanel (takeSeq seq s.heard).so.applied)) || (takeSeq seq s.heard).st.barred) = false :=
      unfit
    refine ⟨fun other => ⟨_, ended, ?_⟩, fun same yes => ⟨_, ended, ?_⟩, fun same no quiet => ⟨_, ended, ?_⟩,
      fun same no asks unable => ⟨_, ended, ?_⟩, fun same no asks ok full => ⟨_, ended, ?_⟩,
      fun same no asks ok room => ⟨_, ended, ?_⟩⟩
    · rw [tetherEnd_of_other opened' other]
      refine ⟨rejected .., ?_, ?_⟩
      all_goals rw [laneKick_st]
      · exact opened
      · rfl
    · rw [tetherEnd_of_released opened' same yes]
      exact ⟨rejected .., becomes (St.dropTether_becomes opened)⟩
    · rw [tetherEnd_of_held opened' same no, if_pos (by rw [quiet]; rfl)]
      refine ⟨becomes ready, ?_⟩
      rw [laneKick_st]
      exact readyQueue
    all_goals rw [tetherEnd_of_held opened' same no, if_neg (by rw [asks]; exact Bool.false_ne_true)]
    · rw [if_pos (Bool.of_not_eq_false (mt fits.mpr unable))]
      refine ⟨rejected .., becomes ready, ?_⟩
      rw [laneKick_st]
      exact readyQueue
    all_goals rw [if_neg (Bool.eq_false_iff.mp (fits.mp ok))]
    · rw [if_pos (by exact full)]
      refine ⟨rejected .., becomes ready, ?_⟩
      rw [laneKick_st]
      exact readyQueue
    · rw [if_neg (Nat.not_le.mpr (by exact room))]
      refine ⟨becomes (enqueue_becomes f s), ?_⟩
      rw [laneKick_st, (enqueue_joins ..).1, TetherFrame.entry, same]
      rfl

end Sys2Proof.Machine
end

section
/-!
PROOFS. SLICE and AUDIO packets (R19, R82, R83, R105).
-/
namespace Sys2Proof.Machine

theorem flatMap_toBytes_length {w : Nat} (n : Nat) (l : List (BitVec w)) :
    (l.flatMap fun f => toBytes n f.toNat).length = l.length * n := by
  simp only [List.length_flatMap, toBytes_length, List.map_const', List.sum_replicate_nat]

theorem vset_vset {α : Type} {n : Nat} (v : Vector α n) (i : Fin n) (x y : α) : vset (vset v i x) i y = vset v i y := by
  refine vector_ext fun j => ?_
  by_cases same : i = j
  · subst same
    simp
  · rw [vget_vset_ne _ _ same, vget_vset_ne _ _ same, vget_vset_ne _ _ same]

/-! ### Slices (R82) -/

section
variable {p : Slice} {s : State} {n : Fin 6} {c : SurfaceConfig} {ident : Nat}

theorem takeSlice_of_restricted (h : s.tc.restricted = true) :
    takeSlice p s = s.onTc fun t => { t with dropStandby := t.dropStandby + 1 } := if_pos h

theorem takeSlice_of_none (free : s.tc.restricted = false) (target : sliceTarget p.surface s = none) :
    takeSlice p s = s.onTc fun t => { t with dropState := t.dropState + 1 } := by
  rw [takeSlice, if_neg (Bool.eq_false_iff.mp free), target]

theorem takeSlice_of_target (free : s.tc.restricted = false) (target : sliceTarget p.surface s = some (n, c, ident)) :
    takeSlice p s =
      if p.rowCount = 0 ∨ c.height < p.firstRow.toNat + p.rowCount.toNat then
        s.onTc fun t => { t with dropRange := t.dropRange + 1 }
      else if p.pixels.length ≠ p.rowCount.toNat * c.rowBytes then
        s.onTc fun t => { t with dropFormat := t.dropFormat + 1 }
      else acceptSlice n c ident p s := by
  rw [takeSlice, if_neg (Bool.eq_false_iff.mp free), target]

theorem Slice.inRange_iff (p : Slice) (height : Nat) :
    (p.rowCount.toNat ≠ 0 ∧ p.firstRow.toNat + p.rowCount.toNat ≤ height) ↔
    ¬ (p.rowCount = 0 ∨ height < p.firstRow.toNat + p.rowCount.toNat) := by
  rw [not_or, Nat.not_lt, ← BitVec.toNat_inj]
  rfl

/-- The row that a slice in order begins at. -/
def Frontier.nextRow (f : Frontier) : Nat := (f.issue.map (· + 1)).getD 0

theorem inOrder_iff (f : Frontier) (row : Nat) : inOrder f row = true ↔ row = f.nextRow := by
  unfold inOrder Frontier.nextRow
  cases f.issue <;> simp

/-- The part with an accepted slice noted, before its line writes. -/
def State.sliceNoted (n : Fin 6) (c : SurfaceConfig) (ident : Nat) (p : Slice) (s : State) : State :=
  if inOrder (vget s.tc.frontiers n) p.firstRow.toNat then
    s.fresh.2.onTc fun t =>
      { t with frontiers := vmod t.frontiers n fun f => { f with issue := some (p.firstRow.toNat + p.rowCount.toNat - 1) }
               slices := t.slices ++ [{ id := s.nextId, ident, surface := n,
                                        lastRow := p.firstRow.toNat + p.rowCount.toNat - 1,
                                        left := (sliceWrites c p.firstRow.toNat p.rowCount.toNat p.pixels).length }] }
  else s.fresh.2

theorem acceptSlice_eq (n : Fin 6) (c : SurfaceConfig) (ident : Nat) (p : Slice) (s : State) :
    acceptSlice n c ident p s =
      depositWrites s.nextId (sliceWrites c p.firstRow.toNat p.rowCount.toNat p.pixels) (s.sliceNoted n c ident p) := rfl

/-- Of the tether controller an accepted slice changes the frontier and the slices, where it is in order. -/
theorem acceptSlice_tc (n : Fin 6) (c : SurfaceConfig) (ident : Nat) (p : Slice) (s : State) :
    let u := acceptSlice n c ident p s
    u.tc = { s.tc with frontiers := u.tc.frontiers, slices := u.tc.slices } ∧
    (p.firstRow.toNat ≠ (vget s.tc.frontiers n).nextRow → u.tc = s.tc) ∧
    (p.firstRow.toNat = (vget s.tc.frontiers n).nextRow →
      (vget u.tc.frontiers n).issue = some (p.firstRow.toNat + p.rowCount.toNat - 1) ∧
      u.tc.slices = s.tc.slices ++ [⟨s.nextId, ident, n, p.firstRow.toNat + p.rowCount.toNat - 1,
        (sliceWrites c p.firstRow.toNat p.rowCount.toNat p.pixels).length⟩]) := by
  have tc : (acceptSlice n c ident p s).tc = (s.sliceNoted n c ident p).tc := by rw [acceptSlice_eq]; simp
  dsimp only
  rw [tc]
  by_cases order : p.firstRow.toNat = (vget s.tc.frontiers n).nextRow
  · have noted := (inOrder_iff _ _).mpr order
    rw [State.sliceNoted, if_pos noted]
    refine ⟨rfl, fun other => absurd order other, fun _ => ⟨?_, rfl⟩⟩
    exact congrArg Frontier.issue (vget_vmod_same ..)
  · have past := mt (inOrder_iff _ _).mp order
    rw [State.sliceNoted, if_neg past]
    exact ⟨rfl, fun _ => rfl, fun same => absurd same order⟩

end

theorem laneKick_requests {s : State} {r : Request} (h : r ∈ s.da.all) (op : r.op ≠ .write []) :
    r ∈ (laneKick s).da.all := (laneKick_carries s).requests r h op

theorem exec_slice {p : Slice} {s : State} (fits : p.pixels.length ≤ 16376) (hears : s.hears (8 + p.pixels.length)) :
    exec (.slice p) s = .next (drain (laneKick (takeSlice p s.heard))) := by
  have packet : slicePacket p = .slice p := if_neg (by omega)
  have taken : receivePacket (.slice p) s = laneKick (takeSlice p s.heard) :=
    receivePacket_valid (p := .slice p) nofun nofun s
  refine congrArg Host.Outcome.next ?_
  rw [packet, arrive_hears hears, taken]

/-! ### AUDIO (R83, R105) -/

theorem exec_audio {frames : List U32} {s : State} (some : frames ≠ []) (fits : frames.length ≤ 4096)
    (hears : s.hears (4 * frames.length)) :
    exec (.audio frames) s = .next (drain (laneKick (takeAudio frames s.heard))) := by
  have packet : audioPacket frames = .audio frames := by
    refine if_neg ?_
    rintro (empty | long)
    · exact some (List.isEmpty_iff.mp empty)
    · omega
  have taken : receivePacket (.audio frames) s = laneKick (takeAudio frames s.heard) :=
    receivePacket_valid (p := .audio frames) nofun nofun s
  refine congrArg Host.Outcome.next ?_
  rw [packet, arrive_hears hears, taken]

/-- The room of a ring in frames. -/
def AudioRing.room (r : AudioRing) : Nat := r.capacity - (r.issued - r.consume).toNat

/-- The line writes of the frames that ring 0 has room for. -/
def AudioRing.audioWrites (r : AudioRing) (frames : List U32) : List (Nat × List (Nat × Byte)) :=
  frameWrites 4 (ringSpans r.base 4 r.capacity r.issued.toNat (frames.take r.room).length)
    ((frames.take r.room).flatMap fun f => toBytes 4 f.toNat)

/-- The frames that ring 0 has room for are accepted. -/
def State.audioAccepted (frames : List U32) (s : State) : State :=
  let taken := (frames.take (vget s.au.rings 0).room).length
  let writes := (vget s.au.rings 0).audioWrites frames
  depositWrites s.nextId writes ((s.fresh.2.onRing 0 fun r => { r with issued := r.issued + BitVec.ofNat 32 taken }).onTc
    fun t => { t with audioJobs := t.audioJobs ++ [{ id := s.nextId, frames := taken, left := writes.length }] })

theorem placeAudio_eq (frames : List U32) (s : State) : placeAudio frames s =
    let r := vget s.au.rings 0
    let u := if (frames.take r.room).isEmpty then s else s.audioAccepted frames
    if frames.length - (frames.take r.room).length = 0 then u
    else raise .audioOverrun (u.onRing 0 fun r =>
      { r with overruns := r.overruns + BitVec.ofNat 32 (frames.length - (frames.take (vget s.au.rings 0).room).length) }) := by
  rfl

/-- The frames that fit, accepted: the ring's issued index, the payload's job, and its line writes. -/
theorem audioAccepted_shows (frames : List U32) (s : State) :
    let r := vget s.au.rings 0
    let taken := (frames.take r.room).length
    let u := if (frames.take r.room).isEmpty then s else s.audioAccepted frames
    u.au = { s.au with rings := vset s.au.rings 0 { r with issued := r.issued + BitVec.ofNat 32 taken } } ∧
    u.tc = { s.tc with audioJobs := s.tc.audioJobs ++
      (if taken = 0 then [] else [⟨s.nextId, taken, (r.audioWrites frames).length⟩]) } ∧
    ∀ w ∈ r.audioWrites frames, ⟨.deposit s.nextId w.2.length, w.1, .write w.2⟩ ∈ u.da.all := by
  intro r taken u
  by_cases empty : (frames.take r.room).isEmpty = true
  · have same : u = s := if_pos empty
    have none : frames.take r.room = [] := List.isEmpty_iff.mp empty
    have zero : taken = 0 := List.length_eq_zero_iff.mpr none
    have writes : r.audioWrites frames = [] := by
      rw [AudioRing.audioWrites, none]
      rfl
    rw [same, zero, writes]
    refine ⟨?_, by simp, nofun⟩
    have still : ({ r with issued := r.issued + BitVec.ofNat 32 0 } : AudioRing) = r := by simp
    rw [still, vset_vget]
  · have made : u = s.audioAccepted frames := if_neg empty
    have some : taken ≠ 0 := fun zero => empty (List.isEmpty_iff.mpr (List.length_eq_zero_iff.mp zero))
    rw [made, if_neg some]
    refine ⟨?_, ?_, fun w here => mem_depositWrites here (frameWrites_ne_nil here)⟩
    · exact (depositWrites_keeps ..).2.2.2.2.2.2.2.2.2.2.1
    · exact (depositWrites_keeps ..).2.2.2.2.2.2.2.2.2.1

/-- A change of a ring that has been put. -/
theorem State.onRing_au {s u : State} {n : Fin 3} {r : AudioRing}
    (h : u.au = { s.au with rings := vset s.au.rings n r }) (f : AudioRing → AudioRing) :
    (u.onRing n f).au = { s.au with rings := vset s.au.rings n (f r) } := by
  have changed : (u.onRing n f).au = { u.au with rings := vmod u.au.rings n f } := rfl
  rw [changed, h]
  simp [vmod, vset_vset]

/-- Ring 0 once frames have been placed in it. -/
def AudioRing.placed (frames : List U32) (r : AudioRing) : AudioRing :=
  { r with issued := r.issued + BitVec.ofNat 32 (frames.take r.room).length,
           overruns := r.overruns + BitVec.ofNat 32 (frames.length - (frames.take r.room).length) }

/-- AUDIO placed in ring 0: what fits is accepted, and the rest is an overrun. -/
theorem placeAudio_shows (frames : List U32) (s : State) :
    let r := vget s.au.rings 0
    let taken := (frames.take r.room).length
    let u := placeAudio frames s
    u.au = { s.au with rings := vset s.au.rings 0 (r.placed frames) } ∧
    u.tc = { s.tc with audioJobs := s.tc.audioJobs ++
      (if taken = 0 then [] else [⟨s.nextId, taken, (r.audioWrites frames).length⟩]) } ∧
    (∀ w ∈ r.audioWrites frames, ⟨.deposit s.nextId w.2.length, w.1, .write w.2⟩ ∈ u.da.all) ∧
    (taken < frames.length → u.pendingEvent .audioOverrun = true) := by
  obtain ⟨au, tc, requests⟩ := audioAccepted_shows frames s
  intro r taken u
  have made : u = _ := placeAudio_eq frames s
  by_cases all : frames.length - taken = 0
  · rw [made]
    dsimp only
    rw [if_pos all]
    refine ⟨?_, tc, requests, fun lost => absurd all (by omega)⟩
    rw [au, AudioRing.placed, all]
    simp [r]
  · rw [made]
    dsimp only
    rw [if_neg all]
    have raised (k : EventKind) (t : State) : (raise k t).au = t.au ∧ (raise k t).tc = t.tc ∧ (raise k t).da = t.da := by
      simp
    obtain ⟨sameAu, sameTc, sameDa⟩ := raised .audioOverrun
      ((if (frames.take r.room).isEmpty then s else s.audioAccepted frames).onRing 0 fun r =>
        { r with overruns := r.overruns + BitVec.ofNat 32 (frames.length - taken) })
    refine ⟨sameAu.trans (State.onRing_au au _), sameTc.trans tc, fun w here => ?_, fun _ => raise_pendingEvent ..⟩
    · rw [sameDa]
      exact requests w here

theorem takeAudio_of_refused {frames : List U32} {s : State}
    (h : s.tc.restricted = true ∨ (vget s.au.rings 0).enabled = false) : takeAudio frames s =
      s.onTc fun t => { t with audioDrops := t.audioDrops + BitVec.ofNat 32 frames.length } := by
  refine if_pos ?_
  rcases h with h | h <;> simp [h]

theorem takeAudio_of_placed {frames : List U32} {s : State}
    (h : ¬ (s.tc.restricted = true ∨ (vget s.au.rings 0).enabled = false)) :
    takeAudio frames s = placeAudio frames s := by
  refine if_neg ?_
  simpa using h

/-- What the lane arbiter leaves of the deposit engine. -/
theorem laneKick_deposits (s : State) :
    (laneKick s).tc.slices = s.tc.slices ∧ (laneKick s).tc.frontiers = s.tc.frontiers ∧
    (laneKick s).tc.audioJobs = s.tc.audioJobs ∧ (laneKick s).tc.audioDrops = s.tc.audioDrops ∧
    (laneKick s).tc.receive = s.tc.receive ∧
    [(laneKick s).tc.dropStandby, (laneKick s).tc.dropState, (laneKick s).tc.dropRange, (laneKick s).tc.dropFormat] =
      [s.tc.dropStandby, s.tc.dropState, s.tc.dropRange, s.tc.dropFormat] := by simp

/-- Settles O51: a slice by the check that fails first, and AUDIO refused and placed. -/
theorem deposits : Obligations.Deposits := by
  intro s
  refine ⟨?_, ?_⟩
  · intro p fits hears run drops kept
    have runs {P : State → Prop} (receive : (takeSlice p s.heard).tc.receive = Option.some 8000)
        (h : P (laneKick (takeSlice p s.heard))) : run P := by
      refine ⟨_, exec_slice fits hears, (laneKick_deposits _).2.2.2.2.1.trans receive, ?_, h⟩
      rw [laneKick_st]
      simp [State.heard]
    have dropped {u : State} {l : List U32} (tc : u.tc.slices = s.tc.slices ∧ u.tc.frontiers = s.tc.frontiers)
        (counts : drops u = l) : kept (laneKick u) ∧ drops (laneKick u) = l := by
      obtain ⟨slices, frontiers, -, -, -, causes⟩ := laneKick_deposits u
      exact ⟨⟨slices.trans tc.1, frontiers.trans tc.2⟩, causes.trans counts⟩
    refine ⟨fun restricted => ?_, fun free target => ?_, ?_⟩
    · have made := takeSlice_of_restricted (p := p) (s := s.heard) restricted
      exact runs (by rw [made]; rfl) (by rw [made]; exact dropped ⟨rfl, rfl⟩ rfl)
    · have made := takeSlice_of_none (p := p) (s := s.heard) free target
      exact runs (by rw [made]; rfl) (by rw [made]; exact dropped ⟨rfl, rfl⟩ rfl)
    · intro n c ident free target first count range
      have row : (vget s.heard.tc.frontiers n).nextRow = match (vget s.tc.frontiers n).issue with
          | none => 0
          | Option.some r => r + 1 := by
        rw [Frontier.nextRow, show s.heard.tc.frontiers = s.tc.frontiers from rfl]
        cases (vget s.tc.frontiers n).issue <;> rfl
      have made := takeSlice_of_target (p := p) (s := s.heard) free target
      have inside := Slice.inRange_iff p c.height
      refine ⟨fun out => ?_, fun within mismatch => ?_, fun within whole => ?_⟩
      · rw [if_pos (Classical.not_not.mp (mt inside.mpr out))] at made
        exact runs (by rw [made]; rfl) (by rw [made]; exact dropped ⟨rfl, rfl⟩ rfl)
      · rw [if_neg (inside.mp within), if_pos mismatch] at made
        exact runs (by rw [made]; rfl) (by rw [made]; exact dropped ⟨rfl, rfl⟩ rfl)
      · rw [if_neg (inside.mp within), if_neg (Classical.not_not.mpr whole)] at made
        obtain ⟨tc, past, next⟩ := acceptSlice_tc n c ident p s.heard
        refine runs (by rw [made, tc]; rfl) ?_
        rw [made]
        obtain ⟨slices, frontiers, -, -, -, causes⟩ := laneKick_deposits (acceptSlice n c ident p s.heard)
        refine ⟨causes.trans (by rw [tc]; rfl), sliceWrites_lays c first count p.pixels whole, fun w here some => ?_,
          fun other => ?_, fun same => ?_⟩
        · refine laneKick_requests ?_ fun e => some (ReqOp.write.inj e)
          rw [acceptSlice_eq]
          exact mem_depositWrites here some
        · have still := past fun same => other (same.trans row)
          rw [still] at slices frontiers
          exact ⟨slices, frontiers⟩
        · obtain ⟨issue, jobs⟩ := next (same.trans row.symm)
          rw [frontiers, slices]
          exact ⟨issue, jobs⟩
  · intro frames some fits hears r taken refused new bytes writes
    refine ⟨fun refusal => ⟨_, exec_audio some fits hears, ?_⟩, fun placed => ⟨_, exec_audio some fits hears, ?_⟩⟩
    · rw [takeAudio_of_refused (s := s.heard) refusal]
      obtain ⟨-, -, -, audioDrops, receive, -⟩ := laneKick_deposits (s.heard.onTc fun t =>
        { t with audioDrops := t.audioDrops + BitVec.ofNat 32 frames.length })
      exact ⟨by simp [State.heard], receive, audioDrops⟩
    · rw [takeAudio_of_placed (s := s.heard) placed]
      obtain ⟨au, tc, requests, overrun⟩ := placeAudio_shows frames s.heard
      obtain ⟨-, -, audioJobs, audioDrops, receive, -⟩ := laneKick_deposits (placeAudio frames s.heard)
      have fitting : frames.take r.room = frames.take taken :=
        List.take_eq_take_iff.mpr (by simp only [taken, AudioRing.room]; omega)
      have count : (frames.take r.room).length = taken := by
        rw [fitting, List.length_take, Nat.min_eq_left (Nat.min_le_left ..)]
      have placedRing : r.placed frames = new := by
        rw [AudioRing.placed, count]
      have written : r.audioWrites frames = writes := by
        rw [AudioRing.audioWrites, count, fitting]
      have long : bytes.length = 4 * taken := by
        rw [← count, fitting]
        exact (flatMap_toBytes_length 4 _).trans (Nat.mul_comm ..)
      have au' : (laneKick (placeAudio frames s.heard)).au = (placeAudio frames s.heard).au := by simp
      have sameRing : vget s.heard.au.rings 0 = r := rfl
      rw [sameRing] at au tc requests overrun
      rw [placedRing] at au
      rw [count, written] at tc
      rw [written] at requests
      rw [count] at overrun
      refine ⟨receive.trans (by rw [tc]; rfl), audioDrops.trans (by rw [tc]; rfl), au'.trans au,
        frameWrites_lays r.base 4 r.capacity r.issued.toNat taken bytes (by decide) ?_ long,
        fun w here => laneKick_requests (requests w here) ?_, audioJobs.trans (by rw [tc]; rfl), fun lost => ?_⟩
      · simp only [taken]
        omega
      · exact fun e => frameWrites_ne_nil here (ReqOp.write.inj e)
      · rw [laneKick_pendingEvent]
        exact overrun lost

end Sys2Proof.Machine
end

section
/-!
PROOFS. MESSAGE, TIME and ACK packets (R79, R85, R87, R95).
-/
namespace Sys2Proof.Machine

/-! ### Messages (R79, R85) -/

section
variable {bytes : List Byte} {s : State}

theorem offerMessage_of_restricted (h : s.tc.restricted = true) : offerMessage bytes s =
    (true, s.onTc fun t => { t with ring := { t.ring with standbyDrops := t.ring.standbyDrops + 1 } }) := if_pos h

theorem offerMessage_of_disabled (free : s.tc.restricted = false) (h : s.tc.ring.enabled = false) :
    offerMessage bytes s =
      (true, s.onTc fun t => { t with ring := { t.ring with noRingDrops := t.ring.noRingDrops + 1 } }) :=
  (if_neg (Bool.eq_false_iff.mp free)).trans (if_pos (by rw [h]; rfl))

theorem offerMessage_of_long (free : s.tc.restricted = false) (enabled : s.tc.ring.enabled = true)
    (h : bytes.length = 0 ∨ 1020 < bytes.length) : offerMessage bytes s =
      (true, s.onTc fun t => { t with ring := { t.ring with lengthDrops := t.ring.lengthDrops + 1 } }) :=
  (if_neg (Bool.eq_false_iff.mp free)).trans ((if_neg (by simp [enabled])).trans (if_pos h))

theorem offerMessage_of_full (free : s.tc.restricted = false) (enabled : s.tc.ring.enabled = true)
    (fits : ¬ (bytes.length = 0 ∨ 1020 < bytes.length))
    (h : (s.tc.ring.issued - s.tc.ring.consume).toNat = s.tc.ring.count) : offerMessage bytes s =
      (false, s.onTc fun t => { t with ring := { t.ring with backPressure := t.ring.backPressure + 1 } }) :=
  (if_neg (Bool.eq_false_iff.mp free)).trans ((if_neg (by simp [enabled])).trans ((if_neg fits).trans (if_pos h)))

/-- The ring with an entry issued for a message. -/
def MessageRing.issue (bytes : List Byte) (r : MessageRing) : MessageRing :=
  { r with issued := r.issued + 1, jobs := r.jobs ++ [⟨r.issued, (entryWrites r bytes).length⟩] }

theorem offerMessage_of_room (free : s.tc.restricted = false) (enabled : s.tc.ring.enabled = true)
    (fits : ¬ (bytes.length = 0 ∨ 1020 < bytes.length))
    (h : ¬ (s.tc.ring.issued - s.tc.ring.consume).toNat = s.tc.ring.count) : offerMessage bytes s =
      (true, issueEntry s.tc.ring.issued s.generation true (entryWrites s.tc.ring bytes)
        (s.onTc fun t => { t with ring := t.ring.issue bytes })) :=
  (if_neg (Bool.eq_false_iff.mp free)).trans ((if_neg (by simp [enabled])).trans ((if_neg fits).trans (if_neg h)))

theorem receiveMessage_next (bytes : List Byte) (s : State) : receiveMessage s.tc.expected bytes s =
    if (offerMessage bytes s).1 then takeSeq s.tc.expected (offerMessage bytes s).2 else (offerMessage bytes s).2 := by
  simp only [receiveMessage, seqOrder_next]

theorem exec_message (fits : bytes.length ≤ 16384) (hears : s.hears bytes.length) :
    exec (.message s.tc.expected bytes) s =
      .next (drain (laneKick (receiveMessage s.tc.expected bytes s.heard))) := by
  have packet : messagePacket s.tc.expected bytes = .message s.tc.expected bytes := if_neg (Nat.not_lt.mpr fits)
  have handed : receivePacket (.message s.tc.expected bytes) s =
      laneKick (receiveMessage s.tc.expected bytes s.heard) :=
    receivePacket_valid (p := .message s.tc.expected bytes) nofun nofun s
  refine congrArg Host.Outcome.next ?_
  rw [packet, arrive_hears hears, handed]

theorem laneKick_ring (s : State) : (laneKick s).tc.ring = s.tc.ring := by simp

/-- A message that is the next and that the ring takes, be it dropped or issued. -/
theorem message_taken {w : State} {new : MessageRing} (fits : bytes.length ≤ 16384) (hears : s.hears bytes.length)
    (offered : offerMessage bytes s.heard = (true, w)) (tc : w.tc = { s.heard.tc with ring := new }) :
    runsTo (.message s.tc.expected bytes) s fun u => u.tc.expected = s.tc.expected + 1 ∧
      u.tc.lastTaken = some s.tc.expected ∧ (s.tc.lane ≠ .free → u.tc.ackRequest = true) ∧ u.tc.ring = new := by
  have made : receiveMessage s.tc.expected bytes s.heard = takeSeq s.tc.expected w := by
    refine (receiveMessage_next bytes s.heard).trans ?_
    rw [offered]
    rfl
  have taken : (takeSeq s.tc.expected w).tc = { w.tc with
      expected := w.tc.expected + 1, lastTaken := some s.tc.expected, ackRequest := true } := rfl
  rw [tc] at taken
  obtain ⟨expected, lastTaken, -⟩ := laneKick_turn (takeSeq s.tc.expected w)
  refine ⟨_, exec_message fits hears, ?_⟩
  rw [made]
  refine ⟨expected.trans (by rw [taken]; rfl), lastTaken.trans (by rw [taken]), fun busy => ?_,
    (laneKick_ring _).trans (by rw [taken])⟩
  rw [laneKick_of_busy (by rw [taken]; exact busy), taken]

end

/-! ### Acknowledgements (R95) -/

/-- The message of a slot has finished with an outcome. -/
def State.SlotDone (n : Fin 3) (o : Outcome) (s : State) : Prop :=
  (s.entry (.messageSlot n)).outcome = o ∧ vget s.tc.inProgress n = false ∧ s.pendingEvent .messageSent = true

theorem finishSlot_done (n : Fin 3) (o : Outcome) (s : State) : (finishSlot n o s).SlotDone n o := by
  refine ⟨?_, ?_, raise_pendingEvent ..⟩
  · have entry (k : EventKind) (u : State) (r : RecordKind) : (raise k u).entry r = u.entry r := by simp [State.entry]
    rw [finishSlot, entry]
    exact State.outcome_finish ..
  · rw [(finishSlot_tc n o s).2, vget_vset_same]

theorem finishSlot_keeps_done {n m : Fin 3} {o : Outcome} {s : State} (h : s.SlotDone n o) :
    (finishSlot m o s).SlotDone n o := by
  by_cases same : m = n
  · rw [same]
    exact finishSlot_done ..
  · obtain ⟨outcome, progress, sent⟩ := h
    refine ⟨?_, ?_, raise_pendingEvent_of _ _ _ sent⟩
    · have entry (k : EventKind) (u : State) (r : RecordKind) : (raise k u).entry r = u.entry r := by simp [State.entry]
      have other : RecordKind.messageSlot n ≠ .messageSlot m := fun e => same (RecordKind.messageSlot.inj e).symm
      rw [finishSlot, entry]
      exact (congrArg OutcomeEntry.outcome (Pu.enter_table_ne other o _)).trans outcome
    · rw [(finishSlot_tc m o s).2, vget_vset_ne _ _ same]
      exact progress

theorem finishSlots_done {n : Fin 3} {o : Outcome} (l : List (Fin 3)) {s : State} (h : n ∈ l ∨ s.SlotDone n o) :
    (finishSlots l o s).SlotDone n o := by
  induction l generalizing s with
  | nil => exact h.resolve_left List.not_mem_nil
  | cons m r ih =>
    refine ih ?_
    rcases h with named | done
    · rcases List.mem_cons.mp named with rfl | named
      · exact .inr (finishSlot_done ..)
      · exact .inl named
    · exact .inr (finishSlot_keeps_done done)

section
variable {c : Fin 3} {f : AckField} {s : State}

/-- A field acknowledges nothing: it is not valid, or no entry of its class has its sequence. -/
def AckField.idle (f : AckField) (h : List HistEntry) : Prop := f.valid = false ∨ ∀ e ∈ h, e.seq ≠ f.seq

theorem applyAck_of_idle (idle : AckField.idle f (vget s.tc.history c)) :
    (applyAck c f s).tc = { s.tc with badAcks := (applyAck c f s).tc.badAcks } := by
  unfold applyAck
  rcases idle with invalid | unknown
  · rw [if_pos (by simp [invalid])]
  · split
    · rfl
    · have no : ¬ (vget s.tc.history c).any (·.seq == f.seq) = true := by simpa using unknown
      dsimp only
      rw [if_neg no]
      split
      · rfl
      · split <;> rfl

/-- The controller with the entries of a class acknowledged up to the last of them: `post` is left. -/
def Tc.acked (c : Fin 3) (post : List HistEntry) (t : Tc) : Tc :=
  let t := { t with history := vset t.history c post, histChange := t.histChange + 1 }
  if post.isEmpty then { t with ackTimers := vset t.ackTimers c none } else t.startAck c

theorem Tc.acked_eq (c : Fin 3) (post : List HistEntry) (t : Tc) : t.acked c post =
    { t with
      history := vset t.history c post, histChange := t.histChange + 1,
      ackTimers := vset t.ackTimers c (if post = [] ∨ t.restricted = true then none else some 4000) } := by
  cases post with
  | nil => simp [Tc.acked]
  | cons e r => simp [Tc.acked, Tc.startAck]

theorem applyAck_of_known {pre post : List HistEntry} {e : HistEntry} (history : vget s.tc.history c = pre ++ e :: post)
    (valid : f.valid = true) (this : e.seq = f.seq) (older : ∀ x ∈ pre, x.seq ≠ f.seq) :
    applyAck c f s = finishSlots ((pre ++ [e]).filterMap HistEntry.slot) .taken (s.onTc (Tc.acked c post)) := by
  have known : (vget s.tc.history c).any (·.seq == f.seq) = true := by simp [history, this]
  have before : (vget s.tc.history c).takeWhile (·.seq != f.seq) = pre := by
    rw [history, List.takeWhile_append_of_pos (by simpa using older)]
    simp [this]
  have after : (vget s.tc.history c).dropWhile (·.seq != f.seq) = e :: post := by
    rw [history, List.dropWhile_append_of_pos (by simpa using older)]
    simp [this]
  have rest : (vget s.tc.history c).drop (pre ++ [e]).length = post := by
    rw [history, show pre ++ e :: post = pre ++ [e] ++ post by simp, List.drop_left]
  unfold applyAck
  rw [if_neg (by simp [valid])]
  dsimp only
  rw [if_pos known, before, after]
  simp only [List.take_succ_cons, List.take_zero, rest]
  rfl

theorem AckField.idle_or_known (f : AckField) (h : List HistEntry) :
    AckField.idle f h ∨ ∃ pre e post, h = pre ++ e :: post ∧ f.valid = true ∧ e.seq = f.seq ∧ ∀ x ∈ pre, x.seq ≠ f.seq := by
  cases valid : f.valid with
  | false => exact .inl (.inl valid)
  | true =>
    cases found : h.find? (·.seq == f.seq) with
    | none => exact .inl (.inr (by simpa using found))
    | some e =>
      obtain ⟨this, pre, post, parts, older⟩ := List.find?_eq_some_iff_append.mp found
      exact .inr ⟨pre, e, post, parts, rfl, by simpa using this, by simpa using older⟩

/-- Of the tether controller an ACK's field changes the history, its ack timer, and what is counted of them. -/
theorem applyAck_tc (c : Fin 3) (f : AckField) (s : State) : (applyAck c f s).tc =
    { s.tc with history := (applyAck c f s).tc.history, histChange := (applyAck c f s).tc.histChange,
                ackTimers := (applyAck c f s).tc.ackTimers, badAcks := (applyAck c f s).tc.badAcks,
                inProgress := (applyAck c f s).tc.inProgress } := by
  rcases AckField.idle_or_known f (vget s.tc.history c) with idle | ⟨pre, e, post, history, valid, this, older⟩
  · rw [applyAck_of_idle idle]
  · rw [applyAck_of_known history valid this older, finishSlots_leaves, State.onTc_tc, Tc.acked_eq]

/-- The other classes keep their entries and their ack timers. -/
theorem applyAck_others (f : AckField) (s : State) {d : Fin 3} (other : d ≠ c) :
    vget (applyAck c f s).tc.history d = vget s.tc.history d ∧
    vget (applyAck c f s).tc.ackTimers d = vget s.tc.ackTimers d := by
  rcases AckField.idle_or_known f (vget s.tc.history c) with idle | ⟨pre, e, post, history, valid, this, older⟩
  · rw [applyAck_of_idle idle]
    exact ⟨rfl, rfl⟩
  · rw [applyAck_of_known history valid this older, finishSlots_leaves, State.onTc_tc, Tc.acked_eq]
    exact ⟨vget_vset_ne _ _ (Ne.symm other), vget_vset_ne _ _ (Ne.symm other)⟩

/-- What an ACK's field does to its class, which stood as `h`. -/
def State.Acks (c : Fin 3) (f : AckField) (h : List HistEntry) (restricted : Bool) (u : State) : Prop :=
  (AckField.idle f h → vget u.tc.history c = h) ∧
  (∀ pre e post, h = pre ++ e :: post → f.valid = true → e.seq = f.seq → (∀ x ∈ pre, x.seq ≠ f.seq) →
    vget u.tc.history c = post ∧
    vget u.tc.ackTimers c = if post = [] ∨ restricted = true then none else some 4000)

theorem applyAck_acks (c : Fin 3) (f : AckField) (s : State) :
    (applyAck c f s).Acks c f (vget s.tc.history c) s.tc.restricted := by
  refine ⟨fun idle => by rw [applyAck_of_idle idle], fun pre e post history valid this older => ?_⟩
  rw [applyAck_of_known history valid this older, finishSlots_leaves, State.onTc_tc, Tc.acked_eq]
  exact ⟨vget_vset_same .., vget_vset_same ..⟩

theorem State.Acks.later {h : List HistEntry} {restricted : Bool} (acks : s.Acks c f h restricted) {d : Fin 3}
    (other : c ≠ d) (g : AckField) : (applyAck d g s).Acks c f h restricted := by
  obtain ⟨history, timer⟩ := applyAck_others (c := d) g s other
  obtain ⟨idle, known⟩ := acks
  refine ⟨fun i => history.trans (idle i), fun pre e post parts valid this older => ?_⟩
  obtain ⟨left, starts⟩ := known pre e post parts valid this older
  exact ⟨history.trans left, timer.trans starts⟩

end

theorem exec_ack {photon sensor message : AckField} {s : State} (hears : s.hears 0) :
    exec (.ack photon sensor message) s =
      .next (drain (laneKick (applyAck 2 message (applyAck 1 sensor (applyAck 0 photon s.heard))))) := by
  have handed : receivePacket (.ack photon sensor message) s =
      laneKick (applyAck 2 message (applyAck 1 sensor (applyAck 0 photon s.heard))) :=
    receivePacket_valid (p := .ack photon sensor message) nofun nofun s
  exact congrArg Host.Outcome.next ((arrive_hears hears _).trans (by rw [handed]))

theorem exec_time {console : U64} {s : State} (hears : s.hears 0) :
    exec (.time console) s = .next (drain (laneKick (takeTime console s.heard))) := by
  have handed : receivePacket (.time console) s = laneKick (takeTime console s.heard) :=
    receivePacket_valid (p := .time console) nofun nofun s
  exact congrArg Host.Outcome.next ((arrive_hears hears _).trans (by rw [handed]))

/-- Settles O52: a message by what the ring makes of it, the time pair, and an ACK class by class. -/
theorem messagesTimeAndAcks : Obligations.MessagesTimeAndAcks := by
  intro s busy
  refine ⟨?_, fun console hears => ⟨_, exec_time hears, ?_⟩, fun photon sensor message hears => ⟨_, exec_ack hears, ?_⟩⟩
  · intro seq bytes fits hears next r run taken long full
    subst next
    refine ⟨fun restricted => ?_, fun free disabled => ?_, fun free enabled isLong => ?_,
      fun free enabled short isFull => ⟨_, exec_message fits hears, ?_⟩, lineWrites_lays .., ?_⟩
    · exact message_taken fits hears (offerMessage_of_restricted (s := s.heard) restricted) rfl
    · exact message_taken fits hears (offerMessage_of_disabled (s := s.heard) free disabled) rfl
    · exact message_taken fits hears (offerMessage_of_long (s := s.heard) free enabled isLong) rfl
    · have offered := offerMessage_of_full (s := s.heard) free enabled short isFull
      have made : receiveMessage s.tc.expected bytes s.heard = s.heard.onTc fun t =>
          { t with ring := { t.ring with backPressure := t.ring.backPressure + 1 } } := by
        refine (receiveMessage_next bytes s.heard).trans ?_
        rw [offered]
        rfl
      rw [made]
      obtain ⟨expected, lastTaken, -⟩ := laneKick_turn (s.heard.onTc fun t =>
        { t with ring := { t.ring with backPressure := t.ring.backPressure + 1 } })
      refine ⟨expected, lastTaken, fun held => ?_, laneKick_ring _⟩
      rw [laneKick_of_busy (by exact held)]
      rfl
    · intro free enabled short room
      have offered := offerMessage_of_room (s := s.heard) free enabled short room
      have tc : (issueEntry s.heard.tc.ring.issued s.heard.generation true (entryWrites s.heard.tc.ring bytes)
          (s.heard.onTc fun t => { t with ring := t.ring.issue bytes })).tc =
          { s.heard.tc with ring := s.heard.tc.ring.issue bytes } := by simp
      refine ⟨message_taken fits hears offered tc, _, exec_message fits hears, fun i w here => ?_⟩
      have made : receiveMessage s.tc.expected bytes s.heard = takeSeq s.tc.expected (issueEntry s.heard.tc.ring.issued
          s.heard.generation true (entryWrites s.heard.tc.ring bytes)
          (s.heard.onTc fun t => { t with ring := t.ring.issue bytes })) := by
        refine (receiveMessage_next bytes s.heard).trans ?_
        rw [offered]
        rfl
      have some : w.2 ≠ [] := lineWrites_ne_nil (List.mem_of_getElem? here)
      rw [made]
      refine laneKick_requests ?_ fun e => some (ReqOp.write.inj e)
      have stands := mem_issueEntry (index := s.tc.ring.issued) (gen := s.generation) (first := true)
        (s := s.heard.onTc fun t => { t with ring := t.ring.issue bytes }) here some
      simp only [and_true] at stands
      exact stands
  · refine ⟨?_, ?_, ?_, ?_, ?_, fun held => ?_⟩
    case refine_6 =>
      rw [laneKick_of_busy (by exact held)]
      exact ⟨rfl, rfl⟩
    case refine_3 =>
      have same : (laneKick (takeTime console s.heard)).tc.echoReplaced = (takeTime console s.heard).tc.echoReplaced := by
        simp only [laneKick_leaves]
      rw [same]
      cases asked : s.tc.echoRequest <;> simp [takeTime, State.heard, pulse, asked]
    all_goals simp [takeTime, State.heard, pulse]
  · have turn (c : Fin 3) (f : AckField) (t : State) : (applyAck c f t).tc.receive = t.tc.receive ∧
        (applyAck c f t).tc.lane = t.tc.lane ∧ (applyAck c f t).tc.restricted = t.tc.restricted := by
      rw [applyAck_tc]
      exact ⟨rfl, rfl, rfl⟩
    obtain ⟨receive0, lane0, restricted0⟩ := turn 0 photon s.heard
    obtain ⟨receive1, lane1, restricted1⟩ := turn 1 sensor (applyAck 0 photon s.heard)
    obtain ⟨receive2, lane2, -⟩ := turn 2 message (applyAck 1 sensor (applyAck 0 photon s.heard))
    refine ⟨(laneKick_turn _).2.2.trans (receive2.trans (receive1.trans receive0)), fun held c f field => ?_⟩
    rw [laneKick_of_busy (by rw [lane2, lane1, lane0]; exact held)]
    have first := (applyAck_acks 0 photon s.heard).later (d := 1) (by decide) sensor
    have second := applyAck_acks 1 sensor (applyAck 0 photon s.heard)
    have third := applyAck_acks 2 message (applyAck 1 sensor (applyAck 0 photon s.heard))
    have one := (applyAck_others (c := 0) photon s.heard (d := 1) (by decide)).1
    have two := (applyAck_others (c := 1) sensor (applyAck 0 photon s.heard) (d := 2) (by decide)).1.trans
      (applyAck_others (c := 0) photon s.heard (d := 2) (by decide)).1
    rw [one, restricted0] at second
    rw [two, restricted1, restricted0] at third
    match c, field with
    | 0, field =>
      obtain rfl : photon = f := Option.some.inj field
      obtain ⟨idle, known⟩ := first.later (d := 2) (by decide) message
      exact ⟨idle, fun pre e post parts valid this older => by
        obtain ⟨left, timer⟩ := known pre e post parts valid this older
        exact ⟨left, timer, fun _ _ _ two => absurd two (by decide)⟩⟩
    | 1, field =>
      obtain rfl : sensor = f := Option.some.inj field
      obtain ⟨idle, known⟩ := second.later (d := 2) (by decide) message
      exact ⟨idle, fun pre e post parts valid this older => by
        obtain ⟨left, timer⟩ := known pre e post parts valid this older
        exact ⟨left, timer, fun _ _ _ two => absurd two (by decide)⟩⟩
    | 2, field =>
      obtain rfl : message = f := Option.some.inj field
      obtain ⟨idle, known⟩ := third
      refine ⟨idle, fun pre e post parts valid this older => ?_⟩
      obtain ⟨left, timer⟩ := known pre e post parts valid this older
      refine ⟨left, timer, fun x n here _ slot => ?_⟩
      rw [applyAck_of_known (two.trans parts) valid this older]
      exact finishSlots_done _ (.inl (List.mem_filterMap.mpr ⟨x, here, slot⟩))

end Sys2Proof.Machine
end

section
/-!
PROOFS. The phases of a frame (R30, R41, R46, R48), and what the uplink is handed (R90).
-/
namespace Sys2Proof.Machine

/-! ### Entries handed to the uplink (R90) -/

theorem laneKick_of_held {s : State} (h : s.tc.link = .recovery ∨ s.tc.lane ≠ .free) : laneKick s = s := by
  refine if_neg fun ⟨up, free⟩ => ?_
  rcases h with recovery | busy
  · exact LinkState.noConfusion (up.symm.trans recovery)
  · exact busy free

/-- An entry is dropped while the link is DOWN or TRAINING or the queue is full, each counted by class, and joins the
queue otherwise. -/
theorem uplinkJoin_shows (content : Content) (s : State) :
    let u := uplinkJoin content s
    let k := content.queueClass
    (¬ s.tc.link.linked → u.tc = { s.tc with unlinked := vset s.tc.unlinked k (vget s.tc.unlinked k + 1) }) ∧
    (s.tc.link.linked → 32 ≤ s.tc.queue.length → u.pendingEvent .uplinkFull = true ∧
      u.tc = { s.tc with fullDrops := vset s.tc.fullDrops k (vget s.tc.fullDrops k + 1) }) ∧
    (s.tc.link.linked → s.tc.queue.length < 32 → s.tc.link = .recovery ∨ s.tc.lane ≠ .free →
      u.tc = { s.tc with queue := s.tc.queue ++ [⟨s.nextId, content⟩] }) := by
  refine ⟨fun unlinked => ?_, fun linked full => ?_, fun linked room held => ?_⟩
  · rcases Classical.not_not.mp (mt (LinkState.linked_iff _).mpr unlinked) with link | link
    all_goals
      rw [uplinkJoin, link]
      rfl
  · have made : uplinkJoin content s = raise .uplinkFull (s.onTc fun t =>
        { t with fullDrops := vmod t.fullDrops content.queueClass (· + 1) }) := by
      rcases linked with link | link
      all_goals
        rw [uplinkJoin, link]
        exact if_pos full
    rw [made]
    exact ⟨raise_pendingEvent .., by simp [vmod]⟩
  · rw [uplinkJoin_of_room linked room, laneKick_of_held (by exact held)]
    rfl

/-! ### Strobe begin (R41) -/

/-- STROBE has begun, and its decision is due. -/
def State.strobed (s : State) : State :=
  pulse 4 (s.onSo fun o =>
    { o with phase := .strobe, phaseTimer := some o.applied.strobeWidth, lastThrottle := s.pwc.factor })

theorem strobeBegins_eq (s : State) : strobeBegins s = strobeDecision s.strobed := rfl

theorem State.killed_strobed (s : State) : s.strobed.killed = s.killed := rfl

section
variable {s : State} {f : Frame}

theorem strobeDecision_of_silent
    (silent : s.st.current = none ∨ s.so.applied.linesSelected = false ∨ s.so.limitPassed = true) :
    strobeDecision s = s := by
  unfold strobeDecision
  split
  · rfl
  next f current =>
    refine if_pos ?_
    rcases silent with none | dark | passed
    · rw [none] at current
      cases current
    · simp [dark]
    · simp [passed]

theorem strobeDecision_of_stopped (current : s.st.current = some f) (selected : s.so.applied.linesSelected = true)
    (below : s.so.limitPassed = false) (stopped : s.pwc.state ≠ .active ∨ s.killed = true) :
    strobeDecision s = raise .strobeKilled (s.onSo fun o => { o with suppressed := o.suppressed + 1 }) := by
  simp only [strobeDecision, current]
  rw [if_neg (by simp [selected, below]), if_pos (by simpa using stopped)]

theorem strobeDecision_of_lights (current : s.st.current = some f) (selected : s.so.applied.linesSelected = true)
    (below : s.so.limitPassed = false) (free : ¬ (s.pwc.state ≠ .active ∨ s.killed = true)) :
    strobeDecision s = strobeLights f s := by
  simp only [strobeDecision, current]
  rw [if_neg (by simp [selected, below]), if_neg (by simpa using free)]

/-- The part with the light window begun and its report made. -/
def State.lighted (f : Frame) (s : State) : State :=
  s.onSo fun o =>
    { o with light := some (o.applied.strobeWidth * s.pwc.factor / 8), lastPhoton := some s.tb.now,
             reports := newest 8 (o.reports ++ [photonReport f s]), change := o.change + 1 }

theorem strobeLights_eq (f : Frame) (s : State) : strobeLights f s =
    if s.so.applied.photonUplink then uplinkJoin (.photon (photonReport f s)) (s.lighted f) else s.lighted f := rfl

/-- A strobe that lights: its window and report, and the uplink's copy where it is asked for. -/
theorem strobeLights_shows (f : Frame) (s : State) :
    let u := strobeLights f s
    u.so = (s.lighted f).so ∧ u.tm = s.tm ∧ (s.so.applied.photonUplink = false → u.tc = s.tc) ∧
    (s.so.applied.photonUplink = true → u = uplinkJoin (.photon (photonReport f s)) (s.lighted f)) := by
  dsimp only
  rw [strobeLights_eq]
  cases asked : s.so.applied.photonUplink with
  | false => exact ⟨rfl, rfl, fun _ => rfl, nofun⟩
  | true => exact ⟨by simp, by simp [State.lighted], nofun, fun _ => rfl⟩

end

/-- Settles O42, phase by phase. -/
theorem framePhases : Obligations.FramePhases := by
  intro s so
  have ends {p : Phase} (running : so.state = .running) (phase : so.phase = p) (out : so.phaseTimer = some 0) :
      s.so.phaseEnds p = true := by
    simp only [so] at running phase out
    simp [So.phaseEnds, due, running, phase, out]
  refine ⟨fun running phase out => ⟨_, congrArg Host.Outcome.next (if_pos (ends running phase out)), ?_, ?_, rfl⟩,
    fun running phase out => ⟨_, congrArg Host.Outcome.next (if_pos (ends running phase out)), rfl, rfl⟩,
    fun out => ⟨_, congrArg Host.Outcome.next (if_pos (by simp [due, show s.so.darkTimer = some 0 from out])), rfl⟩,
    fun out => congrArg Host.Outcome.next (if_pos (by simp [due, show s.so.light = some 0 from out])), ?_⟩
  · rfl
  · rfl
  · intro running phase out silent stopped
    refine ⟨_, congrArg Host.Outcome.next (if_pos (ends running phase out)), ?_⟩
    rw [strobeBegins_eq]
    by_cases quiet : silent
    · rw [strobeDecision_of_silent (s := s.strobed) quiet]
      exact ⟨rfl, rfl, rfl, rfl, fun _ => ⟨rfl, rfl, rfl, rfl, rfl⟩, fun loud => absurd quiet loud,
        fun loud => absurd quiet loud⟩
    · simp only [silent, not_or] at quiet
      obtain ⟨frame, dark, passed⟩ := quiet
      obtain ⟨f, current⟩ := Option.ne_none_iff_exists'.mp frame
      have selected : s.strobed.so.applied.linesSelected = true := Bool.of_not_eq_false dark
      have below : s.strobed.so.limitPassed = false := Bool.of_not_eq_true passed
      have loud : ¬ silent := fun quiet => by
        rcases quiet with none | unselected | limit
        · exact frame none
        · exact dark unselected
        · exact passed limit
      by_cases stops : stopped
      · rw [strobeDecision_of_stopped (s := s.strobed) current selected below stops]
        exact ⟨rfl, rfl, rfl, rfl, fun quiet => absurd quiet loud, fun _ _ => ⟨rfl, rfl, rfl, raise_pendingEvent .., rfl⟩,
          fun _ free => absurd stops free⟩
      · rw [strobeDecision_of_lights (s := s.strobed) current selected below stops]
        obtain ⟨units, matrix, alone, copied⟩ := strobeLights_shows f s.strobed
        dsimp only
        rw [units, matrix]
        refine ⟨rfl, rfl, rfl, rfl, fun quiet => absurd quiet loud, fun _ yes => absurd yes stops,
          fun _ _ => ⟨rfl, rfl, rfl, f, current, rfl, alone, fun asked => ?_⟩⟩
        rw [copied asked]
        exact uplinkJoin_shows (.photon (photonReport f s.strobed)) (s.strobed.lighted f)

end Sys2Proof.Machine
end

section
/-!
PROOFS. What the blocks' own steps bring: requests stand once made, a pending event stays pending, and only a fault of the
DRAM or of a live word is captured (R160, R166, R180).
-/
namespace Sys2Proof.Machine

/-- From one state to another requests and pending events have only joined, and nothing is captured. -/
structure State.Brings (s t : State) : Prop where
  requests : ∀ r ∈ s.da.all, r.op ≠ .write [] → r ∈ t.da.all
  events : ∀ k, s.pendingEvent k = true → t.pendingEvent k = true
  captures : t.da.captures = s.da.captures
  total : t.da.captureTotal = s.da.captureTotal

theorem State.Brings.refl (s : State) : s.Brings s := ⟨fun _ h _ => h, fun _ => id, rfl, rfl⟩

theorem State.Brings.trans {s t u : State} (h : s.Brings t) (k : t.Brings u) : s.Brings u :=
  ⟨fun r old op => k.requests r (h.requests r old op) op, fun e => k.events e ∘ h.events e,
    k.captures.trans h.captures, k.total.trans h.total⟩

/-- A step after those so far. -/
theorem State.Brings.after {s t u : State} (k : t.Brings u) (h : s.Brings t) : s.Brings u := h.trans k

theorem State.Brings.ite {c : Prop} [Decidable c] {s t u : State} (h : c → s.Brings t) (k : ¬ c → s.Brings u) :
    s.Brings (if c then t else u) := by
  split
  next hc => exact h hc
  next hc => exact k hc

/-- A change of the other units. -/
theorem State.Brings.of_same {s t : State} (da : t.da = s.da) (eu : t.eu = s.eu) : s.Brings t :=
  ⟨fun r old _ => by rwa [da], fun k h => by rwa [State.pendingEvent, eu], by rw [da], by rw [da]⟩

/-- Requests alone. -/
theorem State.Brings.of_requests {s t : State} (eu : t.eu = s.eu)
    (requests : ∀ r ∈ s.da.all, r.op ≠ .write [] → r ∈ t.da.all)
    (da : t.da = { s.da with requests := t.da.requests, service := t.da.service }) : s.Brings t :=
  ⟨requests, fun k h => by rwa [State.pendingEvent, eu], by rw [da], by rw [da]⟩

theorem State.Delivers.brings {s t : State} (h : s.Delivers t) : s.Brings t :=
  have da : t.da = s.da := congrArg (·.1.2.2.2.2.1) h.always
  ⟨fun r old _ => by rwa [da], h.events, by rw [da], by rw [da]⟩

theorem drain_brings (s : State) : s.Brings (drain s) := (drain_delivers s).brings

theorem raise_brings (k : EventKind) (s : State) : s.Brings (raise k s) := (raise_delivers k s).brings

theorem when_brings {c : Bool} {f : State → State} {s : State} (h : s.Brings (f s)) : s.Brings (s.when c f) :=
  .ite (fun _ => h) fun _ => .refl s

theorem foldl_brings {α : Type} {f : State → α → State} (h : ∀ (s : State) a, s.Brings (f s a)) (l : List α) (s : State) :
    s.Brings (l.foldl f s) := by
  induction l generalizing s with
  | nil => exact .refl s
  | cons a r ih => exact .after (ih _) (h s a)

/-! ### Requests -/

theorem request_brings (a : Agent) (l : Nat) (op : ReqOp) (s : State) : s.Brings (request a l op s) :=
  .of_requests rfl (fun _ old op => mem_request_of_mem old op) (Da.kick_eq _)

theorem kick_brings (s : State) : s.Brings (s.onDa Da.kick) :=
  .of_requests rfl (fun _ old op => Da.mem_chooseUpTo_of_mem _ _ old op) (Da.kick_eq _)

theorem requestReads_brings (a : Agent) (l : List Nat) (s : State) : s.Brings (requestReads a l s) := by
  induction l generalizing s with
  | nil => exact .refl s
  | cons x r ih => exact .after (ih _) (request_brings ..)

theorem requestWrites_brings (a : Agent) (w : List (Nat × List (Nat × Byte))) (s : State) :
    s.Brings (requestWrites a w s) := by
  induction w generalizing s with
  | nil => exact .refl s
  | cons x r ih => exact .after (ih _) (request_brings ..)

theorem depositWrites_brings (job : Nat) (w : List (Nat × List (Nat × Byte))) (s : State) :
    s.Brings (depositWrites job w s) := by
  induction w generalizing s with
  | nil => exact .refl s
  | cons x r ih => exact .after (ih _) (request_brings ..)

theorem issueEntry_brings (i : U16) (g : Nat) (first : Bool) (w : List (Nat × List (Nat × Byte))) (s : State) :
    s.Brings (issueEntry i g first w s) := by
  induction w generalizing s first with
  | nil => exact .refl s
  | cons x r ih => exact .after (ih ..) (request_brings ..)

/-! ### The uplink -/

theorem beginReads_brings (e a l : Nat) (s : State) : s.Brings (beginReads e a l s) :=
  .after (requestReads_brings ..) (.of_same rfl rfl)

theorem sendChoice_brings (c : Choice) (s : State) : s.Brings (sendChoice c s) := by
  unfold sendChoice
  split
  · exact .of_same rfl rfl
  · exact .of_same rfl rfl
  · exact .of_same rfl rfl
  · split
    · exact beginReads_brings ..
    · exact .of_same rfl rfl
  · split
    · exact beginReads_brings ..
    · exact .of_same rfl rfl
    · exact .of_same rfl rfl
    · exact .of_same rfl rfl

theorem laneKick_brings (s : State) : s.Brings (laneKick s) := by
  refine .ite (fun _ => ?_) fun _ => .refl s
  split
  · exact sendChoice_brings ..
  · exact .refl s

theorem laneFreed_brings (s : State) : s.Brings (laneFreed s) := .after (laneKick_brings _) (.of_same rfl rfl)

theorem uplinkJoin_brings (c : Content) (s : State) : s.Brings (uplinkJoin c s) := by
  unfold uplinkJoin
  split
  · exact .of_same rfl rfl
  · exact .of_same rfl rfl
  · exact .ite (fun _ => .after (raise_brings ..) (.of_same rfl rfl)) fun _ =>
      .after (laneKick_brings _) (.of_same rfl rfl)

theorem uplinkSensor_brings (r : SensorRec) (s : State) : s.Brings (uplinkSensor r s) :=
  .ite (fun _ => .of_same rfl rfl) fun _ => uplinkJoin_brings ..

theorem finishSlot_brings (n : Fin 3) (o : Outcome) (s : State) : s.Brings (finishSlot n o s) :=
  .after (raise_brings ..) (.of_same rfl rfl)

theorem finishSlots_brings (l : List (Fin 3)) (o : Outcome) (s : State) : s.Brings (finishSlots l o s) :=
  foldl_brings (fun s n => finishSlot_brings n o s) l s

theorem loseSlot_brings (id : Nat) (n : Fin 3) (belonged : Bool) (s : State) : s.Brings (loseSlot id n belonged s) :=
  .ite (fun _ => .after (finishSlot_brings ..) (.of_same rfl rfl)) fun _ => .refl s

theorem sendMessage_brings (e : Nat) (l : List (Nat × List Byte)) (d : Bool) (s : State) :
    s.Brings (sendMessage e l d s) := by
  unfold sendMessage
  split
  · exact laneFreed_brings s
  · split
    · exact .after (loseSlot_brings ..) (.of_same rfl rfl)
    · exact .after (loseSlot_brings ..) (.of_same rfl rfl)

theorem messageReadDone_brings (read line : Nat) (data : List Byte) (bad : Bool) (s : State) :
    s.Brings (messageReadDone read line data bad s) := by
  unfold messageReadDone
  split
  · exact .ite (fun _ => .refl s) fun _ => .ite (fun _ => .of_same rfl rfl) fun _ =>
      .ite (fun _ => laneFreed_brings s) fun _ => sendMessage_brings ..
  · exact .refl s

/-! ### The downlink -/

theorem applyAck_brings (c : Fin 3) (f : AckField) (s : State) : s.Brings (applyAck c f s) := by
  refine .ite (fun _ => .refl s) fun _ => .ite (fun _ => .after (finishSlots_brings ..) (.of_same rfl rfl)) fun _ => ?_
  split
  · exact .refl s
  · exact .ite (fun _ => .refl s) fun _ => .of_same rfl rfl

theorem rejectTether_brings (c : RejectCause) (tag : U32) (s : State) : s.Brings (rejectTether c tag s) :=
  .after (raise_brings ..) (.of_same rfl rfl)

theorem tetherBegin_brings (f : FrameBegin) (s : State) : s.Brings (tetherBegin f s) := by
  have cleared : s.Brings (tetherCleared f s) :=
    .ite (fun _ => .after (rejectTether_brings ..) (.of_same rfl rfl)) fun _ => .refl s
  rw [tetherBegin_eq]
  refine .trans cleared ?_
  split
  · exact rejectTether_brings ..
  · exact .ite (fun _ => .of_same rfl rfl) fun _ => rejectTether_brings ..

theorem enqueue_brings (e : Entry) (s : State) : s.Brings (enqueue e s) := .of_same (by simp) (by simp [enqueue])

theorem tetherEnd_brings (tag : U32) (s : State) : s.Brings (tetherEnd tag s) := by
  have rejected (c : RejectCause) {t : State} (da : t.da = s.da) (eu : t.eu = s.eu) :
      s.Brings (rejectTether c tag t) := .after (rejectTether_brings ..) (.of_same da eu)
  unfold tetherEnd
  split
  · exact rejected _ rfl rfl
  · exact .ite (fun _ => rejected _ rfl rfl) fun _ => .ite (fun _ => rejected _ rfl rfl) fun _ =>
      .ite (fun _ => .of_same rfl rfl) fun _ => .ite (fun _ => rejected _ rfl rfl) fun _ =>
      .ite (fun _ => rejected _ rfl rfl) fun _ => .after (enqueue_brings ..) (.of_same rfl rfl)

theorem acceptSlice_brings (n : Fin 6) (c : SurfaceConfig) (ident : Nat) (p : Slice) (s : State) :
    s.Brings (acceptSlice n c ident p s) :=
  .after (depositWrites_brings ..) (.ite (fun _ => .of_same rfl rfl) fun _ => .of_same rfl rfl)

theorem takeSlice_brings (p : Slice) (s : State) : s.Brings (takeSlice p s) := by
  refine .ite (fun _ => .of_same rfl rfl) fun _ => ?_
  split
  · exact .of_same rfl rfl
  · exact .ite (fun _ => .of_same rfl rfl) fun _ => .ite (fun _ => .of_same rfl rfl) fun _ => acceptSlice_brings ..

theorem offerMessage_brings (bytes : List Byte) (s : State) : s.Brings (offerMessage bytes s).2 := by
  simp only [offerMessage]
  repeat' split
  · exact .of_same rfl rfl
  · exact .of_same rfl rfl
  · exact .of_same rfl rfl
  · exact .of_same rfl rfl
  · exact .after (issueEntry_brings ..) (.of_same rfl rfl)

theorem onRing_brings (n : Fin 3) (f : AudioRing → AudioRing) (s : State) : s.Brings (s.onRing n f) := .of_same rfl rfl

theorem placeAudio_brings (frames : List U32) (s : State) : s.Brings (placeAudio frames s) := by
  unfold placeAudio
  dsimp only
  refine .ite (fun _ => ?_) fun _ => .after (raise_brings ..) (.after (onRing_brings ..) ?_)
  all_goals exact .ite (fun _ => .refl s) fun _ => .after (depositWrites_brings ..) (.of_same rfl rfl)

theorem wakeCause_brings (c : WakeCause) (s : State) : s.Brings (wakeCause c s) := by
  unfold wakeCause
  split
  · exact ⟨fun _ old _ => old, fun _ => id, rfl, rfl⟩
  · exact .of_same rfl rfl
  · exact .refl s

theorem takeWake_brings (s : State) : s.Brings (takeWake s) :=
  .ite (fun _ => .after (wakeCause_brings ..) (raise_brings ..)) fun _ => raise_brings ..

theorem bySequence_brings {owner : State → State} (h : ∀ s : State, s.Brings (owner s)) (seq : U16) (s : State) :
    s.Brings (bySequence seq owner s) := by
  unfold bySequence
  split
  · exact .after (h _) (.of_same rfl rfl)
  · exact .of_same rfl rfl
  · exact .of_same rfl rfl

theorem receiveMessage_brings (seq : U16) (bytes : List Byte) (s : State) : s.Brings (receiveMessage seq bytes s) := by
  unfold receiveMessage
  split
  · exact .ite (fun _ => .trans (offerMessage_brings ..) (.of_same rfl rfl)) fun _ => offerMessage_brings ..
  · exact .of_same rfl rfl
  · exact .of_same rfl rfl

theorem handlePacket_brings (p : Packet) (s : State) : s.Brings (handlePacket p s) := by
  cases p with
  | badCrc => exact .refl s
  | badFormat => exact .refl s
  | keepalive => exact .refl s
  | ack a b c => exact .after (applyAck_brings ..) (.after (applyAck_brings ..) (applyAck_brings ..))
  | frameBegin seq f => exact bySequence_brings (tetherBegin_brings f) seq s
  | slice p => exact takeSlice_brings p s
  | frameEnd seq tag => exact bySequence_brings (tetherEnd_brings tag) seq s
  | audio frames => exact .ite (fun _ => .of_same rfl rfl) fun _ => placeAudio_brings ..
  | message seq bytes => exact receiveMessage_brings ..
  | time console => exact .of_same rfl rfl
  | wake seq => exact bySequence_brings takeWake_brings seq s

theorem receivePacket_brings (p : Packet) (s : State) : s.Brings (receivePacket p s) := by
  unfold receivePacket
  split
  · exact .of_same rfl rfl
  · exact .of_same rfl rfl
  · exact .after (laneKick_brings _) (.after (handlePacket_brings ..) (.of_same rfl rfl))

theorem resumeDownlink_brings (s : State) : s.Brings (resumeDownlink s) := by
  unfold resumeDownlink
  split
  · exact .ite (fun _ => .after (receivePacket_brings ..) (.of_same rfl rfl)) fun _ => .refl s
  · exact .refl s

end Sys2Proof.Machine
end

section
/-!
PROOFS. The completion of a sensor transfer: no response, the record that is formed and routed, and the presence report
(R55 to R66, R70, R91, R139, R142).
-/
namespace Sys2Proof.Machine

theorem filter_never {α : Type} (l : List α) : l.filter (fun _ => false) = [] :=
  List.filter_eq_nil_iff.mpr fun _ _ => Bool.false_ne_true

/-! ### The presence report (R139, R142) -/

theorem setPower_brings (p : PowerState) (s : State) : s.Brings (setPower p s) := .of_same (by simp) (by simp)

theorem onPwc_brings (f : Pwc → Pwc) (s : State) : s.Brings (s.onPwc f) := .of_same rfl rfl

theorem enterActive_brings (s : State) : s.Brings (enterActive s) :=
  .after (raise_brings ..) (.after (onPwc_brings ..) (.after (onPwc_brings ..) (setPower_brings ..)))

theorem enterDimmed_brings (c : DimCause) (s : State) : s.Brings (enterDimmed c s) :=
  .after (raise_brings ..) (.after (onPwc_brings ..) (.after (onPwc_brings ..) (setPower_brings ..)))

/-- The report of a value that is not the present one, before the power states act on it. -/
def State.seen (v : Bool) (s : State) : State := raise .presenceChange (s.onPwc fun p => { p with presence := v })

/-- What the power state makes of a new presence value. -/
def presenceActs (v : Bool) (s : State) : State :=
  match s.pwc.state with
  | .active => if s.pwc.settings.autoDim && !v then enterDimmed .presence s else s
  | .dimmed => if s.pwc.dimCause = .presence ∧ v then enterActive s else s
  | .enteringStandby => if v && s.pwc.settings.wakePresence then wakeCause .presence s else s
  | .standby => if v && s.pwc.settings.wakePresence then wakeCause .presence s else s
  | _ => s

theorem presenceReport_of_new {v : Bool} {s : State} (new : s.pwc.presence ≠ v) :
    presenceReport v s = presenceActs v (s.seen v) := if_neg new

theorem presenceReport_of_old {v : Bool} {s : State} (old : s.pwc.presence = v) : presenceReport v s = s := if_pos old

theorem presenceActs_brings (v : Bool) (s : State) : s.Brings (presenceActs v s) := by
  unfold presenceActs
  split
  · exact .ite (fun _ => enterDimmed_brings ..) fun _ => .refl s
  · exact .ite (fun _ => enterActive_brings ..) fun _ => .refl s
  · exact .ite (fun _ => wakeCause_brings ..) fun _ => .refl s
  · exact .ite (fun _ => wakeCause_brings ..) fun _ => .refl s
  · exact .refl s

theorem presenceReport_brings (v : Bool) (s : State) : s.Brings (presenceReport v s) := by
  by_cases old : s.pwc.presence = v
  · rw [presenceReport_of_old old]
    exact .refl s
  · rw [presenceReport_of_new old]
    exact .after (presenceActs_brings ..) (.after (raise_brings ..) (onPwc_brings ..))

theorem enterDimmed_shows (c : DimCause) (s : State) :
    (enterDimmed c s).pwc.state = .dimmed ∧ (enterDimmed c s).pwc.dimCause = c ∧
    (enterDimmed c s).pendingEvent .powerChange = true := by
  refine ⟨?_, ?_, raise_pendingEvent ..⟩
  all_goals simp [enterDimmed, Pwc.onAwake, setPower_pwc]

theorem enterActive_shows (s : State) :
    (enterActive s).pwc.state = .active ∧ (enterActive s).pwc.dimCause = .none ∧
    (enterActive s).pendingEvent .powerChange = true := by
  refine ⟨?_, ?_, raise_pendingEvent ..⟩
  all_goals simp [enterActive, Pwc.onAwake, setPower_pwc]

theorem presenceActs_presence (v : Bool) (s : State) : (presenceActs v s).pwc.presence = s.pwc.presence := by
  unfold presenceActs wakeCause
  repeat' split
  all_goals simp [enterDimmed, enterActive, beginWaking, Pwc.onAwake, setPower_pwc]

section
variable {v : Bool} {s : State}

theorem presenceActs_of_dims (state : s.pwc.state = .active) (auto : s.pwc.settings.autoDim = true) (gone : v = false) :
    presenceActs v s = enterDimmed .presence s := by
  simp [presenceActs, state, auto, gone]

theorem presenceActs_of_restores (state : s.pwc.state = .dimmed) (cause : s.pwc.dimCause = .presence) (here : v = true) :
    presenceActs v s = enterActive s := by
  simp [presenceActs, state, cause, here]

theorem wakeCause_of_standby {c : WakeCause} (state : s.pwc.state = .standby) : wakeCause c s = beginWaking c s := by
  rw [wakeCause, state]

theorem wakeCause_of_entering {c : WakeCause} (state : s.pwc.state = .enteringStandby) :
    wakeCause c s = s.onPwc fun p => { p with keptWake := p.keptWake.or (some c) } := by
  rw [wakeCause, state]

theorem presenceActs_of_wakes (here : v = true) (wake : s.pwc.settings.wakePresence = true)
    (asleep : s.pwc.state = .standby ∨ s.pwc.state = .enteringStandby) : presenceActs v s = wakeCause .presence s := by
  rcases asleep with state | state <;> simp [presenceActs, state, here, wake]

theorem presenceActs_of_idle
    (dims : ¬ (s.pwc.state = .active ∧ s.pwc.settings.autoDim = true ∧ v = false))
    (restores : ¬ (s.pwc.state = .dimmed ∧ s.pwc.dimCause = .presence ∧ v = true))
    (wakes : ¬ ((v = true ∧ s.pwc.settings.wakePresence = true) ∧
      (s.pwc.state = .standby ∨ s.pwc.state = .enteringStandby))) : presenceActs v s = s := by
  cases state : s.pwc.state
  all_goals simp_all [presenceActs]

end

/-- The presence state and what a change of it does in the power states. -/
theorem presenceReport_shows (seen : Bool) (s : State) :
    let u := presenceReport seen s
    u.pwc.presence = seen ∧ (seen = s.pwc.presence → u.pwc = s.pwc) ∧
    (seen ≠ s.pwc.presence → u.pendingEvent .presenceChange = true ∧
      let dims : Prop := s.pwc.state = .active ∧ s.pwc.settings.autoDim = true ∧ seen = false
      let restores : Prop := s.pwc.state = .dimmed ∧ s.pwc.dimCause = .presence ∧ seen = true
      let wakes : Prop := seen = true ∧ s.pwc.settings.wakePresence = true
      (dims → u.pwc.state = .dimmed ∧ u.pwc.dimCause = .presence ∧ u.pendingEvent .powerChange = true) ∧
      (restores → u.pwc.state = .active ∧ u.pwc.dimCause = .none ∧ u.pendingEvent .powerChange = true) ∧
      (wakes → s.pwc.state = .standby → u.pwc.state = .waking ∧ u.pwc.lastWake = .presence) ∧
      (wakes → s.pwc.state = .enteringStandby →
        u.pwc = { s.pwc with presence := seen, keptWake := s.pwc.keptWake.or (some .presence) }) ∧
      (¬ dims → ¬ restores → ¬ (wakes ∧ (s.pwc.state = .standby ∨ s.pwc.state = .enteringStandby)) →
        u.pwc = { s.pwc with presence := seen })) := by
  by_cases old : s.pwc.presence = seen
  · dsimp only
    rw [presenceReport_of_old old]
    exact ⟨old, fun _ => rfl, fun new => absurd old.symm new⟩
  · dsimp only
    rw [presenceReport_of_new old]
    have pwc : (s.seen seen).pwc = { s.pwc with presence := seen } := by simp [State.seen]
    have state : (s.seen seen).pwc.state = s.pwc.state := by rw [pwc]
    have settings : (s.seen seen).pwc.settings = s.pwc.settings := by rw [pwc]
    have cause : (s.seen seen).pwc.dimCause = s.pwc.dimCause := by rw [pwc]
    refine ⟨by rw [presenceActs_presence, pwc], fun same => absurd same.symm old, fun _ =>
      ⟨(presenceActs_brings ..).events _ (raise_pendingEvent ..), fun ⟨active, auto, gone⟩ => ?_,
        fun ⟨dimmed, shade, here⟩ => ?_, fun ⟨here, wake⟩ asleep => ?_, fun ⟨here, wake⟩ asleep => ?_,
        fun dims restores wakes => ?_⟩⟩
    · rw [presenceActs_of_dims (state.trans active) (by rw [settings, auto]) gone]
      exact enterDimmed_shows ..
    · rw [presenceActs_of_restores (state.trans dimmed) (cause.trans shade) here]
      exact enterActive_shows _
    · rw [presenceActs_of_wakes here (by rw [settings, wake]) (.inl (state.trans asleep)),
        wakeCause_of_standby (state.trans asleep)]
      exact ⟨rfl, rfl⟩
    · rw [presenceActs_of_wakes here (by rw [settings, wake]) (.inr (state.trans asleep)),
        wakeCause_of_entering (state.trans asleep)]
      exact congrArg (fun p : Pwc => { p with keptWake := p.keptWake.or (some .presence) }) pwc
    · rw [presenceActs_of_idle (by rwa [state, settings]) (by rwa [state, cause]) (by rwa [state, settings]), pwc]

/-! ### What a record is handed to (R62 to R66, R70, R91) -/

section
variable (rcd : SensorRec) (acting : List Rule) (s : State)

/-- The offers to the sensor rings that the acting rules name, unless the standby hold is on. -/
def State.ringed : State :=
  if s.sh.hold then s else ((List.finRange 8).filter fun n => acting.any (·.ring == some n)).foldl (offerRing rcd) s

/-- The fresh slots that the acting rules name take the record. -/
def State.slotted : State := ((List.finRange 4).filter fun n => acting.any (·.slot == some n)).foldl (updateSlot rcd) s

/-- The uplink's copy, unless the standby hold is on. -/
def State.uplinked : State := if !s.sh.hold && acting.any (·.uplink) then uplinkSensor rcd s else s

end

section
variable {rcd : SensorRec} {acting : List Rule} {s : State}

theorem State.ringed_of_hold (hold : s.sh.hold = true) : s.ringed rcd acting = s := if_pos hold

theorem State.ringed_of_free (hold : s.sh.hold = false) : s.ringed rcd acting =
    ((List.finRange 8).filter fun n => acting.any (·.ring == some n)).foldl (offerRing rcd) s :=
  if_neg (by simp [hold])

theorem State.uplinked_of_not (h : ¬ (s.sh.hold = false ∧ acting.any (·.uplink) = true)) : s.uplinked rcd acting = s :=
  if_neg (by simpa using h)

theorem State.uplinked_of_sends (h : s.sh.hold = false ∧ acting.any (·.uplink) = true) :
    s.uplinked rcd acting = uplinkSensor rcd s := if_pos (by simpa using h)

theorem State.ringed_keeps : (s.ringed rcd acting).tc = s.tc ∧ (s.ringed rcd acting).pwc = s.pwc ∧
    (s.ringed rcd acting).nextId = s.nextId := by
  cases hold : s.sh.hold with
  | true =>
    rw [State.ringed_of_hold hold]
    exact ⟨rfl, rfl, rfl⟩
  | false =>
    rw [State.ringed_of_free hold]
    exact ⟨foldl_keeps State.tc _ (by simp) _ s, foldl_keeps State.pwc _ (by simp) _ s,
      foldl_keeps State.nextId _ (by simp) _ s⟩

theorem State.uplinked_keeps : (s.uplinked rcd acting).sh = s.sh ∧ (s.uplinked rcd acting).pwc = s.pwc := by
  unfold State.uplinked
  split <;> simp

theorem updateSlots_eq (rcd : SensorRec) (l : List (Fin 4)) (s : State) : l.foldl (updateSlot rcd) s =
    s.onSh fun h =>
      { h with slots := l.foldl (fun v n => vmod v n fun x => ⟨some rcd, x.updates + 1⟩) h.slots } := by
  induction l generalizing s with
  | nil => rfl
  | cons n rest ih =>
    rw [List.foldl_cons, ih]
    rfl

theorem State.slotted_eq : ∃ slots, s.slotted rcd acting = s.onSh fun h => { h with slots } :=
  ⟨_, updateSlots_eq ..⟩

theorem State.slotted_slots (n : Fin 4) : vget (s.slotted rcd acting).sh.slots n =
    if acting.any (·.slot == some n) then ⟨some rcd, (vget s.sh.slots n).updates + 1⟩ else vget s.sh.slots n := by
  rw [State.slotted, updateSlots_eq]
  exact (vget_foldl_vmod _ _ ((List.nodup_finRange 4).filter _) _ n).trans (by simp)

end

/-- From `s` to `u` a record has been offered to ring `n` (R64). -/
structure State.RingOffered (rcd : SensorRec) (n : Fin 8) (s u : State) : Prop where
  off : (vget s.sh.rings n).enabled = false → vget u.sh.rings n = vget s.sh.rings n
  full : let r := vget s.sh.rings n
    r.enabled = true → (r.issued - r.consume).toNat = r.capacity →
    vget u.sh.rings n = { r with drops := r.drops + 1 } ∧ u.pendingEvent .ringFull = true
  room : let r := vget s.sh.rings n
    r.enabled = true → (r.issued - r.consume).toNat ≠ r.capacity →
    vget u.sh.rings n = { r with issued := r.issued + 1 } ∧
    ∀ w ∈ lineWrites (r.base + 32 * (r.issued.toNat % r.capacity)) (rcd.bytes 0), w.2 ≠ [] →
      ⟨.sensorRing n r.issued s.generation, w.1, .write w.2⟩ ∈ u.da.all

theorem State.RingOffered.later {rcd : SensorRec} {n : Fin 8} {s t u : State} (h : s.RingOffered rcd n t)
    (ring : vget u.sh.rings n = vget t.sh.rings n) (brings : t.Brings u) : s.RingOffered rcd n u := by
  refine ⟨fun off => ring.trans (h.off off), fun on full => ?_, fun on room => ?_⟩
  · obtain ⟨dropped, event⟩ := h.full on full
    exact ⟨ring.trans dropped, brings.events _ event⟩
  · obtain ⟨issued, writes⟩ := h.room on room
    exact ⟨ring.trans issued, fun w mem some => brings.requests _ (writes w mem some) fun e => some (ReqOp.write.inj e)⟩

theorem State.RingOffered.earlier {rcd : SensorRec} {n : Fin 8} {s t u : State} (h : t.RingOffered rcd n u)
    (ring : vget t.sh.rings n = vget s.sh.rings n) (generation : t.generation = s.generation) :
    s.RingOffered rcd n u := by
  refine ⟨fun off => ?_, fun on full => ?_, fun on room => ?_⟩
  · rw [← ring] at off ⊢
    exact h.off off
  · rw [← ring] at on full ⊢
    exact h.full on full
  · rw [← ring] at on room ⊢
    rw [← generation]
    exact h.room on room

theorem offerRing_sh (rcd : SensorRec) (s : State) (n : Fin 8) :
    ∃ f, (offerRing rcd s n).sh = { s.sh with rings := vmod s.sh.rings n f } := by
  unfold offerRing
  dsimp only
  split
  · exact ⟨fun r => r, by rw [vmod_id]⟩
  · split
    · exact ⟨fun r => { r with drops := r.drops + 1 }, by simp [State.onSensorRing, State.onSh]⟩
    · exact ⟨fun r => { r with issued := r.issued + 1 }, by simp [State.onSensorRing, State.onSh]⟩

theorem offerRing_others {n m : Fin 8} (other : m ≠ n) (rcd : SensorRec) (s : State) :
    vget (offerRing rcd s n).sh.rings m = vget s.sh.rings m := by
  obtain ⟨f, hub⟩ := offerRing_sh rcd s n
  rw [hub]
  exact vget_vmod_ne _ _ other.symm

theorem offerRing_brings (rcd : SensorRec) (s : State) (n : Fin 8) : s.Brings (offerRing rcd s n) :=
  .ite (fun _ => .refl s) fun _ => .ite (fun _ => .after (raise_brings ..) (.of_same rfl rfl)) fun _ =>
    .after (requestWrites_brings ..) (.of_same rfl rfl)

theorem offerRing_offered (rcd : SensorRec) (s : State) (n : Fin 8) : s.RingOffered rcd n (offerRing rcd s n) := by
  refine ⟨fun off => ?_, fun on full => ?_, fun on room => ?_⟩
  · rw [offerRing, if_pos (by simp [off])]
  · rw [offerRing, if_neg (by simp [on]), if_pos full]
    exact ⟨by simp [State.onSensorRing, State.onSh], raise_pendingEvent ..⟩
  · rw [offerRing, if_neg (by simp [on]), if_neg room]
    exact ⟨by simp [State.onSensorRing, State.onSh], fun w mem some => mem_requestWrites mem some⟩

section
variable (rcd : SensorRec) (l : List (Fin 8)) (s : State)

theorem offers_brings : s.Brings (l.foldl (offerRing rcd) s) := foldl_brings (offerRing_brings rcd) l s

/-- Offers change the rings alone of the sensor hub. -/
theorem offers_sh : (l.foldl (offerRing rcd) s).sh = { s.sh with rings := (l.foldl (offerRing rcd) s).sh.rings } := by
  induction l generalizing s with
  | nil => rfl
  | cons n rest ih =>
    obtain ⟨f, hub⟩ := offerRing_sh rcd s n
    rw [List.foldl_cons, ih, hub]

theorem offers_others {n : Fin 8} (out : n ∉ l) : vget (l.foldl (offerRing rcd) s).sh.rings n = vget s.sh.rings n := by
  induction l generalizing s with
  | nil => rfl
  | cons m rest ih =>
    obtain ⟨other, out⟩ := not_or.mp fun named => out (List.mem_cons.mpr named)
    rw [List.foldl_cons, ih _ out, offerRing_others other]

theorem offers_offered (nodup : l.Nodup) {n : Fin 8} (named : n ∈ l) :
    s.RingOffered rcd n (l.foldl (offerRing rcd) s) := by
  induction l generalizing s with
  | nil => cases named
  | cons m rest ih =>
    obtain ⟨fresh, nodup⟩ := List.nodup_cons.mp nodup
    rw [List.foldl_cons]
    rcases List.mem_cons.mp named with here | later
    · subst here
      exact (offerRing_offered rcd s n).later (offers_others rcd rest _ fresh) (offers_brings ..)
    · exact (ih _ nodup later).earlier (offerRing_others (fun e : n = m => fresh (e ▸ later)) rcd s) (by simp)

end



section
variable {rcd : SensorRec} {acting : List Rule} {s : State}

theorem State.ringed_brings : s.Brings (s.ringed rcd acting) := .ite (fun _ => .refl s) fun _ => offers_brings ..

theorem State.ringed_sh : (s.ringed rcd acting).sh = { s.sh with rings := (s.ringed rcd acting).sh.rings } := by
  cases hold : s.sh.hold with
  | true => rw [State.ringed_of_hold hold]
  | false =>
    rw [State.ringed_of_free hold]
    exact offers_sh ..

theorem State.ringed_others {n : Fin 8} (unnamed : ¬ (s.sh.hold = false ∧ acting.any (·.ring == some n) = true)) :
    vget (s.ringed rcd acting).sh.rings n = vget s.sh.rings n := by
  cases hold : s.sh.hold with
  | true => rw [State.ringed_of_hold hold]
  | false =>
    rw [State.ringed_of_free hold]
    exact offers_others _ _ _ (by simpa [hold] using unnamed)

theorem State.ringed_offered {n : Fin 8} (hold : s.sh.hold = false) (named : acting.any (·.ring == some n) = true) :
    s.RingOffered rcd n (s.ringed rcd acting) := by
  rw [State.ringed_of_free hold]
  exact offers_offered _ _ _ ((List.nodup_finRange 8).filter _) (by simpa using named)

theorem State.uplinked_brings : s.Brings (s.uplinked rcd acting) :=
  .ite (fun _ => uplinkSensor_brings ..) fun _ => .refl s

end

theorem updateFirst_append {α : Type} {p : α → Bool} (f : α → α) {pre : List α} {a : α} (post : List α)
    (before : ∀ x ∈ pre, p x = false) (here : p a = true) :
    updateFirst p f (pre ++ a :: post) = pre ++ f a :: post := by
  induction pre with
  | nil => exact if_pos here
  | cons x rest ih =>
    obtain ⟨head, rest_before⟩ := List.forall_mem_cons.mp before
    rw [List.cons_append, updateFirst, if_neg (by simp [head]), ih rest_before, List.cons_append]

/-- A record joins the open batch, or begins one (R91). -/
theorem uplinkSensor_shows (rcd : SensorRec) (s : State) :
    let u := uplinkSensor rcd s
    (∀ pre id records post, s.tc.queue = pre ++ ⟨id, .sensor records true⟩ :: post →
      (∀ e ∈ pre, e.isOpen = false) →
      u.tc = { s.tc with
        queue := pre ++ ⟨id, .sensor (records ++ [rcd]) (decide (records.length + 1 < 4))⟩ :: post }) ∧
    ((∀ e ∈ s.tc.queue, e.isOpen = false) → u = uplinkJoin (.sensor [rcd] true) s) := by
  refine ⟨fun pre id records post queue before => ?_, fun none => if_neg (by simpa using none)⟩
  have opens : s.tc.queue.any UplinkEntry.isOpen = true := by
    rw [queue]
    simp [UplinkEntry.isOpen]
  rw [uplinkSensor, if_pos opens]
  change { s.tc with queue := updateFirst UplinkEntry.isOpen (UplinkEntry.addRecord rcd) s.tc.queue } = _
  rw [queue, updateFirst_append _ _ before rfl]
  simp [UplinkEntry.addRecord]

/-! ### The completion (R56 to R58) -/

/-- The transfer's channel once its record is formed and counted, and the bus free. -/
def State.formed (x : Transfer) (acting : List Rule) (s : State) : State :=
  (s.onSh fun h => { h with bus := none }).onChannel x.channel fun c =>
    { c with consecutive := 0, faultCleared := false, seq := c.seq + 1,
             unrouted := if acting = [] then c.unrouted + 1 else c.unrouted }

/-- The transfer's channel once its record is formed, and the bus free. -/
def State.numbered (x : Transfer) (s : State) : State :=
  (s.onSh fun h => { h with bus := none }).onChannel x.channel fun c =>
    { c with consecutive := 0, faultCleared := false, seq := c.seq + 1 }

theorem State.formed_of_some {acting : List Rule} (some : acting ≠ []) (x : Transfer) (s : State) :
    s.formed x acting = s.numbered x := by
  simp only [State.formed, State.numbered, if_neg some]

theorem State.formed_of_none (x : Transfer) (s : State) :
    s.formed x [] = (s.numbered x).onChannel x.channel fun c => { c with unrouted := c.unrouted + 1 } := by
  simp [State.formed, State.numbered, State.onChannel, State.onSh, vmod, vset_vset]

theorem noResponse_iff (payload : List Byte) :
    noResponse payload = true ↔ (∀ b ∈ payload, b = 0) ∨ ∀ b ∈ payload, b = 0xFF := by
  simp [noResponse]

theorem exec_sensorTransferComplete {din : List Byte} {x : Transfer} {s : State} (bus : s.sh.bus = some x)
    (ended : x.left = 0) : exec (.sensorTransferComplete din) s = .next (drain (transferAndReport x din s)) := by
  refine congrArg Host.Outcome.next ?_
  rw [bus]
  exact if_pos ended

section
variable {rcd : SensorRec} {s : State}

theorem routeRecord_of_none (none : matching rcd (vlist s.sh.rules) = []) :
    routeRecord rcd s = (.none, s.onChannel rcd.channel fun c => { c with unrouted := c.unrouted + 1 }) :=
  if_pos (by rw [none]; rfl)

theorem routeRecord_of_some (some : matching rcd (vlist s.sh.rules) ≠ []) :
    let acting := matching rcd (vlist s.sh.rules)
    routeRecord rcd s = (presenceOf acting, ((s.ringed rcd acting).slotted rcd acting).uplinked rcd acting) :=
  if_neg (by simpa using some)

end

section
variable {x : Transfer} {din : List Byte} {s : State}

theorem transferAndReport_of_silent (silent : noResponse (padTo x.readLen din) = true) :
    let old := s.channel x.channel
    let missed := old.missed x.faultLimit
    transferAndReport x din s =
      ((s.onSh fun h => { h with bus := none }).onChannel x.channel fun _ => missed).when
        (missed.state == .fault && old.state != .fault) (raise .sensorFault) := by
  simp only [transferAndReport, transferDone, silent, if_true]
  rfl

theorem transferAndReport_of_record (answered : noResponse (padTo x.readLen din) = false) :
    let rcd := formRecord x (s.channel x.channel) (padTo x.readLen din)
    let acting := matching rcd (vlist s.sh.rules)
    transferAndReport x din s = presenceReport ((presenceOf acting).getD s.pwc.presence)
      ((((s.formed x acting).ringed rcd acting).slotted rcd acting).uplinked rcd acting) := by
  intro rcd acting
  have made : transferDone x din s = routeRecord rcd (s.numbered x) := if_neg (by simp [answered])
  rw [transferAndReport, made]
  by_cases none : acting = []
  · have unrouted : (s.formed x acting).ringed rcd acting = s.formed x acting := by simp [State.ringed, none, filter_never]
    have unslotted : (s.formed x acting).slotted rcd acting = s.formed x acting := by simp [State.slotted, none, filter_never]
    have unsent : (s.formed x acting).uplinked rcd acting = s.formed x acting := by simp [State.uplinked, none]
    rw [unrouted, unslotted, unsent, routeRecord_of_none (s := s.numbered x) none, none, State.formed_of_none,
      presenceReport_of_old (by rfl)]
    rfl
  · rw [routeRecord_of_some (s := s.numbered x) none, State.formed_of_some none]
    have same : matching rcd (vlist (s.numbered x).sh.rules) = acting := rfl
    rw [same]
    cases presenceOf acting with
    | some v => rfl
    | none =>
      refine (presenceReport_of_old ?_).symm
      obtain ⟨slots, slotted⟩ := State.slotted_eq (rcd := rcd) (acting := acting) (s := (s.numbered x).ringed rcd acting)
      rw [State.uplinked_keeps.2, slotted]
      exact congrArg Pwc.presence State.ringed_keeps.2.1

end

theorem State.channel_raise (k : EventKind) (s : State) (n : Fin 4) : (raise k s).channel n = s.channel n := by
  simp [State.channel]

theorem Channel.missed_eq (limit : Nat) (c : Channel) :
    let count : Byte := if c.consecutive = 255 then 255 else c.consecutive + 1
    let missed : Channel := { c with noResponse := c.noResponse + 1, consecutive := count }
    c.missed limit = if limit ≤ count.toNat ∧ c.state = .running then
      { missed with state := .fault, holder := none, timer := none } else missed := by
  simp only [Channel.missed, sat8_eq, Channel.quiet]

/-- What the offers to the rings and the fresh slots leave, and what stands in the slots. -/
theorem slotted_shows (x : Transfer) (rcd : SensorRec) (acting : List Rule) (s : State) :
    let a := s.formed x acting
    let b := a.ringed rcd acting
    let c := b.slotted rcd acting
    (c.sh.bus = none ∧ c.sh.hold = s.sh.hold ∧ c.sh.channels = a.sh.channels ∧ c.sh.rings = b.sh.rings) ∧
    (∀ n, vget c.sh.slots n =
      if acting.any (·.slot == some n) then ⟨some rcd, (vget s.sh.slots n).updates + 1⟩ else vget s.sh.slots n) ∧
    (c.tc = s.tc ∧ c.pwc = s.pwc ∧ c.nextId = s.nextId) ∧ b.Brings c := by
  intro a b c
  obtain ⟨slots, slotted⟩ := State.slotted_eq (rcd := rcd) (acting := acting) (s := b)
  have hub : b.sh = { a.sh with rings := b.sh.rings } := State.ringed_sh
  have slot (n : Fin 4) := State.slotted_slots (rcd := rcd) (acting := acting) (s := b) n
  rw [hub] at slot
  have left : c = b.onSh fun h => { h with slots } := slotted
  refine ⟨?_, slot, ?_, ?_⟩
  all_goals rw [left]
  · exact ⟨(congrArg (fun h : Sh => h.bus) hub :), (congrArg (fun h : Sh => h.hold) hub :),
      (congrArg (fun h : Sh => h.channels) hub :), rfl⟩
  · exact State.ringed_keeps (s := a)
  · exact .of_same rfl rfl

/-- Settles O45: without a response the channel's counts, else the record's ways one by one. -/
theorem transfersComplete : Obligations.TransfersComplete := by
  intro din x s bus ended payload silent old run
  refine ⟨?_, ?_⟩
  · intro quiet count missed faulted
    have made := transferAndReport_of_silent (x := x) (s := s) ((noResponse_iff payload).mpr quiet)
    refine ⟨_, exec_sensorTransferComplete bus ended, ?_⟩
    dsimp only at made
    rw [made]
    have after : (s.channel x.channel).missed x.faultLimit = if faulted then
        { missed with state := .fault, holder := none, timer := none } else missed := Channel.missed_eq ..
    by_cases fault : faulted
    · rw [if_pos fault] at after
      have running : (s.channel x.channel).state = .running := fault.2
      rw [after, State.when, if_pos (by simp [running])]
      exact ⟨by simp [State.onChannel, State.onSh], by simp [State.onChannel, State.onSh],
        by simp [State.onChannel, State.onSh], by simp [State.onChannel, State.onSh], fun sound => absurd fault sound,
        fun _ => ⟨(State.channel_raise ..).trans (State.channel_onChannel ..), raise_pendingEvent ..⟩⟩
    · rw [if_neg fault] at after
      rw [after, State.when, if_neg (by simp [missed, old])]
      exact ⟨rfl, rfl, rfl, rfl, fun _ => ⟨State.channel_onChannel .., rfl⟩, fun yes => absurd yes fault⟩
  · intro answered rcd acting sends seen
    obtain ⟨⟨freed, hold, channels, rings⟩, slot, ⟨tc, pwc, nextId⟩, slotBrings⟩ := slotted_shows x rcd acting s
    have made : transferAndReport x din s = presenceReport seen
        ((((s.formed x acting).ringed rcd acting).slotted rcd acting).uplinked rcd acting) :=
      transferAndReport_of_record (Bool.eq_false_iff.mpr (mt (noResponse_iff payload).mp answered))
    have offers (n : Fin 8) : s.sh.hold = false → acting.any (·.ring == some n) = true →
        (s.formed x acting).RingOffered rcd n (((s.formed x acting).ringed rcd acting).slotted rcd acting) :=
      fun free named => State.RingOffered.later (t := (s.formed x acting).ringed rcd acting)
        (State.ringed_offered free named) (congrArg (vget · n) rings) slotBrings
    have spared (n : Fin 8) : ¬ (s.sh.hold = false ∧ acting.any (·.ring == some n) = true) →
        vget (((s.formed x acting).ringed rcd acting).slotted rcd acting).sh.rings n = vget s.sh.rings n :=
      fun unnamed => (congrArg (vget · n) rings).trans (State.ringed_others unnamed)
    refine ⟨_, (exec_sensorTransferComplete bus ended).trans (congrArg (fun t => Host.Outcome.next (drain t)) made), ?_⟩
    clear made
    generalize ((s.formed x acting).ringed rcd acting).slotted rcd acting = c at *
    obtain ⟨upHub, upPwc⟩ := State.uplinked_keeps (rcd := rcd) (acting := acting) (s := c)
    obtain ⟨presence, kept, changed⟩ := presenceReport_shows seen (c.uplinked rcd acting)
    rw [upPwc, pwc] at kept changed
    have hub : (presenceReport seen (c.uplinked rcd acting)).sh = c.sh := by rw [← upHub]; simp
    have tether : (presenceReport seen (c.uplinked rcd acting)).tc = (c.uplinked rcd acting).tc := by simp
    have reported : (c.uplinked rcd acting).Brings (presenceReport seen (c.uplinked rcd acting)) :=
      presenceReport_brings ..
    have brings : c.Brings (presenceReport seen (c.uplinked rcd acting)) := .after reported State.uplinked_brings
    generalize presenceReport seen (c.uplinked rcd acting) = u at *
    refine ⟨by rw [hub, freed], ?_, fun n => ?_, fun held => ?_, fun n => ?_, fun alone => ?_, fun sent => ?_,
      presence, kept, changed⟩
    · rw [State.channel, hub, channels]
      exact State.channel_onChannel ..
    · rw [hub, slot]
    · refine vector_ext fun n => ?_
      rw [hub]
      exact spared n fun ⟨free, _⟩ => Bool.noConfusion (held.symm.trans free)
    · have whole (h : s.sh.hold = false ∧ acting.any (·.ring == some n) = true ∧ (vget s.sh.rings n).enabled = true) :
          (s.formed x acting).RingOffered rcd n u :=
        (offers n h.1 h.2.1).later (by rw [hub]) brings
      refine ⟨fun off => ?_, fun named full => (whole named).full named.2.2 full,
        fun named room => (whole named).room named.2.2 room⟩
      rw [hub]
      by_cases named : s.sh.hold = false ∧ acting.any (·.ring == some n) = true
      · exact (offers n named.1 named.2).off (Bool.eq_false_iff.mpr fun on => off ⟨named.1, named.2, on⟩)
      · exact spared n named
    · rw [tether, State.uplinked_of_not (by rwa [hold]), tc]
    · have sensor : c.uplinked rcd acting = uplinkSensor rcd c := State.uplinked_of_sends (by rwa [hold])
      obtain ⟨joined, begun⟩ := uplinkSensor_shows rcd c
      rw [tether, sensor]
      rw [tc] at joined begun
      refine ⟨joined, fun none => ?_⟩
      obtain ⟨unlinked, full, queued⟩ := uplinkJoin_shows (.sensor [rcd] true) c
      rw [begun none]
      rw [tc] at unlinked full queued
      rw [nextId] at queued
      refine ⟨unlinked, fun linked many => ?_, queued⟩
      obtain ⟨event, counted⟩ := full linked many
      refine ⟨counted, reported.events _ ?_⟩
      rwa [sensor, begun none]

end Sys2Proof.Machine
end

section
/-!
PROOFS. A completed service: what is handed to the agent, what the agents bring, and the captures of an uncorrectable word
(R160, R163 to R166).
-/
namespace Sys2Proof.Machine

/-! ### What the agents bring -/

theorem onSo_brings (f : So → So) (s : State) : s.Brings (s.onSo f) := .of_same rfl rfl

theorem onAu_brings (f : Au → Au) (s : State) : s.Brings (s.onAu f) := .of_same rfl rfl

theorem onTc_brings (f : Tc → Tc) (s : State) : s.Brings (s.onTc f) := .of_same rfl rfl

theorem onPu_brings (f : Pu → Pu) (s : State) : s.Brings (s.onPu f) := .of_same rfl rfl

theorem onHmp_brings (f : Hmp → Hmp) (s : State) : s.Brings (s.onHmp f) := .of_same rfl rfl

theorem onSh_brings (f : Sh → Sh) (s : State) : s.Brings (s.onSh f) := .of_same rfl rfl

theorem emit_brings (o : Output) (s : State) : s.Brings (s.emit o) := .of_same rfl rfl

theorem answerRead_brings (id : Nat) (line : List Byte) (s : State) : s.Brings (answerRead id line s) :=
  .of_same (by simp) (by simp)

theorem bandFinished_brings (j : BandJob) (s : State) : s.Brings (bandFinished j s) :=
  .ite (fun _ => .after (onSo_brings ..) (onSo_brings ..)) fun _ =>
    .after (emit_brings ..) (.after (onSo_brings ..) (onSo_brings ..))

theorem bandReadDone_brings (job line : Nat) (data : List Byte) (bad : Bool) (s : State) :
    s.Brings (bandReadDone job line data bad s) := by
  unfold bandReadDone
  split
  · exact .refl s
  · exact .ite (fun _ => .after (bandFinished_brings ..) (onSo_brings ..)) fun _ => onSo_brings ..

theorem settleRing_brings (ring : Fin 3) (s : State) : s.Brings (settleRing ring s) :=
  .after (onRing_brings ..) (onAu_brings ..)

theorem fetchDone_brings (period line : Nat) (data : List Byte) (bad : Bool) (s : State) :
    s.Brings (fetchDone period line data bad s) := by
  unfold fetchDone
  split
  · exact .refl s
  · exact .after (settleRing_brings ..)
      (.ite (fun _ => .after (onRing_brings ..) (onAu_brings ..)) fun _ => onAu_brings ..)

theorem captureDone_brings (block : Nat) (s : State) : s.Brings (captureDone block s) :=
  .after (onRing_brings ..) (onAu_brings ..)

theorem depositBands_brings (n : Fin 6) (row : Nat) (s : State) : s.Brings (depositBands n row s) := by
  unfold depositBands
  dsimp only
  split
  · exact .refl s
  · exact .ite (fun _ => .of_same rfl rfl) fun _ => .refl s

theorem advanceDeposit_brings (n : Fin 6) (ident row : Nat) (s : State) : s.Brings (advanceDeposit n ident row s) :=
  .ite (fun _ => .after (depositBands_brings ..) (onTc_brings ..)) fun _ => .refl s

theorem sliceWriteDone_brings (job : Nat) (s : State) : s.Brings (sliceWriteDone job s) :=
  .after (foldl_brings (fun s (j : SliceJob) => advanceDeposit_brings j.surface j.ident j.lastRow s) _ _) (onTc_brings ..)

theorem audioWriteDone_brings (job : Nat) (s : State) : s.Brings (audioWriteDone job s) := .of_same rfl rfl

theorem depositWriteDone_brings (job : Nat) (s : State) : s.Brings (depositWriteDone job s) :=
  .after (audioWriteDone_brings ..) (sliceWriteDone_brings job s)

theorem entryWriteDone_brings (index : U16) (gen : Nat) (s : State) : s.Brings (entryWriteDone index gen s) :=
  .ite (fun _ => .refl s) fun _ => .after (when_brings (raise_brings ..)) (onTc_brings ..)

theorem ringWriteDone_brings (n : Fin 8) (index : U16) (gen : Nat) (s : State) :
    s.Brings (ringWriteDone n index gen s) := .ite (fun _ => .refl s) fun _ => onSh_brings ..

/-! ### The end of plan initialization -/

theorem takeFrames_brings (ring : Fin 3) (n : Nat) (corr : Correction) (s : State) :
    s.Brings (takeFrames ring n corr s) := .after (requestReads_brings ..) (.of_same rfl rfl)

theorem underrun_brings (ring : Fin 3) (s : State) : s.Brings (underrun ring s) :=
  .after (raise_brings ..) (onRing_brings ..)

theorem choosePlaying_brings (ring : Fin 3) (s : State) : s.Brings (choosePlaying ring s) := by
  have drift (t : State) : t.Brings (if ring = 0 then driftStep t else t) :=
    .ite (fun _ => .of_same rfl rfl) fun _ => .refl t
  exact .ite (fun _ => .after (underrun_brings ..) (.after (onAu_brings ..) (onRing_brings ..))) fun _ =>
    .ite (fun _ => .after (underrun_brings ..) (.after (drift _) (takeFrames_brings ..))) fun _ =>
      .after (drift _) (.after (onAu_brings ..) (takeFrames_brings ..))

theorem chooseFrames_brings (ring : Fin 3) (s : State) : s.Brings (chooseFrames ring s) := by
  unfold chooseFrames
  dsimp only
  split
  · exact .refl s
  · exact .ite (fun _ => .after (choosePlaying_brings ..) (onRing_brings ..)) fun _ => .refl s
  · exact choosePlaying_brings ..

theorem audioMix_brings (s : State) : s.Brings (audioMix s) :=
  .after (settleRing_brings ..) (.after (settleRing_brings ..) (.of_same rfl rfl))

theorem audioBoundaryRest_brings (s : State) : s.Brings (audioBoundaryRest s) :=
  .after (chooseFrames_brings ..) (chooseFrames_brings ..)

theorem audioStart_brings (s : State) : s.Brings (audioStart s) := by
  unfold audioStart audioBoundary
  dsimp only
  exact .after (audioBoundaryRest_brings _) (.after (audioMix_brings _) (.of_same (by simp [State.onRing])
    (by simp [State.onRing])))

theorem startScan_brings (s : State) : s.Brings (startScan s) := by
  refine .ite (fun _ => .refl s) fun _ => ?_
  split
  · exact (frameBoundary_delivers false s).brings
  · exact onSo_brings ..

theorem activeAfterStart_brings (s : State) : s.Brings (activeAfterStart s) :=
  .after (audioStart_brings _) (.after (startScan_brings _) (.after (enterActive_brings _) (onPwc_brings ..)))

theorem pump_of_empty {s : State} (empty : s.hmp.atPins = []) : pump s = s := by
  rw [pump, empty]
  rfl

theorem endHold_of_empty {s : State} (held : s.hmp.held = none) (empty : s.hmp.atPins = []) :
    endHold s = s.onHmp fun h => { h with hold := .none, held := none, atPins := [] } := by
  simp only [endHold, State.onHmp, held, empty]
  exact pump_of_empty rfl

theorem planDone_brings {s : State} (held : s.hmp.held = none) (empty : s.hmp.atPins = []) : s.Brings (planDone s) := by
  have released : s.Brings (if s.hmp.hold = .standby then s else endHold s) := by
    refine .ite (fun _ => .refl s) fun _ => ?_
    rw [endHold_of_empty held empty]
    exact onHmp_brings ..
  exact .ite (fun _ => .after (activeAfterStart_brings _) released) fun _ => released

theorem imageWriteDone_brings {s : State} (held : s.hmp.held = none) (empty : s.hmp.atPins = []) :
    s.Brings (imageWriteDone s) :=
  .ite (fun _ => .after (planDone_brings held empty) (onPu_brings ..)) fun _ => onPu_brings ..

theorem agentDone_brings (r : Request) (v : Served) {s : State} (held : s.hmp.held = none) (empty : s.hmp.atPins = []) :
    s.Brings (agentDone r v s) := by
  unfold agentDone
  split
  · exact answerRead_brings ..
  · exact .refl s
  · exact imageWriteDone_brings held empty
  · exact bandReadDone_brings ..
  · exact fetchDone_brings ..
  · exact captureDone_brings ..
  · exact .after (resumeDownlink_brings _) (depositWriteDone_brings ..)
  · exact .after (resumeDownlink_brings _) (entryWriteDone_brings ..)
  · exact messageReadDone_brings ..
  · exact ringWriteDone_brings ..
  · exact .refl s

theorem startScan_unasked {s : State} (unasked : s.pwc.step ≠ .enterScan) : (startScan s).unasked = s.unasked := by
  unfold startScan
  split
  · rfl
  · split
    · exact (frameBoundary_delivers false s).unasked unasked
    · rfl

theorem enterActive_step (s : State) : (enterActive s).pwc.step = .none := by
  simp [enterActive, Pwc.onAwake]

theorem activeAfterStart_hmp (s : State) : (activeAfterStart s).hmp = s.hmp := by
  have scanned := startScan_unasked (s := enterActive (s.onPwc fun p => { p with hostReset := false }))
    (by rw [enterActive_step]; exact nofun)
  have port := congrArg (·.2.1) scanned
  rw [activeAfterStart, (audioStart_keeps _).2.2.2.1]
  exact port.trans (by simp)

/-- The port's hold has ended, unless the standby has it. -/
def State.portFreed (s : State) : State := if s.hmp.hold = .standby then s else endHold s

theorem planDone_eq (s : State) : planDone s =
    if s.portFreed.pwc.step = .startPlan then activeAfterStart s.portFreed else s.portFreed := rfl

theorem planDone_atPins {s : State} (held : s.hmp.held = none) (empty : s.hmp.atPins = []) :
    (planDone s).hmp.atPins = [] := by
  have released : s.portFreed.hmp.atPins = [] := by
    unfold State.portFreed
    split
    · exact empty
    · rw [endHold_of_empty held empty]
      rfl
  rw [planDone_eq]
  split
  · rw [activeAfterStart_hmp]
    exact released
  · exact released

theorem imageWriteDone_atPins {s : State} (held : s.hmp.held = none) (empty : s.hmp.atPins = []) :
    (imageWriteDone s).hmp.atPins = [] := by
  unfold imageWriteDone
  dsimp only
  split
  · exact planDone_atPins held empty
  · exact empty

theorem State.Event.atPins {s t : State} (h : s.Event t) : t.hmp.atPins = s.hmp.atPins := by
  have lasting := h.lasting
  simp only [State.lasting, Prod.mk.injEq] at lasting
  obtain ⟨-, -, -, ⟨-, -, atPins⟩, -⟩ := lasting
  exact atPins

theorem agentDone_atPins {r : Request} (other : r.agent ≠ .planInit) (v : Served) (s : State) :
    (agentDone r v s).hmp.atPins = s.hmp.atPins := by
  unfold agentDone
  split
  next => rfl
  next => rfl
  next h => exact absurd h other
  next => exact (bandReadDone_event ..).atPins
  next => exact (fetchDone_event ..).atPins
  next => exact (captureDone_event ..).atPins
  next => exact (State.Event.after (resumeDownlink_event _) (depositWriteDone_event ..)).atPins
  next => exact (State.Event.after (resumeDownlink_event _) (entryWriteDone_event ..)).atPins
  next => exact (messageReadDone_event ..).atPins
  next => exact (ringWriteDone_event ..).atPins
  next => rfl

/-! ### What the agent is handed (R160, R164) -/

/-- What the DRAM gives the agent of a request (R164). -/
def State.served (r : Request) (ecc : EccReport) (s : State) : Served := (access r (reportErrors r ecc s)).1

/-- The part as the agent of a served request finds it: the error of the service is captured, and the DRAM is free. -/
def State.returned (r : Request) (ecc : EccReport) (s : State) : State :=
  let t := (access r (reportErrors r ecc s)).2
  (if (s.served r ecc).bad then memoryError r.op.captureKind r.line r.agent.cls t else t).onDa fun d =>
    { d with service := none }

theorem finishService_eq (r : Request) (ecc : EccReport) (s : State) : finishService r ecc s =
    drain (pump ((agentDone r (s.served r ecc) (s.returned r ecc)).onDa Da.kick)) := rfl

/-- A completion row runs to the agent's state after the DRAM's next choice where no transaction waits at the pins. -/
theorem runsTo_completion {c : Instr} {r : Request} {s : State} {P : State → Prop} (service : s.da.service = some r)
    (mine : completes s c r.agent = true) (line : r.line < lineLimit)
    (empty : (agentDone r (s.served r (reportOf c)) (s.returned r (reportOf c))).hmp.atPins = [])
    (holds : P ((agentDone r (s.served r (reportOf c)) (s.returned r (reportOf c))).onDa Da.kick)) : runsTo c s P := by
  refine ⟨_, (servicesComplete c r s service mine line).trans ?_, holds⟩
  rw [finishService_eq, pump_of_empty (by exact empty)]

/-- Outside the memory, the DRAM and the events the agent finds the part as it was. -/
theorem State.returned_keeps (r : Request) (ecc : EccReport) (s : State) :
    let t := s.returned r ecc
    t = { s with mem := t.mem, da := t.da, eu := t.eu } := by
  have reported : reportErrors r ecc s = { s with da := (reportErrors r ecc s).da } := by
    unfold reportErrors
    split <;> rfl
  have accessed := access_eq r (reportErrors r ecc s)
  rw [reported] at accessed
  unfold State.returned
  dsimp only
  rw [reported, accessed]
  split <;> rfl

theorem State.returned_hmp (r : Request) (ecc : EccReport) (s : State) : (s.returned r ecc).hmp = s.hmp :=
  (congrArg (fun t : State => t.hmp) (s.returned_keeps r ecc) :)

theorem reportErrors_flaws {r : Request} (some : r.op ≠ .write []) (ecc : EccReport) (s : State) :
    (reportErrors r ecc s).da.flaws = addReport s.da.flaws r.line ecc := by
  rw [reportErrors, if_neg some]
  rfl

theorem reportErrors_captures (r : Request) (ecc : EccReport) (s : State) :
    (reportErrors r ecc s).da.captures = s.da.captures ∧ (reportErrors r ecc s).da.captureTotal = s.da.captureTotal ∧
    (reportErrors r ecc s).tb = s.tb := by
  unfold reportErrors
  split <;> exact ⟨rfl, rfl, rfl⟩

theorem Da.queueScrub_captures (line : Nat) (d : Da) :
    (d.queueScrub line).captures = d.captures ∧ (d.queueScrub line).captureTotal = d.captureTotal := by
  unfold Da.queueScrub
  repeat' split
  all_goals exact ⟨rfl, rfl⟩

theorem access_captures (r : Request) (s : State) :
    (access r s).2.da.captures = s.da.captures ∧ (access r s).2.da.captureTotal = s.da.captureTotal := by
  unfold access
  split
  · refine ⟨?_, ?_⟩
    all_goals
      simp only [serveRead, State.onDa]
      split
    · rfl
    · exact (Da.queueScrub_captures ..).1
    · rfl
    · exact (Da.queueScrub_captures ..).2
  · exact ⟨rfl, rfl⟩
  · exact ⟨rfl, rfl⟩
  · exact ⟨rfl, rfl⟩

/-- Which services find an uncorrectable word: a merge judges the words that it does not replace whole (R163). -/
theorem access_bad_iff (r : Request) (s : State) : (access r s).1.bad = true ↔
    ∃ f ∈ lineFlaws s.da.flaws r.line, singleFlaw f.2 = false ∧
      match r.op with
      | .write bytes => bytes ≠ [] ∧ judged bytes (f.1 % 8) = true
      | _ => True := by
  obtain ⟨agent, line, op⟩ := r
  cases op with
  | read => simp [access, serveRead]
  | scrub => simp [access, serveScrub]
  | write bytes =>
    cases bytes with
    | nil => simp [access]
    | cons b rest => simp [access, serveWrite, and_comm]

theorem served_bad_iff (r : Request) (ecc : EccReport) (s : State) : (s.served r ecc).bad = true ↔
    ∃ f ∈ lineFlaws (addReport s.da.flaws r.line ecc) r.line, singleFlaw f.2 = false ∧
      match r.op with
      | .write bytes => bytes ≠ [] ∧ judged bytes (f.1 % 8) = true
      | _ => True := by
  rw [State.served, access_bad_iff]
  by_cases some : r.op = .write []
  · simp [some]
  · rw [reportErrors_flaws some]

/-- One error is captured and raised where the service found an uncorrectable word, and none elsewhere. -/
theorem State.returned_captures (r : Request) (ecc : EccReport) (s : State) :
    let t := s.returned r ecc
    ((s.served r ecc).bad = true → t.da.captureTotal = s.da.captureTotal + 1 ∧ t.pendingEvent .memoryError = true ∧
      t.da.captures.getLast? = some ⟨r.op.captureKind, BitVec.ofNat 32 (64 * r.line), r.agent.cls, s.tb.now⟩) ∧
    ((s.served r ecc).bad = false → t.da.captureTotal = s.da.captureTotal ∧ t.da.captures = s.da.captures) := by
  obtain ⟨captures, total, tb⟩ := reportErrors_captures r ecc s
  obtain ⟨kept, count⟩ := access_captures r (reportErrors r ecc s)
  have time : (access r (reportErrors r ecc s)).2.tb = s.tb :=
    (congrArg (fun t : State => t.tb) (access_eq r (reportErrors r ecc s)) :).trans tb
  unfold State.returned
  dsimp only
  refine ⟨fun bad => ?_, fun good => ?_⟩
  · rw [if_pos bad]
    obtain ⟨-, last, more, event⟩ := memoryError_effect r.op.captureKind r.line r.agent.cls (access r (reportErrors r ecc s)).2
    rw [time] at last
    rw [count, total] at more
    exact ⟨more, event, last⟩
  · rw [if_neg (by simp [good])]
    exact ⟨count.trans total, kept.trans captures⟩

theorem agentDone_empty (r : Request) (v : Served) {s : State} (held : s.hmp.held = none) (empty : s.hmp.atPins = []) :
    (agentDone r v s).hmp.atPins = [] := by
  by_cases init : r.agent = .planInit
  · rw [agentDone, init]
    exact imageWriteDone_atPins held empty
  · rw [agentDone_atPins init, empty]

/-- Settles O26: the capture is the service's own, and neither its agent nor the deliveries capture or take an event. -/
theorem uncorrectableWordsAreCaptured : Obligations.UncorrectableWordsAreCaptured := by
  intro c r s service mine line held empty bad
  have found := served_bad_iff r (reportOf c) s
  obtain ⟨captured, spared⟩ := s.returned_captures r (reportOf c)
  have port := s.returned_hmp r (reportOf c)
  rw [← port] at held empty
  have brings : (s.returned r (reportOf c)).Brings (finishService r (reportOf c) s) := by
    rw [finishService_eq, pump_of_empty (by exact agentDone_empty r _ held empty)]
    exact .after (drain_brings _) (.after (kick_brings _) (agentDone_brings r _ held empty))
  refine ⟨_, servicesComplete c r s service mine line, fun yes => ?_, fun no => ?_⟩
  · obtain ⟨total, event, last⟩ := captured (found.mpr yes)
    exact ⟨brings.total.trans total, brings.events _ event, by rw [brings.captures, last]⟩
  · obtain ⟨total, captures⟩ := spared (Bool.eq_false_iff.mpr (mt found.mp no))
    exact ⟨brings.total.trans total, brings.captures.trans captures⟩

end Sys2Proof.Machine
end

section
/-!
PROOFS. What the completions of writes and scrubs bring their agents (R19, R64, R85, R105, R115, R135, R165, R175).
-/
namespace Sys2Proof.Machine

/-- A completion row of any agent but plan initialization. -/
theorem runsTo_agent {c : Instr} {r : Request} {s : State} {P : State → Prop} (service : s.da.service = some r)
    (mine : completes s c r.agent = true) (line : r.line < lineLimit) (empty : s.hmp.atPins = [])
    (other : r.agent ≠ .planInit)
    (holds : P ((agentDone r (s.served r (reportOf c)) (s.returned r (reportOf c))).onDa Da.kick)) : runsTo c s P :=
  runsTo_completion service mine line (by rw [agentDone_atPins other, State.returned_hmp, empty]) holds

section
variable (r : Request) (ecc : EccReport) (s : State)

theorem State.returned_sh : (s.returned r ecc).sh = s.sh := (congrArg (fun t : State => t.sh) (s.returned_keeps r ecc) :)

theorem State.returned_tc : (s.returned r ecc).tc = s.tc := (congrArg (fun t : State => t.tc) (s.returned_keeps r ecc) :)

theorem State.returned_au : (s.returned r ecc).au = s.au := (congrArg (fun t : State => t.au) (s.returned_keeps r ecc) :)

theorem State.returned_st : (s.returned r ecc).st = s.st := (congrArg (fun t : State => t.st) (s.returned_keeps r ecc) :)

theorem State.returned_so : (s.returned r ecc).so = s.so := (congrArg (fun t : State => t.so) (s.returned_keeps r ecc) :)

theorem State.returned_pu : (s.returned r ecc).pu = s.pu := (congrArg (fun t : State => t.pu) (s.returned_keeps r ecc) :)

theorem State.returned_pwc : (s.returned r ecc).pwc = s.pwc :=
  (congrArg (fun t : State => t.pwc) (s.returned_keeps r ecc) :)

theorem State.returned_out : (s.returned r ecc).out = s.out :=
  (congrArg (fun t : State => t.out) (s.returned_keeps r ecc) :)

theorem State.returned_generation : (s.returned r ecc).generation = s.generation :=
  (congrArg (fun t : State => t.generation) (s.returned_keeps r ecc) :)

end

/-! ### Sensor rings (R64) -/

section
variable {n : Fin 8} {index : U16} {gen : Nat} {s : State}

theorem ringWriteDone_of_old (old : gen ≠ s.generation) : ringWriteDone n index gen s = s := if_pos old

theorem ringWriteDone_rings (now : gen = s.generation) {k : Nat}
    (run : ∀ i, i < k → (vget s.sh.rings n).produce + BitVec.ofNat 16 i ∈ (vget s.sh.rings n).done ++ [index])
    (stop : (vget s.sh.rings n).produce + BitVec.ofNat 16 k ∉ (vget s.sh.rings n).done ++ [index]) :
    let old := vget s.sh.rings n
    let u := ringWriteDone n index gen s
    vget u.sh.rings n = { old with
      produce := old.produce + BitVec.ofNat 16 k
      done := (List.range k).foldl (fun l i => l.erase (old.produce + BitVec.ofNat 16 i)) (old.done ++ [index]) } ∧
    ∀ m, m ≠ n → vget u.sh.rings m = vget s.sh.rings m := by
  have made : ringWriteDone n index gen s = s.onSensorRing n fun r =>
      SensorRing.advance (r.done.length + 1) { r with done := r.done ++ [index] } := if_neg (Classical.not_not.mpr now)
  rw [made]
  refine ⟨(vget_vmod_same ..).trans ?_, fun m other => vget_vmod_ne _ _ other.symm⟩
  exact SensorRing.advance_run (r := { vget s.sh.rings n with done := (vget s.sh.rings n).done ++ [index] })
    (by simp) run stop

end

/-! ### The message ring (R85) -/

theorem resumeDownlink_of_running {s : State} (running : s.tc.paused = none) : resumeDownlink s = s := by
  rw [resumeDownlink, running]

theorem entryWriteDone_of_old {index : U16} {gen : Nat} {s : State} (old : gen ≠ s.generation) :
    entryWriteDone index gen s = s := if_pos old

/-- What an entry's write brings: the leading complete entries are handed over. -/
theorem entryWriteDone_shows {index : U16} {gen : Nat} {s : State} (now : gen = s.generation)
    {pre post gone kept : List EntryJob} {left : Nat} (jobs : s.tc.ring.jobs = pre ++ ⟨index, left + 1⟩ :: post)
    (before : ∀ j ∈ pre, j.index ≠ index)
    (counts : countsOff EntryJob.left (pre ++ ⟨index, left⟩ :: post) gone kept) :
    let old := s.tc.ring
    let u := entryWriteDone index gen s
    u.tc = { s.tc with ring := { old with jobs := kept, produce := old.produce + BitVec.ofNat 16 gone.length } } ∧
    (gone ≠ [] → u.pendingEvent .messageIn = true) ∧ (gone = [] → u.eu = s.eu) := by
  have updated : updateFirst (·.index == index) (fun j => { j with left := j.left - 1 }) s.tc.ring.jobs =
      pre ++ ⟨index, left⟩ :: post := by
    rw [jobs]
    exact updateFirst_append _ _ (fun j mem => by simpa using before j mem) (by simp)
  rw [entryWriteDone, if_neg (Classical.not_not.mpr now), updated]
  dsimp only
  rw [releaseEntries_eq counts]
  cases gone with
  | nil => exact ⟨rfl, fun some => absurd rfl some, fun _ => rfl⟩
  | cons j rest => exact ⟨rfl, fun _ => raise_pendingEvent .., nofun⟩

/-! ### Deposits (R19, R105) -/

/-- What a slice's write brings: the slices that stand complete move their surfaces' frontiers in turn. -/
theorem sliceWriteDone_shows {job : Nat} {s : State} {pre post : List SliceJob} {ident lastRow left : Nat} {n : Fin 6}
    (jobs : s.tc.slices = pre ++ ⟨job, ident, n, lastRow, left + 1⟩ :: post) (before : ∀ j ∈ pre, j.id ≠ job)
    (m : Fin 6) :
    let slices := (pre ++ ⟨job, ident, n, lastRow, left⟩ :: post).zipIdx
    let u := sliceWriteDone job s
    let old := vget s.tc.frontiers m
    let moves := ((slices.filter (standing slices)).map (·.1)).filter (SliceJob.moves s.tc m)
    u.st = { s.st with surfaces := u.st.surfaces } ∧
    u.tc.slices = (slices.filter fun p => !standing slices p).map (·.1) ∧
    vget u.tc.frontiers m = { old with deposit := (moves.getLast?.map SliceJob.lastRow).or old.deposit } ∧
    u.st.surface m = moves.foldl (fun f j => f.deposited j.lastRow) (s.st.surface m) := by
  intro slices u old moves
  have updated : updateFirst (·.id == job) (fun j => { j with left := j.left - 1 }) s.tc.slices =
      pre ++ ⟨job, ident, n, lastRow, left⟩ :: post := by
    rw [jobs]
    exact updateFirst_append _ _ (fun j mem => by simpa using before j mem) (by simp)
  have made : u = ((slices.filter (standing slices)).map (·.1)).foldl
      (fun s j => advanceDeposit j.surface j.ident j.lastRow s)
      (s.onTc fun t => { t with slices := (slices.filter fun p => !standing slices p).map (·.1) }) := by
    simp only [u, sliceWriteDone, updated, releaseSlices_eq]
    rfl
  obtain ⟨surfaces, tether, frontier, surface⟩ := advanceDeposits_at ((slices.filter (standing slices)).map (·.1))
    (s.onTc fun t => { t with slices := (slices.filter fun p => !standing slices p).map (·.1) }) m
  rw [made]
  exact ⟨surfaces, (congrArg (fun t : Tc => t.slices) tether :), frontier, surface⟩

/-- A slice's write leaves the AUDIO payloads and the audio unit. -/
theorem sliceWriteDone_audio (job : Nat) (s : State) :
    (sliceWriteDone job s).tc.audioJobs = s.tc.audioJobs ∧ (sliceWriteDone job s).au = s.au ∧
    (sliceWriteDone job s).tc.paused = s.tc.paused := by
  have tether := (advanceDeposits_at (releaseSlices []
    (updateFirst (·.id == job) (fun j => { j with left := j.left - 1 }) s.tc.slices)).1
    (s.onTc fun t => { t with slices := (releaseSlices []
      (updateFirst (·.id == job) (fun j => { j with left := j.left - 1 }) s.tc.slices)).2 }) 0).2.1
  exact ⟨(congrArg (fun t : Tc => t.audioJobs) tether :),
    (foldl_keeps State.au _ (fun _ (j : SliceJob) => by simp) _ _),
    (congrArg (fun t : Tc => t.paused) tether :)⟩

theorem audioWriteDone_slices (job : Nat) (s : State) :
    (audioWriteDone job s).st = s.st ∧ (audioWriteDone job s).tc.slices = s.tc.slices ∧
    (audioWriteDone job s).tc.frontiers = s.tc.frontiers := ⟨rfl, rfl, rfl⟩

/-- What a deposit write brings the slices, the frontiers and the surfaces. -/
theorem depositWriteDone_slices {job : Nat} {s : State} {pre post : List SliceJob} {ident lastRow left : Nat} {n : Fin 6}
    (jobs : s.tc.slices = pre ++ ⟨job, ident, n, lastRow, left + 1⟩ :: post) (before : ∀ j ∈ pre, j.id ≠ job) :
    let slices := (pre ++ ⟨job, ident, n, lastRow, left⟩ :: post).zipIdx
    let u := depositWriteDone job s
    u.tc.slices = (slices.filter fun p => !standing slices p).map (·.1) ∧
    u.st = { s.st with surfaces := u.st.surfaces } ∧
    ∀ m : Fin 6,
      let old := vget s.tc.frontiers m
      let f := s.st.surface m
      let moves := ((slices.filter (standing slices)).map (·.1)).filter (SliceJob.moves s.tc m)
      vget u.tc.frontiers m = { old with deposit := (moves.getLast?.map SliceJob.lastRow).or old.deposit } ∧
      (moves = [] ∨ f.state = .free ∨ f.ownedBy .tether = false → u.st.surface m = f) ∧
      (∀ c, f.config = some c → c.owner = .tether → f.state ≠ .free →
        let reached (i : Nat) : Prop := ∃ j ∈ moves, i < c.depositCount j.lastRow
        u.st.surface m = { f with bands := (u.st.surface m).bands } ∧
        (u.st.surface m).bands.length = f.bands.length ∧
        ∀ i b, f.bands[i]? = some b → ∃ b', (u.st.surface m).bands[i]? = some b' ∧
          (b'.complete = true ↔ b.complete = true ∨ reached i) ∧
          (b'.late = true ↔ b.late = true ∨ (b.complete = false ∧ b.scanned = true ∧ reached i))) := by
  intro slices u
  obtain ⟨surfaces, left, frontiers⟩ := audioWriteDone_slices job (sliceWriteDone job s)
  change u.st = _ at surfaces
  change u.tc.slices = _ at left
  change u.tc.frontiers = _ at frontiers
  have shows := sliceWriteDone_shows jobs before
  rw [surfaces, left, frontiers]
  refine ⟨(shows 0).2.1, (shows 0).1, fun m => ?_⟩
  obtain ⟨-, -, frontier, surface⟩ := shows m
  rw [surface]
  refine ⟨frontier, fun still => ?_, fun c config owner used => Surface.deposited_bands _ _ config owner used⟩
  rcases still with none | ignores
  · rw [none]
    rfl
  · exact Surface.deposited_stays ignores _

theorem audioWriteDone_shows {job : Nat} {s : State} {pre post gone kept : List AudioJob} {frames left : Nat}
    (jobs : s.tc.audioJobs = pre ++ ⟨job, frames, left + 1⟩ :: post) (before : ∀ j ∈ pre, j.id ≠ job)
    (counts : countsOff AudioJob.left (pre ++ ⟨job, frames, left⟩ :: post) gone kept) :
    let u := audioWriteDone job s
    u.tc.audioJobs = kept ∧ vget u.au.rings 0 = { vget s.au.rings 0 with
      produce := (vget s.au.rings 0).produce + BitVec.ofNat 32 (gone.map AudioJob.frames).sum } := by
  have updated : updateFirst (·.id == job) (fun j => { j with left := j.left - 1 }) s.tc.audioJobs =
      pre ++ ⟨job, frames, left⟩ :: post := by
    rw [jobs]
    exact updateFirst_append _ _ (fun j mem => by simpa using before j mem) (by simp)
  simp only [audioWriteDone, updated, releaseAudio_eq counts]
  exact ⟨rfl, vget_vmod_same ..⟩

/-! ### Capture blocks (R115) -/

theorem captureDone_shows {block : Nat} {s : State} {pre post gone kept : List CaptureBlock} {left : Nat}
    (blocks : s.au.blocks = pre ++ ⟨block, left + 1⟩ :: post) (before : ∀ b ∈ pre, b.id ≠ block)
    (counts : countsOff CaptureBlock.left (pre ++ ⟨block, left⟩ :: post) gone kept) :
    let u := captureDone block s
    u.au.blocks = kept ∧ vget u.au.rings 2 = { vget s.au.rings 2 with
      produce := (vget s.au.rings 2).produce + BitVec.ofNat 32 (16 * gone.length) } := by
  have updated : updateFirst (·.id == block) (fun b => { b with left := b.left - 1 }) s.au.blocks =
      pre ++ ⟨block, left⟩ :: post := by
    rw [blocks]
    exact updateFirst_append _ _ (fun b mem => by simpa using before b mem) (by simp)
  simp only [captureDone, updated, releaseBlocks_eq counts]
  exact ⟨rfl, vget_vmod_same ..⟩

/-! ### Scrubs (R165) -/

theorem returned_scrubs {r : Request} (scrub : r.op = .scrub) (ecc : EccReport) (s : State) :
    (s.returned r ecc).da.scrubs = s.da.scrubs.filter (· != r.line) := by
  have kept : (access r (reportErrors r ecc s)).2.da.scrubs = s.da.scrubs.filter (· != r.line) := by
    simp [access, scrub, serveScrub, reportErrors]
  unfold State.returned
  dsimp only
  split
  · exact kept
  · exact kept

/-! ### The end of plan initialization (R135, R175) -/

theorem takeFrames_running (ring : Fin 3) (n : Nat) (corr : Correction) (s : State) :
    (takeFrames ring n corr s).au.running = s.au.running := by
  simp [takeFrames, State.onRing, State.onAu]

theorem underrun_running (ring : Fin 3) (s : State) : (underrun ring s).au.running = s.au.running := by
  simp [underrun, State.onRing, State.onAu]

theorem running_ite {c : Prop} [Decidable c] {s t u : State} (h : t.au.running = s.au.running)
    (k : u.au.running = s.au.running) : (if c then t else u).au.running = s.au.running := by
  split
  · exact h
  · exact k

theorem choosePlaying_running (ring : Fin 3) (s : State) : (choosePlaying ring s).au.running = s.au.running := by
  have drift (t : State) : (if ring = 0 then driftStep t else t).au.running = t.au.running := by
    split <;> rfl
  have dropped (a : Au) : (a.dropDrift ring).running = a.running := by
    unfold Au.dropDrift
    split <;> rfl
  have counted (c : Correction) (a : Au) : (a.countCorrection c).running = a.running := by cases c <;> rfl
  refine running_ite ?_ (running_ite ?_ ?_)
  · exact (underrun_running ..).trans (dropped _)
  · exact (underrun_running ..).trans ((drift _).trans (takeFrames_running ..))
  · exact (drift _).trans ((counted ..).trans (takeFrames_running ..))

theorem chooseFrames_running (ring : Fin 3) (s : State) : (chooseFrames ring s).au.running = s.au.running := by
  unfold chooseFrames
  dsimp only
  split
  · rfl
  · split
    · exact choosePlaying_running ..
    · rfl
  · exact choosePlaying_running ..

theorem audioStart_running (s : State) : (audioStart s).au.running = true :=
  (chooseFrames_running ..).trans (chooseFrames_running ..)

theorem activeAfterStart_shows (s : State) :
    let u := activeAfterStart s
    u.hmp = s.hmp ∧ u.pwc.state = .active ∧ u.pwc.hostReset = false ∧ u.au.running = true ∧
    u.pendingEvent .powerChange = true := by
  intro u
  let host := s.onPwc fun p => { p with hostReset := false }
  have scanned := startScan_unasked (s := enterActive host) (by rw [enterActive_step]; exact nofun)
  have pwc : (startScan (enterActive host)).pwc = (enterActive host).pwc := congrArg (·.1) scanned
  have power : u.pwc = (enterActive host).pwc := (by simp [u, activeAfterStart, host] : _ = _).trans pwc
  refine ⟨activeAfterStart_hmp s, ?_, ?_, audioStart_running _, ?_⟩
  · rw [power]
    exact (enterActive_shows host).1
  · rw [power]
    simp [enterActive, Pwc.onAwake, setPower_pwc, host]
  · exact (State.Brings.after (audioStart_brings _) (startScan_brings _)).events _ (enterActive_shows host).2.2

theorem imageWriteDone_of_many {s : State} (many : 2 ≤ s.pu.initLeft) :
    imageWriteDone s = s.onPu fun p => { p with initLeft := p.initLeft - 1 } := if_neg (by
  change s.pu.initLeft - 1 ≠ 0
  omega)

/-- The part with the last image write counted and the port free. -/
def State.initialized (s : State) : State :=
  (s.onPu fun p => { p with initLeft := p.initLeft - 1 }).onHmp fun h =>
    { h with hold := .none, held := none, atPins := [] }

theorem imageWriteDone_of_last {s : State} (last : s.pu.initLeft ≤ 1) (hold : s.hmp.hold ≠ .standby)
    (held : s.hmp.held = none) (empty : s.hmp.atPins = []) : imageWriteDone s =
    if s.pwc.step = .startPlan then activeAfterStart s.initialized else s.initialized := by
  have ended : imageWriteDone s = planDone (s.onPu fun p => { p with initLeft := p.initLeft - 1 }) := if_pos (by
    change s.pu.initLeft - 1 = 0
    omega)
  have freed : (s.onPu fun p => { p with initLeft := p.initLeft - 1 }).portFreed = s.initialized :=
    (if_neg hold).trans (endHold_of_empty held empty)
  rw [ended, planDone_eq, freed]
  rfl

theorem returned_pendingEvent {k : EventKind} (other : k ≠ .memoryError) (r : Request) (ecc : EccReport) (s : State) :
    (s.returned r ecc).pendingEvent k = s.pendingEvent k := by
  have accessed := access_eq r (reportErrors r ecc s)
  have kept : (access r (reportErrors r ecc s)).2.eu = s.eu := by
    rw [accessed]
    simp only [reportErrors]
    split <;> rfl
  unfold State.returned
  dsimp only
  split
  · rw [State.pendingEvent]
    change (raise .memoryError _).eu.pendingSet.getLsbD _ = _
    rw [raise_pending, decide_eq_false other, Bool.false_or]
    exact congrArg (fun e : Eu => e.pendingSet.getLsbD k.num.val) kept
  · exact congrArg (fun e : Eu => e.pendingSet.getLsbD k.num.val) kept

/-- Settles O24, agent by agent. -/
theorem writesComplete : Obligations.WritesComplete := by
  intro c r s service mine line empty running
  have agent {P : State → Prop} {a : Agent} (is : r.agent = a) (other : a ≠ .planInit)
      (holds : P ((agentDone r (s.served r (reportOf c)) (s.returned r (reportOf c))).onDa Da.kick)) : runsTo c s P :=
    runsTo_agent service mine line empty (is ▸ other) holds
  have hub := s.returned_sh r (reportOf c)
  have tether := s.returned_tc r (reportOf c)
  have audio := s.returned_au r (reportOf c)
  have surfaces := s.returned_st r (reportOf c)
  have generation := s.returned_generation r (reportOf c)
  refine ⟨?_, ?_, ?_, ?_, ?_, ?_⟩
  · intro q idx gen is old landed nth
    refine ⟨fun stale => agent is nofun ?_, fun k now run stop => agent is nofun ?_⟩
    · simp only [agentDone, is]
      rw [ringWriteDone_of_old (by rwa [generation])]
      exact hub
    · simp only [agentDone, is]
      have shows := ringWriteDone_rings (n := q) (index := idx) (gen := gen) (s := s.returned r (reportOf c))
        (k := k) (by rwa [generation]) (by rwa [hub]) (by rwa [hub])
      rw [hub] at shows
      exact shows
  · intro idx gen room is old
    refine ⟨fun stale => agent is nofun ?_, fun pre left post gone kept now jobs before counts => agent is nofun ?_⟩
    · simp only [agentDone, is]
      rw [entryWriteDone_of_old (by rwa [generation]), resumeDownlink_of_running (by rwa [tether])]
      exact tether
    · simp only [agentDone, is]
      obtain ⟨made, some, none⟩ := entryWriteDone_shows (index := idx) (gen := gen) (s := s.returned r (reportOf c))
        (by rwa [generation]) (by rwa [tether]) before counts
      rw [tether] at made
      rw [resumeDownlink_of_running (by rw [made]; exact running)]
      refine ⟨made, some, fun kept => ?_⟩
      have events := returned_pendingEvent (k := .messageIn) nofun r (reportOf c) s
      exact (congrArg (fun e : Eu => e.pendingSet.getLsbD EventKind.messageIn.num.val) (none kept)).trans events
  · intro job room is
    have freed : resumeDownlink (depositWriteDone job (s.returned r (reportOf c))) =
        depositWriteDone job (s.returned r (reportOf c)) :=
      resumeDownlink_of_running ((sliceWriteDone_audio ..).2.2.trans (by rw [tether, running]))
    refine ⟨?_, fun pre frames left post gone kept jobs before counts => agent is nofun ?_⟩
    · intro pre ident n lastRow left post jobs before slices stands
      refine agent is nofun ?_
      simp only [agentDone, is]
      rw [freed]
      have shows := depositWriteDone_slices (job := job) (s := s.returned r (reportOf c)) (by rwa [tether]) before
      rw [surfaces, tether] at shows
      generalize depositWriteDone job (s.returned r (reportOf c)) = u at shows
      exact shows
    · simp only [agentDone, is]
      rw [freed]
      obtain ⟨payloads, rings, -⟩ := sliceWriteDone_audio job (s.returned r (reportOf c))
      have shows := audioWriteDone_shows (job := job) (s := sliceWriteDone job (s.returned r (reportOf c)))
        (by rwa [payloads, tether]) before counts
      rw [rings, audio] at shows
      exact shows
  · intro block pre left post gone kept is blocks before counts
    refine agent is nofun ?_
    simp only [agentDone, is]
    have shows := captureDone_shows (block := block) (s := s.returned r (reportOf c)) (by rwa [audio]) before counts
    rw [audio] at shows
    exact shows
  · intro is scrub
    refine agent is nofun ?_
    simp only [agentDone, is]
    exact (Da.kick_errors _).2.2.1.trans (returned_scrubs scrub ..)
  · intro is held
    have port := s.returned_hmp r (reportOf c)
    have plan := s.returned_pu r (reportOf c)
    have power := s.returned_pwc r (reportOf c)
    have done {P : State → Prop} (holds : P ((imageWriteDone (s.returned r (reportOf c))).onDa Da.kick)) :
        runsTo c s P := by
      refine runsTo_completion service mine line (agentDone_empty _ _ (by rw [port, held]) (by rw [port, empty])) ?_
      simp only [agentDone, is]
      exact holds
    refine ⟨fun many => done ?_, fun last hold => done ?_⟩
    · rw [imageWriteDone_of_many (by rw [plan]; exact many)]
      exact ⟨congrArg (fun p : Pu => p.initLeft - 1) plan, port⟩
    · rw [imageWriteDone_of_last (by rw [plan]; exact last) (by rw [port]; exact hold) (by rw [port, held])
        (by rw [port, empty]), power]
      by_cases starting : s.pwc.step = .startPlan
      · rw [if_pos starting]
        obtain ⟨hmp, state, host, plays, event⟩ := activeAfterStart_shows (s.returned r (reportOf c)).initialized
        have hold : (activeAfterStart (s.returned r (reportOf c)).initialized).hmp.hold = .none := by rw [hmp]; rfl
        generalize activeAfterStart (s.returned r (reportOf c)).initialized = u at *
        exact ⟨hold, fun _ => ⟨state, host, plays, event⟩,
          fun other => absurd starting other⟩
      · rw [if_neg starting]
        exact ⟨rfl, fun yes => absurd yes starting, fun _ => power⟩

end Sys2Proof.Machine
end

section
/-!
PROOFS. What the completions of reads bring their agents (R39, R40, R93, R98, R109, R152, R164).
-/
namespace Sys2Proof.Machine

/-! ### What a read gives -/

theorem served_of_read {r : Request} (read : r.op = .read) (ecc : EccReport) (s : State) :
    let flaws := addReport s.da.flaws r.line ecc
    s.served r ecc = ⟨readLine s.mem flaws r.line, (lineFlaws flaws r.line).any fun f => !singleFlaw f.2⟩ := by
  simp only [State.served, access, read]
  rw [serveRead, reportErrors_flaws (by rw [read]; exact nofun)]
  simp only [reportErrors]
  split <;> rfl

theorem returned_mem_of_read {r : Request} (read : r.op = .read) (ecc : EccReport) (s : State) :
    (s.returned r ecc).mem = s.mem := by
  have accessed := access_mem_of_not_write r (reportErrors r ecc s) (fun b => by rw [read]; exact nofun)
  have reported : (reportErrors r ecc s).mem = s.mem := by
    unfold reportErrors
    split <;> rfl
  unfold State.returned
  dsimp only
  split
  · exact accessed.trans reported
  · exact accessed.trans reported

/-! ### Host reads (R152) -/

theorem readyAnswers_of_waiting {rest : List ReadSlot} (waiting : ∀ q, rest.head? = some q → q.answer = none) :
    readyAnswers rest = ([], rest) := by
  cases rest with
  | nil => rfl
  | cons q rest => rw [readyAnswers, waiting q rfl]

theorem answerRead_shows {id : Nat} {rest : List ReadSlot} {s : State} (reads : s.hmp.reads = ⟨id, none⟩ :: rest)
    (waiting : ∀ q, rest.head? = some q → q.answer = none) (line : List Byte) :
    let u := answerRead id line s
    u.hmp.reads = rest ∧ u.mem = s.mem ∧ u.out = s.out ++ [.hostLine line] := by
  have answered : updateFirst (·.id == id) (fun r => { r with answer := some line }) s.hmp.reads =
      ⟨id, some line⟩ :: rest := by
    rw [reads]
    exact if_pos (by simp)
  have ready : readyAnswers (⟨id, some line⟩ :: rest) = ([line], rest) := by
    rw [readyAnswers]
    simp only [readyAnswers_of_waiting waiting]
  simp [answerRead, State.onHmp, answered, giveAnswers, ready]

/-! ### Bands (R39, R40) -/

section
variable {job line : Nat} {data : List Byte} {bad : Bool} {s : State} {j : BandJob}

theorem updateFirst_length {α : Type} (p : α → Bool) (f : α → α) (l : List α) :
    (updateFirst p f l).length = l.length := by
  induction l with
  | nil => rfl
  | cons x rest ih =>
    rw [updateFirst]
    split <;> simp [ih]

theorem bandReadDone_of_found (found : s.so.jobs.find? (·.id == job) = some j) :
    let t := s.onSo fun o => { o with jobs := updateFirst (·.id == job) (fun _ => j.take line data bad) o.jobs }
    bandReadDone job line data bad s =
      if (j.take line data bad).left = 0 then bandFinished (j.take line data bad) t else t := by
  rw [bandReadDone, found]

theorem bandReadDone_of_more (found : s.so.jobs.find? (·.id == job) = some j) (more : 2 ≤ j.left) :
    let u := bandReadDone job line data bad s
    u.out = s.out ∧ u.so.jobs.length = s.so.jobs.length := by
  have left : ¬ (j.take line data bad).left = 0 := by
    change ¬ j.left - 1 = 0
    omega
  dsimp only
  rw [bandReadDone_of_found found, if_neg left]
  exact ⟨rfl, updateFirst_length ..⟩

theorem BandJob.output_of_failed (failed : (j.take line data bad).failed = true) (fallback : Rgb) :
    (j.take line data bad).output fallback = .panelFallback j.panel (some j.band) fallback := if_pos failed

theorem BandJob.output_of_whole (whole : (j.take line data bad).failed = false) (inTime : j.late = false)
    (fallback : Rgb) : (j.take line data bad).output fallback =
      .panelBand j.panel j.band (BandJob.rows { j with lines := j.lines ++ [(line, data)] } fallback) := by
  have lines : (j.take line data bad).lines = j.lines ++ [(line, data)] := if_neg (by simp [inTime])
  rw [BandJob.output, if_neg (by simp [whole]), BandJob.rows, lines]
  rfl

/-- What a band sends once all its lines are in: nothing after its window. -/
theorem bandFinished_shows (j : BandJob) (s : State) :
    let u := bandFinished j s
    u.out = (if j.late then s.out else s.out ++ [j.output s.so.applied.fallback]) ∧
    u.so.failedBands = s.so.failedBands + (if j.failed then 1 else 0) ∧
    u.so.underruns = s.so.underruns + (if j.failed = false ∧ j.late = true then 1 else 0) := by
  cases late : j.late <;> cases failed : j.failed <;> simp [bandFinished, late, failed, State.onSo, State.emit]

theorem bandReadDone_of_last (found : s.so.jobs.find? (·.id == job) = some j) (last : j.left = 1) :
    let u := bandReadDone job line data bad s
    let done := j.take line data bad
    u.out = (if j.late then s.out else s.out ++ [done.output s.so.applied.fallback]) ∧
    u.so.failedBands = s.so.failedBands + (if done.failed then 1 else 0) ∧
    u.so.underruns = s.so.underruns + (if done.failed = false ∧ j.late = true then 1 else 0) := by
  have left : (j.take line data bad).left = 0 := by
    change j.left - 1 = 0
    omega
  dsimp only
  rw [bandReadDone_of_found found, if_pos left]
  exact bandFinished_shows ..

end

/-! ### Playback fetches (R109) -/

theorem fetchDone_shows {period line : Nat} {data : List Byte} {bad : Bool} {s : State} {p : FetchPeriod}
    (fetches : s.au.fetches = [p]) (id : p.id = period) :
    let old := vget s.au.rings p.ring
    let lost : U32 := if bad = true ∧ p.mixed = false then 1 else 0
    let u := fetchDone period line data bad s
    (2 ≤ p.left → vget u.au.rings p.ring = { old with faileds := old.faileds + lost }) ∧
    (p.left = 1 → vget u.au.rings p.ring =
      { old with faileds := old.faileds + lost, consume := old.consume + BitVec.ofNat 32 p.count }) := by
  intro old lost u
  let q : FetchPeriod := { p with
    left := p.left - 1, frames := if p.mixed || bad then p.frames else fillFrames line data p.frames }
  let filed : State := s.onAu fun a => { a with fetches := [q] }
  let counted : State :=
    if bad && !p.mixed then filed.onRing p.ring fun r => { r with faileds := r.faileds + 1 } else filed
  have made : u = settleRing p.ring counted := by
    have found : s.au.fetches.find? (·.id == period) = some p := by
      rw [fetches]
      exact List.find?_cons_of_pos (by simpa using id)
    have updated : updateFirst (·.id == period) (fun p : FetchPeriod => { p with
        left := p.left - 1, frames := if p.mixed || bad then p.frames else fillFrames line data p.frames })
        s.au.fetches = [q] := by
      rw [fetches]
      exact if_pos (by simpa using id)
    simp only [u, fetchDone, found, State.onAu, updated]
    rfl
  have list : counted.au.fetches = [q] := by
    simp only [counted]
    split <;> rfl
  have ring : vget counted.au.rings p.ring = { old with faileds := old.faileds + lost } := by
    by_cases fails : bad = true ∧ p.mixed = false
    · simp only [counted, lost, if_pos fails]
      rw [if_pos (by simp [fails])]
      exact vget_vmod_same ..
    · simp only [counted, lost, if_neg fails]
      rw [if_neg (by simpa using fails)]
      simp [filed, State.onAu, old]
  have settled : vget u.au.rings p.ring = { vget counted.au.rings p.ring with
      consume := (vget counted.au.rings p.ring).consume + BitVec.ofNat 32 (settleFetches p.ring false [q]).1 } := by
    rw [made, settleRing, list]
    exact vget_vmod_same ..
  rw [settled, ring]
  refine ⟨fun more => ?_, fun last => ?_⟩
  · have waits : q.left ≠ 0 := by
      change p.left - 1 ≠ 0
      omega
    simp [settleFetches, q, waits]
  · simp [settleFetches, q, last]

/-! ### Message reads (R93, R98) -/

theorem findMessage_of_queued {entry addr length : Nat} {n : Fin 3} {t : Tc}
    (queued : t.queue.find? (·.id == entry) = some ⟨entry, .message n addr length⟩) :
    findMessage entry t = some (n, addr, length, none) := by
  rw [findMessage, queued]

theorem messageReadDone_of_last {entry read line : Nat} {lines : List (Nat × List Byte)} {damaged bad : Bool} {s : State}
    (lane : s.tc.lane = .reading entry read 1 lines damaged false) (data : List Byte) :
    messageReadDone read line data bad s = sendMessage entry (lines ++ [(line, data)]) (damaged || bad) s := by
  rw [messageReadDone, lane]
  simp

theorem loseSlot_shows (id : Nat) (n : Fin 3) (belonged : Bool) (s : State) :
    let u := loseSlot id n belonged s
    u.tc.lane = s.tc.lane ∧ u.tc.idle = s.tc.idle ∧ u.tc.nextSeq = s.tc.nextSeq ∧
    (vget u.tc.history 2).length = (vget s.tc.history 2).length ∧
    (belonged = true → u.SlotDone n .lost) ∧ (belonged = false → u = s) := by
  cases belonged with
  | false => exact ⟨rfl, rfl, rfl, rfl, nofun, fun _ => rfl⟩
  | true =>
    have made : loseSlot id n true s = finishSlot n .lost (s.onTc fun t =>
        { t with history := vmod t.history 2 (updateFirst (·.id == id) fun h => { h with belongs := false })
                 histChange := t.histChange + 1 }) := rfl
    dsimp only
    rw [made, (finishSlot_tc ..).2]
    refine ⟨rfl, rfl, rfl, ?_, fun _ => finishSlot_done .., nofun⟩
    exact (congrArg List.length (vget_vmod_same ..)).trans (updateFirst_length ..)

theorem sendMessage_of_queued {entry addr length : Nat} {n : Fin 3} {s : State}
    (queued : s.tc.queue.find? (·.id == entry) = some ⟨entry, .message n addr length⟩)
    (lines : List (Nat × List Byte)) (damaged : Bool) :
    let packet := uplinkPacket 0x33 false damaged (vget s.tc.nextSeq 2) (gather lines addr length)
    let u := sendMessage entry lines damaged s
    u.tc.lane = .sending packet entry (laneTime packet) ∧ u.tc.idle = none ∧
    vget u.tc.nextSeq 2 = vget s.tc.nextSeq 2 + 1 ∧
    (vget u.tc.history 2).length = (vget s.tc.history 2).length + 1 ∧
    (damaged = true → u.SlotDone n .lost) ∧
    (damaged = false → u.pu = s.pu ∧ u.tc.inProgress = s.tc.inProgress) := by
  intro packet u
  have made : u = loseSlot entry n damaged (beginSend packet entry
      (s.onTc (Tc.intoHistory 2 ⟨entry, .message n addr length⟩ true))) := by
    simp only [u, sendMessage, findMessage_of_queued queued]
    rfl
  obtain ⟨lane, idle, seq, history, lost, kept⟩ := loseSlot_shows entry n damaged (beginSend packet entry
    (s.onTc (Tc.intoHistory 2 ⟨entry, .message n addr length⟩ true)))
  rw [made]
  refine ⟨lane, idle, by rw [seq]; exact vget_vmod_same .., ?_, lost, fun sound => ?_⟩
  · rw [history]
    refine (congrArg List.length (vget_vmod_same ..)).trans ?_
    simp
  · rw [kept sound]
    exact ⟨rfl, rfl⟩

/-- Settles O23, agent by agent. -/
theorem readsComplete : Obligations.ReadsComplete := by
  intro c r s service read mine line empty flaws data bad
  have agent {P : State → Prop} {a : Agent} (is : r.agent = a) (other : a ≠ .planInit)
      (holds : P ((agentDone r ⟨data, bad⟩ (s.returned r (reportOf c))).onDa Da.kick)) : runsTo c s P :=
    runsTo_agent service mine line empty (is ▸ other) (by rw [served_of_read read]; exact holds)
  have engine := s.returned_so r (reportOf c)
  have tether := s.returned_tc r (reportOf c)
  have audio := s.returned_au r (reportOf c)
  have plan := s.returned_pu r (reportOf c)
  have port := s.returned_hmp r (reportOf c)
  have output := s.returned_out r (reportOf c)
  have memory := returned_mem_of_read read (reportOf c) s
  refine ⟨?_, ?_, ?_, ?_⟩
  · intro id rest is reads waiting
    refine agent is nofun ?_
    simp only [agentDone, is]
    have shows := answerRead_shows (s := s.returned r (reportOf c)) (by rwa [port]) waiting data
    rw [memory, output] at shows
    generalize answerRead id data (s.returned r (reportOf c)) = u at shows
    exact shows
  · intro job j is found sent
    rw [← engine] at found
    refine ⟨fun more => agent is nofun ?_, fun last sound good => agent is nofun ?_,
      fun last damaged => agent is nofun ?_⟩
    · simp only [agentDone, is]
      have shows := bandReadDone_of_more (line := r.line) (data := data) (bad := bad) found more
      rw [output, engine] at shows
      generalize bandReadDone job r.line data bad (s.returned r (reportOf c)) = u at shows
      exact shows
    · simp only [agentDone, is]
      have shows := bandReadDone_of_last (line := r.line) (data := data) (bad := bad) found last
      rw [output, engine] at shows
      generalize bandReadDone job r.line data bad (s.returned r (reportOf c)) = u at shows
      have whole : (j.take r.line data bad).failed = false := by simp [BandJob.take, sound, good]
      obtain ⟨out, failed, under⟩ := shows
      rw [whole] at failed under
      refine ⟨out.trans ?_, under.trans ?_, failed.trans ?_⟩
      · cases late : j.late
        · rw [BandJob.output_of_whole whole late]
          simp only [sent, late, Bool.false_eq_true, if_false]
        · simp only [sent, late, if_true]
      · simp
      · simp
    · simp only [agentDone, is]
      have shows := bandReadDone_of_last (line := r.line) (data := data) (bad := bad) found last
      rw [output, engine] at shows
      generalize bandReadDone job r.line data bad (s.returned r (reportOf c)) = u at shows
      have broken : (j.take r.line data bad).failed = true := by simpa [BandJob.take] using damaged
      obtain ⟨out, failed, under⟩ := shows
      rw [broken] at failed under
      refine ⟨out.trans ?_, failed, under.trans ?_⟩
      · rw [BandJob.output_of_failed broken]
      · simp
  · intro period p is fetches id old lost
    obtain ⟨more, last⟩ := fetchDone_shows (line := r.line) (data := data) (bad := bad)
      (s := s.returned r (reportOf c)) (by rwa [audio]) id
    rw [audio] at more last
    refine ⟨fun left => agent is nofun ?_, fun left => agent is nofun ?_⟩
    all_goals simp only [agentDone, is]
    · exact more left
    · exact last left
  · intro entry read lines damaged n addr length is lane queued
    refine agent is nofun ?_
    simp only [agentDone, is]
    rw [messageReadDone_of_last (by rwa [tether])]
    obtain ⟨sending, idle, seq, history, lost, kept⟩ := sendMessage_of_queued (s := s.returned r (reportOf c))
      (by rwa [tether]) (lines ++ [(r.line, data)]) (damaged || bad)
    rw [tether] at sending seq history kept
    rw [plan] at kept
    generalize sendMessage entry (lines ++ [(r.line, data)]) (damaged || bad) (s.returned r (reportOf c)) = u at *
    exact ⟨sending, idle, seq, history, lost, kept⟩

end Sys2Proof.Machine
end

section
/-!
PROOFS. Frame boundaries: the set that is reloaded, the frame that begins, the engine that stops (R14 to R16, R26, R31 to
R38, R140).
-/
namespace Sys2Proof.Machine

/-! ### Surfaces at a boundary (R14 to R16) -/

/-- A surface as a boundary that shows the surfaces `shown` leaves it, its state apart. -/
def St.unmarked (t : St) (shown : List (Fin 6)) (n : Fin 6) : Surface :=
  if n ∈ shown then (t.surface n).clearMarks else t.surface n

theorem St.surface_advance_eq (d : List Entry) (e : Entry) (rest : List Entry) (t : St) (n : Fin 6) :
    ((t.dropEntries d).advance e rest).surface n =
      { t.unmarked e.named n with
        state :=
          if n ∈ e.named then .current
          else if n ∈ namedBy t.current then .held
          else if n ∈ namedBy t.previous ∨ n ∈ d.flatMap Entry.named then .free
          else (t.surface n).state } := by
  have put (x : SurfaceState) (l : List (Fin 6)) (u : St) : vget (u.setStates x l).surfaces n =
      if n ∈ l then { vget u.surfaces n with state := x } else vget u.surfaces n := St.surface_setStates x l u n
  have clear (l : List (Fin 6)) (u : St) : vget (u.clearMarks l).surfaces n =
      if n ∈ l then (vget u.surfaces n).clearMarks else vget u.surfaces n := St.surface_clearMarks l u n
  simp only [St.surface, St.unmarked, St.advance, St.dropEntries, put, clear, St.setStates_keeps]
  by_cases shown : n ∈ e.named
  · simp only [if_pos shown]
    repeat' split
    all_goals rfl
  · by_cases held : n ∈ namedBy t.current
    · simp only [if_neg shown, if_pos held]
      repeat' split
      all_goals rfl
    · by_cases old : n ∈ namedBy t.previous
      · simp only [if_neg shown, if_neg held, if_pos old, if_pos (Or.inl old)]
        split <;> rfl
      · by_cases gone : n ∈ d.flatMap Entry.named
        · simp only [if_neg shown, if_neg held, if_neg old, if_pos gone, if_pos (Or.inr gone)]
        · simp only [if_neg shown, if_neg held, if_neg old, if_neg gone, if_neg (not_or.mpr ⟨old, gone⟩)]

theorem St.surface_repeated (f : Machine.Frame) (t : St) (n : Fin 6) :
    (t.repeated f).surface n = t.unmarked f.named n := St.surface_clearMarks f.named t n

/-! ### Band schedules (R38) -/

def St.schedule (t : St) (panel : Side) (both : Bool) (n : Fin 6) : List Schedule :=
  match (t.surface n).config with
  | some c => [{ panel, both, surface := n, next := 0, count := c.bandCount }]
  | none => []

/-- The schedules of a frame with these surfaces: one for each panel, or one for both. -/
def St.schedules (t : St) (left right : Option (Fin 6)) : List Schedule :=
  match left, right with
  | some l, some r => if l = r then t.schedule .left true l else t.schedule .left false l ++ t.schedule .right false r
  | some l, none => t.schedule .left ((t.surface l).config.any fun c => c.eye == .both) l
  | none, some r => t.schedule .right false r
  | none, none => []

theorem St.schedules_congr {t u : St} (configs : ∀ n, (u.surface n).config = (t.surface n).config) :
    u.schedules = t.schedules := by
  funext left right
  simp only [St.schedules, St.schedule, configs]

theorem bandSchedules_eq (s : State) (f : Machine.Frame) : s.bandSchedules f = s.st.schedules f.left f.right := by
  cases left : f.left with
  | none =>
    cases right : f.right with
    | none => simp [State.bandSchedules, St.frameSurface, St.surfaceFor, left, right, St.schedules]
    | some r =>
      cases shown : (s.st.surface r).config <;>
        simp [State.bandSchedules, St.frameSurface, St.surfaceFor, left, right, St.schedules, St.schedule, shown]
  | some l =>
    cases right : f.right with
    | none =>
      cases shown : (s.st.surface l).config with
      | none =>
        simp [State.bandSchedules, St.frameSurface, St.surfaceFor, St.eyeOf, left, right, St.schedules, St.schedule, shown]
      | some c =>
        by_cases both : c.eye = .both <;>
          simp [State.bandSchedules, St.frameSurface, St.surfaceFor, St.eyeOf, left, right, St.schedules, St.schedule,
            shown, both]
    | some r =>
      by_cases same : l = r
      · subst same
        cases shown : (s.st.surface l).config <;>
          simp [State.bandSchedules, St.frameSurface, St.surfaceFor, left, right, St.schedules, St.schedule, shown]
      · cases first : (s.st.surface l).config <;> cases second : (s.st.surface r).config <;>
          simp [State.bandSchedules, St.frameSurface, St.surfaceFor, left, right, St.schedules, St.schedule, same, first,
            second]

/-! ### The frame begins (R31, R38) -/

theorem beginBands_of_frame {s : State} {f : Machine.Frame} (current : s.st.current = some f) : beginBands s =
    ((s.emit (.panelStart .left s.so.applied.level)).emit (.panelStart .right s.so.applied.level)).onSo fun o =>
      { o with schedules := s.bandSchedules f } := by
  simp only [beginBands, State.emit, current]
  rfl

theorem beginBands_of_none {s : State} (current : s.st.current = none) : beginBands s =
    ((((s.emit (.panelStart .left s.so.applied.level)).emit (.panelStart .right s.so.applied.level)).onSo fun o =>
      { o with schedules := [] }).emit (.panelFallback .left none s.so.applied.fallback)).emit
        (.panelFallback .right none s.so.applied.fallback) := by
  simp only [beginBands, State.emit, current]
  rfl

section
variable {b : Stamp} {s : State} {dropped rest : List Entry} {e : Entry}

theorem boundaryDecision_of_taken (chosen : choosePresent b s.so.applied s.st.queue = (dropped, some e, rest)) :
    boundaryDecision b s = raise .frame (pulse 6
      ((s.stChange fun t => (t.dropEntries dropped).advance e rest).when (!dropped.isEmpty) (raise .dropped))) := by
  rw [boundaryDecision, chosen]

theorem boundaryDecision_of_repeat {f : Machine.Frame}
    (chosen : choosePresent b s.so.applied s.st.queue = (dropped, none, rest)) (current : s.st.current = some f) :
    boundaryDecision b s = raise .repeated (s.stChange (St.repeated f)) := by
  rw [boundaryDecision, chosen, current]

theorem boundaryDecision_of_nothing
    (chosen : choosePresent b s.so.applied s.st.queue = (dropped, none, rest)) (current : s.st.current = none) :
    boundaryDecision b s = s := by
  rw [boundaryDecision, chosen, current]

end

/-- From `s` to `r` a boundary has counted its frame and reloaded: the set `set` is applied. -/
structure State.Reloaded (set : TimingSet) (coasting : Bool) (s r : State) : Prop where
  applied : r.so.applied = set
  boundary : r.so.lastBoundary = s.tb.now
  coasts : r.so.coasting = coasting
  unasked : r.so.stopRequested = false
  number : r.so.frameNumber = if s.so.frameNumber = 0xFFFFFFFF then 0xFFFFFFFF else s.so.frameNumber + 1
  limit : s.so.frameNumber = 0xFFFFFFFF → r.so.limitPassed = true
  tracker : r.st = s.st
  pulses : r.tm.pulses = s.tm.pulses
  out : r.out = s.out
  tb : r.tb = s.tb

/-- The part as ST decides at a boundary that begins SCAN. -/
def State.scanning (r : State) : State := pulse 2 (r.onSo (So.beginScan false))

/-- The part once the frame of a boundary has begun. -/
def State.framed (r : State) : State := beginBands (boundaryDecision r.tb.now r.scanning)

theorem beginBands_so (s : State) : (beginBands s).so = { s.so with schedules := (beginBands s).so.schedules } := by
  unfold beginBands
  dsimp only
  split <;> rfl

theorem State.framed_so (r : State) :
    r.framed.so = { So.beginScan false r.so with schedules := r.framed.so.schedules } := by
  rw [State.framed, beginBands_so, boundaryDecision_so]
  rfl

section
variable {set : TimingSet} {coasting : Bool} {s r : State} {dropped rest : List Entry} {e : Entry}

/-- SCAN's timers and what a boundary ends, by the set applied. -/
theorem State.Reloaded.engine (h : s.Reloaded set coasting r) :
    let own := set.sync == .free || coasting
    let u := r.framed
    u.so.lastBoundary = s.tb.now ∧
    u.so.state = .running ∧ u.so.phase = .scan ∧ u.so.phaseTimer = some set.scan ∧
    u.so.coasting = coasting ∧ u.so.edgeKill = false ∧ u.so.powerCut = false ∧
    u.so.periodTimer = (if own then some set.period else none) ∧
    u.so.syncTimer = (if own then none else some set.lossLimit) := by
  dsimp only
  rw [State.framed_so]
  simp [So.beginScan, h.applied, h.coasts, h.boundary]

theorem State.Reloaded.counts (h : s.Reloaded set coasting r) :
    let u := r.framed
    u.so.applied = set ∧
    u.so.frameNumber = (if s.so.frameNumber = 0xFFFFFFFF then 0xFFFFFFFF else s.so.frameNumber + 1) ∧
    (s.so.frameNumber = 0xFFFFFFFF → u.so.limitPassed = true) := by
  dsimp only
  rw [State.framed_so]
  exact ⟨h.applied, h.number, h.limit⟩

/-- An entry is taken: its frame is shown (R14, R15). -/
theorem State.Reloaded.takes (h : s.Reloaded set coasting r)
    (chosen : choosePresent s.tb.now set s.st.queue = (dropped, some e, rest)) :
    let u := r.framed
    u.st.current = some e.toFrame ∧ u.st.previous = s.st.current ∧ u.st.queue = rest ∧
    u.st.dropped = s.st.dropped + BitVec.ofNat 32 dropped.length ∧ u.pendingEvent .frame = true ∧
    (dropped ≠ [] → u.pendingEvent .dropped = true) ∧ u.tm.pulses = s.tm.pulses ++ [2, 6] ∧
    (∀ n, u.st.surface n = { s.st.unmarked e.named n with
      state :=
        if n ∈ e.named then .current
        else if n ∈ namedBy s.st.current then .held
        else if n ∈ namedBy s.st.previous ∨ n ∈ dropped.flatMap Entry.named then .free
        else (s.st.surface n).state }) ∧
    u.out = s.out ++ [.panelStart .left set.level, .panelStart .right set.level] ∧
    u.so.schedules = s.st.schedules (some e.left) e.right := by
  have taken := boundaryDecision_of_taken (b := r.tb.now) (s := r.scanning) (dropped := dropped) (e := e) (rest := rest)
    (by rw [h.tb]; rw [← h.applied, ← h.tracker] at chosen; exact chosen)
  have tracker : (boundaryDecision r.tb.now r.scanning).st =
      St.noteFrames s.st ((s.st.dropEntries dropped).advance e rest) := by
    rw [taken, ← h.tracker]
    cases dropped.isEmpty <;> rfl
  have pulses : (boundaryDecision r.tb.now r.scanning).tm.pulses = s.tm.pulses ++ [2, 6] := by
    rw [taken, ← h.pulses]
    cases dropped.isEmpty <;> exact List.append_assoc ..
  have out : (boundaryDecision r.tb.now r.scanning).out = s.out := by
    rw [← h.out]
    simp [State.scanning]
  have engine : (boundaryDecision r.tb.now r.scanning).so.applied = set := by
    rw [boundaryDecision_so]
    exact h.applied
  have events : (boundaryDecision r.tb.now r.scanning).pendingEvent .frame = true ∧
      (dropped ≠ [] → (boundaryDecision r.tb.now r.scanning).pendingEvent .dropped = true) := by
    rw [taken]
    refine ⟨raise_pendingEvent .., fun some => raise_pendingEvent_of _ _ _ ?_⟩
    cases dropped with
    | nil => exact absurd rfl some
    | cons x l => exact raise_pendingEvent ..
  rw [St.noteFrames_eq] at tracker
  rw [State.framed]
  generalize boundaryDecision r.tb.now r.scanning = D at *
  have current : D.st.current = some e.toFrame := by
    rw [tracker]
    simp [St.advance]
  have previous : D.st.previous = s.st.current := by
    rw [tracker]
    simp [St.advance, St.dropEntries]
  have queue : D.st.queue = rest := by
    rw [tracker]
    simp [St.advance]
  have count : D.st.dropped = s.st.dropped + BitVec.ofNat 32 dropped.length := by
    rw [tracker]
    simp [St.advance, St.dropEntries]
  have surface (n : Fin 6) : D.st.surface n = ((s.st.dropEntries dropped).advance e rest).surface n := by
    rw [tracker]
    rfl
  have schedules : D.st.schedules = s.st.schedules := St.schedules_congr fun n => by
    rw [surface]
    exact (St.surface_advance ..).1
  rw [beginBands_of_frame current, bandSchedules_eq, schedules, engine]
  exact ⟨current, previous, queue, count, events.1, events.2, pulses,
    fun n => (surface n).trans (St.surface_advance_eq ..), by simp [State.emit, out], rfl⟩

/-- No entry is taken and the current frame, if there is one, is shown again (R16, R31). -/
theorem State.Reloaded.repeats (h : s.Reloaded set coasting r)
    (chosen : choosePresent s.tb.now set s.st.queue = (dropped, none, rest)) :
    let starts : List Output := [.panelStart .left set.level, .panelStart .right set.level]
    let u := r.framed
    u.st.queue = s.st.queue ∧ u.st.previous = s.st.previous ∧
    u.st.current = s.st.current.map (fun f => { f with repeats := sat16 f.repeats, substituted := 0, bandLate := false }) ∧
    (s.st.current ≠ none → u.pendingEvent .repeated = true) ∧ u.tm.pulses = s.tm.pulses ++ [2] ∧
    (∀ n, u.st.surface n = s.st.unmarked (namedBy s.st.current) n) ∧
    (∀ f, s.st.current = some f → u.out = s.out ++ starts ∧ u.so.schedules = s.st.schedules f.left f.right) ∧
    (s.st.current = none → u.so.schedules = [] ∧
      u.out = s.out ++ starts ++ [.panelFallback .left none set.fallback, .panelFallback .right none set.fallback]) := by
  rw [← h.applied, ← h.tracker] at chosen
  have chosen : choosePresent r.tb.now r.scanning.so.applied r.scanning.st.queue = (dropped, none, rest) := by
    rw [h.tb]
    exact chosen
  dsimp only
  rw [State.framed]
  cases shown : s.st.current with
  | none =>
    have current : r.scanning.st.current = none := by
      rw [← shown, ← h.tracker]
      rfl
    rw [boundaryDecision_of_nothing chosen current, beginBands_of_none current]
    have tracker : r.scanning.st = s.st := h.tracker
    have pulses : r.scanning.tm.pulses = s.tm.pulses ++ [2] := congrArg (· ++ [2]) h.pulses
    have out : r.scanning.out = s.out := h.out
    have engine : r.scanning.so.applied = set := h.applied
    rw [← tracker]
    refine ⟨rfl, rfl, current, fun some => absurd rfl some, pulses, fun n => rfl, nofun, fun _ => ⟨rfl, ?_⟩⟩
    simp [State.emit, State.onSo, out, engine]
  | some f =>
    have current : r.scanning.st.current = some f := by
      rw [← shown, ← h.tracker]
      rfl
    rw [boundaryDecision_of_repeat chosen current]
    have tracker : (raise .repeated (r.scanning.stChange (St.repeated f))).st =
        St.noteFrames s.st (s.st.repeated f) := by
      rw [← h.tracker]
      rfl
    have pulses : (raise .repeated (r.scanning.stChange (St.repeated f))).tm.pulses = s.tm.pulses ++ [2] :=
      congrArg (· ++ [2]) h.pulses
    have out : (raise .repeated (r.scanning.stChange (St.repeated f))).out = s.out := h.out
    have engine : (raise .repeated (r.scanning.stChange (St.repeated f))).so.applied = set := h.applied
    have event : (raise .repeated (r.scanning.stChange (St.repeated f))).pendingEvent .repeated = true :=
      raise_pendingEvent ..
    rw [St.noteFrames_eq] at tracker
    generalize raise .repeated (r.scanning.stChange (St.repeated f)) = D at *
    have again : D.st.current = some { f with repeats := sat16 f.repeats, substituted := 0, bandLate := false } := by
      rw [tracker]
      rfl
    have queue : D.st.queue = s.st.queue ∧ D.st.previous = s.st.previous := by
      rw [tracker]
      simp [St.repeated]
    have surface (n : Fin 6) : D.st.surface n = s.st.unmarked f.named n := by
      rw [tracker]
      exact St.surface_repeated ..
    have schedules : D.st.schedules = s.st.schedules := St.schedules_congr fun n => by
      rw [surface, St.unmarked]
      split <;> rfl
    rw [beginBands_of_frame again, bandSchedules_eq, schedules, engine]
    refine ⟨queue.1, queue.2, again, fun _ => event, pulses, surface, ?_, nofun⟩
    rintro g same
    obtain rfl := Option.some.inj same
    exact ⟨by simp [State.emit, out], rfl⟩

end

/-! ### The boundary (R26, R31) -/

/-- The boundary has counted its frame. -/
def State.counted (s : State) : State := s.onSo fun o => { o.nextFrame with lastBoundary := s.tb.now }

theorem frameBoundary_eq (s : State) : frameBoundary false s =
    if !(reload s.counted).so.applied.scanEnable then stopAndAnswer (pulse 2 (reload s.counted))
    else (reload s.counted).framed := rfl

theorem stopAndAnswer_of_unasked {s : State} (unasked : s.so.stopRequested = false) :
    stopAndAnswer s = s.onSo So.stop := if_neg (by simp [unasked])

theorem State.counted_so (s : State) : s.counted.so = { s.so with
    frameNumber := if s.so.frameNumber = 0xFFFFFFFF then 0xFFFFFFFF else s.so.frameNumber + 1
    limitPassed := if s.so.frameNumber = 0xFFFFFFFF then true else s.so.limitPassed
    lastBoundary := s.tb.now } := by
  rw [State.counted, State.onSo_so, So.nextFrame_eq]

section
variable {s : State} {t : TimingSet}

theorem reload_of_none (pending : s.so.pendingSet = none) : reload s = s := by
  rw [reload, pending]

theorem reload_of_now (pending : s.so.pendingSet = some (t, 0)) : reload s = takePending t s := by
  rw [reload, pending]

theorem reload_of_later {k : Nat} (pending : s.so.pendingSet = some (t, k + 1)) :
    reload s = s.onSo fun o => { o with pendingSet := some (t, k) } := by
  rw [reload, pending]

theorem takePending_shows (t : TimingSet) (s : State) :
    let u := takePending t s
    u.so.pendingSet = none ∧ (u.entry .timing).outcome = .taken ∧ u.pendingEvent .timingTaken = true ∧
    u.so.applied = t ∧ u.so.coasting = (t.sync != .free && s.so.coasting) ∧ (t.sync = .free → u.so.measured = none) ∧
    u.so = { s.so with pendingSet := none, applied := t, coasting := u.so.coasting, measured := u.so.measured,
                       byTrigger := u.so.byTrigger } := by
  have engine : (takePending t s).so = (if t.sync = .free then
      { s.so with pendingSet := none, applied := t, coasting := false, measured := none, byTrigger := false }
      else { s.so with pendingSet := none, applied := t }) := by
    simp [takePending, applySet]
  dsimp only
  rw [engine]
  refine ⟨?_, State.outcome_finish .., raise_pendingEvent .., ?_⟩
  · split <;> rfl
  · by_cases free : t.sync = .free
    · rw [if_pos free]
      exact ⟨rfl, by simp [free], fun _ => rfl, rfl⟩
    · rw [if_neg free]
      exact ⟨rfl, by simp [free], fun yes => absurd yes free, rfl⟩

theorem takePending_leaves (t : TimingSet) (s : State) :
    (takePending t s).st = s.st ∧ (takePending t s).tm = s.tm ∧ (takePending t s).out = s.out ∧
    (takePending t s).tb = s.tb := by
  simp

/-- The counted boundary reloads: without a pending set, with one that waits on, and with one that is taken. -/
theorem State.reloaded_of_none (unasked : s.so.stopRequested = false) (pending : s.so.pendingSet = none) :
    s.Reloaded s.so.applied s.so.coasting (reload s.counted) ∧ (reload s.counted).so.pendingSet = none := by
  have none : s.counted.so.pendingSet = none := by rw [State.counted_so, pending]
  rw [reload_of_none none]
  refine ⟨⟨?_, ?_, ?_, ?_, ?_, fun top => ?_, rfl, rfl, rfl, rfl⟩, none⟩
  all_goals rw [State.counted_so]
  · exact unasked
  · exact if_pos top

theorem State.reloaded_of_later (unasked : s.so.stopRequested = false) {k : Nat}
    (pending : s.so.pendingSet = some (t, k + 1)) :
    s.Reloaded s.so.applied s.so.coasting (reload s.counted) ∧ (reload s.counted).so.pendingSet = some (t, k) := by
  have waits : s.counted.so.pendingSet = some (t, k + 1) := by rw [State.counted_so, pending]
  rw [reload_of_later waits]
  refine ⟨⟨?_, ?_, ?_, ?_, ?_, fun top => ?_, rfl, rfl, rfl, rfl⟩, rfl⟩
  all_goals rw [State.onSo_so, State.counted_so]
  · exact unasked
  · exact if_pos top

theorem State.reloaded_of_now (unasked : s.so.stopRequested = false) (pending : s.so.pendingSet = some (t, 0)) :
    let r := reload s.counted
    s.Reloaded t (t.sync != .free && s.so.coasting) r ∧ r.so.pendingSet = none ∧ (r.entry .timing).outcome = .taken ∧
    r.pendingEvent .timingTaken = true ∧ (t.sync = .free → r.so.measured = none) := by
  have now : s.counted.so.pendingSet = some (t, 0) := by rw [State.counted_so, pending]
  dsimp only
  rw [reload_of_now now]
  obtain ⟨none, outcome, event, applied, coasts, measured, rest⟩ := takePending_shows t s.counted
  obtain ⟨st, tm, out, tb⟩ := takePending_leaves t s.counted
  generalize takePending t s.counted = r at *
  refine ⟨⟨applied, ?_, ?_, ?_, ?_, fun top => ?_, st, congrArg Tm.pulses tm, out, tb⟩, none, outcome, event, measured⟩
  · rw [rest, State.counted_so]
  · rw [coasts, State.counted_so]
  · rw [rest, State.counted_so]
    exact unasked
  · rw [rest, State.counted_so]
  · rw [rest, State.counted_so]
    exact if_pos top

end

section
variable {s : State}

theorem frameBoundary_of_frame (enable : (reload s.counted).so.applied.scanEnable = true) :
    frameBoundary false s = (reload s.counted).framed := by
  rw [frameBoundary_eq, enable]
  rfl

theorem frameBoundary_of_stop (unasked : (reload s.counted).so.stopRequested = false)
    (enable : (reload s.counted).so.applied.scanEnable = false) :
    frameBoundary false s = (pulse 2 (reload s.counted)).onSo So.stop := by
  rw [frameBoundary_eq, enable]
  exact stopAndAnswer_of_unasked unasked

end

/-- What a boundary leaves of the reload. -/
theorem frameBoundary_leaves {s : State} (unasked : (reload s.counted).so.stopRequested = false) :
    let r := reload s.counted
    let u := frameBoundary false s
    u.so.pendingSet = r.so.pendingSet ∧ u.entry .timing = r.entry .timing ∧
    (r.so.measured = none → u.so.measured = none) ∧ ∀ k, r.pendingEvent k = true → u.pendingEvent k = true := by
  intro r u
  cases enable : r.so.applied.scanEnable with
  | false =>
    have made : u = (pulse 2 r).onSo So.stop := frameBoundary_of_stop unasked enable
    rw [made]
    exact ⟨rfl, rfl, fun _ => rfl, fun _ => id⟩
  | true =>
    have made : u = r.framed := frameBoundary_of_frame enable
    rw [made]
    have engine := r.framed_so
    refine ⟨by rw [engine]; rfl, by simp [State.entry, State.framed, State.scanning],
      fun none => by rw [engine]; exact none, fun k event => ?_⟩
    exact (beginBands_delivers _).events k ((boundaryDecision_delivers ..).events k event)

/-- The engine goes STOPPED, and in ENTERING_STANDBY the part comes to rest (R37, R140). -/
theorem stopAndAnswer_shows (s : State) :
    let u := stopAndAnswer s
    u.so = s.so.stop ∧ u.pu = s.pu ∧
    (s.so.stopRequested = true → s.pwc.step = .enterScan → u.atRest ∧ u.pwc.step = .enterDrain) := by
  dsimp only
  by_cases asked : s.so.stopRequested = true ∧ s.pwc.step = .enterScan
  · have made : stopAndAnswer s = standbySteps (s.onSo So.stop) := if_pos (by simp [asked])
    rw [made]
    have engine : (standbySteps (s.onSo So.stop)).so = s.so.stop := by simp [standbySteps]
    have tracker : (standbySteps (s.onSo So.stop)).st = (presentationFlush (s.onSo So.stop)).st := by simp [standbySteps]
    refine ⟨engine, by simp [standbySteps], fun _ _ => ⟨(State.atRest_iff _).mpr ⟨?_, by rw [engine]; rfl, rfl⟩, rfl⟩⟩
    rw [tracker]
    exact (presentationFlush_sound _).2
  · have made : stopAndAnswer s = s.onSo So.stop := if_neg (by simpa using asked)
    rw [made]
    exact ⟨rfl, rfl, fun stop step => absurd ⟨stop, step⟩ asked⟩

/-- The standby stop point: a pending set is taken, and the engine stops (R28, R37). -/
theorem stopPoint_shows {s : State} (asked : s.so.stopRequested = true) :
    let u := stopPoint s
    u.so.state = .stopped ∧
    (∀ t k, s.so.pendingSet = some (t, k) → u.so.applied = t ∧ u.so.pendingSet = none ∧
      (u.entry .timing).outcome = .taken) ∧
    (s.pwc.step = .enterScan → u.atRest ∧ u.pwc.step = .enterDrain) := by
  dsimp only
  cases pending : s.so.pendingSet with
  | none =>
    have made : stopPoint s = stopAndAnswer s := by rw [stopPoint, pending]
    obtain ⟨engine, -, rest⟩ := stopAndAnswer_shows s
    rw [made]
    exact ⟨by rw [engine]; rfl, nofun, rest asked⟩
  | some p =>
    obtain ⟨t, k⟩ := p
    have made : stopPoint s = stopAndAnswer (takePending t s) := by rw [stopPoint, pending]
    obtain ⟨none, outcome, -, applied, -, -, others⟩ := takePending_shows t s
    obtain ⟨engine, plan, rest⟩ := stopAndAnswer_shows (takePending t s)
    have stop : (takePending t s).so.stopRequested = true := by
      rw [others]
      exact asked
    have step : (takePending t s).pwc.step = s.pwc.step := by simp
    rw [made]
    refine ⟨by rw [engine]; rfl, ?_, fun waits => rest stop (step.trans waits)⟩
    rintro u l same
    obtain ⟨rfl, -⟩ := Prod.mk.inj (Option.some.inj same)
    rw [engine, State.entry, plan]
    exact ⟨applied, none, outcome⟩

/-- The sync loss wait has expired and coasting begins (R36). -/
def State.lost (s : State) : State := raise .syncLost (s.onSo fun o => { o with coasting := true })

theorem State.Reloaded.of_lost {set : TimingSet} {coasting : Bool} {s r : State} (h : s.lost.Reloaded set coasting r) :
    s.Reloaded set coasting r :=
  ⟨h.applied, h.boundary, h.coasts, h.unasked, h.number, h.limit, h.tracker, h.pulses, h.out, h.tb⟩

theorem exec_framePeriodExpiry {s : State} (dark : s.so.afterDark = true) (ends : s.so.periodTimer = some 0) :
    exec .framePeriodExpiry s = .next (drain (boundaryMoment false s)) :=
  congrArg Host.Outcome.next (if_pos (by simp [due, dark, ends]))

theorem exec_syncLossExpiry {s : State} (dark : s.so.afterDark = true) (ends : s.so.syncTimer = some 0) :
    exec .syncLossExpiry s = .next (drain (syncLost s)) :=
  congrArg Host.Outcome.next (if_pos (by simp [due, dark, ends]))

/-- Settles O41: each expiry makes a boundary by the set that the reload leaves applied, or is the stop point. -/
theorem frameBoundaries : Obligations.FrameBoundaries := by
  intro s dark so top unmarked schedule schedules frame stopped bounds expiries
  have bounded {set : TimingSet} {coasting : Bool} {x : State} (h : s.Reloaded set coasting (reload x.counted)) :
      bounds set coasting (frameBoundary false x) := by
    cases enable : set.scanEnable with
    | false =>
      rw [frameBoundary_of_stop h.unasked (by rw [h.applied, enable])]
      exact ⟨h.applied, h.number, h.limit, fun yes => Bool.noConfusion (enable.symm.trans yes),
        fun _ => ⟨rfl, rfl, rfl, h.tracker, congrArg (· ++ [2]) h.pulses, h.out⟩⟩
    | true =>
      rw [frameBoundary_of_frame (by rw [h.applied, enable])]
      obtain ⟨applied, number, limit⟩ := h.counts
      obtain ⟨boundary, state, phase, timer, coasts, kill, cut, period, loss⟩ := h.engine
      refine ⟨applied, number, limit, fun _ => ⟨boundary, state, phase, timer, coasts, kill, cut, period, loss, ?_⟩,
        fun no => Bool.noConfusion (enable.symm.trans no)⟩
      rcases chosen : choosePresent s.tb.now set s.st.queue with ⟨dropped, taken, rest⟩
      cases taken with
      | some e => exact h.takes chosen
      | none => exact h.repeats chosen
  have running {P : Bool → State → Prop} (unasked : so.stopRequested = false)
      (period : P so.coasting (frameBoundary false s)) (loss : P true (frameBoundary false s.lost)) : expiries P := by
    have free : ¬ s.so.stopRequested = true := Bool.eq_false_iff.mp unasked
    have first : boundaryMoment false s = frameBoundary false s := if_neg free
    have second : syncLost s = frameBoundary false s.lost := if_neg free
    exact ⟨fun ends => ⟨_, first ▸ exec_framePeriodExpiry dark ends, period⟩,
      fun ends => ⟨_, second ▸ exec_syncLossExpiry dark ends, loss⟩⟩
  have taken {t set : TimingSet} {coasting : Bool} {x : State} (h : x.Reloaded set coasting (reload x.counted))
      (none : (reload x.counted).so.pendingSet = none) (outcome : ((reload x.counted).entry .timing).outcome = .taken)
      (event : (reload x.counted).pendingEvent .timingTaken = true)
      (free : t.sync = .free → (reload x.counted).so.measured = .none) :
      let u := frameBoundary false x
      u.so.pendingSet = .none ∧ (u.entry .timing).outcome = .taken ∧ u.pendingEvent .timingTaken = true ∧
      (t.sync = .free → u.so.measured = .none) := by
    obtain ⟨set, entry, measured, events⟩ := frameBoundary_leaves h.unasked
    exact ⟨set.trans none, (congrArg OutcomeEntry.outcome entry).trans outcome, events _ event, measured ∘ free⟩
  refine ⟨fun unasked => ⟨fun pending => running (P := fun coasting u =>
      bounds so.applied coasting u ∧ u.so.pendingSet = none) unasked ?_ ?_, fun t pending => running (P := fun coasting u =>
      bounds t (t.sync != .free && coasting) u ∧ u.so.pendingSet = none ∧ (u.entry .timing).outcome = .taken ∧
      u.pendingEvent .timingTaken = true ∧ (t.sync = .free → u.so.measured = none)) unasked ?_ ?_,
    fun t k pending => running (P := fun coasting u => bounds so.applied coasting u ∧ u.so.pendingSet = some (t, k))
      unasked ?_ ?_⟩, fun unasked ends => ?_, fun asked => ?_⟩
  · obtain ⟨reloaded, none⟩ := State.reloaded_of_none unasked pending
    exact ⟨bounded reloaded, (frameBoundary_leaves reloaded.unasked).1.trans none⟩
  · obtain ⟨reloaded, none⟩ := State.reloaded_of_none (s := s.lost) unasked pending
    exact ⟨bounded reloaded.of_lost, (frameBoundary_leaves reloaded.unasked).1.trans none⟩
  · obtain ⟨reloaded, none, outcome, event, free⟩ := State.reloaded_of_now unasked pending
    exact ⟨bounded reloaded, taken reloaded none outcome event free⟩
  · obtain ⟨reloaded, none, outcome, event, free⟩ := State.reloaded_of_now (s := s.lost) unasked pending
    exact ⟨bounded reloaded.of_lost, taken reloaded none outcome event free⟩
  · obtain ⟨reloaded, waits⟩ := State.reloaded_of_later unasked pending
    exact ⟨bounded reloaded, (frameBoundary_leaves reloaded.unasked).1.trans waits⟩
  · obtain ⟨reloaded, waits⟩ := State.reloaded_of_later (s := s.lost) unasked pending
    exact ⟨bounded reloaded.of_lost, (frameBoundary_leaves reloaded.unasked).1.trans waits⟩
  · refine ⟨_, exec_syncLossExpiry dark ends, ?_⟩
    have second : syncLost s = frameBoundary false s.lost := if_neg (Bool.eq_false_iff.mp unasked)
    rw [second]
    exact (frameBoundary_delivers false s.lost).events _ (raise_pendingEvent ..)
  · have first : boundaryMoment false s = stopPoint s := if_pos asked
    have second : syncLost s = stopPoint s := if_pos asked
    exact ⟨fun ends => ⟨_, first ▸ exec_framePeriodExpiry dark ends, stopPoint_shows asked⟩,
      fun ends => ⟨_, second ▸ exec_syncLossExpiry dark ends, stopPoint_shows asked⟩⟩

end Sys2Proof.Machine
end

section
/-!
PROOFS. The audio unit's arithmetic: samples and duties, capture frames, the dither generator, and the PWM lines (R112 to
R115).
-/
namespace Sys2Proof.Machine

/-! ### Samples (R112, R115) -/

theorem hold16_eq (v : Int) : hold16 v = if v < -32768 then -32768 else if 32767 < v then 32767 else v := by
  unfold hold16
  split
  · omega
  · split <;> omega

theorem hold16_bounds (v : Int) : -32768 ≤ hold16 v ∧ hold16 v ≤ 32767 := by
  unfold hold16
  omega

theorem dutyOf_cast {scaled : Int} (low : -32768 ≤ scaled) (bit : Nat) :
    (dutyOf scaled bit : Int) = min 1023 ((scaled + 32768).fdiv 64 + bit) := by
  rw [dutyOf, Int.fdiv_eq_ediv_of_nonneg _ (by decide)]
  omega

theorem mixSample_eq (r0 r1 : Int) (g0 g1 volume : Nat) (mute : Bool) :
    mixSample r0 r1 g0 g1 volume mute =
      if mute then 0 else hold16 ((hold16 ((r0 * g0 + r1 * g1).fdiv 256) * volume).fdiv 256) := by
  rw [mixSample, Int.fdiv_eq_ediv_of_nonneg _ (by decide), Int.fdiv_eq_ediv_of_nonneg _ (by decide)]

theorem mixSample_low (r0 r1 : Int) (g0 g1 volume : Nat) (mute : Bool) :
    -32768 ≤ mixSample r0 r1 g0 g1 volume mute := by
  rw [mixSample_eq]
  split
  · decide
  · exact (hold16_bounds _).1

theorem captureFrame_toInt (gain : Nat) (bits : U64) : (captureFrame gain bits).toInt =
    hold16 ((hold16 (((ones64 bits : Int) - 32) * 1024) * gain).fdiv 256) := by
  rw [captureFrame, Int.fdiv_eq_ediv_of_nonneg _ (by decide), BitVec.toInt_ofInt]
  obtain ⟨low, high⟩ := hold16_bounds (hold16 (((ones64 bits : Int) - 32) * 1024) * gain / 256)
  exact Int.bmod_eq_of_le (by omega) (by omega)

/-! ### The dither generator (R113) -/

theorem foldl_xor_eq {α : Type} (p : α → Bool) (l : List α) (b : Bool) :
    l.foldl (fun x i => xor x (p i)) b = xor b (decide ((l.filter p).length % 2 = 1)) := by
  induction l generalizing b with
  | nil => simp
  | cons a rest ih =>
    rw [List.foldl_cons, ih]
    cases h : p a with
    | false => simp [h]
    | true =>
      rw [List.filter_cons_of_pos h, List.length_cons]
      rcases Nat.mod_two_eq_zero_or_one (rest.filter p).length with even | odd
      · rw [show ((rest.filter p).length + 1) % 2 = 1 by omega, even]
        simp
      · rw [show ((rest.filter p).length + 1) % 2 = 0 by omega, odd]
        simp

theorem lfsrNext_bits (taps state : U16) :
    let x : U16 := if state = 0 then 1 else state
    ((lfsrNext taps state).getLsbD 0 = true ↔
      ((List.range 16).filter fun i => x.getLsbD i && taps.getLsbD i).length % 2 = 1) ∧
    ∀ i, i < 15 → (lfsrNext taps state).getLsbD (i + 1) = x.getLsbD i := by
  intro x
  have parity : parity16 (x &&& taps) =
      decide (((List.range 16).filter fun i => x.getLsbD i && taps.getLsbD i).length % 2 = 1) := by
    have same : BitVec.getLsbD (x &&& taps) = fun i => x.getLsbD i && taps.getLsbD i := by
      funext i
      exact BitVec.getLsbD_and
    rw [parity16, foldl_xor_eq, same, Bool.false_xor]
  have made : lfsrNext taps state = (x <<< 1) ||| (if parity16 (x &&& taps) then 1 else 0) := rfl
  rw [made, parity]
  generalize ((List.range 16).filter fun i => x.getLsbD i && taps.getLsbD i).length % 2 = p
  refine ⟨?_, fun i inside => ?_⟩
  · by_cases odd : p = 1 <;> simp [odd]
  · have short : i + 1 < 16 := by omega
    have bit : x[i] = x.getLsbD i := BitVec.getLsbD_eq_getElem (by omega) |>.symm
    by_cases odd : p = 1 <;> simp [odd, short, bit]

/-! ### The PWM lines (R114) -/

theorem Au.pwmActive_of_inside {a : Au} {d : Nat} {edge : Bool} (after : 0 < a.pwmPosition + 48)
    (before : 1024 * (a.pwmPosition + 48) ≤ 1000 * (d : Int)) : a.pwmActive d edge = true := by
  rw [Au.pwmActive, if_neg (by omega), if_pos before]

theorem Au.pwmActive_of_outside {a : Au} {d : Nat} {edge : Bool}
    (after : d = 0 ∨ 1000 * (d : Int) ≤ 1024 * a.pwmPosition) : a.pwmActive d edge = false := by
  rw [Au.pwmActive, if_pos (by omega)]

theorem lineDrive_shows (a : Au) (d : Nat) (edge : Bool) :
    let drive (x : SpeakerSelect) : Byte := a.lineDrive x d edge
    drive .low = 0 ∧ drive .released = 2 ∧
    (a.running = true → 0 < a.pwmPosition + 48 → 1024 * (a.pwmPosition + 48) ≤ 1000 * (d : Int) →
      drive .pwm = 1 ∧ drive .pwmInverted = 0) ∧
    (a.running = true → d = 0 ∨ 1000 * (d : Int) ≤ 1024 * a.pwmPosition → drive .pwm = 0 ∧ drive .pwmInverted = 1) ∧
    (a.running = false → drive .pwm = 0 ∧ drive .pwmInverted = 1) := by
  refine ⟨rfl, rfl, fun running after before => ?_, fun running after => ?_, fun halted => ?_⟩
  · simp [Au.lineDrive, running, Au.pwmActive_of_inside after before, speakerDrive]
  · simp [Au.lineDrive, running, Au.pwmActive_of_outside after, speakerDrive]
  · simp [Au.lineDrive, halted, speakerDrive]

theorem pwmPeriodBoundary_takes {s : State} (running : s.au.running = true) (next : s.au.pwmNext < 48)
    (begins : s.au.pwmNext * 1000 / 48 ≤ s.au.elapsed) :
    exec .pwmPeriodBoundary s = .next (s.onAu Au.pwmBoundary) :=
  congrArg Host.Outcome.next (if_pos (by simp [Au.pwmDue, running, next, begins]))

end Sys2Proof.Machine
end

section
/-!
PROOFS. The mix at an audio boundary: the frames in their places, the duties and the dither generator, and what becomes of
the fetches (R109, R110, R112, R113).
-/
namespace Sys2Proof.Machine

/-! ### Frames in their places (R110, R112) -/

/-- The frame that a period's reads give an output place. -/
def FetchPeriod.at (p : FetchPeriod) (place : Nat) : U32 :=
  let i := match p.corr with
    | .none => place
    | .drop => if place < 24 then place else place + 1
    | .again => if place = p.frames.length then place - 1 else place
  ((p.frames[i]?).bind (·.2)).getD 0

theorem placeFrames_length (p : FetchPeriod) : (placeFrames p).length = 48 := by
  simp only [placeFrames, List.length_take, List.length_append, List.length_replicate]
  omega

theorem getElem?_silent (l : List U32) {i : Nat} (inside : i < 48) :
    ((l ++ List.replicate (48 - l.length) 0).take 48)[i]? = some (l[i]?.getD 0) := by
  rw [List.getElem?_take_of_lt inside, List.getElem?_append]
  split
  next here => simp [here]
  next past =>
    rw [List.getElem?_eq_none (Nat.le_of_not_lt past), List.getElem?_replicate, if_pos (by omega)]
    rfl

theorem getD_of_read (frames : List (Nat × Option U32)) (i : Nat) :
    ((frames.map fun f => f.2.getD 0)[i]?).getD 0 = ((frames[i]?).bind (·.2)).getD 0 := by
  rw [List.getElem?_map]
  cases frames[i]? <;> rfl

theorem placeFrames_at (p : FetchPeriod) {i : Nat} (inside : i < 48) : (placeFrames p)[i]? = some (p.at i) := by
  rw [placeFrames, getElem?_silent _ inside, FetchPeriod.at]
  cases p.corr with
  | none => exact congrArg some (getD_of_read ..)
  | drop =>
    dsimp only
    rw [List.getElem?_eraseIdx]
    split
    · exact congrArg some (getD_of_read ..)
    · exact congrArg some (getD_of_read ..)
  | again =>
    dsimp only
    refine congrArg some (Eq.trans ?_ (getD_of_read ..))
    rw [List.getElem?_append, List.length_map]
    split
    next here => rw [if_neg (by omega)]
    next past =>
      by_cases last : i = p.frames.length
      · rw [if_pos last, last, Nat.sub_self, ← List.head?_eq_getElem?, List.getLast?_eq_getElem?, List.length_map]
        exact congrArg (Option.getD · 0) (Option.head?_toList ..)
      · have beyond : ((p.frames.map fun f => f.2.getD 0).getLast?.toList).length ≤ i - p.frames.length := by
          have short := Option.length_toList_le (o := (p.frames.map fun f => f.2.getD 0).getLast?)
          omega
        rw [if_neg last, List.getElem?_eq_none beyond, List.getElem?_eq_none (by rw [List.length_map]; omega)]

/-- The frame of a ring at an output place, and silence where it has none. -/
def Au.frameAt (a : Au) (ring : Fin 3) (place : Nat) : U32 :=
  match a.fetches.find? fun p => p.ring == ring && !p.mixed with
  | none => 0
  | some p => p.at place

theorem mixFrames_at (a : Au) (ring : Fin 3) :
    (mixFrames ring a.fetches).length = 48 ∧
    ∀ i, i < 48 → (mixFrames ring a.fetches)[i]? = some (a.frameAt ring i) := by
  unfold mixFrames Au.frameAt
  cases a.fetches.find? fun p => p.ring == ring && !p.mixed with
  | some p => exact ⟨placeFrames_length p, fun i inside => placeFrames_at p inside⟩
  | none => exact ⟨List.length_replicate, fun i inside => List.getElem?_replicate.trans (if_pos inside)⟩

/-! ### Duties (R112, R113) -/

/-- The state of the dither generator after `k` duties. -/
def AudioOut.dithered (o : AudioOut) (start : U16) : Nat → U16
  | 0 => start
  | k + 1 => if o.dither then lfsrNext o.taps (o.dithered start k) else o.dithered start k

theorem AudioOut.dithered_succ (o : AudioOut) (start : U16) (k : Nat) :
    o.dithered (o.dithered start 1) k = o.dithered start (k + 1) := by
  induction k with
  | zero => rfl
  | succ k ih =>
    change (if o.dither then lfsrNext o.taps (o.dithered (o.dithered start 1) k) else o.dithered (o.dithered start 1) k) = _
    rw [ih]
    rfl

theorem AudioOut.dithered_two (o : AudioOut) (start : U16) (k : Nat) :
    o.dithered (o.dithered start 2) k = o.dithered start (k + 2) := by
  rw [← o.dithered_succ start 1, o.dithered_succ, o.dithered_succ]

/-- The duty of one side's frames with a dither bit. -/
def AudioOut.duty (o : AudioOut) (g0 g1 : Nat) (side : Nat) (f0 f1 : U32) (bit : Bool) : Nat :=
  let sample (f : U32) : Int := (f.extractLsb' (16 * side) 16).toInt
  dutyOf (mixSample (sample f0) (sample f1) g0 g1 o.volume o.mute) (if o.dither && bit then 1 else 0)

theorem mixDuties_shows (o : AudioOut) (g0 g1 : Nat) (st : U16) {l0 l1 : List U32} (same : l0.length = l1.length) :
    let m := mixDuties o g0 g1 st l0 l1
    m.1.length = l0.length ∧ m.2 = o.dithered st (2 * l0.length) ∧
    ∀ i f0 f1, l0[i]? = some f0 → l1[i]? = some f1 → m.1[i]? = some
      (o.duty g0 g1 0 f0 f1 ((o.dithered st (2 * i + 1)).getLsbD 0),
       o.duty g0 g1 1 f0 f1 ((o.dithered st (2 * i + 2)).getLsbD 0)) := by
  induction l0 generalizing l1 st with
  | nil =>
    cases l1 with
    | nil => exact ⟨rfl, rfl, nofun⟩
    | cons => cases same
  | cons f0 rest ih =>
    cases l1 with
    | nil => cases same
    | cons f1 rest1 =>
      have step : mixDuties o g0 g1 st (f0 :: rest) (f1 :: rest1) =
          ((o.duty g0 g1 0 f0 f1 ((o.dithered st 1).getLsbD 0), o.duty g0 g1 1 f0 f1 ((o.dithered st 2).getLsbD 0)) ::
            (mixDuties o g0 g1 (o.dithered st 2) rest rest1).1,
            (mixDuties o g0 g1 (o.dithered st 2) rest rest1).2) := rfl
      obtain ⟨length, last, duties⟩ := ih (o.dithered st 2) (Nat.succ.inj same)
      rw [step]
      refine ⟨congrArg (· + 1) length, last.trans (o.dithered_two ..), fun i g0 g1 first second => ?_⟩
      cases i with
      | zero =>
        obtain rfl := Option.some.inj first
        obtain rfl := Option.some.inj second
        rfl
      | succ i =>
        refine (duties i g0 g1 first second).trans ?_
        rw [o.dithered_two, o.dithered_two]
        rfl

/-! ### The mix (R109, R112) -/

theorem settleFetches_mixed (ring : Fin 3) (blocked : Bool) {l : List FetchPeriod} (mixed : ∀ p ∈ l, p.mixed = true) :
    ∀ p ∈ (settleFetches ring blocked l).2, p.mixed = true := by
  induction l generalizing blocked with
  | nil => exact nofun
  | cons p rest ih =>
    obtain ⟨here, later⟩ := List.forall_mem_cons.mp mixed
    rw [settleFetches]
    split
    · exact List.forall_mem_cons.mpr ⟨here, ih blocked later⟩
    · split
      · exact List.forall_mem_cons.mpr ⟨here, ih true later⟩
      · exact ih false later

theorem settleRing_au (ring : Fin 3) (s : State) : ∃ n, (settleRing ring s).au = { s.au with
    fetches := (settleFetches ring false s.au.fetches).2
    rings := vmod s.au.rings ring fun r => { r with consume := r.consume + BitVec.ofNat 32 n } } := ⟨_, rfl⟩

/-- The mix before the rings settle. -/
def State.mixing (s : State) : State :=
  let a := s.au
  let d := mixDuties a.output (vget a.rings 0).gain (vget a.rings 1).gain a.lfsr
    (mixFrames 0 a.fetches) (mixFrames 1 a.fetches)
  let late (n : Fin 3) (r : AudioRing) : AudioRing := { r with lates := r.lates + BitVec.ofNat 32 (lateLines n a.fetches) }
  s.onAu fun a => { a with
    duties := d.1, lfsr := d.2, pwmNext := 0, fetches := a.fetches.map fun p => { p with mixed := true }
    rings := vmod (vmod a.rings 0 (late 0)) 1 (late 1) }

theorem audioMix_eq (s : State) : audioMix s = settleRing 1 (settleRing 0 s.mixing) := rfl

/-- The audio unit after a mix: the duties and the dither generator, the late reads, and every fetch mixed. -/
theorem audioMix_shows (s : State) :
    let a := s.au
    let m := audioMix s
    let d := mixDuties a.output (vget a.rings 0).gain (vget a.rings 1).gain a.lfsr
      (mixFrames 0 a.fetches) (mixFrames 1 a.fetches)
    m.au = { a with duties := d.1, lfsr := d.2, pwmNext := 0, fetches := m.au.fetches, rings := m.au.rings } ∧
    (∀ p ∈ m.au.fetches, p.mixed = true) ∧ vget m.au.rings 2 = vget a.rings 2 ∧
    ∀ n : Fin 3, n ≠ 2 → ∃ consume, vget m.au.rings n = { vget a.rings n with
      lates := (vget a.rings n).lates + BitVec.ofNat 32 (lateLines n a.fetches), consume } := by
  intro a m d
  obtain ⟨k0, first⟩ := settleRing_au 0 s.mixing
  obtain ⟨k1, second⟩ := settleRing_au 1 (settleRing 0 s.mixing)
  rw [← audioMix_eq] at second
  change m.au = _ at second
  have all : ∀ p ∈ s.mixing.au.fetches, p.mixed = true := by
    intro p mem
    obtain ⟨q, -, rfl⟩ := List.mem_map.mp mem
    rfl
  have unit : m.au = { a with
      duties := d.1, lfsr := d.2, pwmNext := 0, fetches := m.au.fetches, rings := m.au.rings } := by
    rw [second, first]
    rfl
  have rings : m.au.rings = vmod (vmod s.mixing.au.rings 0 fun r => { r with consume := r.consume + BitVec.ofNat 32 k0 })
      1 fun r => { r with consume := r.consume + BitVec.ofNat 32 k1 } := by
    rw [second, first]
  refine ⟨unit, ?_, ?_, fun n play => ?_⟩
  · rw [second, first]
    exact settleFetches_mixed 1 false (settleFetches_mixed 0 false all)
  · rw [rings, vget_vmod_ne _ _ (by decide), vget_vmod_ne _ _ (by decide)]
    exact (vget_vmod_ne _ _ (by decide)).trans (vget_vmod_ne _ _ (by decide))
  · have which : n = 0 ∨ n = 1 := by omega
    rw [rings]
    rcases which with rfl | rfl
    · rw [vget_vmod_ne _ _ (by decide), vget_vmod_same]
      have late : vget s.mixing.au.rings 0 = { vget a.rings 0 with
          lates := (vget a.rings 0).lates + BitVec.ofNat 32 (lateLines 0 a.fetches) } :=
        (vget_vmod_ne _ _ (by decide)).trans (vget_vmod_same ..)
      rw [late]
      exact ⟨_, rfl⟩
    · rw [vget_vmod_same, vget_vmod_ne _ _ (by decide)]
      have late : vget s.mixing.au.rings 1 = { vget a.rings 1 with
          lates := (vget a.rings 1).lates + BitVec.ofNat 32 (lateLines 1 a.fetches) } :=
        (vget_vmod_same ..).trans (by rw [vget_vmod_ne _ _ (by decide)])
      rw [late]
      exact ⟨_, rfl⟩

end Sys2Proof.Machine
end

section
/-!
PROOFS. The microphone's block at an audio boundary: ring 2, the block's writes, and the uplink's copy (R90, R92, R115).
-/
namespace Sys2Proof.Machine

/-! ### Events that others leave -/

theorem raise_pendingEvent_ne {j k : EventKind} (other : j ≠ k) (s : State) :
    (raise k s).pendingEvent j = s.pendingEvent j := by
  rw [State.pendingEvent, raise_pending, decide_eq_false other, Bool.false_or]
  rfl

theorem uplinkJoin_pendingEvent_ne {k : EventKind} (other : k ≠ .uplinkFull) (content : Content) (s : State) :
    (uplinkJoin content s).pendingEvent k = s.pendingEvent k := by
  unfold uplinkJoin
  dsimp only
  split
  · rfl
  · rfl
  · split
    · exact raise_pendingEvent_ne other _
    · exact laneKick_pendingEvent ..

/-! ### A packet of no class is chosen where nothing else is (R92) -/

/-- A lane without a class to serve sends the oldest entry of no class. -/
theorem Tc.choice_of_unclassed {t : Tc} (ack : t.ackRequest = false) (echo : t.echoRequest = none)
    (keep : t.keepRequest = false) (restricted : t.restricted = false) (classes : ∀ c, t.classChoice c = none) :
    t.choice = (t.queue.find? fun e => e.content.seqClass == none).map .first := by
  simp [Tc.choice, ack, echo, keep, restricted, classes]

theorem Tc.idle_of_choice_none {t : Tc} (idle : t.choice = none) :
    t.ackRequest = false ∧ t.echoRequest = none ∧ t.keepRequest = false ∧
    (t.restricted = false → (∀ c, t.classChoice c = none) ∧
      t.queue.find? (fun e => e.content.seqClass == none) = none) := by
  unfold Tc.choice at idle
  split at idle
  · cases idle
  next ack =>
    split at idle
    · cases idle
    next echo =>
      split at idle
      · cases idle
      next keep =>
        refine ⟨Bool.of_not_eq_true ack, echo, Bool.of_not_eq_true keep, fun free => ?_⟩
        rw [if_neg (by simp [free])] at idle
        simp only [Option.or_eq_none_iff, Option.map_eq_none_iff] at idle
        obtain ⟨photon, sensor, message, rest⟩ := idle
        exact ⟨fun | 0 => photon | 1 => sensor | 2 => message, rest⟩

theorem Tc.choice_of_joined {t : Tc} {e : UplinkEntry} (idle : t.choice = none) (restricted : t.restricted = false)
    (unsequenced : e.content.seqClass = none) : ({ t with queue := t.queue ++ [e] } : Tc).choice = some (.first e) := by
  obtain ⟨ack, echo, keep, nothing⟩ := Tc.idle_of_choice_none idle
  obtain ⟨classes, rest⟩ := nothing restricted
  have same (c : Fin 3) : ({ t with queue := t.queue ++ [e] } : Tc).classChoice c = none := by
    obtain ⟨history, queue⟩ := Tc.classChoice_eq_none_iff.mp (classes c)
    refine Tc.classChoice_eq_none_iff.mpr ⟨history, fun fill q mem => ?_⟩
    rcases List.mem_append.mp mem with old | new
    · exact queue fill q old
    · rw [List.mem_singleton.mp new, unsequenced]
      exact nofun
  rw [Tc.choice_of_unclassed (t := { t with queue := t.queue ++ [e] }) ack echo keep restricted same]
  have found : (t.queue ++ [e]).find? (fun e => e.content.seqClass == none) = some e := by
    rw [List.find?_append, rest]
    simp [unsequenced]
  exact congrArg (Option.map Choice.first) found

/-- An entry of no class that joins an idle lane is what the lane sends. -/
theorem uplinkJoin_of_idle {frames : List U16} {s : State} (up : s.tc.link = .up) (free : s.tc.lane = .free)
    (idle : s.tc.choice = none) (restricted : s.tc.restricted = false) (room : s.tc.queue.length < 32) :
    let packet := uplinkPacket 0x34 false false 0 (frames.flatMap fun f => toBytes 2 f.toNat)
    (uplinkJoin (.audioIn frames) s).tc.lane = .sending packet s.nextId (laneTime packet) := by
  intro packet
  let joined : Tc := { s.tc with queue := s.tc.queue ++ [⟨s.nextId, .audioIn frames⟩] }
  have choice : joined.choice = some (.first ⟨s.nextId, .audioIn frames⟩) :=
    Tc.choice_of_joined idle restricted rfl
  have kicked := laneKick_of_choice (s := s.fresh.2.onTc fun _ => joined) up free choice
  rw [uplinkJoin_of_room (Or.inl up) room]
  exact (congrArg (fun t : State => t.tc.lane) kicked :)

/-! ### The block (R115) -/

/-- The line writes of a block of capture frames in ring 2. -/
def AudioRing.blockWrites (r : AudioRing) (frames : List U16) : List (Nat × List (Nat × Byte)) :=
  frameWrites 2 (ringSpans r.base 2 r.capacity r.issued.toNat 16) (frames.flatMap fun f => toBytes 2 f.toNat)

theorem AudioRing.blockWrites_lays (r : AudioRing) {frames : List U16} (length : frames.length = 16)
    (room : 16 ≤ r.capacity) :
    laysBytes (r.blockWrites frames) (fun i => r.base + 2 * ((r.issued.toNat + i / 2) % r.capacity) + i % 2)
      (frames.flatMap fun f => toBytes 2 f.toNat) := by
  refine frameWrites_lays _ _ _ _ _ _ (by decide) room ?_
  rw [flatMap_toBytes_length, length]

/-- The part with a block captured to ring 2 or dropped, before the uplink's copy. -/
def State.captured (frames : List U16) (s : State) : State :=
  let r := vget s.au.rings 2
  if !r.enabled then s
  else if r.capacity < (r.issued - r.consume).toNat + 16 then
    raise .audioOverrun (s.onRing 2 fun r => { r with overruns := r.overruns + 16 })
  else
    requestWrites (.capture s.nextId) (r.blockWrites frames)
      (((s.fresh.2).onAu fun a => { a with blocks := a.blocks ++ [⟨s.nextId, (r.blockWrites frames).length⟩] }).onRing 2
        fun r => { r with issued := r.issued + 16 })

theorem micBlock_eq (pdm : List U64) (s : State) : micBlock pdm s =
    let frames := captureFrames (vget s.au.rings 2).gain pdm
    if (vget s.au.rings 2).uplink = 1 then uplinkJoin (.audioIn frames) (s.captured frames) else s.captured frames := rfl

section
variable {s : State} {frames : List U16}

theorem State.captured_of_disabled (disabled : (vget s.au.rings 2).enabled = false) : s.captured frames = s :=
  if_pos (by rw [disabled]; rfl)

theorem State.captured_of_full (enabled : (vget s.au.rings 2).enabled = true)
    (full : (vget s.au.rings 2).capacity < ((vget s.au.rings 2).issued - (vget s.au.rings 2).consume).toNat + 16) :
    s.captured frames = raise .audioOverrun (s.onRing 2 fun r => { r with overruns := r.overruns + 16 }) :=
  (if_neg (by simp [enabled])).trans (if_pos full)

theorem State.captured_of_room (enabled : (vget s.au.rings 2).enabled = true)
    (room : ((vget s.au.rings 2).issued - (vget s.au.rings 2).consume).toNat + 16 ≤ (vget s.au.rings 2).capacity) :
    s.captured frames = requestWrites (.capture s.nextId) ((vget s.au.rings 2).blockWrites frames)
      (((s.fresh.2).onAu fun a => { a with
          blocks := a.blocks ++ [⟨s.nextId, ((vget s.au.rings 2).blockWrites frames).length⟩] }).onRing 2
        fun r => { r with issued := r.issued + 16 }) :=
  (if_neg (by simp [enabled])).trans (if_neg (Nat.not_lt.mpr room))

theorem State.captured_brings (frames : List U16) (s : State) : s.Brings (s.captured frames) :=
  .ite (fun _ => .refl s) fun _ => .ite (fun _ => .after (raise_brings ..) (onRing_brings ..)) fun _ =>
    .after (requestWrites_brings ..) (.of_same rfl rfl)

/-- What a block leaves unchanged. -/
theorem State.captured_keeps (frames : List U16) (s : State) :
    let u := s.captured frames
    u.tc = s.tc ∧ u.tm = s.tm ∧ u.au = { s.au with rings := u.au.rings, blocks := u.au.blocks } ∧
    u.pendingEvent .audioUnderrun = s.pendingEvent .audioUnderrun ∧
    ∀ n : Fin 3, n ≠ 2 → vget u.au.rings n = vget s.au.rings n := by
  intro u
  have moved (f : AudioRing → AudioRing) (n : Fin 3) (other : n ≠ 2) : vget (vmod s.au.rings 2 f) n = vget s.au.rings n :=
    vget_vmod_ne _ _ other.symm
  simp only [u]
  by_cases enabled : (vget s.au.rings 2).enabled = true
  · by_cases room : ((vget s.au.rings 2).issued - (vget s.au.rings 2).consume).toNat + 16 ≤ (vget s.au.rings 2).capacity
    · rw [s.captured_of_room enabled room, requestWrites_requests]
      exact ⟨rfl, rfl, rfl, rfl, moved _⟩
    · rw [s.captured_of_full enabled (Nat.lt_of_not_le room)]
      exact ⟨rfl, rfl, rfl, raise_pendingEvent_ne (by decide) _, moved _⟩
  · rw [s.captured_of_disabled (Bool.of_not_eq_true enabled)]
    exact ⟨rfl, rfl, rfl, rfl, fun _ _ => rfl⟩

/-- The ring, its writes and its blocks after a block of 16 frames. -/
theorem State.captured_shows (s : State) {frames : List U16} (length : frames.length = 16) :
    let u := s.captured frames
    let r := vget s.au.rings 2
    let room : Prop := (r.issued - r.consume).toNat + 16 ≤ r.capacity
    (r.enabled = false → vget u.au.rings 2 = r ∧ u.au.blocks = s.au.blocks) ∧
    (r.enabled = true → room → vget u.au.rings 2 = { r with issued := r.issued + 16 } ∧
      laysBytes (r.blockWrites frames) (fun i => r.base + 2 * ((r.issued.toNat + i / 2) % r.capacity) + i % 2)
        (frames.flatMap fun f => toBytes 2 f.toNat) ∧
      (∀ w ∈ r.blockWrites frames, ⟨.capture s.nextId, w.1, .write w.2⟩ ∈ u.da.all) ∧
      u.au.blocks = s.au.blocks ++ [⟨s.nextId, (r.blockWrites frames).length⟩]) ∧
    (r.enabled = true → ¬ room → vget u.au.rings 2 = { r with overruns := r.overruns + 16 } ∧
      u.au.blocks = s.au.blocks ∧ u.pendingEvent .audioOverrun = true) := by
  intro u r room
  refine ⟨fun disabled => ?_, fun enabled fits => ?_, fun enabled full => ?_⟩
  · simp only [u]
    rw [s.captured_of_disabled disabled]
    exact ⟨rfl, rfl⟩
  · have made : u = _ := s.captured_of_room enabled fits
    rw [made]
    refine ⟨?_, r.blockWrites_lays length (Nat.le_trans (Nat.le_add_left ..) fits), fun w mem => ?_, ?_⟩
    · rw [requestWrites_requests]
      exact vget_vmod_same ..
    · exact mem_requestWrites mem (frameWrites_ne_nil mem)
    · rw [requestWrites_requests]
      rfl
  · have made : u = _ := s.captured_of_full enabled (Nat.lt_of_not_le full)
    rw [made]
    exact ⟨vget_vmod_same .., rfl, raise_pendingEvent ..⟩

end

/-! ### The block and the uplink's copy -/

theorem micBlock_brings (pdm : List U64) (s : State) : s.Brings (micBlock pdm s) := by
  rw [micBlock_eq]
  exact .ite (fun _ => .after (uplinkJoin_brings ..) (State.captured_brings ..)) fun _ => State.captured_brings ..

theorem captureFrames_length (gain : Nat) (pdm : List U64) : (captureFrames gain pdm).length = 16 := by
  simp [captureFrames]

/-- The units after a block: the uplink's copy is TC's alone. -/
theorem micBlock_au (pdm : List U64) (s : State) :
    (micBlock pdm s).au = (s.captured (captureFrames (vget s.au.rings 2).gain pdm)).au ∧
    (micBlock pdm s).tm = s.tm ∧ (micBlock pdm s).pendingEvent .audioUnderrun = s.pendingEvent .audioUnderrun := by
  obtain ⟨-, pulses, -, under, -⟩ := s.captured_keeps (captureFrames (vget s.au.rings 2).gain pdm)
  rw [micBlock_eq]
  dsimp only
  split
  · exact ⟨by simp, by simpa using pulses, (uplinkJoin_pendingEvent_ne (by decide) ..).trans under⟩
  · exact ⟨rfl, pulses, under⟩

/-- The uplink's copy of a block. -/
theorem micBlock_uplink (pdm : List U64) (s : State) :
    let u := micBlock pdm s
    let r := vget s.au.rings 2
    let frames := captureFrames r.gain pdm
    (r.uplink ≠ 1 → u.tc = s.tc) ∧
    (r.uplink = 1 → ¬ s.tc.link.linked →
      u.tc = { s.tc with unlinked := vset s.tc.unlinked 3 (vget s.tc.unlinked 3 + 1) }) ∧
    (r.uplink = 1 → s.tc.link.linked → 32 ≤ s.tc.queue.length → u.pendingEvent .uplinkFull = true ∧
      u.tc = { s.tc with fullDrops := vset s.tc.fullDrops 3 (vget s.tc.fullDrops 3 + 1) }) ∧
    (r.uplink = 1 → s.tc.link.linked → s.tc.queue.length < 32 → ∃ id,
      (s.tc.link = .recovery ∨ s.tc.lane ≠ .free →
        u.tc = { s.tc with queue := s.tc.queue ++ [⟨id, .audioIn frames⟩] }) ∧
      (s.tc.link = .up → s.tc.lane = .free → s.tc.choice = none → s.tc.restricted = false →
        let packet := uplinkPacket 0x34 false false 0 (frames.flatMap fun f => toBytes 2 f.toNat)
        u.tc.lane = .sending packet id (laneTime packet))) := by
  intro u r frames
  obtain ⟨link, -⟩ := s.captured_keeps frames
  have made : u = _ := micBlock_eq pdm s
  have copied (asked : r.uplink = 1) : u = uplinkJoin (.audioIn frames) (s.captured frames) := made.trans (if_pos asked)
  obtain ⟨unlinked, full, held⟩ := uplinkJoin_shows (.audioIn frames) (s.captured frames)
  rw [link] at unlinked full held
  refine ⟨fun none => ?_, fun asked dark => ?_, fun asked linked most => ?_, fun asked linked room =>
    ⟨(s.captured frames).nextId, fun busy => ?_, fun up free idle restricted => ?_⟩⟩
  · exact (congrArg State.tc (made.trans (if_neg none))).trans link
  · rw [copied asked]
    exact unlinked dark
  · rw [copied asked]
    exact full linked most
  · rw [copied asked]
    exact held linked room busy
  · rw [copied asked]
    exact uplinkJoin_of_idle (by rw [link]; exact up) (by rw [link]; exact free) (by rw [link]; exact idle)
      (by rw [link]; exact restricted) (by rw [link]; exact room)

end Sys2Proof.Machine
end

section
/-!
PROOFS. The choice of a playback ring at an audio boundary: the frames it takes, its reads, and the drift correction (R108
to R110).
-/
namespace Sys2Proof.Machine

/-! ### What a ring has and takes (R108, R110) -/

/-- The frames that a ring has and has not taken. -/
def Au.avail (a : Au) (n : Fin 3) : Nat := ((vget a.rings n).produce - (vget a.rings n).taken).toNat

/-- A ring plays at a boundary: it is PLAYING, or PRIMING with its threshold reached. -/
def Au.plays (a : Au) (n : Fin 3) : Prop := (vget a.rings n).play = .playing ∨
  ((vget a.rings n).play = .priming ∧ (vget a.rings n).threshold ≤ a.avail n)

/-- The correction that a ring makes at a boundary. -/
def Au.corr (a : Au) (n : Fin 3) : Correction := if n = 0 ∧ a.scheduled.count ≤ a.avail 0 then a.scheduled else .none

/-- The frames that a ring takes at a boundary. -/
def Au.count (a : Au) (n : Fin 3) : Nat := min (a.avail n) (a.corr n).count

/-- The lines that a ring's reads take at a boundary. -/
def Au.lines (a : Au) (n : Fin 3) : List Nat :=
  let r := vget a.rings n
  spanLines 4 (ringSpans r.base 4 r.capacity r.taken.toNat (a.count n))

/-- The fetch period that a ring adds at a boundary. -/
def Au.period (a : Au) (n : Fin 3) (id : Nat) : FetchPeriod :=
  let r := vget a.rings n
  { id, ring := n, corr := a.corr n, count := a.count n, left := (a.lines n).length, mixed := false
    frames := (frameAddrs r.base 4 r.capacity r.taken.toNat (a.count n)).map fun x => (x, none) }

theorem Au.count_le (a : Au) (n : Fin 3) : a.count n ≤ 49 ∧ a.count n ≤ a.avail n := by
  have most (c : Correction) : c.count ≤ 49 := by cases c <;> decide
  exact ⟨Nat.le_trans (Nat.min_le_right ..) (most _), Nat.min_le_left ..⟩

theorem Au.corr_of_short {a : Au} {n : Fin 3} (short : a.avail n < (a.corr n).count) : a.corr n = .none := by
  unfold Au.corr at short ⊢
  split
  next fits =>
    rw [if_pos fits] at short
    obtain ⟨rfl, fits⟩ := fits
    omega
  · rfl

theorem Au.corr_eq (a : Au) (n : Fin 3) : a.corr n =
    let sched := if n = 0 then a.scheduled else .none
    if sched.count ≤ a.avail n then sched else .none := by
  unfold Au.corr
  by_cases main : n = 0
  · subst main
    simp
  · simp [main]

/-! ### One choice (R108 to R110) -/

/-- The part with a ring's frames taken, its correction counted and, for ring 0, its fill compared. -/
def State.fed (n : Fin 3) (s : State) : State :=
  let t := (takeFrames n (s.au.count n) (s.au.corr n) s).onAu (Au.countCorrection (s.au.corr n))
  if n = 0 then driftStep t else t

/-- The part with a ring that has no frame. -/
def State.starved (n : Fin 3) (s : State) : State :=
  underrun n ((s.onRing n fun r => { r with play := .priming }).onAu (Au.dropDrift n))

section
variable {n : Fin 3} {s : State}

theorem choosePlaying_of_empty (empty : s.au.avail n = 0) : choosePlaying n s = s.starved n := if_pos empty

theorem choosePlaying_of_frames (some : s.au.avail n ≠ 0) : choosePlaying n s =
    if s.au.avail n < (s.au.corr n).count then underrun n (s.fed n) else s.fed n := by
  have chosen := s.au.corr_eq n
  have unfolded : choosePlaying n s = if s.au.avail n < (s.au.corr n).count then
      underrun n (if n = 0 then driftStep (takeFrames n (s.au.avail n) .none s) else takeFrames n (s.au.avail n) .none s)
    else
      let t := (takeFrames n (s.au.corr n).count (s.au.corr n) s).onAu (Au.countCorrection (s.au.corr n))
      if n = 0 then driftStep t else t := by
    rw [chosen]
    exact if_neg some
  rw [unfolded]
  split
  next short =>
    have none := Au.corr_of_short short
    have all : s.au.count n = s.au.avail n := Nat.min_eq_left (Nat.le_of_lt short)
    rw [State.fed, all, none]
    rfl
  next enough =>
    have all : s.au.count n = (s.au.corr n).count := Nat.min_eq_right (Nat.not_lt.mp enough)
    rw [State.fed, all]

theorem chooseFrames_of_idle (idle : ¬ s.au.plays n) : chooseFrames n s = s := by
  simp only [Au.plays, not_or, not_and] at idle
  obtain ⟨playing, priming⟩ := idle
  unfold chooseFrames
  dsimp only
  split
  · rfl
  next primed => exact if_neg (priming primed)
  next plays => exact absurd plays playing

/-- The part with a ring PLAYING. -/
def State.played (n : Fin 3) (s : State) : State := s.onRing n fun r => { r with play := .playing }

theorem chooseFrames_of_plays (plays : s.au.plays n) : chooseFrames n s = choosePlaying n (s.played n) := by
  have same (playing : (vget s.au.rings n).play = .playing) : s.played n = s := by
    have ring : ({ vget s.au.rings n with play := .playing } : AudioRing) = vget s.au.rings n := by rw [← playing]
    have rings : vmod s.au.rings n (fun r => { r with play := .playing }) = s.au.rings :=
      (congrArg (vset s.au.rings n) ring).trans (vset_vget ..)
    rw [State.played, State.onRing, State.onAu, rings]
  unfold chooseFrames
  dsimp only
  split
  next stopped => simp [Au.plays, stopped] at plays
  next primed =>
    have reached : (vget s.au.rings n).threshold ≤ s.au.avail n := by simpa [Au.plays, primed] using plays
    exact if_pos reached
  next playing => rw [same playing]

end

/-! ### What a choice leaves (R108 to R110) -/

/-- The unit with a ring's frames taken. -/
def Au.took (n : Fin 3) (id : Nat) (a : Au) : Au :=
  { a with fetches := a.fetches ++ [a.period n id]
           rings := vmod a.rings n fun r => { r with taken := r.taken + BitVec.ofNat 32 (a.count n) } }

/-- Ring 0's fill compared. -/
def Au.drifted (a : Au) : Au :=
  let c := if a.driftCount = 10 then 1 else a.driftCount + 1
  { a with driftCount := c
           scheduled := if c = 10 then driftCorrection (vget a.rings 0).threshold (a.avail 0) else .none }

theorem Au.countCorrection_eq (c : Correction) (a : Au) : a.countCorrection c =
    { a with dropCorrs := a.dropCorrs + if c = .drop then 1 else 0
             repeatCorrs := a.repeatCorrs + if c = .again then 1 else 0 } := by
  cases c <;> simp [Au.countCorrection]

theorem takeFrames_eq (n : Fin 3) (s : State) : takeFrames n (s.au.count n) (s.au.corr n) s =
    requestReads (.fetch s.nextId) (s.au.lines n) (s.fresh.2.onAu (Au.took n s.nextId)) := rfl

theorem State.fed_au (n : Fin 3) (s : State) : (s.fed n).au =
    let b := (s.au.took n s.nextId).countCorrection (s.au.corr n)
    if n = 0 then b.drifted else b := by
  have took : (takeFrames n (s.au.count n) (s.au.corr n) s).au = s.au.took n s.nextId := by
    rw [takeFrames_eq, requestReads_eq]
    rfl
  rw [← took]
  by_cases main : n = 0
  · rw [State.fed, if_pos main, if_pos main]
    rfl
  · rw [State.fed, if_neg main, if_neg main]
    rfl

/-- Beside the frames taken, the unit alone moves. -/
theorem State.fed_takes (n : Fin 3) (s : State) :
    ∃ f, s.fed n = (takeFrames n (s.au.count n) (s.au.corr n) s).onAu f := by
  unfold State.fed
  generalize takeFrames n (s.au.count n) (s.au.corr n) s = t
  by_cases main : n = 0
  · exact ⟨fun a => (a.countCorrection (s.au.corr n)).drifted, if_pos main⟩
  · exact ⟨Au.countCorrection (s.au.corr n), if_neg main⟩

/-- What taking frames leaves, and the reads it makes. -/
theorem State.fed_keeps (n : Fin 3) (s : State) : (s.fed n).tc = s.tc ∧ (s.fed n).tm = s.tm ∧ (s.fed n).eu = s.eu ∧
    ∀ line ∈ s.au.lines n, ⟨.fetch s.nextId, line, .read⟩ ∈ (s.fed n).da.all := by
  obtain ⟨f, made⟩ := s.fed_takes n
  rw [made]
  refine ⟨by simp, by simp, by simp, fun line mem => ?_⟩
  rw [State.onAu_da, takeFrames_eq]
  exact mem_requestReads mem

/-- What the choice of a ring that plays leaves. -/
structure State.Chosen (n : Fin 3) (s u : State) : Prop where
  uplink : u.tc = s.tc
  pulses : u.tm = s.tm
  others : ∀ k, k ≠ n → vget u.au.rings k = vget s.au.rings k
  unit : u.au = { s.au with
    rings := u.au.rings, fetches := u.au.fetches, driftCount := u.au.driftCount, scheduled := u.au.scheduled
    dropCorrs := u.au.dropCorrs, repeatCorrs := u.au.repeatCorrs }
  ring : ∃ underruns, vget u.au.rings n = { vget s.au.rings n with
    play := if s.au.avail n = 0 then .priming else .playing
    taken := (vget s.au.rings n).taken + BitVec.ofNat 32 (s.au.count n), underruns }
  short : s.au.avail n < (s.au.corr n).count →
    (vget u.au.rings n).underruns = (vget s.au.rings n).underruns + 1 ∧ u.pendingEvent .audioUnderrun = true
  enough : ¬ s.au.avail n < (s.au.corr n).count →
    (vget u.au.rings n).underruns = (vget s.au.rings n).underruns ∧
    u.pendingEvent .audioUnderrun = s.pendingEvent .audioUnderrun
  empty : s.au.avail n = 0 → u.au.fetches = s.au.fetches
  fetched : s.au.avail n ≠ 0 → u.au.fetches = s.au.fetches ++ [s.au.period n s.nextId] ∧
    ∀ line ∈ s.au.lines n, ⟨.fetch s.nextId, line, .read⟩ ∈ u.da.all

/-- What the choice of a ring that plays leaves of the drift correction: ring 0's alone moves. -/
structure Au.Drifts (n : Fin 3) (a b : Au) : Prop where
  others : n ≠ 0 → b.driftCount = a.driftCount ∧ b.scheduled = a.scheduled ∧ b.dropCorrs = a.dropCorrs ∧
    b.repeatCorrs = a.repeatCorrs
  made : n = 0 → b.dropCorrs = a.dropCorrs + (if a.avail 0 ≠ 0 ∧ a.corr 0 = .drop then 1 else 0) ∧
    b.repeatCorrs = a.repeatCorrs + (if a.avail 0 ≠ 0 ∧ a.corr 0 = .again then 1 else 0)
  empty : n = 0 → a.avail 0 = 0 → b.driftCount = 0 ∧ b.scheduled = .none
  compared : n = 0 → a.avail 0 ≠ 0 → b.driftCount = (if a.driftCount = 10 then 1 else a.driftCount + 1) ∧
    b.scheduled = if (if a.driftCount = 10 then 1 else a.driftCount + 1) = 10 then
      driftCorrection (vget a.rings 0).threshold (a.avail 0 - a.count 0) else .none

theorem avail_after_take {produce taken : U32} {count : Nat} (most : count ≤ (produce - taken).toNat) :
    (produce - (taken + BitVec.ofNat 32 count)).toNat = (produce - taken).toNat - count := by
  have bound := (produce - taken).isLt
  have less : (BitVec.ofNat 32 count).toNat = count := by
    rw [BitVec.toNat_ofNat]
    exact Nat.mod_eq_of_lt (by omega)
  have same : produce - (taken + BitVec.ofNat 32 count) = produce - taken - BitVec.ofNat 32 count := by bv_omega
  rw [same, BitVec.toNat_sub_of_le (by rw [BitVec.le_def, less]; exact most), less]

theorem Au.took_avail (a : Au) (n : Fin 3) (id : Nat) : (a.took n id).avail n = a.avail n - a.count n := by
  rw [Au.avail, Au.took, vget_vmod_same]
  exact avail_after_take (a.count_le n).2

end Sys2Proof.Machine
end

section
/-!
PROOFS. The choice of a playing ring, case by case: no frame, too few, and enough (R108 to R110).
-/
namespace Sys2Proof.Machine

section
variable (n : Fin 3) (s : State)

theorem State.fed_unit : (s.fed n).au = { (s.au.took n s.nextId) with
    driftCount := (s.fed n).au.driftCount, scheduled := (s.fed n).au.scheduled
    dropCorrs := (s.fed n).au.dropCorrs, repeatCorrs := (s.fed n).au.repeatCorrs } := by
  rw [State.fed_au, Au.countCorrection_eq]
  dsimp only
  split <;> rfl

theorem State.fed_drifts : s.au.avail n ≠ 0 → s.au.Drifts n (s.fed n).au := by
  intro some
  rw [State.fed_au, Au.countCorrection_eq]
  dsimp only
  by_cases main : n = 0
  · subst main
    rw [if_pos rfl]
    refine ⟨fun other => absurd rfl other, fun _ => ?_, fun _ empty => absurd empty some, fun _ _ => ⟨rfl, ?_⟩⟩
    · simp [Au.drifted, Au.took, some]
    · have left := s.au.took_avail 0 s.nextId
      have same : (vget (s.au.took 0 s.nextId).rings 0).threshold = (vget s.au.rings 0).threshold := by
        rw [Au.took, vget_vmod_same]
      rw [← left, ← same]
      rfl
  · rw [if_neg main]
    have none : s.au.corr n = .none := if_neg fun both => main both.1
    refine ⟨fun _ => ?_, fun yes => absurd yes main, fun yes => absurd yes main, fun yes => absurd yes main⟩
    simp [Au.took, none]

/-- The unit with a ring that had no frame. -/
def Au.starved (n : Fin 3) (a : Au) : Au :=
  { a with
    rings := vmod (vmod a.rings n fun r => { r with play := .priming }) n fun r => { r with underruns := r.underruns + 1 }
    driftCount := if n = 0 then 0 else a.driftCount
    scheduled := if n = 0 then .none else a.scheduled }

theorem State.starved_au : (s.starved n).au = s.au.starved n := by
  have dropped (a : Au) : a.dropDrift n = { a with
      driftCount := if n = 0 then 0 else a.driftCount, scheduled := if n = 0 then .none else a.scheduled } := by
    unfold Au.dropDrift
    split <;> rfl
  have made : (s.starved n).au = (raise .audioUnderrun (((s.onRing n fun r => { r with play := .priming }).onAu
    (Au.dropDrift n)).onRing n fun r => { r with underruns := r.underruns + 1 })).au := rfl
  rw [made, funext dropped]
  rfl

theorem Au.starved_drifts {a : Au} {n : Fin 3} (empty : a.avail n = 0) : a.Drifts n (a.starved n) := by
  refine ⟨fun other => ⟨if_neg other, if_neg other, rfl, rfl⟩, ?_, fun main _ => ⟨if_pos main, if_pos main⟩, ?_⟩
  · rintro rfl
    simp [Au.starved, empty]
  · rintro rfl some
    exact absurd empty some

/-! ### A ring set PLAYING -/

@[simp] theorem State.played_avail : (s.played n).au.avail n = s.au.avail n := by
  simp [Au.avail, State.played, State.onRing]

@[simp] theorem State.played_corr : (s.played n).au.corr n = s.au.corr n := by
  have same := s.played_avail 0
  by_cases main : n = 0
  · subst main
    simp only [Au.corr, same]
    rfl
  · rw [Au.corr, Au.corr, if_neg fun both => main both.1, if_neg fun both => main both.1]

@[simp] theorem State.played_count : (s.played n).au.count n = s.au.count n := by
  simp [Au.count]

@[simp] theorem State.played_lines : (s.played n).au.lines n = s.au.lines n := by
  simp [Au.lines, State.played_count]
  simp [State.played, State.onRing]

@[simp] theorem State.played_period (id : Nat) : (s.played n).au.period n id = s.au.period n id := by
  simp only [Au.period, State.played_count, State.played_lines, State.played_corr]
  simp [State.played, State.onRing]

theorem State.starved_keeps : (s.starved n).tc = s.tc ∧ (s.starved n).tm = s.tm ∧
    (s.starved n).pendingEvent .audioUnderrun = true := by
  unfold State.starved underrun
  exact ⟨rfl, rfl, raise_pendingEvent ..⟩

end

/-! ### The three outcomes -/

section
variable {n : Fin 3} {s : State}

theorem State.played_ring (n : Fin 3) (s : State) :
    vget (s.played n).au.rings n = { vget s.au.rings n with play := .playing } := vget_vmod_same ..

theorem Au.count_of_empty {a : Au} (empty : a.avail n = 0) : a.count n = 0 := by
  rw [Au.count, empty, Nat.zero_min]

theorem Au.short_of_empty {a : Au} (empty : a.avail n = 0) : a.avail n < (a.corr n).count := by
  have some (c : Correction) : 0 < c.count := by cases c <;> decide
  rw [empty]
  exact some _

theorem State.starved_chosen (empty : s.au.avail n = 0) : s.Chosen n ((s.played n).starved n) := by
  have unit := (s.played n).starved_au n
  have ring : vget ((s.played n).starved n).au.rings n = { vget s.au.rings n with
      play := .priming, underruns := (vget s.au.rings n).underruns + 1 } := by
    rw [unit, Au.starved, vget_vmod_same, vget_vmod_same, State.played_ring]
  obtain ⟨uplink, pulses, pending⟩ := (s.played n).starved_keeps n
  generalize (s.played n).starved n = u at *
  refine ⟨uplink, pulses, fun k other => ?_, ?_, ⟨(vget s.au.rings n).underruns + 1, ring.trans ?_⟩, fun _ => ⟨?_, pending⟩,
    fun enough => absurd (Au.short_of_empty empty) enough, fun _ => ?_, fun some => absurd empty some⟩
  · rw [unit]
    exact ((vget_vmod_ne _ _ other.symm).trans (vget_vmod_ne _ _ other.symm)).trans (vget_vmod_ne _ _ other.symm)
  · rw [unit]
    rfl
  · rw [if_pos empty, Au.count_of_empty empty]
    simp
  · rw [ring]
  · rw [unit]
    rfl

/-- What taking frames leaves of a ring and of the fetches. -/
theorem State.played_fed (n : Fin 3) (s : State) :
    vget ((s.played n).fed n).au.rings n = { vget s.au.rings n with
      play := .playing, taken := (vget s.au.rings n).taken + BitVec.ofNat 32 (s.au.count n) } ∧
    (∀ k, k ≠ n → vget ((s.played n).fed n).au.rings k = vget s.au.rings k) ∧
    ((s.played n).fed n).au.fetches = s.au.fetches ++ [s.au.period n s.nextId] ∧
    ((s.played n).fed n).au = { s.au with
      rings := ((s.played n).fed n).au.rings, fetches := ((s.played n).fed n).au.fetches
      driftCount := ((s.played n).fed n).au.driftCount, scheduled := ((s.played n).fed n).au.scheduled
      dropCorrs := ((s.played n).fed n).au.dropCorrs, repeatCorrs := ((s.played n).fed n).au.repeatCorrs } := by
  have unit := (s.played n).fed_unit n
  generalize ((s.played n).fed n).au = b at *
  refine ⟨?_, fun k other => ?_, ?_, ?_⟩
  · rw [unit, Au.took, vget_vmod_same, State.played_ring, State.played_count]
  · rw [unit]
    exact (vget_vmod_ne _ _ other.symm).trans (vget_vmod_ne _ _ other.symm)
  · rw [unit, Au.took, State.played_period]
    rfl
  · rw [unit]
    rfl

theorem State.fed_chosen (some : s.au.avail n ≠ 0) (enough : ¬ s.au.avail n < (s.au.corr n).count) :
    s.Chosen n ((s.played n).fed n) := by
  obtain ⟨ring, others, fetches, unit⟩ := s.played_fed n
  obtain ⟨uplink, pulses, events, reads⟩ := (s.played n).fed_keeps n
  rw [State.played_lines] at reads
  generalize (s.played n).fed n = u at *
  refine ⟨uplink, pulses, others, unit, ⟨(vget s.au.rings n).underruns, ?_⟩, fun short => absurd short enough,
    fun _ => ⟨?_, ?_⟩, fun empty => absurd empty some, fun _ => ⟨fetches, reads⟩⟩
  · rw [ring, if_neg some]
  · rw [ring]
  · rw [State.pendingEvent, events]
    rfl

theorem State.short_chosen (some : s.au.avail n ≠ 0) (short : s.au.avail n < (s.au.corr n).count) :
    s.Chosen n (underrun n ((s.played n).fed n)) := by
  obtain ⟨ring, others, fetches, unit⟩ := s.played_fed n
  obtain ⟨uplink, pulses, -, reads⟩ := (s.played n).fed_keeps n
  rw [State.played_lines] at reads
  generalize (s.played n).fed n = t at *
  have au : (underrun n t).au = { t.au with
      rings := vmod t.au.rings n fun r => { r with underruns := r.underruns + 1 } } := rfl
  have pending : (underrun n t).pendingEvent .audioUnderrun = true := raise_pendingEvent ..
  have left : (underrun n t).tc = t.tc ∧ (underrun n t).tm = t.tm ∧ (underrun n t).da = t.da := ⟨rfl, rfl, rfl⟩
  have last : vget (underrun n t).au.rings n = { vget s.au.rings n with
      play := .playing, taken := (vget s.au.rings n).taken + BitVec.ofNat 32 (s.au.count n)
      underruns := (vget s.au.rings n).underruns + 1 } := by
    rw [au, vget_vmod_same, ring]
  generalize underrun n t = u at *
  obtain ⟨tc, tm, da⟩ := left
  refine ⟨tc.trans uplink, tm.trans pulses, fun k other => ?_, ?_, ⟨(vget s.au.rings n).underruns + 1, ?_⟩,
    fun _ => ⟨?_, pending⟩, fun enough => absurd short enough, fun empty => absurd empty some, fun _ => ⟨?_, ?_⟩⟩
  · rw [au]
    exact (vget_vmod_ne _ _ other.symm).trans (others k other)
  · rw [au, unit]
  · rw [last, if_neg some]
  · rw [last]
  · rw [au]
    exact fetches
  · rw [da]
    exact reads

theorem Au.Drifts.of_same {a b c : Au} {n : Fin 3} (h : a.Drifts n b)
    (same : (c.driftCount, c.scheduled, c.dropCorrs, c.repeatCorrs) =
      (b.driftCount, b.scheduled, b.dropCorrs, b.repeatCorrs)) : a.Drifts n c := by
  simp only [Prod.mk.injEq] at same
  obtain ⟨count, scheduled, drops, repeats⟩ := same
  obtain ⟨others, made, empty, compared⟩ := h
  exact ⟨by rwa [count, scheduled, drops, repeats], by rwa [drops, repeats], by rwa [count, scheduled],
    by rwa [count, scheduled]⟩

theorem State.played_drifts {b : Au} (h : (s.played n).au.Drifts n b) : s.au.Drifts n b := by
  obtain ⟨others, made, empty, compared⟩ := h
  have main (yes : n = 0) : (s.played n).au.avail 0 = s.au.avail 0 ∧ (s.played n).au.corr 0 = s.au.corr 0 ∧
      (s.played n).au.count 0 = s.au.count 0 ∧
      (vget (s.played n).au.rings 0).threshold = (vget s.au.rings 0).threshold := by
    subst yes
    exact ⟨s.played_avail 0, s.played_corr 0, s.played_count 0, by rw [State.played_ring]⟩
  refine ⟨others, fun yes => ?_, fun yes => ?_, fun yes => ?_⟩
  · obtain ⟨avail, corr, -⟩ := main yes
    rw [← avail, ← corr]
    exact made yes
  · obtain ⟨avail, -⟩ := main yes
    rw [← avail]
    exact empty yes
  · obtain ⟨avail, -, count, threshold⟩ := main yes
    rw [← avail, ← count, ← threshold]
    exact compared yes

/-- The choice of a ring that plays. -/
theorem chooseFrames_chosen (plays : s.au.plays n) :
    s.Chosen n (chooseFrames n s) ∧ s.au.Drifts n (chooseFrames n s).au := by
  rw [chooseFrames_of_plays plays]
  by_cases empty : s.au.avail n = 0
  · rw [choosePlaying_of_empty (by rw [State.played_avail]; exact empty)]
    refine ⟨State.starved_chosen empty, State.played_drifts ?_⟩
    rw [State.starved_au]
    exact Au.starved_drifts (by rw [State.played_avail]; exact empty)
  · have drifts := (s.played n).fed_drifts n (by rw [State.played_avail]; exact empty)
    rw [choosePlaying_of_frames (by rw [State.played_avail]; exact empty), State.played_avail, State.played_corr]
    by_cases short : s.au.avail n < (s.au.corr n).count
    · rw [if_pos short]
      exact ⟨State.short_chosen empty short, State.played_drifts (drifts.of_same rfl)⟩
    · rw [if_neg short]
      exact ⟨State.fed_chosen empty short, State.played_drifts drifts⟩

end

end Sys2Proof.Machine
end

section
/-!
PROOFS. The lines of a playback ring's reads: each line that a frame stands in, once (R109).
-/
namespace Sys2Proof.Machine

theorem linesOf_nodup (a n : Nat) : (linesOf a n).Nodup := by
  unfold linesOf
  split
  · exact List.nodup_nil
  · exact List.Pairwise.map (a / 64 + ·) (fun _ _ other same => other (Nat.add_left_cancel same)) List.nodup_range

theorem mem_linesOf_frames {a k line : Nat} (aligned : a % 4 = 0) :
    line ∈ linesOf a (4 * k) ↔ ∃ i, i < k ∧ line = (a + 4 * i) / 64 := by
  rw [mem_linesOf]
  constructor
  · rintro ⟨some, first, last⟩
    exact ⟨(max a (64 * line) - a) / 4, by omega, by omega⟩
  · rintro ⟨i, inside, rfl⟩
    omega

/-- A period's frames wrap at most once, and the lines after the wrap are others than those before it. -/
theorem spanLines_ring {base capacity idx n : Nat} (aligned : base % 4 = 0) (fits : n + 16 ≤ capacity) :
    let lines := spanLines 4 (ringSpans base 4 capacity idx n)
    lines.Nodup ∧ ∀ line, line ∈ lines ↔ ∃ i, i < n ∧ line = (base + 4 * ((idx + i) % capacity)) / 64 := by
  intro lines
  have inside : idx % capacity < capacity := Nat.mod_lt _ (by omega)
  have start : (base + 4 * (idx % capacity)) % 4 = 0 := by omega
  have place (i : Nat) (before : i < capacity - idx % capacity) :
      (idx + i) % capacity = idx % capacity + i := by
    rw [Nat.add_mod, Nat.mod_eq_of_lt (a := i) (by omega), Nat.mod_eq_of_lt (by omega)]
  have wrapped (i : Nat) (after : capacity - idx % capacity ≤ i) (less : i < capacity) :
      (idx + i) % capacity = i - (capacity - idx % capacity) := by
    rw [Nat.add_mod, Nat.mod_eq_of_lt (a := i) less, Nat.mod_eq_sub_mod (by omega), Nat.mod_eq_of_lt (by omega)]
    omega
  by_cases one : n ≤ capacity - idx % capacity
  · have made : lines = linesOf (base + 4 * (idx % capacity)) (4 * n) := by
      simp [lines, spanLines, ringSpans, Nat.min_eq_left one]
    rw [made]
    refine ⟨linesOf_nodup .., fun line => ?_⟩
    rw [mem_linesOf_frames start]
    constructor
    · rintro ⟨i, less, rfl⟩
      exact ⟨i, less, by rw [place i (by omega)]; omega⟩
    · rintro ⟨i, less, rfl⟩
      exact ⟨i, less, by rw [place i (by omega)]; omega⟩
  · have made : lines = linesOf (base + 4 * (idx % capacity)) (4 * (capacity - idx % capacity)) ++
        linesOf base (4 * (n - (capacity - idx % capacity))) := by
      simp [lines, spanLines, ringSpans, Nat.min_eq_right (Nat.le_of_lt (Nat.lt_of_not_le one)), one]
    rw [made]
    generalize len : capacity - idx % capacity = k at *
    refine ⟨List.nodup_append.mpr ⟨linesOf_nodup .., linesOf_nodup .., fun x before y after => ?_⟩, fun line => ?_⟩
    · rw [mem_linesOf_frames start] at before
      rw [mem_linesOf_frames aligned] at after
      obtain ⟨i, less, rfl⟩ := before
      obtain ⟨j, more, rfl⟩ := after
      omega
    · rw [List.mem_append, mem_linesOf_frames start, mem_linesOf_frames aligned]
      constructor
      · rintro (⟨i, less, rfl⟩ | ⟨i, less, rfl⟩)
        · exact ⟨i, by omega, by rw [place i less]; omega⟩
        · exact ⟨k + i, by omega, by rw [wrapped (k + i) (by omega) (by omega)]; omega⟩
      · rintro ⟨i, less, rfl⟩
        by_cases before : i < k
        · exact Or.inl ⟨i, before, by rw [place i before]; omega⟩
        · exact Or.inr ⟨i - k, by omega, by rw [wrapped i (by omega) (by omega)]⟩

/-- The lines of the frames that a playback ring takes. -/
theorem Au.lines_shows (a : Au) (n : Fin 3) (aligned : (vget a.rings n).base % 64 = 0)
    (capacity : (vget a.rings n).capacity ∈ [256, 512, 1024, 2048, 4096, 8192, 16384, 32768, 65536]) :
    (a.lines n).Nodup ∧ ∀ line, line ∈ a.lines n ↔ ∃ i, i < a.count n ∧
      line = ((vget a.rings n).base +
        4 * (((vget a.rings n).taken.toNat + i) % (vget a.rings n).capacity)) / 64 := by
  have few := (a.count_le n).1
  have large : 256 ≤ (vget a.rings n).capacity := by
    simp only [List.mem_cons, List.not_mem_nil, or_false] at capacity
    omega
  exact spanLines_ring (by omega) (by omega)

end Sys2Proof.Machine
end

section
/-!
PROOFS. The choice of the playback rings at an audio boundary, either ring and playing or not (R108 to R110).
-/
namespace Sys2Proof.Machine

/-! ### A ring as the mix leaves it -/

/-- A unit whose ring has the same frames and chooses as another's does. -/
structure Au.Alike (n : Fin 3) (a b : Au) : Prop where
  ring : ∃ lates consume, vget b.rings n = { vget a.rings n with lates, consume }
  scheduled : n = 0 → b.scheduled = a.scheduled

section
variable {n : Fin 3} {a b : Au}

theorem Au.Alike.avail (h : a.Alike n b) : b.avail n = a.avail n := by
  obtain ⟨_, _, ring⟩ := h.ring
  rw [Au.avail, ring]
  rfl

theorem Au.Alike.plays (h : a.Alike n b) : b.plays n ↔ a.plays n := by
  obtain ⟨_, _, ring⟩ := h.ring
  rw [Au.plays, h.avail, ring]
  rfl

theorem Au.Alike.corr (h : a.Alike n b) : b.corr n = a.corr n := by
  by_cases main : n = 0
  · subst main
    rw [Au.corr, h.avail, h.scheduled rfl]
    rfl
  · rw [Au.corr, Au.corr, if_neg fun both => main both.1, if_neg fun both => main both.1]

theorem Au.Alike.count (h : a.Alike n b) : b.count n = a.count n := by
  rw [Au.count, h.avail, h.corr]
  rfl

theorem Au.Alike.lines (h : a.Alike n b) : b.lines n = a.lines n := by
  obtain ⟨_, _, ring⟩ := h.ring
  rw [Au.lines, h.count, ring]
  rfl

theorem Au.Alike.period (h : a.Alike n b) (id : Nat) : b.period n id = a.period n id := by
  obtain ⟨_, _, ring⟩ := h.ring
  rw [Au.period, h.lines, h.count, h.corr, ring]
  rfl

/-- The periods of a ring that wait for their mix. -/
def Au.waiting (a : Au) (n : Fin 3) : List FetchPeriod := a.fetches.filter fun p => p.ring == n && !p.mixed

theorem Au.waiting_of_mixed (mixed : ∀ p ∈ a.fetches, p.mixed = true) (n : Fin 3) : a.waiting n = [] :=
  List.filter_eq_nil_iff.mpr fun p mem => by simp [mixed p mem]

end

/-! ### The choice of one ring -/

section
variable {n : Fin 3} {s : State}

/-- The part of the unit that a choice leaves: the period's timer, its duties and the microphone's blocks. -/
def Au.beat (a : Au) : Option Nat × Bool × Nat × List (Nat × Nat) × U16 × List CaptureBlock :=
  (a.timer, a.running, a.pwmNext, a.duties, a.lfsr, a.blocks)

/-- The drift correction's state and counts. -/
def Au.drift (a : Au) : Nat × Correction × U32 × U32 := (a.driftCount, a.scheduled, a.dropCorrs, a.repeatCorrs)

/-- What the choice of a ring leaves unchanged. -/
theorem chooseFrames_leaves (n : Fin 3) (s : State) :
    let u := chooseFrames n s
    u.tc = s.tc ∧ u.tm = s.tm ∧ u.au.beat = s.au.beat ∧ (∀ k, k ≠ n → vget u.au.rings k = vget s.au.rings k) ∧
    (n ≠ 0 → u.au.drift = s.au.drift) ∧ ∀ k, k ≠ n → u.au.waiting k = s.au.waiting k := by
  intro u
  by_cases plays : s.au.plays n
  · obtain ⟨chosen, drifts⟩ := chooseFrames_chosen plays
    refine ⟨chosen.uplink, chosen.pulses, ?_, chosen.others, fun other => ?_, fun k other => ?_⟩
    · rw [chosen.unit]
      rfl
    · obtain ⟨count, scheduled, drops, repeats⟩ := drifts.others other
      rw [Au.drift, count, scheduled, drops, repeats]
      rfl
    · by_cases empty : s.au.avail n = 0
      · rw [Au.waiting, chosen.empty empty]
        rfl
      · have away : (s.au.period n s.nextId).ring ≠ k := other.symm
        rw [Au.waiting, (chosen.fetched empty).1, List.filter_append]
        simp [away, Au.waiting]
  · have same : u = s := chooseFrames_of_idle plays
    rw [same]
    exact ⟨rfl, rfl, rfl, fun _ _ => rfl, fun _ => rfl, fun _ _ => rfl⟩

theorem chooseFrames_pendingEvent (enough : ¬ (s.au.plays n ∧ s.au.avail n < (s.au.corr n).count)) :
    (chooseFrames n s).pendingEvent .audioUnderrun = s.pendingEvent .audioUnderrun := by
  by_cases plays : s.au.plays n
  · exact ((chooseFrames_chosen plays).1.enough fun short => enough ⟨plays, short⟩).2
  · rw [chooseFrames_of_idle plays]

/-- A ring after its choice, in terms of the unit before the boundary. -/
theorem chooseFrames_ring {a : Au} {w : State} (alike : a.Alike n s.au) (mixed : s.au.waiting n = [])
    (brings : (chooseFrames n s).Brings w) (kept : vget w.au.rings n = vget (chooseFrames n s).au.rings n)
    (waits : w.au.waiting n = (chooseFrames n s).au.waiting n) :
    let old := vget a.rings n
    let new := vget w.au.rings n
    let under : Prop := a.plays n ∧ a.avail n < (a.corr n).count
    new.lates = (vget s.au.rings n).lates ∧
    (¬ a.plays n → new.play = old.play ∧ new.taken = old.taken ∧ new.underruns = old.underruns ∧ w.au.waiting n = []) ∧
    (a.plays n → new.play = (if a.avail n = 0 then .priming else .playing) ∧
      new.taken = old.taken + BitVec.ofNat 32 (a.count n)) ∧
    (under → new.underruns = old.underruns + 1 ∧ w.pendingEvent .audioUnderrun = true) ∧
    (¬ under → new.underruns = old.underruns) ∧
    (a.plays n → a.avail n = 0 → w.au.waiting n = []) ∧
    (a.plays n → a.avail n ≠ 0 → w.au.waiting n = [a.period n s.nextId] ∧
      ∀ line ∈ a.lines n, ⟨.fetch s.nextId, line, .read⟩ ∈ w.da.all) := by
  obtain ⟨lates, consume, ring⟩ := alike.ring
  dsimp only
  rw [kept, waits]
  by_cases plays : a.plays n
  · obtain ⟨chosen, -⟩ := chooseFrames_chosen (alike.plays.mpr plays)
    obtain ⟨underruns, after⟩ := chosen.ring
    have short := chosen.short
    have enough := chosen.enough
    have empty := chosen.empty
    have fetched := chosen.fetched
    rw [alike.avail, alike.corr] at short enough
    rw [alike.avail] at empty fetched
    rw [alike.lines, alike.period] at fetched
    rw [alike.avail, alike.count] at after
    refine ⟨by rw [after], fun no => absurd plays no, fun _ => ⟨by rw [after], by rw [after, ring]⟩,
      fun ⟨_, less⟩ => ?_, fun full => ?_, fun _ none => ?_, fun _ some => ?_⟩
    · obtain ⟨counted, pending⟩ := short less
      exact ⟨by rw [counted, ring], brings.events _ pending⟩
    · rw [(enough fun less => full ⟨plays, less⟩).1, ring]
    · rw [Au.waiting, empty none]
      exact mixed
    · obtain ⟨fetches, reads⟩ := fetched some
      refine ⟨?_, fun line mem => brings.requests _ (reads line mem) nofun⟩
      have new : (a.period n s.nextId).ring = n ∧ (a.period n s.nextId).mixed = false := ⟨rfl, rfl⟩
      rw [Au.waiting, fetches, List.filter_append, List.filter_cons_of_pos (by simp [new])]
      exact congrArg (· ++ [a.period n s.nextId]) mixed
  · rw [chooseFrames_of_idle (mt alike.plays.mp plays)]
    exact ⟨rfl, fun _ => ⟨by rw [ring], by rw [ring], by rw [ring], mixed⟩, fun yes => absurd yes plays,
      fun yes => absurd yes.1 plays, fun _ => by rw [ring], fun yes => absurd yes plays, fun yes => absurd yes plays⟩

/-- The drift correction after ring 0's choice, in terms of the unit before the boundary. -/
theorem chooseFrames_drift {a : Au} (alike : a.Alike 0 s.au) (same : s.au.drift = a.drift) {made : Correction → U32}
    (one : ∀ c, a.plays 0 ∧ a.avail 0 ≠ 0 ∧ a.corr 0 = c → made c = 1)
    (zero : ∀ c, ¬ (a.plays 0 ∧ a.avail 0 ≠ 0 ∧ a.corr 0 = c) → made c = 0) :
    let b := (chooseFrames 0 s).au
    let compared := if a.driftCount = 10 then 1 else a.driftCount + 1
    b.dropCorrs = a.dropCorrs + made .drop ∧ b.repeatCorrs = a.repeatCorrs + made .again ∧
    (¬ a.plays 0 → b.driftCount = a.driftCount ∧ b.scheduled = a.scheduled) ∧
    (a.plays 0 → a.avail 0 = 0 → b.driftCount = 0 ∧ b.scheduled = .none) ∧
    (a.plays 0 → a.avail 0 ≠ 0 → b.driftCount = compared ∧ b.scheduled =
      if compared = 10 then driftCorrection (vget a.rings 0).threshold (a.avail 0 - a.count 0) else .none) := by
  obtain ⟨lates, consume, ring⟩ := alike.ring
  simp only [Au.drift, Prod.mk.injEq] at same
  obtain ⟨count, scheduled, drops, repeats⟩ := same
  dsimp only
  have is (c : Correction) (plays : a.plays 0) : made c = if a.avail 0 ≠ 0 ∧ a.corr 0 = c then 1 else 0 := by
    split
    next both => exact one c ⟨plays, both⟩
    next not => exact zero c fun all => not all.2
  by_cases plays : a.plays 0
  · obtain ⟨-, drifts⟩ := chooseFrames_chosen (alike.plays.mpr plays)
    have counted := drifts.made rfl
    have empty := drifts.empty rfl
    have compared := drifts.compared rfl
    rw [alike.avail, alike.corr, drops, repeats] at counted
    rw [alike.avail] at empty
    rw [alike.avail, alike.count, count, ring] at compared
    rw [is .drop plays, is .again plays]
    exact ⟨counted.1, counted.2, fun no => absurd plays no, fun _ => empty, fun _ => compared⟩
  · rw [chooseFrames_of_idle (mt alike.plays.mp plays)]
    have none (c : Correction) : made c = 0 := zero c fun all => plays all.1
    exact ⟨by simp [drops, none], by simp [repeats, none],
      fun _ => ⟨count, scheduled⟩, fun yes => absurd yes plays, fun yes => absurd yes plays⟩

end

end Sys2Proof.Machine
end

section
/-!
PROOFS. An audio period boundary (R108 to R115), and O53.
-/
namespace Sys2Proof.Machine

/-! ### The boundary's parts -/

/-- The part once an audio period boundary has mixed. -/
def State.mixed (s : State) : State := audioMix (pulse 17 (s.onAu fun a => { a with timer := some 1000 }))

/-- The part once the microphone's block is done. -/
def State.recorded (pdm : List U64) (s : State) : State := micBlock pdm s.mixed

theorem audioPeriodBoundary_runs (pdm : List U64) {s : State} (running : s.au.running = true)
    (due : s.au.timer = some 0) {P : State → Prop}
    (shows : P (audioBoundaryRest (s.recorded pdm))) : runsTo (.audioPeriodBoundary pdm) s P := by
  exact ⟨_, congrArg Host.Outcome.next (if_pos (by simp [running, due, Sys2Proof.Machine.due])), shows⟩

section
variable (s : State)

theorem State.mixed_brings : s.Brings s.mixed := .after (audioMix_brings _) (.of_same rfl rfl)

/-- What the mix leaves of the other units. -/
theorem State.mixed_keeps : s.mixed.tc = s.tc ∧ s.mixed.tm.pulses = s.tm.pulses ++ [17] ∧ s.mixed.nextId = s.nextId ∧
    s.mixed.eu = s.eu := by
  simp [State.mixed]

/-- The unit after the mix. -/
theorem State.mixed_shows :
    let a := s.au
    let b := s.mixed.au
    let d := mixDuties a.output (vget a.rings 0).gain (vget a.rings 1).gain a.lfsr
      (mixFrames 0 a.fetches) (mixFrames 1 a.fetches)
    b.beat = (some 1000, a.running, 0, d.1, d.2, a.blocks) ∧ b.drift = a.drift ∧
    (∀ p ∈ b.fetches, p.mixed = true) ∧ vget b.rings 2 = vget a.rings 2 ∧
    ∀ n : Fin 3, n ≠ 2 → a.Alike n b ∧
      (vget b.rings n).lates = (vget a.rings n).lates + BitVec.ofNat 32 (lateLines n a.fetches) := by
  intro a b d
  obtain ⟨unit, mixed, mic, play⟩ := audioMix_shows (pulse 17 (s.onAu fun a => { a with timer := some 1000 }))
  change b = _ at unit
  refine ⟨?_, ?_, mixed, mic, fun n other => ?_⟩
  · rw [unit]
    rfl
  · rw [unit]
    rfl
  · obtain ⟨consume, ring⟩ := play n other
    refine ⟨⟨⟨_, consume, ring⟩, fun _ => ?_⟩, congrArg AudioRing.lates ring⟩
    rw [unit]
    rfl

end

/-- The duties of a boundary and the dither generator behind them. -/
theorem mixDuties_of_unit (a : Au) :
    let d := mixDuties a.output (vget a.rings 0).gain (vget a.rings 1).gain a.lfsr
      (mixFrames 0 a.fetches) (mixFrames 1 a.fetches)
    d.1.length = 48 ∧ d.2 = a.output.dithered a.lfsr 96 ∧ ∀ i, i < 48 → d.1[i]? = some
      (a.output.duty (vget a.rings 0).gain (vget a.rings 1).gain 0 (a.frameAt 0 i) (a.frameAt 1 i)
        ((a.output.dithered a.lfsr (2 * i + 1)).getLsbD 0),
       a.output.duty (vget a.rings 0).gain (vget a.rings 1).gain 1 (a.frameAt 0 i) (a.frameAt 1 i)
        ((a.output.dithered a.lfsr (2 * i + 2)).getLsbD 0)) := by
  obtain ⟨first, frames0⟩ := mixFrames_at a 0
  obtain ⟨second, frames1⟩ := mixFrames_at a 1
  obtain ⟨length, last, duties⟩ := mixDuties_shows a.output (vget a.rings 0).gain (vget a.rings 1).gain a.lfsr
    (first.trans second.symm)
  rw [first] at length last
  exact ⟨length, last, fun i inside => duties i _ _ (frames0 i inside) (frames1 i inside)⟩

section
variable (pdm : List U64) (s : State)

/-- What the microphone's block leaves of the playback. -/
theorem State.recorded_keeps :
    let b := (s.recorded pdm).au
    b.drift = s.au.drift ∧ (∀ n, b.waiting n = []) ∧ (∀ n : Fin 3, n ≠ 2 → s.au.Alike n b ∧
      (vget b.rings n).lates = (vget s.au.rings n).lates + BitVec.ofNat 32 (lateLines n s.au.fetches)) ∧
    (s.recorded pdm).pendingEvent .audioUnderrun = s.pendingEvent .audioUnderrun ∧
    b.beat = (some 1000, s.au.running, 0, s.mixed.au.duties, s.mixed.au.lfsr, b.blocks) := by
  intro b
  obtain ⟨beat, drift, mixed, -, play⟩ := s.mixed_shows
  obtain ⟨same, -, under⟩ := micBlock_au pdm s.mixed
  obtain ⟨-, -, unit, -, rings⟩ := s.mixed.captured_keeps (captureFrames (vget s.mixed.au.rings 2).gain pdm)
  rw [← same] at unit rings
  change b = _ at unit
  have drifts : b.drift = s.mixed.au.drift := by
    rw [unit]
    rfl
  have beats : b.beat = (s.mixed.au.timer, s.mixed.au.running, s.mixed.au.pwmNext, s.mixed.au.duties, s.mixed.au.lfsr,
      b.blocks) := by
    rw [unit]
    rfl
  refine ⟨drifts.trans drift, Au.waiting_of_mixed ?_, fun n other => ?_, under.trans ?_, beats.trans ?_⟩
  · rw [unit]
    exact mixed
  · obtain ⟨alike, lates⟩ := play n other
    have ring : vget b.rings n = vget s.mixed.au.rings n := rings n other
    rw [ring]
    refine ⟨⟨by rw [ring]; exact alike.ring, fun main => ?_⟩, lates⟩
    exact (congrArg (·.2.1) drifts).trans (alike.scheduled main)
  · rw [State.pendingEvent, s.mixed_keeps.2.2.2]
    rfl
  · simp only [Au.beat, Prod.mk.injEq] at beat
    obtain ⟨timer, running, next, -⟩ := beat
    rw [timer, running, next]

/-- The microphone's ring after a boundary, and its block's writes. -/
theorem State.recorded_block {w : State} (brings : (s.recorded pdm).Brings w)
    (ring : vget w.au.rings 2 = vget (s.recorded pdm).au.rings 2)
    (blocks : w.au.blocks = (s.recorded pdm).au.blocks) :
    let r := vget s.au.rings 2
    let room : Prop := (r.issued - r.consume).toNat + 16 ≤ r.capacity
    let frames := captureFrames r.gain pdm
    (r.enabled = false → vget w.au.rings 2 = r ∧ w.au.blocks = s.au.blocks) ∧
    (r.enabled = true → room → vget w.au.rings 2 = { r with issued := r.issued + 16 } ∧
      laysBytes (r.blockWrites frames) (fun i => r.base + 2 * ((r.issued.toNat + i / 2) % r.capacity) + i % 2)
        (frames.flatMap fun f => toBytes 2 f.toNat) ∧
      (∀ p ∈ r.blockWrites frames, ⟨.capture s.nextId, p.1, .write p.2⟩ ∈ w.da.all) ∧
      w.au.blocks = s.au.blocks ++ [⟨s.nextId, (r.blockWrites frames).length⟩]) ∧
    (r.enabled = true → ¬ room → vget w.au.rings 2 = { r with overruns := r.overruns + 16 } ∧
      w.au.blocks = s.au.blocks ∧ w.pendingEvent .audioOverrun = true) := by
  obtain ⟨beat, -, -, mic, -⟩ := s.mixed_shows
  obtain ⟨-, -, id, -⟩ := s.mixed_keeps
  have held : s.mixed.au.blocks = s.au.blocks := congrArg (·.2.2.2.2.2) beat
  have shows := s.mixed.captured_shows (captureFrames_length (vget s.mixed.au.rings 2).gain pdm)
  obtain ⟨same, -, -⟩ := micBlock_au pdm s.mixed
  have copied : (s.mixed.captured (captureFrames (vget s.mixed.au.rings 2).gain pdm)).Brings w := by
    refine .after brings ?_
    rw [State.recorded, micBlock_eq]
    exact .ite (fun _ => uplinkJoin_brings ..) fun _ => .refl _
  change (s.recorded pdm).au = _ at same
  rw [mic] at shows same copied
  rw [same] at ring blocks
  rw [ring, blocks]
  rw [held, id] at shows
  obtain ⟨disabled, room, full⟩ := shows
  refine ⟨disabled, fun enabled fits => ?_, fun enabled crowded => ?_⟩
  · obtain ⟨issued, lays, writes, block⟩ := room enabled fits
    exact ⟨issued, lays, fun p mem => copied.requests _ (writes p mem)
      fun none => frameWrites_ne_nil mem (ReqOp.write.inj none), block⟩
  · obtain ⟨overruns, kept, pending⟩ := full enabled crowded
    exact ⟨overruns, kept, copied.events _ pending⟩

end

section
variable (t : State)

/-- What the choices leave of the rest. -/
theorem audioBoundaryRest_leaves :
    let u := audioBoundaryRest t
    u.tc = t.tc ∧ u.tm = t.tm ∧ u.au.beat = t.au.beat ∧ vget u.au.rings 2 = vget t.au.rings 2 ∧
    u.au.drift = (chooseFrames 0 t).au.drift ∧ t.Brings u := by
  obtain ⟨tc0, tm0, beat0, rings0, -⟩ := chooseFrames_leaves 0 t
  have brings := chooseFrames_brings 0 t
  unfold audioBoundaryRest
  generalize chooseFrames 0 t = v at *
  obtain ⟨tc1, tm1, beat1, rings1, drift1, -⟩ := chooseFrames_leaves 1 v
  exact ⟨tc1.trans tc0, tm1.trans tm0, beat1.trans beat0, (rings1 2 (by decide)).trans (rings0 2 (by decide)),
    drift1 (by decide), .after (chooseFrames_brings ..) brings⟩

variable {t} {a : Au}

/-- A playback ring after a boundary. -/
theorem audioBoundaryRest_ring {n : Fin 3} (play : n ≠ 2) (alike : a.Alike n t.au) (mixed : t.au.waiting n = []) :
    let u := audioBoundaryRest t
    let old := vget a.rings n
    let new := vget u.au.rings n
    let under : Prop := a.plays n ∧ a.avail n < (a.corr n).count
    new.lates = (vget t.au.rings n).lates ∧
    (¬ a.plays n → new.play = old.play ∧ new.taken = old.taken ∧ new.underruns = old.underruns ∧ u.au.waiting n = []) ∧
    (a.plays n → new.play = (if a.avail n = 0 then .priming else .playing) ∧
      new.taken = old.taken + BitVec.ofNat 32 (a.count n)) ∧
    (under → new.underruns = old.underruns + 1 ∧ u.pendingEvent .audioUnderrun = true) ∧
    (¬ under → new.underruns = old.underruns) ∧
    (a.plays n → a.avail n = 0 → u.au.waiting n = []) ∧
    (a.plays n → a.avail n ≠ 0 → ∃ id, u.au.waiting n = [a.period n id] ∧
      ∀ line ∈ a.lines n, ⟨.fetch id, line, .read⟩ ∈ u.da.all) := by
  have which : n = 0 ∨ n = 1 := by omega
  rcases which with rfl | rfl
  · obtain ⟨-, -, -, rings, -, waits⟩ := chooseFrames_leaves 1 (chooseFrames 0 t)
    obtain ⟨same, idle, takes, short, enough, empty, some⟩ := chooseFrames_ring alike mixed
      (chooseFrames_brings 1 (chooseFrames 0 t)) (rings 0 (by decide)) (waits 0 (by decide))
    exact ⟨same, idle, takes, short, enough, empty, fun yes frames => ⟨_, some yes frames⟩⟩
  · obtain ⟨-, -, -, rings, -, waits⟩ := chooseFrames_leaves 0 t
    have ring := rings 1 (by decide)
    have waiting := (waits 1 (by decide)).trans mixed
    unfold audioBoundaryRest
    generalize chooseFrames 0 t = v at *
    obtain ⟨same, idle, takes, short, enough, empty, some⟩ := chooseFrames_ring (n := 1) (s := v) (a := a)
      ⟨by rw [ring]; exact alike.ring, nofun⟩ waiting (.refl _) rfl rfl
    exact ⟨same.trans (congrArg AudioRing.lates ring), idle, takes, short, enough, empty,
      fun yes frames => ⟨_, some yes frames⟩⟩

/-- An underrun's event is pending after a boundary as it was, where no ring has one. -/
theorem audioBoundaryRest_pendingEvent (alike0 : a.Alike 0 t.au) (alike1 : a.Alike 1 t.au)
    (first : ¬ (a.plays 0 ∧ a.avail 0 < (a.corr 0).count)) (second : ¬ (a.plays 1 ∧ a.avail 1 < (a.corr 1).count)) :
    (audioBoundaryRest t).pendingEvent .audioUnderrun = t.pendingEvent .audioUnderrun := by
  obtain ⟨-, -, -, rings, -⟩ := chooseFrames_leaves 0 t
  have later : a.Alike 1 (chooseFrames 0 t).au := ⟨by rw [rings 1 (by decide)]; exact alike1.ring, nofun⟩
  rw [← alike0.plays, ← alike0.avail, ← alike0.corr] at first
  rw [← later.plays, ← later.avail, ← later.corr] at second
  exact (chooseFrames_pendingEvent second).trans (chooseFrames_pendingEvent first)

end

end Sys2Proof.Machine
end

section
/-!
PROOFS. O53: audio periods.
-/
namespace Sys2Proof.Machine

theorem driftCorrection_due {c threshold fill : Nat} : (if c = 10 then driftCorrection threshold fill else .none) =
    if c ≠ 10 then .none
    else if threshold + 96 < fill then .drop
    else if fill + 96 < threshold ∧ 0 < fill then .again
    else Correction.none := by
  by_cases tenth : c = 10
  · rw [if_pos tenth, if_neg (Classical.not_not.mpr tenth), driftCorrection]
  · rw [if_neg tenth, if_pos tenth]

theorem Au.blocks_of_beat {a b : Au} (same : a.beat = b.beat) : a.blocks = b.blocks := congrArg (·.2.2.2.2.2) same

section
variable (pdm : List U64) (s : State)

/-- The period's timer, its duties and the dither generator after a boundary. -/
theorem audioBoundary_beat :
    let u := audioBoundaryRest (s.recorded pdm)
    let a := s.au
    u.au.timer = some 1000 ∧ u.au.running = a.running ∧ u.au.pwmNext = 0 ∧ u.tm.pulses = s.tm.pulses ++ [17] ∧
    u.au.duties.length = 48 ∧ u.au.lfsr = a.output.dithered a.lfsr 96 ∧ ∀ i, i < 48 → u.au.duties[i]? = some
      (a.output.duty (vget a.rings 0).gain (vget a.rings 1).gain 0 (a.frameAt 0 i) (a.frameAt 1 i)
        ((a.output.dithered a.lfsr (2 * i + 1)).getLsbD 0),
       a.output.duty (vget a.rings 0).gain (vget a.rings 1).gain 1 (a.frameAt 0 i) (a.frameAt 1 i)
        ((a.output.dithered a.lfsr (2 * i + 2)).getLsbD 0)) := by
  obtain ⟨beat, -⟩ := s.mixed_shows
  obtain ⟨-, pulses, -⟩ := s.mixed_keeps
  obtain ⟨-, -, -, -, recorded⟩ := s.recorded_keeps pdm
  obtain ⟨-, pulsed, -⟩ := micBlock_au pdm s.mixed
  obtain ⟨-, tm, kept, -⟩ := audioBoundaryRest_leaves (s.recorded pdm)
  have total := kept.trans recorded
  have sent := (congrArg Tm.pulses (tm.trans pulsed)).trans pulses
  have made := mixDuties_of_unit s.au
  generalize audioBoundaryRest (s.recorded pdm) = u at *
  simp only [Au.beat, Prod.mk.injEq] at beat total
  obtain ⟨-, -, -, mixed, dithered, -⟩ := beat
  obtain ⟨timer, running, next, duties, lfsr, -⟩ := total
  dsimp only
  rw [duties, lfsr, mixed, dithered]
  exact ⟨timer, running, next, sent, made⟩

/-- The uplink after a boundary is as the microphone's block leaves it. -/
theorem audioBoundary_uplink :
    let u := audioBoundaryRest (s.recorded pdm)
    let r := vget s.au.rings 2
    let frames := captureFrames r.gain pdm
    (r.uplink ≠ 1 → u.tc = s.tc) ∧
    (r.uplink = 1 → ¬ s.tc.link.linked →
      u.tc = { s.tc with unlinked := vset s.tc.unlinked 3 (vget s.tc.unlinked 3 + 1) }) ∧
    (r.uplink = 1 → s.tc.link.linked → 32 ≤ s.tc.queue.length → u.pendingEvent .uplinkFull = true ∧
      u.tc = { s.tc with fullDrops := vset s.tc.fullDrops 3 (vget s.tc.fullDrops 3 + 1) }) ∧
    (r.uplink = 1 → s.tc.link.linked → s.tc.queue.length < 32 → ∃ id,
      (s.tc.link = .recovery ∨ s.tc.lane ≠ .free →
        u.tc = { s.tc with queue := s.tc.queue ++ [⟨id, .audioIn frames⟩] }) ∧
      (s.tc.link = .up → s.tc.lane = .free → s.tc.choice = none → s.tc.restricted = false →
        let packet := uplinkPacket 0x34 false false 0 (frames.flatMap fun f => toBytes 2 f.toNat)
        u.tc.lane = .sending packet id (laneTime packet))) := by
  obtain ⟨-, -, -, mic, -⟩ := s.mixed_shows
  obtain ⟨link, -⟩ := s.mixed_keeps
  obtain ⟨tc, -, -, -, -, brings⟩ := audioBoundaryRest_leaves (s.recorded pdm)
  have uplink := micBlock_uplink pdm s.mixed
  rw [link, mic] at uplink
  generalize audioBoundaryRest (s.recorded pdm) = u at *
  obtain ⟨unasked, unlinked, full, joins⟩ := uplink
  dsimp only
  rw [tc]
  exact ⟨unasked, unlinked, fun asked up most => (full asked up most).imp_left (brings.events _), joins⟩

/-- The drift correction after a boundary. -/
theorem audioBoundary_drift {made : Correction → U32}
    (one : ∀ c, s.au.plays 0 ∧ s.au.avail 0 ≠ 0 ∧ s.au.corr 0 = c → made c = 1)
    (zero : ∀ c, ¬ (s.au.plays 0 ∧ s.au.avail 0 ≠ 0 ∧ s.au.corr 0 = c) → made c = 0) :
    let a := s.au
    let b := (audioBoundaryRest (s.recorded pdm)).au
    let compared := if a.driftCount = 10 then 1 else a.driftCount + 1
    b.dropCorrs = a.dropCorrs + made .drop ∧ b.repeatCorrs = a.repeatCorrs + made .again ∧
    (¬ a.plays 0 → b.driftCount = a.driftCount ∧ b.scheduled = a.scheduled) ∧
    (a.plays 0 → a.avail 0 = 0 → b.driftCount = 0 ∧ b.scheduled = .none) ∧
    (a.plays 0 → a.avail 0 ≠ 0 → b.driftCount = compared ∧ b.scheduled =
      if compared = 10 then driftCorrection (vget a.rings 0).threshold (a.avail 0 - a.count 0) else .none) := by
  obtain ⟨drift, -, plays, -⟩ := s.recorded_keeps pdm
  obtain ⟨-, -, -, -, drifts, -⟩ := audioBoundaryRest_leaves (s.recorded pdm)
  have drifted := chooseFrames_drift (plays 0 (by decide)).1 drift one zero
  simp only [Au.drift, Prod.mk.injEq] at drifts
  obtain ⟨count, scheduled, drops, repeats⟩ := drifts
  dsimp only at drifted ⊢
  rw [count, scheduled, drops, repeats]
  exact drifted

end

/-- A duty is the sample's top bits and the dither bit, held to the PWM's range. -/
theorem dutyOf_mixSample (r0 r1 : Int) (g0 g1 volume bit : Nat) (mute : Bool) :
    let clamp (v : Int) : Int := if v < -32768 then -32768 else if 32767 < v then 32767 else v
    let mixed := clamp ((r0 * g0 + r1 * g1).fdiv 256)
    let scaled := if mute then 0 else clamp ((mixed * volume).fdiv 256)
    (dutyOf (mixSample r0 r1 g0 g1 volume mute) bit : Int) = min 1023 ((scaled + 32768).fdiv 64 + bit) := by
  intro clamp mixed scaled
  have held (v : Int) : hold16 v = clamp v := hold16_eq v
  have made : mixSample r0 r1 g0 g1 volume mute = scaled := by
    rw [mixSample_eq, held, held]
  rw [dutyOf_cast (mixSample_low ..), made]

/-- Settles O53, part by part: the mix, the microphone's block, and the playback rings' choice. -/
theorem audioPeriods : Obligations.AudioPeriods := by
  refine ⟨fun pdm s running due => audioPeriodBoundary_runs pdm running due ?_,
    fun s running next begins => pwmPeriodBoundary_takes running next begins, fun a d edge => lineDrive_shows a d edge,
    dutyOf_mixSample, fun gain bits => ?_, fun taps state => lfsrNext_bits taps state⟩
  · obtain ⟨-, waiting, plays, under, -⟩ := s.recorded_keeps pdm
    obtain ⟨-, -, kept, ring2, -, brings⟩ := audioBoundaryRest_leaves (s.recorded pdm)
    have blocks := s.recorded_block pdm brings ring2 (Au.blocks_of_beat kept)
    have ring (n : Fin 3) (play : n ≠ 2) := audioBoundaryRest_ring play (plays n play).1 (waiting n)
    have events := audioBoundaryRest_pendingEvent (plays 0 (by decide)).1 (plays 1 (by decide)).1
    have uplink := audioBoundary_uplink pdm s
    have drift (made : Correction → U32) := audioBoundary_drift pdm s (made := made)
    obtain ⟨timer, runs, next, pulses, length, last, duties⟩ := audioBoundary_beat pdm s
    generalize audioBoundaryRest (s.recorded pdm) = u at *
    intro a o r room frame duty
    refine ⟨timer, runs.trans running, next, pulses, ⟨length, o.dithered a.lfsr, rfl, last, fun k => rfl, duties⟩, ?_⟩
    intro frames bytes writes
    obtain ⟨disabled, block, crowded⟩ := blocks
    refine ⟨disabled, block, crowded, ?_⟩
    intro linked
    obtain ⟨unasked, unlinked, full, joins⟩ := uplink
    refine ⟨unasked, unlinked, full, joins, ?_⟩
    intro avail playing size corr count fails
    refine ⟨fun n play => ?_, fun first second => (events first second).trans under, ?_⟩
    · intro old new waits addr
      obtain ⟨lates, idle, takes, short, enough, empty, some⟩ := ring n play
      refine ⟨lates.trans (plays n play).2, idle, takes, short, enough, empty, fun yes frames => ?_⟩
      obtain ⟨id, period, reads⟩ := some yes frames
      refine ⟨id, s.au.lines n, period.trans ?_, reads, fun capacity aligned => s.au.lines_shows n aligned capacity⟩
      rw [Au.period, frameAddrs, List.map_map]
      rfl
    · intro compared fill threshold made
      obtain ⟨drop, again, idle, empty, some⟩ := drift made (fun c both => if_pos both) fun c not => if_neg not
      refine ⟨drop, again, idle, empty, fun yes frames => ?_⟩
      obtain ⟨counted, correction⟩ := some yes frames
      exact ⟨counted, correction.trans driftCorrection_due⟩
  · intro clamp ones
    have held (v : Int) : hold16 v = clamp v := hold16_eq v
    rw [captureFrame_toInt, held, held]
    rfl

end Sys2Proof.Machine
end
